-- ==== Sys2Proof/Word.lean ====
section
/-! DEFINITION. The word types of the machine and the plainest arithmetic on them. -/

namespace Sys2Proof

/-- A 64-bit token payload, register or slot word (spec R26, R63). -/
abbrev Word := BitVec 64

/-- A byte of device memory (R7). -/
abbrev Byte := BitVec 8

/-- Replace the entry of a list at a position, leaving the list alone past its end. -/
def listSet {α : Type} : List α → Nat → α → List α
  | [], _, _ => []
  | _ :: xs, 0, v => v :: xs
  | x :: xs, n + 1, v => x :: listSet xs n v

/-- Apply a function at one position of a list. -/
def listModify {α : Type} (xs : List α) (n : Nat) (f : α → α) : List α :=
  match xs[n]? with
  | some x => listSet xs n (f x)
  | none => xs

end Sys2Proof
end

