-- ==== Sys2Proof/Syntax.lean ====
section
/-! DEFINITION. The rows of the opcode table as one inductive type, with the typed fields of
each row: the instruction words of the slot (R63 to R79), the steps of the sequencing program
(R339) and the events that the machine's agents perform (95_what_each_step_holds). -/

namespace Sys2Proof

/-! ## Fields of a slot word -/

/-- The integer and memory widths of SZ (R63): 64, 32, 16 and 8 bits. -/
inductive Width
  | d | w | h | b
  deriving DecidableEq, Repr, Inhabited

/-- The float formats of SZ (R63): FP64, FP32, FP16 and BF16. -/
inductive FloatFmt
  | d | s | h | bf
  deriving DecidableEq, Repr, Inhabited

/-- The condition codes of R72. -/
inductive Cond
  | eq | ne | lt | le | gt | ge | ltu | leu
  deriving DecidableEq, Repr, Inhabited

/-- The rounding modes of R51. -/
inductive RMode
  | rne | rtz | rdn | rup
  deriving DecidableEq, Repr, Inhabited

/-- The rounding choice of a slot: a mode of its own, or the dynamic mode in ROUND (R51). -/
inductive Rounding
  | fixed (m : RMode)
  | dyn
  deriving DecidableEq, Repr, Inhabited

/-- The scopes of an ordered access (R74). -/
inductive Scope
  | act | clu | die | dev | sys
  deriving DecidableEq, Repr, Inhabited

/-- The three forms of FENCE (R74, R152). -/
inductive FenceForm
  | full | acq | rel
  deriving DecidableEq, Repr, Inhabited

/-- The operand ports of a slot (R26). -/
inductive Port
  | left | right | pred
  deriving DecidableEq, Repr, Inhabited

/-- A valid target (R65): a port of a slot at an offset in the cluster, or a hold register. -/
inductive Target
  | site (port : Port) (slot : BitVec 5) (dx dy : BitVec 4)
  | hold (k : BitVec 3)
  deriving DecidableEq, Repr, Inhabited

/-- TA, TB and the P bit of a slot word (R63). -/
structure Out where
  ta : Option Target
  tb : Option Target
  pred : Bool
  deriving DecidableEq, Repr, Inhabited

/-- The fields of a binary integer instruction (R72, R75).  Without `immOn`, `imm` is the
replacement value of policy 10 (R69, R71). -/
structure IntForm where
  sz : Width
  packed : Bool
  immOn : Bool
  imm : BitVec 16
  deriving DecidableEq, Repr, Inhabited

/-- The fields of PACK: the width of a half, and the replacement value of policy 10 (R69, R125). -/
structure PackForm where
  sz : Width
  rep : BitVec 16
  deriving DecidableEq, Repr, Inhabited

/-- The fields of a unary integer instruction; `rep` is the replacement value of policy 10. -/
structure UnForm where
  sz : Width
  packed : Bool
  rep : BitVec 16
  deriving DecidableEq, Repr, Inhabited

/-- The fields of a float instruction that rounds (R73, R137). -/
structure FltForm where
  fmt : FloatFmt
  packed : Bool
  rnd : Rounding
  rep : BitVec 16
  deriving DecidableEq, Repr, Inhabited

/-- LSID, offset and order of a memory-class instruction (R74). -/
structure MemForm where
  lsid : BitVec 5
  off : BitVec 11
  ord : Option Scope
  deriving DecidableEq, Repr, Inhabited

/-- The part that every engine command has (R77): its targets, the P bit and the engine site. -/
structure Cmd where
  ta : Option Target
  tb : Option Target
  pred : Bool
  site : BitVec 6
  deriving DecidableEq, Repr, Inhabited

/-- The command fields of a vector instruction (R180). -/
structure VecForm where
  sz : FloatFmt
  rm : RMode
  fn : BitVec 4
  orp : BitVec 2
  deriving DecidableEq, Repr, Inhabited

/-- The command fields of a memory-tile instruction (R186). -/
structure TileForm where
  g : BitVec 2
  k : BitVec 2
  p : BitVec 2
  deriving DecidableEq, Repr, Inhabited

/-- The command fields of a lighter copy (R194). -/
structure CopyForm where
  tile : BitVec 3
  g : BitVec 2
  k : BitVec 2
  deriving DecidableEq, Repr, Inhabited

/-- The value types of a coordinate pair (R48, R186). -/
inductive ValFmt
  | fp16 | bf16 | int16
  deriving DecidableEq, Repr, Inhabited

/-- The element widths of SEAMIN and SEAMOUT (R202). -/
inductive ElemWidth
  | e64 | e32 | e16
  deriving DecidableEq, Repr, Inhabited

/-- The operations of TRMW (R186, R192). -/
inductive RmwOp
  | gather | add | min | max | swap
  deriving DecidableEq, Repr, Inhabited

/-- The condition of BRANCH (R339). -/
inductive SeqCond
  | always | cancelled | normal
  deriving DecidableEq, Repr, Inhabited

/-! ## What comes from outside the device -/

/-- A packet of the hawser network (R374 to R378), as plain data.  `src` is the device it comes
from, `id` the requester id, `fs` and `mark` the full serial and the full mark. -/
inductive PacketBody
  /-- a serialled or unserialled request for a home of this device: operation code (the slot
  opcode, R79), access size, effective address, operand, second operand, context -/
  | request (op sz : Nat) (ea : Nat) (data data2 : BitVec 64) (block : List Byte) (ctx : Nat)
      (serialled : Bool)
  /-- a token sent by SENDX (R113): destination word, payload, token bits -/
  | token (place : BitVec 64) (payload bits : BitVec 64)
  /-- the reply to a request: result, flags, the kind of the token it stands for,
  and for an engine's read of a block its bytes, with the side band [15:0] as the result -/
  | reply (result : BitVec 64) (flags kind : Nat) (block : List Byte)
  /-- a reply that carries a fault (R375) -/
  | faultReply (cause : Nat)
  /-- a BUSY reply (R376) -/
  | busy
  | markQuery
  | markAnswer
  | gone
  deriving DecidableEq, Repr, Inhabited

structure Packet where
  src : Nat
  dst : Nat
  id : Nat
  fs : Nat
  mark : Nat
  body : PacketBody
  deriving DecidableEq, Repr, Inhabited

/-- What a home port performs next: a request the fabric has issued, or an access of an
application core (R300), which comes from outside the fabric. -/
inductive PortWork
  | pending (req : Nat)
  | coreRead (addr : Nat) (len : Nat)
  | coreWrite (addr : Nat) (bytes : List Byte)
  deriving DecidableEq, Repr, Inhabited

/-- A function of the device that reports readiness (R404). -/
inductive ReadyFn
  | hm | link (n : Nat) | die (d : Nat) | hbm (d : Nat) | lighter (d n : Nat) | cluster (d c : Nat)
  deriving DecidableEq, Repr, Inhabited

/-- The item whose completion is recorded (R344): one part of a graph, a graph, a phase, a job. -/
inductive ItemRef
  | launch (run part : Nat) | graph (run : Nat) | phase (job phase : Nat) | job (job : Nat)
  deriving DecidableEq, Repr, Inhabited

/-! ## The rows -/

/-- One constructor for each row of the opcode table.  The docstring of a group names the rule
that lays its fields out. -/
inductive Instr
  /- Steering, control and tags, R103.  `rep` is the replacement value of policy 10 (R69). -/
  | ill (high : Bool)
  | mov (o : Out) (rep : BitVec 16)
  | mov3 (o : Out) (tc : Option Target)
  | const (o : Out) (k : BitVec 16)
  | constor (o : Out) (k : BitVec 16)
  | steer (o : Out) (rep : BitVec 16)
  | steern (o : Out) (rep : BitVec 16)
  | select (o : Out) (rep : BitVec 16)
  | nullt (o : Out) (rep : BitVec 16)
  | iter (o : Out) (rep : BitVec 16)
  | iterset (o : Out) (rep : BitVec 16)
  | iterread (o : Out) (rep : BitVec 16)
  | colnew (o : Out) (rep : BitVec 16)
  | colfree (o : Out) (rep : BitVec 16)
  | retag (o : Out) (rep : BitVec 16)
  | exit (o : Out) (rep : BitVec 16)
  | send (pred : Bool) (rep : BitVec 16)
  | sendx (pred : Bool) (rep : BitVec 16)
  | gate (o : Out) (rep : BitVec 16)
  | kindq (o : Out) (rep : BitVec 16)
  | stopt (o : Out) (n : BitVec 3)
  | kill (o : Out) (rep : BitVec 16)
  | throttle (o : Out) (w1 : BitVec 10)
  | retire (o : Out) (rep : BitVec 16)
  /- Integer and logic, R125 -/
  | add (o : Out) (f : IntForm)
  | sub (o : Out) (f : IntForm)
  | mul (o : Out) (f : IntForm)
  | mulh (o : Out) (f : IntForm) (u : Bool)
  | div (o : Out) (f : IntForm) (u zdef : Bool)
  | rem (o : Out) (f : IntForm) (u zdef : Bool)
  | and (o : Out) (f : IntForm)
  | or (o : Out) (f : IntForm)
  | xor (o : Out) (f : IntForm)
  | andn (o : Out) (f : IntForm)
  | shl (o : Out) (f : IntForm)
  | shr (o : Out) (f : IntForm)
  | sar (o : Out) (f : IntForm)
  | rol (o : Out) (f : IntForm)
  | min (o : Out) (f : IntForm) (u : Bool)
  | max (o : Out) (f : IntForm) (u : Bool)
  | abs (o : Out) (f : UnForm)
  | neg (o : Out) (f : UnForm)
  | clz (o : Out) (f : UnForm)
  | popc (o : Out) (f : UnForm)
  | brev (o : Out) (f : UnForm)
  | cmp (o : Out) (f : IntForm) (cc : Cond)
  | test (o : Out) (f : IntForm) (ne : Bool)
  | adds (o : Out) (f : IntForm) (u : Bool)
  | subs (o : Out) (f : IntForm) (u : Bool)
  | lea (o : Out) (sz : Width) (sh : BitVec 3)
  | base (o : Out) (n : BitVec 4)
  | shape (o : Out) (sz : Width) (m : BitVec 16)
  | extr (o : Out) (pos len1 : BitVec 6) (sx : Bool)
  | ins (o : Out) (pos len1 : BitVec 6)
  | pack (o : Out) (sz : PackForm)
  | unpk (o : Out) (sz : Width) (k : BitVec 3) (sx : Bool)
  /- Floating point, R137 -/
  | fadd (o : Out) (f : FltForm)
  | fsub (o : Out) (f : FltForm)
  | fmul (o : Out) (f : FltForm)
  | fma (o : Out) (fmt : FloatFmt) (packed : Bool) (rnd : Rounding) (k : BitVec 3)
  | fdiv (o : Out) (fmt : FloatFmt) (rnd : Rounding) (rep : BitVec 16)
  | fsqrt (o : Out) (fmt : FloatFmt) (rnd : Rounding) (rep : BitVec 16)
  | fmin (o : Out) (fmt : FloatFmt) (packed : Bool) (rep : BitVec 16)
  | fmax (o : Out) (fmt : FloatFmt) (packed : Bool) (rep : BitVec 16)
  | fcmp (o : Out) (fmt : FloatFmt) (packed : Bool) (cc : Cond) (rep : BitVec 16)
  | fsgn (o : Out) (fmt : FloatFmt) (packed : Bool) (m : BitVec 2)
  | fcvt (o : Out) (rnd : Rounding) (nanov : Bool) (dst src : BitVec 8)
  | ftoi (o : Out) (fmt : FloatFmt) (rnd : Rounding) (id : BitVec 8)
  | itof (o : Out) (fmt : FloatFmt) (rnd : Rounding) (id : BitVec 8)
  | fexp2 (o : Out) (fmt : FloatFmt) (rnd : Rounding) (rep : BitVec 16)
  | flog2 (o : Out) (fmt : FloatFmt) (rnd : Rounding) (rep : BitVec 16)
  | frcp (o : Out) (fmt : FloatFmt) (rnd : Rounding) (rep : BitVec 16)
  | frsq (o : Out) (fmt : FloatFmt) (rnd : Rounding) (rep : BitVec 16)
  | fsinp (o : Out) (fmt : FloatFmt) (rnd : Rounding) (rep : BitVec 16)
  | fcosp (o : Out) (fmt : FloatFmt) (rnd : Rounding) (rep : BitVec 16)
  | fclass (o : Out) (fmt : FloatFmt) (rep : BitVec 16)
  /- Memory, R147 -/
  | ld (o : Out) (sz : Width) (m : MemForm)
  | st (o : Out) (sz : Width) (m : MemForm)
  | ldv (o : Out) (sz : Width) (m : MemForm)
  | stv (o : Out) (sz : Width) (m : MemForm)
  | vers (o : Out) (m : MemForm)
  | vset (o : Out) (m : MemForm)
  | ldd (o : Out) (m : MemForm)
  | std (o : Out) (m : MemForm)
  | pref (o : Out) (lsid : BitVec 5) (off : BitVec 11)
  | fence (o : Out) (form : FenceForm) (scope : Scope) (ordered : Bool) (lsid : BitVec 5)
  /- Atomics and exact accumulation, R153, R154 -/
  | aadd (o : Out) (sz : Width) (m : MemForm)
  | aand (o : Out) (sz : Width) (m : MemForm)
  | aor (o : Out) (sz : Width) (m : MemForm)
  | axor (o : Out) (sz : Width) (m : MemForm)
  | amin (o : Out) (sz : Width) (m : MemForm)
  | amax (o : Out) (sz : Width) (m : MemForm)
  | aswap (o : Out) (sz : Width) (m : MemForm)
  | acas (o : Out) (sz : Width) (lsid : BitVec 5) (off : BitVec 8) (k : BitVec 3) (ord : Option Scope)
  | afadd (o : Out) (sz : Width) (m : MemForm)
  | xinit (o : Out) (sz : Width) (m : MemForm)
  | xacc (o : Out) (sz : Width) (m : MemForm)
  | xread (o : Out) (sz : Width) (m : MemForm)
  | aincw (o : Out) (sz : Width) (m : MemForm)
  | aser (o : Out) (sz : Width) (m : MemForm)
  /- Time, tasks and hand-offs, R155 to R160 -/
  | cycle (o : Out) (rep : BitVec 16)
  | waitt (o : Out) (rep : BitVec 16)
  | bar (o : Out) (m : MemForm)
  | post (o : Out) (m : MemForm)
  | signal (o : Out) (m : MemForm)
  | arm (o : Out) (m : MemForm)
  | cancel (o : Out) (lsid : BitVec 5) (ord : Option Scope)
  | doneq (o : Out) (lsid : BitVec 5) (ord : Option Scope)
  | own (c : Cmd)
  | permit (o : Out) (strand : BitVec 8)
  | take (o : Out) (strand : BitVec 8)
  /- Strands and seams, R199 to R203 -/
  | strset (o : Out) (strand : BitVec 8) (index : BitVec 4) (branch : BitVec 3)
  | strocc (o : Out) (strand : BitVec 8) (index : BitVec 4) (branch : BitVec 3)
  | strclose (o : Out) (strand : BitVec 8)
  | seamin (c : Cmd) (n : BitVec 3) (q : Bool) (ew : ElemWidth)
  | seamout (c : Cmd) (q : Bool) (ew : ElemWidth)
  /- Frames, R171 -/
  | mzero (c : Cmd) (t : Bool)
  | mldb (c : Cmd)
  | mldc (c : Cmd) (t : Bool)
  | mma (c : Cmd) (t : Bool)
  | mmas (c : Cmd) (t : Bool)
  | mmax3 (c : Cmd) (t : Bool)
  | mout (c : Cmd) (t : Bool) (rm : RMode) (fmt : BitVec 5) (nanov : Bool)
  | mrow (c : Cmd) (reg : BitVec 2)
  | mscale (c : Cmd)
  | mbmap (c : Cmd)
  /- Vector elements and converters, R180, R184 -/
  | vmap (c : Cmd) (f : VecForm)
  | vfma (c : Cmd) (f : VecForm)
  | vred (c : Cmd) (f : VecForm)
  | vscan (c : Cmd) (f : VecForm)
  | vsoft (c : Cmd) (f : VecForm)
  | vnorm (c : Cmd) (f : VecForm)
  | cvt (c : Cmd) (rm : RMode) (fmt : BitVec 5) (nanov : Bool)
  | vcmp (c : Cmd) (f : VecForm)
  | vsel (c : Cmd) (f : VecForm)
  | vrope (c : Cmd) (f : VecForm)
  /- Memory tiles, R186 -/
  | tshape (c : Cmd) (f : TileForm)
  | tread (c : Cmd) (f : TileForm)
  | twrite (c : Cmd) (f : TileForm)
  | tcomp (c : Cmd) (f : TileForm)
  | texp (c : Cmd) (f : TileForm) (vf : ValFmt)
  | trot (c : Cmd) (f : TileForm)
  | twin (c : Cmd) (f : TileForm)
  | tzmap (c : Cmd) (f : TileForm)
  | tsacc (c : Cmd) (f : TileForm) (vf : ValFmt)
  | trep (c : Cmd) (f : TileForm)
  | trmw (c : Cmd) (f : TileForm) (op : RmwOp)
  | tfill (c : Cmd) (f : TileForm)
  /- Lighters, R194 -/
  | cpy (c : Cmd) (f : CopyForm) (d : Bool)
  | cpyg (c : Cmd) (f : CopyForm)
  | cpys (c : Cmd) (f : CopyForm)
  | cpy2d (c : Cmd) (f : CopyForm) (d : Bool)
  | cpyq (c : Cmd)
  /- Projection elements, R206 -/
  | camld (c : Cmd) (cam : BitVec 3)
  | camset (c : Cmd) (cam : BitVec 3) (word : BitVec 5)
  | camcomp (c : Cmd) (cam a b : BitVec 3)
  | pgather (c : Cmd) (cam : BitVec 3) (ng1 : BitVec 3)
  | pray (c : Cmd) (cam : BitVec 3) (ng1 : BitVec 3)
  | pscat (c : Cmd) (cam : BitVec 3) (carve ptrap : Bool)
  | pstore (c : Cmd)
  | pstat (c : Cmd) (k : BitVec 3)
  | pclear (c : Cmd)
  | pprior (c : Cmd)
  /- The sampler and key-value instructions, R217, R227 -/
  | topk (c : Cmd)
  | sample (c : Cmd)
  | accept (c : Cmd)
  | resid (c : Cmd)
  | draw (c : Cmd)
  | kvcommit (o : Out) (lsid : BitVec 5) (scope : Scope)
  | ldk (o : Out) (sz : Width) (lsid : BitVec 5) (off : BitVec 11) (scope : Scope)
  | treemask (c : Cmd)
  | drawtab (c : Cmd)
  /- Seams, R228 -/
  | isect (c : Cmd)
  | union (c : Cmd)
  | seampol (c : Cmd)
  | cmpr (c : Cmd)
  /- System and traps, R161 to R165 -/
  | trap (o : Out) (code : BitVec 16)
  | rds (o : Out) (num : BitVec 12)
  | wrs (o : Out) (num : BitVec 12)
  | flags (o : Out) (rep : BitVec 16)
  | site (o : Out) (t : Target)
  | perf (o : Out) (k : BitVec 3)
  | brk (o : Out) (rep : BitVec 16)
  | tret (o : Out) (rep : BitVec 16)
  | tskip (o : Out) (rep : BitVec 16)
  | assert (o : Out) (code : BitVec 16)
  /- Rows that are forms of one opcode: OWN with ENG = 0 (R159), MZERO with AUTO = 1 and MROW
  with REG = 3 (R171), CPY with FORM 01 and 10 (R194), CAMSET with RD = 1 (R206), SAMPLE with
  FORM 01 and 10 (R217) -/
  | ownToLace (c : Cmd)
  | mzeroAuto (c : Cmd) (t : Bool)
  | mrowReadProgress (c : Cmd)
  | cpySetLpitch (c : Cmd) (f : CopyForm) (d : Bool)
  | cpySetLtask (c : Cmd) (f : CopyForm) (d : Bool)
  | camsetRead (c : Cmd) (cam : BitVec 3) (word : BitVec 5)
  | sampleSetStemp (c : Cmd)
  | sampleSetStopp (c : Cmd)
  /- The sequencing program, R339 -/
  | seqEnd
  | seqRun (graph : BitVec 8)
  | seqWait (graph : BitVec 8)
  | seqPhase
  | seqBranch (cond : SeqCond) (target : BitVec 16)
  | seqLoop (n : BitVec 32) (target : BitVec 16)
  | seqThreadResume (job thread : Nat)
  /- Events of the token network and of a lace element -/
  | tokenArrival (flit : Nat)
  | killTokenArrival (wave : Nat) (elem : Nat)
  | killWaveComplete (wave : Nat)
  | firingSelect (run elem : Nat)
  | activationCommit (run elem act : Nat)
  | relTokenSend (run elem held : Nat)
  | identityRetire (run elem act : Nat)
  | ageLimit
  | colnewGrant (ctx : Nat) (colour : Nat)
  | colourDrain (ctx : Nat) (colour : Nat)
  | throttlePass (run elem slot : Nat)
  | promiseDue (run elem wait : Nat)
  | promise (run elem wait : Nat)
  /- Events of homes and page walkers -/
  | ldvRelease (req : Nat)
  | taskStart (start : Nat)
  | tilePortRequest (work : PortWork)
  | quayRequest (work : PortWork)
  | pageWalk (walk : Nat)
  /- Events of engines and strands -/
  | engineCommandStart (run cmd : Nat)
  | engineCompletion (run cmd : Nat)
  | ownerFlipEngine (run cmd : Nat)
  | strandBeatSend (run strand : Nat)
  | controlStrandRequest (run strand : Nat)
  | tensionUpdate
  /- Events of the spatial store -/
  | cellUpdate (req : Nat)
  | carveRequest (req : Nat)
  | brickClaim (req : Nat)
  | brickPop (req : Nat)
  | brickPublish (req : Nat)
  /- Events of jobs, berths and launches -/
  | queueDoorbell (queue : Nat) (tail : Nat)
  | jobValidate (queue : Nat)
  | berthing (queue : Nat)
  | berthTenureExpiry (queue : Nat)
  | admission (die : Nat)
  | preemption (die : Nat)
  | graphSourceInjection (run : Nat)
  | itemCompletion (item : ItemRef)
  | freezeWave (run : Nat)
  | freezeComplete (run : Nat) (out : Bool)
  | launchRestore (run : Nat) (parts : List (Nat × Nat))
  | planeSwitch (run : Nat)
  /- Events of contexts and translation -/
  | create (ctx : Nat)
  | switchout (ctx : Nat)
  | switchoutDrainEnd (ctx : Nat)
  | restore (ctx : Nat)
  | destroy (ctx : Nat)
  | tlbinv
  | tlbinvDone
  /- Events of far requests -/
  | farRequestIssue (ctx : Nat) (far : Nat)
  | ownerRequest (p : Packet)
  | remoteReply (p : Packet)
  | retransmit (ctx : Nat) (fs : Nat)
  | retransmitLifetimeExpiry (ctx : Nat) (fs : Nat)
  | markQuery (owner id : Nat)
  | markQueryAnswer (p : Packet)
  | markAnswerReceipt (owner : Nat) (p : Packet)
  | goneWaitExpiry (owner id : Nat)
  | tombstoneFree (owner id : Nat)
  | quarantineExpiry (id : Nat)
  | quayRestart (owner : Nat)
  /- Events of repair -/
  | scrub (quay : Nat) (corrected uncorrectable : List Nat)
  | errcntClear (die : Nat)
  | replayReissue (wave : Nat)
  | bistDue (die cluster : Nat)
  | bistRun (die cluster : Nat)
  | bistResult (die cluster : Nat) (frame : Option Nat) (pass : Bool)
  /- Events of device life -/
  | functionReady (fn : ReadyFn)
  | diePowerDown (die : Nat)
  | dieWake (die : Nat)
  | thermalThrottle
  | thermalShutdown
  | resync
  | attest
  | fwload
  | imgkey
  | poweroff
  | poweron
  | devidWrite (v : BitVec 8)
  | registerWrite (addr : Nat) (v : BitVec 64) (mgmt : Bool)
  | powerLoss
  | powerOnReset
  | hawserLinkDown (n : Nat) (failed : Bool)
  | thermalThrottleRelease
  deriving DecidableEq, Repr, Inhabited

end Sys2Proof
end

