-- ==== Sys2Proof/Decode.lean ====
section
/-! DEFINITION. The decoder of slot words (R63 to R80 and the encoding tables R103, R125, R137,
R147, R153 to R165, R171, R180, R184, R186, R194, R199 to R203, R206, R217, R227, R228), total on
every word and rejecting by the status of R81, the decoder of sequencing steps (R339), and the
encoders of both. -/

namespace Sys2Proof

/-- Why a word is no instruction, by the load status that refuses it (R81); `seq` is the status
SEQ of a sequencing step (R338). -/
inductive DecodeError
  | opcode | modifier | field | target | engine | strand | register | seq
  deriving DecidableEq, Repr, Inhabited

/-! ## The fields of a word -/

/-- The fields of a slot word as R63 lays them out. -/
structure Raw where
  op : BitVec 8
  mod : BitVec 4
  sz : BitVec 2
  i : Bool
  p : Bool
  ta : BitVec 16
  tb : BitVec 16
  imm : BitVec 16
  deriving DecidableEq, Repr, Inhabited

/-- The fields of a slot word (R63). -/
def Raw.ofWord (w : Word) : Raw where
  op := w.extractLsb' 56 8
  mod := w.extractLsb' 52 4
  sz := w.extractLsb' 50 2
  i := w.getLsbD 49
  p := w.getLsbD 48
  ta := w.extractLsb' 32 16
  tb := w.extractLsb' 16 16
  imm := w.extractLsb' 0 16

/-- A slot word from its fields (R63). -/
def Raw.toWord (r : Raw) : Word :=
  r.op ++ r.mod ++ r.sz ++ BitVec.ofBool r.i ++ BitVec.ofBool r.p ++ r.ta ++ r.tb ++ r.imm

/-- The bits of a field of IMM16. -/
def immBits (imm : BitVec 16) (lo n : Nat) : BitVec n := imm.extractLsb' lo n

/-- One bit of IMM16. -/
def immBit (imm : BitVec 16) (k : Nat) : Bool := imm.getLsbD k

/-- The number a list of fields of IMM16 stands for: each field with its lowest bit. -/
def immOf (fields : List (Nat × Nat)) : BitVec 16 :=
  BitVec.ofNat 16 (fields.foldl (fun a f => a + f.2 * 2 ^ f.1) 0)

/-! ## Codes of the small fields -/

def Width.ofBits (b : BitVec 2) : Width :=
  match b.toNat with
  | 0 => .d
  | 1 => .w
  | 2 => .h
  | _ => .b

def Width.toBits : Width → BitVec 2
  | .d => 0
  | .w => 1
  | .h => 2
  | .b => 3

/-- Bits of a width (R124). -/
def Width.bits : Width → Nat
  | .d => 64
  | .w => 32
  | .h => 16
  | .b => 8

/-- Bytes of a width (R144). -/
def Width.bytes : Width → Nat
  | .d => 8
  | .w => 4
  | .h => 2
  | .b => 1

def FloatFmt.ofBits (b : BitVec 2) : FloatFmt :=
  match b.toNat with
  | 0 => .d
  | 1 => .s
  | 2 => .h
  | _ => .bf

def FloatFmt.toBits : FloatFmt → BitVec 2
  | .d => 0
  | .s => 1
  | .h => 2
  | .bf => 3

def Cond.ofBits (b : BitVec 3) : Cond :=
  match b.toNat with
  | 0 => .eq
  | 1 => .ne
  | 2 => .lt
  | 3 => .le
  | 4 => .gt
  | 5 => .ge
  | 6 => .ltu
  | _ => .leu

def Cond.toBits : Cond → BitVec 3
  | .eq => 0
  | .ne => 1
  | .lt => 2
  | .le => 3
  | .gt => 4
  | .ge => 5
  | .ltu => 6
  | .leu => 7

def RMode.ofBits (b : BitVec 2) : RMode :=
  match b.toNat with
  | 0 => .rne
  | 1 => .rtz
  | 2 => .rdn
  | _ => .rup

def RMode.toBits : RMode → BitVec 2
  | .rne => 0
  | .rtz => 1
  | .rdn => 2
  | .rup => 3

/-- MOD[2:0] of a rounding float opcode (R51, R73). -/
def Rounding.ofBits (b : BitVec 3) : Rounding :=
  if b.getLsbD 2 then .dyn else .fixed (RMode.ofBits (b.extractLsb' 0 2))

def Rounding.toBits : Rounding → BitVec 3
  | .fixed m => 0#1 ++ m.toBits
  | .dyn => 4

/-- The scope code of MOD[2:0] (R74); 5 to 7 are refused before this is used. -/
def Scope.ofBits (b : BitVec 3) : Scope :=
  match b.toNat with
  | 0 => .act
  | 1 => .clu
  | 2 => .die
  | 3 => .dev
  | _ => .sys

def Scope.toBits : Scope → BitVec 3
  | .act => 0
  | .clu => 1
  | .die => 2
  | .dev => 3
  | .sys => 4

def FenceForm.ofBits (b : BitVec 2) : FenceForm :=
  match b.toNat with
  | 0 => .full
  | 1 => .acq
  | _ => .rel

def FenceForm.toBits : FenceForm → BitVec 2
  | .full => 0
  | .acq => 1
  | .rel => 2

def ValFmt.ofBits (b : BitVec 2) : ValFmt :=
  match b.toNat with
  | 0 => .fp16
  | 1 => .bf16
  | _ => .int16

def ValFmt.toBits : ValFmt → BitVec 2
  | .fp16 => 0
  | .bf16 => 1
  | .int16 => 2

def ElemWidth.ofBits (b : BitVec 2) : ElemWidth :=
  match b.toNat with
  | 0 => .e64
  | 1 => .e32
  | _ => .e16

def ElemWidth.toBits : ElemWidth → BitVec 2
  | .e64 => 0
  | .e32 => 1
  | .e16 => 2

def RmwOp.ofBits (b : BitVec 3) : RmwOp :=
  match b.toNat with
  | 0 => .gather
  | 1 => .add
  | 2 => .min
  | 3 => .max
  | _ => .swap

def RmwOp.toBits : RmwOp → BitVec 3
  | .gather => 0
  | .add => 1
  | .min => 2
  | .max => 3
  | .swap => 4

def Port.ofBits (b : BitVec 2) : Port :=
  match b.toNat with
  | 0 => .left
  | 1 => .right
  | _ => .pred

def Port.toBits : Port → BitVec 2
  | .left => 0
  | .right => 1
  | .pred => 2

/-! ## Targets, R65 and R66 -/

/-- The target a valid 16-bit field names (R65). -/
def Target.ofBits (t : BitVec 16) : Option Target :=
  if t.getLsbD 15 then
    if t.extractLsb' 13 2 = 3#2 then some (.hold (t.extractLsb' 8 3))
    else some (.site (Port.ofBits (t.extractLsb' 13 2)) (t.extractLsb' 8 5) (t.extractLsb' 4 4)
      (t.extractLsb' 0 4))
  else none

/-- The 16-bit field of a target (R65). -/
def Target.toBits : Option Target → BitVec 16
  | none => 0
  | some (.site p slot dx dy) => 1#1 ++ p.toBits ++ slot ++ dx ++ dy
  | some (.hold k) => 1#1 ++ 3#2 ++ 0#2 ++ k ++ 0#8

/-- A target field that R66 refuses whatever the element: bits beside a clear V, or a PORT 11
target with an offset or with SLOT above 7. -/
def targetBad (t : BitVec 16) : Bool :=
  if t.getLsbD 15 then
    t.extractLsb' 13 2 = 3#2 && (t.extractLsb' 0 8 != 0 || t.extractLsb' 11 2 != 0)
  else t != 0

/-- A target field an engine command may not hold: also every PORT 11 target (R66). -/
def engTargetBad (t : BitVec 16) : Bool :=
  targetBad t || (t.getLsbD 15 && t.extractLsb' 13 2 = 3#2)

/-! ## Sites, R17, R18 and R77 -/

/-- The kinds of element (R18). -/
inductive SiteKind
  | lace | frame | tile | vector | seam | converter | projection | sampler | lighter
  deriving DecidableEq, Repr, Inhabited

/-- The kind of each site of a cluster, by site index (R17, R18). -/
def siteKind (site : Nat) : SiteKind :=
  if [1, 6, 16, 23, 40, 47, 57, 62].contains site then .frame
  else if [0, 7, 24, 31, 32, 39, 56, 63].contains site then .tile
  else if [11, 12, 51, 52].contains site then .vector
  else if [19, 44].contains site then .seam
  else if [20, 43].contains site then .converter
  else if [26, 37].contains site then .projection
  else if site = 29 then .sampler
  else if site = 34 then .lighter
  else .lace

/-! ## The decoder -/

/-- The first status whose condition holds, or the instruction. -/
def refuseIf : List (Bool × DecodeError) → Instr → Except DecodeError Instr
  | [], i => .ok i
  | (true, e) :: _, _ => .error e
  | (false, _) :: rest, i => refuseIf rest i

def Raw.out (r : Raw) : Out := ⟨Target.ofBits r.ta, Target.ofBits r.tb, r.p⟩

def Raw.cmd (r : Raw) : Cmd :=
  ⟨Target.ofBits r.ta, Target.ofBits r.tb, r.p, immBits r.imm 0 6⟩

/-- The checks that TA and TB of an element's own result need (R66). -/
def Raw.outChecks (r : Raw) : List (Bool × DecodeError) :=
  [(targetBad r.ta, .target), (targetBad r.tb, .target)]

/-- An opcode with SZ = 00, MOD = 0000, I = 0 and a check of IMM16 (R103, R155, R161 to R165). -/
def Raw.plain (r : Raw) (badImm : Bool) (i : Instr) : Except DecodeError Instr :=
  refuseIf ([(r.mod != 0 || r.sz != 0, .modifier), (r.i || badImm, .field)] ++ r.outChecks) i

def Raw.intForm (r : Raw) : IntForm := ⟨Width.ofBits r.sz, r.mod.getLsbD 3, r.i, r.imm⟩

def Raw.unForm (r : Raw) : UnForm := ⟨Width.ofBits r.sz, r.mod.getLsbD 3, r.imm⟩

/-- An integer opcode (R72, R125): whether it may be packed, which of MOD[2:0] are refused, which
SZ, and whether I or IMM16 break its entry. -/
def Raw.int (r : Raw) (mayPack : Bool) (badMod : Bool) (badSz : Bool) (badField : Bool)
    (i : Instr) : Except DecodeError Instr :=
  refuseIf ([(r.mod.getLsbD 3 && (!mayPack || r.sz == 0), .modifier), (badMod || badSz, .modifier),
    (badField, .field)] ++ r.outChecks) i

/-- MOD[2:0]. -/
def Raw.mod3 (r : Raw) : BitVec 3 := r.mod.extractLsb' 0 3

/-- A float opcode (R73, R137). -/
def Raw.float (r : Raw) (mayPack : Bool) (badMod : Bool) (badField : Bool) (i : Instr) :
    Except DecodeError Instr :=
  refuseIf ([(r.mod.getLsbD 3 && (!mayPack || r.sz != 1), .modifier), (badMod, .modifier),
    (r.i || badField, .field)] ++ r.outChecks) i

/-- MOD[2:0] is no rounding choice: the dynamic mode with MOD[1:0] other than 00 (R51). -/
def Raw.badRnd (r : Raw) : Bool := r.mod.getLsbD 2 && r.mod.extractLsb' 0 2 != 0

def Raw.fltForm (r : Raw) : FltForm :=
  ⟨FloatFmt.ofBits r.sz, r.mod.getLsbD 3, Rounding.ofBits r.mod3, r.imm⟩

/-- Format ids that FCVT accepts (R137). -/
def fcvtId (b : BitVec 8) : Bool := [8, 9, 10, 11, 12, 13, 15].contains b.toNat

/-- Integer format ids that FTOI and ITOF accept (R137). -/
def intId (b : BitVec 8) : Bool := 1 ≤ b.toNat && b.toNat ≤ 7

def Raw.ord (r : Raw) : Option Scope :=
  if r.mod.getLsbD 3 then some (Scope.ofBits r.mod3) else none

def Raw.memForm (r : Raw) : MemForm := ⟨immBits r.imm 11 5, immBits r.imm 0 11, r.ord⟩

/-- A memory-class opcode (R74): which SZ it refuses, whether it must be ordered, and whether
IMM16 breaks its entry. -/
def Raw.mem (r : Raw) (badSz : Bool) (mustOrder : Bool) (badField : Bool) (i : Instr) :
    Except DecodeError Instr :=
  refuseIf ([(decide (r.mod3.toNat > 4), .modifier), (!r.mod.getLsbD 3 && r.mod3 != 0, .modifier),
    (mustOrder && !r.mod.getLsbD 3, .modifier), (badSz, .modifier), (r.i || badField, .field)]
    ++ r.outChecks) i

/-- SZ other than 00 and 01 (R153, R154). -/
def Raw.not64or32 (r : Raw) : Bool := r.sz.getLsbD 1

/-- An engine command (R77): its site kind, whether SZ is its own, and the check of IMM[15:6]. -/
def Raw.eng (r : Raw) (kind : SiteKind) (anySz : Bool) (badField : Bool) (i : Instr) :
    Except DecodeError Instr :=
  refuseIf [(r.mod != 0 || (!anySz && r.sz != 0), .modifier), (r.i || badField, .field),
    (engTargetBad r.ta || engTargetBad r.tb, .target),
    (siteKind (immBits r.imm 0 6).toNat != kind, .engine)] i

def Raw.vecForm (r : Raw) : VecForm :=
  ⟨FloatFmt.ofBits r.sz, RMode.ofBits (immBits r.imm 6 2), immBits r.imm 8 4, immBits r.imm 14 2⟩

/-- A vector command (R180): the number of FN values its entry lists.  DESIGN CHOICE: a field of the form that
one opcode has no use for (ORP of VMAP, VRED, VSCAN, VSOFT and VNORM, RM of VCMP and VSEL) may hold any value
that the form lists; R71 and R81 speak of values an entry does not assign, and these entries assign the field
without a use (log 87). -/
def Raw.vec (r : Raw) (fns : Nat) (i : Instr) : Except DecodeError Instr :=
  r.eng .vector true (immBits r.imm 12 2 != 0 || immBits r.imm 14 2 == 3 ||
    (immBits r.imm 8 4).toNat ≥ fns) i

def Raw.tileForm (r : Raw) : TileForm :=
  ⟨immBits r.imm 6 2, immBits r.imm 8 2, immBits r.imm 10 2⟩

/-- A tile command (R186): whether it uses a port, and the check of F = IMM[15:12]. -/
def Raw.tileCmd (r : Raw) (usesPort : Bool) (badF : Bool) (i : Instr) : Except DecodeError Instr :=
  r.eng .tile false ((!usesPort && immBits r.imm 10 2 != 0) || badF) i

/-- The fields of a lighter command (R194).  DESIGN CHOICE: TILE, D, G and K of CPY with FORM 01 or 10, which
have no use, may hold any value (R71, R81; log 87). -/
def Raw.copyForm (r : Raw) : CopyForm :=
  ⟨immBits r.imm 6 3, immBits r.imm 10 2, immBits r.imm 12 2⟩

/-- FMT ids that MOUT accepts (R171). -/
def moutFmt (b : BitVec 5) : Bool := [1, 3, 8, 9, 10, 11, 12, 13, 14, 15].contains b.toNat

/-- FMT ids that CVT accepts (R184). -/
def cvtFmt (b : BitVec 5) : Bool := [1, 2, 3, 8, 9, 10, 11, 12, 13, 14, 15].contains b.toNat

/-- A strand-group opcode (R78): whether its strand fields break R78. -/
def Raw.strandOp (r : Raw) (bad : Bool) (i : Instr) : Except DecodeError Instr :=
  refuseIf ([(r.mod != 0 || r.sz != 0, .modifier), (r.i, .field)] ++ r.outChecks ++
    [(bad, .strand)]) i

/-- The strand register indices that are per branch (R199). -/
def perBranch (n : Nat) : Bool := [0, 6, 7, 9, 10, 12, 14].contains n

/-- Register index or branch of STRSET and STROCC outside R78 and R199. -/
def Raw.badStrReg (r : Raw) (write : Bool) : Bool :=
  immBit r.imm 15 || immBits r.imm 8 4 == 15 ||
    (write && 6 ≤ (immBits r.imm 8 4).toNat && (immBits r.imm 8 4).toNat ≤ 12) ||
    (immBits r.imm 12 3 != 0 && !perBranch (immBits r.imm 8 4).toNat)

/-- The system registers of R161 and whether each may be written. -/
def sysRegWritable (n : Nat) : Option Bool :=
  if [0x000, 0x001, 0x002, 0x008, 0x009, 0x00A, 0x018].contains n then some false
  else if [0x003, 0x004, 0x005, 0x006, 0x040].contains n then some true
  else if 0x010 ≤ n ∧ n ≤ 0x017 then some true
  else if 0x020 ≤ n ∧ n ≤ 0x024 then some true
  else none

/-- RDS and WRS (R71, R81, R161). -/
def Raw.sysReg (r : Raw) (write : Bool) (i : Instr) : Except DecodeError Instr :=
  refuseIf ([(r.mod != 0 || r.sz != 0, .modifier), (r.i || immBits r.imm 12 4 != 0, .field)] ++
    r.outChecks ++
    [(match sysRegWritable (immBits r.imm 0 12).toNat with
      | none => true
      | some rw => write && !rw, .register)]) i

/-- Opcodes 0x00 to 0x0F (R103). -/
def Raw.decode0 (r : Raw) : Except DecodeError Instr :=
  match (r.op.extractLsb' 0 4).toNat with
  | 0x0 => refuseIf [(r.mod != 0 || r.sz != 0 || r.i || r.p || r.ta != 0 || r.tb != 0 || r.imm != 0,
      .field)] (.ill false)
  | 0x1 => r.plain false (.mov r.out r.imm)
  -- the third target is checked as TA and TB are (R103)
  | 0x2 => refuseIf ([(r.mod != 0 || r.sz != 0, .modifier), (r.i, .field)] ++ r.outChecks ++
      [(targetBad r.imm, .target)]) (.mov3 r.out (Target.ofBits r.imm))
  | 0x3 => r.plain false (.const r.out r.imm)
  | 0x4 => r.plain false (.constor r.out r.imm)
  | 0x5 => r.plain false (.steer r.out r.imm)
  | 0x6 => r.plain false (.steern r.out r.imm)
  | 0x7 => r.plain false (.select r.out r.imm)
  | 0x8 => r.plain false (.nullt r.out r.imm)
  | 0x9 => r.plain false (.iter r.out r.imm)
  | 0xA => r.plain false (.iterset r.out r.imm)
  | 0xB => r.plain false (.iterread r.out r.imm)
  | 0xC => r.plain false (.colnew r.out r.imm)
  | 0xD => r.plain false (.colfree r.out r.imm)
  | 0xE => r.plain false (.retag r.out r.imm)
  | _ => r.plain false (.exit r.out r.imm)

/-- Opcodes 0x10 to 0x1F (R103). -/
def Raw.decode1 (r : Raw) : Except DecodeError Instr :=
  match (r.op.extractLsb' 0 4).toNat with
  | 0x0 => r.plain (r.ta != 0 || r.tb != 0) (.send r.p r.imm)
  | 0x1 => r.plain (r.ta != 0 || r.tb != 0) (.sendx r.p r.imm)
  | 0x2 => r.plain false (.gate r.out r.imm)
  | 0x3 => r.plain false (.kindq r.out r.imm)
  | 0x4 => r.plain (immBits r.imm 3 13 != 0 || immBits r.imm 0 3 == 0) (.stopt r.out (immBits r.imm 0 3))
  | 0x5 => r.plain false (.kill r.out r.imm)
  | 0x6 => r.plain (immBits r.imm 10 6 != 0) (.throttle r.out (immBits r.imm 0 10))
  | 0x7 => r.plain false (.retire r.out r.imm)
  | _ => .error .opcode

/-- Opcodes 0x20 to 0x2F (R125). -/
def Raw.decode2 (r : Raw) : Except DecodeError Instr :=
  let m0 := r.mod3 != 0
  let u := r.mod.getLsbD 0
  let mu := r.mod3.toNat > 1
  match (r.op.extractLsb' 0 4).toNat with
  | 0x0 => r.int true m0 false false (.add r.out r.intForm)
  | 0x1 => r.int true m0 false false (.sub r.out r.intForm)
  | 0x2 => r.int true m0 false false (.mul r.out r.intForm)
  | 0x3 => r.int true mu false false (.mulh r.out r.intForm u)
  | 0x4 => r.int false (r.mod.getLsbD 2) false false (.div r.out r.intForm u (r.mod.getLsbD 1))
  | 0x5 => r.int false (r.mod.getLsbD 2) false false (.rem r.out r.intForm u (r.mod.getLsbD 1))
  | 0x6 => r.int false m0 false false (.and r.out r.intForm)
  | 0x7 => r.int false m0 false false (.or r.out r.intForm)
  | 0x8 => r.int false m0 false false (.xor r.out r.intForm)
  | 0x9 => r.int false m0 false false (.andn r.out r.intForm)
  | 0xA => r.int true m0 false false (.shl r.out r.intForm)
  | 0xB => r.int true m0 false false (.shr r.out r.intForm)
  | 0xC => r.int true m0 false false (.sar r.out r.intForm)
  | 0xD => r.int true m0 false false (.rol r.out r.intForm)
  | 0xE => r.int true mu false false (.min r.out r.intForm u)
  | _ => r.int true mu false false (.max r.out r.intForm u)

/-- Opcodes 0x30 to 0x3F (R125). -/
def Raw.decode3 (r : Raw) : Except DecodeError Instr :=
  let m0 := r.mod3 != 0
  let u := r.mod.getLsbD 0
  let mu := r.mod3.toNat > 1
  let wd := Width.ofBits r.sz
  match (r.op.extractLsb' 0 4).toNat with
  | 0x0 => r.int true m0 false r.i (.abs r.out r.unForm)
  | 0x1 => r.int true m0 false r.i (.neg r.out r.unForm)
  | 0x2 => r.int true m0 false r.i (.clz r.out r.unForm)
  | 0x3 => r.int true m0 false r.i (.popc r.out r.unForm)
  | 0x4 => r.int true m0 false r.i (.brev r.out r.unForm)
  | 0x5 => r.int true false false false (.cmp r.out r.intForm (Cond.ofBits r.mod3))
  | 0x6 => r.int false mu false false (.test r.out r.intForm u)
  | 0x7 => r.int true mu false false (.adds r.out r.intForm u)
  | 0x8 => r.int true mu false false (.subs r.out r.intForm u)
  | 0x9 => r.int false m0 false (r.i || immBits r.imm 3 13 != 0) (.lea r.out wd (immBits r.imm 0 3))
  | 0xA => r.int false m0 (r.sz != 0) (r.i || immBits r.imm 4 12 != 0) (.base r.out (immBits r.imm 0 4))
  | 0xB => r.int false m0 false r.i (.shape r.out wd r.imm)
  | 0xC => r.int false m0 (r.sz != 0) (r.i || immBits r.imm 13 3 != 0 ||
      (immBits r.imm 0 6).toNat + (immBits r.imm 6 6).toNat + 1 > 64)
      (.extr r.out (immBits r.imm 0 6) (immBits r.imm 6 6) (immBit r.imm 12))
  | 0xD => r.int false m0 (r.sz != 0) (r.i || immBits r.imm 12 4 != 0 ||
      (immBits r.imm 0 6).toNat + (immBits r.imm 6 6).toNat + 1 > 64)
      (.ins r.out (immBits r.imm 0 6) (immBits r.imm 6 6))
  | 0xE => r.int false m0 (r.sz == 0) r.i (.pack r.out ⟨wd, r.imm⟩)
  | _ => r.int false m0 (r.sz == 0) (r.i || immBits r.imm 4 12 != 0 ||
      (immBits r.imm 0 3).toNat + (if r.tb.getLsbD 15 then 1 else 0) ≥ 64 / wd.bits)
      (.unpk r.out wd (immBits r.imm 0 3) (immBit r.imm 3))

/-- Opcodes 0x40 to 0x4F (R137). -/
def Raw.decode4 (r : Raw) : Except DecodeError Instr :=
  let m0 := r.mod3 != 0
  let f := FloatFmt.ofBits r.sz
  let pk := r.mod.getLsbD 3
  let rnd := Rounding.ofBits r.mod3
  match (r.op.extractLsb' 0 4).toNat with
  | 0x0 => r.float true r.badRnd false (.fadd r.out r.fltForm)
  | 0x1 => r.float true r.badRnd false (.fsub r.out r.fltForm)
  | 0x2 => r.float true r.badRnd false (.fmul r.out r.fltForm)
  | 0x3 => r.float true r.badRnd (immBits r.imm 3 13 != 0) (.fma r.out f pk rnd (immBits r.imm 0 3))
  | 0x4 => r.float false r.badRnd false (.fdiv r.out f rnd r.imm)
  | 0x5 => r.float false r.badRnd false (.fsqrt r.out f rnd r.imm)
  | 0x6 => r.float true m0 false (.fmin r.out f pk r.imm)
  | 0x7 => r.float true m0 false (.fmax r.out f pk r.imm)
  | 0x8 => r.float true (r.mod3.toNat > 5) false (.fcmp r.out f pk (Cond.ofBits r.mod3) r.imm)
  | 0x9 => r.float true m0 (immBits r.imm 2 14 != 0) (.fsgn r.out f pk (immBits r.imm 0 2))
  | 0xA => refuseIf ([(r.sz != 0 || r.badRnd || (pk && immBits r.imm 0 8 != 0x0C), .modifier),
      (r.i || !fcvtId (immBits r.imm 0 8) || !fcvtId (immBits r.imm 8 8), .field)] ++ r.outChecks)
      (.fcvt r.out rnd pk (immBits r.imm 0 8) (immBits r.imm 8 8))
  | 0xB => r.float false r.badRnd (!intId (immBits r.imm 0 8) || immBits r.imm 8 8 != 0)
      (.ftoi r.out f rnd (immBits r.imm 0 8))
  | 0xC => r.float false r.badRnd (!intId (immBits r.imm 0 8) || immBits r.imm 8 8 != 0)
      (.itof r.out f rnd (immBits r.imm 0 8))
  | 0xD => r.float false r.badRnd false (.fexp2 r.out f rnd r.imm)
  | 0xE => r.float false r.badRnd false (.flog2 r.out f rnd r.imm)
  | _ => r.float false r.badRnd false (.frcp r.out f rnd r.imm)

/-- Opcodes 0x50 to 0x5F (R137). -/
def Raw.decode5 (r : Raw) : Except DecodeError Instr :=
  let f := FloatFmt.ofBits r.sz
  let rnd := Rounding.ofBits r.mod3
  match (r.op.extractLsb' 0 4).toNat with
  | 0x0 => r.float false r.badRnd false (.frsq r.out f rnd r.imm)
  | 0x1 => r.float false r.badRnd false (.fsinp r.out f rnd r.imm)
  | 0x2 => r.float false r.badRnd false (.fcosp r.out f rnd r.imm)
  | 0x3 => r.float false (r.mod3 != 0) false (.fclass r.out f r.imm)
  | _ => .error .opcode

/-- Opcodes 0x60 to 0x6F (R147). -/
def Raw.decode6 (r : Raw) : Except DecodeError Instr :=
  let wd := Width.ofBits r.sz
  let not0 := r.sz != 0
  match (r.op.extractLsb' 0 4).toNat with
  | 0x0 => r.mem false false false (.ld r.out wd r.memForm)
  | 0x1 => r.mem false false false (.st r.out wd r.memForm)
  | 0x2 => r.mem false false false (.ldv r.out wd r.memForm)
  | 0x3 => r.mem (r.sz == 0) false false (.stv r.out wd r.memForm)
  | 0x4 => r.mem not0 false false (.vers r.out r.memForm)
  | 0x5 => r.mem not0 false false (.vset r.out r.memForm)
  | 0x6 => r.mem not0 false false (.ldd r.out r.memForm)
  | 0x7 => r.mem not0 false false (.std r.out r.memForm)
  | 0x8 => r.mem (not0 || r.mod != 0) false false (.pref r.out (immBits r.imm 11 5) (immBits r.imm 0 11))
  | 0x9 => refuseIf ([(decide (r.mod3.toNat > 4) || r.sz == 3, .modifier), (r.i || immBits r.imm 0 11 != 0, .field)]
      ++ r.outChecks) (.fence r.out (FenceForm.ofBits r.sz) (Scope.ofBits r.mod3) (r.mod.getLsbD 3)
        (immBits r.imm 11 5))
  | _ => .error .opcode

/-- Opcodes 0x70 to 0x7F (R153). -/
def Raw.decode7 (r : Raw) : Except DecodeError Instr :=
  let wd := Width.ofBits r.sz
  match (r.op.extractLsb' 0 4).toNat with
  | 0x8 => r.mem r.not64or32 false false (.aadd r.out wd r.memForm)
  | 0x9 => r.mem r.not64or32 false false (.aand r.out wd r.memForm)
  | 0xA => r.mem r.not64or32 false false (.aor r.out wd r.memForm)
  | 0xB => r.mem r.not64or32 false false (.axor r.out wd r.memForm)
  | 0xC => r.mem r.not64or32 false false (.amin r.out wd r.memForm)
  | 0xD => r.mem r.not64or32 false false (.amax r.out wd r.memForm)
  | 0xE => r.mem r.not64or32 false false (.aswap r.out wd r.memForm)
  | 0xF => r.mem r.not64or32 false false
      (.acas r.out wd (immBits r.imm 11 5) (immBits r.imm 3 8) (immBits r.imm 0 3) r.ord)
  | _ => .error .opcode

/-- Opcodes 0x80 to 0x8F (R153 to R157). -/
def Raw.decode8 (r : Raw) : Except DecodeError Instr :=
  let wd := Width.ofBits r.sz
  let not0 := r.sz != 0
  match (r.op.extractLsb' 0 4).toNat with
  | 0x0 => r.mem r.not64or32 false false (.afadd r.out wd r.memForm)
  | 0x1 => r.mem r.not64or32 false false (.xinit r.out wd r.memForm)
  | 0x2 => r.mem r.not64or32 false false (.xacc r.out wd r.memForm)
  | 0x3 => r.mem r.not64or32 false false (.xread r.out wd r.memForm)
  | 0x4 => r.mem r.not64or32 false false (.aincw r.out wd r.memForm)
  | 0x5 => r.mem false false false (.aser r.out wd r.memForm)
  | 0x8 => r.plain false (.cycle r.out r.imm)
  | 0x9 => r.plain false (.waitt r.out r.imm)
  | 0xA => r.mem not0 false false (.bar r.out r.memForm)
  | 0xB => r.mem not0 false false (.post r.out r.memForm)
  | 0xC => r.mem not0 false false (.signal r.out r.memForm)
  | 0xD => r.mem not0 false false (.arm r.out r.memForm)
  | 0xE => r.mem not0 false (immBits r.imm 0 11 != 0) (.cancel r.out (immBits r.imm 11 5) r.ord)
  | 0xF => r.mem not0 false (immBits r.imm 0 11 != 0) (.doneq r.out (immBits r.imm 11 5) r.ord)
  | _ => .error .opcode

/-- Opcodes 0x90 to 0x9F (R159, R160, R199 to R203). -/
def Raw.decode9 (r : Raw) : Except DecodeError Instr :=
  let strand : BitVec 8 := immBits r.imm 0 8
  match (r.op.extractLsb' 0 4).toNat with
  | 0x0 => r.eng .tile false (immBits r.imm 7 9 != 0)
      (if immBit r.imm 6 then .own r.cmd else .ownToLace r.cmd)
  | 0x1 => r.strandOp (immBits r.imm 8 8 != 0) (.permit r.out strand)
  | 0x2 => r.strandOp (immBits r.imm 8 8 != 0) (.take r.out strand)
  | 0x8 => r.strandOp (r.badStrReg true) (.strset r.out strand (immBits r.imm 8 4) (immBits r.imm 12 3))
  | 0x9 => r.strandOp (r.badStrReg false) (.strocc r.out strand (immBits r.imm 8 4) (immBits r.imm 12 3))
  | 0xA => r.strandOp (immBits r.imm 8 8 != 0) (.strclose r.out strand)
  | 0xB => r.eng .seam false (immBits r.imm 10 2 == 3 || immBits r.imm 12 4 != 0)
      (.seamin r.cmd (immBits r.imm 6 3) (immBit r.imm 9) (ElemWidth.ofBits (immBits r.imm 10 2)))
  | 0xC => r.eng .seam false (immBits r.imm 10 2 == 3 || immBits r.imm 6 3 != 0 ||
      immBits r.imm 12 4 != 0)
      (.seamout r.cmd (immBit r.imm 9) (ElemWidth.ofBits (immBits r.imm 10 2)))
  | _ => .error .opcode

/-- Opcodes 0xA0 to 0xAF (R171). -/
def Raw.decodeA (r : Raw) : Except DecodeError Instr :=
  let t := immBit r.imm 6
  let rest7 := immBits r.imm 7 9 != 0
  let rest6 := immBits r.imm 6 10 != 0
  match (r.op.extractLsb' 0 4).toNat with
  | 0x0 => r.eng .frame false (immBits r.imm 8 8 != 0)
      (if immBit r.imm 7 then .mzeroAuto r.cmd t else .mzero r.cmd t)
  | 0x1 => r.eng .frame false rest6 (.mldb r.cmd)
  | 0x2 => r.eng .frame false rest7 (.mldc r.cmd t)
  | 0x3 => r.eng .frame false rest7 (.mma r.cmd t)
  | 0x4 => r.eng .frame false rest7 (.mmas r.cmd t)
  | 0x5 => r.eng .frame false rest7 (.mmax3 r.cmd t)
  | 0x6 => r.eng .frame false (immBit r.imm 15 || !moutFmt (immBits r.imm 9 5) ||
      (immBit r.imm 14 && immBits r.imm 9 5 != 0x0C))
      (.mout r.cmd t (RMode.ofBits (immBits r.imm 7 2)) (immBits r.imm 9 5) (immBit r.imm 14))
  | 0x7 => r.eng .frame false (immBits r.imm 8 8 != 0)
      (if immBits r.imm 6 2 = 3#2 then .mrowReadProgress r.cmd else .mrow r.cmd (immBits r.imm 6 2))
  | 0x8 => r.eng .frame false rest6 (.mscale r.cmd)
  | 0x9 => r.eng .frame false rest6 (.mbmap r.cmd)
  | _ => .error .opcode

/-- Opcodes 0xB0 to 0xBF (R180, R184, R186). -/
def Raw.decodeB (r : Raw) : Except DecodeError Instr :=
  let f := r.tileForm
  let f0 := immBits r.imm 12 4 != 0
  match (r.op.extractLsb' 0 4).toNat with
  | 0x0 => r.vec 12 (.vmap r.cmd r.vecForm)
  | 0x1 => r.vec 4 (.vfma r.cmd r.vecForm)
  | 0x2 => r.vec 6 (.vred r.cmd r.vecForm)
  | 0x3 => r.vec 2 (.vscan r.cmd r.vecForm)
  | 0x4 => r.vec 1 (.vsoft r.cmd r.vecForm)
  | 0x5 => r.vec 2 (.vnorm r.cmd r.vecForm)
  | 0x6 => r.eng .converter false (immBits r.imm 14 2 != 0 || !cvtFmt (immBits r.imm 8 5) ||
      (immBit r.imm 13 && immBits r.imm 8 5 != 0x0C))
      (.cvt r.cmd (RMode.ofBits (immBits r.imm 6 2)) (immBits r.imm 8 5) (immBit r.imm 13))
  | 0x7 => r.vec 6 (.vcmp r.cmd r.vecForm)
  | 0x8 => r.vec 1 (.vsel r.cmd r.vecForm)
  | 0x9 => r.vec 1 (.vrope r.cmd r.vecForm)
  | 0xC => r.tileCmd false f0 (.tshape r.cmd f)
  | 0xD => r.tileCmd true f0 (.tread r.cmd f)
  | 0xE => r.tileCmd true f0 (.twrite r.cmd f)
  | 0xF => r.tileCmd true f0 (.tcomp r.cmd f)
  | _ => .error .opcode

/-- Opcodes 0xC0 to 0xCF (R186, R194). -/
def Raw.decodeC (r : Raw) : Except DecodeError Instr :=
  let f := r.tileForm
  let f0 := immBits r.imm 12 4 != 0
  let vf := ValFmt.ofBits (immBits r.imm 12 2)
  let badVf := immBits r.imm 14 2 != 0 || immBits r.imm 12 2 == 3
  let form : BitVec 2 := immBits r.imm 14 2
  let d := immBit r.imm 9
  match (r.op.extractLsb' 0 4).toNat with
  | 0x0 => r.tileCmd true badVf (.texp r.cmd f vf)
  | 0x1 => r.tileCmd false f0 (.trot r.cmd f)
  | 0x2 => r.tileCmd true f0 (.twin r.cmd f)
  | 0x3 => r.tileCmd false f0 (.tzmap r.cmd f)
  | 0x4 => r.tileCmd true badVf (.tsacc r.cmd f vf)
  | 0x5 => r.tileCmd true f0 (.trep r.cmd f)
  | 0x6 => r.tileCmd true (immBit r.imm 15 || (immBits r.imm 12 3).toNat > 4)
      (.trmw r.cmd f (RmwOp.ofBits (immBits r.imm 12 3)))
  | 0x7 => r.tileCmd false f0 (.tfill r.cmd f)
  | 0xC => r.eng .lighter false (form == 3)
      (if form = 0#2 then .cpy r.cmd r.copyForm d
       else if form = 1#2 then .cpySetLpitch r.cmd r.copyForm d
       else .cpySetLtask r.cmd r.copyForm d)
  | 0xD => r.eng .lighter false (d || form != 0) (.cpyg r.cmd r.copyForm)
  | 0xE => r.eng .lighter false (!d || form != 0) (.cpys r.cmd r.copyForm)
  | 0xF => r.eng .lighter false (form != 0) (.cpy2d r.cmd r.copyForm d)
  | _ => .error .opcode

/-- Opcodes 0xD0 to 0xDF (R194, R206). -/
def Raw.decodeD (r : Raw) : Except DecodeError Instr :=
  let cam : BitVec 3 := immBits r.imm 6 3
  let rest6 := immBits r.imm 6 10 != 0
  match (r.op.extractLsb' 0 4).toNat with
  | 0x0 => r.eng .lighter false rest6 (.cpyq r.cmd)
  | 0x2 => r.eng .projection false (immBits r.imm 9 7 != 0) (.camld r.cmd cam)
  | 0x3 => r.eng .projection false (immBit r.imm 15 || (immBits r.imm 9 5).toNat > 22)
      (if immBit r.imm 14 then .camsetRead r.cmd cam (immBits r.imm 9 5)
       else .camset r.cmd cam (immBits r.imm 9 5))
  | 0x4 => r.eng .projection false (immBit r.imm 15)
      (.camcomp r.cmd cam (immBits r.imm 9 3) (immBits r.imm 12 3))
  | 0x5 => r.eng .projection false (immBits r.imm 12 4 != 0) (.pgather r.cmd cam (immBits r.imm 9 3))
  | 0x6 => r.eng .projection false (immBits r.imm 12 4 != 0) (.pray r.cmd cam (immBits r.imm 9 3))
  | 0x7 => r.eng .projection false (immBits r.imm 11 5 != 0)
      (.pscat r.cmd cam (immBit r.imm 9) (immBit r.imm 10))
  | 0x8 => r.eng .projection false rest6 (.pstore r.cmd)
  | 0x9 => r.eng .projection false (immBits r.imm 9 7 != 0 || cam.toNat > 5) (.pstat r.cmd cam)
  | 0xA => r.eng .projection false rest6 (.pclear r.cmd)
  | 0xB => r.eng .projection false rest6 (.pprior r.cmd)
  | _ => .error .opcode

/-- Opcodes 0xE0 to 0xEF (R217, R227, R228). -/
def Raw.decodeE (r : Raw) : Except DecodeError Instr :=
  let rest6 := immBits r.imm 6 10 != 0
  match (r.op.extractLsb' 0 4).toNat with
  | 0x0 => r.eng .sampler false rest6 (.topk r.cmd)
  | 0x1 => r.eng .sampler false (immBits r.imm 8 8 != 0 || immBits r.imm 6 2 == 3)
      (if immBits r.imm 6 2 = 0#2 then .sample r.cmd
       else if immBits r.imm 6 2 = 1#2 then .sampleSetStemp r.cmd
       else .sampleSetStopp r.cmd)
  | 0x2 => r.eng .sampler false rest6 (.accept r.cmd)
  | 0x3 => r.eng .sampler false rest6 (.resid r.cmd)
  | 0x4 => r.eng .sampler false rest6 (.draw r.cmd)
  | 0x5 => r.mem (r.sz != 0) true (immBits r.imm 0 11 != 0)
      (.kvcommit r.out (immBits r.imm 11 5) (Scope.ofBits r.mod3))
  | 0x6 => r.mem false true false
      (.ldk r.out (Width.ofBits r.sz) (immBits r.imm 11 5) (immBits r.imm 0 11) (Scope.ofBits r.mod3))
  | 0x7 => r.eng .sampler false rest6 (.treemask r.cmd)
  | 0x8 => r.eng .sampler false rest6 (.drawtab r.cmd)
  | 0xB => r.eng .seam false rest6 (.isect r.cmd)
  | 0xC => r.eng .seam false rest6 (.union r.cmd)
  | 0xD => r.eng .seam false rest6 (.seampol r.cmd)
  | 0xE => r.eng .seam false rest6 (.cmpr r.cmd)
  | _ => .error .opcode

/-- Opcodes 0xF0 to 0xFF (R161 to R165). -/
def Raw.decodeF (r : Raw) : Except DecodeError Instr :=
  match (r.op.extractLsb' 0 4).toNat with
  | 0x0 => r.plain false (.trap r.out r.imm)
  | 0x1 => r.sysReg false (.rds r.out (immBits r.imm 0 12))
  | 0x2 => r.sysReg true (.wrs r.out (immBits r.imm 0 12))
  | 0x3 => r.plain false (.flags r.out r.imm)
  | 0x4 =>
    match Target.ofBits r.imm with
    | some (.site p slot dx dy) => r.plain false (.site r.out (.site p slot dx dy))
    | _ => .error .target
  | 0x5 => r.plain (immBits r.imm 3 13 != 0) (.perf r.out (immBits r.imm 0 3))
  | 0x6 => r.plain false (.brk r.out r.imm)
  | 0x8 => r.plain false (.tret r.out r.imm)
  | 0x9 => r.plain false (.tskip r.out r.imm)
  | 0xA => r.plain false (.assert r.out r.imm)
  | 0xF => refuseIf [(r.mod != 0 || r.sz != 0 || r.i || r.p || r.ta != 0 || r.tb != 0 || r.imm != 0,
      .field)] (.ill true)
  | _ => .error .opcode

/-- The instruction of a slot word's fields, or the status that refuses it (R79, R81). -/
def Raw.decode (r : Raw) : Except DecodeError Instr :=
  match (r.op.extractLsb' 4 4).toNat with
  | 0x0 => r.decode0
  | 0x1 => r.decode1
  | 0x2 => r.decode2
  | 0x3 => r.decode3
  | 0x4 => r.decode4
  | 0x5 => r.decode5
  | 0x6 => r.decode6
  | 0x7 => r.decode7
  | 0x8 => r.decode8
  | 0x9 => r.decode9
  | 0xA => r.decodeA
  | 0xB => r.decodeB
  | 0xC => r.decodeC
  | 0xD => r.decodeD
  | 0xE => r.decodeE
  | _ => r.decodeF

/-- The instruction of a slot word, or the status that refuses it (R79, R81). -/
def decode (w : Word) : Except DecodeError Instr := (Raw.ofWord w).decode

/-- The step of a sequencing word (R339). -/
def decodeSeq (w : Word) : Except DecodeError Instr :=
  let op := (w.extractLsb' 60 4).toNat
  let cond := (w.extractLsb' 56 4).toNat
  let graph : BitVec 8 := w.extractLsb' 48 8
  let target : BitVec 16 := w.extractLsb' 32 16
  let n : BitVec 32 := w.extractLsb' 0 32
  match op with
  | 0 => refuseIf [(cond != 0 || graph != 0 || target != 0 || n != 0, .seq)] .seqEnd
  | 1 => refuseIf [(cond != 0 || target != 0 || n != 0, .seq)] (.seqRun graph)
  | 2 => refuseIf [(cond != 0 || target != 0 || n != 0, .seq)] (.seqWait graph)
  | 3 => refuseIf [(cond != 0 || graph != 0 || target != 0 || n != 0, .seq)] .seqPhase
  | 4 => refuseIf [(cond > 2 || graph != 0 || n != 0, .seq)]
      (.seqBranch (if cond = 0 then .always else if cond = 1 then .cancelled else .normal) target)
  | 5 => refuseIf [(cond != 0 || graph != 0 || n == 0, .seq)] (.seqLoop n target)
  | _ => .error .seq

/-- The instruction the decoder reads from a table word of `nbits` bits: every opcode-table row
that has a word has a slot word of 64 bits. -/
def decodeTableWord (_nbits w : Nat) : Option Instr :=
  match decode (BitVec.ofNat 64 w) with
  | .ok i => some i
  | .error _ => none

/-! ## The encoder -/

def rawPlain (op : Nat) (o : Out) (imm : BitVec 16) : Raw :=
  ⟨BitVec.ofNat 8 op, 0, 0, false, o.pred, Target.toBits o.ta, Target.toBits o.tb, imm⟩

def rawInt (op : Nat) (o : Out) (f : IntForm) (m : BitVec 3) : Raw :=
  ⟨BitVec.ofNat 8 op, BitVec.ofBool f.packed ++ m, f.sz.toBits, f.immOn, o.pred, Target.toBits o.ta,
    Target.toBits o.tb, f.imm⟩

def rawUn (op : Nat) (o : Out) (f : UnForm) : Raw :=
  ⟨BitVec.ofNat 8 op, BitVec.ofBool f.packed ++ 0#3, f.sz.toBits, false, o.pred, Target.toBits o.ta,
    Target.toBits o.tb, f.rep⟩

def rawSz (op : Nat) (o : Out) (mod : BitVec 4) (sz : BitVec 2) (imm : BitVec 16) : Raw :=
  ⟨BitVec.ofNat 8 op, mod, sz, false, o.pred, Target.toBits o.ta, Target.toBits o.tb, imm⟩

def rawFlt (op : Nat) (o : Out) (f : FltForm) : Raw :=
  rawSz op o (BitVec.ofBool f.packed ++ f.rnd.toBits) f.fmt.toBits f.rep

def ordBits : Option Scope → BitVec 4
  | none => 0
  | some s => 1#1 ++ s.toBits

def rawMem (op : Nat) (o : Out) (sz : BitVec 2) (m : MemForm) : Raw :=
  rawSz op o (ordBits m.ord) sz (m.lsid ++ m.off)

def rawEng (op : Nat) (c : Cmd) (sz : BitVec 2) (hi : BitVec 10) : Raw :=
  ⟨BitVec.ofNat 8 op, 0, sz, false, c.pred, Target.toBits c.ta, Target.toBits c.tb, hi ++ c.site⟩

def rawVec (op : Nat) (c : Cmd) (f : VecForm) : Raw :=
  rawEng op c f.sz.toBits (f.orp ++ 0#2 ++ f.fn ++ f.rm.toBits)

def rawTile (op : Nat) (c : Cmd) (f : TileForm) (hi : BitVec 4) : Raw :=
  rawEng op c 0 (hi ++ f.p ++ f.k ++ f.g)

def rawCopy (op : Nat) (c : Cmd) (f : CopyForm) (d : Bool) (form : BitVec 2) : Raw :=
  rawEng op c 0 (form ++ f.k ++ f.g ++ BitVec.ofBool d ++ f.tile)

def b2 (b : Bool) : BitVec 1 := BitVec.ofBool b

/-- The fields of the word of an instruction (R63 to R79); a row that has no slot word has the
fields of the unused slot. -/
def encodeRaw : Instr → Raw
  | .ill high => ⟨if high then 0xFF else 0x00, 0, 0, false, false, 0, 0, 0⟩
  | .mov o rep => rawPlain 0x01 o rep
  | .mov3 o tc => rawPlain 0x02 o (Target.toBits tc)
  | .const o k => rawPlain 0x03 o k
  | .constor o k => rawPlain 0x04 o k
  | .steer o rep => rawPlain 0x05 o rep
  | .steern o rep => rawPlain 0x06 o rep
  | .select o rep => rawPlain 0x07 o rep
  | .nullt o rep => rawPlain 0x08 o rep
  | .iter o rep => rawPlain 0x09 o rep
  | .iterset o rep => rawPlain 0x0A o rep
  | .iterread o rep => rawPlain 0x0B o rep
  | .colnew o rep => rawPlain 0x0C o rep
  | .colfree o rep => rawPlain 0x0D o rep
  | .retag o rep => rawPlain 0x0E o rep
  | .exit o rep => rawPlain 0x0F o rep
  | .send p rep => rawPlain 0x10 ⟨none, none, p⟩ rep
  | .sendx p rep => rawPlain 0x11 ⟨none, none, p⟩ rep
  | .gate o rep => rawPlain 0x12 o rep
  | .kindq o rep => rawPlain 0x13 o rep
  | .stopt o n => rawPlain 0x14 o (0#13 ++ n)
  | .kill o rep => rawPlain 0x15 o rep
  | .throttle o w1 => rawPlain 0x16 o (0#6 ++ w1)
  | .retire o rep => rawPlain 0x17 o rep
  | .add o f => rawInt 0x20 o f 0
  | .sub o f => rawInt 0x21 o f 0
  | .mul o f => rawInt 0x22 o f 0
  | .mulh o f u => rawInt 0x23 o f (0#2 ++ b2 u)
  | .div o f u z => rawInt 0x24 o f (0#1 ++ b2 z ++ b2 u)
  | .rem o f u z => rawInt 0x25 o f (0#1 ++ b2 z ++ b2 u)
  | .and o f => rawInt 0x26 o f 0
  | .or o f => rawInt 0x27 o f 0
  | .xor o f => rawInt 0x28 o f 0
  | .andn o f => rawInt 0x29 o f 0
  | .shl o f => rawInt 0x2A o f 0
  | .shr o f => rawInt 0x2B o f 0
  | .sar o f => rawInt 0x2C o f 0
  | .rol o f => rawInt 0x2D o f 0
  | .min o f u => rawInt 0x2E o f (0#2 ++ b2 u)
  | .max o f u => rawInt 0x2F o f (0#2 ++ b2 u)
  | .abs o f => rawUn 0x30 o f
  | .neg o f => rawUn 0x31 o f
  | .clz o f => rawUn 0x32 o f
  | .popc o f => rawUn 0x33 o f
  | .brev o f => rawUn 0x34 o f
  | .cmp o f cc => rawInt 0x35 o f cc.toBits
  | .test o f ne => rawInt 0x36 o f (0#2 ++ b2 ne)
  | .adds o f u => rawInt 0x37 o f (0#2 ++ b2 u)
  | .subs o f u => rawInt 0x38 o f (0#2 ++ b2 u)
  | .lea o sz s => rawSz 0x39 o 0 sz.toBits (0#13 ++ s)
  | .base o n => rawPlain 0x3A o (0#12 ++ n)
  | .shape o sz m => rawSz 0x3B o 0 sz.toBits m
  | .extr o pos len1 sx => rawPlain 0x3C o (0#3 ++ b2 sx ++ len1 ++ pos)
  | .ins o pos len1 => rawPlain 0x3D o (0#4 ++ len1 ++ pos)
  | .pack o f => rawSz 0x3E o 0 f.sz.toBits f.rep
  | .unpk o sz k sx => rawSz 0x3F o 0 sz.toBits (0#12 ++ b2 sx ++ k)
  | .fadd o f => rawFlt 0x40 o f
  | .fsub o f => rawFlt 0x41 o f
  | .fmul o f => rawFlt 0x42 o f
  | .fma o fmt pk rnd k => rawSz 0x43 o (b2 pk ++ rnd.toBits) fmt.toBits (0#13 ++ k)
  | .fdiv o fmt rnd rep => rawSz 0x44 o (0#1 ++ rnd.toBits) fmt.toBits rep
  | .fsqrt o fmt rnd rep => rawSz 0x45 o (0#1 ++ rnd.toBits) fmt.toBits rep
  | .fmin o fmt pk rep => rawSz 0x46 o (b2 pk ++ 0#3) fmt.toBits rep
  | .fmax o fmt pk rep => rawSz 0x47 o (b2 pk ++ 0#3) fmt.toBits rep
  | .fcmp o fmt pk cc rep => rawSz 0x48 o (b2 pk ++ cc.toBits) fmt.toBits rep
  | .fsgn o fmt pk m => rawSz 0x49 o (b2 pk ++ 0#3) fmt.toBits (0#14 ++ m)
  | .fcvt o rnd nanov dst src => rawSz 0x4A o (b2 nanov ++ rnd.toBits) 0 (src ++ dst)
  | .ftoi o fmt rnd id => rawSz 0x4B o (0#1 ++ rnd.toBits) fmt.toBits (0#8 ++ id)
  | .itof o fmt rnd id => rawSz 0x4C o (0#1 ++ rnd.toBits) fmt.toBits (0#8 ++ id)
  | .fexp2 o fmt rnd rep => rawSz 0x4D o (0#1 ++ rnd.toBits) fmt.toBits rep
  | .flog2 o fmt rnd rep => rawSz 0x4E o (0#1 ++ rnd.toBits) fmt.toBits rep
  | .frcp o fmt rnd rep => rawSz 0x4F o (0#1 ++ rnd.toBits) fmt.toBits rep
  | .frsq o fmt rnd rep => rawSz 0x50 o (0#1 ++ rnd.toBits) fmt.toBits rep
  | .fsinp o fmt rnd rep => rawSz 0x51 o (0#1 ++ rnd.toBits) fmt.toBits rep
  | .fcosp o fmt rnd rep => rawSz 0x52 o (0#1 ++ rnd.toBits) fmt.toBits rep
  | .fclass o fmt rep => rawSz 0x53 o 0 fmt.toBits rep
  | .ld o sz m => rawMem 0x60 o sz.toBits m
  | .st o sz m => rawMem 0x61 o sz.toBits m
  | .ldv o sz m => rawMem 0x62 o sz.toBits m
  | .stv o sz m => rawMem 0x63 o sz.toBits m
  | .vers o m => rawMem 0x64 o 0 m
  | .vset o m => rawMem 0x65 o 0 m
  | .ldd o m => rawMem 0x66 o 0 m
  | .std o m => rawMem 0x67 o 0 m
  | .pref o lsid off => rawMem 0x68 o 0 ⟨lsid, off, none⟩
  | .fence o form scope ordered lsid =>
    rawSz 0x69 o (b2 ordered ++ scope.toBits) form.toBits (lsid ++ 0#11)
  | .aadd o sz m => rawMem 0x78 o sz.toBits m
  | .aand o sz m => rawMem 0x79 o sz.toBits m
  | .aor o sz m => rawMem 0x7A o sz.toBits m
  | .axor o sz m => rawMem 0x7B o sz.toBits m
  | .amin o sz m => rawMem 0x7C o sz.toBits m
  | .amax o sz m => rawMem 0x7D o sz.toBits m
  | .aswap o sz m => rawMem 0x7E o sz.toBits m
  | .acas o sz lsid off k ord => rawSz 0x7F o (ordBits ord) sz.toBits (lsid ++ off ++ k)
  | .afadd o sz m => rawMem 0x80 o sz.toBits m
  | .xinit o sz m => rawMem 0x81 o sz.toBits m
  | .xacc o sz m => rawMem 0x82 o sz.toBits m
  | .xread o sz m => rawMem 0x83 o sz.toBits m
  | .aincw o sz m => rawMem 0x84 o sz.toBits m
  | .aser o sz m => rawMem 0x85 o sz.toBits m
  | .cycle o rep => rawPlain 0x88 o rep
  | .waitt o rep => rawPlain 0x89 o rep
  | .bar o m => rawMem 0x8A o 0 m
  | .post o m => rawMem 0x8B o 0 m
  | .signal o m => rawMem 0x8C o 0 m
  | .arm o m => rawMem 0x8D o 0 m
  | .cancel o lsid ord => rawMem 0x8E o 0 ⟨lsid, 0, ord⟩
  | .doneq o lsid ord => rawMem 0x8F o 0 ⟨lsid, 0, ord⟩
  | .own c => rawEng 0x90 c 0 1
  | .ownToLace c => rawEng 0x90 c 0 0
  | .permit o s => rawPlain 0x91 o (0#8 ++ s)
  | .take o s => rawPlain 0x92 o (0#8 ++ s)
  | .strset o s index branch => rawPlain 0x98 o (0#1 ++ branch ++ index ++ s)
  | .strocc o s index branch => rawPlain 0x99 o (0#1 ++ branch ++ index ++ s)
  | .strclose o s => rawPlain 0x9A o (0#8 ++ s)
  | .seamin c n q ew => rawEng 0x9B c 0 (0#4 ++ ew.toBits ++ b2 q ++ n)
  | .seamout c q ew => rawEng 0x9C c 0 (0#4 ++ ew.toBits ++ b2 q ++ 0#3)
  | .mzero c t => rawEng 0xA0 c 0 (0#9 ++ b2 t)
  | .mzeroAuto c t => rawEng 0xA0 c 0 (0#8 ++ 1#1 ++ b2 t)
  | .mldb c => rawEng 0xA1 c 0 0
  | .mldc c t => rawEng 0xA2 c 0 (0#9 ++ b2 t)
  | .mma c t => rawEng 0xA3 c 0 (0#9 ++ b2 t)
  | .mmas c t => rawEng 0xA4 c 0 (0#9 ++ b2 t)
  | .mmax3 c t => rawEng 0xA5 c 0 (0#9 ++ b2 t)
  | .mout c t rm fmt nanov => rawEng 0xA6 c 0 (0#1 ++ b2 nanov ++ fmt ++ rm.toBits ++ b2 t)
  | .mrow c reg => rawEng 0xA7 c 0 (0#8 ++ reg)
  | .mrowReadProgress c => rawEng 0xA7 c 0 3
  | .mscale c => rawEng 0xA8 c 0 0
  | .mbmap c => rawEng 0xA9 c 0 0
  | .vmap c f => rawVec 0xB0 c f
  | .vfma c f => rawVec 0xB1 c f
  | .vred c f => rawVec 0xB2 c f
  | .vscan c f => rawVec 0xB3 c f
  | .vsoft c f => rawVec 0xB4 c f
  | .vnorm c f => rawVec 0xB5 c f
  | .cvt c rm fmt nanov => rawEng 0xB6 c 0 (0#2 ++ b2 nanov ++ fmt ++ rm.toBits)
  | .vcmp c f => rawVec 0xB7 c f
  | .vsel c f => rawVec 0xB8 c f
  | .vrope c f => rawVec 0xB9 c f
  | .tshape c f => rawTile 0xBC c f 0
  | .tread c f => rawTile 0xBD c f 0
  | .twrite c f => rawTile 0xBE c f 0
  | .tcomp c f => rawTile 0xBF c f 0
  | .texp c f vf => rawTile 0xC0 c f (0#2 ++ vf.toBits)
  | .trot c f => rawTile 0xC1 c f 0
  | .twin c f => rawTile 0xC2 c f 0
  | .tzmap c f => rawTile 0xC3 c f 0
  | .tsacc c f vf => rawTile 0xC4 c f (0#2 ++ vf.toBits)
  | .trep c f => rawTile 0xC5 c f 0
  | .trmw c f op => rawTile 0xC6 c f (0#1 ++ op.toBits)
  | .tfill c f => rawTile 0xC7 c f 0
  | .cpy c f d => rawCopy 0xCC c f d 0
  | .cpySetLpitch c f d => rawCopy 0xCC c f d 1
  | .cpySetLtask c f d => rawCopy 0xCC c f d 2
  | .cpyg c f => rawCopy 0xCD c f false 0
  | .cpys c f => rawCopy 0xCE c f true 0
  | .cpy2d c f d => rawCopy 0xCF c f d 0
  | .cpyq c => rawEng 0xD0 c 0 0
  | .camld c cam => rawEng 0xD2 c 0 (0#7 ++ cam)
  | .camset c cam word => rawEng 0xD3 c 0 (0#1 ++ 0#1 ++ word ++ cam)
  | .camsetRead c cam word => rawEng 0xD3 c 0 (0#1 ++ 1#1 ++ word ++ cam)
  | .camcomp c cam a b => rawEng 0xD4 c 0 (0#1 ++ b ++ a ++ cam)
  | .pgather c cam ng1 => rawEng 0xD5 c 0 (0#4 ++ ng1 ++ cam)
  | .pray c cam ng1 => rawEng 0xD6 c 0 (0#4 ++ ng1 ++ cam)
  | .pscat c cam carve ptrap => rawEng 0xD7 c 0 (0#5 ++ b2 ptrap ++ b2 carve ++ cam)
  | .pstore c => rawEng 0xD8 c 0 0
  | .pstat c k => rawEng 0xD9 c 0 (0#7 ++ k)
  | .pclear c => rawEng 0xDA c 0 0
  | .pprior c => rawEng 0xDB c 0 0
  | .topk c => rawEng 0xE0 c 0 0
  | .sample c => rawEng 0xE1 c 0 0
  | .sampleSetStemp c => rawEng 0xE1 c 0 1
  | .sampleSetStopp c => rawEng 0xE1 c 0 2
  | .accept c => rawEng 0xE2 c 0 0
  | .resid c => rawEng 0xE3 c 0 0
  | .draw c => rawEng 0xE4 c 0 0
  | .kvcommit o lsid scope => rawSz 0xE5 o (1#1 ++ scope.toBits) 0 (lsid ++ 0#11)
  | .ldk o sz lsid off scope => rawSz 0xE6 o (1#1 ++ scope.toBits) sz.toBits (lsid ++ off)
  | .treemask c => rawEng 0xE7 c 0 0
  | .drawtab c => rawEng 0xE8 c 0 0
  | .isect c => rawEng 0xEB c 0 0
  | .union c => rawEng 0xEC c 0 0
  | .seampol c => rawEng 0xED c 0 0
  | .cmpr c => rawEng 0xEE c 0 0
  | .trap o code => rawPlain 0xF0 o code
  | .rds o num => rawPlain 0xF1 o (0#4 ++ num)
  | .wrs o num => rawPlain 0xF2 o (0#4 ++ num)
  | .flags o rep => rawPlain 0xF3 o rep
  | .site o t => rawPlain 0xF4 o (Target.toBits (some t))
  | .perf o k => rawPlain 0xF5 o (0#13 ++ k)
  | .brk o rep => rawPlain 0xF6 o rep
  | .tret o rep => rawPlain 0xF8 o rep
  | .tskip o rep => rawPlain 0xF9 o rep
  | .assert o code => rawPlain 0xFA o code
  | _ => ⟨0, 0, 0, false, false, 0, 0, 0⟩

/-- The slot word of an instruction. -/
def encode (i : Instr) : Word := (encodeRaw i).toWord

/-- The sequencing word of a step (R339); other rows have none and give the word of END. -/
def encodeSeq : Instr → Word
  | .seqRun g => 1#4 ++ 0#4 ++ g ++ 0#16 ++ 0#32
  | .seqWait g => 2#4 ++ 0#4 ++ g ++ 0#16 ++ 0#32
  | .seqPhase => 3#4 ++ 0#60
  | .seqBranch c t =>
    4#4 ++ (match c with | .always => 0#4 | .cancelled => 1#4 | .normal => 2#4) ++ 0#8 ++ t ++ 0#32
  | .seqLoop n t => 5#4 ++ 0#4 ++ 0#8 ++ t ++ n
  | _ => 0

end Sys2Proof
end

