-- ==== Sys2Proof/Machine/Types.lean ====
section
/-! DEFINITION. The pieces of the machine's state within a launch: tokens, lace elements, engines,
strands, requests at homes, traps and launches, each as plain data (spec chapters 01, 06 to 13, 17,
19). -/

namespace Sys2Proof.Machine

/-! ## Tables: sorted association lists -/

/-- A table keyed by number: a list sorted by key, without repeats. -/
abbrev Tbl (α : Type) := List (Nat × α)

def Tbl.find {α : Type} : Tbl α → Nat → Option α
  | [], _ => none
  | (k, v) :: rest, n => if k = n then some v else Tbl.find rest n

def Tbl.put {α : Type} : Tbl α → Nat → α → Tbl α
  | [], n, x => [(n, x)]
  | (k, v) :: rest, n, x =>
    if n < k then (n, x) :: (k, v) :: rest
    else if n = k then (n, x) :: rest
    else (k, v) :: Tbl.put rest n x

def Tbl.del {α : Type} : Tbl α → Nat → Tbl α
  | [], _ => []
  | (k, v) :: rest, n => if k = n then rest else (k, v) :: Tbl.del rest n

/-- The entry at a key, or the default value. -/
def Tbl.get {α : Type} [Inhabited α] (t : Tbl α) (n : Nat) : α := (t.find n).getD default

/-- Change the entry at a key where there is one. -/
def Tbl.edit {α : Type} (t : Tbl α) (n : Nat) (f : α → α) : Tbl α :=
  match t.find n with
  | some v => t.put n (f v)
  | none => t

/-! ## Tokens, R26 to R30 -/

/-- KIND of a token (R27). -/
inductive Kind
  | data | null | empty | unseen | stop | kill | poison | command
  deriving DecidableEq, Repr, Inhabited

/-- What a token carries: payload, kind, level, REL, OUTSIDE (R26), and for a POISON token the
address recorded with it (R393), 0 for none. -/
structure Tok where
  val : Word
  kind : Kind
  level : Nat
  rel : Bool
  outside : Bool
  paddr : Nat
  deriving DecidableEq, Repr, Inhabited

/-- One firing: where it fires, the identity, the activation and the operands read (R33, R101). -/
structure Firing where
  run : Nat
  elem : Nat
  slot : Nat
  colour : Nat
  iter : Nat
  act : Nat
  l : Option Tok
  r : Option Tok
  p : Option Tok
  deriving DecidableEq, Repr, Inhabited

/-- An engine command as it travels and as the engine holds it (R166). -/
structure CmdMsg where
  word : Word
  issuer : Nat
  slot : Nat
  colour : Nat
  iter : Nat
  operand : Word
  deriving DecidableEq, Repr, Inhabited

/-- A token in flight (R21, R26): the place it comes from and the place it goes to, both by
element key within its run; `sent` marks a token of SEND or SENDX (R82, R112), `outer` one whose
colour was computed (SENDX, SEAMOUT). -/
structure Flit where
  run : Nat
  src : Nat
  dst : Nat
  slot : Nat
  port : Nat
  ctx : Nat
  colour : Nat
  iter : Nat
  tok : Tok
  cmd : Option CmdMsg
  sent : Bool
  outer : Bool
  deriving DecidableEq, Repr, Inhabited

/-! ## Memory requests, R144 to R154 -/

/-- What a request asks of its home. -/
inductive MemOp
  | read | write | vers | vset | ldd | std | ldv | stv
  | aadd | aand | aor | axor | amin | amax | aswap | acas | afadd | aincw | aser
  | xinit | xacc | xread | bar | post | signal | arm | kvcommit | ldk | cancel | doneq | fence
  deriving DecidableEq, Repr, Inhabited

/-- The three classes of R74. -/
inductive MemClass
  | buffered | immediate | read
  deriving DecidableEq, Repr, Inhabited

/-- Where a request stands. -/
inductive ReqState
  /-- on its way to its home, or waiting for its order -/
  | pending
  /-- on the home's list of deferred readers (R148) -/
  | held
  /-- a held LDV that a write or VSET has satisfied and that reads next (R295) -/
  | satisfied
  /-- an arrived BAR that waits for its generation to end (R157) -/
  | arrived (gen : Nat)
  /-- parked by a trap raised at the home -/
  | trapped
  deriving DecidableEq, Repr, Inhabited

/-- A request on its way to its home.  `after` names the requests that a buffered write of a
committed activation waits for (R146, R152, R292); the others' order is computed when they are
performed.  `far` is the packet of another device whose LDV this home holds (R148, R374). -/
structure Req where
  firing : Firing
  out : Out
  op : MemOp
  cls : MemClass
  ea : Nat
  home : Nat
  size : Nat
  data : Word
  extra : Word
  lsid : Nat
  ord : Option Scope
  state : ReqState
  after : List Nat
  far : Option Packet
  deriving DecidableEq, Repr, Inhabited

/-- A translation miss under way (R369): the firing that waits for it. -/
structure Walk where
  firing : Firing
  ea : Nat
  need : Nat
  deriving DecidableEq, Repr, Inhabited

/-- A cached leaf translation of a cluster (R369): page base, page size, physical base, rights. -/
structure TlbEntry where
  cluster : Nat
  ctx : Nat
  va : Nat
  size : Nat
  pa : Nat
  rd : Bool
  wr : Bool
  deriving DecidableEq, Repr, Inhabited

/-! ## Lace elements, chapter 10 -/

/-- A token waiting at a slot port (R242); `spilled` is the place of its entry in the context's spill
region, for one that stands there (R243, R244). -/
structure Wait where
  slot : Nat
  port : Nat
  colour : Nat
  iter : Nat
  tok : Tok
  at_ : Nat
  spilled : Option Nat
  deriving DecidableEq, Repr, Inhabited

/-- A store-buffer entry (R145); `op` is write, vset, std, signal, kvcommit or cancel; `spilled` as for
a waiting token (R244); `bad` marks an entry that a word error has hit (R393). -/
structure Store where
  firing : Firing
  out : Out
  op : MemOp
  ea : Nat
  home : Nat
  size : Nat
  data : Word
  extra : Word
  lsid : Nat
  ord : Option Scope
  far : Bool
  spilled : Option Nat
  bad : Bool
  deriving DecidableEq, Repr, Inhabited

/-- An activation (R235): `lsids` the write-class LSIDs closed, `mems` every memory-class LSID
closed, `holds` and `exits` what has been written or fired, `flags` the private flags; `poisoned` says
that a replay has consumed a POISON operand of it (R246, R397), `commitAt` is the cycle of its
commit (R247). -/
structure Act where
  uid : Nat
  colour : Nat
  iter : Nat
  committed : Bool
  opened : Nat
  lsids : Nat
  mems : Nat
  holds : Nat
  exits : Nat
  flags : Nat
  stores : List Store
  frees : List Nat
  wrs : List (Firing × Out × Nat × Word)
  owns : List CmdMsg
  fences : List (Nat × Scope)
  aged : Bool
  poisoned : Bool
  commitAt : Nat
  deriving DecidableEq, Repr, Inhabited

/-- Why a firing is parked and what resuming it does is given by its cause (R163). -/
structure Parked where
  uid : Nat
  firing : Firing
  cause : Nat
  deriving DecidableEq, Repr, Inhabited

/-- A completion token the element holds (R145, R248): it leaves once the write of request `req`
is visible at `scope`; until its activation commits, the write is only known by its LSID. -/
structure Held where
  firing : Firing
  out : Out
  tok : Tok
  lsid : Nat
  req : Nat
  act : Nat
  scope : Scope
  deriving DecidableEq, Repr, Inhabited

/-- The live set of a THROTTLE slot for one colour (R122). -/
structure LiveSet where
  slot : Nat
  colour : Nat
  tags : List Nat
  deriving DecidableEq, Repr, Inhabited

/-- A seed record (R396): a copy of a token that RETAG moved into a colour. -/
structure Seed where
  colour : Nat
  out : Out
  tok : Tok
  fromColour : Nat
  deriving DecidableEq, Repr, Inhabited

/-- A lace element.  `before` holds what the hold registers written in the cycle `beforeAt` held before
it (R35); `holdsBad` is the mask of the hold registers that a word error has hit (R393), `badSlots` that of
the slots whose configuration has become corrupt (R80, R393). -/
structure Elem where
  slots : List Word
  header : Word
  policy : Word
  holds : List Word
  beforeAt : Nat
  before : Tbl Word
  holdsBad : Nat
  badSlots : Nat
  waiting : List Wait
  acts : List Act
  parked : List Parked
  waitts : List (Nat × Firing)
  live : List LiveSet
  throttled : List Firing
  helds : List (Nat × Held)
  pass : List Nat
  vt : Nat
  hadCand : Nat
  lastSelect : Option Nat
  quarter : Option Nat
  perf : List Nat
  seeds : List Seed
  spillHeld : List Flit
  deriving DecidableEq, Repr, Inhabited

/-! ## Blocks, beats and strands, chapters 02, 11 -/

/-- The side band of a block (R42) and its poison mark (R393). -/
structure Side where
  version : Nat
  scale : Nat
  zero : Bool
  fmt : Nat
  poison : Bool
  deriving DecidableEq, Repr, Inhabited

/-- A strand beat (R31). -/
structure Beat where
  data : List Byte
  descr : Nat
  ctrl : Nat
  deriving DecidableEq, Repr, Inhabited

/-- A request on a control strand (R259): PERMIT, TAKE or the notice of STRCLOSE. -/
inductive CtrlReq
  | permit (n : Nat) (f : Firing) (o : Out)
  | take (n : Nat) (f : Firing) (o : Out)
  | close
  deriving DecidableEq, Repr, Inhabited

/-- A STRCLOSE under way (R201): at the producer end, with the count of the command it closed; at
the consumer end, with the beats discarded so far and the branches whose end-of-stream has not come. -/
inductive Closing
  | producer (f : Firing) (o : Out) (count : Nat)
  | producerSilent
  | consumer (f : Firing) (o : Out) (count : Nat) (left : List Nat)
  deriving DecidableEq, Repr, Inhabited

/-- One branch of a strand: its consumer end, its registers and the beats on it; `wconsWas` is the weight
in force before the last update (R261). -/
structure Branch where
  elem : Nat
  port : Nat
  bound : Option Nat
  bridge : Bool
  gauge : Nat
  integ : Int
  wcons : Nat
  wconsWas : Nat
  cap : Nat
  flags : Nat
  wcbase : Nat
  beats : List Beat
  deriving DecidableEq, Repr, Inhabited

/-- A strand of a launch (R199, R256): `ready` is the beat its producer has formed and not sent; `updated`
is the cycle of the last tension update, `wprodWas` and `loopWas` the weight and the loop in force before
it, `loop` the loop in force from it on (R200, R261). -/
structure Strand where
  num : Nat
  elem : Nat
  port : Nat
  bound : Option Nat
  kp : Nat
  ki : Nat
  wmin : Nat
  wmax : Nat
  imax : Nat
  wprod : Nat
  wprodWas : Nat
  loop : Bool
  loopWas : Bool
  updated : Nat
  orph : Nat
  wpbase : Nat
  gated : Bool
  permit : Nat
  branches : List Branch
  ready : List Beat
  control : List CtrlReq
  closing : List Closing
  sent : Nat
  cmp : Bool
  deriving DecidableEq, Repr, Inhabited

/-! ## Engines, chapters 07 and 08 -/

/-- A residue accumulator cell with its NaN marker (R54, R170). -/
structure Cell where
  a : Nat
  b : Nat
  c : Nat
  nan : Bool
  deriving DecidableEq, Repr, Inhabited

/-- A block with its side band [15:0], as an engine buffers it (R170, R183). -/
structure Blk where
  data : List Byte
  descr : Nat
  deriving DecidableEq, Repr, Inhabited

structure Frame where
  bbuf : Tbl Blk
  acc0 : Tbl Cell
  acc1 : Tbl Cell
  mbpitch : Word
  mcpitch : Word
  mtask : Word
  mrowp : Option Nat
  scaleA : BitVec 32
  scaleB : BitVec 32
  mbmap : Word
  eacc0 : Int
  eacc1 : Int
  deriving DecidableEq, Repr, Inhabited

/-- A memory tile of a launch: owner bit (true: engine), use count, shape records (R168, R185), the last
port that it served with the cycle of it (R274), and the cycle in which a completion last gave it back to lace
(R168). -/
structure TileSt where
  engine : Bool
  uses : Nat
  shapes : Tbl Word
  portAt : Nat
  port : Nat
  freed : Option Nat
  deriving DecidableEq, Repr, Inhabited

structure SamplerSt where
  sdtab : Word
  stemp : BitVec 32
  stopp : Nat
  cas : List (BitVec 32 × Nat)
  limit : Nat
  deriving DecidableEq, Repr, Inhabited

/-- A store descriptor as a projection element caches it (R208, R317). -/
structure StoreDesc where
  ox : BitVec 32
  oy : BitVec 32
  oz : BitVec 32
  invvoxel : BitVec 32
  dimx : Nat
  dimy : Nat
  dimz : Nat
  f : Nat
  mode : Nat
  carvew : Nat
  t : Nat
  tablebase : Nat
  poolbase : Nat
  stackbase : Nat
  poolcount : Nat
  prior : List (BitVec 16)
  deriving DecidableEq, Repr, Inhabited

structure ProjSt where
  psaddr : Word
  dstep : BitVec 32
  desc : Option StoreDesc
  deriving DecidableEq, Repr, Inhabited

/-- A token that a seam keeps for an input (R332). -/
structure SeamTok where
  input : Nat
  colour : Nat
  iter : Nat
  tok : Tok
  deriving DecidableEq, Repr, Inhabited

/-- A seam: its policy word (R228) and the tokens kept for its inputs (R332). -/
structure SeamSt where
  padv : Nat
  pol : Nat
  mcnt : Bool
  inputs : List SeamTok
  deriving DecidableEq, Repr, Inhabited

structure LighterPort where
  lpitch : Word
  ltask : Word
  deriving DecidableEq, Repr, Inhabited

/-- A copy a lighter has accepted (R195). -/
structure Copy where
  handle : Nat
  run : Nat
  cmd : Nat
  base : Nat
  blocks : Nat
  moved : Nat
  started : Option Nat
  due : Nat
  deriving DecidableEq, Repr, Inhabited

/-- Where an engine command stands. -/
inductive CmdState
  /-- held like a REL token until its activation commits and its stores are visible (R159) -/
  | withheld (act : Nat)
  | queued
  | running
  /-- stopped at a fault, until the trap is resumed (R169) -/
  | stopped
  /-- its work is over and its completion, with this payload, is to be sent (R167) -/
  | finished (payload : Word)
  deriving DecidableEq, Repr, Inhabited

/-- The progress of a running command: counters, addresses, values and blocks it has gathered.
`skip` is the value of a TSKIP after which reads give zero blocks and writes do nothing (R169). -/
structure Prog where
  i : Nat
  j : Nat
  n : Nat
  nums : List Nat
  words : List Word
  blks : List Blk
  ints : List Int
  skip : Option Word
  deriving DecidableEq, Repr, Inhabited

/-- A command at an engine: its progress, the flags it has raised, the task word it decrements, the
tiles whose use count it is in (R168), and the far block it waits for or has received; `farBusy` of a finished
command says that a far write of it has failed (R169). -/
structure Command where
  elem : Nat
  msg : CmdMsg
  state : CmdState
  prog : Prog
  flags : Nat
  task : Nat
  counted : List Nat
  farBusy : Bool
  farBlk : Option Blk
  deriving DecidableEq, Repr, Inhabited

/-! ## Traps, R163 to R165 -/

/-- What a resumed trap goes on with. -/
inductive Resume
  /-- a parked firing of an element, by its number -/
  | firing (elem uid : Nat)
  /-- a request trapped at its home -/
  | request (req : Nat)
  /-- a commit that found an engine-owned tile -/
  | commit (elem act : Nat)
  /-- a token that could not be spilled -/
  | spill (elem : Nat)
  /-- an activation past its age limit -/
  | age (elem act : Nat)
  /-- an engine command stopped at a fault of memory or of its operand word -/
  | engine (cmd : Nat)
  /-- an engine command stopped at a strand beat of a port, with the DESCR of the beat it expected -/
  | beat (cmd port descr : Nat)
  /-- an engine command stopped at an orphan at a port -/
  | orphan (cmd port : Nat)
  /-- a SEAMIN stopped at a POISON token -/
  | seamPoison (cmd : Nat)
  /-- a task-word decrement of a finished command -/
  | decrement (cmd : Nat)
  /-- a far request past its lifetime or refused by its owner -/
  | far (ctx fs : Nat)
  /-- a token discarded on arrival, or a mismatch: resuming only ends the presentation -/
  | nothing
  deriving DecidableEq, Repr, Inhabited

structure TrapRec where
  cause : Nat
  seq : Nat
  elem : Nat
  slot : Nat
  colour : Nat
  iter : Nat
  info : Word
  tokenA : Word
  tokenB : Word
  resume : Resume
  deriving DecidableEq, Repr, Inhabited

/-- The trap registers as RDS reads them (R161). -/
structure TrapRegs where
  valid : Bool
  seq : Nat
  cause : Nat
  tokenA : Word
  tokenB : Word
  site : Word
  info : Word
  deriving DecidableEq, Repr, Inhabited

/-! ## Images, chapter 18 -/

/-- A token that every launch of a graph injects (R88). -/
structure SourceTok where
  slot : Nat
  port : Nat
  value : Word
  colour : Nat
  iter : Nat
  kind : Kind
  level : Nat
  deriving DecidableEq, Repr, Inhabited

structure PlanElem where
  site : Nat
  slots : List Word
  header : Word
  policy : Word
  holds : List Word
  sources : List SourceTok
  deriving DecidableEq, Repr, Inhabited

structure PlanCluster where
  clu : Nat
  mask : Nat
  elems : List PlanElem
  deriving DecidableEq, Repr, Inhabited

structure PlanPart where
  w : Nat
  h : Nat
  dc : Int
  dr : Int
  clusters : List PlanCluster
  deriving DecidableEq, Repr, Inhabited

/-- A consumer end of a strand of the plan: element key, port number, and the mesh hops and bridges of the
route to it (R256, R257). -/
structure PlanDest where
  elem : Nat
  port : Nat
  hops : Nat
  bridges : Nat
  deriving DecidableEq, Repr, Inhabited

/-- A strand of the plan (R88, R256): its ends as element key and port number. -/
structure PlanStrand where
  num : Nat
  fromElem : Nat
  fromPort : Nat
  dests : List PlanDest
  cap : Nat
  gauge : Option Nat
  kp : Nat
  ki : Nat
  wmin : Nat
  wmax : Nat
  cmp : Bool
  deriving DecidableEq, Repr, Inhabited

structure PlanGraph where
  flagsWord : Word
  scrbase : Word
  scrsize : Word
  parts : List PlanPart
  strands : List PlanStrand
  deriving DecidableEq, Repr, Inhabited

/-- A binding of PORTS (R336): a strand end at a region's edge and a memory stream. -/
structure PortBinding where
  graph : Nat
  strand : Nat
  atEdge : Bool
  addr : Nat
  deriving DecidableEq, Repr, Inhabited

/-- A block of DATA with its descriptor (R88, R336). -/
structure DataBlk where
  addr : Nat
  fmt : Nat
  scale : Nat
  payload : List Byte
  graph : Nat
  deriving DecidableEq, Repr, Inhabited

/-! ## Launches, chapters 18 and 19 -/

/-- The state of a part of a graph (R358, R363, R411). -/
inductive PartState
  | loading | running | parked
  /-- parked and admitted to run again by a plane switch (R360) -/
  | switching
  | frozenOut
  /-- parked because a freeze-out found the save area too small (R363) -/
  | tooSmall
  deriving DecidableEq, Repr, Inhabited

structure Part where
  die : Nat
  row : Nat
  col : Nat
  w : Nat
  h : Nat
  dc : Int
  dr : Int
  plane : Nat
  masks : List Nat
  state : PartState
  cancelled : Bool
  done : Bool
  deriving DecidableEq, Repr, Inhabited

/-- A freeze (R361): the cycle its wave started, none while it waits, whether the image is to be read out, and
whether SWITCHOUT ordered it (R357). -/
structure Freeze where
  start : Option Nat
  out : Bool
  command : Bool
  deriving DecidableEq, Repr, Inhabited

/-- Where a RUN of a graph stands: requested and waiting for admission, admitted and loading, running,
frozen, complete (R340, R344, R353, R361). -/
inductive RunState
  | waiting | loading | running | frozen | complete
  deriving DecidableEq, Repr, Inhabited

/-- One RUN of a graph: its parts and everything of Launch lifetime in them; `age` is the cycle of its
RUN, `admitted` that of its admission (R350, R351), `saveAt` and `saveLen` the place and the length of its
frozen image in the save area (R363).  Elements and engines are keyed by
(part * 16 + cluster) * 64 + site. -/
structure Run where
  job : Nat
  graph : Nat
  phase : Nat
  nth : Nat
  ctx : Nat
  age : Nat
  admitted : Nat
  state : RunState
  cancelled : Bool
  parts : List Part
  plan : PlanGraph
  args : List Word
  debug : Bool
  trapElem : Option Nat
  trapSlot : Nat
  elems : Tbl Elem
  frames : Tbl Frame
  tiles : Tbl TileSt
  samplers : Tbl SamplerSt
  projs : Tbl ProjSt
  seams : Tbl SeamSt
  ports : Tbl LighterPort
  strands : Tbl Strand
  cmds : Tbl Command
  saveAt : Nat
  saveLen : Nat
  trapRegs : TrapRegs
  presented : Option TrapRec
  trapQueue : List TrapRec
  trapSeq : Nat
  inbox : Tbl Flit
  freeze : Option Freeze
  twin : Option Nat
  copyB : Bool
  deriving DecidableEq, Repr, Inhabited

/-- A kill or purge wave under way (R120, R397): the colours it purges with the LEVEL that each colour's
KILL tokens carry (R28), the elements that have not acknowledged, the element it starts at, and the
firing that waits for it; `asked` is the cycle in which a replay asks the pool for its colour (R115). -/
structure Wave where
  run : Nat
  colours : List Nat
  levels : List Nat
  src : Nat
  todo : List Nat
  firing : Option (Firing × Out)
  replay : Option Nat
  asked : Nat
  deriving DecidableEq, Repr, Inhabited

end Sys2Proof.Machine
end

