-- ==== Sys2Proof/Machine/HarbourTypes.lean ====
section
/-! DEFINITION. The pieces of state the harbour die keeps: contexts, queues and jobs, the
exactly-once state, the health of dies and clusters, and the device's life (spec chapters 18 to 20,
23, 24), as plain data. -/

namespace Sys2Proof.Machine

/-! ## Contexts, R355, R356 -/

/-- The state of one colour of a pool (R115, R396, R397). -/
inductive ColourState
  | free | allocated | killed | draining
  deriving DecidableEq, Repr, Inhabited

/-- A colour (R115): state, pool level, whether a release is requested, the taint bit and the
number of replays (R396), the colour it is an alias of or for (R397), the parent that seeded it and
the run and element of the firing that allocated it. -/
structure Colour where
  state : ColourState
  level : Nat
  release : Bool
  taint : Bool
  replays : Nat
  alias_ : Option Nat
  replaces : Option Nat
  parents : List Nat
  run : Nat
  elem : Nat
  deriving DecidableEq, Repr, Inhabited

/-- A COLNEW that waits for the pool (R115, R252), with its level; `replay` marks the
harbourmaster's own request for a replacement colour (R397). -/
structure ColWait where
  level : Nat
  since : Nat
  firing : Firing
  out : Out
  deriving DecidableEq, Repr, Inhabited

/-- A request that carries a serial or is resent as it stands (R372 to R377), on the outstanding
list: `fs` its full serial, `since` its first send, `next` its next resend, `interval` the current
interval, which the resend that a BUSY reply scheduled does not double. -/
structure FarReq where
  fs : Nat
  serialled : Bool
  packet : Packet
  req : Nat
  firing : Option (Firing × Out)
  since : Nat
  next : Nat
  interval : Nat
  busy : Bool
  expired : Bool
  deriving DecidableEq, Repr, Inhabited

/-- A far request that waits for the window (R373): the packet without serial, and who waits. -/
structure FarWait where
  packet : Packet
  serialled : Bool
  req : Nat
  firing : Option (Firing × Out)
  deriving DecidableEq, Repr, Inhabited

/-- STATE of a context (R356). -/
inductive CtxState
  | free | live | out | busy
  deriving DecidableEq, Repr, Inhabited

/-- The registers of a context that the harbour die keeps (R161, R355). -/
structure CtxRegs where
  ctxbase : Word
  flags : Nat
  round : Nat
  seed : Word
  cfl : List Nat
  slack : Nat
  deriving DecidableEq, Repr, Inhabited

/-- The serial state of a requester (R371, R372).  `refused` holds the requests that an owner refused: they
are off the list, and wait for the resumption of their traps (R375). -/
structure FarState where
  id : Nat
  serialNext : Nat
  lap : Nat
  outstanding : List FarReq
  refused : List FarReq
  waiting : Tbl FarWait
  deriving DecidableEq, Repr, Inhabited

/-- What a context save record and its frozen images hold, each run with its age for the cycle of its RUN
(R357, R363, R382): the items the harbour die keeps, the serial state with the outstanding requests, and
the frozen launches with their queues and the requests that were withdrawn. -/
structure SavedCtx where
  flhead : Nat
  flovf : Nat
  regs : CtxRegs
  colours : Tbl Colour
  waiting : List ColWait
  cams : Tbl (List (BitVec 32))
  far : FarState
  runs : List (Nat × Run)
  queues : List Nat
  reqs : Tbl Req
  /-- the purge waves whose replay follows the restore (R398) -/
  waves : Tbl Wave
  /-- the blocks of the masked tiles with their side bands, by run and by the place in its tiles (R363) -/
  tiles : List (Nat × List (Nat × List Byte × Side))
  deriving DecidableEq, Repr, Inhabited

structure Ctx where
  ptroot : Word
  twbase : Word
  tilekey : Word
  spillbase : Word
  spillsize : Word
  savebase : Word
  savesize : Word
  flbase : Word
  flhead : Nat
  fltail : Nat
  flovf : Nat
  fllog : Nat
  reqnum : Nat
  ctxbase0 : Word
  state : CtxState
  prior : CtxState
  command : Nat
  cmdstatus : Nat
  regs : CtxRegs
  colours : Tbl Colour
  waiting : List ColWait
  cams : Tbl (List (BitVec 32))
  far : FarState
  /-- what the last switch-out saved (R357, R382) -/
  saved : Option SavedCtx
  /-- the end of a switch-out's wait for the outstanding list (R382) -/
  drainEnd : Option Nat
  deriving DecidableEq, Repr, Inhabited

/-! ## Queues and jobs, chapter 18 -/

/-- Where a queue stands (R349): at anchor since its arrival, or in a berth. -/
inductive QueuePlace
  | anchor (arrived : Nat)
  | berth (index since : Nat)
  deriving DecidableEq, Repr, Inhabited

/-- A waiting RUN, or the restore of a frozen one, at a queue (R349 to R351): the run that waits, and
the bypasses it has suffered. -/
structure Head where
  run : Nat
  bypasses : Nat
  restore : Bool
  deriving DecidableEq, Repr, Inhabited

structure Queue where
  qbase : Word
  qlog : Nat
  qtail : Nat
  qhead : Nat
  ctx : Nat
  prio : Nat
  die : Nat
  signed : Bool
  en : Bool
  place : QueuePlace
  heads : List Head
  job : Option Nat
  deriving DecidableEq, Repr, Inhabited

/-- What a sequence thread waits for (R340): the start of a run, its completion, or the completion of
every graph of a phase. -/
inductive ThreadWait
  | none
  | run (run : Nat)
  | wait (run : Nat)
  | phase (number : Nat)
  deriving DecidableEq, Repr, Inhabited

/-- A sequence thread (R340): step, LAST, CTR, what it waits for, and its latest RUN of each
graph. -/
structure Thread where
  step : Nat
  last : Bool
  ctr : Nat
  wait : ThreadWait
  runs : Tbl Nat
  deriving DecidableEq, Repr, Inhabited

/-- How an item ended (R344). -/
structure Item where
  complete : Bool
  cancelled : Bool
  deriving DecidableEq, Repr, Inhabited

structure Job where
  queue : Nat
  record : Nat
  ctx : Nat
  args : List Word
  image : Nat
  taskbase : Nat
  debug : Bool
  steps : List Word
  ntask : Nat
  tasks : List (Nat × Nat)
  graphs : List PlanGraph
  data : List DataBlk
  trapslot : Word
  phase : Nat
  threads : Tbl Thread
  starts : List Nat
  runs : List Nat
  phases : Tbl Item
  status : Item
  report : Word
  deriving DecidableEq, Repr, Inhabited

/-- A CANCEL, by its request, whose completion token waits for the item it cancelled (R346). -/
structure CancelWait where
  item : ItemRef
  req : Nat
  deriving DecidableEq, Repr, Inhabited

/-! ## Owners of far requests, R376 to R381 -/

/-- An entry of a result cache (R376): the full serial, the result word, its flags, the kind of the
token it stands for, the reply address, and for a BAR that has arrived and waits its home and
generation (R157). -/
structure FarEntry where
  fs : Nat
  result : Word
  flags : Nat
  kind : Nat
  reply : Nat
  bar : Option (Nat × Nat)
  deriving DecidableEq, Repr, Inhabited

inductive SlotBody
  | entry (e : FarEntry)
  | tombstone (freeAt : Nat)
  deriving DecidableEq, Repr, Inhabited

/-- A slot (R376, R378): the id, its high mark, the cycle of its last packet, that of the last packet or
query, the cycle of a GONE answer, and what the slot holds. -/
structure CacheSlot where
  id : Nat
  high : Nat
  last : Nat
  asked : Nat
  gone : Option Nat
  body : SlotBody
  deriving DecidableEq, Repr, Inhabited

/-- A quay, or the harbourmaster's token cache: the result cache by slot number and the counters of
R384. -/
structure Owner where
  slots : Tbl CacheSlot
  restarts : Nat
  orphaned : Nat
  busycnt : Nat
  deriving DecidableEq, Repr, Inhabited

/-! ## Dies and clusters, chapters 18, 23, 24 -/

/-- The state of a cluster or frame under in-service test (R401). -/
inductive Health
  | normal | suspect | bin1 | bin2 | retired
  deriving DecidableEq, Repr, Inhabited

structure ClusterSt where
  tests : Nat
  frbin1 : Nat
  frbin2 : Nat
  frret : Nat
  state : Health
  due : Nat
  withheld : Bool
  testing : Bool
  avoid : Bool
  ready : Bool
  deriving DecidableEq, Repr, Inhabited

/-- A fabric die.  `wakes` counts the copies of the cycle counter it has taken from the harbour die, and
`slept` is the cycle in which it last left A0 (R9, R407), `called`
that something from outside waits for it to wake (R407). -/
structure DieSt where
  berthq : Nat
  bypassmax : Nat
  preemptwait : Nat
  ltol : Nat
  power : Nat
  wakes : Nat
  slept : Nat
  called : Bool
  ready : Bool
  hbmReady : Bool
  lighters : Nat
  hbmce : Nat
  soft : Nat
  ue : Nat
  linkretry : Nat
  clusters : Tbl ClusterSt
  copies : Tbl (List Copy)
  deriving DecidableEq, Repr, Inhabited

/-- A hawser link (R411): state, lanes up, resends, and whether it is ready (R404). -/
structure LinkSt where
  state : Nat
  lanes : Nat
  resends : Nat
  ready : Bool
  deriving DecidableEq, Repr, Inhabited

/-- The translation invalidation unit (R369); `waits` names the accesses that DONE waits for, by run,
element, activation and LSID. -/
structure Tlbinv where
  va : Word
  n : Nat
  ctx : Nat
  done : Bool
  waits : List (Nat × Nat × Nat × Nat)
  deriving DecidableEq, Repr, Inhabited

/-- The device's own registers and persistent state (chapter 24); `firmware` is the image that runs, none for
the one the device is delivered with (R412, R413). -/
structure Life where
  hmReady : Bool
  inA4 : Bool
  pwrdevLtol : Nat
  mbStatus : Nat
  mbBusy : Bool
  mbCmd : Nat
  mbMgmt : Bool
  mbaddr : Word
  mbarg : Word
  fwmin : Nat
  fwver : Nat
  xmssidx : Nat
  devid : Nat
  imgkey : List Byte
  staged : Option (List Byte)
  firmware : Option (List Byte)
  throttle : Bool
  thermalCause : Bool
  drainmax : Nat
  testen : Bool
  testperiod : Nat
  deriving DecidableEq, Repr, Inhabited

end Sys2Proof.Machine
end

