-- ==== Sys2Proof/Config.lean ====
section
/-! DEFINITION. What the spec leaves open, as free values: constants with no body, of which nothing
can be proved but that they are the same for equal arguments (log entries 1, 9 to 13, 17, 28,
64, 69 and 81). -/

namespace Sys2Proof

open Sys2Proof.Machine

/-- A bit error in a storage array or on a link, as the device finds it, at any time and place (R30, R392 to
R394; log 81). -/
inductive Upset
  /-- a word of an SRAM of a die, corrected in its array -/
  | corrected (die : Nat)
  /-- a bridge or hawser link of a die sent again what a CRC found wrong -/
  | retried (die : Nat)
  /-- a block of a tile, of a quay cache or of LPDDR6, by a home address in it: uncorrectable -/
  | block (home : Nat)
  /-- the n-th waiting token of an element: uncorrectable -/
  | token (run elem n : Nat)
  /-- an entry of a store buffer, by its activation and LSID: uncorrectable -/
  | store (run elem act lsid : Nat)
  /-- a hold register: uncorrectable -/
  | hold (run elem k : Nat)
  /-- the word of a slot, read as another word: uncorrectable -/
  | config (run elem slot : Nat) (w : Word)
  /-- the header or the policy word of an element: uncorrectable -/
  | control (run elem : Nat)
  /-- a word of a strand's part of the configuration planes: uncorrectable -/
  | strand (run num : Nat)
  /-- the policy word of a seam: uncorrectable -/
  | seam (run key : Nat)
  /-- a flit whose PORT became 11, which neither ECC nor CRC reports -/
  | flit (n : Nat)
  deriving DecidableEq, Repr, Inhabited

/-- A step that is to come (the model's agenda, log 1): a row of the opcode table performed by its
agent, one unit of work of an engine command, one step of a sequence thread, the firing of a
parked or suspended instruction again, a bit error, or a read of a register of the harbourmaster by an
application core or the management interface. -/
inductive Happening
  | row (i : Instr)
  | engine (run cmd : Nat)
  | thread (job thread : Nat)
  | refire (f : Firing)
  | upset (u : Upset)
  | registerRead (addr : Nat)
  deriving DecidableEq, Repr, Inhabited

namespace Config

/-- The timing and the choices no rule fixes (R284): where the agenda is empty, the n-th free choice
of the next step and of the cycles that pass before it (log 1). -/
opaque schedule : Nat → Nat × Happening

/-- How far a die's copy of the cycle counter stands ahead, modulo 3, by the die and the number of copies
that it has taken: the copies agree within 2 cycles (R9, R155; log 69). -/
opaque skew : Nat → Nat → Nat

/-- The graphs that the bytes of a PLAN section describe; R336 gives what the section holds and no
byte layout (log 9). -/
opaque planOf : List Byte → Option (List PlanGraph)

/-- The bindings that the bytes of a PORTS section describe (R336, log 9). -/
opaque portsOf : List Byte → Option (List PortBinding)

/-- The blocks that the bytes of a DATA section describe (R336, log 9). -/
opaque dataOf : List Byte → Option (List DataBlk)

/-- The secret starts of the chains of the device's one-time keys, by index and chain (R413, log 10). -/
opaque otsSecret : Nat → Nat → List Byte

/-- The public seed of the device's key pair (R413, log 10). -/
opaque xmssSeed : List Byte

/-- The secret that the randomisers of the device's signatures come from (R413, log 10). -/
opaque xmssPrfKey : List Byte

/-- Yelfold's public key in the harbour die's read-only memory (R412, log 10). -/
opaque vendorKey : List Byte

/-- The firmware that the device is delivered with, which runs until another boots (R412, R413, log 10). -/
opaque deliveredFirmware : List Byte

/-- Version, rollback flag, signed part and signature of a firmware image (R412 names them and
gives no layout; log 10). -/
opaque firmwareOf : List Byte → Option (Nat × Bool × List Byte × List Byte)

/-- The bytes of the frozen image of a run after its MAGIC: R363 names its sections, bounds it and gives no
layout (log 11).  The arguments are the run, the blocks of its tiles, the requests that were withdrawn, the
purges whose replay is still to come and its requests of the colour pool. -/
opaque frozenImage : Run → List (Nat × List Byte × Side) → Tbl Req → Tbl Wave → List ColWait → List Byte

/-- The bytes of a context save record: R357 and R382 name its contents and give no layout (log 11). -/
opaque saveRecord : SavedCtx → List Byte

/-- What a save record that another device wrote, and the images it lists, hold (R357, R371, log 11):
its runs and requests are numbered from the given number on, and as many numbers are used as the
second component says. -/
opaque savedOf : Nat → List Byte → Option (SavedCtx × Nat)

/-- TRAPINFO of a trap whose rule gives it no content (R163: 'per raising rule'), by the trap's
sequence number (log 13). -/
opaque openTrapInfo : Nat → Word

/-- TRAPTOKENA and TRAPTOKENB of a trap that concerns no token (R161), by the trap's sequence number
(log 13). -/
opaque openTrapToken : Nat → Word

/-- A value that a rule makes without stating it, by a number no value before it had (log 17). -/
opaque openValue : Nat → Word

/-- Where the harbourmaster begins to look for the free colour it takes for a replay (R115, R397;
log 1). -/
opaque pickColour : Nat → Nat

/-- Where a lighter begins to look for the free handle it gives a copy (R195; log 1). -/
opaque pickHandle : Nat → Nat

/-- Whether a hawser route to a device runs over a link; routing between devices is the switches'
(R113, R405; log 12). -/
opaque linkRoutes : Nat → Nat → Bool

/-- The entry of a run of 32 that a walk goes by, modulo 33; 32 is the walk's own entry (R368, log 64). -/
opaque runEntry : Nat → Nat

end Config

end Sys2Proof
end

