-- ==== Sys2Proof/Machine/State.lean ====
section
/-! DEFINITION. The state of the device as plain data, the reasons to stop, and the state after
reset (INVENTORY.md lists every piece with its rule and reset value). -/

namespace Sys2Proof.Machine

/-- What the next step fetches for (log 1): nothing, a selected firing of a lace element, one unit
of work of an engine command, or one step of a sequence thread. -/
inductive Focus
  | idle
  | firing (f : Firing)
  | engine (run cmd : Nat)
  | thread (job thread : Nat)
  deriving DecidableEq, Repr, Inhabited

/-- The machine's one fault. -/
inductive Fault
  /-- Raised by an instruction word, an engine word or a sequencing word whose meaning is asked for
  in a state where no firing, engine command or thread is there to execute it.  `step` never asks
  for one in such a state.  Safe: the model stops where the spec says nothing. -/
  | noAgent
  deriving DecidableEq, Repr, Inhabited

/-- Why the machine refuses a row. -/
inductive Refusal
  /-- Raised by `exec` for a row that has no meaning yet.  Safe: nothing is claimed of it. -/
  | notModelled (mnemonic : String)
  deriving DecidableEq, Repr, Inhabited

/-- The device.  `hostRead` is the word that the last read of the harbourmaster's registers returned (R6).
Memory is a canonical list of bytes by home address (`Memory` in
Sys2Proof/Machine/Memory.lean says how homes are numbered and what an unlisted byte reads as). -/
structure State where
  cycle : Nat
  focus : Focus
  agenda : List (Nat × Happening)
  tick : Nat
  nextId : Nat
  mem : List Host.Cell
  side : Tbl Side
  runs : Tbl Run
  ctxs : Tbl Ctx
  reqs : Tbl Req
  walks : Tbl Walk
  tlb : List TlbEntry
  tlbinv : Tlbinv
  flits : Tbl Flit
  waves : Tbl Wave
  queues : Tbl Queue
  jobs : Tbl Job
  nextJob : Nat
  pendingStarts : List (Nat × Nat)
  cancelWaits : List CancelWait
  dies : Tbl DieSt
  owners : Tbl Owner
  packetsOut : List Packet
  quarantine : Tbl Nat
  links : Tbl LinkSt
  life : Life
  hostRead : Word
  deriving DecidableEq, Repr, Inhabited

/-- The registers of a context at their reset values (R161, R356). -/
def Ctx.reset : Ctx where
  ptroot := 0
  twbase := 0
  tilekey := 0
  spillbase := 0
  spillsize := 0
  savebase := 0
  savesize := 0
  flbase := 0
  flhead := 0
  fltail := 0
  flovf := 0
  fllog := 0
  reqnum := 0
  ctxbase0 := 0
  state := .free
  prior := .free
  command := 0
  cmdstatus := 0
  regs := ⟨0, 0, 0, 0, [0, 0, 0, 0, 0, 0, 0, 0], 0⟩
  colours := []
  waiting := []
  cams := []
  far := ⟨0, 0, 0, [], [], []⟩
  saved := none
  drainEnd := none

/-- A software queue at its reset values (R348). -/
def Queue.reset : Queue :=
  ⟨0, 0, 0, 0, 0, 0, 0, false, false, .anchor 0, [], none⟩

/-- A cluster at its reset values (R401, R402): normal, untested, its test due one period from
reset, not ready (R404). -/
def ClusterSt.reset : ClusterSt :=
  ⟨0, 0, 0, 0, .normal, 86400 * 1400000000, false, false, false, false⟩

/-- The numbers 0 to n - 1. -/
def upTo : Nat → List Nat
  | 0 => []
  | n + 1 => upTo n ++ [n]

/-- A die at its reset values (R352, R394, R402, R404, R406). -/
def DieSt.reset : DieSt :=
  ⟨500, 8, 2000, 0, 0, 0, 0, false, false, false, 0, 0, 0, 0, 0,
    (upTo 16).map fun c => (c, ClusterSt.reset), []⟩

/-- An owner of far requests at reset (R376, R384): its result cache is empty. -/
def Owner.reset : Owner := ⟨[], 0, 0, 0⟩

/-- The device's own registers at their reset values (R404 to R412, R382, R402). -/
def Life.reset : Life where
  hmReady := false
  inA4 := false
  pwrdevLtol := 0
  mbStatus := 0
  mbBusy := false
  mbCmd := 0
  mbMgmt := false
  mbaddr := 0
  mbarg := 0
  fwmin := 0
  fwver := 0
  xmssidx := 0
  devid := 0xFF
  imgkey := List.replicate 64 0
  staged := none
  firmware := none
  throttle := false
  thermalCause := false
  drainmax := 100
  testen := true
  testperiod := 86400

/-- The device right after reset: every register at the value the spec states, or at the value a
log entry names (logs 1, 3 to 8). -/
def State.reset : State where
  cycle := 0
  focus := .idle
  agenda := []
  tick := 0
  nextId := 1
  mem := []
  side := []
  runs := []
  ctxs := (upTo 64).map fun c => (c, Ctx.reset)
  reqs := []
  walks := []
  tlb := []
  tlbinv := ⟨0, 0, 0, true, []⟩
  flits := []
  waves := []
  queues := []
  jobs := []
  nextJob := 1
  pendingStarts := []
  cancelWaits := []
  dies := (upTo 24).map fun d => (d, DieSt.reset)
  owners := []
  packetsOut := []
  quarantine := []
  links := (upTo 16).map fun n => (n, ⟨0, 0, 0, false⟩)
  life := Life.reset
  hostRead := 0

end Sys2Proof.Machine
end

