-- ==== Sys2Proof/Machine/Bits.lean ====
section
/-! DEFINITION. Bit fields, sign extension, byte order and the small number helpers of the machine
(R7, R124), and the flag bits of R52. -/

namespace Sys2Proof.Machine

/-- A number as a word, modulo 2^64. -/
def word (n : Nat) : Word := BitVec.ofNat 64 n

/-- An integer as a word, modulo 2^64. -/
def wordI (n : Int) : Word := BitVec.ofInt 64 n

/-- Bits [lo + n - 1 : lo] of a word, as a number. -/
def bits (w : Word) (lo n : Nat) : Nat := (w.toNat >>> lo) % 2 ^ n

/-- Bits [lo + n - 1 : lo] of a number. -/
def nbits (w lo n : Nat) : Nat := (w >>> lo) % 2 ^ n

/-- One bit of a number. -/
def nbit (w k : Nat) : Bool := w.testBit k

/-- The signed value of the low `n` bits of a number. -/
def sextInt (n : Nat) (x : Nat) : Int :=
  let y := x % 2 ^ n
  if 2 * y ≥ 2 ^ n then (y : Int) - (2 : Int) ^ n else (y : Int)

/-- The low `n` bits of a number, sign-extended to a word (R124). -/
def sextWord (n : Nat) (x : Nat) : Word := wordI (sextInt n x)

/-- The low `n` bits of an integer. -/
def lowBits (n : Nat) (x : Int) : Nat := (x % ((2 : Int) ^ n)).toNat

/-- Clamp an integer between two limits. -/
def clampInt (x lo hi : Int) : Int := if x < lo then lo else if x > hi then hi else x

/-- The bytes of a number, least significant first (R7). -/
def toBytes : Nat → Nat → List Byte
  | 0, _ => []
  | n + 1, x => BitVec.ofNat 8 x :: toBytes n (x / 256)

/-- The number that bytes, least significant first, stand for (R7). -/
def ofBytes : List Byte → Nat
  | [] => 0
  | b :: bs => b.toNat + 256 * ofBytes bs

/-- Bit `k` of a mask set. -/
def setBit (m k : Nat) : Nat := m ||| (1 <<< k)

/-- Cut a list into pieces of `n` entries, at most `fuel` of them. -/
def chunks {α : Type} (n : Nat) : Nat → List α → List (List α)
  | 0, _ => []
  | fuel + 1, xs => if xs.isEmpty then [] else xs.take n :: chunks n fuel (xs.drop n)

/-- A list cut or filled to `n` entries. -/
def fillTo {α : Type} (n : Nat) (x : α) (xs : List α) : List α :=
  xs.take n ++ List.replicate (n - xs.length) x

/-! ## The sticky flags, R52 -/

def NX : Nat := 1
def UF : Nat := 2
def OF : Nat := 4
def NV : Nat := 8
def DZ : Nat := 16
def SAT : Nat := 32

end Sys2Proof.Machine
end

