-- ==== Sys2Proof/Machine/Float.lean ====
section
/-! DEFINITION. Floating-point values and their rounding (R36 to R41, R51, R52): a format is its
field widths, a value is exact, and each result is rounded once. -/

namespace Sys2Proof.Machine

/-- A floating-point format (R36): exponent and mantissa bits, bias, and whether the top exponent
holds infinities and NaNs. -/
structure FSpec where
  ebits : Nat
  mbits : Nat
  bias : Nat
  ieee : Bool
  deriving DecidableEq, Repr, Inhabited

def fp64 : FSpec := ⟨11, 52, 1023, true⟩
def fp32 : FSpec := ⟨8, 23, 127, true⟩
def fp16 : FSpec := ⟨5, 10, 15, true⟩
def bf16 : FSpec := ⟨8, 7, 127, true⟩
def e5m2 : FSpec := ⟨5, 2, 15, true⟩
def e4m3 : FSpec := ⟨4, 3, 7, false⟩
def e2m1 : FSpec := ⟨2, 1, 1, false⟩

/-- The format SZ names (R63). -/
def fspec : FloatFmt → FSpec
  | .d => fp64
  | .s => fp32
  | .h => fp16
  | .bf => bf16

def FSpec.width (f : FSpec) : Nat := 1 + f.ebits + f.mbits

/-- An exact value: a NaN, an infinity, or ±m × 2^e. -/
inductive FVal
  | nan (signalling : Bool)
  | inf (neg : Bool)
  | fin (neg : Bool) (m : Nat) (e : Int)
  deriving DecidableEq, Repr, Inhabited

/-- The canonical NaN of a format (R37). -/
def canonNaN (f : FSpec) : Nat :=
  if f.ieee then ((2 ^ f.ebits - 1) <<< f.mbits) + 2 ^ (f.mbits - 1)
  else 2 ^ (f.width - 1) - 1

def signBit (f : FSpec) (neg : Bool) : Nat := if neg then 2 ^ (f.width - 1) else 0

/-- The infinity of a format. -/
def infBits (f : FSpec) (neg : Bool) : Nat :=
  signBit f neg + ((2 ^ f.ebits - 1) <<< f.mbits)

/-- The largest finite value of a format. -/
def maxBits (f : FSpec) (neg : Bool) : Nat :=
  signBit f neg + (if f.ieee then ((2 ^ f.ebits - 1) <<< f.mbits) - 1
    else if f.ebits = 4 then 2 ^ (f.width - 1) - 2 else 2 ^ (f.width - 1) - 1)

/-- The value of an element's bits (R36, R38, R39). -/
def decodeF (f : FSpec) (x : Nat) : FVal :=
  let m := x % 2 ^ f.mbits
  let e := nbits x f.mbits f.ebits
  let neg := nbit x (f.width - 1)
  if f.ieee && e = 2 ^ f.ebits - 1 then
    if m = 0 then .inf neg else .nan (!nbit m (f.mbits - 1))
  else if !f.ieee && f.ebits = 4 && e = 15 && m = 7 then .nan false
  else if e = 0 then
    .fin neg m (1 - (f.bias : Int) - f.mbits)
  else .fin neg (m + 2 ^ f.mbits) ((e : Int) - f.bias - f.mbits)

/-- Round m × 2^(-shift) to an integer in a mode, for the sign given. -/
def roundShift (mode : RMode) (neg : Bool) (m shift : Nat) : Nat :=
  let q := m >>> shift
  let r := m % 2 ^ shift
  if r = 0 then q
  else match mode with
    | .rne => if 2 * r > 2 ^ shift || (2 * r = 2 ^ shift && q % 2 = 1) then q + 1 else q
    | .rtz => q
    | .rdn => if neg then q + 1 else q
    | .rup => if neg then q else q + 1

/-- m × 2^e rounded to a multiple of 2^q in a mode: the multiple, and whether bits were lost. -/
def roundAt (mode : RMode) (neg : Bool) (m : Nat) (e q : Int) : Nat × Bool :=
  if q ≤ e then (m <<< (e - q).toNat, false)
  else
    let sh := (q - e).toNat
    (roundShift mode neg m sh, m % 2 ^ sh != 0)

/-- The smallest normal exponent of a format. -/
def FSpec.emin (f : FSpec) : Int := 1 - (f.bias : Int)

/-- The exponent of a positive m × 2^e. -/
def expOf (m : Nat) (e : Int) : Int := (Nat.log2 m : Int) + e

/-- The bits of mant × 2^q, where q is the quantum at which mant was rounded. -/
def packBits (f : FSpec) (neg : Bool) (mant : Nat) (q : Int) : Nat :=
  if mant = 0 then signBit f neg
  else
    -- a carry out of the rounding doubles the quantum
    let mant' := if mant ≥ 2 ^ (f.mbits + 1) then mant / 2 else mant
    let q' := if mant ≥ 2 ^ (f.mbits + 1) then q + 1 else q
    if mant' < 2 ^ f.mbits then signBit f neg + mant'
    else signBit f neg + ((q' + f.mbits + f.bias).toNat <<< f.mbits) + (mant' - 2 ^ f.mbits)

/-- Whether a positive m × 2^e, rounded to the format's precision with an unbounded exponent, lies
below the smallest normal (R52). -/
def isTiny (f : FSpec) (mode : RMode) (neg : Bool) (m : Nat) (e : Int) : Bool :=
  let q := expOf m e - f.mbits
  let (t, _) := roundAt mode neg m e q
  t ≠ 0 && expOf t q < f.emin

/-- The IEEE 754 overflow result of a mode (R41, R138). -/
def overflowBits (f : FSpec) (mode : RMode) (neg : Bool) : Nat :=
  match mode with
  | .rne => infBits f neg
  | .rtz => maxBits f neg
  | .rdn => if neg then infBits f neg else maxBits f neg
  | .rup => if neg then maxBits f neg else infBits f neg

/-- ±m × 2^e rounded once into a format that has infinities, with its flags (R52, R138). -/
def roundF (f : FSpec) (mode : RMode) (neg : Bool) (m : Nat) (e : Int) : Nat × Nat :=
  if m = 0 then (signBit f neg, 0)
  else
    let q := max (expOf m e - f.mbits) (f.emin - f.mbits)
    let (mant, lost) := roundAt mode neg m e q
    if mant ≠ 0 && expOf mant q > f.bias then (overflowBits f mode neg, OF ||| NX)
    else
      (packBits f neg mant q,
        (if lost then NX else 0) ||| (if lost && isTiny f mode neg m e then UF else 0))

/-- The canonical NaN with its flags. -/
def nanF (f : FSpec) (fl : Nat) : Nat × Nat := (canonNaN f, fl)

/-- An exact value rounded into an IEEE format (R138, R141). -/
def encodeF (f : FSpec) (mode : RMode) : FVal → Nat × Nat
  | .nan s => nanF f (if s then NV else 0)
  | .inf neg => (infBits f neg, 0)
  | .fin neg m e => roundF f mode neg m e

/-- NV for a signalling NaN. -/
def sigFlag : FVal → Nat
  | .nan true => NV
  | _ => 0

def FVal.isNaN : FVal → Bool
  | .nan _ => true
  | _ => false

def FVal.isInf : FVal → Bool
  | .inf _ => true
  | _ => false

def FVal.neg : FVal → Bool
  | .nan _ => false
  | .inf n => n
  | .fin n _ _ => n

def FVal.isZero : FVal → Bool
  | .fin _ 0 _ => true
  | _ => false

/-- The value with its sign turned. -/
def FVal.negate : FVal → FVal
  | .nan s => .nan s
  | .inf n => .inf (!n)
  | .fin n m e => .fin (!n) m e

/-- ±m as an integer. -/
def signed (neg : Bool) (m : Nat) : Int := if neg then -(m : Int) else (m : Int)

/-- The exact sum of two finite values, with the sign of an exact zero as R138 gives it. -/
def addExact (mode : RMode) (n1 : Bool) (m1 : Nat) (e1 : Int) (n2 : Bool) (m2 : Nat) (e2 : Int) :
    FVal :=
  let e := min e1 e2
  let s := signed n1 m1 * (2 : Int) ^ (e1 - e).toNat + signed n2 m2 * (2 : Int) ^ (e2 - e).toNat
  if s = 0 then .fin (if n1 = n2 then n1 else mode == .rdn) 0 0
  else .fin (decide (s < 0)) s.natAbs e

/-- Whether any of three values is a signalling NaN. -/
def anySig (xs : List FVal) : Nat := if xs.any (fun v => sigFlag v != 0) then NV else 0

/-- FADD of exact values (R138). -/
def fAdd (f : FSpec) (mode : RMode) (a b : FVal) : Nat × Nat :=
  match a, b with
  | .nan _, _ | _, .nan _ => nanF f (anySig [a, b])
  | .inf n, .inf m => if n = m then (infBits f n, 0) else nanF f NV
  | .inf n, _ => (infBits f n, 0)
  | _, .inf n => (infBits f n, 0)
  | .fin n1 m1 e1, .fin n2 m2 e2 => encodeF f mode (addExact mode n1 m1 e1 n2 m2 e2)

/-- FSUB (R138). -/
def fSub (f : FSpec) (mode : RMode) (a b : FVal) : Nat × Nat := fAdd f mode a b.negate

/-- FMUL (R138). -/
def fMul (f : FSpec) (mode : RMode) (a b : FVal) : Nat × Nat :=
  match a, b with
  | .nan _, _ | _, .nan _ => nanF f (anySig [a, b])
  | .inf n, .inf m => (infBits f (n != m), 0)
  | .inf n, .fin m k _ | .fin m k _, .inf n => if k = 0 then nanF f NV else (infBits f (n != m), 0)
  | .fin n1 m1 e1, .fin n2 m2 e2 => roundF f mode (n1 != n2) (m1 * m2) (e1 + e2)

/-- FMA: a × b + c, rounded once (R138). -/
def fFma (f : FSpec) (mode : RMode) (a b c : FVal) : Nat × Nat :=
  let invalid := (a.isInf && b.isZero) || (a.isZero && b.isInf)
  if a.isNaN || b.isNaN then nanF f (anySig [a, b, c])
  else if invalid then nanF f NV
  else if c.isNaN then nanF f (anySig [c])
  else
    match a, b, c with
    | .fin n1 m1 e1, .fin n2 m2 e2, .fin n3 m3 e3 =>
      encodeF f mode (addExact mode (n1 != n2) (m1 * m2) (e1 + e2) n3 m3 e3)
    | .fin .., .fin .., c => (infBits f c.neg, 0)
    | a, b, .inf n => if (a.neg != b.neg) = n then (infBits f n, 0) else nanF f NV
    | a, b, _ => (infBits f (a.neg != b.neg), 0)

/-- Fold lost bits into the lowest place: an exact value just above m and below m + 1. -/
def jam (m : Nat) (lost : Bool) : Nat := 2 * m + (if lost then 1 else 0)

/-- The quotient m1 × 2^e1 ÷ (m2 × 2^e2) with `p` good bits and the lost rest folded in. -/
def divExact (p m1 : Nat) (e1 : Int) (m2 : Nat) (e2 : Int) : Nat × Int :=
  let k := p + Nat.log2 m2 + 2
  let q := (m1 <<< k) / m2
  let r := (m1 <<< k) % m2
  (jam q (r != 0), e1 - e2 - k - 1)

/-- FDIV (R138). -/
def fDiv (f : FSpec) (mode : RMode) (a b : FVal) : Nat × Nat :=
  match a, b with
  | .nan _, _ | _, .nan _ => nanF f (anySig [a, b])
  | .inf _, .inf _ => nanF f NV
  | .inf n, .fin m _ _ => (infBits f (n != m), 0)
  | .fin n _ _, .inf m => (signBit f (n != m), 0)
  | .fin n1 m1 e1, .fin n2 m2 e2 =>
    if m2 = 0 then
      if m1 = 0 then nanF f NV else (infBits f (n1 != n2), DZ)
    else if m1 = 0 then (signBit f (n1 != n2), 0)
    else
      let (m, e) := divExact (f.mbits + 4) m1 e1 m2 e2
      roundF f mode (n1 != n2) m e

/-- The integer square root by bisection on bits: `fuel` bits, from the highest. -/
def isqrtAux : Nat → Nat → Nat → Nat
  | 0, _, r => r
  | k + 1, n, r =>
    let t := r + 2 ^ k
    if t * t ≤ n then isqrtAux k n t else isqrtAux k n r

/-- The largest r with r² ≤ n. -/
def isqrt (n : Nat) : Nat := isqrtAux (Nat.log2 n / 2 + 1) n 0

/-- The square root of m × 2^e with `p` good bits and the lost rest folded in. -/
def sqrtExact (p m : Nat) (e : Int) : Nat × Int :=
  let k := 2 * p + (if (e % 2) = 0 then 0 else 1)
  let n := m <<< k
  let r := isqrt n
  (jam r (r * r != n), (e - k) / 2 - 1)

/-- FSQRT (R138). -/
def fSqrt (f : FSpec) (mode : RMode) (a : FVal) : Nat × Nat :=
  match a with
  | .nan _ => nanF f (anySig [a])
  | .inf n => if n then nanF f NV else (infBits f false, 0)
  | .fin n m e =>
    if m = 0 then (signBit f n, 0)
    else if n then nanF f NV
    else
      let (r, e') := sqrtExact (f.mbits + 4) m e
      roundF f mode false r e'

/-- Compare two values that are no NaNs. -/
def cmpF (a b : FVal) : Ordering :=
  match a, b with
  | .inf n, .inf m => if n = m then .eq else if n then .lt else .gt
  | .inf n, _ => if n then .lt else .gt
  | _, .inf n => if n then .gt else .lt
  | .fin n1 m1 e1, .fin n2 m2 e2 =>
    let e := min e1 e2
    compare (signed n1 m1 * (2 : Int) ^ (e1 - e).toNat) (signed n2 m2 * (2 : Int) ^ (e2 - e).toNat)
  | _, _ => .eq

/-- FMIN and FMAX on bits: −0 counts as less than +0 (R139). -/
def fMinMax (f : FSpec) (isMax : Bool) (x y : Nat) : Nat × Nat :=
  let a := decodeF f x
  let b := decodeF f y
  let fl := anySig [a, b]
  if a.isNaN && b.isNaN then nanF f fl
  else if a.isNaN then (y % 2 ^ f.width, fl)
  else if b.isNaN then (x % 2 ^ f.width, fl)
  else
    let less := match cmpF a b with
      | .lt => true
      | .gt => false
      | .eq => a.neg && !b.neg
    ((if less != isMax then x else y) % 2 ^ f.width, fl)

/-- The condition of FCMP, and its flags (R140). -/
def fCmp (cc : Cond) (a b : FVal) : Bool × Nat :=
  let un := a.isNaN || b.isNaN
  let quiet := cc == .eq || cc == .ne
  let fl := if un && !quiet then NV else anySig [a, b]
  if un then (cc == .ne, fl)
  else
    let o := cmpF a b
    (match cc with
      | .eq => o == .eq
      | .ne => o != .eq
      | .lt => o == .lt
      | .le => o != .gt
      | .gt => o == .gt
      | .ge => o != .lt
      | .ltu => o == .lt
      | .leu => o != .gt, fl)

/-- An exact value rounded to an integer, with whether bits were lost. -/
def roundInt (mode : RMode) (neg : Bool) (m : Nat) (e : Int) : Int × Bool :=
  let (r, lost) := roundAt mode neg m e 0
  (signed neg r, lost)

/-- rne of an exact value to an integer (R56, R58). -/
def rneInt (x : Int) (e : Int) : Int × Bool :=
  let (r, lost) := roundAt .rne (decide (x < 0)) x.natAbs e 0
  (signed (decide (x < 0)) r, lost)

/-! ## Conversion into the narrow formats, R41 -/

/-- The format ids of R43 that are floating-point formats. -/
def fmtSpec (id : Nat) : Option FSpec :=
  match id with
  | 0x08 => some fp64
  | 0x09 => some fp32
  | 0x0A => some fp16
  | 0x0B => some bf16
  | 0x0C => some e4m3
  | 0x0D => some e5m2
  | 0x0E => some e5m2
  | 0x0F => some e2m1
  | _ => none

/-- narrow() into E4M3 (R41). -/
def narrowE4M3 (mode : RMode) (nanov : Bool) (x : FVal) : Nat × Nat :=
  let beyond (neg : Bool) : Nat × Nat :=
    if nanov then (canonNaN e4m3, NV) else (maxBits e4m3 neg, SAT)
  match x with
  | .nan s => (canonNaN e4m3, if s then NV else 0)
  | .inf neg => beyond neg
  | .fin neg m e =>
    if m = 0 then (signBit e4m3 neg, 0)
    else
      let q := max (expOf m e - 3) (e4m3.emin - 3)
      let (t, _) := roundAt mode neg m e (expOf m e - 3)
      -- |t| > 448 = 7 × 2^6, decided with an unbounded exponent
      if cmpF (.fin false t (expOf m e - 3)) (.fin false 7 6) == .gt then beyond neg
      else
        let (mant, lost) := roundAt mode neg m e q
        (packBits e4m3 neg mant q,
          (if lost then NX else 0) ||| (if lost && isTiny e4m3 mode neg m e then UF else 0))

/-- narrow() into E2M1: RNE on the codes of R39; a zero keeps its sign (log 15). -/
def narrowE2M1 (x : FVal) : Nat × Nat :=
  match x with
  | .nan _ => (0, NV)
  | .inf neg => (signBit e2m1 neg + 7, SAT ||| NX)
  | .fin neg m e =>
    if cmpF (.fin false m e) (.fin false 6 0) == .gt then (signBit e2m1 neg + 7, SAT ||| NX)
    else if m = 0 then (signBit e2m1 neg, 0)
    else
      let q := max (expOf m e - 1) (-1)
      let (mant, lost) := roundAt .rne neg m e q
      (packBits e2m1 neg mant q, if lost then NX else 0)

/-- Round to a signed integer format of `w` bits and clamp with SAT (R41, R176, R184). -/
def narrowInt (w : Nat) (mode : RMode) (x : FVal) : Int × Nat :=
  let hi : Int := (2 : Int) ^ (w - 1) - 1
  let lo : Int := -((2 : Int) ^ (w - 1))
  match x with
  | .nan _ => (0, NV)
  | .inf neg => (if neg then lo else hi, SAT)
  | .fin neg m e =>
    let (y, lost) := roundInt mode neg m e
    if y > hi then (hi, SAT)
    else if y < lo then (lo, SAT)
    else (y, if lost then NX else 0)

/-- Convert an exact value into the element format of an id (R41, R141): its bits and flags. -/
def convertTo (id : Nat) (mode : RMode) (nanov : Bool) (x : FVal) : Nat × Nat :=
  match id with
  | 0x01 => let (y, fl) := narrowInt 8 mode x; (lowBits 8 y, fl)
  | 0x02 => let (y, fl) := narrowInt 16 mode x; (lowBits 16 y, fl)
  | 0x03 => let (y, fl) := narrowInt 32 mode x; (lowBits 32 y, fl)
  | 0x08 => encodeF fp64 mode x
  | 0x09 => encodeF fp32 mode x
  | 0x0A => encodeF fp16 mode x
  | 0x0B => encodeF bf16 mode x
  | 0x0C => narrowE4M3 mode nanov x
  | 0x0D | 0x0E => encodeF e5m2 mode x
  | 0x0F => narrowE2M1 x
  | _ => (0, 0)

end Sys2Proof.Machine
end

