-- ==== Sys2Proof/Machine/Residue.lean ====
section
/-! DEFINITION. Block element formats as exact values and windowed integers (R43, R46, R56), and
residue accumulation (R54 to R61). -/

namespace Sys2Proof.Machine

/-! ## Elements of a block -/

/-- Bits of one element of a format (R43); 0 where the format has no elements. -/
def fmtBits (id : Nat) : Nat :=
  match id with
  | 0x01 | 0x05 | 0x0C | 0x0D | 0x0E => 8
  | 0x02 | 0x06 | 0x0A | 0x0B => 16
  | 0x03 | 0x07 | 0x09 => 32
  | 0x04 | 0x08 => 64
  | 0x0F => 4
  | _ => 0

/-- The formats whose SCALE byte is an E8M0 multiplier written by software (R43, R46). -/
def isScaled (id : Nat) : Bool := id = 0x01 || id = 0x0C || id = 0x0E || id = 0x0F

/-- The formats whose SCALE byte is an exponent ceiling the home computes (R43, R47). -/
def isSelfScaled (id : Nat) : Bool :=
  id = 0x08 || id = 0x09 || id = 0x0A || id = 0x0B || id = 0x0D

/-- The reserved format ids (R43). -/
def isReservedFmt (id : Nat) : Bool := id ≥ 0x13

/-- The elements of a block as bit patterns, in order (R36, R43). -/
def blockElems (fmt : Nat) (data : List Byte) : List Nat :=
  match fmtBits fmt with
  | 0 => []
  | 4 => data.flatMap fun b => [b.toNat % 16, b.toNat / 16]
  | 8 => data.map BitVec.toNat
  | w => (chunks (w / 8) 64 data).map ofBytes

/-- The 64 bytes of a block from element patterns. -/
def blockOf (fmt : Nat) (xs : List Nat) : List Byte :=
  match fmtBits fmt with
  | 0 => List.replicate 64 0
  | 4 => fillTo 64 0 ((chunks 2 128 xs).map fun c =>
      BitVec.ofNat 8 ((c.headD 0) % 16 + 16 * ((c.drop 1).headD 0 % 16)))
  | w => fillTo 64 0 (xs.flatMap (toBytes (w / 8)))

/-- A signed integer as an exact value. -/
def intVal (x : Int) : FVal := .fin (decide (x < 0)) x.natAbs 0

/-- The exact value of an element pattern, before any scale (R36 to R40). -/
def elemVal (fmt : Nat) (x : Nat) : FVal :=
  match fmt with
  | 0x01 => intVal (sextInt 8 x)
  | 0x02 => intVal (sextInt 16 x)
  | 0x03 => intVal (sextInt 32 x)
  | 0x04 => intVal (sextInt 64 x)
  | 0x05 | 0x06 | 0x07 => intVal x
  | _ => match fmtSpec fmt with
    | some f => decodeF f x
    | none => .nan false

/-- A value times 2^k. -/
def FVal.scale (v : FVal) (k : Int) : FVal :=
  match v with
  | .fin n m e => .fin n m (e + k)
  | v => v

/-- The values of a block's elements with its scale (R46): a scale of 255 on a scaled format makes
every element a NaN. -/
def blockVals (fmt scale : Nat) (data : List Byte) : List FVal :=
  (blockElems fmt data).map fun x =>
    if isScaled fmt then
      if scale = 255 then .nan false else (elemVal fmt x).scale ((scale : Int) - 127)
    else elemVal fmt x

/-- floor(log2 |x|) of a finite non-zero value. -/
def FVal.log2 : FVal → Option Int
  | .fin _ m e => if m = 0 then none else some (expOf m e)
  | _ => none

/-- The largest floor(log2 |x|) of the finite non-zero values of a list. -/
def maxLog2 : List FVal → Option Int
  | [] => none
  | v :: vs =>
    match v.log2, maxLog2 vs with
    | some a, some b => some (max a b)
    | some a, none => some a
    | none, r => r

/-- The exponent ceiling of a self-scaled block (R47). -/
def ceilingOf (fmt : Nat) (data : List Byte) : Nat :=
  let vs := (blockElems fmt data).map (elemVal fmt)
  if vs.any fun v => v.isNaN || v.isInf then 255
  else match maxLog2 vs with
    | none => 0
    | some e => (clampInt (e + 127) 1 254).toNat

/-! ## Windows, R56 -/

/-- The window width of a format (R56). -/
def windowWidth (fmt : Nat) : Nat :=
  match fmt with
  | 0x0F => 5
  | 0x0C => 19
  | 0x01 => 9
  | 0x0A | 0x0B => 24
  | 0x0D => 20
  | 0x0E => 33
  | 0x09 => 26
  | 0x08 => 57
  | _ => 0

/-- The exponent of a block's windowed integers, before any scale (R56). -/
def windowExp (fmt : Nat) (emax : Int) : Int :=
  match fmt with
  | 0x0F => -1
  | 0x0C => -9
  | 0x01 => 0
  | 0x0A | 0x0B => emax - 22
  | 0x0D => emax - 18
  | 0x0E => -16
  | 0x09 => emax - 24
  | 0x08 => emax - 55
  | _ => 0

/-- emax of a block (R56): from the ceiling, and for FP64 from its elements. -/
def blockEmax (fmt scale : Nat) (data : List Byte) : Int :=
  if fmt = 0x08 then (maxLog2 ((blockElems fmt data).map (elemVal fmt))).getD 0
  else (scale : Int) - 127

/-- One element as a windowed integer for an exponent, and whether bits were lost (R56). -/
def windowElem (fmt : Nat) (e : Int) (x : Nat) : Int × Bool :=
  match elemVal fmt x with
  | .fin n m ex =>
    let (r, lost) := roundAt .rne n m ex e
    (signed n r, lost)
  | _ => (0, false)

/-- A block as an operand of a step: windowed integers, their exponent, the scale term of R58,
whether it is all zero, whether it is non-finite, and whether a window lost bits. -/
structure Operand where
  ints : List Int
  exp : Int
  scaleTerm : Int
  zero : Bool
  nonFinite : Bool
  lost : Bool
  deriving DecidableEq, Repr, Inhabited

/-- The windowed operand of a block (R56, R58, R61); a block with ceiling 0 windows to all zeros. -/
def operandOf (fmt scale : Nat) (data : List Byte) : Operand :=
  let nonFin := scale = 255 ||
    (blockElems fmt data).any fun x => (elemVal fmt x).isNaN || (elemVal fmt x).isInf
  let e := windowExp fmt (blockEmax fmt scale data)
  let ws := (blockElems fmt data).map fun x =>
    if isSelfScaled fmt && scale = 0 then (0, false) else windowElem fmt e x
  { ints := ws.map Prod.fst
    exp := e
    scaleTerm := if isScaled fmt then (scale : Int) - 127 else 0
    zero := ws.all fun p => p.1 = 0
    nonFinite := nonFin
    lost := ws.any Prod.snd }

/-- Σ a(k) × b(k), exactly (R58). -/
def dot : List Int → List Int → Int
  | a :: as, b :: bs => a * b + dot as bs
  | _, _ => 0

/-- The three 19-bit slices of an FP64 integer, lowest first (R57). -/
def slices (a : Int) : List Int :=
  [a % 2 ^ 19, (a / 2 ^ 19) % 2 ^ 19, a / 2 ^ 38]

/-- a × b formed as the nine slice-pair products (R57). -/
def sliceProduct (a b : Int) : Int :=
  match slices a, slices b with
  | [a0, a1, a2], [b0, b1, b2] =>
    a0 * b0 + (a0 * b1 + a1 * b0) * 2 ^ 19 + (a0 * b2 + a1 * b1 + a2 * b0) * 2 ^ 38 +
      (a1 * b2 + a2 * b1) * 2 ^ 57 + a2 * b2 * 2 ^ 76
  | _, _ => 0

/-- Σ of the slice-pair products of two blocks (R57, R58). -/
def sliceDot : List Int → List Int → Int
  | a :: as, b :: bs => sliceProduct a b + sliceDot as bs
  | _, _ => 0

/-! ## Residue accumulators, R54 -/

def mA : Nat := 524287
def mB : Nat := 524288
def mC : Nat := 524289
/-- 2^38 − 1 = 524287 × 524289. -/
def mAC : Nat := 274877906943
/-- M = 2^57 − 2^19. -/
def mAll : Nat := 144115188075331584

def Cell.zero : Cell := ⟨0, 0, 0, false⟩

/-- Add an integer to an accumulator (R54). -/
def Cell.add (c : Cell) (t : Int) : Cell :=
  { c with
    a := (((c.a : Int) + t) % (mA : Int)).toNat
    b := (((c.b : Int) + t) % (mB : Int)).toNat
    c := (((c.c : Int) + t) % (mC : Int)).toNat }

/-- V, the unique integer of [−M/2, M/2) with an accumulator's residues (R54). -/
def residueValue (ra rb rc : Nat) : Int :=
  let q := (((rc : Int) - ra) * 262144 % 524289).toNat
  let x := ra + 524287 * q
  let q2 := (((x : Int) - rb) % 524288).toNat
  let v0 := x + mAC * q2
  if v0 ≥ 2 ^ 56 - 2 ^ 18 then (v0 : Int) - mAll else v0

def Cell.value (c : Cell) : Int := residueValue c.a c.b c.c

/-- V lies outside [−2^55, 2^55) (R54). -/
def outOfRange (v : Int) : Bool := v < -(2 : Int) ^ 55 || v ≥ (2 : Int) ^ 55

/-- A step partial aligned to an accumulator's exponent (R58), with NX where bits are lost. -/
def alignTo (p e eacc : Int) : Int × Nat :=
  let (r, lost) := rneInt p (e - eacc)
  (r, if lost then NX else 0)

/-! ## The conversion out, R60 -/

/-- The overflow of a destination with the sign of V: what an out-of-range sum converts to (R54). -/
def overflowTo (id : Nat) (mode : RMode) (nanov : Bool) (neg : Bool) : Nat × Nat :=
  match id with
  | 0x08 => (overflowBits fp64 mode neg, OF ||| NX)
  | 0x09 => (overflowBits fp32 mode neg, OF ||| NX)
  | 0x0A => (overflowBits fp16 mode neg, OF ||| NX)
  | 0x0B => (overflowBits bf16 mode neg, OF ||| NX)
  | 0x0D | 0x0E => (overflowBits e5m2 mode neg, OF ||| NX)
  | _ => let (b, fl) := convertTo id mode nanov (.inf neg); (b, fl ||| OF)

/-- T = rne_fp32(A × B) and its flags (R60). -/
def tensorScale (a b : Nat) : FVal × Nat :=
  let (t, fl) := fMul fp32 .rne (decodeF fp32 a) (decodeF fp32 b)
  (decodeF fp32 t, fl)

/-- The product V × 2^Eacc × T as an exact value, with NV where T makes it a NaN (R60).  The sign of
a zero product with V = 0 and T finite, negative and not zero is a DESIGN CHOICE (log 73): it is minus. -/
def scaledSum (v eacc : Int) (t : FVal) : FVal × Nat :=
  match t with
  | .nan _ => (.nan false, NV)
  | .inf n => if v = 0 then (.nan false, NV) else (.inf (decide (v < 0) != n), 0)
  | .fin n m e =>
    if m = 0 then (.fin (decide (v < 0) != n) 0 0, 0)
    else (.fin (decide (v < 0) != n) (v.natAbs * m) (e + eacc), 0)

/-! ## Exact-accumulate words, R50 and R154 -/

/-- The residues and the offset of a word of a RESIDUE block (R50). -/
def unpackResidue (w : Nat) : Cell × Int :=
  let x := if w % 2 ^ 38 = mAC then 0 else w % 2 ^ 38
  (⟨x % mA, nbits w 38 19, x % mC, false⟩, sextInt 7 (nbits w 57 7))

/-- V mod (2^38 − 1) from its two residues. -/
def joinAC (ra rc : Nat) : Nat :=
  ra + 524287 * ((((rc : Int) - ra) * 262144 % 524289).toNat)

/-- A word of a RESIDUE block (R50). -/
def packResidue (c : Cell) (o : Int) : Nat :=
  (lowBits 7 o <<< 57) + (c.b <<< 38) + joinAC c.a c.c

end Sys2Proof.Machine
end

