-- ==== Sys2Proof/Machine/Memory.lean ====
section
/-! DEFINITION. Device memory as bytes at home addresses, the side band of each block, and the
completed write of a home (R7, R42, R45, R47, R275, R393). -/

namespace Sys2Proof.Machine

/-! ## Home addresses

A byte of HBM has its physical address (R366) as home address.  A byte of application-core memory
has 2^48 plus its physical address.  A byte of a memory tile has 2^64 plus the number of its tile
times 2^19 plus its offset: a tile's contents belong to the launch (R42, R272), so tiles are numbered
by run, part, cluster of the part and ring position, wherever the part stands. -/

def appHome (pa : Nat) : Nat := 2 ^ 48 + pa

def tileHome (run part clu ring off : Nat) : Nat :=
  2 ^ 64 + (((run * 64 + part) * 16 + clu) * 8 + ring) * 2 ^ 19 + off

def isTileHome (a : Nat) : Bool := a ≥ 2 ^ 64

def isAppHome (a : Nat) : Bool := 2 ^ 48 ≤ a && a < 2 ^ 64

/-- The die whose stack holds an HBM home address (R366). -/
def homeDie (a : Nat) : Nat := a / 2 ^ 36

/-- The quay of an HBM home address: die × 16 + pa[15:12] (R275). -/
def homeQuay (a : Nat) : Nat := homeDie a * 16 + nbits a 12 4

/-- The parts of a tile's home address: run, part, cluster of the part, ring position, offset. -/
def tileOf (a : Nat) : Nat × Nat × Nat × Nat × Nat :=
  let t := (a - 2 ^ 64) / 2 ^ 19
  (t / 8 / 16 / 64, t / 8 / 16 % 64, t / 8 % 16, t % 8, (a - 2 ^ 64) % 2 ^ 19)

/-! ## Bytes -/

/-- What an address that no cell lists reads as: every block holds zeros at reset (R42; for
application-core memory log 3). -/
def unlisted : Byte := 0

/-- The canonical form: addresses strictly rising from above a bound, and no cell holding what an
unlisted address reads as. -/
def cellsWf : Nat → List Host.Cell → Bool
  | _, [] => true
  | lo, (a, b) :: rest => lo ≤ a && b != unlisted && cellsWf (a + 1) rest

/-- A memory is in canonical form. -/
def Memory.wf (m : List Host.Cell) : Bool := cellsWf 0 m

def memGet : List Host.Cell → Nat → Byte
  | [], _ => unlisted
  | (k, b) :: rest, a => if k = a then b else memGet rest a

/-- Write one byte and keep the canonical form. -/
def memPut : List Host.Cell → Nat → Byte → List Host.Cell
  | [], a, b => if b = unlisted then [] else [(a, b)]
  | (k, c) :: rest, a, b =>
    if a < k then (if b = unlisted then (k, c) :: rest else (a, b) :: (k, c) :: rest)
    else if a = k then (if b = unlisted then rest else (a, b) :: rest)
    else (k, c) :: memPut rest a b

def memRead (m : List Host.Cell) (a : Nat) : Nat → List Byte
  | 0 => []
  | n + 1 => memGet m a :: memRead m (a + 1) n

def memWrite (m : List Host.Cell) (a : Nat) : List Byte → List Host.Cell
  | [] => m
  | b :: bs => memWrite (memPut m a b) (a + 1) bs

/-- `n` bytes at a home address. -/
def State.bytes (s : State) (a n : Nat) : List Byte := memRead s.mem a n

/-- The number that `n` bytes at a home address hold (R7). -/
def State.num (s : State) (a n : Nat) : Nat := ofBytes (s.bytes a n)

/-! ## Blocks and their side band -/

/-- The block of a home address. -/
def blockIx (a : Nat) : Nat := a / 64

def blockAt (a : Nat) : Nat := a / 64 * 64

/-- A side band at reset (R42). -/
def Side.reset : Side := ⟨0, 0, true, 0, false⟩

/-- The side band of the block that holds a home address. -/
def State.sideOf (s : State) (a : Nat) : Side := (s.side.find (blockIx a)).getD Side.reset

def State.setSide (s : State) (a : Nat) (sb : Side) : State :=
  { s with side := s.side.put (blockIx a) sb }

/-- The 64 payload bytes of the block that holds a home address. -/
def State.block (s : State) (a : Nat) : List Byte := s.bytes (blockAt a) 64

/-- Bits [15:0] of a side band: SCALE, ZERO and FMT (R42). -/
def Side.descr (sb : Side) : Nat := sb.scale * 256 + (if sb.zero then 32 else 0) + sb.fmt

def descrFmt (d : Nat) : Nat := d % 32
def descrScale (d : Nat) : Nat := nbits d 8 8
def descrZero (d : Nat) : Bool := nbit d 5

/-- A DESCR word of a format and a scale. -/
def mkDescr (fmt scale : Nat) (zero : Bool) : Nat :=
  scale * 256 + (if zero then 32 else 0) + fmt

/-- What the home recomputes after a completed write: VERSION plus one, ZERO, and the ceiling of a
self-scaled format (R42, R45, R47). -/
def State.settleSide (s : State) (a : Nat) (fmt scale : Nat) : State :=
  let sb := s.sideOf a
  let data := s.block a
  s.setSide a {
    version := (sb.version + 1) % 65536
    fmt := fmt
    scale := if isSelfScaled fmt then ceilingOf fmt data else if fmt = 0x11 then 0 else scale
    zero := data.all (· = 0)
    poison := false }

/-- A completed write of bytes inside one block: the payload, then the side band. -/
def State.writeBytes (s : State) (a : Nat) (bs : List Byte) : State :=
  let sb := s.sideOf a
  State.settleSide { s with mem := memWrite s.mem a bs } a sb.fmt sb.scale

/-- A completed write of `n` low bytes of a number inside one block. -/
def State.writeNum (s : State) (a n v : Nat) : State := s.writeBytes a (toBytes n v)

/-- A completed write of a whole block with its format and scale. -/
def State.writeBlock (s : State) (a : Nat) (fmt scale : Nat) (data : List Byte) : State :=
  State.settleSide { s with mem := memWrite s.mem (blockAt a) (fillTo 64 0 data) } a fmt scale

/-- The home finds a block uncorrectable and marks it (R393). -/
def State.markPoison (s : State) (a : Nat) : State := s.setSide a { s.sideOf a with poison := true }

def State.poisoned (s : State) (a : Nat) : Bool := (s.sideOf a).poison

/-- Whether the home refuses a write of `n` bytes to a block: the block is poisoned and the write
is not of all its 64 bytes (R393). -/
def State.refusesWrite (s : State) (a n : Nat) : Bool := s.poisoned a && n < 64

/-- The 16-bit serial comparison of R148: u is at or past v. -/
def atOrPast (u v : Nat) : Bool := (u + 65536 - v % 65536) % 65536 < 32768

/-- Clear the bytes and side bands of a range of blocks: the reset state of R42. -/
def clearCells (lo hi : Nat) (m : List Host.Cell) : List Host.Cell :=
  m.filter fun c => c.1 < lo || hi ≤ c.1

def State.clearRange (s : State) (lo hi : Nat) : State :=
  { s with
    mem := clearCells lo hi s.mem
    side := s.side.filter fun e => e.1 < lo / 64 || hi / 64 ≤ e.1 }

end Sys2Proof.Machine
end

