-- ==== Sys2Proof/Machine/Parts.lean ====
section
/-! DEFINITION. Access to the parts of the state, and the numbers of places: parts, clusters, sites and
destination words (R13 to R19, R111). -/

namespace Sys2Proof.Machine

/-! ## Access to the parts of the state -/

def State.run (s : State) (r : Nat) : Run := s.runs.get r

def State.editRun (s : State) (r : Nat) (f : Run → Run) : State :=
  { s with runs := s.runs.edit r f }

def State.elem (s : State) (r e : Nat) : Elem := (s.run r).elems.get e

def State.editElem (s : State) (r e : Nat) (f : Elem → Elem) : State :=
  s.editRun r fun x => { x with elems := x.elems.edit e f }

def State.ctx (s : State) (c : Nat) : Ctx := s.ctxs.get c

def State.editCtx (s : State) (c : Nat) (f : Ctx → Ctx) : State :=
  { s with ctxs := s.ctxs.edit c f }

def State.editDie (s : State) (d : Nat) (f : DieSt → DieSt) : State :=
  { s with dies := s.dies.edit d f }

def State.editJob (s : State) (j : Nat) (f : Job → Job) : State :=
  { s with jobs := s.jobs.edit j f }

def State.editQueue (s : State) (q : Nat) (f : Queue → Queue) : State :=
  { s with queues := s.queues.put q (f ((s.queues.find q).getD Queue.reset)) }

/-- A die's copy of the cycle counter: the device's count, and the copy's skew of 0 to 2 cycles (R9,
R155; log 69). -/
def State.clock (s : State) (die : Nat) : Nat :=
  s.cycle + Config.skew die (s.dies.get die).wakes % 3

/-- The activation of an element with a number. -/
def Elem.act (e : Elem) (uid : Nat) : Option Act := e.acts.find? fun a => a.uid = uid

/-- The activation of an identity (R235). -/
def Elem.actOf (e : Elem) (colour iter : Nat) : Option Act :=
  e.acts.find? fun a => a.colour = colour && a.iter = iter

def Elem.editAct (e : Elem) (uid : Nat) (f : Act → Act) : Elem :=
  { e with acts := e.acts.map fun a => if a.uid = uid then f a else a }

def State.editAct (s : State) (r e uid : Nat) (f : Act → Act) : State :=
  s.editElem r e fun x => x.editAct uid f

/-- A number that no request, activation, command or run of the machine has yet. -/
def State.takeId (s : State) : Nat × State := (s.nextId, { s with nextId := s.nextId + 1 })

/-- Put a token on its way (R21). -/
def State.addFlit (s : State) (n : Nat) (f : Flit) : State := { s with flits := s.flits.put n f }

/-- The agent that held the focus has done its step. -/
def State.idle (s : State) : State := { s with focus := .idle }

/-- Put a happening at the front of what is to come. -/
def State.soon (s : State) (h : Happening) : State := { s with agenda := (0, h) :: s.agenda }

/-! ## Places, R13 to R19 and R111 -/

def partOf (key : Nat) : Nat := key / 1024
def cluOf (key : Nat) : Nat := key / 64 % 16
def siteOf (key : Nat) : Nat := key % 64
def keyOf (part clu site : Nat) : Nat := (part * 16 + clu) * 64 + site

def Run.part (r : Run) (p : Nat) : Part := (r.parts[p]?).getD default

/-- The cycle counter as an element of a run reads it (R155). -/
def State.clockAt (s : State) (r key : Nat) : Nat := s.clock ((s.run r).part (partOf key)).die

def Run.editPart (r : Run) (p : Nat) (f : Part → Part) : Run :=
  { r with parts := listModify r.parts p f }

/-- The die's cluster number of a cluster of a part (R16). -/
def Part.cluster (p : Part) (idx : Nat) : Nat := (p.row + idx / p.w) * 4 + p.col + idx % p.w

/-- The part and cluster of a part that stand at a die's cluster. -/
def findCluster (die clu : Nat) : List Part → Nat → Option (Nat × Nat)
  | [], _ => none
  | p :: ps, n =>
    if p.die = die && p.row ≤ clu / 4 && clu / 4 < p.row + p.h && p.col ≤ clu % 4 &&
        clu % 4 < p.col + p.w then
      some (n, (clu / 4 - p.row) * p.w + (clu % 4 - p.col))
    else findCluster die clu ps (n + 1)

/-- A destination word (R111). -/
def destWord (dev iter die clu site slot port colour : Nat) : Word :=
  word (dev % 256 * 2 ^ 56 + iter % 65536 * 2 ^ 32 + die % 32 * 2 ^ 27 + clu % 16 * 2 ^ 23 +
    site % 64 * 2 ^ 17 + slot % 32 * 2 ^ 12 + port % 4 * 2 ^ 10 + colour % 1024)

end Sys2Proof.Machine
end

