-- ==== Sys2Proof/Machine/Walk.lean ====
section
/-! DEFINITION. The walk of a context's page tables (R366 to R368, R380), and accesses of the device itself
at the virtual addresses of a context: the spill region, the save area and the fault log (R244, R356,
R363, R370). -/

namespace Sys2Proof.Machine

/-- Which rights an access needs (R367): read, write, or both. -/
def needRead : Nat := 1
def needWrite : Nat := 2
def needBoth : Nat := 3

/-- The offset of a virtual address in the context's tile window. -/
def State.windowOffset (s : State) (c va : Nat) : Option Nat :=
  let base := bits (s.ctx c).twbase 0 55
  if base ≤ va && va < base + 2 ^ 31 then some (va - base) else none

/-! ## The walk, R366 to R368 -/

/-- A leaf of a walk: page base, page size, physical base, rights. -/
structure Leaf where
  va : Nat
  size : Nat
  pa : Nat
  rd : Bool
  wr : Bool
  deriving DecidableEq, Repr, Inhabited

/-- Bytes of a stack, and of the journals at its top (R366, R380). -/
def stackBytes : Nat := 48 * 2 ^ 30
def journalBytes : Nat := 2 * 2 ^ 20

/-- A physical range names a stack and keeps clear of the journals (R366, R367, R380). -/
def paNamesStack (pa size : Nat) : Bool :=
  pa / 2 ^ 41 = 0 && nbits pa 36 5 < 24 && pa % 2 ^ 36 + size ≤ stackBytes - journalBytes

/-- Bits of a table entry that must be 0 (R367). -/
def entryReserved (e : Nat) : Bool := nbits e 52 12 != 0 || nbits e 8 8 != 0 || nbits e 4 3 != 0

/-- The leaf of a walk that has reached a page entry: the entry's own page or, with CONT, the page that
some entry of its run of 32 says the run forms (R368; log 64). -/
def State.runLeaf (s : State) (t idx e : Nat) (own : Leaf) : Leaf :=
  let k := Config.runEntry s.nextId % 33
  let size := own.size
  let d := s.num (t + 8 * (idx / 32 * 32 + k)) 8
  let pa := nbits d 16 36 * 2 ^ 16 / size * size
  if !nbit e 7 || k = 32 || nbits d 0 2 != nbits e 0 2 || !nbit d 7 || entryReserved d ||
      pa < k * size || !paNamesStack (pa - k * size) (32 * size) then own
  else ⟨own.va / (32 * size) * (32 * size), 32 * size, pa - k * size, nbit d 2, nbit d 3⟩

/-- A fault of a walk: cause and level. -/
abbrev WalkFault := Nat × Nat

/-- Walk from the table of a level (R367); `left` is 3 at level 1. -/
def walkFrom (s : State) (va : Nat) : Nat → Nat → Except WalkFault Leaf
  | 0, _ => .error (0x04, 3)
  | left + 1, t =>
    let level := 3 - left
    let idx := nbits va (16 + 13 * left) 13
    let e := s.num (t + 8 * idx) 8
    let type := nbits e 0 2
    let rd := nbit e 2
    let wr := nbit e 3
    if !paNamesStack t 65536 then .error (0x04, level)
    else if type = 0 then .error (0x03, level)
    else if entryReserved e || type = 2 || (type = 1 && level != 2) then .error (0x04, level)
    else if level = 2 && type = 1 then
      let pa := nbits e 29 23 * 2 ^ 29
      if paNamesStack pa (2 ^ 29) then
        .ok (s.runLeaf t idx e ⟨va / 2 ^ 29 * 2 ^ 29, 2 ^ 29, pa, rd, wr⟩)
      else .error (0x04, level)
    else
      let pa := nbits e 16 36 * 2 ^ 16
      if !paNamesStack pa 65536 then .error (0x04, level)
      else if level = 3 then .ok (s.runLeaf t idx e ⟨va / 65536 * 65536, 65536, pa, rd, wr⟩)
      else walkFrom s va left pa

def State.walk (s : State) (c va : Nat) : Except WalkFault Leaf :=
  walkFrom s va 3 (s.ctx c).ptroot.toNat

/-- A leaf gives the rights an access needs (R367). -/
def rightsOk (rd wr : Bool) (need : Nat) : Bool :=
  (!nbit need 0 || rd) && (!nbit need 1 || wr)

/-- The level of a leaf by its page size. -/
def leafLevel (size : Nat) : Nat := if size ≤ 2 ^ 21 then 3 else 2

/-- Walk an address and check its rights. -/
def State.walkHome (s : State) (c va need : Nat) : Except WalkFault Nat :=
  match s.walk c va with
  | .error e => .error e
  | .ok l =>
    if rightsOk l.rd l.wr need then .ok (l.pa + (va - l.va)) else .error (0x04, leafLevel l.size)

/-! ## Writes of the device itself -/

/-- Deferred readers that the block's version satisfies read next (R148, R295). -/
def State.wake (s : State) (a : Nat) : State :=
  let v := (s.sideOf a).version
  { s with reqs := s.reqs.map fun q =>
      if q.2.state == .held && blockIx q.2.home = blockIx a && atOrPast v (bits q.2.data 0 16) then
        (q.1, { q.2 with state := .satisfied })
      else q }

/-- A satisfied LDV of the block has still to read (R295). -/
def State.blockBusy (s : State) (a : Nat) : Bool :=
  s.reqs.any fun q => q.2.state == .satisfied && blockIx q.2.home = blockIx a

/-- The home performs a write of the device inside one block: a poisoned block refuses it unless it writes
the whole block, and deferred readers wake (R282, R295, R393). -/
def State.deviceWrite (s : State) (a : Nat) (bs : List Byte) : State :=
  if s.refusesWrite a bs.length then s else (s.writeBytes a bs).wake a

/-- A write of the device at a virtual address waits for the satisfied LDVs of its block (R295). -/
def State.virtBusy (s : State) (c va : Nat) : Bool :=
  match s.walkHome c (va % 2 ^ 55) needWrite with
  | .ok a => s.blockBusy a
  | .error _ => false

/-- Write bytes that lie in one block at a virtual address; a page that is missing or not writable takes
nothing. -/
def State.virtWrite (s : State) (c va : Nat) (bs : List Byte) : State :=
  match s.walkHome c (va % 2 ^ 55) needWrite with
  | .ok a => s.deviceWrite a bs
  | .error _ => s

end Sys2Proof.Machine
end

