-- ==== Sys2Proof/Machine/Ops.lean ====
section
/-! DEFINITION. The named operations over the state that the meanings share: places and tokens;
colours; flags; error counters; cancelling a launch; the arrival and the emission of tokens; and
taking a trap with the return from it (R26 to R35, R101, R111, R115, R163 to R165, R235, R242 to R245,
R346). -/

namespace Sys2Proof.Machine

/-! ## Places -/

/-- The destination word of a place of a run, with this device's id (R161 TRAPSITE, R162). -/
def State.placeWord (s : State) (dev r key slot port colour iter : Nat) : Word :=
  let p := (s.run r).part (partOf key)
  destWord dev iter p.die (p.cluster (cluOf key)) (siteOf key) slot port colour

/-- The element a target names from an element of the same cluster (R29, R65): y × 8 + x. -/
def targetKey (key : Nat) (dx dy : BitVec 4) : Nat :=
  let site := siteOf key
  let x := ((site % 8 : Nat) : Int) + dx.toInt
  let y := ((site / 8 : Nat) : Int) + dy.toInt
  key - site + (y * 8 + x).toNat % 64

/-- The ring position of a tile's site (R19), 8 for a site that is no tile. -/
def ringOf (site : Nat) : Nat := [0, 7, 31, 39, 63, 56, 32, 24].findIdx fun x => x = site

/-- The site of a ring position (R19). -/
def ringSite (pos : Nat) : Nat := ([0, 7, 31, 39, 63, 56, 32, 24][pos]?).getD 0

/-! ## Tokens -/

def Tok.data (v : Word) : Tok := ⟨v, .data, 0, false, false, 0⟩

/-- A NULL (R27). -/
def Tok.nul : Tok := ⟨0, .null, 0, false, false, 0⟩

/-- A POISON token of a load, with the block's address (R393). -/
def Tok.poisonAt (a : Nat) : Tok := ⟨0, .poison, 0, false, false, a⟩

def Tok.stop (level : Nat) : Tok := ⟨0, .stop, level, false, false, 0⟩

/-- The code of a kind (R27). -/
def Kind.code : Kind → Nat
  | .data => 0
  | .null => 1
  | .empty => 2
  | .unseen => 3
  | .stop => 4
  | .kill => 5
  | .poison => 6
  | .command => 7

/-- Bits [63:0] of a token at a place (R26). -/
def State.tokenBits (s : State) (f : Flit) : Word :=
  let p := (s.run f.run).part (partOf f.dst)
  word (f.ctx % 64 * 2 ^ 58 + f.colour % 1024 * 2 ^ 48 + f.iter % 65536 * 2 ^ 32 +
    p.die % 32 * 2 ^ 27 + p.cluster (cluOf f.dst) % 16 * 2 ^ 23 + siteOf f.dst * 2 ^ 17 +
    f.slot % 32 * 2 ^ 12 + f.port % 4 * 2 ^ 10 + f.tok.kind.code * 2 ^ 7 + f.tok.level % 8 * 2 ^ 4 +
    (if f.tok.rel then 8 else 0) + (if f.tok.outside then 4 else 0))

/-- Bits [63:0] of an operand token at the port it stands on. -/
def State.operandBits (s : State) (f : Firing) (port : Nat) (t : Tok) : Word :=
  s.tokenBits ⟨f.run, f.elem, f.elem, f.slot, port, (s.run f.run).ctx, f.colour, f.iter, t, none,
    false, false⟩

/-! ## Colours, R115, R250, R396, R397 -/

def Colour.fresh : Colour := ⟨.free, 0, false, false, 0, none, none, [], 0, 0⟩

def Ctx.colour (c : Ctx) (n : Nat) : Colour := (c.colours.find n).getD Colour.fresh

/-- Change a colour; a colour that is as a fresh one leaves the table. -/
def Ctx.editColour (c : Ctx) (n : Nat) (f : Colour → Colour) : Ctx :=
  let x := f (c.colour n)
  { c with colours := if x = Colour.fresh then c.colours.del n else c.colours.put n x }

/-- free_count of R115; colour 0 is always free and counted (R250). -/
def Ctx.freeCount (c : Ctx) : Nat :=
  1024 - (c.colours.filter fun e => e.2.state != .free).length

/-- The colour a name stands for, through the aliases of R397 (at most three replays). -/
def Ctx.resolveAux (c : Ctx) : Nat → Nat → Nat
  | 0, n => n
  | k + 1, n =>
    match (c.colour n).alias_ with
    | some m => c.resolveAux k m
    | none => n

def Ctx.resolve (c : Ctx) (n : Nat) : Nat := c.resolveAux 4 n

def State.editColour (s : State) (c n : Nat) (f : Colour → Colour) : State :=
  s.editCtx c fun x => x.editColour n f

/-- Set the taint bit of a colour of a replayable graph (R396); colour 0 carries none. -/
def State.taint (s : State) (r colour : Nat) : State :=
  if nbit (s.run r).plan.flagsWord.toNat 0 && colour != 0 then
    s.editColour (s.run r).ctx colour fun c => { c with taint := true }
  else s

/-! ## Flags, R53 -/

/-- OR flags into FLAGS of a context. -/
def State.orFlags (s : State) (c fl : Nat) : State :=
  s.editCtx c fun x => { x with regs := { x.regs with flags := x.regs.flags ||| fl } }

/-- Flags a firing raises: private to its activation, or, in a trailing firing, FLAGS (R53, R236). -/
def State.raise (s : State) (f : Firing) (fl : Nat) : State :=
  if fl = 0 then s
  else match (s.elem f.run f.elem).act f.act with
    | some a =>
      if a.committed then s.orFlags (s.run f.run).ctx fl
      else s.editAct f.run f.elem f.act fun a => { a with flags := a.flags ||| fl }
    | none => s.orFlags (s.run f.run).ctx fl

/-! ## The error counters, R394 -/

/-- One more event of R30 or R80 in the die's soft-error count. -/
def State.softError (s : State) (r key : Nat) : State :=
  s.editDie ((s.run r).part (partOf key)).die fun d => { d with soft := min (d.soft + 1) 65535 }

/-! ## Presenting a trap, R163, R164 -/

/-- The trap record's token: colour 0, ITER the SEQ, kind data (R163). -/
def trapToken (t : TrapRec) : Tok := Tok.data (word (t.cause + t.seq * 2 ^ 16))

/-- Present a trap: the trap registers are written and the trap record goes to the trap slot
(R163, R164). -/
def State.present (s : State) (r : Nat) (t : TrapRec) : State :=
  let x := s.run r
  let regs : TrapRegs := ⟨true, t.seq, t.cause, t.tokenA, t.tokenB,
    s.placeWord s.life.devid r t.elem t.slot 0 t.colour t.iter, t.info⟩
  let s := s.editRun r fun x => { x with presented := some t, trapRegs := regs }
  match x.trapElem with
  | none => s
  | some dst =>
    let (n, s) := s.takeId
    s.addFlit n ⟨r, t.elem, dst, x.trapSlot, 0, x.ctx, 0, t.seq, trapToken t, none, false, false⟩

/-- The cycle in which the freeze wave of a run started (R361). -/
def Run.waveStart (x : Run) : Option Nat :=
  match x.freeze with
  | some z => z.start
  | none => none

/-- A run is frozen, or a freeze wave runs in it: a trap is queued (R365). -/
def Run.halted (x : Run) : Bool := x.waveStart.isSome || x.state == .frozen

/-- The next queued trap is presented, unless one is, or the run is halted (R163, R365). -/
def State.presentNext (s : State) (r : Nat) : State :=
  let x := s.run r
  match x.presented, x.trapQueue with
  | none, t :: ts => if x.halted then s else (s.editRun r fun y => { y with trapQueue := ts }).present r t
  | _, _ => s

/-! ## Cancelling a launch, R346 -/

/-- The uncommitted activations of an element are purged, and its tokens, parked firings and held
tokens are discarded (R346). -/
def Elem.cancelled (e : Elem) : Elem :=
  { e with
    waiting := []
    acts := []
    parked := []
    waitts := []
    live := []
    throttled := []
    helds := []
    seeds := []
    spillHeld := [] }

/-- Where a request on a control strand comes from: the element of its firing, or the consumer ends of the
strand for the notice of a STRCLOSE. -/
def CtrlReq.fromPart (q : CtrlReq) (st : Strand) (here : Nat → Bool) : Bool :=
  match q with
  | .permit _ f _ | .take _ f _ => here f.elem
  | .close => st.branches.all fun b => here b.elem

/-- The end of a strand at which a STRCLOSE is under way lies in the part. -/
def Closing.inPart (c : Closing) (st : Strand) (here : Nat → Bool) : Bool :=
  match c with
  | .producer f _ _ | .consumer f _ _ _ => here f.elem
  | .producerSilent => here st.elem

/-- What the cancel of one part leaves of a strand: the beats at its own inputs, the beats that it has formed
and not sent, and its requests and closings are discarded, and what belongs to another part goes on (R346). -/
def Strand.cancelledIn (st : Strand) (here : Nat → Bool) : Strand :=
  { st with
    branches := st.branches.map fun b => if here b.elem then { b with beats := [] } else b
    ready := if here st.elem then [] else st.ready
    control := st.control.filter fun q => !q.fromPart st here
    closing := st.closing.filter fun c => !c.inPart st here }

/-- Commands that are held for an owner flip, or stopped at a presented trap, complete without
further effect (R346). -/
def Command.cancelled (c : Command) : Command :=
  match c.state with
  | .withheld _ | .stopped => { c with state := .finished 0 }
  | .finished _ => { c with farBusy := false }
  | _ => c

/-- Cancel one launch, the part `p` of a run (R346, level 1).  Its completion is recorded when its
engine commands have run out (`itemCompletion`). -/
def Run.cancelPart (x : Run) (p : Nat) : Run :=
  if (x.part p).done then x
  else
    let here (k : Nat) : Bool := partOf k = p
    { x.editPart p fun q => { q with cancelled := true } with
      cancelled := true
      elems := x.elems.map fun e => if here e.1 then (e.1, e.2.cancelled) else e
      strands := x.strands.map fun e => (e.1, e.2.cancelledIn here)
      cmds := x.cmds.map fun e => if here e.2.elem then (e.1, e.2.cancelled) else e
      seams := x.seams.map fun e => if here e.1 then (e.1, { e.2 with inputs := [] }) else e
      presented := x.presented.filter fun t => !here t.elem
      trapRegs := if x.presented.any fun t => here t.elem then { x.trapRegs with valid := false } else x.trapRegs
      trapQueue := x.trapQueue.filter fun t => !here t.elem }

/-- Release requests of activations that are purged or cancelled are withdrawn (R116). -/
def Ctx.withdraw (c : Ctx) (cs : List Nat) : Ctx :=
  cs.foldl (fun c n => c.editColour (c.resolve n) fun x => { x with release := false }) c

/-- The colours that firings of a part allocated and have not freed; the replacement of one is among them. -/
def Ctx.coloursOf (c : Ctx) (r p : Nat) : List Nat :=
  (c.colours.filter fun e => e.2.run = r && partOf e.2.elem = p && e.2.state != .free).map Prod.fst

/-- Those colours return to the pool, with their aliases, and no colour descends from them any more (R346, R397,
R398). -/
def Ctx.freeColoursOf (c : Ctx) (r p : Nat) : Ctx :=
  let gone := c.coloursOf r p
  { c with
    colours := (c.colours.filter fun e => !gone.contains e.1).map fun e =>
      (e.1, { e.2 with parents := e.2.parents.filter fun n => !gone.contains n })
    waiting := c.waiting.filter fun w => !(w.firing.run = r && partOf w.firing.elem = p) }

/-- The release requests of the activations of a part that have not committed. -/
def Run.releasesAt (x : Run) (p : Nat) : List Nat :=
  x.elems.flatMap fun e =>
    if partOf e.1 = p then (e.2.acts.filter fun a => !a.committed).flatMap Act.frees else []

/-- A kill's wave ends with the part of its firing; a purge wave for a replay is the harbourmaster's (R397), and
ends when the launches of all its colours have been cancelled (R398). -/
def Wave.endsWith (w : Wave) (r p : Nat) (gone : List Nat) : Bool :=
  w.run = r && match w.firing with
    | some (f, _) => partOf f.elem = p
    | none => w.colours.all gone.contains

/-- No colour has this number: it stands in a purge wave for a colour whose launch was cancelled. -/
def noColour : Nat := 1024

/-- What is left of a wave: the places of other parts, and the colours of launches that go on.  The colour that
was to be replayed is not, once its launch is cancelled (R398). -/
def Wave.cutBy (w : Wave) (r p : Nat) (gone : List Nat) : Wave :=
  if w.run != r then w
  else
    let w := { w with todo := w.todo.filter fun k => partOf k != p }
    if w.firing.isSome then w
    else { w with
      colours := w.colours.map fun n => if gone.contains n then noColour else n
      replay := w.replay.filter fun n => !gone.contains n }

/-- The seed records of colours that are no longer allocated end (R396, R398). -/
def Run.dropSeeds (x : Run) (gone : List Nat) : Run :=
  { x with elems := x.elems.map fun e =>
      (e.1, { e.2 with seeds := e.2.seeds.filter fun d => !gone.contains d.colour }) }

/-- A far request belongs to a firing or a command of a part of a run. -/
def FarReq.inPart (q : FarReq) (x : Run) (r p : Nat) : Bool :=
  match q.firing with
  | some (f, _) => f.run = r && partOf f.elem = p
  | none => match x.cmds.find q.req with
    | some c => partOf c.elem = p
    | none => false

/-- The far requests of a part whose traps are discarded with it: nothing sends them again (R346, R375, R377). -/
def FarState.trapped (f : FarState) (x : Run) (r p : Nat) : List FarReq :=
  (f.outstanding.filter FarReq.expired ++ f.refused).filter fun q => q.inPart x r p

/-- The list without some requests. -/
def FarState.without (f : FarState) (gone : List Nat) : FarState :=
  { f with
    outstanding := f.outstanding.filter fun q => !gone.contains q.fs
    refused := f.refused.filter fun q => !gone.contains q.fs }

/-- Cancel one launch, the part `p` of a run (R346, level 1).  What waits for the part goes with it, its
colours and release requests return, and a trap that was queued behind one of its own is presented. -/
def State.cancelPart (s : State) (r p : Nat) : State :=
  let x := s.run r
  if (x.part p).done then s
  else
    let mine (f : Firing) : Bool := f.run = r && partOf f.elem = p
    let lost := (s.ctx x.ctx).far.trapped x r p
    let gone := (s.ctx x.ctx).coloursOf r p
    let unsent := (lost.filter fun q => q.firing.isSome).map FarReq.req
    let s := { s with
      runs := (s.runs.edit r fun y => y.cancelPart p).map fun y : Nat × Run =>
        (y.1, if y.2.ctx = x.ctx then y.2.dropSeeds gone else y.2)
      flits := s.flits.filter fun e => !(e.2.run = r && (partOf e.2.dst = p))
      reqs := s.reqs.filter fun e : Nat × Req => !(mine e.2.firing && (e.2.cls != MemClass.buffered || unsent.contains e.1))
      walks := s.walks.filter fun e => !mine e.2.firing
      agenda := s.agenda.filter fun h => match h.2 with
        | .refire f => !mine f
        | _ => true
      waves := (s.waves.filter fun e : Nat × Wave => !e.2.endsWith r p gone).map fun e : Nat × Wave =>
        (e.1, e.2.cutBy r p gone) }
    (s.editCtx x.ctx fun c =>
      { (c.withdraw (x.releasesAt p)).freeColoursOf r p with
        far := c.far.without (lost.map FarReq.fs) }).presentNext r

/-! ## Taking a trap, R163, R164 -/

/-- The report word of a job whose launch a trap cancelled (R348): OUTCOME 2, STATUS the cause,
ITEM 11, the place of the raising firing and its graph, DOUBLE for a double trap. -/
def trapReport (cause slot site clu die graph : Nat) (double : Bool) : Word :=
  word (2 + cause * 2 ^ 8 + 3 * 2 ^ 16 + (if double then 2 ^ 18 else 0) + slot % 32 * 2 ^ 20 +
    site % 64 * 2 ^ 25 + clu % 16 * 2 ^ 31 + die % 32 * 2 ^ 35 + graph % 65536 * 2 ^ 48)

/-- A launch that trapped without a trap slot, or with a double trap, is cancelled and reported:
the report names the first (R163, R348). -/
def State.cancelByTrap (s : State) (r : Nat) (t : TrapRec) (double : Bool) : State :=
  let x := s.run r
  let p := x.part (partOf t.elem)
  let rep := trapReport t.cause t.slot (siteOf t.elem) (p.cluster (cluOf t.elem)) p.die x.graph double
  let s := s.editJob x.job fun j =>
    { j with report := if j.report = 0 then rep else j.report }
  s.cancelPart r (partOf t.elem)

/-- The distance of a site from its part's origin, X + Y (R361). -/
def Run.reach (x : Run) (key : Nat) : Nat :=
  let p := x.part (partOf key)
  let c := cluOf key
  let site := siteOf key
  8 * (c % p.w) + site % 8 + 8 * (c / p.w) + site / 8

/-- A freeze wave has halted a site, or the launch is frozen (R361). -/
def Run.haltedAt (x : Run) (now key : Nat) : Bool :=
  x.state == .frozen || match x.waveStart with
    | some t => now ≥ t + x.reach key
    | none => false

/-- Take a trap (R163): it receives the launch's next SEQ; it is presented, or queued behind the
presented one; without a trap slot, or when an activation of the trap slot's element raises it while
one is presented, the launch is cancelled. -/
def State.trap (s : State) (r : Nat) (t : TrapRec) : State :=
  let x := s.run r
  let t := { t with seq := x.trapSeq }
  let s := s.editRun r fun y => { y with trapSeq := (y.trapSeq + 1) % 65536 }
  match x.trapElem with
  | none => s.cancelByTrap r t false
  | some e =>
    if x.presented.isSome && t.elem = e then s.cancelByTrap r t true
    else if x.presented.isSome || x.halted then
      s.editRun r fun y => { y with trapQueue := y.trapQueue ++ [t] }
    else s.present r t

/-- TRAPINFO where the raising rule gives it no content: a free value (log 13). -/
def State.openInfo (s : State) (r : Nat) : Word := Config.openTrapInfo (s.run r).trapSeq

/-- A token register where the trap concerns no token: a free value (log 13). -/
def State.openToken (s : State) (r : Nat) : Word := Config.openTrapToken (s.run r).trapSeq

/-- A trap whose token was discarded on arrival parks nothing (R163): ILLEGAL with the token. -/
def State.trapDiscarded (s : State) (f : Flit) : State :=
  s.trap f.run
    ⟨0x01, 0, f.dst, f.slot, f.colour, f.iter, s.openInfo f.run, f.tok.val, s.tokenBits f, .nothing⟩

/-- The operand token a trap of a firing concerns: a POISON operand where the trap is POISON, else
the left one, or the one the firing has (log 14). -/
def Firing.concerned (f : Firing) (cause : Nat) : Option (Nat × Tok) :=
  let ports := [(0, f.l), (1, f.r), (2, f.p)].filterMap fun x => x.2.map fun t => (x.1, t)
  match ports.find? fun x => cause = 0x0C && x.2.kind = .poison with
  | some x => some x
  | none => ports.head?

/-- The trap record of a firing (R161, R163). -/
def State.trapRecord (s : State) (f : Firing) (cause : Nat) (info : Word) (resume : Resume) :
    TrapRec :=
  match f.concerned cause with
  | some (port, t) =>
    ⟨cause, 0, f.elem, f.slot, f.colour, f.iter, info, t.val, s.operandBits f port t, resume⟩
  | none =>
    ⟨cause, 0, f.elem, f.slot, f.colour, f.iter, info, s.openToken f.run, s.openToken f.run, resume⟩

/-- Park a firing and take its trap (R163): the firing keeps its operands. -/
def State.parkAs (s : State) (f : Firing) (cause mark : Nat) (info : Word) : State :=
  let (uid, s) := s.takeId
  let s := s.editElem f.run f.elem fun e =>
    { e with parked := e.parked ++ [⟨uid, f, mark⟩] }
  s.trap f.run (s.trapRecord f cause info (.firing f.elem uid))

def State.park (s : State) (f : Firing) (cause : Nat) (info : Word) : State :=
  s.parkAs f cause cause info

/-- The presented trap is resumed: VALID clears and the next queued trap is presented (R163,
R165). -/
def State.endPresentation (s : State) (r : Nat) : State :=
  (s.editRun r fun y =>
    { y with presented := none, trapRegs := { y.trapRegs with valid := false } }).presentNext r

/-! ## The matching store, R35, R235, R242 to R245 -/

/-- An element as a cleared configuration plane leaves it (R64). -/
def Elem.cleared : Elem where
  slots := List.replicate 32 0
  header := 0
  policy := 0
  holds := List.replicate 8 0
  beforeAt := 0
  before := []
  holdsBad := 0
  badSlots := 0
  waiting := []
  acts := []
  parked := []
  waitts := []
  live := []
  throttled := []
  helds := []
  pass := List.replicate 32 0
  vt := 0
  hadCand := 0
  lastSelect := none
  quarter := none
  perf := List.replicate 8 0
  seeds := []
  spillHeld := []

/-- The set of a token (R242). -/
def setOf (slot iter colour : Nat) : Nat := Nat.xor (Nat.xor (slot % 8) (iter % 8)) (colour % 8)

/-- Entries of a set that stand in the store itself. -/
def Elem.inSet (e : Elem) (n : Nat) : Nat :=
  (e.waiting.filter fun w => w.spilled.isNone && setOf w.slot w.iter w.colour = n).length

def Elem.setSpills (e : Elem) (n : Nat) : Bool :=
  e.waiting.any fun w => w.spilled.isSome && setOf w.slot w.iter w.colour = n

/-- Add to a performance counter of an element (R162). -/
def Elem.count (e : Elem) (k n : Nat) : Elem := { e with perf := listModify e.perf k (· + n) }

/-- A run stands in the save area, also while it is loaded again. -/
def Run.out (x : Run) : Bool :=
  x.state == .frozen && x.parts.any fun p => p.state == .frozenOut || p.state == .loading

/-- The places of the entries that stand in a context's spill region; those of launches that were read out
stand in their images (R243, R244, R363). -/
def State.spillPlaces (s : State) (c : Nat) : List Nat :=
  s.runs.flatMap fun r =>
    if r.2.ctx = c && !r.2.out then
      r.2.elems.flatMap fun e => e.2.waiting.filterMap Wait.spilled ++
        e.2.acts.flatMap fun a => a.stores.filterMap Store.spilled
    else []

/-- The spill region has no room for one more 32-byte entry (R244, R245). -/
def State.spillFull (s : State) (c : Nat) : Bool :=
  ((s.spillPlaces c).length + 1) * 32 > (s.ctx c).spillsize.toNat

/-- The lowest place of a context's spill region that no entry takes; the device may choose any (R244;
log 68). -/
def State.spillPlace (s : State) (c : Nat) : Nat :=
  let used := s.spillPlaces c
  ((upTo (used.length + 1)).find? fun n => !used.contains n).getD used.length

/-- Write an entry into a context's spill region (R244). -/
def State.writeSpill (s : State) (c place : Nat) (entry : List Byte) : State :=
  s.virtWrite c (bits (s.ctx c).spillbase 0 55 + 32 * place) entry

/-- Bytes [31:24] of a spill entry: the place of its element, and whose entry it is (R244). -/
def State.spillTag (s : State) (r key set : Nat) (store : Bool) : Nat :=
  let p := (s.run r).part (partOf key)
  p.die % 32 + p.cluster (cluOf key) % 16 * 2 ^ 5 + siteOf key * 2 ^ 9 + p.plane % 2 * 2 ^ 15 +
    (if store then 2 ^ 16 else 0) + set % 8 * 2 ^ 17

/-- The spill entry of a matching entry (R244). -/
def State.matchEntry (s : State) (f : Flit) : List Byte :=
  toBytes 8 f.tok.val.toNat ++ toBytes 8 (s.tokenBits f).toNat ++ toBytes 8 0 ++
    toBytes 8 (s.spillTag f.run f.dst (setOf f.slot f.iter f.colour) false)

def Act.open_ (uid colour iter now : Nat) : Act :=
  ⟨uid, colour, iter, false, now, 0, 0, 0, 0, 0, [], [], [], [], [], false, false, 0⟩

/-- The identity is known at the element, or an activation of it opens (R235). -/
def State.openAct (s : State) (r e colour iter : Nat) : State :=
  match (s.elem r e).actOf colour iter with
  | some _ => s
  | none =>
    let (uid, s) := s.takeId
    s.editElem r e fun x => { x with acts := x.acts ++ [Act.open_ uid colour iter s.cycle] }

/-- The ports a slot reads (R66, R70, R76), as whether it reads left, right, predicate.  A slot
whose word became one that the loader refuses is read at any port, as ILL is, and traps when it fires
(R80). -/
structure Reads where
  left : Bool
  right : Bool
  pred : Bool
  any : Bool
  deriving DecidableEq, Repr, Inhabited

def readsOut (o : Out) (right : Bool) : Reads := ⟨true, right, o.pred, false⟩
def readsCmd (c : Cmd) : Reads := ⟨true, false, c.pred, false⟩

/-- The ports an instruction reads, as its reference entry gives them. -/
def readsOf : Instr → Reads
  | .ill _ => ⟨true, true, true, true⟩
  | .mov o _ | .mov3 o _ | .const o _ | .constor o _ | .nullt o _ | .iter o _ | .iterread o _
  | .colnew o _ | .colfree o _ | .exit o _ | .kindq o _ | .stopt o _ | .kill o _ | .retire o _ =>
    readsOut o false
  | .steer o _ | .steern o _ | .select o _ | .iterset o _ | .retag o _ | .gate o _
  | .throttle o _ => readsOut o true
  | .send p _ | .sendx p _ => ⟨true, true, p, false⟩
  | .add o f | .sub o f | .mul o f | .mulh o f _ | .div o f _ _ | .rem o f _ _ | .and o f | .or o f
  | .xor o f | .andn o f | .shl o f | .shr o f | .sar o f | .rol o f | .min o f _ | .max o f _
  | .cmp o f _ | .test o f _ | .adds o f _ | .subs o f _ => readsOut o (!f.immOn)
  | .abs o _ | .neg o _ | .clz o _ | .popc o _ | .brev o _ | .base o _ | .extr o _ _ _
  | .unpk o _ _ _ => readsOut o false
  | .lea o _ _ | .shape o _ _ | .ins o _ _ | .pack o _ => readsOut o true
  | .fadd o _ | .fsub o _ | .fmul o _ | .fma o _ _ _ _ | .fdiv o _ _ _ | .fmin o _ _ _
  | .fmax o _ _ _ | .fcmp o _ _ _ _ => readsOut o true
  | .fsgn o _ _ m => readsOut o (m != 3)
  | .fsqrt o _ _ _ | .fcvt o _ _ _ _ | .ftoi o _ _ _ | .itof o _ _ _ | .fexp2 o _ _ _
  | .flog2 o _ _ _ | .frcp o _ _ _ | .frsq o _ _ _ | .fsinp o _ _ _ | .fcosp o _ _ _
  | .fclass o _ _ => readsOut o false
  | .ld o _ _ | .vers o _ | .ldd o _ | .pref o _ _ | .fence o _ _ _ _ | .xread o _ _ =>
    readsOut o false
  | .st o _ _ | .ldv o _ _ | .stv o _ _ | .vset o _ | .std o _ | .aadd o _ _ | .aand o _ _
  | .aor o _ _ | .axor o _ _ | .amin o _ _ | .amax o _ _ | .aswap o _ _ | .acas o _ _ _ _ _
  | .afadd o _ _ | .xinit o _ _ | .xacc o _ _ | .aincw o _ _ | .aser o _ _ | .bar o _ | .post o _
  | .signal o _ | .arm o _ | .cancel o _ _ | .doneq o _ _ | .kvcommit o _ _ | .ldk o _ _ _ _ =>
    readsOut o true
  | .cycle o _ | .waitt o _ | .permit o _ | .take o _ | .strset o _ _ _ | .strocc o _ _ _
  | .strclose o _ => readsOut o false
  | .trap o _ | .rds o _ | .wrs o _ | .flags o _ | .site o _ | .perf o _ | .brk o _ | .tret o _
  | .assert o _ => readsOut o false
  | .tskip o _ => readsOut o true
  | .own c | .ownToLace c | .seamin c _ _ _ | .seamout c _ _ | .mzero c _ | .mzeroAuto c _ | .mldb c
  | .mldc c _ | .mma c _ | .mmas c _ | .mmax3 c _ | .mout c _ _ _ _ | .mrow c _ | .mrowReadProgress c
  | .mscale c | .mbmap c | .vmap c _ | .vfma c _ | .vred c _ | .vscan c _ | .vsoft c _ | .vnorm c _
  | .cvt c _ _ _ | .vcmp c _ | .vsel c _ | .vrope c _ | .tshape c _ | .tread c _ | .twrite c _
  | .tcomp c _ | .texp c _ _ | .trot c _ | .twin c _ | .tzmap c _ | .tsacc c _ _ | .trep c _
  | .trmw c _ _ | .tfill c _ | .cpy c _ _ | .cpySetLpitch c _ _ | .cpySetLtask c _ _ | .cpyg c _
  | .cpys c _ | .cpy2d c _ _ | .cpyq c | .camld c _ | .camset c _ _ | .camsetRead c _ _
  | .camcomp c _ _ _ | .pgather c _ _ | .pray c _ _ | .pscat c _ _ _ | .pstore c | .pstat c _
  | .pclear c | .pprior c | .topk c | .sample c | .sampleSetStemp c | .sampleSetStopp c | .accept c
  | .resid c | .draw c | .treemask c | .drawtab c | .isect c | .union c | .seampol c | .cmpr c =>
    readsCmd c
  | _ => ⟨false, false, false, false⟩

/-- The ports the slot of an element reads. -/
def Elem.reads (e : Elem) (slot : Nat) : Reads :=
  if nbit e.badSlots slot then ⟨true, true, true, true⟩
  else match decode ((e.slots[slot]?).getD 0) with
    | .ok i => readsOf i
    | .error _ => ⟨true, true, true, true⟩

def Reads.reads (r : Reads) (port : Nat) : Bool :=
  match port with
  | 0 => r.left
  | 1 => r.right
  | 2 => r.pred
  | _ => false

/-- A token that cannot be spilled: the element keeps it, and takes no more from the mesh; the first such
traps SPILLFULL (R245). -/
def State.keepToken (s : State) (f : Flit) : State :=
  let first := (s.elem f.run f.dst).spillHeld.isEmpty
  let c := (s.run f.run).ctx
  let s := s.editElem f.run f.dst fun e => { e with spillHeld := e.spillHeld ++ [f] }
  if first then
    s.trap f.run ⟨0x06, 0, f.dst, f.slot, f.colour, f.iter, (s.ctx c).spillbase, f.tok.val,
      s.tokenBits f, .spill f.dst⟩
  else s

/-- Write a token into the matching store, or into the spill region when its set is full (R242 to
R245).  A token never overtakes one of its set that the element keeps (R35). -/
def State.storeToken (s : State) (f : Flit) : State :=
  let e := s.elem f.run f.dst
  let c := (s.run f.run).ctx
  let n := setOf f.slot f.iter f.colour
  let full := e.inSet n ≥ 8 || e.setSpills n
  if (e.spillHeld.any fun g => setOf g.slot g.iter g.colour = n) || (full && s.spillFull c) then
    s.keepToken f
  else
    let s := s.openAct f.run f.dst f.colour f.iter
    let place := if full then some (s.spillPlace c) else none
    let s := match place with
      | some k => s.writeSpill c k (s.matchEntry f)
      | none => s
    s.editElem f.run f.dst fun e =>
      let e := (e.count 1 1).count 2 (if full then 1 else 0)
      { e with waiting := e.waiting ++
          [⟨f.slot, f.port, f.colour, f.iter, f.tok, s.cycle, place⟩] }

/-- Reload the oldest spilled entry of a set that has a free way (R243). -/
def reloadSet (n : Nat) : List Wait → List Wait × Bool
  | [] => ([], false)
  | w :: ws =>
    if w.spilled.isSome && setOf w.slot w.iter w.colour = n then ({ w with spilled := none } :: ws, true)
    else
      let (r, b) := reloadSet n ws
      (w :: r, b)

def Elem.reload (e : Elem) (n : Nat) : Elem :=
  if e.inSet n < 8 then
    let (ws, hit) := reloadSet n e.waiting
    ({ e with waiting := ws }).count 3 (if hit then 1 else 0)
  else e

/-- The tags a THROTTLE slot holds live in a colour (R122). -/
def Elem.liveTags (e : Elem) (slot colour : Nat) : List Nat :=
  match e.live.find? fun x => x.slot = slot && x.colour = colour with
  | some x => x.tags
  | none => []

def Elem.setLive (e : Elem) (slot colour : Nat) (tags : List Nat) : Elem :=
  let rest := e.live.filter fun x => !(x.slot = slot && x.colour = colour)
  { e with live := if tags.isEmpty then rest else ⟨slot, colour, tags⟩ :: rest }

/-- A retire notice at the right port of a THROTTLE slot (R122, R123): a data token removes its
tag; a token of any other kind changes nothing. -/
def State.notice (s : State) (f : Flit) : State :=
  if f.tok.kind = .data then
    s.editElem f.run f.dst fun e =>
      (e.count 1 1).setLive f.slot f.colour
        ((e.liveTags f.slot f.colour).filter fun t => t != f.iter)
  else s

def Elem.isThrottle (e : Elem) (slot : Nat) : Bool :=
  match decode ((e.slots[slot]?).getD 0) with
  | .ok (.throttle _ _) => true
  | _ => false

/-- The run takes no tokens: it is cancelled there, complete, or does not exist. -/
def Run.deaf (x : Run) (part : Nat) : Bool :=
  x.state == .complete || (x.part part).cancelled || (x.part part).done

/-- Commands an engine holds that have not started (R166). -/
def Run.queuedAt (x : Run) (key : Nat) : Nat :=
  (x.cmds.filter fun c => c.2.elem = key && match c.2.state with
    | .queued => true
    | _ => false).length

/-- A stopped command, or one of which a far write has failed, holds the later commands of its engine back
(R169). -/
def Command.holds (c : Command) : Bool :=
  match c.state with
  | .stopped => true
  | .finished _ => c.farBusy
  | _ => false

def Run.heldBack (x : Run) (n : Nat) (c : Command) : Bool :=
  x.cmds.any fun e => e.2.elem = c.elem && e.1 < n && e.2.holds

/-- A command that does its next unit of work: a halted engine stops at a block boundary, but a copy
that a lighter has accepted goes on until the launch is frozen (R361). -/
def Run.works (x : Run) (now n : Nat) (c : Command) : Bool :=
  c.state == .running && !x.heldBack n c && x.state != .frozen &&
    (siteKind (siteOf c.elem) == .lighter || !x.haltedAt now c.elem)

def Prog.zero : Prog := ⟨0, 0, 0, [], [], [], [], none⟩

/-- Commands that read or write blocks of the tile they are sent to, and so count in its use count
(R168); TSHAPE and OWN touch none. -/
def usesOwnTile : Instr → Bool
  | .tread .. | .twrite .. | .tcomp .. | .texp .. | .trot .. | .twin .. | .tzmap .. | .tsacc ..
  | .trep .. | .trmw .. | .tfill .. => true
  | _ => false

def CmdMsg.usesTile (m : CmdMsg) : Bool :=
  match decode m.word with
  | .ok i => usesOwnTile i
  | .error _ => false

/-- The spilled entries of every set that has free ways take them, oldest first (R243). -/
def Elem.reloadAll (e : Elem) : Elem :=
  (upTo 8).foldl (fun (e : Elem) n => (upTo 8).foldl (fun (e : Elem) _ => e.reload n) e) e

/-- A command reaches its engine; one for an engine-owned tile counts from now, also where a completion of
the same cycle would give the tile back (R166, R168). -/
def Run.addCommand (x : Run) (now n key : Nat) (m : CmdMsg) : Run :=
  let counts := m.usesTile && match x.tiles.find key with
    | some t => t.engine || t.freed = some now
    | none => false
  { x with
    cmds := x.cmds.put n
      ⟨key, m, .queued, Prog.zero, 0, 0, if counts then [key] else [], false, none⟩
    tiles := if counts then x.tiles.edit key fun t => { t with engine := true, uses := t.uses + 1 } else x.tiles }

/-- A token reaches its destination (R21, R34).  It is delivered in the colour an alias names
(R397); tokens of a killed colour are discarded (R120); COMMAND tokens join an engine's queue
(R166); tokens no port reads, and COMMAND tokens at a lace element or a seam, are discarded and trap
(R30, R82, R112, R249). -/
def State.deliver (s : State) (f0 : Flit) : State :=
  let x := s.run f0.run
  let c := s.ctx x.ctx
  let f := { f0 with colour := c.resolve f0.colour }
  let site := siteOf f.dst
  if x.deaf (partOf f.dst) then s
  else if f.port = 3 then (s.softError f.run f.dst).trapDiscarded f
  else match f.cmd with
    | some m =>
      let (n, s) := s.takeId
      s.editRun f.run fun y => y.addCommand s.cycle n f.dst m
    | none =>
      if f.tok.kind = .command then s.trapDiscarded f
      else if f.outer && f.colour != 0 && (c.colour f.colour).state = .free then s.trapDiscarded f
      else if (c.colour f.colour).state = .killed then s
      else
        let s := if f.outer then s.taint f.run f.colour else s
        match siteKind site with
        | .lace =>
          let e := s.elem f.run f.dst
          let rd := e.reads f.slot
          if !rd.any && !rd.reads f.port then s.trapDiscarded f
          else if f.port = 1 && e.isThrottle f.slot then s.notice f
          else s.storeToken f
        | .seam =>
          if f.slot > 7 || f.port > 1 then s.trapDiscarded f
          else s.editRun f.run fun y =>
            { y with seams := y.seams.edit f.dst fun z =>
                { z with inputs := z.inputs ++ [⟨f.slot + 8 * f.port, f.colour, f.iter, f.tok⟩] } }
        | _ => s.trapDiscarded f

/-! ## Emission, R34, R89, R101 -/

/-- Clear one bit of a mask. -/
def dropBit (m k : Nat) : Nat := if nbit m k then m - 2 ^ k else m

/-- A hold register is written in a cycle; what it held before the cycle is kept (R35). -/
def Elem.setHold (e : Elem) (now k : Nat) (v : Word) : Elem :=
  let was := if e.beforeAt = now then e.before else []
  { e with
    holds := listSet e.holds k v
    holdsBad := dropBit e.holdsBad k
    beforeAt := now
    before := match was.find k with
      | some _ => was
      | none => was.put k ((e.holds[k]?).getD 0) }

/-- What a firing of a cycle reads of a hold register: the value before a write of the same cycle (R35). -/
def Elem.holdAt (e : Elem) (now k : Nat) : Word :=
  let v := (e.holds[k]?).getD 0
  if e.beforeAt = now then (e.before.find k).getD v else v

/-- A hold register of the firing's element, as a firing of this cycle reads it (R35, R271). -/
def State.hold (s : State) (f : Firing) (k : Nat) : Word := (s.elem f.run f.elem).holdAt s.cycle k

/-- A token written to a hold register (R65, R101, R271): a NULL nulls it, any other writes it. -/
def State.writeHold (s : State) (r e k colour iter : Nat) (t : Tok) : State :=
  s.editElem r e fun x =>
    let x := if t.kind = .null then x else x.setHold s.cycle k t.val
    match x.actOf colour iter with
    | some a => x.editAct a.uid fun a => { a with holds := setBit a.holds k }
    | none => x

/-- Tokens of the urgent channel (R22). -/
def Flit.urgent (f : Flit) : Bool := f.tok.kind == .poison || f.tok.kind == .kill

/-- A KILL token of an earlier wave from an element has yet to reach a place; `n` is the number of what
comes after it (R25, R120). -/
def State.killBefore (s : State) (n r src dst : Nat) : Bool :=
  s.waves.any fun w => w.1 < n && w.2.run = r && w.2.src = src && w.2.todo.contains dst

/-- A token from the same element, for the same element, on the same channel, was emitted earlier
(R22, R25). -/
def State.behind (s : State) (n : Nat) (f : Flit) : Bool :=
  (s.flits.any fun g =>
    g.1 < n && g.2.run = f.run && g.2.src = f.src && g.2.dst = f.dst && g.2.urgent == f.urgent) ||
  (f.urgent && s.killBefore n f.run f.src f.dst)

/-- A token enters the mesh, or bypasses it to a slot of its own element (R34), unless one that was emitted
earlier is still on its way there (R25); the tokens of a reply that reaches a frozen launch wait in its inbox
(R362). -/
def State.inject (s : State) (fl : Flit) : State :=
  if (s.run fl.run).state = .frozen then
    let (n, s) := s.takeId
    s.editRun fl.run fun x => { x with inbox := x.inbox.put n fl }
  else if fl.dst = fl.src && !s.behind s.nextId fl then s.deliver fl
  else
    let (n, s) := s.takeId
    s.addFlit n fl

/-- Emit a token to one target, in a colour and with a tag: a hold register and a slot of the same
element receive it in the emit cycle, any other place through the mesh (R34).  A token of a killed colour
writes no hold register (R120, R121). -/
def State.emitAs (s : State) (f : Firing) (t : Option Target) (tok : Tok) (colour iter : Nat) :
    State :=
  match t with
  | none => s
  | some (.hold k) =>
    let c := s.ctx (s.run f.run).ctx
    let n := c.resolve colour
    if (c.colour n).state = .killed then s else s.writeHold f.run f.elem k.toNat n iter tok
  | some (.site p slot dx dy) =>
    s.inject ⟨f.run, f.elem, targetKey f.elem dx dy, slot.toNat, p.toBits.toNat, (s.run f.run).ctx,
      colour, iter, tok, none, false, false⟩

/-- Emit a token to one target with the firing's colour and tag (R101). -/
def State.emit (s : State) (f : Firing) (t : Option Target) (tok : Tok) : State :=
  s.emitAs f t tok f.colour f.iter

/-- Emit a token to TA and to TB (R101). -/
def State.emitOut (s : State) (f : Firing) (o : Out) (tok : Tok) : State :=
  (s.emit f o.ta tok).emit f o.tb tok

/-- TA and TB of a command as an `Out`. -/
def cmdOut (c : Cmd) : Out := ⟨c.ta, c.tb, c.pred⟩

/-- The targets of an instruction word. -/
def outOf : Instr → Out
  | .mov o _ | .mov3 o _ | .const o _ | .constor o _ | .nullt o _ | .iter o _ | .iterread o _
  | .colnew o _ | .colfree o _ | .exit o _ | .kindq o _ | .stopt o _ | .kill o _ | .retire o _
  | .steer o _ | .steern o _ | .select o _ | .iterset o _ | .retag o _ | .gate o _
  | .throttle o _
  | .add o _ | .sub o _ | .mul o _ | .mulh o _ _ | .div o _ _ _ | .rem o _ _ _ | .and o _ | .or o _
  | .xor o _ | .andn o _ | .shl o _ | .shr o _ | .sar o _ | .rol o _ | .min o _ _ | .max o _ _
  | .cmp o _ _ | .test o _ _ | .adds o _ _ | .subs o _ _
  | .abs o _ | .neg o _ | .clz o _ | .popc o _ | .brev o _ | .base o _ | .extr o _ _ _
  | .unpk o _ _ _
  | .lea o _ _ | .shape o _ _ | .ins o _ _ | .pack o _
  | .fadd o _ | .fsub o _ | .fmul o _ | .fma o _ _ _ _ | .fdiv o _ _ _ | .fmin o _ _ _
  | .fmax o _ _ _ | .fcmp o _ _ _ _
  | .fsgn o _ _ _
  | .fsqrt o _ _ _ | .fcvt o _ _ _ _ | .ftoi o _ _ _ | .itof o _ _ _ | .fexp2 o _ _ _
  | .flog2 o _ _ _ | .frcp o _ _ _ | .frsq o _ _ _ | .fsinp o _ _ _ | .fcosp o _ _ _
  | .fclass o _ _
  | .ld o _ _ | .vers o _ | .ldd o _ | .pref o _ _ | .fence o _ _ _ _ | .xread o _ _
  | .st o _ _ | .ldv o _ _ | .stv o _ _ | .vset o _ | .std o _ | .aadd o _ _ | .aand o _ _
  | .aor o _ _ | .axor o _ _ | .amin o _ _ | .amax o _ _ | .aswap o _ _ | .acas o _ _ _ _ _
  | .afadd o _ _ | .xinit o _ _ | .xacc o _ _ | .aincw o _ _ | .aser o _ _ | .bar o _ | .post o _
  | .signal o _ | .arm o _ | .cancel o _ _ | .doneq o _ _ | .kvcommit o _ _ | .ldk o _ _ _ _
  | .cycle o _ | .waitt o _ | .permit o _ | .take o _ | .strset o _ _ _ | .strocc o _ _ _
  | .strclose o _
  | .trap o _ | .rds o _ | .wrs o _ | .flags o _ | .site o _ | .perf o _ | .brk o _ | .tret o _
  | .assert o _
  | .tskip o _ => o
  | .send p _ | .sendx p _ => ⟨none, none, p⟩
  | .own c | .ownToLace c | .seamin c _ _ _ | .seamout c _ _ | .mzero c _ | .mzeroAuto c _ | .mldb c
  | .mldc c _ | .mma c _ | .mmas c _ | .mmax3 c _ | .mout c _ _ _ _ | .mrow c _ | .mrowReadProgress c
  | .mscale c | .mbmap c | .vmap c _ | .vfma c _ | .vred c _ | .vscan c _ | .vsoft c _ | .vnorm c _
  | .cvt c _ _ _ | .vcmp c _ | .vsel c _ | .vrope c _ | .tshape c _ | .tread c _ | .twrite c _
  | .tcomp c _ | .texp c _ _ | .trot c _ | .twin c _ | .tzmap c _ | .tsacc c _ _ | .trep c _
  | .trmw c _ _ | .tfill c _ | .cpy c _ _ | .cpySetLpitch c _ _ | .cpySetLtask c _ _ | .cpyg c _
  | .cpys c _ | .cpy2d c _ _ | .cpyq c | .camld c _ | .camset c _ _ | .camsetRead c _ _
  | .camcomp c _ _ _ | .pgather c _ _ | .pray c _ _ | .pscat c _ _ _ | .pstore c | .pstat c _
  | .pclear c | .pprior c | .topk c | .sample c | .sampleSetStemp c | .sampleSetStopp c | .accept c
  | .resid c | .draw c | .treemask c | .drawtab c | .isect c | .union c | .seampol c | .cmpr c =>
    cmdOut c
  | _ => ⟨none, none, false⟩

/-- The third target of MOV3 (R84); no other instruction has one. -/
def thirdOf : Instr → Option Target
  | .mov3 _ t => t
  | _ => none

/-- Emit a token to every valid target of an instruction. -/
def State.emitAll (s : State) (f : Firing) (i : Instr) (tok : Tok) : State :=
  (s.emitOut f (outOf i) tok).emit f (thirdOf i) tok

/-! ## The frame of a firing's execution -/

/-- The result of a row: a next state. -/
abbrev Result := Host.Outcome State Fault Refusal

/-- Execute for the firing in focus: the element is idle again, and `k` gives the rest. -/
def onFiring (s : State) (k : State → Firing → State) : Result :=
  match s.focus with
  | .firing f => .next (k s.idle f)
  | _ => .fault .noAgent

/-- The word of the slot that a firing executes (R63). -/
def State.slotWord (s : State) (f : Firing) : Word :=
  ((s.elem f.run f.elem).slots[f.slot]?).getD 0

/-- A word that decoding refuses, or that an error has hit, traps ILLEGAL with the word, and counts; the
tokens that reached it are discarded, nothing is parked, and resuming the trap only ends its presentation (R80,
R163). -/
def State.illegalWord (s : State) (f : Firing) (w : Word) : State :=
  let s := s.idle.softError f.run f.elem
  s.trap f.run (s.trapRecord f 0x01 w .nothing)

/-- The payload of an operand; a port that holds no token reads 0. -/
def valOf : Option Tok → Word
  | some t => t.val
  | none => 0

def Firing.lv (f : Firing) : Word := valOf f.l
def Firing.rv (f : Firing) : Word := valOf f.r

/-- The left token of a firing. -/
def Firing.lt (f : Firing) : Tok := f.l.getD Tok.nul

/-- The left token as an instruction passes it on: a REL mark and a recorded address are of the
token received, not of the one sent (R26, R393).  DESIGN CHOICE: it keeps its OUTSIDE bit, of which the
rules of carrying do not speak (R26, R101, R104; log 71). -/
def Tok.carry (t : Tok) : Tok := { t with rel := false, paddr := 0 }

end Sys2Proof.Machine
end

