-- ==== Sys2Proof/Machine/Flags.lean ====
section
/-! DEFINITION. The flag computations: which sticky flag a result raises (R52, R129) and the
rounding mode a float operation uses (R51). -/

namespace Sys2Proof.Machine

/-- A flag raised under a condition. -/
def flagIf (c : Bool) (fl : Nat) : Nat := if c then fl else 0

/-- SAT, once, when any lane of a saturating operation clamps (R129). -/
def satFlag (clamped : List Bool) : Nat := flagIf (clamped.any id) SAT

/-- The flags of several lanes together. -/
def orAll (fls : List Nat) : Nat := fls.foldl (· ||| ·) 0

/-- The rounding mode of a code of ROUND (R51). -/
def rmodeOf (n : Nat) : RMode :=
  match n % 4 with
  | 0 => .rne
  | 1 => .rtz
  | 2 => .rdn
  | _ => .rup

/-- The rounding mode of a slot: its own, or ROUND of the context (R51). -/
def State.roundOf (s : State) (r : Nat) : Rounding → RMode
  | .fixed m => m
  | .dyn => rmodeOf (s.ctx (s.run r).ctx).regs.round

end Sys2Proof.Machine
end

