-- ==== Sys2Proof/Machine/Operands.lean ====
section
/-! DEFINITION. The operand forms: lanes of a payload, immediates, and the shapes of the
instructions that compute on them (R72, R73, R75, R101, R102, R124). -/

namespace Sys2Proof.Machine

/-! ## Lanes -/

/-- The lanes of width `w` of a payload, lane 0 first (R124). -/
def lanesOf (w : Nat) (x : Word) : List Nat := (upTo (64 / w)).map fun k => bits x (k * w) w

/-- The payload of lanes of width `w`, lane 0 first. -/
def joinNat (w : Nat) : List Nat → Nat
  | [] => 0
  | x :: xs => x % 2 ^ w + 2 ^ w * joinNat w xs

def joinLanes (w : Nat) (xs : List Nat) : Word := word (joinNat w xs)

/-- The immediate of R75 as a payload: sign-extended to the lane width and, in a packed form,
replicated into every lane (R124). -/
def immWord (w : Nat) (packed : Bool) (imm : BitVec 16) : Word :=
  if packed then joinLanes w (List.replicate (64 / w) (lowBits w imm.toInt)) else wordI imm.toInt

/-- The right operand of an integer instruction: the immediate, or the right payload (R75). -/
def intRight (f : IntForm) (r : Word) : Word :=
  if f.immOn then immWord f.sz.bits f.packed f.imm else r

/-- Apply a lane function of two operands: to every lane in a packed form, else to the low bits,
with the result sign-extended (R124). -/
def intMap2 (w : Nat) (packed : Bool) (g : Nat → Nat → Nat) (l r : Word) : Word :=
  if packed then joinLanes w (List.zipWith g (lanesOf w l) (lanesOf w r))
  else sextWord w (g (bits l 0 w) (bits r 0 w))

/-- The same for one operand. -/
def intMap1 (w : Nat) (packed : Bool) (g : Nat → Nat) (l : Word) : Word :=
  if packed then joinLanes w ((lanesOf w l).map g) else sextWord w (g (bits l 0 w))

/-! ## Shapes of instructions -/

/-- A compute instruction without flags: the value goes to TA and TB as data (R101, R102). -/
def computing (o : Out) (v : State → Firing → Word) (s : State) : Result :=
  onFiring s fun s f => s.emitOut f o (Tok.data (v s f))

/-- A compute instruction whose firing raises flags. -/
def computingFl (o : Out) (v : State → Firing → Word × Nat) (s : State) : Result :=
  onFiring s fun s f =>
    let (x, fl) := v s f
    (s.raise f fl).emitOut f o (Tok.data x)

/-- A carry instruction that passes its left token on (R101, R102). -/
def carrying (o : Out) (s : State) : Result :=
  onFiring s fun s f => s.emitOut f o f.lt.carry

end Sys2Proof.Machine
end

