-- ==== Sys2Proof/Machine/Integer.lean ====
section
/-! DEFINITION. Integer and logic, address and field instructions: opcodes 0x20 to 0x3F (R124 to
R135). -/

namespace Sys2Proof.Machine

/-! ## Lane functions, R126 to R130 -/

/-- High `w` bits of the product (R126). -/
def mulHigh (u : Bool) (w a b : Nat) : Nat :=
  if u then a * b / 2 ^ w
  else lowBits w ((sextInt w a * sextInt w b) / (2 : Int) ^ w)

/-- A shift to the right with the sign bit shifted in (R126). -/
def sarLane (w a b : Nat) : Nat := lowBits w (sextInt w a / (2 : Int) ^ (b % w))

def rolLane (w a b : Nat) : Nat := (a * 2 ^ (b % w)) % 2 ^ w + a / 2 ^ (w - b % w)

/-- The order of two lanes, signed or unsigned (R126, R128). -/
def lessLane (u : Bool) (w a b : Nat) : Bool :=
  if u then a % 2 ^ w < b % 2 ^ w else sextInt w a < sextInt w b

def minLane (u : Bool) (w a b : Nat) : Nat := if lessLane u w b a then b else a
def maxLane (u : Bool) (w a b : Nat) : Nat := if lessLane u w a b then b else a

/-- The condition codes of R72 on two lanes (R128). -/
def condLane (cc : Cond) (w a b : Nat) : Bool :=
  let eq := a % 2 ^ w == b % 2 ^ w
  match cc with
  | .eq => eq
  | .ne => !eq
  | .lt => lessLane false w a b
  | .le => lessLane false w a b || eq
  | .gt => !(lessLane false w a b || eq)
  | .ge => !lessLane false w a b
  | .ltu => lessLane true w a b
  | .leu => lessLane true w a b || eq

/-- The exact sum or difference clamped to the range of the lane, and whether it was (R129). -/
def satLane (sub u : Bool) (w a b : Nat) : Nat × Bool :=
  let x : Int := if u then (a % 2 ^ w : Nat) else sextInt w a
  let y : Int := if u then (b % 2 ^ w : Nat) else sextInt w b
  let z := if sub then x - y else x + y
  let c := if u then clampInt z 0 ((2 : Int) ^ w - 1)
    else clampInt z (-((2 : Int) ^ (w - 1))) ((2 : Int) ^ (w - 1) - 1)
  (lowBits w c, decide (c ≠ z))

/-- Leading zeros of the low `w` bits (R130). -/
def clzLane (w a : Nat) : Nat := if a % 2 ^ w = 0 then w else w - 1 - Nat.log2 (a % 2 ^ w)

def popLane (w a : Nat) : Nat := ((upTo w).filter fun k => nbit a k).length

def revLane (w a : Nat) : Nat :=
  (upTo w).foldl (fun n k => if nbit a k then n + 2 ^ (w - 1 - k) else n) 0

/-! ## Binary and unary operations, R126, R128, R130 -/

/-- The result of a binary operation of a form (R124, R126). -/
def intApply (f : IntForm) (g : Nat → Nat → Nat → Nat) (x : Firing) : Word :=
  intMap2 f.sz.bits f.packed (g f.sz.bits) x.lv (intRight f x.rv)

def unApply (f : UnForm) (g : Nat → Nat → Nat) (x : Firing) : Word :=
  intMap1 f.sz.bits f.packed (g f.sz.bits) x.lv

def execAdd (o : Out) (f : IntForm) (s : State) : Result :=
  computing o (fun _ x => intApply f (fun _ a b => a + b) x) s

def execSub (o : Out) (f : IntForm) (s : State) : Result :=
  computing o (fun _ x => intApply f (fun w a b => a + 2 ^ w - b) x) s

def execMul (o : Out) (f : IntForm) (s : State) : Result :=
  computing o (fun _ x => intApply f (fun _ a b => a * b) x) s

def execMulh (o : Out) (f : IntForm) (u : Bool) (s : State) : Result :=
  computing o (fun _ x => intApply f (mulHigh u) x) s

def execAnd (o : Out) (f : IntForm) (s : State) : Result :=
  computing o (fun _ x => intApply f (fun _ a b => Nat.land a b) x) s

def execOr (o : Out) (f : IntForm) (s : State) : Result :=
  computing o (fun _ x => intApply f (fun _ a b => Nat.lor a b) x) s

def execXor (o : Out) (f : IntForm) (s : State) : Result :=
  computing o (fun _ x => intApply f (fun _ a b => Nat.xor a b) x) s

def execAndn (o : Out) (f : IntForm) (s : State) : Result :=
  computing o (fun _ x => intApply f (fun w a b => Nat.land a (2 ^ w - 1 - b)) x) s

def execShl (o : Out) (f : IntForm) (s : State) : Result :=
  computing o (fun _ x => intApply f (fun w a b => a * 2 ^ (b % w)) x) s

def execShr (o : Out) (f : IntForm) (s : State) : Result :=
  computing o (fun _ x => intApply f (fun w a b => a / 2 ^ (b % w)) x) s

def execSar (o : Out) (f : IntForm) (s : State) : Result :=
  computing o (fun _ x => intApply f (sarLane) x) s

def execRol (o : Out) (f : IntForm) (s : State) : Result :=
  computing o (fun _ x => intApply f (rolLane) x) s

def execMin (o : Out) (f : IntForm) (u : Bool) (s : State) : Result :=
  computing o (fun _ x => intApply f (minLane u) x) s

def execMax (o : Out) (f : IntForm) (u : Bool) (s : State) : Result :=
  computing o (fun _ x => intApply f (maxLane u) x) s

def execAbs (o : Out) (f : UnForm) (s : State) : Result :=
  computing o (fun _ x => unApply f (fun w a => (sextInt w a).natAbs) x) s

def execNeg (o : Out) (f : UnForm) (s : State) : Result :=
  computing o (fun _ x => unApply f (fun w a => 2 ^ w - a) x) s

def execClz (o : Out) (f : UnForm) (s : State) : Result :=
  computing o (fun _ x => unApply f (clzLane) x) s

def execPopc (o : Out) (f : UnForm) (s : State) : Result :=
  computing o (fun _ x => unApply f (popLane) x) s

def execBrev (o : Out) (f : UnForm) (s : State) : Result :=
  computing o (fun _ x => unApply f (revLane) x) s

/-- CMP: 1 or 0, or lanes of all ones or all zeros in packed form (R128). -/
def cmpWord (f : IntForm) (cc : Cond) (x : Firing) : Word :=
  let w := f.sz.bits
  if f.packed then intApply f (fun w a b => if condLane cc w a b then 2 ^ w - 1 else 0) x
  else if condLane cc w (bits x.lv 0 w) (bits (intRight f x.rv) 0 w) then 1 else 0

def execCmp (o : Out) (f : IntForm) (cc : Cond) (s : State) : Result :=
  computing o (fun _ x => cmpWord f cc x) s

def testWord (f : IntForm) (ne : Bool) (x : Firing) : Word :=
  let w := f.sz.bits
  if (Nat.land (bits x.lv 0 w) (bits (intRight f x.rv) 0 w) == 0) != ne then 1 else 0

def execTest (o : Out) (f : IntForm) (ne : Bool) (s : State) : Result :=
  computing o (fun _ x => testWord f ne x) s

/-! ## Division, R127 -/

/-- Quotient and remainder of two lanes, the divisor not 0: truncation towards zero (R127). -/
def divRem (u : Bool) (w a b : Nat) : Nat × Nat :=
  if u then (a / b, a % b)
  else (lowBits w (Int.tdiv (sextInt w a) (sextInt w b)),
    lowBits w (Int.tmod (sextInt w a) (sextInt w b)))

/-- DIV and REM: a divisor of 0 gives the defined result under .zdef and else traps DIVZERO with the
divisor (R127).  DESIGN CHOICE: below 64 bits TRAPINFO holds the whole right operand (log 91). -/
def dividing (o : Out) (f : IntForm) (u zdef rem : Bool) (s : State) : Result :=
  onFiring s fun s x =>
    let w := f.sz.bits
    let a := bits x.lv 0 w
    let b := bits (intRight f x.rv) 0 w
    if b = 0 then
      if zdef then s.emitOut x o (Tok.data (sextWord w (if rem then a else 2 ^ w - 1)))
      else s.park x 0x05 (intRight f x.rv)
    else
      let (q, r) := divRem u w a b
      s.emitOut x o (Tok.data (sextWord w (if rem then r else q)))

def execDiv (o : Out) (f : IntForm) (u zdef : Bool) (s : State) : Result :=
  dividing o f u zdef false s

def execRem (o : Out) (f : IntForm) (u zdef : Bool) (s : State) : Result :=
  dividing o f u zdef true s

/-! ## Saturating sums, R129 -/

def satWord (f : IntForm) (sub u : Bool) (x : Firing) : Word × Nat :=
  let w := f.sz.bits
  let r := intRight f x.rv
  if f.packed then
    let ys := List.zipWith (satLane sub u w) (lanesOf w x.lv) (lanesOf w r)
    (joinLanes w (ys.map Prod.fst), satFlag (ys.map Prod.snd))
  else
    let (y, c) := satLane sub u w (bits x.lv 0 w) (bits r 0 w)
    (sextWord w y, satFlag [c])

def execAdds (o : Out) (f : IntForm) (u : Bool) (s : State) : Result :=
  computingFl o (fun _ x => satWord f false u x) s

def execSubs (o : Out) (f : IntForm) (u : Bool) (s : State) : Result :=
  computingFl o (fun _ x => satWord f true u x) s

/-! ## Addresses and fields, R131 to R135 -/

def execLea (o : Out) (sz : Width) (k : BitVec 3) (s : State) : Result :=
  computing o (fun _ x =>
    x.lv + wordI (sextInt sz.bits (bits x.rv 0 sz.bits) * (2 : Int) ^ k.toNat)) s

/-- BASE reads an argument word of the launch; one that was not given reads 0 (R132). -/
def execBase (o : Out) (n : BitVec 4) (s : State) : Result :=
  computing o (fun s x => ((s.run x.run).args[n.toNat]?).getD 0) s

def execShape (o : Out) (sz : Width) (m : BitVec 16) (s : State) : Result :=
  computing o (fun _ x =>
    wordI (sextInt sz.bits (bits x.lv 0 sz.bits) * (m.toNat : Int) +
      sextInt sz.bits (bits x.rv 0 sz.bits))) s

def extrWord (pos len : Nat) (sx : Bool) (l : Word) : Word :=
  let f := bits l pos len
  if sx && len < 64 then sextWord len f else word f

def execExtr (o : Out) (pos len1 : BitVec 6) (sx : Bool) (s : State) : Result :=
  computing o (fun _ x => extrWord pos.toNat (len1.toNat + 1) sx x.lv) s

/-- The mask of `len` ones from a position. -/
def fieldMask (pos len : Nat) : Word := word ((2 ^ len - 1) * 2 ^ pos)

def execIns (o : Out) (pos len1 : BitVec 6) (s : State) : Result :=
  computing o (fun _ x =>
    let m := fieldMask pos.toNat (len1.toNat + 1)
    (x.lv &&& ~~~m) ||| ((x.rv <<< pos.toNat) &&& m)) s

def execPack (o : Out) (f : PackForm) (s : State) : Result :=
  computing o (fun _ x =>
    word (bits x.lv 0 f.sz.bits + bits x.rv 0 f.sz.bits * 2 ^ f.sz.bits)) s

/-- Lane `k` of a payload, zero- or sign-extended (R135). -/
def laneWord (w k : Nat) (sx : Bool) (l : Word) : Word :=
  if sx then sextWord w (bits l (k * w) w) else word (bits l (k * w) w)

def execUnpk (o : Out) (sz : Width) (k : BitVec 3) (sx : Bool) (s : State) : Result :=
  onFiring s fun s x =>
    (s.emit x o.ta (Tok.data (laneWord sz.bits k.toNat sx x.lv))).emit x o.tb
      (Tok.data (laneWord sz.bits (k.toNat + 1) sx x.lv))

end Sys2Proof.Machine
end

