-- ==== Sys2Proof/Machine/Far.lean ====
section
/-! DEFINITION. What leaves the device: whether a device is reached, and the packets of far requests
and far tokens before they have a serial (R111 to R113, R371 to R374, R405). -/

namespace Sys2Proof.Machine

/-- The code of a link that is up (R411). -/
def linkUp : Nat := 2

/-- Some hawser route leads to the device; a token sent over links that are down is sent again (R113, R405). -/
def State.routed (s : State) (dev : Nat) : Bool := s.links.any fun l => Config.linkRoutes dev l.1

/-- A hawser route to the device runs over a link that is up (R405). -/
def State.reaches (s : State) (dev : Nat) : Bool :=
  s.links.any fun l => l.2.state == linkUp && Config.linkRoutes dev l.1

/-- A device id names this device: 0xFF and its own id do (R111, R144). -/
def State.isOwnDevice (s : State) (dev : Nat) : Bool := dev = 255 || dev = s.life.devid

/-- A packet of a context to another device, before it has a serial. -/
def State.packetTo (s : State) (c dev : Nat) (body : PacketBody) : Packet :=
  ⟨s.life.devid, dev, (s.ctx c).far.id, 0, 0, body⟩

/-- The serialled requests on a requester's outstanding list (R372, R373). -/
def FarState.serials (f : FarState) : List FarReq := f.outstanding.filter FarReq.serialled

/-- The full serial of the next request (R372). -/
def FarState.fullNext (f : FarState) : Nat := f.lap * 65536 + f.serialNext

/-- The full mark: the lowest serial on the outstanding list, or the next one (R372). -/
def FarState.fullMark (f : FarState) : Nat :=
  match f.serials with
  | q :: _ => q.fs
  | [] => f.fullNext

/-- The window and the list have room for one more serial, beside `n` requests that wait for theirs (R373). -/
def FarState.roomBeside (f : FarState) (n : Nat) : Bool :=
  (f.serialNext + n + 65536 - f.fullMark % 65536) % 65536 < 32767 && f.serials.length + n < 1024

/-- The window and the list have room for one more serial (R373). -/
def FarState.windowOpen (f : FarState) : Bool := f.roomBeside 0

/-- An engine may form one more far write: its serial will have room (R373). -/
def FarState.mayForm (f : FarState) : Bool :=
  f.roomBeside (f.waiting.filter fun w => w.2.serialled).length

/-- Operation codes of requests: the slot opcode (R79, R374). -/
def opSignal : Nat := 0x8C

/-- A far request joins those that wait for the window (R373). -/
def State.addFar (s : State) (c : Nat) (w : FarWait) : State :=
  let (n, s) := s.takeId
  s.editCtx c fun x => { x with far := { x.far with waiting := x.far.waiting.put n w } }

/-- Bits [63:0] of a token sent to a destination word of another device (R26, R111, R113). -/
def farTokenBits (c : Nat) (dest : Word) (t : Tok) : Word :=
  word (c % 64 * 2 ^ 58 + bits dest 0 10 * 2 ^ 48 + bits dest 32 16 * 2 ^ 32 +
    bits dest 10 22 * 2 ^ 10 + t.kind.code * 2 ^ 7 + t.level % 8 * 2 ^ 4 +
    (if t.outside then 4 else 0))

/-- Hand a token for another device to the transport, and wait where the window is full (R113,
R373). -/
def State.sendFarToken (s : State) (f : Firing) (dest : Word) (t : Tok) : State :=
  let c := (s.run f.run).ctx
  let dev := bits dest 56 8
  (s.taint f.run f.colour).addFar c
    ⟨s.packetTo c dev (.token dest t.val (farTokenBits c dest t)), true, 0,
      some (f, ⟨none, none, false⟩)⟩

/-! ## Replies of owners, R374, R376 -/

/-- A packet leaves over a link that is up; where none is, it is lost (R15, R405). -/
def State.sendPacket (s : State) (p : Packet) : State :=
  if s.reaches p.dst then { s with packetsOut := s.packetsOut ++ [p] } else s

/-- A reply to a packet. -/
def State.answerTo (s : State) (p : Packet) (body : PacketBody) : State :=
  s.sendPacket ⟨s.life.devid, p.src, p.id, p.fs, 0, body⟩

/-- The result of a request. -/
def resultOf (p : Packet) (v : Word) (fl kind : Nat) (bar : Option (Nat × Nat)) : FarEntry :=
  ⟨p.fs, v, fl, kind, p.src, bar⟩

/-- Reply with the result of an entry; a BAR that still waits gets none (R157, R376). -/
def State.replyEntry (s : State) (p : Packet) (e : FarEntry) (block : List Byte) : State :=
  match e.bar with
  | some _ => s
  | none => s.answerTo p (.reply e.result e.flags e.kind block)

end Sys2Proof.Machine
end

