-- ==== Sys2Proof/Machine/Translate.lean ====
section
/-! DEFINITION. From an effective address to a home: the tile window, the cached translations
and the fault log (R144, R272, R359, R367, R369, R370). -/

namespace Sys2Proof.Machine

/-- The home address of a far block: 2^80 plus the effective address. -/
def farHome (ea : Nat) : Nat := 2 ^ 80 + ea

def isFarHome (a : Nat) : Bool := a ≥ 2 ^ 80

/-! ## The tile window, R272 -/

/-- The home address of a window offset, where it names a tile of the launch (R272, R359). -/
def Run.windowHome (x : Run) (r off : Nat) : Option Nat :=
  let part := nbits off 26 5
  let clu := nbits off 22 4
  let ring := nbits off 19 3
  match x.parts[part]? with
  | none => none
  | some p =>
    if clu < p.w * p.h && nbit ((p.masks[clu]?).getD 0) ring then
      some (tileHome r part clu ring (off % 2 ^ 19))
    else none

/-! ## The fault log, R370 -/

/-- The number of records a fault log holds. -/
def Ctx.logSize (c : Ctx) : Nat := 2 ^ (c.fllog + 1)

/-- The log has no room for a record (R370). -/
def Ctx.logFull (c : Ctx) : Bool := (c.flhead + 65536 - c.fltail) % 65536 = c.logSize

/-- The address of the log's next record. -/
def Ctx.logNext (c : Ctx) : Nat := bits c.flbase 0 55 + 32 * (c.flhead % c.logSize)

/-- The next record waits for the LDVs that read its block (R295, R370). -/
def State.logBusy (s : State) (c : Nat) : Bool :=
  !(s.ctx c).logFull && s.virtBusy c (s.ctx c).logNext

/-- Write a fault to the context's log, or count it lost (R370). -/
def State.logFault (s : State) (f : Firing) (ea cause level : Nat) : State :=
  let r := s.run f.run
  let c := s.ctx r.ctx
  if c.logFull then s.editCtx r.ctx fun c => { c with flovf := min (c.flovf + 1) (2 ^ 32 - 1) }
  else
    let rec_ := toBytes 8 ea ++
      toBytes 8 (s.placeWord s.life.devid f.run f.elem f.slot 0 f.colour f.iter).toNat ++
      toBytes 8 (cause % 256 + level * 256) ++ toBytes 8 r.job
    (s.virtWrite r.ctx c.logNext rec_).editCtx r.ctx fun c => { c with flhead := (c.flhead + 1) % 65536 }

/-! ## Translation -/

/-- What an address of a firing translates to. -/
inductive Trans
  | home (a : Nat)
  | far
  | miss
  | fault (cause : Nat)
  /-- a fault of a cached or walked translation, which the fault log records (R370) -/
  | logged (cause level : Nat)
  deriving DecidableEq, Repr, Inhabited

/-- The cluster whose translation cache an element uses. -/
def State.cacheOf (s : State) (r key : Nat) : Nat :=
  let p := (s.run r).part (partOf key)
  p.die * 16 + p.cluster (cluOf key)

/-- The number of clusters of a device (R4). -/
def clusterCount : Nat := 384

/-- The cache of a site's own: a frame has one in its load pipes, numbered after the clusters' (R369). -/
def State.frameCache (s : State) (r key : Nat) : Option Nat :=
  if siteKind (siteOf key) == .frame then some (clusterCount + s.cacheOf r key * 64 + siteOf key) else none

/-- Entries of a cache: 1,024 of a cluster's, 16 of a frame's (R369). -/
def cacheSize (n : Nat) : Nat := if n < clusterCount then 1024 else 16

/-- The cached translation of an address (R369). -/
def State.tlbHit (s : State) (cache c va : Nat) : Option TlbEntry :=
  s.tlb.find? fun e => e.cluster = cache && e.ctx = c && e.va ≤ va && va < e.va + e.size

/-- The checks that need no table: the canonical form and the window (R144, R272). -/
def State.untabled (s : State) (r : Nat) (ea : Nat) : Option Trans :=
  let va := ea % 2 ^ 55
  let c := (s.run r).ctx
  if nbit ea 55 then some (.fault 0x04)
  else match s.windowOffset c va with
    | some off =>
      if s.isOwnDevice (nbits ea 56 8) then
        match (s.run r).windowHome r off with
        | some a => some (.home a)
        | none => some (.fault 0x04)
      else some (.fault 0x04)
    | none => if s.isOwnDevice (nbits ea 56 8) then none else some .far

/-- Translate an address of a lace element through its cluster's cache (R144, R369). -/
def State.translate (s : State) (r key ea need : Nat) : Trans :=
  match s.untabled r ea with
  | some t => t
  | none =>
    let va := ea % 2 ^ 55
    match s.tlbHit (s.cacheOf r key) (s.run r).ctx va with
    | none => .miss
    | some e =>
      if rightsOk e.rd e.wr need then .home (e.pa + (va - e.va)) else .logged 0x04 (leafLevel e.size)

/-- The cached translation that an engine uses: a frame's own, else its cluster's (R369). -/
def State.engineHit (s : State) (r key va : Nat) : Option TlbEntry :=
  let c := (s.run r).ctx
  match s.frameCache r key with
  | some n => match s.tlbHit n c va with
    | some e => some e
    | none => s.tlbHit (s.cacheOf r key) c va
  | none => s.tlbHit (s.cacheOf r key) c va

/-- What a walk looks up: its die, the context and the granule; misses to one granule share one walk (R369). -/
def State.walkKey (s : State) (r key ea : Nat) : Nat × Nat × Nat :=
  (((s.run r).part (partOf key)).die, (s.run r).ctx, ea % 2 ^ 55 / 2 ^ 16)

/-- The walks of a die's firings (R369). -/
def State.walksOf (s : State) (die : Nat) : List (Nat × Nat × Nat) :=
  ((s.walks.map fun x => s.walkKey x.2.firing.run x.2.firing.elem x.2.ea).filter fun k =>
    k.1 = die).eraseDups

/-- The walks that a die runs at once (R369). -/
def dieWalks : Nat := 64

/-- A miss of an engine waits: for the walk of its granule, or for one of the die's walks to end (R369). -/
def State.walkWaits (s : State) (r key ea : Nat) : Bool :=
  let k := s.walkKey r key ea
  let here := s.walksOf k.1
  here.contains k || here.length ≥ dieWalks

/-- What an address of an engine translates to: by a cached entry, or as its walk finds it (R169, R367, R369). -/
def State.engineFinds (s : State) (r key ea need : Nat) : Trans :=
  match s.untabled r ea with
  | some t => t
  | none =>
    let va := ea % 2 ^ 55
    match s.engineHit r key va with
    | some e =>
      if rightsOk e.rd e.wr need then .home (e.pa + (va - e.va)) else .logged 0x04 (leafLevel e.size)
    | none => match s.walkHome (s.run r).ctx va need with
      | .ok a => .home a
      | .error (cause, level) => .logged cause level

/-- Translate an address of an engine; a miss waits while its walk cannot run (R369). -/
def State.engineHome (s : State) (r key ea need : Nat) : Trans :=
  if (s.untabled r ea).isNone && (s.engineHit r key (ea % 2 ^ 55)).isNone && s.walkWaits r key ea then .miss
  else s.engineFinds r key ea need

/-- A write of a copy of a redundant graph outside its own tiles (R399). -/
def State.outsideCopy (s : State) (r a need : Nat) : Bool :=
  (s.run r).twin.isSome && nbit need 1 &&
    !(isTileHome a && !isFarHome a && (tileOf a).1 = r)

/-- The newest entries of a cache, and every entry of the others. -/
def trimCache (cache : Nat) : Nat → List TlbEntry → List TlbEntry
  | _, [] => []
  | room, e :: es =>
    if e.cluster != cache then e :: trimCache cache room es
    else match room with
      | 0 => trimCache cache 0 es
      | k + 1 => e :: trimCache cache k es

/-- Keep an entry in a cache; a full cache gives up its oldest (R369; log 78). -/
def State.keepEntry (s : State) (e : TlbEntry) : State :=
  { s with tlb := trimCache e.cluster (cacheSize e.cluster) (e :: s.tlb) }

/-- Keep a leaf in a cache (R369). -/
def State.fillTlb (s : State) (cache c : Nat) (l : Leaf) : State :=
  s.keepEntry ⟨cache, c, l.va, l.size, l.pa, l.rd, l.wr⟩

/-- An engine has used an address: its cluster's cache holds the leaf, and a frame's is filled from it
(R369). -/
def State.engineFill (s : State) (r key ea : Nat) : State :=
  let va := ea % 2 ^ 55
  let c := (s.run r).ctx
  match s.untabled r ea with
  | some _ => s
  | none =>
    let s := match s.engineHit r key va with
      | some _ => s
      | none => match s.walk c va with
        | .ok l => s.fillTlb (s.cacheOf r key) c l
        | .error _ => s
    match s.frameCache r key, s.tlbHit (s.cacheOf r key) c va with
    | some n, some e => if (s.tlbHit n c va).isSome then s else s.keepEntry { e with cluster := n }
    | _, _ => s

/-- A retried access walks its address again: the entries that translate it for its cluster go (R370). -/
def State.dropEntries (s : State) (r key ea : Nat) : State :=
  let va := ea % 2 ^ 55
  let mine (n : Nat) : Bool := n = s.cacheOf r key || s.frameCache r key == some n
  { s with tlb := s.tlb.filter fun e =>
      !(mine e.cluster && e.ctx = (s.run r).ctx && e.va ≤ va && va < e.va + e.size) }

end Sys2Proof.Machine
end

