-- ==== Sys2Proof/Machine/Home.lean ====
section
/-! DEFINITION. What a home does with one request for one of its blocks (R42, R145, R148 to R150,
R153, R154, R157, R158, R226, R227, R282, R295, R393). -/

namespace Sys2Proof.Machine

/-- What a home answers to a request. -/
inductive HomeAns
  /-- performed: the result word, the flags, whether the result is EMPTY, the state after it -/
  | done (v : Word) (fl : Nat) (empty : Bool) (s : State)
  /-- not performed: the block is poisoned (R393) -/
  | poison
  /-- held at the home (R148) -/
  | held
  /-- an arrived BAR that waits for its generation, with the state after the arrival (R157) -/
  | arrived (gen : Nat) (s : State)
  /-- not performed: a trap at the requester -/
  | trap (cause : Nat)
  /-- LDK goes on with a load at this address (R227) -/
  | entry (ea : Word)

/-! ## New values, R153 -/

/-- ASER: v if it is ahead of m in serial arithmetic (R153). -/
def serLane (w m v : Nat) : Nat :=
  let d := (v + 2 ^ w - m) % 2 ^ w
  if 0 < d && d < 2 ^ (w - 1) then v else m

/-- The new value of an atomic on the old value `m` and the operand `v`, and its flags (R153). -/
def atomicNew (op : MemOp) (w m v : Nat) : Nat × Nat :=
  match op with
  | .aadd => ((m + v) % 2 ^ w, 0)
  | .aand => (Nat.land m v, 0)
  | .aor => (Nat.lor m v, 0)
  | .axor => (Nat.xor m v, 0)
  | .amin => (minLane false w m v, 0)
  | .amax => (maxLane false w m v, 0)
  | .aswap => (v, 0)
  | .afadd =>
    let f := if w = 64 then fp64 else fp32
    fAdd f .rne (decodeF f m) (decodeF f v)
  | .aincw => (if m ≥ v then 0 else m + 1, 0)
  | .aser => (serLane w m v, 0)
  | _ => (m, 0)

/-! ## Task and barrier words, R157, R158 -/

def taskCount (w : Nat) : Nat := w % 2 ^ 24
def taskArmed (w : Nat) : Bool := nbit w 24
def taskUnder (w : Nat) : Bool := nbit w 25
def taskNum (w : Nat) : Nat := nbits w 32 32

def mkTask (task count : Nat) (armed under : Bool) : Nat :=
  task * 2 ^ 32 + (if under then 2 ^ 25 else 0) + (if armed then 2 ^ 24 else 0) + count

/-- SIGNAL of `n` on a task word: the new word and the task to start (R158). -/
def signalWord (w n0 : Nat) : Nat × Option Nat :=
  let n := if n0 = 0 then 1 else n0
  let under := taskUnder w || n > taskCount w
  let count := taskCount w - n
  if count = 0 && taskArmed w then (mkTask (taskNum w) 0 false under, some (taskNum w))
  else (mkTask (taskNum w) count (taskArmed w) under, none)

/-- The word a home keeps in bits that the entry reserves: ignored on a write (R157). -/
def State.startTask (s : State) (home : Nat) (t : Option Nat) : State :=
  match t with
  | some n => { s with pendingStarts := s.pendingStarts ++ [(home, n)] }
  | none => s

/-- The arrival of a party giving `n` at a barrier word: the new word, and whether the generation
ends (R157). -/
def barArrive (w n : Nat) : Nat × Bool :=
  let arrived := w % 2 ^ 24 + 1
  let gen := nbits w 48 16
  if arrived ≥ n then (((gen + 1) % 65536) * 2 ^ 48 + n * 2 ^ 24, true)
  else (gen * 2 ^ 48 + n * 2 ^ 24 + arrived % 2 ^ 24, false)

/-! ## Exact-accumulate words, R154 -/

/-- XINIT under an exponent base (R154). -/
def xinitWord (b : Nat) (eacc : Int) : Option Nat :=
  let o := eacc - 64 * ((b : Int) - 127)
  if b = 255 || o < -64 || o > 63 then none else some (packResidue Cell.zero o)

/-- The accumulator exponent of a word (R50). -/
def residueEacc (b : Nat) (o : Int) : Int := 64 * ((b : Int) - 127) + o

/-- XACC of a finite term into a word: the new word and NX where bits are lost (R154). -/
def xaccWord (b w : Nat) (neg : Bool) (m : Nat) (e : Int) : Nat × Nat :=
  let (c, o) := unpackResidue w
  let (t, fl) := alignTo (signed neg m) e (residueEacc b o)
  (packResidue (c.add t) o, fl)

/-- XREAD of a word into FP64 or FP32 (R54, R154). -/
def xreadWord (f : FSpec) (b w : Nat) : Nat × Nat :=
  if b = 255 then (canonNaN f, NV)
  else
    let (c, o) := unpackResidue w
    let v := c.value
    if outOfRange v then overflowTo (if f = fp64 then 0x08 else 0x09) .rne false (decide (v < 0))
    else encodeF f .rne (.fin (decide (v < 0)) v.natAbs (residueEacc b o))

/-! ## The operations -/

/-- Requests that read (R74, R145): every other one writes the block it names. -/
def MemOp.isRead : MemOp → Bool
  | .read | .ldv | .vers | .ldd | .xread | .ldk | .doneq | .fence => true
  | _ => false

/-- An operation of a block whose FMT must be RESIDUE (R154). -/
def State.residue (s : State) (home : Nat) (k : Nat → Nat → HomeAns) : HomeAns :=
  if (s.sideOf home).fmt = 0x12 then k (s.sideOf home).scale (s.num home 8) else .trap 0x13

/-- Performed with a result and no flags. -/
def answer (v : Word) (s : State) : HomeAns := .done v 0 false s

/-- A read of `size` bytes, sign-extended (R145). -/
def State.loaded (s : State) (home size : Nat) : Word := sextWord (8 * size) (s.num home size)

/-- The home performs one request (R282).  `data` is the operand, `extra` the expected value of
ACAS. -/
def State.perform (s : State) (op : MemOp) (size home : Nat) (data extra : Word) : HomeAns :=
  let w := 8 * size
  let v := bits data 0 w
  let sb := s.sideOf home
  match op with
  | .fence | .cancel | .doneq => answer 0 s
  | .ldv =>
    if !atOrPast sb.version (bits data 0 16) then .held
    else if sb.poison then .poison else answer (s.loaded home size) s
  | _ =>
    if sb.poison && !(op = .write && size ≥ 64) then .poison
    else match op with
      | .read => answer (s.loaded home size) s
      | .write => answer 0 (s.writeNum home size v)
      | .vers => answer (word sb.version) s
      | .ldd => answer (word sb.descr) s
      | .vset => answer 0 (s.setSide home { sb with version := bits data 0 16 })
      | .std =>
        if isReservedFmt (bits data 0 5) then .trap 0x13
        else answer 0 (s.settleSide home (bits data 0 5) (bits data 8 8))
      | .stv =>
        if sb.version = bits data 48 16 then answer 1 (s.writeNum home size v) else answer 0 s
      | .acas =>
        let m := s.num home size
        if m = bits extra 0 w then answer (sextWord w m) (s.writeNum home size v)
        else answer (sextWord w m) s
      | .xinit => s.residue home fun b _ =>
        match xinitWord b data.toInt with
        | some x => answer 0 (s.writeNum home 8 x)
        | none => .trap 0x13
      | .xacc => s.residue home fun b x =>
        match decodeF (if size = 8 then fp64 else fp32) v with
        | .fin neg m e =>
          let (y, fl) := xaccWord b x neg m e
          .done 0 fl false (s.writeNum home 8 y)
        | _ => .done 0 NV false (s.settleSide home 0x12 255)
      | .xread => s.residue home fun b x =>
        let (y, fl) := xreadWord (if size = 8 then fp64 else fp32) b x
        .done (word y) fl false s
      | .bar =>
        let (x, ends) := barArrive (s.num home 8) (bits data 0 24)
        let s := s.writeNum home 8 x
        if ends then answer (word (nbits x 48 16)) s else .arrived (nbits x 48 16) s
      | .post =>
        let x := s.num home 8
        let n := taskCount x + bits data 0 24
        if n > 16777215 then .trap 0x09
        else answer 0 (s.writeNum home 8 (mkTask (taskNum x) n (taskArmed x) (taskUnder x)))
      | .signal =>
        let (x, t) := signalWord (s.num home 8) (bits data 0 24)
        answer 0 ((s.writeNum home 8 x).startTask home t)
      | .arm =>
        let n := bits data 0 24
        let t := bits data 32 32
        let s := s.writeNum home 8 (mkTask t n (n != 0) false)
        answer 0 (s.startTask home (if n = 0 then some t else none))
      | .kvcommit =>
        let commit := s.num home 4
        let cap := s.num (home + 24) 4
        let n := commit + bits data 0 32
        .done 0 (flagIf (n > cap) SAT) false (s.writeNum home 8 (min n cap))
      | .ldk =>
        if data.toNat ≥ s.num home 4 then .done 0 0 true s
        else .entry (word (s.num (home + 8) 8 + data.toNat * s.num (home + 16) 8))
      | _ =>
        let m := s.num home size
        let (y, fl) := atomicNew op w m v
        .done (sextWord w m) fl false (s.writeNum home size y)

end Sys2Proof.Machine
end

