-- ==== Sys2Proof/Machine/Access.lean ====
section
/-! DEFINITION. The memory-class instructions at their firing: checks, translation, the store buffer
and the requests to homes (R74, R144 to R158, R227, R244, R288, R289, R345). -/

namespace Sys2Proof.Machine

/-! ## The memory-class slots, R74 -/

/-- What the order of an activation's accesses needs to know of a slot. -/
structure MemSlot where
  lsid : Nat
  cls : MemClass
  op : MemOp
  ordered : Bool
  fence : Option FenceForm
  deriving DecidableEq, Repr, Inhabited

def memSlotOf (m : MemForm) (cls : MemClass) (op : MemOp) : Option MemSlot :=
  some ⟨m.lsid.toNat, cls, op, m.ord.isSome, none⟩

/-- The memory-class instructions with their class (R74). -/
def memSlot : Instr → Option MemSlot
  | .ld _ _ m => memSlotOf m .read .read
  | .st _ _ m => memSlotOf m .buffered .write
  | .ldv _ _ m => memSlotOf m .read .ldv
  | .stv _ _ m => memSlotOf m .immediate .stv
  | .vers _ m => memSlotOf m .read .vers
  | .vset _ m => memSlotOf m .buffered .vset
  | .ldd _ m => memSlotOf m .read .ldd
  | .std _ m => memSlotOf m .buffered .std
  | .pref _ l _ => some ⟨l.toNat, .read, .fence, false, none⟩
  | .fence _ form _ ordered l => some ⟨l.toNat, .read, .fence, ordered, some form⟩
  | .aadd _ _ m => memSlotOf m .immediate .aadd
  | .aand _ _ m => memSlotOf m .immediate .aand
  | .aor _ _ m => memSlotOf m .immediate .aor
  | .axor _ _ m => memSlotOf m .immediate .axor
  | .amin _ _ m => memSlotOf m .immediate .amin
  | .amax _ _ m => memSlotOf m .immediate .amax
  | .aswap _ _ m => memSlotOf m .immediate .aswap
  | .acas _ _ l _ _ ord => some ⟨l.toNat, .immediate, .acas, ord.isSome, none⟩
  | .afadd _ _ m => memSlotOf m .immediate .afadd
  | .xinit _ _ m => memSlotOf m .immediate .xinit
  | .xacc _ _ m => memSlotOf m .immediate .xacc
  | .xread _ _ m => memSlotOf m .read .xread
  | .aincw _ _ m => memSlotOf m .immediate .aincw
  | .aser _ _ m => memSlotOf m .immediate .aser
  | .bar _ m => memSlotOf m .read .bar
  | .post _ m => memSlotOf m .immediate .post
  | .signal _ m => memSlotOf m .buffered .signal
  | .arm _ m => memSlotOf m .immediate .arm
  | .cancel _ l ord => some ⟨l.toNat, .buffered, .cancel, ord.isSome, none⟩
  | .doneq _ l ord => some ⟨l.toNat, .read, .doneq, ord.isSome, none⟩
  | .kvcommit _ l _ => some ⟨l.toNat, .buffered, .kvcommit, true, none⟩
  | .ldk _ _ l _ _ => some ⟨l.toNat, .read, .ldk, true, none⟩
  | _ => none

/-- A write-class slot (R74). -/
def MemSlot.writes (m : MemSlot) : Bool := m.cls != .read

/-- Close the LSID of a memory-class slot in its activation: a write-class one counts as received or
nulled (R246). -/
def State.closeLsid (s : State) (f : Firing) (m : MemSlot) : State :=
  s.editAct f.run f.elem f.act fun a =>
    { a with
      mems := setBit a.mems m.lsid
      lsids := if m.writes then setBit a.lsids m.lsid else a.lsids }

/-- A memory-class access has been issued: its slot is resolved for the order of the activation
(R95); the LSID of an immediate write closes when its home performs it (R288). -/
def State.resolveLsid (s : State) (f : Firing) (lsid : Nat) : State :=
  s.editAct f.run f.elem f.act fun a => { a with mems := setBit a.mems lsid }

/-! ## The effective address, R144 -/

/-- left.val + offset × size, modulo 2^64 (R144). -/
def effective (l : Word) (off : Int) (unit : Nat) : Word := l + wordI (off * unit)

/-- Two ranges of bytes overlap. -/
def overlap (a n b m : Nat) : Bool := a < b + m && b < a + n

/-- The bytes an access concerns: an exact-accumulate instruction its whole 64-bit word (R154), LDK its
sequence block (R227). -/
def MemOp.span (op : MemOp) (size : Nat) : Nat :=
  match op with
  | .xinit | .xacc | .xread => 8
  | .ldk => 64
  | _ => size

def spanOf (m : MemForm) (l : Word) (unit : Nat) : Option (Nat × Nat) :=
  some ((effective l m.off.toInt unit).toNat, unit)

/-- The bytes that a memory-class instruction with this left payload concerns: address and length (R144,
R153, R154, R227). -/
def accessSpan (l : Word) : Instr → Option (Nat × Nat)
  | .ld _ sz m | .st _ sz m | .ldv _ sz m | .stv _ sz m | .aadd _ sz m | .aand _ sz m | .aor _ sz m
  | .axor _ sz m | .amin _ sz m | .amax _ sz m | .aswap _ sz m | .afadd _ sz m | .aincw _ sz m
  | .aser _ sz m => spanOf m l sz.bytes
  | .vers _ m | .vset _ m | .ldd _ m | .std _ m => spanOf m l 64
  | .xinit _ _ m | .xacc _ _ m | .xread _ _ m | .bar _ m | .post _ m | .signal _ m | .arm _ m =>
    spanOf m l 8
  | .acas _ sz _ off _ _ => some ((effective l off.toInt sz.bytes).toNat, sz.bytes)
  | .kvcommit _ _ _ | .ldk _ _ _ _ _ => some (l.toNat, 64)
  | _ => none

/-- A translation fault parks the firing; one of a table is logged (R144, R370). -/
def State.parkTrans (s : State) (f : Firing) (ea : Word) (t : Trans) : State :=
  match t with
  | .fault cause => s.park f cause ea
  | .logged cause level => (s.logFault f ea.toNat cause level).park f cause ea
  | _ => s

/-- A firing waits for the walk of its address. -/
def State.addWalk (s : State) (f : Firing) (ea : Word) (need : Nat) : State :=
  let (n, s) := s.takeId
  { s with walks := s.walks.put n ⟨f, ea.toNat, need⟩ }

/-- A translation miss counts, and waits for a walk (R162, R369). -/
def State.missed (s : State) (f : Firing) (ea : Word) (need : Nat) : State :=
  (s.editElem f.run f.elem fun e => e.count 6 1).addWalk f ea need

/-- Check and translate an address and go on with its home; a far address has its home on another
device (R144).  A redundant copy writes its own tiles only (R399). -/
def State.withHome (s : State) (f : Firing) (ea : Word) (align need : Nat)
    (k : State → Nat → State) : State :=
  if nbit ea.toNat 55 then s.park f 0x04 ea
  else if ea.toNat % align != 0 then s.park f 0x02 ea
  else match s.translate f.run f.elem ea.toNat need with
    | .home a => if s.outsideCopy f.run a need then s.park f 0x04 ea else k s a
    | .far =>
      if s.outsideCopy f.run (farHome ea.toNat) need then s.park f 0x04 ea
      else k s (farHome ea.toNat)
    | .miss => s.missed f ea need
    | .logged cause level =>
      -- a record that waits for the readers of its block keeps the firing with its walk
      if s.logBusy (s.run f.run).ctx then s.addWalk f ea need
      else s.parkTrans f ea (.logged cause level)
    | t => s.parkTrans f ea t

/-! ## Issuing -/

/-- Send a request to its home. -/
def State.addReq (s : State) (q : Req) : State :=
  let (n, s) := s.takeId
  { s with reqs := s.reqs.put n q }

/-- Issue a read (R145, R288). -/
def State.issueRead (s : State) (f : Firing) (o : Out) (op : MemOp) (ea home size : Nat)
    (data extra : Word) (lsid : Nat) (ord : Option Scope) : State :=
  (s.resolveLsid f lsid).addReq
    ⟨f, o, op, .read, ea, home, size, data, extra, lsid, ord, .pending, [], none⟩

/-- The buffered stores of a firing's activation. -/
def State.ownStores (s : State) (f : Firing) : List Store :=
  match (s.elem f.run f.elem).act f.act with
  | some a => a.stores
  | none => []

/-- An immediate write overlaps a buffered write of a lower LSID in its activation (R289). -/
def State.overlapsStore (s : State) (f : Firing) (lsid home size : Nat) : Bool :=
  (s.ownStores f).any fun st => st.lsid < lsid && overlap st.home st.size home size

/-- Issue an immediate write, or trap where it overlaps a buffered write of a lower LSID (R289). -/
def State.issueNow (s : State) (f : Firing) (o : Out) (op : MemOp) (ea home size : Nat)
    (data extra : Word) (lsid : Nat) (ord : Option Scope) : State :=
  if s.overlapsStore f lsid home (op.span size) then s.park f 0x01 (word ea)
  else (s.resolveLsid f lsid).addReq
    ⟨f, o, op, .immediate, ea, home, size, data, extra, lsid, ord, .pending, [], none⟩

/-- Entries of a store buffer itself (R271). -/
def Elem.buffered (e : Elem) : Nat :=
  e.acts.foldl (fun n a => n + (a.stores.filter fun st => st.spilled.isNone).length) 0

/-- The spill entry of a store-buffer entry, with SZ and MOD of its slot word (R63, R244). -/
def State.storeEntry (s : State) (f : Firing) (ea : Nat) (data : Word) (lsid : Nat) : List Byte :=
  let w := s.slotWord f
  toBytes 8 ea ++ toBytes 8 data.toNat ++
    toBytes 8 (lsid % 32 + bits w 50 2 * 2 ^ 5 + bits w 52 4 * 2 ^ 7 + f.colour % 1024 * 2 ^ 11 +
      f.iter % 65536 * 2 ^ 21) ++
    toBytes 8 (s.spillTag f.run f.elem (setOf f.slot f.iter f.colour) true)

/-- The completion token of an ordered buffered write is held until the write is visible (R248). -/
def State.holdRel (s : State) (f : Firing) (o : Out) (scope : Scope) (lsid : Nat) : State :=
  if o.ta.isNone && o.tb.isNone then s
  else
    let (n, s) := s.takeId
    s.editElem f.run f.elem fun e =>
      { e with helds := e.helds ++
          [(n, ⟨f, o, { Tok.data 0 with rel := true }, lsid, 0, f.act, scope⟩)] }

/-- Put a buffered write into the store buffer, or into the spill region when the buffer is full; a
full region traps SPILLFULL (R145, R244, R245).  A slot's own completion is held when it is
ordered. -/
def State.bufferWrite (s : State) (f : Firing) (o : Out) (op : MemOp) (ea home size : Nat)
    (data : Word) (lsid : Nat) (ord : Option Scope) : State :=
  let c := (s.run f.run).ctx
  let full := (s.elem f.run f.elem).buffered ≥ 64
  if full && s.spillFull c then s.park f 0x06 (s.ctx c).spillbase
  else
    let place := if full then some (s.spillPlace c) else none
    let s := match place with
      | some k => s.writeSpill c k (s.storeEntry f ea data lsid)
      | none => s
    let st : Store := ⟨f, o, op, ea, home, size, data, 0, lsid, ord, isFarHome home, place, false⟩
    let s := s.editAct f.run f.elem f.act fun a =>
      { a with
        stores := a.stores ++ [st]
        lsids := setBit a.lsids lsid
        mems := setBit a.mems lsid }
    match ord with
    | some scope => s.holdRel f o scope lsid
    | none => s

/-! ## The shapes of the instructions -/

/-- A read of an address form (R144, R147). -/
def reading (o : Out) (op : MemOp) (size : Nat) (m : MemForm) (s : State) : Result :=
  onFiring s fun s f =>
    let ea := effective f.lv m.off.toInt size
    s.withHome f ea size needRead fun s a =>
      s.issueRead f o op ea.toNat a size f.rv 0 m.lsid.toNat m.ord

/-- An immediate write (R149, R153, R154, R157). -/
def writingNow (o : Out) (op : MemOp) (size : Nat) (m : MemForm) (need : Nat) (s : State) : Result :=
  onFiring s fun s f =>
    let ea := effective f.lv m.off.toInt size
    s.withHome f ea size need fun s a =>
      s.issueNow f o op ea.toNat a size f.rv 0 m.lsid.toNat m.ord

/-- A buffered write (R145, R150, R157). -/
def writingLater (o : Out) (op : MemOp) (size : Nat) (m : MemForm) (need : Nat) (s : State) :
    Result :=
  onFiring s fun s f =>
    let ea := effective f.lv m.off.toInt size
    s.withHome f ea size need fun s a =>
      s.bufferWrite f o op ea.toNat a size f.rv m.lsid.toNat m.ord

/-! ## Memory, R147 -/

def execLd (o : Out) (sz : Width) (m : MemForm) (s : State) : Result := reading o .read sz.bytes m s

def execSt (o : Out) (sz : Width) (m : MemForm) (s : State) : Result :=
  writingLater o .write sz.bytes m needWrite s

def execLdv (o : Out) (sz : Width) (m : MemForm) (s : State) : Result := reading o .ldv sz.bytes m s

def execStv (o : Out) (sz : Width) (m : MemForm) (s : State) : Result :=
  writingNow o .stv sz.bytes m needWrite s

def execVers (o : Out) (m : MemForm) (s : State) : Result := reading o .vers 64 m s

def execVset (o : Out) (m : MemForm) (s : State) : Result := writingLater o .vset 64 m needWrite s

def execLdd (o : Out) (m : MemForm) (s : State) : Result := reading o .ldd 64 m s

/-- STD of a reserved format id raises DESCRIPTOR at its firing (R44, R150). -/
def execStd (o : Out) (m : MemForm) (s : State) : Result :=
  onFiring s fun s f =>
    let ea := effective f.lv m.off.toInt 64
    s.withHome f ea 64 needWrite fun s a =>
      if isReservedFmt (bits f.rv 0 5) then s.park f 0x13 ea
      else s.bufferWrite f o .std ea.toNat a 64 f.rv m.lsid.toNat m.ord

/-- PREF never traps and changes no visible state; its token leaves at issue (R151). -/
def execPref (o : Out) (lsid : BitVec 5) (_off : BitVec 11) (s : State) : Result :=
  onFiring s fun s f => (s.resolveLsid f lsid.toNat).emitOut f o (Tok.data 0)

/-- The code of a fence form. -/
def FenceForm.code : FenceForm → Nat
  | .full => 0
  | .acq => 1
  | .rel => 2

/-- FENCE is a request of its own that is performed once its lower side is (R152); its operand says its
form, and adds 4 for one with MOD[3] = 1, which is an acquire too (R74, R146). -/
def execFence (o : Out) (form : FenceForm) (scope : Scope) (ordered : Bool) (lsid : BitVec 5)
    (s : State) : Result :=
  onFiring s fun s f =>
    let s := if form = .acq then s
      else s.editAct f.run f.elem f.act fun a => { a with fences := a.fences ++ [(lsid.toNat, scope)] }
    s.issueRead f o .fence 0 0 0 (word (FenceForm.code form + if ordered then 4 else 0)) 0
      lsid.toNat (some scope)

/-! ## Atomics and exact accumulation, R153, R154 -/

def execAadd (o : Out) (sz : Width) (m : MemForm) (s : State) : Result :=
  writingNow o .aadd sz.bytes m needBoth s

def execAand (o : Out) (sz : Width) (m : MemForm) (s : State) : Result :=
  writingNow o .aand sz.bytes m needBoth s

def execAor (o : Out) (sz : Width) (m : MemForm) (s : State) : Result :=
  writingNow o .aor sz.bytes m needBoth s

def execAxor (o : Out) (sz : Width) (m : MemForm) (s : State) : Result :=
  writingNow o .axor sz.bytes m needBoth s

def execAmin (o : Out) (sz : Width) (m : MemForm) (s : State) : Result :=
  writingNow o .amin sz.bytes m needBoth s

def execAmax (o : Out) (sz : Width) (m : MemForm) (s : State) : Result :=
  writingNow o .amax sz.bytes m needBoth s

def execAswap (o : Out) (sz : Width) (m : MemForm) (s : State) : Result :=
  writingNow o .aswap sz.bytes m needBoth s

/-- ACAS has an 8-bit offset and takes its expected value from a hold register (R74, R153). -/
def execAcas (o : Out) (sz : Width) (lsid : BitVec 5) (off : BitVec 8) (k : BitVec 3)
    (ord : Option Scope) (s : State) : Result :=
  onFiring s fun s f =>
    let ea := effective f.lv off.toInt sz.bytes
    s.withHome f ea sz.bytes needBoth fun s a =>
      s.issueNow f o .acas ea.toNat a sz.bytes f.rv
        (s.hold f k.toNat) lsid.toNat ord

def execAfadd (o : Out) (sz : Width) (m : MemForm) (s : State) : Result :=
  writingNow o .afadd sz.bytes m needBoth s

/-- The exact-accumulate words are addressed in 8-byte units whatever the format of the term
(R154): the access is of the 64-bit word, and the size of the request says the format. -/
def exactNow (o : Out) (op : MemOp) (sz : Width) (m : MemForm) (need : Nat) (s : State) : Result :=
  onFiring s fun s f =>
    let ea := effective f.lv m.off.toInt 8
    s.withHome f ea 8 need fun s a =>
      s.issueNow f o op ea.toNat a sz.bytes f.rv 0 m.lsid.toNat m.ord

/-- XINIT is a write that updates nothing, and needs WR alone (R154, R367). -/
def execXinit (o : Out) (sz : Width) (m : MemForm) (s : State) : Result :=
  exactNow o .xinit sz m needWrite s

def execXacc (o : Out) (sz : Width) (m : MemForm) (s : State) : Result :=
  exactNow o .xacc sz m needBoth s

def execXread (o : Out) (sz : Width) (m : MemForm) (s : State) : Result :=
  onFiring s fun s f =>
    let ea := effective f.lv m.off.toInt 8
    s.withHome f ea 8 needRead fun s a =>
      s.issueRead f o .xread ea.toNat a sz.bytes 0 0 m.lsid.toNat m.ord

def execAincw (o : Out) (sz : Width) (m : MemForm) (s : State) : Result :=
  writingNow o .aincw sz.bytes m needBoth s

def execAser (o : Out) (sz : Width) (m : MemForm) (s : State) : Result :=
  writingNow o .aser sz.bytes m needBoth s

/-! ## Tasks and barriers, R157 -/

/-- A BAR whose n is 0 or out of range traps ILLEGAL (R157). -/
def execBar (o : Out) (m : MemForm) (s : State) : Result :=
  onFiring s fun s f =>
    let ea := effective f.lv m.off.toInt 8
    if f.rv.toNat = 0 || f.rv.toNat ≥ 2 ^ 24 then s.park f 0x01 (s.openInfo f.run)
    else s.withHome f ea 8 needBoth fun s a =>
      s.issueRead f o .bar ea.toNat a 8 f.rv 0 m.lsid.toNat m.ord

def execPost (o : Out) (m : MemForm) (s : State) : Result := writingNow o .post 8 m needBoth s

def execSignal (o : Out) (m : MemForm) (s : State) : Result := writingLater o .signal 8 m needBoth s

def execArm (o : Out) (m : MemForm) (s : State) : Result := writingNow o .arm 8 m needBoth s

/-! ## Key-value entries, R227 -/

/-- KVCOMMIT names a sequence block, 64-byte aligned; it is always ordered (R227). -/
def execKvcommit (o : Out) (lsid : BitVec 5) (scope : Scope) (s : State) : Result :=
  onFiring s fun s f =>
    s.withHome f f.lv 64 needWrite fun s a =>
      s.bufferWrite f o .kvcommit f.lv.toNat a 64 f.rv lsid.toNat (some scope)

/-- LDK reads the sequence block first; `extra` keeps the offset and size of the entry access
(R227). -/
def execLdk (o : Out) (sz : Width) (lsid : BitVec 5) (off : BitVec 11) (scope : Scope) (s : State) :
    Result :=
  onFiring s fun s f =>
    s.withHome f f.lv 64 needRead fun s a =>
      s.issueRead f o .ldk f.lv.toNat a sz.bytes f.rv (wordI (off.toInt * sz.bytes)) lsid.toNat
        (some scope)

end Sys2Proof.Machine
end

