-- ==== Sys2Proof/Machine/Ready.lean ====
section
/-! DEFINITION. Ready firings, and the counts that complete an activation (R33 to R35, R70, R80, R110,
R238, R246). -/

namespace Sys2Proof.Machine

/-! ## Ready firings, R35, R70, R238 -/

/-- A ready firing of a slot: its identity, the cycle before it became ready, and its operand tokens by
port. -/
structure Cand where
  slot : Nat
  colour : Nat
  iter : Nat
  ready : Nat
  toks : List (Nat × Tok)
  deriving DecidableEq, Repr, Inhabited

/-- The ports that a slot waits for: a notice on THROTTLE's right port does not pair (R122). -/
def Elem.ports (e : Elem) (slot : Nat) : List Nat :=
  let rd := e.reads slot
  [0, 1, 2].filter fun p => rd.reads p && !(p = 1 && e.isThrottle slot)

/-- Quarter-rate instructions (R33). -/
def isQuarter : Instr → Bool
  | .fexp2 .. | .flog2 .. | .frcp .. | .frsq .. | .fsinp .. | .fcosp .. | .fdiv .. | .fsqrt .. => true
  | _ => false

/-- The slot's instruction. -/
def Elem.instrAt (e : Elem) (slot : Nat) : Option Instr :=
  match decode ((e.slots[slot]?).getD 0) with
  | .ok i => some i
  | .error _ => none

def Elem.quarterAt (e : Elem) (slot : Nat) : Bool :=
  match e.instrAt slot with
  | some i => isQuarter i
  | none => false

/-- The cycle before the first in which a slot can start: a quarter-rate one waits four cycles after the
element's last (R33, R238). -/
def Elem.startsFrom (e : Elem) (slot : Nat) : Nat :=
  match e.quarter with
  | some q => if e.quarterAt slot then q + 3 else 0
  | none => 0

/-- The oldest token of an identity at a port, where it may be selected from (R34, R35). -/
def Elem.headAt (e : Elem) (now slot port colour iter : Nat) : Option Wait :=
  match e.waiting.find? fun w =>
      w.slot = slot && w.port = port && w.colour = colour && w.iter = iter with
  | some w => if w.at_ < now then some w else none
  | none => none

/-- The ready firing of an identity at a slot: a token on every port it waits for, or, for a slot
that matches nothing, its first token at any port (R70, R80, R238). -/
def Elem.candOf (e : Elem) (now slot colour iter : Nat) : Option Cand :=
  let rd := e.reads slot
  if rd.any then
    match e.waiting.find? fun w => w.slot = slot && w.colour = colour && w.iter = iter with
    | some w => if w.at_ < now then some ⟨slot, colour, iter, w.at_, [(w.port, w.tok)]⟩ else none
    | none => none
  else
    let ps := e.ports slot
    let ws := ps.filterMap fun p => (e.headAt now slot p colour iter).map fun w => (p, w)
    if ps.isEmpty || ws.length < ps.length then none
    else some ⟨slot, colour, iter, ws.foldl (fun m x => max m x.2.at_) (e.startsFrom slot),
      ws.map fun x => (x.1, x.2.tok)⟩

/-- The order of the ready firings of a slot: readiness, colour, tag (R238). -/
def Cand.before (a b : Cand) : Bool :=
  a.ready < b.ready || (a.ready = b.ready &&
    (a.colour < b.colour || (a.colour = b.colour && a.iter < b.iter)))

/-- The head of a slot's queue of ready firings. -/
def Elem.candidate (e : Elem) (now slot : Nat) : Option Cand :=
  let ids := ((e.waiting.filter fun w => w.slot = slot).map fun w => (w.colour, w.iter)).eraseDups
  ids.foldl (fun (best : Option Cand) id =>
    match e.candOf now slot id.1 id.2, best with
    | some c, some b => if c.before b then some c else some b
    | some c, none => some c
    | none, b => b) none

/-- The slot can start now (R33, R238). -/
def Elem.canStart (e : Elem) (now slot : Nat) : Bool := e.startsFrom slot < now || !e.quarterAt slot

def Elem.candidates (e : Elem) (now : Nat) : List Cand :=
  (upTo 32).filterMap fun k => if e.canStart now k then e.candidate now k else none

/-! ## Counts, R110, R246 -/

/-- Slots of an element that hold EXIT (R110). -/
def Elem.exitSlots (e : Elem) : List Nat :=
  (upTo 32).filter fun k =>
    match decode ((e.slots[k]?).getD 0) with
    | .ok (.exit _ _) => true
    | _ => false

/-- The counts of an activation are complete (R246, conditions 1 to 3). -/
def Elem.countsDone (e : Elem) (a : Act) : Bool :=
  let st := bits e.header 32 32
  let hm := bits e.header 24 8
  Nat.land a.lsids st = st && Nat.land a.holds hm = hm &&
    (bits e.header 22 2 != 1 || e.exitSlots.all fun k => nbit a.exits k)

end Sys2Proof.Machine
end

