-- ==== Sys2Proof/Machine/Requests.lean ====
section
/-! DEFINITION. Requests at their homes: when the order of an activation, of an element and of a
block lets one be performed, what its performance and its reply do, and the events of tile ports, quays
and PAGE_WALK (R95, R145, R146, R148, R152, R274, R275, R282 to R300, R306,
R369, R370, R393). -/

namespace Sys2Proof.Machine

/-! ## Order within an activation, R95, R146, R152, R284, R288, R296, R306 -/

/-- The bytes a request concerns (R154, R227). -/
def Req.span (q : Req) : Nat := q.op.span q.size

/-- The request changes its block. -/
def Req.changes (q : Req) : Bool := !q.op.isRead

/-- The form of a FENCE request. -/
def Req.fenceForm (q : Req) : Option FenceForm :=
  if q.op != .fence then none
  else match q.data.toNat % 4 with
    | 0 => some .full
    | 1 => some .acq
    | _ => some .rel

/-- An ordered read or immediate write, a FENCE only by its MOD[3]: every access of a higher LSID is
performed after it (R74, R146). -/
def Req.acquires (q : Req) : Bool := if q.op = .fence then q.data.toNat ≥ 4 else q.ord.isSome

/-- A fence on the lower side holds an access back (R152). -/
def fenceHolds (form : FenceForm) (q : Req) : Bool :=
  match form with
  | .acq | .full => true
  | .rel => q.changes

/-- The scope at which a request releases the immediate writes below it: an ordered immediate write, and a
FENCE on writes (R146, R152, R286). -/
def Req.releaseScope (q : Req) : Option Scope :=
  match q.fenceForm with
  | some .acq => none
  | some _ => q.ord
  | none => if q.cls = .immediate then q.ord else none

/-- A BAR that goes only after the immediate writes below it have been performed (R296). -/
def Req.barrier (q : Req) : Bool := q.op = .bar && q.ord.isSome

/-- Operations that concern bytes: CANCEL, DONEQ and FENCE name none (R152, R157). -/
def MemOp.hasBytes (op : MemOp) : Bool := op != .cancel && op != .doneq && op != .fence

/-- A slot of a lower LSID whose firing has not yet issued its access holds an access back: it orders it,
or its bytes may overlap; `known` are the bytes where the slot has fired (R95, R146, R152, R306).  A
FENCE waits for reads, for immediate writes or for both, and for no buffered write; a release and an ordered
BAR wait for immediate writes (R286, R296). -/
def MemSlot.holds (m : MemSlot) (q : Req) (known : Option (Nat × Nat)) : Bool :=
  let meets := m.op.hasBytes && q.op.hasBytes && match known with
    | some (a, n) => overlap a n q.ea q.span
    | none => true
  match m.fence, q.fenceForm with
  | some form, _ => m.ordered || fenceHolds form q
  | none, some form =>
    match m.cls with
    | .buffered => false
    | .immediate => m.ordered || form != .acq
    | .read => m.ordered || form != .rel
  | none, none =>
    match m.cls with
    | .buffered => meets && (m.op = .write || q.cls = .immediate)
    | .immediate => m.ordered || meets || q.releaseScope.isSome || q.barrier
    | .read => m.ordered || meets

/-- An issued access of a lower LSID holds an access back, whatever the scope: a FENCE or an acquire, or
overlapping bytes (R95, R146, R152, R284, R298).  A committed ST holds a later read of its bytes. -/
def Req.holds (p q : Req) : Bool :=
  let meets := p.op.hasBytes && q.op.hasBytes && overlap p.home p.span q.home q.span
  if p.cls = .buffered then p.op = .write && meets
  else
    p.acquires ||
    (match p.fenceForm with
      | some form => fenceHolds form q
      | none => meets) ||
    (match q.fenceForm with
      | some .acq | some .full => p.cls = .read
      | _ => false)

/-- The memory-class slots of an element, by slot number (R74). -/
def Elem.memSlots (e : Elem) : List (Nat × MemSlot) :=
  e.slots.zipIdx.filterMap fun w =>
    match decode w.1 with
    | .ok i => (memSlot i).map fun m => (w.2, m)
    | .error _ => none

/-- Two requests belong to one activation. -/
def Req.sameAct (p q : Req) : Bool :=
  p.firing.run = q.firing.run && p.firing.elem = q.firing.elem && p.firing.act = q.firing.act

/-- The firings of an activation that have fired and not yet issued their access: parked, in a walk, or to
be taken up again. -/
def State.unissued (s : State) (f : Firing) : List Firing :=
  let mine (g : Firing) : Bool := g.run = f.run && g.elem = f.elem && g.act = f.act
  (((s.elem f.run f.elem).parked.map Parked.firing) ++ (s.walks.map fun w => w.2.firing) ++
    (s.agenda.filterMap fun h => match h.2 with
      | .refire g => some g
      | _ => none)).filter mine

/-- The bytes of the access of a slot whose firing is at hand (R144). -/
def State.knownSpan (s : State) (fs : List Firing) (slot : Nat) : Option (Nat × Nat) :=
  match fs.find? fun g => g.slot = slot with
  | none => none
  | some g => match decode (s.slotWord g) with
    | .ok i => accessSpan g.lv i
    | .error _ => none

/-- The slots of lower LSID that have not issued their access and hold an access back. -/
def State.openSlots (s : State) (q : Req) : List Nat :=
  let e := s.elem q.firing.run q.firing.elem
  match e.act q.firing.act with
  | some a =>
    let fs := s.unissued q.firing
    (e.memSlots.filter fun m =>
      m.2.lsid < q.lsid && !nbit a.mems m.2.lsid && m.2.holds q (s.knownSpan fs m.1)).map Prod.fst
  | none => []

/-- A home lies inside a scope, as seen from an element (R285). -/
def State.homeInside (s : State) (f : Firing) (scope : Scope) (a : Nat) : Bool :=
  let x := s.run f.run
  let here := x.part (partOf f.elem)
  match scope with
  | .act => false
  | .clu =>
    isTileHome a && !isFarHome a &&
      (let (r, p, c, _, _) := tileOf a
       r = f.run && p = partOf f.elem && c = cluOf f.elem)
  | .die =>
    if isFarHome a then false
    else if isTileHome a then
      let (r, p, _, _, _) := tileOf a
      ((s.run r).part p).die = here.die
    else !isAppHome a && homeDie a = here.die
  | .dev => !isFarHome a
  | .sys => true

/-- The accesses of a request's activation with a lower LSID that have been issued and not answered. -/
def State.below (s : State) (q : Req) : List Req :=
  (s.reqs.map Prod.snd).filter fun p => p.sameAct q && p.lsid < q.lsid

/-- An immediate write is not yet visible at a scope: its home lies inside and has not performed it, or it
is not yet on its way (R285, R286). -/
def State.unseen (s : State) (scope : Scope) (p : Req) : Bool :=
  p.cls = .immediate && (s.homeInside p.firing scope p.home || (s.below p).any fun o => o.holds p)

/-- An issued access of lower LSID holds an access back.  What releases waits for the immediate writes
below it to be visible at its scope, and an ordered BAR for all of them to be performed (R286, R296). -/
def State.issuedHolds (s : State) (q : Req) : Bool :=
  (s.below q).any fun p =>
    p.holds q || (q.barrier && p.cls = .immediate) ||
    match q.releaseScope with
    | some scope => s.unseen scope p
    | none => false

/-- The requests a buffered write waits for have all been performed (R146, R152, R292). -/
def State.afterDone (s : State) (q : Req) : Bool := q.after.all fun n => (s.reqs.find n).isNone

/-! ### Slots that may still fire, R95, R290

An access waits for a slot of lower LSID only while that slot may still fire in the activation: while something
of the run can send it a token, step by step, and does not itself wait for the access (log 25). -/

/-- A slot that a token may come to: its element and number, and the identity it comes in, as against that of
the firing it comes from: 0 the same, 1 a later tag of the same colour, 2 any. -/
structure Lead where
  elem : Nat
  slot : Nat
  mode : Nat
  deriving DecidableEq, Repr, Inhabited

/-- The element of a lead to any slot: the destination of a SEND, a SENDX or a SEAMOUT is computed. -/
def anyPlace : Nat := 2 ^ 32

/-- How the tokens of an instruction differ in identity from its operands (R114, R117). -/
def identityMode : Instr → Nat
  | .iter .. => 1
  | .iterset .. | .retag .. => 2
  | _ => 0

/-- Where a firing of an instruction may send tokens whatever its targets (R112, R203). -/
def computedLeads (mode : Nat) : Instr → List Lead
  | .send .. => [⟨anyPlace, 0, mode⟩]
  | .sendx .. | .seamout .. => [⟨anyPlace, 0, 2⟩]
  | _ => []

/-- What a firing of a slot leads to at once; a token at a seam may come out anywhere (R202, R203). -/
def State.nextLeads (s : State) (r : Nat) (x : Lead) : List Lead :=
  if siteKind (siteOf x.elem) = .seam then [⟨anyPlace, 0, 2⟩]
  else match decode (((s.elem r x.elem).slots[x.slot]?).getD 0) with
    | .ok i =>
      let m := max x.mode (identityMode i)
      computedLeads x.mode i ++
        ((outOf i).ta.toList ++ (outOf i).tb.toList ++ (thirdOf i).toList).filterMap fun t =>
          match t with
          | .site _ slot dx dy => some ⟨targetKey x.elem dx dy, slot.toNat, m⟩
          | .hold _ => none
    | .error _ => []

/-- What can be reached from a list of leads. -/
def reachFrom (next : Lead → List Lead) : Nat → List Lead → List Lead → List Lead
  | 0, _, seen => seen
  | _, [], seen => seen
  | fuel + 1, x :: xs, seen =>
    if seen.contains x then reachFrom next fuel xs seen
    else reachFrom next fuel (next x ++ xs) (x :: seen)

/-- What may fire after a firing of a slot. -/
def State.leadsAfter (s : State) (r elem slot : Nat) : List Lead :=
  reachFrom (s.nextLeads r) (2 ^ 20) (s.nextLeads r ⟨elem, slot, 0⟩) []

/-- The same with the slot itself: what may fire once a token has come to it. -/
def State.leadsFrom (s : State) (r elem slot : Nat) : List Lead :=
  reachFrom (s.nextLeads r) (2 ^ 20) [⟨elem, slot, 0⟩] []

/-- An identity and what its tokens lead to. -/
structure Source where
  colour : Nat
  iter : Nat
  leads : List Lead
  deriving DecidableEq, Repr, Inhabited

/-- A lead to an element in an identity. -/
def Source.meets (x : Source) (elem : Nat) (slot : Option Nat) (colour iter : Nat) : Bool :=
  x.leads.any fun l =>
    (l.elem = anyPlace || (l.elem = elem && slot.all fun k => l.slot = k)) &&
      match l.mode with
      | 0 => x.colour = colour && x.iter = iter
      | 1 => x.colour = colour && 0 < (iter + 65536 - x.iter) % 65536 &&
          (iter + 65536 - x.iter) % 65536 < 32768
      | _ => true

/-- What a firing that has fired, and whose tokens are still to come, may send. -/
def State.sourceAfter (s : State) (f : Firing) : Source := ⟨f.colour, f.iter, s.leadsAfter f.run f.elem f.slot⟩

/-- A firing that waits for a trap's resumption, a window or a colour, which other work may bring about: it is
looked for in its own colour alone, in its own tag and later ones. -/
def State.sourceWaiting (s : State) (f : Firing) : Source :=
  ⟨f.colour, f.iter, (s.leadsAfter f.run f.elem f.slot).filter fun l => l.mode < 2⟩

/-- A token on its way. -/
def State.sourceOf (s : State) (f : Flit) : Source :=
  match f.cmd with
  | some m => s.sourceAfter (⟨f.run, m.issuer, m.slot, m.colour, m.iter, 0, none, none, none⟩)
  | none => ⟨f.colour, f.iter, s.leadsFrom f.run f.dst f.slot⟩

/-- The ready firings of an element. -/
def Elem.readySlots (e : Elem) (now : Nat) : List (Nat × Nat × Nat) :=
  ((e.waiting.map fun w => (w.slot, w.colour, w.iter)).eraseDups).filter fun x =>
    (e.candOf (now + 1) x.1 x.2.1 x.2.2).isSome

def CtrlReq.firing : CtrlReq → Option Firing
  | .permit _ f _ | .take _ f _ => some f
  | .close => none

def Closing.firing : Closing → Option Firing
  | .producer f _ _ | .consumer f _ _ _ => some f
  | .producerSilent => none

/-- The firings whose token a strand still owes (R160, R201). -/
def Strand.firings (st : Strand) : List Firing :=
  (st.control.filterMap CtrlReq.firing) ++ st.closing.filterMap Closing.firing

/-- The firings that wait for the window of far requests, or for a far request's reply (R373). -/
def FarState.firings (x : FarState) : List Firing :=
  ((x.outstanding ++ x.refused).filterMap fun q => q.firing.map Prod.fst) ++
    x.waiting.filterMap fun w => w.2.firing.map Prod.fst

/-- The firings of a run that wait for what other work may bring about. -/
def State.waitingFirings (s : State) (r : Nat) : List Firing :=
  let x := s.run r
  ((x.elems.flatMap fun e => (e.2.parked.map Parked.firing) ++ e.2.throttled) ++
    (s.ctx x.ctx).waiting.map fun w => w.firing).filter fun f => f.run = r

/-- The firings of a run that have fired and whose tokens are to come, but for those whose access stands at
memory and those of `waitingFirings`. -/
def State.owedFirings (s : State) (r : Nat) : List Firing :=
  let x := s.run r
  let c := s.ctx x.ctx
  let all : List Firing :=
    (s.walks.map fun w => w.2.firing) ++
    (s.agenda.filterMap fun h => match h.2 with
      | .refire f => some f
      | _ => none) ++
    (x.elems.flatMap fun e => (e.2.waitts.map Prod.snd) ++
      (e.2.helds.filter fun h => h.2.req != 0 && (s.reqs.find h.2.req).isNone).map fun h => h.2.firing) ++
    (s.waves.filterMap fun w => w.2.firing.map Prod.fst) ++ (x.strands.flatMap fun st => st.2.firings) ++
    c.far.firings ++
    x.cmds.map fun k => ⟨r, k.2.msg.issuer, k.2.msg.slot, k.2.msg.colour, k.2.msg.iter, 0, none, none, none⟩
  all.filter fun f => f.run = r

/-- What an activation sends at and after its commit: the completions of its buffered writes, its register
writes and its held tokens (R145, R161, R248). -/
def State.commitSources (s : State) (r key : Nat) (e : Elem) (a : Act) : List Source :=
  ((a.stores.map fun st => st.firing) ++ (a.wrs.map fun w => w.1) ++
    ((e.helds.filter fun h => h.2.act = a.uid).map fun h => h.2.firing) ++
    a.owns.map fun m => (⟨r, key, m.slot, a.colour, a.iter, a.uid, none, none, none⟩ : Firing)).map s.sourceAfter

/-- An access that waits for slots alone: its number, its firing, its LSID, the open slots that hold it, and what
it leads to, by its own tokens and by the commit of its activation. -/
structure Blocked where
  n : Nat
  firing : Firing
  lsid : Nat
  slots : List Nat
  sources : List Source
  deriving DecidableEq, Repr, Inhabited

/-- The uncommitted activations of a run, each with its element. -/
def Run.openActs (x : Run) : List (Nat × Elem × Act) :=
  x.elems.flatMap fun e => (e.2.acts.filter fun a => !a.committed).map fun a => (e.1, e.2, a)

/-- The commit of an activation waits for a firing: it is the firing's own, or the firing leads to it. -/
def Source.delays (x : Source) (f : Firing) (a : Nat × Elem × Act) : Bool :=
  (f.elem = a.1 && f.act = a.2.2.uid) || x.meets a.1 none a.2.2.colour a.2.2.iter

/-- An access that no issued access and no firing of its activation holds, but open slots do. -/
def State.blockedReq (s : State) (n : Nat) (q : Req) : Option Blocked :=
  let open_ := s.openSlots q
  let fired := s.unissued q.firing
  if q.state != .pending || open_.isEmpty || s.issuedHolds q || !s.afterDone q ||
      open_.any fun k => fired.any fun f => f.slot = k then none
  else
    let own := s.sourceAfter q.firing
    let late := ((s.run q.firing.run).openActs.filter (own.delays q.firing)).flatMap fun a =>
      s.commitSources q.firing.run a.1 a.2.1 a.2.2
    some ⟨n, q.firing, q.lsid, open_, own :: late⟩

def State.blockedIn (s : State) (r : Nat) : List Blocked :=
  s.reqs.filterMap fun q => if q.2.firing.run = r then s.blockedReq q.1 q.2 else none

/-- The uncommitted activations of a run whose commit waits for none of the blocked accesses. -/
def State.freeActs (s : State) (r : Nat) (bs : List Blocked) : List (Nat × Elem × Act) :=
  (s.run r).openActs.filter fun a => !bs.any fun b => b.sources.any fun x => x.delays b.firing a

/-- What may send tokens in a run without any of the blocked accesses. -/
def State.freeSources (s : State) (r : Nat) (bs : List Blocked) : List Source :=
  let x := s.run r
  let flits := (s.flits.map Prod.snd ++ x.inbox.map Prod.snd ++
    x.elems.flatMap fun e => e.2.spillHeld).filter fun f => f.run = r
  let reqs := s.reqs.filter fun q => q.2.firing.run = r && bs.all fun b => b.n != q.1
  (flits.map s.sourceOf) ++
    (x.elems.flatMap fun e => (e.2.readySlots s.cycle).map fun k =>
      ⟨k.2.1, k.2.2, s.leadsFrom r e.1 k.1⟩) ++
    ((s.owedFirings r).map s.sourceAfter) ++ (reqs.map fun q => s.sourceAfter q.2.firing) ++
    ((s.waitingFirings r).map s.sourceWaiting) ++
    (x.seams.flatMap fun z => z.2.inputs.map fun i => ⟨i.colour, i.iter, [⟨anyPlace, 0, 2⟩]⟩) ++
    (s.freeActs r bs).flatMap fun a => s.commitSources r a.1 a.2.1 a.2.2

/-- One of a list of sources leads to a slot that a blocked access waits for. -/
def Blocked.fedBy (b : Blocked) (xs : List Source) : Bool :=
  b.slots.any fun k => xs.any fun x => x.meets b.firing.elem (some k) b.firing.colour b.firing.iter

/-- The blocked accesses that lead to a slot which one of a list waits for. -/
def feeders (bs : List Blocked) (ns : List Nat) : List Nat :=
  let mine := bs.filter fun b => ns.contains b.n
  (bs.filter fun y => mine.any fun b => b.fedBy y.sources).map Blocked.n

/-- The accesses that those of a list wait for, directly or not. -/
def feederClosure (bs : List Blocked) : Nat → List Nat → List Nat
  | 0, ns => ns
  | fuel + 1, ns => feederClosure bs fuel (ns ++ (feeders bs ns).filter fun n => !ns.contains n)

def feedersOf (bs : List Blocked) (n : Nat) : List Nat := feederClosure bs bs.length (feeders bs [n])

/-- A blocked access goes before the slots that hold it: nothing else can fire them, and of the accesses with
which it waits in a ring it has the lowest LSID, or the lowest number of those with one LSID (log 25). -/
def goesFirst (free : List Source) (bs : List Blocked) (b : Blocked) : Bool :=
  let ring := feedersOf bs b.n
  !b.fedBy free &&
    (ring.isEmpty || (ring.all fun m => (feedersOf bs m).contains b.n) &&
      bs.all fun y => !ring.contains y.n ||
        (!y.fedBy free && (b.lsid < y.lsid || (b.lsid = y.lsid && b.n ≤ y.n))))

/-- The open slots of lower LSID let a request go: there is none, or none may fire before it. -/
def State.slotsAllow (s : State) (n : Nat) (q : Req) : Bool :=
  (s.openSlots q).isEmpty ||
    match s.blockedReq n q with
    | none => false
    | some b =>
      let bs := s.blockedIn q.firing.run
      goesFirst (s.freeSources q.firing.run bs) bs b

/-- The order of its activation lets an access be performed (R95, R146); a committed write waits for the reads of
lower LSID of its bytes that its activation may still fire. -/
def State.actAllows (s : State) (n : Nat) (q : Req) : Bool := !s.issuedHolds q && s.slotsAllow n q

/-- Nothing holds a write's issue: one whose home lies outside a scope is then visible there (R285). -/
def State.onItsWay (s : State) (n : Nat) (q : Req) : Bool := s.afterDone q && s.actAllows n q

/-! ## Order at a block, R274, R275, R292, R295 -/

/-- The element key of a tile's home address, with its run. -/
def tileKey (a : Nat) : Nat × Nat :=
  let (r, p, c, ring, _) := tileOf a
  (r, keyOf p c (ringSite ring))

/-- The tile of a home address belongs to engines (R97). -/
def State.engineOwned (s : State) (a : Nat) : Bool :=
  isTileHome a && !isFarHome a &&
    (match (s.run (tileKey a).1).tiles.find (tileKey a).2 with
      | some t => t.engine
      | none => false)

/-- A pending request may be performed now. -/
def State.mayPerform (s : State) (n : Nat) (q : Req) : Bool :=
  q.state == .pending && (s.run q.firing.run).state != .frozen && !s.blockBusy q.home &&
    s.onItsWay n q && !(q.op.isRead && s.engineOwned q.home)

/-! ## Replies -/

/-- The bytes of a read, with those of the activation's lower-LSID buffered stores in their place
(R145, R283). -/
def forwarded (stores : List Store) (lsid home : Nat) (bs : List Byte) : List Byte :=
  let mine := stores.filter fun st => st.op = .write && st.lsid < lsid
  (bs.zipIdx).map fun x =>
    let hits := mine.filter fun st => st.home ≤ home + x.2 && home + x.2 < st.home + st.size
    match hits.foldl (fun (best : Option Store) st => match best with
        | some b => if b.lsid < st.lsid then some st else some b
        | none => some st) none with
    | some st => BitVec.ofNat 8 (bits st.data (8 * (home + x.2 - st.home)) 8)
    | none => x.1

/-- Every byte of a read comes from the activation's own buffered stores (R279). -/
def allForwarded (stores : List Store) (lsid home size : Nat) : Bool :=
  (upTo size).all fun k => stores.any fun st =>
    st.op = .write && st.lsid < lsid && st.home ≤ home + k && home + k < st.home + st.size

/-- A read meets a buffered store that a word error has hit (R393). -/
def meetsBad (stores : List Store) (lsid home size : Nat) : Bool :=
  stores.any fun st =>
    st.bad && st.op = .write && st.lsid < lsid && overlap st.home st.size home size

/-- The state as the reads of a firing see it: memory under its own buffered stores (R145). -/
def State.seenBy (s : State) (q : Req) : State :=
  let stores := s.ownStores q.firing
  if !stores.any fun st => st.op = .write && st.lsid < q.lsid then s
  else
    let s' := { s with
      mem := memWrite s.mem q.home (forwarded stores q.lsid q.home (s.bytes q.home q.span)) }
    if meetsBad stores q.lsid q.home q.span then s'.markPoison q.home
    else if allForwarded stores q.lsid q.home q.span then
      s'.setSide q.home { s.sideOf q.home with poison := false }
    else s'

/-- The completion of an ordered buffered write: the held token takes the kind of its write's result
(R248, R393); an unordered one's token leaves at once (R145). -/
def State.completeLater (s : State) (n : Nat) (q : Req) (tok : Tok) : State :=
  match q.ord with
  | none => s.emitOut q.firing q.out tok
  | some _ => s.editElem q.firing.run q.firing.elem fun e =>
      { e with helds := e.helds.map fun h =>
          if h.2.req = n then (h.1, { h.2 with tok := { tok with rel := true } }) else h }

/-- A request has been answered: its flags are gathered, its LSID closes, its tokens leave (R53,
R145, R288). -/
def State.reply (s : State) (n : Nat) (q : Req) (tok : Tok) (fl : Nat) : State :=
  let s := { s with reqs := s.reqs.del n }
  let s := s.raise q.firing fl
  match q.cls with
  | .buffered => s.completeLater n q tok
  | .immediate =>
    (s.editAct q.firing.run q.firing.elem q.firing.act fun a =>
      { a with lsids := setBit a.lsids q.lsid }).emitOut q.firing q.out tok
  | .read => s.emitOut q.firing q.out tok

/-- A request traps at its home (R306): it waits there for its trap's resumption. -/
def State.trapRequest (s : State) (n : Nat) (q : Req) (cause : Nat) (info : Word) : State :=
  let s := { s with reqs := s.reqs.put n { q with state := .trapped } }
  s.trap q.firing.run (s.trapRecord q.firing cause info (.request n))

/-- What TRAPINFO holds for a trap at a home: ea, or the block's address (R163). -/
def trapInfoOf (cause ea : Nat) : Word := if cause = 0x13 then word (blockAt ea) else word ea

/-- BARs held at a word whose generation has ended are released, but for those of frozen launches
(R157, R362). -/
def State.releaseBars (s : State) (a gen : Nat) : State :=
  s.reqs.foldl (fun s q =>
    match q.2.state with
    | .arrived g =>
      if q.2.home = a && g != gen && (s.run q.2.firing.run).state != .frozen then
        s.reply q.1 q.2 (Tok.data (word gen)) 0
      else s
    | _ => s) s

/-- The access of a firing is to be issued again: its slot is open to the order of the activation (R306). -/
def State.reopenLsid (s : State) (f : Firing) (lsid : Nat) : State :=
  s.editAct f.run f.elem f.act fun a => { a with mems := dropBit a.mems lsid }

/-- LDK goes on with the load of its entry: R144 and R145 apply to it (R227).  One whose entry misses or faults
reads its sequence block again, so what its acquire orders after it goes on waiting (R146, R306). -/
def State.loadEntry (s : State) (n : Nat) (q : Req) (base : Word) : State :=
  let ea := base + q.extra
  let s : State := { s with reqs := s.reqs.del n }
  (s.reopenLsid q.firing q.lsid).withHome q.firing ea q.size needRead fun s a =>
    (s.resolveLsid q.firing q.lsid).addReq
      { q with op := .read, ea := ea.toNat, home := a, ord := none, state := .pending }

/-- The home holds an LDV on its list of deferred readers, with its place in the order of arrival (R148, R295). -/
def State.holdReq (s : State) (n : Nat) (q : Req) : State :=
  let (k, s) := s.takeId
  { s with reqs := s.reqs.put n { q with state := .held, extra := word k } }

/-- The home has performed a request, or not (R282). -/
def State.settle (s : State) (n : Nat) (q : Req) (a : HomeAns) : State :=
  match a with
  | .poison => s.reply n q (Tok.poisonAt (blockAt q.ea)) 0
  | .held => s.holdReq n q
  | .arrived gen t => (State.wake { t with reqs := s.reqs.put n { q with state := .arrived gen } } q.home)
  | .trap cause => s.trapRequest n q cause (trapInfoOf cause q.ea)
  | .entry base => s.loadEntry n q base
  | .done v fl empty t =>
    let t := if q.changes then t.wake q.home else s
    let t := if q.cls = .immediate then t.taint q.firing.run q.firing.colour else t
    let tok : Tok := if empty then { Tok.nul with kind := .empty } else Tok.data v
    let t := t.reply n q tok fl
    if q.op = .bar then t.releaseBars q.home (bits v 0 16) else t

/-- A buffered write whose entry a word error had hit: it is answered as one that a poisoned block refuses
(R393). -/
def Req.spoiled (q : Req) : Bool := q.cls = .buffered && q.extra != 0

/-- Perform a request at its home. -/
def State.performReq (s : State) (n : Nat) (q : Req) : State :=
  if q.op.isRead then s.settle n q ((s.seenBy q).perform q.op q.size q.home q.data q.extra)
  else if q.spoiled then s.settle n q .poison
  else if s.engineOwned q.home then s.trapRequest n q 0x0B (word q.ea)
  else if q.cls = .immediate && s.overlapsStore q.firing q.lsid q.home q.span then
    s.trapRequest n q 0x01 (word q.ea)
  else s.settle n q (s.perform q.op q.size q.home q.data q.extra)

/-- A deferred reader of another device reads (R295, R374). -/
def State.answerReader (s : State) (n : Nat) (q : Req) (p : Packet) : State :=
  let s := { s with reqs := s.reqs.del n }
  match s.perform .ldv q.size q.home q.data 0 with
  | .done v fl _ t => t.replyEntry p (resultOf p v fl 0 none) []
  | .poison => s.replyEntry p (resultOf p 0 0 6 none) []
  | _ => s

/-- A satisfied LDV reads, also where its tile has come to belong to engines meanwhile (R295; DESIGN CHOICE, log
76). -/
def State.readSatisfied (s : State) (n : Nat) (q : Req) : State :=
  match q.far with
  | some p => s.answerReader n q p
  | none => s.settle n q ((s.seenBy q).perform .ldv q.size q.home q.data 0)

/-- The place of a held LDV in the order in which LDVs came to be held (R295). -/
def Req.arrival (q : Req) : Nat := q.extra.toNat

/-- The satisfied LDVs of a block. -/
def State.satisfiedAt (s : State) (a : Nat) : Tbl Req :=
  s.reqs.filter fun p => p.2.state == .satisfied && blockIx p.2.home = blockIx a

/-- The satisfied LDV of a block that arrived first. -/
def State.firstReader (s : State) (a : Nat) : Option (Nat × Req) :=
  (s.satisfiedAt a).find? fun q => (s.satisfiedAt a).all fun p => q.2.arrival ≤ p.2.arrival

/-- The satisfied LDVs of a block read in their order of arrival (R295).  DESIGN CHOICE: between two writes of one
event of the device, they read within the event (log 98). -/
def readAllFrom (s : State) (a : Nat) : Nat → State
  | 0 => s
  | fuel + 1 => match s.firstReader a with
    | some (n, q) => readAllFrom (s.readSatisfied n q) a fuel
    | none => s

/-- One event writes a block of the device again: what the write before released reads in between (R295; log
98). -/
def State.readAll (s : State) (a : Nat) : State := readAllFrom s a s.reqs.length

/-- The same at a virtual address. -/
def State.readAllVirt (s : State) (c va : Nat) : State :=
  match s.walkHome c (va % 2 ^ 55) needWrite with
  | .ok a => s.readAll a
  | .error _ => s

/-- A held LDV that a write or VSET has satisfied reads; those of one block go in arrival order (R295). -/
def execLdvRelease (n : Nat) (s : State) : Result :=
  .next (match s.reqs.find n with
    | none => s
    | some q =>
      let first := (s.satisfiedAt q.home).all fun p => q.arrival ≤ p.2.arrival
      if q.state != .satisfied || !first then s else s.readSatisfied n q)

/-! ## The events of homes -/

/-- A home address that a tile's port serves. -/
def atTile (a : Nat) : Bool := isTileHome a && !isFarHome a

/-- Bytes of the application cores' memory (R4). -/
def coreBytes : Nat := 96 * 2 ^ 30

/-- Bytes that an application core can write: of a stack, clear of the journals, or of its own memory (R4,
R366, R380). -/
def coreReaches (a n : Nat) : Bool :=
  if isAppHome a then a - 2 ^ 48 + n ≤ coreBytes else paNamesStack a n

/-- An application core's write inside one block of HBM or of its own memory (R4, R300). -/
def State.coreWrite (s : State) (a : Nat) (bs : List Byte) : State :=
  if !coreReaches a bs.length || bs.isEmpty || blockIx a != blockIx (a + bs.length - 1) ||
      s.blockBusy a then s
  else s.deviceWrite a bs

/-- A pending request at a home of a kind is performed when its order allows. -/
def State.homeEvent (s : State) (n : Nat) (serves : Nat → Bool) (special : State → Nat → Req → State) :
    State :=
  match s.reqs.find n with
  | none => s
  | some q =>
    if !s.mayPerform n q || !serves q.home then s
    else match q.op with
      | .cancel | .doneq => special s n q
      | _ => s.performReq n q

/-! ## Walks, R367 to R370 -/

/-- What a walk of a firing looks up. -/
def State.walkOf (s : State) (w : Walk) : Nat × Nat × Nat := s.walkKey w.firing.run w.firing.elem w.ea

/-- A die runs up to 64 walks at once, and further misses wait (R369). -/
def State.walkRuns (s : State) (w : Walk) : Bool :=
  ((s.walksOf (s.walkOf w).1).take dieWalks).contains (s.walkOf w)

/-- A walk ends for one of the firings that wait for it. -/
def State.endWalk (s : State) (res : Except WalkFault Leaf) (n : Nat) (w : Walk) : State :=
  let f := w.firing
  let c := (s.run f.run).ctx
  let gone : State := { s with walks := s.walks.del n }
  match res with
  | .ok l => (gone.fillTlb (s.cacheOf f.run f.elem) c l).soon (.refire f)
  | .error (cause, level) =>
    if s.logBusy c then s else gone.parkTrans f (word w.ea) (.logged cause level)

/-- A translation miss is walked: a valid leaf is cached and its firings go on; a fault is logged and parks
them (R367 to R370). -/
def execPageWalk (n : Nat) (s : State) : Result :=
  .next (match s.walks.find n with
    | none => s
    | some w =>
      if (s.run w.firing.run).state = .frozen || !s.walkRuns w then s
      else
        let res := s.walk (s.run w.firing.run).ctx (w.ea % 2 ^ 55)
        s.walks.foldl (fun (t : State) x =>
          if s.walkOf x.2 == s.walkOf w && (s.run x.2.firing.run).state != .frozen then
            t.endWalk res x.1 x.2 else t) s)

end Sys2Proof.Machine
end

