-- ==== Sys2Proof/Machine/Steer.lean ====
section
/-! DEFINITION. Steering, control and tags: opcodes 0x00 to 0x17 (R70, R103 to R123). -/

namespace Sys2Proof.Machine

/-! ## The illegal slot, R70 -/

/-- ILL takes the first token at any port and traps ILLEGAL with that token (R70). -/
def execIll (_high : Bool) (s : State) : Result :=
  onFiring s fun s f => s.park f 0x01 (s.openInfo f.run)

/-! ## Moving and joining, R104, R105 -/

def execMov (o : Out) (_rep : BitVec 16) (s : State) : Result := carrying o s

def execMov3 (o : Out) (tc : Option Target) (s : State) : Result :=
  onFiring s fun s f => (s.emitOut f o f.lt.carry).emit f tc f.lt.carry

def execConst (o : Out) (k : BitVec 16) (s : State) : Result :=
  computing o (fun _ _ => k.signExtend 64) s

def execConstor (o : Out) (k : BitVec 16) (s : State) : Result :=
  computing o (fun _ f => (f.lv <<< 16) ||| k.setWidth 64) s

def execGate (o : Out) (_rep : BitVec 16) (s : State) : Result := carrying o s

/-! ## Steering and merging, R106 to R108 -/

/-- Left to one target and NULL to the other (R106). -/
def State.steerTo (s : State) (f : Firing) (o : Out) (first : Bool) : State :=
  if first then (s.emit f o.ta f.lt.carry).emit f o.tb Tok.nul
  else (s.emit f o.ta Tok.nul).emit f o.tb f.lt.carry

def execSteer (o : Out) (_rep : BitVec 16) (s : State) : Result :=
  onFiring s fun s f => s.steerTo f o (f.rv != 0)

def execSteern (o : Out) (_rep : BitVec 16) (s : State) : Result :=
  onFiring s fun s f => s.steerTo f o (f.rv == 0)

def execSelect (o : Out) (_rep : BitVec 16) (s : State) : Result :=
  onFiring s fun s f =>
    s.emitOut f o (if f.lt.kind != .null then f.lt.carry else (f.r.getD Tok.nul).carry)

def execNullt (o : Out) (_rep : BitVec 16) (s : State) : Result :=
  computing o (fun _ f => if f.lt.kind = .null then 1 else 0) s

/-! ## Exit, R110 -/

/-- An EXIT slot counts towards its activation's exit (R110). -/
def State.countExit (s : State) (f : Firing) : State :=
  s.editAct f.run f.elem f.act fun a => { a with exits := setBit a.exits f.slot }

def execExit (o : Out) (_rep : BitVec 16) (s : State) : Result :=
  onFiring s fun s f => (s.countExit f).emitOut f o f.lt.carry

/-! ## Sending to a computed place, R111 to R113 -/

/-- The cluster of the launch's region that a destination word names, as an element key. -/
def State.destKey (s : State) (r : Nat) (dest : Word) : Option Nat :=
  match findCluster (bits dest 27 5) (bits dest 23 4) (s.run r).parts 0 with
  | some (p, c) => some (keyOf p c (bits dest 17 6))
  | none => none

/-- Inject a token for a destination word of this device, in a colour and with a tag, or trap
(R29, R34, R112).  DESIGN CHOICE: a word with both a place outside the region and PORT 11 traps PROTECT
(log 92). -/
def State.sendTo (s : State) (f : Firing) (dest : Word) (colour iter : Nat) (outer : Bool) : State :=
  match s.destKey f.run dest with
  | none => s.park f 0x04 dest
  | some dst =>
    if bits dest 10 2 = 3 then s.park f 0x01 dest
    else s.inject ⟨f.run, f.elem, dst, bits dest 12 5, bits dest 10 2, (s.run f.run).ctx, colour, iter,
      f.lt.carry, none, true, outer⟩

def execSend (_pred : Bool) (_rep : BitVec 16) (s : State) : Result :=
  onFiring s fun s f => s.sendTo f f.rv f.colour f.iter false

/-- SENDX takes colour and tag from its destination word (R112).  No instruction emits a token with PORT
11 (R30): DEDUCED, one for another device traps as one for this device does (log 70). -/
def execSendx (_pred : Bool) (_rep : BitVec 16) (s : State) : Result :=
  onFiring s fun s f =>
    let dest := f.rv
    let dev := bits dest 56 8
    if s.isOwnDevice dev then s.sendTo f dest (bits dest 0 10) (bits dest 32 16) true
    else if bits dest 10 2 = 3 then s.park f 0x01 dest
    else if s.routed dev then s.sendFarToken f dest f.lt.carry
    else s.park f 0x10 dest

/-! ## Iteration tags, R114 -/

/-- Emit the left token with another tag (R114). -/
def State.emitTag (s : State) (f : Firing) (o : Out) (iter : Nat) : State :=
  (s.emitAs f o.ta f.lt.carry f.colour iter).emitAs f o.tb f.lt.carry f.colour iter

def execIter (o : Out) (_rep : BitVec 16) (s : State) : Result :=
  onFiring s fun s f => s.emitTag f o ((f.iter + 1) % 65536)

def execIterset (o : Out) (_rep : BitVec 16) (s : State) : Result :=
  onFiring s fun s f => s.emitTag f o (bits f.rv 0 16)

def execIterread (o : Out) (_rep : BitVec 16) (s : State) : Result :=
  computing o (fun s f =>
    word ((s.run f.run).ctx % 64 * 2 ^ 26 + f.colour % 1024 * 2 ^ 16 + f.iter % 65536)) s

/-! ## Colours, R115 to R117 -/

/-- COLNEW asks the pool at the level of its block's header (R67, R115); `colnewGrant` answers. -/
def execColnew (o : Out) (_rep : BitVec 16) (s : State) : Result :=
  onFiring s fun s f =>
    let level := bits (s.elem f.run f.elem).header 16 3
    s.editCtx (s.run f.run).ctx fun c => { c with waiting := c.waiting ++ [⟨level, s.cycle, f, o⟩] }

/-- Release requests take effect: the colours, or those they are aliases for, become draining (R116,
R397). -/
def Ctx.drain (c : Ctx) (cs : List Nat) : Ctx :=
  cs.foldl (fun c n => c.editColour (c.resolve n) fun x => { x with state := .draining }) c

def execColfree (o : Out) (_rep : BitVec 16) (s : State) : Result :=
  onFiring s fun s f =>
    let ctx := (s.run f.run).ctx
    let c := (s.ctx ctx).resolve (bits f.lv 0 10)
    let x := (s.ctx ctx).colour c
    if x.release || x.state = .free || x.state = .draining then s.park f 0x01 (word (bits f.lv 0 10))
    else
      let s := s.editColour ctx c fun y => { y with release := true }
      let trailing := match (s.elem f.run f.elem).act f.act with
        | some a => a.committed
        | none => true
      let s := if trailing then s.editCtx ctx fun y => y.drain [c]
        else s.editAct f.run f.elem f.act fun a => { a with frees := a.frees ++ [c] }
      s.emitOut f o f.lt.carry

/-- The most seed records an element keeps for a colour (R396). -/
def maxSeeds : Nat := 8

/-- RETAG of a replayable graph records what it moved into a colour; a ninth record taints the
colour (R396).  The colour descends from the firing's (R397). -/
def State.seed (s : State) (f : Firing) (o : Out) (c : Nat) : State :=
  let x := s.run f.run
  if !nbit x.plan.flagsWord.toNat 0 || c = 0 then s
  else
    let s := s.editColour x.ctx c fun y =>
      { y with parents := if y.parents.contains f.colour then y.parents else f.colour :: y.parents }
    let n := ((s.elem f.run f.elem).seeds.filter fun r => r.colour = c).length
    if n ≥ maxSeeds then s.taint f.run c
    else s.editElem f.run f.elem fun e =>
      { e with seeds := e.seeds ++ [⟨c, o, f.lt.carry, f.colour⟩] }

def execRetag (o : Out) (_rep : BitVec 16) (s : State) : Result :=
  onFiring s fun s f =>
    let ctx := (s.run f.run).ctx
    let c := (s.ctx ctx).resolve (bits f.rv 0 10)
    let st := ((s.ctx ctx).colour c).state
    if c != 0 && (st = .free || st = .draining) then s.park f 0x01 (word (bits f.rv 0 10))
    else
      let s := s.seed f o c
      (s.emitAs f o.ta f.lt.carry c 0).emitAs f o.tb f.lt.carry c 0

/-! ## Kinds and stops, R118, R119 -/

/-- The word that describes a token (R118). -/
def kindWord (t : Tok) : Word :=
  word (t.kind.code + t.level % 8 * 2 ^ 4 + (if t.rel then 2 ^ 8 else 0) +
    (if t.outside then 2 ^ 9 else 0))

def execKindq (o : Out) (_rep : BitVec 16) (s : State) : Result :=
  onFiring s fun s f => (s.emit f o.ta (Tok.data (kindWord f.lt))).emit f o.tb (Tok.data f.lv)

def execStopt (o : Out) (n : BitVec 3) (s : State) : Result :=
  onFiring s fun s f => s.emitOut f o (Tok.stop n.toNat)

/-! ## Kill waves, R120 -/

/-- The places a wave reaches: every lace element, seam and lighter port of the region (R120). -/
def Run.wavePlaces (x : Run) : List Nat :=
  x.elems.map Prod.fst ++ x.seams.map Prod.fst ++ x.ports.map Prod.fst

/-- Start a wave at an element of a run that purges colours; the KILL token of each carries its pool
level (R28, R120, R397). -/
def State.startWave (s : State) (r src : Nat) (colours : List Nat) (firing : Option (Firing × Out))
    (replay : Option Nat) : State :=
  let x := s.run r
  let levels := colours.map fun c => ((s.ctx x.ctx).colour c).level
  let (n, s) := s.takeId
  { s with waves := s.waves.put n ⟨r, colours, levels, src, x.wavePlaces, firing, replay, s.cycle⟩ }

/-- A kill of a colour whose purge for a replay is under way: it is killed and not replayed (R398). -/
def State.endReplay (s : State) (r c : Nat) : State :=
  { s with waves := s.waves.map fun w =>
      (w.1, if w.2.run = r && w.2.replay = some c then { w.2 with replay := none } else w.2) }

def execKill (o : Out) (_rep : BitVec 16) (s : State) : Result :=
  onFiring s fun s f =>
    let ctx := (s.run f.run).ctx
    let c := (s.ctx ctx).resolve (bits f.lv 0 10)
    if ((s.ctx ctx).colour c).state = .free then s.park f 0x01 (word (bits f.lv 0 10))
    else
      let s := s.editColour ctx c fun x =>
        { x with state := if x.state = .draining then .draining else .killed }
      (s.endReplay f.run c).startWave f.run f.elem [c] (some (f, o)) none

/-! ## Throttles, R122, R123 -/

/-- Pass a token through a THROTTLE slot: its tag joins the live set (R122). -/
def State.passThrottle (s : State) (f : Firing) (o : Out) (tags : List Nat) : State :=
  (s.editElem f.run f.elem fun e => e.setLive f.slot f.colour tags).emitOut f o f.lt.carry

/-- THROTTLE passes a token whose tag is live, or that the window has room for, and holds any other
in order of arrival (R122).  `w1` is the window less one. -/
def execThrottle (o : Out) (w1 : BitVec 10) (s : State) : Result :=
  onFiring s fun s f =>
    let live := (s.elem f.run f.elem).liveTags f.slot f.colour
    if live.contains f.iter then s.emitOut f o f.lt.carry
    else if live.length < w1.toNat + 1 then s.passThrottle f o (live ++ [f.iter])
    else s.editElem f.run f.elem fun e => { e with throttled := e.throttled ++ [f] }

def execRetire (o : Out) (_rep : BitVec 16) (s : State) : Result :=
  onFiring s fun s f => (s.emit f o.ta (Tok.data 1)).emit f o.tb f.lt.carry

end Sys2Proof.Machine
end

