-- ==== Sys2Proof/Machine/Activations.lean ====
section
/-! DEFINITION. What happens to tokens and activations between firings: arrival, commit, retirement,
the age limit, kill waves, the colour pool, throttles and promises (R34, R115, R116, R120 to R122,
R145, R156, R235 to R254, R287, R361, R396). -/

namespace Sys2Proof.Machine

/-! ## Sites that run -/

/-- A freeze wave has halted the site, or the launch is frozen (R361). -/
def State.haltedSite (s : State) (r key : Nat) : Bool := (s.run r).haltedAt s.cycle key

/-- The site belongs to a launch that runs (R344, R346, R358). -/
def State.alive (s : State) (r key : Nat) : Bool :=
  let x := s.run r
  let p := x.part (partOf key)
  x.state == .running && p.state == .running && !p.cancelled && !p.done && !s.haltedSite r key

/-! ## TOKEN_ARRIVAL, R21, R22, R25, R34 -/

/-- An element waits for its spill region: a token or a store-buffer entry found it full (R245). -/
def Elem.spillWaits (e : Elem) : Bool :=
  !e.spillHeld.isEmpty || e.parked.any fun p => p.cause = 0x06

/-- Until a SPILLFULL of an element is resumed, the element takes nothing from the mesh, also where a purge has
removed what it kept (R245). -/
def Run.spillWaits (x : Run) (key : Nat) : Bool :=
  let full (t : TrapRec) : Bool := t.cause = 0x06 && t.elem = key
  (x.elems.get key).spillWaits || x.presented.any full || x.trapQueue.any full

/-- The destination has no room: a queue of eight commands, or an element that waits for its spill
region (R166, R245).  A place that a freeze wave has halted takes what reaches it, so that the links become
empty (R361, R363; log 80). -/
def State.backPressed (s : State) (f : Flit) : Bool :=
  if (s.run f.run).haltedAt s.cycle f.dst then false
  else if f.cmd.isSome then (s.run f.run).queuedAt f.dst ≥ 8
  else (s.run f.run).spillWaits f.dst

/-- A token reaches its destination; one from outside that reaches a frozen launch waits in the
inbox (R25, R34, R362). -/
def execTokenArrival (n : Nat) (s : State) : Result :=
  .next (match s.flits.find n with
    | none => s
    | some f =>
      if s.behind n f then s
      else if (s.run f.run).state = .frozen then
        { s.editRun f.run fun x => { x with inbox := x.inbox.put n f } with flits := s.flits.del n }
      else if s.backPressed f then s
      else State.deliver { s with flits := s.flits.del n } f)

/-! ## Commit, R246 to R248 -/

/-- No firing of an identity is parked (R246, conditions 4 and 5). -/
def Elem.noneParked (e : Elem) (colour iter : Nat) : Bool :=
  e.parked.all fun p => p.firing.colour != colour || p.firing.iter != iter

/-- Reads and immediate writes of an activation are still to be performed, translated or taken up again. -/
def State.accessing (s : State) (r e uid : Nat) : Bool :=
  let mine (f : Firing) : Bool := f.run = r && f.elem = e && f.act = uid
  (s.reqs.any fun q => mine q.2.firing && q.2.cls != .buffered) ||
    (s.walks.any fun w => mine w.2.firing) ||
    (s.agenda.any fun h => match h.2 with
      | .refire f => mine f
      | _ => false)

/-- A read of an activation stands ready to fire at its slot (R288). -/
def Elem.readReady (e : Elem) (now : Nat) (a : Act) : Bool :=
  e.memSlots.any fun m =>
    m.2.cls = .read && !nbit a.mems m.2.lsid && (e.candOf (now + 1) m.1 a.colour a.iter).isSome

/-- A trap of an activation's commit waits for its resumption (R247). -/
def Run.commitTrapped (x : Run) (e uid : Nat) : Bool :=
  let is (t : TrapRec) : Bool := t.resume = .commit e uid
  x.trapQueue.any is || match x.presented with
    | some t => is t
    | none => false

/-- The conditions of a commit (R246): the counts, no parked firing, and no POISON consumed.  Its reads are
performed before it, as are its immediate writes, and it waits for its BARs (R145, R288, R296; log 32). -/
def State.commitReady (s : State) (r e : Nat) (a : Act) : Bool :=
  let x := s.elem r e
  s.alive r e && !a.committed && !a.poisoned && x.countsDone a && x.noneParked a.colour a.iter &&
    !s.accessing r e a.uid && !x.readReady s.cycle a && !(s.run r).commitTrapped e a.uid

/-- Insert a store by its LSID. -/
def insertStore (st : Store) : List Store → List Store
  | [] => [st]
  | x :: xs => if st.lsid < x.lsid then st :: x :: xs else x :: insertStore st xs

/-- The stores of an activation in LSID order. -/
def sortStores (xs : List Store) : List Store := xs.foldr insertStore []

/-- A buffered write leaves for its home; the mark of a word error goes with it (R393). -/
def Store.toReq (st : Store) (after : List Nat) : Req :=
  ⟨st.firing, st.out, st.op, .buffered, st.ea, st.home, st.size, st.data,
    if st.bad then 1 else st.extra, st.lsid, st.ord, .pending, after, none⟩

/-- Two buffered writes concern a byte in common. -/
def Store.overlaps (a b : Store) : Bool := overlap a.home (a.op.span a.size) b.home (b.op.span b.size)

/-- What a write of a commit follows but for its own release: earlier writes of its element to the same
block of this device, lower writes of its activation to bytes of its own, and what a fence puts before it
(R95, R145, R152, R292, R298).  `ids` are the commit's writes with their request numbers. -/
def State.follows (s : State) (a : Act) (ids : List (Nat × Store)) (st : Store) : List Nat :=
  let earlier := s.reqs.filterMap fun q =>
    if q.2.cls = .buffered && q.2.firing.run = st.firing.run && q.2.firing.elem = st.firing.elem &&
      !isFarHome st.home && blockIx q.2.home = blockIx st.home then some q.1 else none
  let own := ids.filterMap fun x =>
    let o := x.2
    let fence := a.fences.any fun f =>
      o.lsid < f.1 && f.1 < st.lsid && s.homeInside st.firing f.2 o.home
    if o.lsid < st.lsid && (o.overlaps st || fence) then some x.1 else none
  earlier ++ own

/-- What a write of a commit waits for: what it follows and, as a release, every other write of its
activation with a home in its scope, or what holds the others' issue (R146, R285, R286).  DEDUCED: of two
ordered writes the one of the lower LSID goes first, and waits not for the other (log 96). -/
def State.waitsFor (s : State) (a : Act) (ids : List (Nat × Store)) (n : Nat) (st : Store) : List Nat :=
  let rel := match st.ord with
    | none => []
    | some scope => ids.flatMap fun x =>
      let o := x.2
      if x.1 = n || (o.ord.isSome && st.lsid ≤ o.lsid) then []
      else if s.homeInside st.firing scope o.home then [x.1] else s.follows a ids o
  (s.follows a ids st ++ rel).filter fun k => k != n

/-- An effective address of this device lies in the scratch range of its graph, which is virtual (R366, R396). -/
def Run.inScratch (x : Run) (ea : Nat) : Bool :=
  let va := ea % 2 ^ 55
  x.plan.scrbase.toNat ≤ va && va < x.plan.scrbase.toNat + x.plan.scrsize.toNat

/-- The registers that WRS writes, by number (R161). -/
def CtxRegs.write (c : CtxRegs) (num : Nat) (v : Word) : CtxRegs :=
  match num with
  | 0x003 => { c with ctxbase := v }
  | 0x004 => { c with flags := bits v 0 6 }
  | 0x005 => { c with round := bits v 0 2 }
  | 0x006 => { c with seed := v }
  | 0x040 => { c with slack := bits v 0 16 }
  | n => if 0x010 ≤ n && n ≤ 0x017 then { c with cfl := listSet c.cfl (n - 0x010) (bits v 0 10) } else c

/-- The trap registers that WRS writes: only the value read later (R161). -/
def TrapRegs.write (t : TrapRegs) (num : Nat) (v : Word) : TrapRegs :=
  match num with
  | 0x020 => { t with valid := nbit v.toNat 32, seq := bits v 16 16, cause := bits v 0 8 }
  | 0x021 => { t with tokenA := v }
  | 0x022 => { t with tokenB := v }
  | 0x023 => { t with site := v }
  | 0x024 => { t with info := v }
  | _ => t

/-- A WRS takes effect: the register of the context, or of the launch's traps (R161, R164). -/
def State.writeReg (s : State) (r num : Nat) (v : Word) : State :=
  let s := s.editCtx (s.run r).ctx fun c => { c with regs := c.regs.write num v }
  s.editRun r fun x => { x with trapRegs := x.trapRegs.write num v }

/-- A commit finds a store to an engine-owned tile: it traps OWNER (R247). -/
def State.trapOwner (s : State) (r e : Nat) (a : Act) (st : Store) : State :=
  s.trap r { s.trapRecord st.firing 0x0B (word st.ea) (.commit e a.uid) with slot := st.firing.slot }

/-- The commit itself (R247). -/
def State.commit (s : State) (r e : Nat) (a : Act) : State :=
  let x := s.run r
  -- 2. the private flags
  let s := s.orFlags x.ctx a.flags
  -- 3. the buffered writes leave, with their ordering
  let stores := sortStores a.stores
  let ids := stores.zipIdx.map fun st => (s.nextId + st.2, st.1)
  let reqs : List (Nat × Req) := ids.map fun i => (i.1, i.2.toReq (s.waitsFor a ids i.1 i.2))
  let table : Tbl Req := reqs.foldl (fun (t : Tbl Req) (q : Nat × Req) => t.put q.1 q.2) s.reqs
  let s : State := { s with nextId := s.nextId + stores.length, reqs := table }
  let s := s.editElem r e fun y =>
    { y with helds := y.helds.map fun h =>
        if h.2.act = a.uid then
          (h.1, { h.2 with req := match ids.find? fun i => i.2.lsid = h.2.lsid with
            | some i => i.1
            | none => h.2.req })
        else h }
  let s := if stores.any fun st => st.op != .cancel && (st.far || !x.inScratch st.ea) then
      s.taint r a.colour else s
  -- 4. releases and register writes
  let s := s.editCtx x.ctx fun c => c.drain a.frees
  let s := a.wrs.foldl (fun s w =>
    (s.writeReg r w.2.2.1 w.2.2.2).emitOut w.1 w.2.1 w.1.lt.carry) s
  -- the held OWN commands wait at their tiles for the visibility of the stores (R159)
  let s := a.owns.foldl (fun s m =>
    let (n, s) := s.takeId
    let dst := e - siteOf e + bits m.word 0 6
    s.editRun r fun y =>
      { y with cmds := y.cmds.put n ⟨dst, m, .withheld a.uid, Prog.zero, 0, 0, [], false, none⟩ }) s
  -- 5. committed
  s.editAct r e a.uid fun b =>
    { b with
      committed := true
      commitAt := s.cycle
      flags := 0
      stores := []
      frees := []
      wrs := []
      owns := [] }

def execActivationCommit (r e uid : Nat) (s : State) : Result :=
  .next (match (s.elem r e).act uid with
    | none => s
    | some a =>
      if !s.commitReady r e a then s
      else match a.stores.find? fun st => s.engineOwned st.home with
        | some st => s.trapOwner r e a st
        | none => s.commit r e a)

/-! ## REL tokens and retirement, R235, R248 -/

/-- The write of a held token is visible at its scope (R248, R285). -/
def State.relVisible (s : State) (h : Held) : Bool :=
  h.req != 0 && match s.reqs.find h.req with
    | none => true
    | some q => !s.homeInside h.firing h.scope q.home && s.onItsWay h.req q

def execRelTokenSend (r e n : Nat) (s : State) : Result :=
  .next (match (s.elem r e).helds.find? fun h => h.1 = n with
    | none => s
    | some h =>
      if (s.run r).state = .frozen || !s.relVisible h.2 then s
      else (s.editElem r e fun x => { x with helds := x.helds.filter fun y => y.1 != n }).emitOut
        h.2.firing h.2.out h.2.tok)

/-- A firing of an activation is still under way: waiting for the pool, a promise, a throttle, a strand, the
window of far requests, a kill wave, memory, or to be taken up again (R160, R201, R235, R252, R373). -/
def State.underWay (s : State) (r e uid : Nat) : Bool :=
  let mine (f : Firing) : Bool := f.run = r && f.elem = e && f.act = uid
  let x := s.elem r e
  s.accessing r e uid ||
    ((s.ctx (s.run r).ctx).waiting.any fun w => mine w.firing) ||
    (x.waitts.any fun w => mine w.2) || (x.throttled.any mine) ||
    ((s.run r).strands.any fun st => st.2.firings.any mine) ||
    ((s.ctx (s.run r).ctx).far.waiting.any fun w => w.2.firing.any fun f => mine f.1) ||
    (s.waves.any fun w => match w.2.firing with
      | some (f, _) => mine f
      | none => false)

/-- A committed identity with nothing left at the element is forgotten, after the cycle of its commit
(R235, R246). -/
def execIdentityRetire (r e uid : Nat) (s : State) : Result :=
  .next (match (s.elem r e).act uid with
    | none => s
    | some a =>
      let x := s.elem r e
      if a.committed && a.commitAt < s.cycle && s.alive r e && x.noneParked a.colour a.iter &&
          (x.waiting.all fun w => w.colour != a.colour || w.iter != a.iter) &&
          !s.underWay r e uid then
        s.editElem r e fun x => { x with acts := x.acts.filter fun b => b.uid != uid }
      else s)

/-! ## The age limit, R254 -/

/-- The age at which an element's activations trap, in cycles; none without a limit (R67). -/
def Elem.ageLimit (e : Elem) : Option Nat :=
  let a := bits e.header 0 8
  if a = 0 then none else some (2 ^ a * 1024)

/-- An activation past its limit traps AGELIMIT, once until it is resumed (R254). -/
def State.checkAge (s : State) (r e : Nat) (a : Act) (limit : Nat) : State :=
  let age := s.cycle - a.opened
  if a.committed || a.aged || age < limit || !s.alive r e then s
  else
    let s := s.editAct r e a.uid fun b => { b with aged := true }
    s.trap r ⟨0x07, 0, e, 31, a.colour, a.iter, word age, s.openToken r, s.openToken r,
      .age e a.uid⟩

def State.checkElem (s : State) (r e : Nat) (x : Elem) : State :=
  match x.ageLimit with
  | none => s
  | some limit => x.acts.foldl (fun s a => s.checkAge r e a limit) s

/-- The check of every activation's age, every 1,024 cycles (R254). -/
def execAgeLimit (s : State) : Result :=
  .next (s.runs.foldl (fun s r =>
    r.2.elems.foldl (fun s e => s.checkElem r.1 e.1 e.2) s) s)

/-! ## Purges, R120, R121 -/

/-- The activations that a purge of colours removes: those that have not committed (R120). -/
def Elem.purgedActs (e : Elem) (cs : List Nat) : List Act :=
  e.acts.filter fun a => cs.contains a.colour && !a.committed

/-- What a purge leaves of an element (R120); spilled entries take the ways it frees (R243). -/
def Elem.purge (e : Elem) (cs : List Nat) : Elem :=
  let gone := (e.purgedActs cs).map Act.uid
  Elem.reloadAll { e with
    acts := e.acts.filter fun a => !gone.contains a.uid
    helds := e.helds.filter fun h => !gone.contains h.2.act
    waiting := e.waiting.filter fun w => !cs.contains w.colour
    parked := e.parked.filter fun p => !cs.contains p.firing.colour
    waitts := e.waitts.filter fun w => !cs.contains w.2.colour
    throttled := e.throttled.filter fun f => !cs.contains f.colour
    live := e.live.filter fun l => !cs.contains l.colour
    spillHeld := e.spillHeld.filter fun f => !cs.contains f.colour }

/-- The purge of colours at one place of a region (R120). -/
def State.purgeAt (s : State) (r key : Nat) (cs : List Nat) : State :=
  match siteKind (siteOf key) with
  | .lace =>
    let e := s.elem r key
    let gone := e.purgedActs cs
    let hit (f : Firing) : Bool :=
      f.run = r && f.elem = key && (gone.map Act.uid).contains f.act
    let s := s.editElem r key fun x => x.purge cs
    let s := s.editCtx (s.run r).ctx fun c =>
      { c.withdraw (gone.flatMap Act.frees) with
        waiting := c.waiting.filter fun w => !hit w.firing }
    { s with
      reqs := s.reqs.filter fun q => !(hit q.2.firing && q.2.cls != .buffered)
      walks := s.walks.filter fun w => !hit w.2.firing
      agenda := s.agenda.filter fun h => match h.2 with
        | .refire f => !hit f
        | _ => true }
  | .seam => s.editRun r fun x =>
    { x with seams := x.seams.edit key fun z =>
        { z with inputs := z.inputs.filter fun i => !cs.contains i.colour } }
  | _ => s

/-- An activation of the colours has committed at a place in this cycle: a purge of the cycle would have
come first, so it comes later (R121, R247). -/
def State.justCommitted (s : State) (r key : Nat) (cs : List Nat) : Bool :=
  (s.elem r key).acts.any fun a => a.committed && a.commitAt = s.cycle && cs.contains a.colour

/-- An earlier token of the urgent channel from the wave's element has yet to reach a place (R22, R25). -/
def State.urgentBefore (s : State) (n r src dst : Nat) : Bool :=
  s.killBefore n r src dst ||
    s.flits.any fun g =>
      g.1 < n && g.2.run = r && g.2.src = src && g.2.dst = dst && g.2.urgent

/-- A place takes no KILL token from the mesh while its element waits for its spill region (R245). -/
def State.killHeld (s : State) (w : Wave) (key : Nat) : Bool :=
  let x := s.run w.run
  key != w.src && x.spillWaits key && !x.haltedAt s.cycle key

/-- A KILL token reaches a place: it purges the colours and acknowledges (R25, R120). -/
def execKillTokenArrival (n key : Nat) (s : State) : Result :=
  .next (match s.waves.find n with
    | none => s
    | some w =>
      if !w.todo.contains key || (s.run w.run).state = .frozen || s.urgentBefore n w.run w.src key ||
          s.justCommitted w.run key w.colours || s.killHeld w key then s
      else
        let s := s.purgeAt w.run key w.colours
        let w := { w with todo := w.todo.filter fun k => k != key, asked := s.cycle }
        { s with waves := s.waves.put n w })

/-- A purge whose colour a KILL has killed meanwhile is over: its descendants are freed once they drain, and
nothing is replayed (R397, R398). -/
def State.endPurge (s : State) (n : Nat) (w : Wave) : State :=
  State.editCtx { s with waves := s.waves.del n } (s.run w.run).ctx fun c =>
    ((w.colours.drop 1).filter fun k => k != noColour).foldl
      (fun (c : Ctx) k => c.editColour k fun y => { y with state := .draining }) c

/-- Every element has acknowledged: the KILL emits its completion (R120).  The completion of a KILL of its own
colour is discarded (R121). -/
def execKillWaveComplete (n : Nat) (s : State) : Result :=
  .next (match s.waves.find n with
    | none => s
    | some w =>
      match w.firing with
      | some (f, o) =>
        if w.todo.isEmpty && (s.run w.run).state != .frozen then
          let s : State := { s with waves := s.waves.del n }
          if w.colours.contains f.colour then s else s.emitOut f o (Tok.data (word (bits f.lv 0 10)))
        else s
      | none => if w.todo.isEmpty && w.replay.isNone then s.endPurge n w else s)

/-! ## The colour pool, R115, R116, R250 -/

/-- The colours that deeper levels reserve: CFL(L+1) + … + CFL7 (R92, R115). -/
def CtxRegs.floorsAbove (c : CtxRegs) (level : Nat) : Nat :=
  (c.cfl.drop (level + 1)).foldl (· + ·) 0

/-- The waiting request the pool serves next: the deepest level, then arrival (R115); requests of
frozen launches wait for their restore. -/
def State.nextColnew (s : State) (c : Ctx) : Option ColWait :=
  c.waiting.foldl (fun best w =>
    if (s.run w.firing.run).state = .frozen then best
    else match best with
      | some b => if b.level < w.level then some w else some b
      | none => some w) none

/-- A colour that the pool may hand out (R250). -/
def Ctx.mayHand (c : Ctx) (n : Nat) : Bool := 0 < n && n < 1024 && (c.colour n).state == .free

/-- The pool has room for one more colour of a level (R115). -/
def Ctx.roomAt (c : Ctx) (level : Nat) : Bool := c.freeCount > c.regs.floorsAbove level

/-- A replay asks the pool for a colour: its purge is over, and its launch is not frozen (R397, R398). -/
def State.asksColour (s : State) (w : Wave) : Bool :=
  let x := s.run w.run
  w.replay.isSome && w.todo.isEmpty && x.state == .running && x.freeze.isNone

/-- The level at which a replay asks. -/
def State.askLevel (s : State) (w : Wave) : Nat :=
  match w.replay with
  | some n => ((s.ctx (s.run w.run).ctx).colour n).level
  | none => 0

/-- A request of the pool comes before another: a deeper level, then arrival (R115). -/
def poolBefore (level since level' since' : Nat) : Bool :=
  level > level' || (level = level' && since < since')

/-- A replay of a context comes before a request of the pool. -/
def State.replayFirst (s : State) (ctx level since : Nat) : Bool :=
  s.waves.any fun w => (s.run w.2.run).ctx = ctx && s.asksColour w.2 &&
    poolBefore (s.askLevel w.2) w.2.asked level since

/-- The pool serves a waiting COLNEW with a free colour (R115). -/
def execColnewGrant (ctx colour : Nat) (s : State) : Result :=
  .next (
    let c := s.ctx ctx
    match s.nextColnew c with
    | none => s
    | some w =>
      if !c.roomAt w.level || !c.mayHand colour || s.replayFirst ctx w.level w.since then s
      else
        let s := s.editCtx ctx fun c =>
          { c.editColour colour fun _ =>
              { Colour.fresh with
                state := .allocated
                level := w.level
                run := w.firing.run
                elem := w.firing.elem } with
            waiting := c.waiting.filter fun v => v != w }
        s.emitOut w.firing w.out (Tok.data (word (w.level * 1024 + colour))))

/-- Nothing of a colour is left at a launch (R116). -/
def Run.clearOf (x : Run) (n : Nat) : Bool :=
  (x.elems.all fun e =>
    (e.2.acts.all fun a => a.colour != n || a.committed) &&
    (e.2.waiting.all fun w => w.colour != n) &&
    (e.2.live.all fun l => l.colour != n) &&
    (e.2.throttled.all fun f => f.colour != n) &&
    (e.2.spillHeld.all fun f => f.colour != n)) &&
  (x.seams.all fun z => z.2.inputs.all fun i => i.colour != n) &&
  (x.inbox.all fun f => f.2.colour != n) &&
  (x.cmds.all fun c => c.2.msg.colour != n)

/-- Nothing of a colour is left anywhere in the context's regions (R116). -/
def State.colourClear (s : State) (ctx n : Nat) : Bool :=
  (s.runs.all fun r => r.2.ctx != ctx || r.2.clearOf n) &&
    (s.flits.all fun f => f.2.ctx != ctx || f.2.colour != n)

/-- A colour returns to free, and with it those it replaced (R116, R397); its seed records end, and no
colour descends from it any more (R396, R397). -/
def State.freeColour (s : State) (ctx n : Nat) : State :=
  let c := s.ctx ctx
  let back := n :: (c.colours.filter fun e => c.resolve e.1 = n).map Prod.fst
  let s := s.editCtx ctx fun c =>
    let c := back.foldl (fun (c : Ctx) k => c.editColour k fun _ => Colour.fresh) c
    { c with colours := c.colours.map fun e =>
        (e.1, { e.2 with parents := e.2.parents.filter fun n => !back.contains n }) }
  { s with runs := s.runs.map fun r =>
      if r.2.ctx = ctx then
        (r.1, { r.2 with elems := r.2.elems.map fun e =>
          (e.1, { e.2 with seeds := e.2.seeds.filter fun d => !back.contains d.colour }) })
      else r }

/-- A purge wave of the context has a colour in its set: it returns to free only after the wave, and after the
replay that follows it (R397). -/
def State.inPurge (s : State) (ctx n : Nat) : Bool :=
  s.waves.any fun w => w.2.firing.isNone && (s.run w.2.run).ctx = ctx && w.2.colours.contains n

def execColourDrain (ctx colour : Nat) (s : State) : Result :=
  .next (if ((s.ctx ctx).colour colour).state = .draining && s.colourClear ctx colour &&
      !s.inPurge ctx colour then
    s.freeColour ctx colour else s)

/-! ## Throttles, R122 -/

/-- The window of a THROTTLE slot, with its targets. -/
def Elem.throttleOf (e : Elem) (slot : Nat) : Option (Out × Nat) :=
  match decode ((e.slots[slot]?).getD 0) with
  | .ok (.throttle o w1) => some (o, w1.toNat + 1)
  | _ => none

/-- The held token that may pass a THROTTLE slot: the oldest of its colour, its tag live or the
window open (R122). -/
def Elem.mayPass (e : Elem) (slot w : Nat) (f : Firing) : Bool :=
  let live := e.liveTags slot f.colour
  f.slot = slot && (live.contains f.iter || live.length < w) &&
    (e.throttled.find? fun g => g.slot = slot && g.colour = f.colour) == some f

def execThrottlePass (r k slot : Nat) (s : State) : Result :=
  .next (
    let e := s.elem r k
    match e.throttleOf slot with
    | none => s
    | some (o, w) =>
      if !s.alive r k then s
      else match e.throttled.find? fun f => e.mayPass slot w f with
        | none => s
        | some f =>
          let live := e.liveTags slot f.colour
          let s := s.editElem r k fun x => { x with throttled := x.throttled.erase f }
          if live.contains f.iter then s.emitOut f o f.lt.carry
          else s.passThrottle f o (live ++ [f.iter]))

/-! ## Promises, R156 -/

/-- A due time of a promise word has passed at a clock: modulo 2^56 (R156). -/
def duePassed (now due : Nat) : Bool := (now % 2 ^ 56 + 2 ^ 56 - due % 2 ^ 56) % 2 ^ 56 < 2 ^ 55

/-- The copy a promise word names is outstanding at its lighter of the waiting die (R156, R281). -/
def State.copyOf (s : State) (r key : Nat) (promise : Word) : Option Copy :=
  let die := ((s.run r).part (partOf key)).die
  let h := bits promise 58 6
  if h = 0 then none
  else ((s.dies.get die).copies.get (bits promise 56 2)).find? fun c => c.handle = h

/-- The targets of the slot of a firing. -/
def State.outAt (s : State) (f : Firing) : Out :=
  match decode (((s.elem f.run f.elem).slots[f.slot]?).getD 0) with
  | .ok i => outOf i
  | .error _ => ⟨none, none, false⟩

/-- The due time of a waiting WAITT has passed and its copy is complete (R156). -/
def State.promiseKept (s : State) (r k : Nat) (f : Firing) : Bool :=
  !s.haltedSite r k && duePassed (s.clockAt r k) (bits f.lv 0 56) && (s.copyOf r k f.lv).isNone

/-- The copy of a waiting WAITT is incomplete at DUE plus the slack (R156). -/
def State.promiseMissed (s : State) (r k : Nat) (f : Firing) : Bool :=
  !s.haltedSite r k && duePassed (s.clockAt r k) (bits f.lv 0 56 + (s.ctx (s.run r).ctx).regs.slack) &&
    (s.copyOf r k f.lv).isSome

/-- WAITT passes its token at the due time once the copy is complete (R156); `forcedNow` lets no cycle
pass before it does. -/
def execPromiseDue (r k n : Nat) (s : State) : Result :=
  .next (match (s.elem r k).waitts.find? fun w => w.1 = n with
    | none => s
    | some (_, f) =>
      if !s.promiseKept r k f then s
      else (s.editElem r k fun e => { e with waitts := e.waitts.filter fun w => w.1 != n }).emitOut f
        (s.outAt f) f.lt.carry)

/-- A copy incomplete at DUE plus the slack traps PROMISE (R156); `forcedNow` lets no cycle pass before
it does. -/
def execPromise (r k n : Nat) (s : State) : Result :=
  .next (match (s.elem r k).waitts.find? fun w => w.1 = n with
    | none => s
    | some (_, f) =>
      if !s.promiseMissed r k f then s
      else (s.editElem r k fun e =>
        { e with waitts := e.waitts.filter fun w => w.1 != n }).park f 0x08 f.lv)

end Sys2Proof.Machine
end

