-- ==== Sys2Proof/Machine/Funcs.lean ====
section
/-! DEFINITION. The six functions of R142, correctly rounded: an enclosure of the exact result in
fixed point, with the precision raised until both ends round to the same result. -/

namespace Sys2Proof.Machine

/-- Divide by 2^k, rounding down. -/
def shr (x k : Nat) : Nat := x >>> k

/-- Σ y^(2i+1)/(2i+1) for a fraction y in `p` bits: the series of atanh, `n` terms. -/
def atanhSeries : Nat → Nat → Nat → Nat → Nat → Nat
  | 0, _, _, _, _ => 0
  | n + 1, p, y2, t, k => t / k + atanhSeries n p y2 (shr (t * y2) p) (k + 2)

/-- Σ (-1)^i y^(2i+1)/(2i+1): the series of arctan, as a difference of two sums. -/
def atanSeries : Nat → Nat → Nat → Nat → Nat → Int → Int
  | 0, _, _, _, _, _ => 0
  | n + 1, p, d2, t, k, s => s * ((t / k : Nat) : Int) + atanSeries n p d2 (t / d2) (k + 2) (-s)

/-- ln 2 in `p` fraction bits, within `p` units: 2 atanh(1/3). -/
def ln2Fix (p : Nat) : Nat :=
  let y := 2 ^ p / 3
  2 * atanhSeries (p / 3 + 2) p (shr (y * y) p) y 1

/-- π in `p` fraction bits, within 16 p units: 16 atan(1/5) − 4 atan(1/239). -/
def piFix (p : Nat) : Nat :=
  let a := atanSeries (p / 4 + 2) p 25 (2 ^ p / 5) 1 1
  let b := atanSeries (p / 14 + 2) p (239 * 239) (2 ^ p / 239) 1 1
  (16 * a - 4 * b).toNat

/-- Σ x^i / i! for a fraction x in `p` bits. -/
def expSeries : Nat → Nat → Nat → Nat → Nat → Nat
  | 0, _, _, _, _ => 0
  | n + 1, p, x, t, k => t + expSeries n p x (shr (t * x) p / k) (k + 1)

/-- Σ (-1)^i x^(2i+b)/(2i+b)!: sine for b = 1, cosine for b = 0. -/
def trigSeries : Nat → Nat → Nat → Nat → Nat → Int → Int
  | 0, _, _, _, _, _ => 0
  | n + 1, p, x2, t, k, s =>
    s * (t : Int) + trigSeries n p x2 (shr (t * x2) p / (k * (k + 1))) (k + 2) (-s)

/-- Round an enclosure lo × 2^e < |x| < hi × 2^e: the result where both ends agree. -/
def roundBoth (f : FSpec) (mode : RMode) (neg : Bool) (lo hi : Nat) (e : Int) :
    Option (Nat × Nat) :=
  let a := roundF f mode neg (2 * lo + 1) (e - 1)
  let b := roundF f mode neg (2 * hi - 1) (e - 1)
  if a = b then some a else none

/-- An enclosure of |result| at a precision: sign, low end, high end, exponent. -/
abbrev Encl := Nat → Bool × Nat × Nat × Int

/-- Raise the precision until the enclosure rounds one way; the last try's low end stands where the
fuel runs out (log 16). -/
def settle (f : FSpec) (mode : RMode) (g : Encl) : Nat → Nat → Nat × Nat
  | 0, p => let (neg, lo, _, e) := g p; roundF f mode neg (2 * lo + 1) (e - 1)
  | fuel + 1, p =>
    let (neg, lo, hi, e) := g p
    match roundBoth f mode neg lo hi e with
    | some r => r
    | none => settle f mode g fuel (2 * p)

/-- The precision the first try takes: twice the format's, and what a small argument loses. -/
def firstPrec (f : FSpec) (m : Nat) (e : Int) : Nat :=
  2 * f.mbits + 40 + (-(expOf m e)).toNat

/-- 2^x for a finite x that is no integer: x = k + r with 0 < r < 1. -/
def exp2Encl (x e : Int) : Encl := fun p =>
  -- x × 2^e with e < 0
  let d : Int := (2 : Int) ^ (-e).toNat
  let k := x / d
  let r := (x % d).toNat
  let fx := (r <<< p) / d.toNat
  let y := shr (fx * ln2Fix p) p
  let s := expSeries (p + 4) p y (2 ^ p) 1
  let err := 8 * p + 64
  (false, s - err, s + err, k - p)

/-- FEXP2 (R142). -/
def fExp2 (f : FSpec) (mode : RMode) (a : FVal) : Nat × Nat :=
  match a with
  | .nan _ => nanF f (anySig [a])
  | .inf n => if n then (signBit f false, 0) else (infBits f false, 0)
  | .fin n m e =>
    if m = 0 then roundF f mode false 1 0
    else if expOf m e > 20 then
      -- far beyond every format's range
      if n then roundF f mode false 1 (-(2 : Int) ^ 20) else roundF f mode false 1 ((2 : Int) ^ 20)
    else
      let x := signed n m
      if e ≥ 0 then roundF f mode false 1 (x * (2 : Int) ^ e.toNat)
      else
        let d : Int := (2 : Int) ^ (-e).toNat
        if x % d = 0 then roundF f mode false 1 (x / d)
        else settle f mode (exp2Encl x e) 12 (firstPrec f m e)

/-- log2 of a positive m × 2^e that is no power of two: the exponent plus log2 of a fraction in
[1, 2), or, for a fraction above √2, one more and log2 of its half. -/
def log2Encl (m : Nat) (e : Int) : Encl := fun p0 =>
  let p := p0 + f64slack
  let k := Nat.log2 m
  -- y in [1, 2) as a rational m / 2^k; z in [3/4, 3/2)
  let up := 2 * m > 3 * 2 ^ k
  let den := if up then 2 ^ (k + 1) else 2 ^ k
  let ex : Int := (k : Int) + e + (if up then 1 else 0)
  let big := m ≥ den
  let num := if big then m - den else den - m
  let t := (num <<< p) / (m + den)
  let l := 2 * atanhSeries (p + 2) p (shr (t * t) p) t 1
  -- |log2 z| = l / ln 2
  let lg := (l <<< p) / ln2Fix p
  let err := 8 * p + 64
  let v : Int := ex * (2 : Int) ^ p + (if big then (lg : Int) else -(lg : Int))
  (decide (v < 0), v.natAbs - err, v.natAbs + err, -(p : Int))
where
  /-- the bits a result close to zero loses: at most the mantissa of FP64 -/
  f64slack : Nat := 64

/-- FLOG2 (R142). -/
def fLog2 (f : FSpec) (mode : RMode) (a : FVal) : Nat × Nat :=
  match a with
  | .nan _ => nanF f (anySig [a])
  | .inf n => if n then nanF f NV else (infBits f false, 0)
  | .fin n m e =>
    if m = 0 then (infBits f true, DZ)
    else if n then nanF f NV
    else if m = 2 ^ Nat.log2 m then
      let x := (Nat.log2 m : Int) + e
      roundF f mode (decide (x < 0)) x.natAbs 0
    else settle f mode (log2Encl m e) 12 (2 * f.mbits + 40)

/-- FRCP (R142). -/
def fRcp (f : FSpec) (mode : RMode) (a : FVal) : Nat × Nat := fDiv f mode (.fin false 1 0) a

/-- FRSQ (R142): 1/√x is the square root of a quotient, with what either step loses folded in. -/
def fRsq (f : FSpec) (mode : RMode) (a : FVal) : Nat × Nat :=
  match a with
  | .nan _ => nanF f (anySig [a])
  | .inf n => if n then nanF f NV else (signBit f false, 0)
  | .fin n m e =>
    if m = 0 then (infBits f n, DZ)
    else if n then nanF f NV
    else
      -- 1/√(m 2^e) = √(2^(2k) / m) × 2^(-k - e/2), with e even
      let m' := if e % 2 = 0 then m else 2 * m
      let e' := if e % 2 = 0 then e else e - 1
      let k := f.mbits + 4 + Nat.log2 m'
      let q := (2 ^ (2 * k)) / m'
      let r := isqrt q
      let exact := r * r * m' = 2 ^ (2 * k)
      roundF f mode false (jam r (!exact)) (-(k : Int) - e' / 2 - 1)

/-- sin(πt) or cos(πt) for a fraction t = num / 2^k in (0, 1/2). -/
def trigEncl (cosine : Bool) (neg : Bool) (num k : Nat) : Encl := fun p =>
  let x := (num * piFix p) >>> k
  let x2 := shr (x * x) p
  let v := if cosine then trigSeries (p + 2) p x2 (2 ^ p) 1 1
    else trigSeries (p + 2) p x2 x 2 1
  let err := 32 * p + 256
  (neg, v.toNat - err, v.toNat + err, -(p : Int))

/-- sin(πx) for a finite x ≠ 0, from its remainder modulo 2 in units of 2^-k: `r` in [0, 2). -/
def sinTurn (f : FSpec) (mode : RMode) (neg : Bool) (r k p : Nat) : Nat × Nat :=
  -- r / 2^k in [0, 2): the half-turn gives the sign
  let half := 2 ^ k
  let s := r ≥ half
  let a := if s then r - half else r
  -- a / 2^k in [0, 1): sin(πa) = sin(π(1 - a))
  let b := if 2 * a > half then half - a else a
  if b = 0 then (signBit f neg, 0)
  else if 2 * b = half then roundF f mode (neg != s) 1 0
  else if 4 * b ≤ half then settle f mode (trigEncl false (neg != s) b k) 12 p
  else settle f mode (trigEncl true (neg != s) (half - 2 * b) (k + 1)) 12 p

/-- FSINP (R142): an integer gives a zero with its own sign. -/
def fSinp (f : FSpec) (mode : RMode) (a : FVal) : Nat × Nat :=
  match a with
  | .nan _ => nanF f (anySig [a])
  | .inf _ => nanF f NV
  | .fin n m e =>
    if m = 0 then (signBit f n, 0)
    else if e ≥ 0 then (signBit f n, 0)
    else
      let k := (-e).toNat
      sinTurn f mode n (m % 2 ^ (k + 1)) k (firstPrec f m e)

/-- FCOSP (R142): cos(πx) = sin(π(|x| + 1/2)); a half-integer gives +0. -/
def fCosp (f : FSpec) (mode : RMode) (a : FVal) : Nat × Nat :=
  match a with
  | .nan _ => nanF f (anySig [a])
  | .inf _ => nanF f NV
  | .fin _ m e =>
    if m = 0 then roundF f mode false 1 0
    else if e ≥ 0 then
      roundF f mode (e = 0 && m % 2 = 1) 1 0
    else
      let k := (-e).toNat
      let r := (m + 2 ^ (k - 1)) % 2 ^ (k + 1)
      if r % 2 ^ k = 0 then (signBit f false, 0)
      else sinTurn f mode false r k (2 * firstPrec f m e)

end Sys2Proof.Machine
end

