-- ==== Sys2Proof/Machine/FloatOps.lean ====
section
/-! DEFINITION. Float instructions: opcodes 0x40 to 0x53 (R136 to R143). -/

namespace Sys2Proof.Machine

/-! ## Shapes -/

/-- The low bits of a payload as a value of a format (R136). -/
def floatOf (f : FSpec) (x : Word) (lane : Nat) : FVal := decodeF f (bits x (lane * f.width) f.width)

/-- A float operation on two operands: on the low bits, or on both FP32 lanes with their flags ORed
(R136). -/
def fltMap2 (f : FSpec) (packed : Bool) (g : FVal → FVal → Nat × Nat) (l r : Word) : Word × Nat :=
  let one (k : Nat) := g (floatOf f l k) (floatOf f r k)
  if packed then (joinLanes 32 [(one 0).1, (one 1).1], (one 0).2 ||| (one 1).2)
  else (word (one 0).1, (one 0).2)

def fltMap1 (f : FSpec) (g : FVal → Nat × Nat) (l : Word) : Word × Nat :=
  let y := g (floatOf f l 0)
  (word y.1, y.2)

/-- A rounding instruction of two operands. -/
def fltBinary (o : Out) (f : FltForm) (g : FSpec → RMode → FVal → FVal → Nat × Nat) (s : State) :
    Result :=
  computingFl o (fun s x =>
    fltMap2 (fspec f.fmt) f.packed (g (fspec f.fmt) (s.roundOf x.run f.rnd)) x.lv x.rv) s

/-- A rounding instruction of one operand. -/
def fltUnary (o : Out) (fmt : FloatFmt) (rnd : Rounding) (g : FSpec → RMode → FVal → Nat × Nat)
    (s : State) : Result :=
  computingFl o (fun s x => fltMap1 (fspec fmt) (g (fspec fmt) (s.roundOf x.run rnd)) x.lv) s

/-! ## Arithmetic, R138 -/

def execFadd (o : Out) (f : FltForm) (s : State) : Result := fltBinary o f fAdd s

def execFsub (o : Out) (f : FltForm) (s : State) : Result := fltBinary o f fSub s

def execFmul (o : Out) (f : FltForm) (s : State) : Result := fltBinary o f fMul s

/-- FMA reads its third operand from a hold register, both lanes of it in packed form (R138). -/
def fmaWord (f : FSpec) (packed : Bool) (mode : RMode) (l r h : Word) : Word × Nat :=
  let one (k : Nat) := fFma f mode (floatOf f l k) (floatOf f r k) (floatOf f h k)
  if packed then (joinLanes 32 [(one 0).1, (one 1).1], (one 0).2 ||| (one 1).2)
  else (word (one 0).1, (one 0).2)

def execFma (o : Out) (fmt : FloatFmt) (packed : Bool) (rnd : Rounding) (k : BitVec 3) (s : State) :
    Result :=
  computingFl o (fun s x =>
    fmaWord (fspec fmt) packed (s.roundOf x.run rnd) x.lv x.rv (s.hold x k.toNat)) s

def execFdiv (o : Out) (fmt : FloatFmt) (rnd : Rounding) (_rep : BitVec 16) (s : State) : Result :=
  fltBinary o ⟨fmt, false, rnd, 0⟩ fDiv s

def execFsqrt (o : Out) (fmt : FloatFmt) (rnd : Rounding) (_rep : BitVec 16) (s : State) : Result :=
  fltUnary o fmt rnd fSqrt s

/-! ## Minimum, maximum, sign and comparison, R139, R140 -/

/-- An operation on bit patterns, of the low bits or of both FP32 lanes. -/
def patMap2 (f : FSpec) (packed : Bool) (g : Nat → Nat → Nat × Nat) (l r : Word) : Word × Nat :=
  let one (k : Nat) := g (bits l (k * f.width) f.width) (bits r (k * f.width) f.width)
  if packed then (joinLanes 32 [(one 0).1, (one 1).1], (one 0).2 ||| (one 1).2)
  else (word (one 0).1, (one 0).2)

def execFmin (o : Out) (fmt : FloatFmt) (packed : Bool) (_rep : BitVec 16) (s : State) : Result :=
  computingFl o (fun _ x => patMap2 (fspec fmt) packed (fMinMax (fspec fmt) false) x.lv x.rv) s

def execFmax (o : Out) (fmt : FloatFmt) (packed : Bool) (_rep : BitVec 16) (s : State) : Result :=
  computingFl o (fun _ x => patMap2 (fspec fmt) packed (fMinMax (fspec fmt) true) x.lv x.rv) s

/-- The sign of FSGN's result, from the two operands' signs (R139). -/
def fsgnSign (m : Nat) (l r : Bool) : Bool :=
  match m with
  | 0 => r
  | 1 => !r
  | 2 => l != r
  | _ => !l

def fsgnLane (f : FSpec) (m a b : Nat) : Nat :=
  let h := 2 ^ (f.width - 1)
  a % h + signBit f (fsgnSign m (a / h % 2 = 1) (b / h % 2 = 1))

def execFsgn (o : Out) (fmt : FloatFmt) (packed : Bool) (m : BitVec 2) (s : State) : Result :=
  computing o (fun _ x =>
    (patMap2 (fspec fmt) packed (fun a b => (fsgnLane (fspec fmt) m.toNat a b, 0)) x.lv x.rv).1) s

/-- FCMP: 1 or 0, or lanes of all ones or all zeros (R140). -/
def fcmpWord (f : FSpec) (packed : Bool) (cc : Cond) (l r : Word) : Word × Nat :=
  let one (k : Nat) := fCmp cc (floatOf f l k) (floatOf f r k)
  let ones (b : Bool) : Nat := if b then 2 ^ 32 - 1 else 0
  if packed then (joinLanes 32 [ones (one 0).1, ones (one 1).1], (one 0).2 ||| (one 1).2)
  else (if (one 0).1 then 1 else 0, (one 0).2)

def execFcmp (o : Out) (fmt : FloatFmt) (packed : Bool) (cc : Cond) (_rep : BitVec 16) (s : State) :
    Result :=
  computingFl o (fun _ x => fcmpWord (fspec fmt) packed cc x.lv x.rv) s

/-! ## Conversions, R141 -/

/-- FCVT: an element of one format in the low bits to another; the same format copies the element
and makes a NaN canonical (R141). -/
def fcvtWord (dst src : Nat) (mode : RMode) (nanov : Bool) (l : Word) : Word × Nat :=
  let x := bits l 0 (fmtBits src)
  let v := elemVal src x
  if dst = src && !v.isNaN then (word x, 0)
  else
    let (y, fl) := convertTo dst mode nanov v
    (word y, fl)

def execFcvt (o : Out) (rnd : Rounding) (nanov : Bool) (dst src : BitVec 8) (s : State) : Result :=
  computingFl o (fun s x => fcvtWord dst.toNat src.toNat (s.roundOf x.run rnd) nanov x.lv) s

/-- An integer format of R43: whether it is signed. -/
def isSignedFmt (id : Nat) : Bool := id ≤ 4

/-- The limits of an integer format (R43, R141). -/
def intLimits (id : Nat) : Int × Int :=
  let w := fmtBits id
  if isSignedFmt id then (-((2 : Int) ^ (w - 1)), (2 : Int) ^ (w - 1) - 1) else (0, (2 : Int) ^ w - 1)

/-- FTOI: round in the slot's mode, clamp with SAT, NaN gives 0 with NV (R141). -/
def ftoiWord (id : Nat) (mode : RMode) (v : FVal) : Word × Nat :=
  let (lo, hi) := intLimits id
  match v with
  | .nan _ => (0, NV)
  | .inf neg => (wordI (if neg then lo else hi), SAT)
  | .fin neg m e =>
    let (y, lost) := roundInt mode neg m e
    if y > hi then (wordI hi, SAT)
    else if y < lo then (wordI lo, SAT)
    else (wordI y, flagIf lost NX)

def execFtoi (o : Out) (fmt : FloatFmt) (rnd : Rounding) (id : BitVec 8) (s : State) : Result :=
  computingFl o (fun s x => ftoiWord id.toNat (s.roundOf x.run rnd) (floatOf (fspec fmt) x.lv 0)) s

/-- ITOF: the low bits of left, read in an integer format, to a float format (R141). -/
def itofWord (f : FSpec) (id : Nat) (mode : RMode) (l : Word) : Word × Nat :=
  let (y, fl) := encodeF f mode (elemVal id (bits l 0 (fmtBits id)))
  (word y, fl)

def execItof (o : Out) (fmt : FloatFmt) (rnd : Rounding) (id : BitVec 8) (s : State) : Result :=
  computingFl o (fun s x => itofWord (fspec fmt) id.toNat (s.roundOf x.run rnd) x.lv) s

/-! ## The six functions, R142 -/

def execFexp2 (o : Out) (fmt : FloatFmt) (rnd : Rounding) (_rep : BitVec 16) (s : State) : Result :=
  fltUnary o fmt rnd fExp2 s

def execFlog2 (o : Out) (fmt : FloatFmt) (rnd : Rounding) (_rep : BitVec 16) (s : State) : Result :=
  fltUnary o fmt rnd fLog2 s

def execFrcp (o : Out) (fmt : FloatFmt) (rnd : Rounding) (_rep : BitVec 16) (s : State) : Result :=
  fltUnary o fmt rnd fRcp s

def execFrsq (o : Out) (fmt : FloatFmt) (rnd : Rounding) (_rep : BitVec 16) (s : State) : Result :=
  fltUnary o fmt rnd fRsq s

def execFsinp (o : Out) (fmt : FloatFmt) (rnd : Rounding) (_rep : BitVec 16) (s : State) : Result :=
  fltUnary o fmt rnd fSinp s

def execFcosp (o : Out) (fmt : FloatFmt) (rnd : Rounding) (_rep : BitVec 16) (s : State) : Result :=
  fltUnary o fmt rnd fCosp s

/-! ## Class, R143 -/

/-- The class bit of a pattern (R143). -/
def classBit (f : FSpec) (x : Nat) : Nat :=
  let sub (m : Nat) (e : Int) : Bool := expOf m e < f.emin
  match decodeF f x with
  | .nan true => 8
  | .nan false => 9
  | .inf neg => if neg then 0 else 7
  | .fin neg m e =>
    if m = 0 then (if neg then 3 else 4)
    else if sub m e then (if neg then 2 else 5)
    else if neg then 1 else 6

def execFclass (o : Out) (fmt : FloatFmt) (_rep : BitVec 16) (s : State) : Result :=
  computing o (fun _ x =>
    word (2 ^ classBit (fspec fmt) (bits x.lv 0 (fspec fmt).width))) s

end Sys2Proof.Machine
end

