-- ==== Sys2Proof/Machine/System.lean ====
section
/-! DEFINITION. Time, system registers and the instructions that raise traps: CYCLE, WAITT, RDS, WRS,
FLAGS, SITE, PERF, BRK, TRAP, ASSERT (R155, R156, R161, R162, R164, R165). -/

namespace Sys2Proof.Machine

/-! ## Time, R155, R156 -/

/-- CYCLE reads the copy of the counter that the element's die keeps (R9, R155). -/
def execCycle (o : Out) (_rep : BitVec 16) (s : State) : Result :=
  computing o (fun s f => word (s.clockAt f.run f.elem)) s

/-- WAITT passes its token, or waits for the due time and the copy (R156). -/
def execWaitt (o : Out) (_rep : BitVec 16) (s : State) : Result :=
  onFiring s fun s f =>
    if duePassed (s.clockAt f.run f.elem) (bits f.lv 0 56) && (s.copyOf f.run f.elem f.lv).isNone then
      s.emitOut f o f.lt.carry
    else
      let (n, s) := s.takeId
      s.editElem f.run f.elem fun e => { e with waitts := e.waitts ++ [(n, f)] }

/-! ## System registers, R161 -/

/-- TRAPCAUSE (R161). -/
def TrapRegs.causeWord (t : TrapRegs) : Word :=
  word ((if t.valid then 2 ^ 32 else 0) + t.seq % 65536 * 2 ^ 16 + t.cause % 256)

/-- SITEID of an element: this device and the element's place (R161). -/
def State.siteId (s : State) (r key : Nat) : Word :=
  let p := (s.run r).part (partOf key)
  destWord s.life.devid 0 p.die (p.cluster (cluOf key)) (siteOf key) 0 0 0

/-- The value RDS reads (R161). -/
def State.readReg (s : State) (f : Firing) (num : Nat) : Word :=
  let x := s.run f.run
  let c := s.ctx x.ctx
  match num with
  | 0x000 => word (s.clockAt f.run f.elem)
  | 0x001 => s.siteId f.run f.elem
  | 0x002 => word x.ctx
  | 0x003 => c.regs.ctxbase
  | 0x004 => word c.regs.flags
  | 0x005 => word c.regs.round
  | 0x006 => c.regs.seed
  | 0x008 => word c.far.serialNext
  | 0x009 => word (c.far.fullMark % 65536)
  | 0x00A => word c.far.serials.length
  | 0x018 => word c.freeCount
  | 0x020 => x.trapRegs.causeWord
  | 0x021 => x.trapRegs.tokenA
  | 0x022 => x.trapRegs.tokenB
  | 0x023 => x.trapRegs.site
  | 0x024 => x.trapRegs.info
  | 0x040 => word c.regs.slack
  | n => if 0x010 ≤ n && n ≤ 0x017 then word ((c.regs.cfl[n - 0x010]?).getD 0) else 0

def execRds (o : Out) (num : BitVec 12) (s : State) : Result :=
  computing o (fun s f => s.readReg f num.toNat) s

/-- WRS writes at its activation's commit, and emits its left token then; in a trailing firing the
commit has been (R161, R236). -/
def execWrs (o : Out) (num : BitVec 12) (s : State) : Result :=
  onFiring s fun s f =>
    let pending := match (s.elem f.run f.elem).act f.act with
      | some a => !a.committed
      | none => false
    if pending then
      s.editAct f.run f.elem f.act fun a => { a with wrs := a.wrs ++ [(f, o, num.toNat, f.lv)] }
    else (s.writeReg f.run num.toNat f.lv).emitOut f o f.lt.carry

/-! ## The other system opcodes, R162 -/

def execFlags (o : Out) (_rep : BitVec 16) (s : State) : Result :=
  computing o (fun s f =>
    match (s.elem f.run f.elem).act f.act with
    | some a => word a.flags
    | none => 0) s

/-- The destination word of a target, with DEV 0xFF and the firing's colour and tag (R162). -/
def State.targetWord (s : State) (f : Firing) (t : Target) : Word :=
  match t with
  | .site p slot dx dy =>
    s.placeWord 0xFF f.run (targetKey f.elem dx dy) slot.toNat p.toBits.toNat f.colour f.iter
  | .hold _ => 0

def execSite (o : Out) (t : Target) (s : State) : Result :=
  computing o (fun s f => s.targetWord f t) s

def execPerf (o : Out) (k : BitVec 3) (s : State) : Result :=
  computing o (fun s f => word (((s.elem f.run f.elem).perf[k.toNat]?).getD 0)) s

/-- The mark of a firing that BRK parked (R162). -/
def brkMark : Nat := 0x200

/-- A freeze of a graph is ordered, unless one is under way (R361, R365); `freezeWave` starts it. -/
def State.orderFreeze (s : State) (r : Nat) (z : Freeze) : State :=
  s.editRun r fun x => if x.freeze.isSome then x else { x with freeze := some z }

/-- A freeze that no command of the context orders (R162, R351). -/
def State.startFreeze (s : State) (r : Nat) (out : Bool) : State := s.orderFreeze r ⟨none, out, false⟩

/-- BRK with debug parks and freezes its launch; otherwise it is a MOV (R162). -/
def execBrk (o : Out) (_rep : BitVec 16) (s : State) : Result :=
  onFiring s fun s f =>
    if (s.run f.run).debug then
      let (uid, s) := s.takeId
      (s.editElem f.run f.elem fun e => { e with parked := e.parked ++ [⟨uid, f, brkMark⟩] }).startFreeze
        f.run false
    else s.emitOut f o f.lt.carry

/-! ## Software traps, R165 -/

def execTrap (_o : Out) (code : BitVec 16) (s : State) : Result :=
  onFiring s fun s f => s.park f 0x0E (word code.toNat)

def execAssert (o : Out) (code : BitVec 16) (s : State) : Result :=
  onFiring s fun s f =>
    if f.lv != 0 then s.emitOut f o f.lt.carry else s.park f 0x0F (word code.toNat)

end Sys2Proof.Machine
end

