-- ==== Sys2Proof/Machine/Engines.lean ====
section
/-! DEFINITION. What all engine commands share: issue, the reading and writing of blocks and beats,
faults, and the use counts of tiles (R31, R77, R166 to R169, R258, R302 to R304, R346, R374, R393). -/

namespace Sys2Proof.Machine

/-! ## Issue, R77, R166 -/

/-- A command word whose port l is a trigger carries operand word 0 (R166); the others carry
left.val. -/
def State.sendCommand (s : State) (f : Firing) (c : Cmd) (operand : Word) : State :=
  let m : CmdMsg := ⟨s.slotWord f, f.elem, f.slot, f.colour, f.iter, operand⟩
  let (n, s) := s.takeId
  let dst := f.elem - siteOf f.elem + c.site.toNat
  s.addFlit n ⟨f.run, f.elem, dst, 0, 0, (s.run f.run).ctx, f.colour, f.iter,
    { Tok.data operand with kind := .command }, some m, false, false⟩

/-- An engine word: under a firing it sends its command, at its engine it does one unit of work. -/
def onEngine (s : State) (c : Cmd) (trigger : Bool)
    (work : State → Nat → Nat → Command → State) : Result :=
  match s.focus with
  | .firing f =>
    .next (s.idle.sendCommand f c (if trigger then 0 else f.lv))
  | .engine r n =>
    match (s.run r).cmds.find n with
    | some k => .next (work s.idle r n k)
    | none => .next s.idle
  | _ => .fault .noAgent

/-! ## A command's own state -/

def State.editCmd (s : State) (r n : Nat) (f : Command → Command) : State :=
  s.editRun r fun x => { x with cmds := x.cmds.edit n f }

def State.setProg (s : State) (r n : Nat) (p : Prog) : State :=
  s.editCmd r n fun c => { c with prog := p, farBlk := none }

/-- The command's work is over; its completion follows (R167). -/
def State.finish (s : State) (r n : Nat) (payload : Word) : State :=
  s.editCmd r n fun c => { c with state := .finished payload }

/-- Flags a command raises, ORed into FLAGS at its completion (R53, R167). -/
def State.cmdFlags (s : State) (r n fl : Nat) : State :=
  if fl = 0 then s else s.editCmd r n fun c => { c with flags := c.flags ||| fl }

/-- A frame at the start of a launch (R170, log 4). -/
def Frame.start : Frame :=
  ⟨[], [], [], 64, 64, 0, none, 0x3F800000, 0x3F800000, BitVec.allOnes 64, 0, 0⟩

def State.frame (s : State) (r key : Nat) : Frame := ((s.run r).frames.find key).getD Frame.start

def State.editFrame (s : State) (r key : Nat) (f : Frame → Frame) : State :=
  s.editRun r fun x => { x with frames := x.frames.put key (f ((x.frames.find key).getD Frame.start)) }

/-- A command of a frame stopped at a fault leaves its progress in MROWP (R169, R174). -/
def State.stopAt (s : State) (r key next : Nat) : State :=
  s.editFrame r key fun f => { f with mrowp := some next }

/-- A command of a frame goes on or ends: MROWP VALID clears (R170). -/
def State.clearStop (s : State) (r key : Nat) : State :=
  s.editFrame r key fun f => { f with mrowp := none }

/-- NEXT of MROWP for a command that stops: its block or row.  DESIGN CHOICE: 0 for MZERO, which has none (R170;
log 94). -/
def Command.nextRow (c : Command) : Nat :=
  match decode c.msg.word with
  | .ok (.mzero ..) | .ok (.mzeroAuto ..) => 0
  | _ => c.prog.i

/-- A command stops at a fault; a frame records its progress (R169, R170, R174, R176). -/
def State.stopCmd (s : State) (r n : Nat) (c : Command) : State :=
  let s := s.editCmd r n fun k => { k with state := .stopped }
  if siteKind (siteOf c.elem) == .frame then s.stopAt r c.elem c.nextRow else s

/-- A stopped command goes on or ends (R169, R170). -/
def State.clearRow (s : State) (r n : Nat) : State :=
  match (s.run r).cmds.find n with
  | some c => if siteKind (siteOf c.elem) == .frame then s.clearStop r c.elem else s
  | none => s

/-- The issuing firing of a command (R169). -/
def CmdMsg.firing (m : CmdMsg) (r : Nat) : Firing :=
  ⟨r, m.issuer, m.slot, m.colour, m.iter, 0, some (Tok.data m.operand), none, none⟩

/-- An engine stops and presents a trap; TRAPSITE names the issuing firing (R169).  In a cancelled
launch the command completes without further effect (R346). -/
def State.engineTrap (s : State) (r n : Nat) (c : Command) (cause : Nat) (info : Word)
    (resume : Resume) : State :=
  if ((s.run r).part (partOf c.elem)).cancelled then s.finish r n 0
  else
    let s := s.stopCmd r n c
    s.trap r (s.trapRecord (c.msg.firing r) cause info resume)

/-- A fault of an access, or of the operand word: TRAPINFO the address, or the operand word (R169). -/
def State.engineFault (s : State) (r n : Nat) (c : Command) (cause : Nat) (info : Word) : State :=
  s.engineTrap r n c cause info (.engine n)

/-- An operand word the engine refuses traps ILLEGAL with it (R169). -/
def State.engineIllegal (s : State) (r n : Nat) (c : Command) : State :=
  s.engineFault r n c 0x01 c.msg.operand

/-- A fault of a translation, with its record in the fault log (R169, R370). -/
def State.engineTransFault (s : State) (r n : Nat) (c : Command) (ea : Nat) (t : Trans) : State :=
  match t with
  | .fault cause => s.engineFault r n c cause (word ea)
  | .logged cause level =>
    (s.logFault (c.msg.firing r) ea cause level).engineFault r n c cause (word ea)
  | _ => s

/-! ## Tiles, R168 -/

/-- A command joins the use count of a tile, once (R168). -/
def State.useTile (s : State) (r n key : Nat) : State :=
  match (s.run r).cmds.find n with
  | none => s
  | some c =>
    if c.counted.contains key then s
    else s.editRun r fun x =>
      { x with
        cmds := x.cmds.edit n fun c => { c with counted := key :: c.counted }
        tiles := x.tiles.edit key fun t => { t with uses := t.uses + 1 } }

/-- The owner bit of a tile says engine. -/
def Run.tileEngine (x : Run) (key : Nat) : Bool :=
  match x.tiles.find key with
  | some t => t.engine
  | none => false

/-- The home address of a block of a tile. -/
def tileBlock (r key ix : Nat) : Nat :=
  tileHome r (partOf key) (cluOf key) (ringOf (siteOf key)) (64 * (ix % 8192))

/-! ## The port of a tile, R274 -/

/-- The rank of a lighter's copies at a tile's port. -/
def lighterRank : Nat := 8

/-- The rank of a request from the token network. -/
def networkRank : Nat := 9

/-- The rank at a tile's port of what a command asks of it: the tile's strand ports i0 to i3 and o0 to o3,
then the lighter, then the token network (R274); a command of the tile without a port ranks first. -/
def Command.rank (c : Command) : Nat :=
  match decode c.msg.word with
  | .ok i => match i with
    | .twrite _ f | .texp _ f _ | .tsacc _ f _ | .trmw _ f _ => f.p.toNat
    | .tread _ f | .tcomp _ f | .twin _ f | .trep _ f => 4 + f.p.toNat
    | .trot .. | .tzmap .. | .tfill .. => 0
    | .cpy .. | .cpyg .. | .cpys .. | .cpy2d .. => lighterRank
    | _ => networkRank
  | .error _ => networkRank

/-- Requests of one cycle are taken in the order of their ranks: nothing of a later rank has been taken in
this cycle (R274). -/
def State.portOpen (s : State) (r key rank : Nat) : Bool :=
  match (s.run r).tiles.find key with
  | some t => t.portAt != s.cycle || t.port ≤ rank
  | none => true

/-- A tile's port takes a request of a rank. -/
def State.servePort (s : State) (r key rank : Nat) : State :=
  s.editRun r fun x =>
    { x with tiles := x.tiles.edit key fun t => { t with portAt := s.cycle, port := rank } }

/-- The same for a home address, which may be a tile's. -/
def State.homeOpen (s : State) (a rank : Nat) : Bool :=
  !atTile a || s.portOpen (tileKey a).1 (tileKey a).2 rank

def State.serveHome (s : State) (a rank : Nat) : State :=
  if atTile a then s.servePort (tileKey a).1 (tileKey a).2 rank else s

/-- The rank of an access that a command makes by an effective address: a lighter's copy, or the token
network (R274). -/
def Command.memRank (c : Command) : Nat := if c.rank = lighterRank then lighterRank else networkRank

/-! ## Blocks, R167, R169, R393 -/

/-- What an access of an engine gives: what it was for, nothing yet, or a stopped command. -/
inductive Got (α : Type)
  | got (a : α) (s : State)
  | wait
  | stop (s : State)

/-- Go on with what an access gives; a command that waits changes nothing. -/
def Got.andThen {α : Type} (g : Got α) (s : State) (k : α → State → State) : State :=
  match g with
  | .got a s => k a s
  | .wait => s
  | .stop s => s

/-- A zero block of a format, with ZERO set (R169). -/
def Blk.zero (fmt scale : Nat) : Blk := ⟨List.replicate 64 0, mkDescr fmt scale true⟩

def Blk.fmt (b : Blk) : Nat := descrFmt b.descr
def Blk.scale (b : Blk) : Nat := descrScale b.descr

/-- A packet that reads or writes one far block for an engine. -/
def State.farBlockPacket (s : State) (r ea : Nat) (op : Nat) (descr : Nat) (data : List Byte) :
    Packet :=
  let c := (s.run r).ctx
  s.packetTo c (nbits ea 56 8)
    (.request op 64 ea (word descr) 0 data c (op != 0))

/-- The operation codes of engine requests: a read and a write of a whole block.  No slot opcode has
them in a request (R374). -/
def opReadBlock : Nat := 0
def opWriteBlock : Nat := 1

/-- An engine asks another device for a block, or sends it one (R374). -/
def State.farBlock (s : State) (r n ea op descr : Nat) (data : List Byte) : State :=
  s.addFar (s.run r).ctx
    ⟨s.farBlockPacket r ea op descr data, op != opReadBlock, n, none⟩

/-- A far request of a command still awaits its reply (R167). -/
def State.farOutstanding (s : State) (r n : Nat) : Bool :=
  let f := (s.ctx (s.run r).ctx).far
  (f.outstanding.any fun q => q.req = n) || (f.refused.any fun q => q.req = n) ||
    (f.waiting.any fun w => w.2.req = n)

/-- A home address that a command may read or write: a tile must be engine-owned, and then counts
the command (R168). -/
def State.tileFor (s : State) (r n a : Nat) : Option State :=
  if !atTile a then some s
  else
    let (_, key) := tileKey a
    if (s.run r).tileEngine key then some (s.useTile r n key) else none

/-- A command that waits for a lace-owned tile: in a cancelled launch it completes without further
effect (R346). -/
def State.heldAtTile (s : State) {α : Type} (r n : Nat) (c : Command) : Got α :=
  if ((s.run r).part (partOf c.elem)).cancelled then .stop (s.finish r n 0) else .wait

/-- An access of an engine faults in translation; a record that waits for the readers of its block keeps the
engine waiting (R295, R370). -/
def State.transStop (s : State) {α : Type} (r n : Nat) (c : Command) (ea : Nat) (t : Trans) : Got α :=
  match t with
  | .logged _ _ => if s.logBusy (s.run r).ctx then .wait else .stop (s.engineTransFault r n c ea t)
  | _ => .stop (s.engineTransFault r n c ea t)

/-- Read the block at an effective address (R167, R169).  After a TSKIP it is a zero block of the
expected format. -/
def State.engineRead (s : State) (r n : Nat) (c : Command) (ea fmt : Nat) : Got Blk :=
  if c.prog.skip.isSome then .got (Blk.zero fmt 0) s
  else if ea % 64 != 0 then .stop (s.engineFault r n c 0x02 (word ea))
  else match s.engineHome r c.elem ea needRead with
    | .home a =>
      match s.tileFor r n a with
      | none => s.heldAtTile r n c
      | some s =>
        if !s.homeOpen a c.memRank then .wait
        else
        let s := (s.engineFill r c.elem ea).serveHome a c.memRank
        if s.poisoned a then .stop (s.engineFault r n c 0x0C (word ea))
        else .got ⟨s.block a, (s.sideOf a).descr⟩ s
    | .far =>
      match c.farBlk with
      | some b => .got b (s.editCmd r n fun c => { c with farBlk := none })
      | none =>
        if c.farBusy then .wait
        else .stop ((s.farBlock r n ea opReadBlock 0 []).editCmd r n fun c => { c with farBusy := true })
    | .miss => .wait
    | t => s.transStop r n c ea t

/-- Write a block with its format and scale at an effective address (R167, R169); a far one waits for the
window (R373). -/
def State.engineWrite (s : State) (r n : Nat) (c : Command) (ea : Nat) (b : Blk) : Got Unit :=
  if c.prog.skip.isSome then .got () s
  else if ea % 64 != 0 then .stop (s.engineFault r n c 0x02 (word ea))
  else match s.engineHome r c.elem ea needWrite with
    | .home a =>
      match s.tileFor r n a with
      | none => s.heldAtTile r n c
      | some s =>
        if !s.homeOpen a c.memRank then .wait
        else
        let s := (s.engineFill r c.elem ea).serveHome a c.memRank
        if s.outsideCopy r a needWrite then .stop (s.engineFault r n c 0x04 (word ea))
        else if s.blockBusy a then .wait
        else
          let s := if (s.run r).inScratch ea then s else s.taint r c.msg.colour
          .got () ((s.writeBlock a b.fmt b.scale b.data).wake a)
    | .far =>
      if s.outsideCopy r (farHome ea) needWrite then .stop (s.engineFault r n c 0x04 (word ea))
      else if !(s.ctx (s.run r).ctx).far.mayForm then .wait
      else .got () ((s.taint r c.msg.colour).farBlock r n ea opWriteBlock b.descr b.data)
    | .miss => .wait
    | t => s.transStop r n c ea t

/-- The tile window address of a tile's home address (R195, R272). -/
def State.windowEa (s : State) (r a : Nat) : Word :=
  let (_, p, clu, ring, off) := tileOf a
  word ((s.ctx (s.run r).ctx).twbase.toNat + p * 2 ^ 26 + clu * 2 ^ 22 + ring * 2 ^ 19 + off)

/-- The tile mask of a launch in a cluster (R359). -/
def Run.maskAt (x : Run) (key : Nat) : Nat := (((x.part (partOf key)).masks[cluOf key]?).getD 0)

/-- The tile lies in the launch's mask (R359). -/
def State.tileMasked (s : State) (r key : Nat) : Bool :=
  nbit ((((s.run r).part (partOf key)).masks[cluOf key]?).getD 0) (ringOf (siteOf key))

/-- Read a block of a tile through its port (R168, R274, R393). -/
def State.tileRead (s : State) (r n : Nat) (c : Command) (key ix : Nat) : Got Blk :=
  let a := tileBlock r key ix
  if c.prog.skip.isSome then .got (Blk.zero (s.sideOf a).fmt 0) s
  else if !s.portOpen r key c.rank then .wait
  else if s.poisoned a then
    .stop (s.engineFault r n c 0x0C (s.windowEa r a))
  else .got ⟨s.block a, (s.sideOf a).descr⟩ (s.servePort r key c.rank)

/-- Write a block of a tile through its port: a completed write (R42, R167, R274); a block of the scratch range,
by its window address, taints nothing (R396). -/
def State.tileWrite (s : State) (r : Nat) (c : Command) (key ix : Nat) (b : Blk) : Got Unit :=
  let a := tileBlock r key ix
  if c.prog.skip.isSome then .got () s
  else if !s.portOpen r key c.rank || s.blockBusy a then .wait
  else
    let s := if (s.run r).inScratch (s.windowEa r a).toNat then s else s.taint r c.msg.colour
    .got () (((s.servePort r key c.rank).writeBlock a b.fmt b.scale b.data).wake a)

/-! ## Beats, R31, R258, R346 -/

def Beat.eos : Beat := ⟨[], 0, 7⟩
def Beat.stop (level : Nat) : Beat := ⟨[], 0, level⟩
def Beat.ofBlk (b : Blk) : Beat := ⟨b.data, b.descr, 0⟩
def Beat.isData (b : Beat) : Bool := b.ctrl = 0
def Beat.fmt (b : Beat) : Nat := descrFmt b.descr
def Beat.scale (b : Beat) : Nat := descrScale b.descr

/-- The strand and the branch that end at an input port. -/
def Run.inEnd (x : Run) (key port : Nat) : Option (Nat × Nat) :=
  match x.strands.find? fun st => st.2.branches.any fun b => b.elem = key && b.port = port with
  | some st => some (st.1, st.2.branches.findIdx fun b => b.elem = key && b.port = port)
  | none => none

/-- The strand that starts at an output port. -/
def Run.outStrand (x : Run) (key port : Nat) : Option Nat :=
  match x.strands.find? fun st => st.2.elem = key && st.2.port = port with
  | some st => some st.1
  | none => none

/-- The strand of an input port by its number, 0 where there is none. -/
def State.strandAt (s : State) (r key port : Nat) : Nat :=
  match (s.run r).inEnd key port with
  | some (k, _) => ((s.run r).strands.get k).num
  | none => 0

/-- A fault that a strand beat raises (R169): TRAPINFO names its DESCR and its strand.  `expected` is
the DESCR of a beat the command would have taken. -/
def State.beatFault (s : State) (r n : Nat) (c : Command) (port : Nat) (b : Beat) (expected : Nat) :
    State :=
  s.engineTrap r n c 0x13
    (word (2 ^ 55 + b.descr % 65536 * 2 ^ 16 + s.strandAt r c.elem port))
    (.beat n port expected)

/-- A branch's end is closing at the consumer, so that its beats belong to STRCLOSE (R201). -/
def Strand.draining (st : Strand) (b : Nat) : Bool :=
  st.closing.any fun c => match c with
    | .consumer _ _ _ left => left.contains b
    | _ => false

/-- The next beat at an input port; every end of a cancelled launch delivers end-of-stream (R346). -/
def State.inBeat (s : State) (r key port : Nat) : Option Beat :=
  let x := s.run r
  let closed := (x.part (partOf key)).cancelled
  match x.inEnd key port with
  | none => if closed then some Beat.eos else none
  | some (k, i) =>
    let br := ((x.strands.get k).branches[i]?).getD default
    match br.beats.head? with
    | some b => if (x.strands.get k).draining i then none else some b
    | none => if closed then some Beat.eos else none

/-- An input that a cancelled launch has left without beats (R346). -/
def State.starved (s : State) (r key port : Nat) : Bool :=
  let x := s.run r
  (x.part (partOf key)).cancelled && match x.inEnd key port with
    | none => true
    | some (k, i) => (((x.strands.get k).branches[i]?).map fun b => b.beats.isEmpty).getD true

/-- Take the next beat from an input port. -/
def State.takeBeat (s : State) (r key port : Nat) : State :=
  match (s.run r).inEnd key port with
  | none => s
  | some (k, i) => s.editRun r fun x =>
    { x with strands := x.strands.edit k fun st =>
        { st with branches := listModify st.branches i fun b => { b with beats := b.beats.drop 1 } } }

/-- A producer may form a beat for an output port: the one before has left (R258); an output of a
cancelled launch, or one the image connects to nothing, needs no room. -/
def State.outReady (s : State) (r key port : Nat) : Bool :=
  let x := s.run r
  (x.part (partOf key)).cancelled || match x.outStrand key port with
    | none => true
    | some k => (x.strands.get k).ready.isEmpty

/-- Form beats for an output port. -/
def State.putBeats (s : State) (r key port : Nat) (bs : List Beat) : State :=
  let x := s.run r
  if (x.part (partOf key)).cancelled then s
  else match x.outStrand key port with
    | none => s
    | some k => s.editRun r fun x =>
      { x with strands := x.strands.edit k fun st => { st with ready := st.ready ++ bs } }

/-- Count beats or pairs discarded at the strand of an input port (ORPH, R199). -/
def State.countOrph (s : State) (r key port k : Nat) : State :=
  match (s.run r).inEnd key port with
  | none => s
  | some (st, i) => s.editRun r fun x =>
    { x with strands := x.strands.edit st fun y =>
        { y with
          orph := min (y.orph + k) (2 ^ 32 - 1)
          branches := listModify y.branches i fun b =>
            { b with flags := if k = 0 then b.flags else b.flags ||| 1 } } }

/-- Send a command's completion token to a target of its issuing slot, from the engine (R25, R167). -/
def State.emitEngine (s : State) (r : Nat) (c : Command) (t : Option Target) (tok : Tok) : State :=
  match t with
  | some (.site p slot dx dy) =>
    let (n, s) := s.takeId
    s.addFlit n ⟨r, c.elem, targetKey c.msg.issuer dx dy, slot.toNat, p.toBits.toNat, (s.run r).ctx,
      c.msg.colour, c.msg.iter, tok, none, false, false⟩
  | _ => s

/-- The targets of a command's slot word. -/
def Command.out (c : Command) : Out :=
  match decode c.msg.word with
  | .ok i => outOf i
  | .error _ => ⟨none, none, false⟩

/-- A token to TA and a copy to TB of the command's slot (R167). -/
def State.completeTo (s : State) (r : Nat) (c : Command) (tok : Tok) : State :=
  (s.emitEngine r c c.out.ta tok).emitEngine r c c.out.tb tok

end Sys2Proof.Machine
end

