-- ==== Sys2Proof/Machine/Frames.lean ====
section
/-! DEFINITION. Frame commands: opcodes 0xA0 to 0xA9 (R54 to R61, R170 to R178). -/

namespace Sys2Proof.Machine

/-! ## The frame's state, R170 -/

def cellIx (m n : Nat) : Nat := m * 32 + n

def Frame.cells (f : Frame) (t : Bool) : Tbl Cell := if t then f.acc1 else f.acc0

def Frame.cell (f : Frame) (t : Bool) (m n : Nat) : Cell :=
  ((f.cells t).find (cellIx m n)).getD Cell.zero

/-- Change a cell; a cell that is as a cleared one leaves the table. -/
def putCell (cs : Tbl Cell) (k : Nat) (c : Cell) : Tbl Cell :=
  if c = Cell.zero then cs.del k else cs.put k c

def Frame.setCell (f : Frame) (t : Bool) (m n : Nat) (c : Cell) : Frame :=
  if t then { f with acc1 := putCell f.acc1 (cellIx m n) c }
  else { f with acc0 := putCell f.acc0 (cellIx m n) c }

def Frame.eacc (f : Frame) (t : Bool) : Int := if t then f.eacc1 else f.eacc0

/-- Clear a tile and fix its Eacc (R173). -/
def Frame.clear (f : Frame) (t : Bool) (eacc : Int) : Frame :=
  if t then { f with acc1 := [], eacc1 := eacc } else { f with acc0 := [], eacc0 := eacc }

/-! ## MZERO, R59, R173 -/

/-- Eacc as the payload of a completion: sign-extended. -/
def State.zeroTile (s : State) (r n : Nat) (c : Command) (t : Bool) (eacc : Int) : State :=
  (s.editFrame r c.elem fun f => f.clear t eacc).finish r n (wordI eacc)

def execMzero (c : Cmd) (t : Bool) (s : State) : Result :=
  onEngine s c false fun s r n k =>
    s.zeroTile r n k t (sextInt 16 (bits k.msg.operand 0 16))

/-- An extent record (R173). -/
structure Extent where
  abase : Nat
  apitch : Nat
  bbase : Nat
  bstep : Nat
  rows : Nat
  steps : Nat
  deriving DecidableEq, Repr, Inhabited

/-- The extent record of a block, where its fields are in range (R173). -/
def extentOf (b : Blk) : Option Extent :=
  let w (k : Nat) : Nat := ofBytes ((b.data.drop (8 * k)).take 8)
  let e : Extent := ⟨w 0, w 1, w 2, w 3, nbits (w 4) 0 6, nbits (w 4) 6 16⟩
  if w 5 = 0 && w 6 = 0 && w 7 = 0 && w 4 / 2 ^ 22 = 0 && e.apitch % 64 = 0 && e.bstep % 64 = 0 &&
      1 ≤ e.rows && e.rows ≤ 32 && 1 ≤ e.steps then some e
  else none

/-- K-steps that the sweep visits: those MBMAP does not skip (R173). -/
def Extent.visited (e : Extent) (mbmap : Word) : List Nat :=
  (upTo e.steps).filter fun k => k ≥ 64 || nbit mbmap.toNat k

/-- The side bands the sweep reads, in order: A(m, s), then B(s, n). -/
def Extent.addrs (e : Extent) (mbmap pitch : Word) : List Nat :=
  let ks := e.visited mbmap
  (upTo e.rows).flatMap (fun m => ks.map fun k => e.abase + m * e.apitch + 64 * k) ++
    (ks.flatMap fun k => (upTo 32).map fun n => e.bbase + k * e.bstep + n * pitch.toNat)

/-- The side band of a block as the sweep takes it (R59). -/
structure Band where
  dead : Bool
  nonFinite : Bool
  exp : Int
  width : Nat
  elems : Nat
  deriving DecidableEq, Repr, Inhabited

def bandOf (d : Nat) : Band :=
  let fmt := descrFmt d
  let sc := descrScale d
  let self := isSelfScaled fmt
  { dead := descrZero d || (self && sc = 0)
    nonFinite := sc = 255 && (self || isScaled fmt)
    exp := windowExp fmt ((sc : Int) - 127) + (if isScaled fmt then (sc : Int) - 127 else 0)
    width := windowWidth fmt
    elems := if fmtBits fmt = 0 then 1 else 512 / fmtBits fmt }

/-- The smallest k with n ≤ 2^k. -/
def ceilLog2 (n : Nat) : Nat := if n ≤ 1 then 0 else Nat.log2 (n - 1) + 1

/-- What the sweep has found: top and low of the counted steps with finite blocks, and the largest
count (R59). -/
structure Sweep where
  top : Option Int
  low : Int
  most : Nat
  deriving DecidableEq, Repr, Inhabited

/-- The steps that feed one cell (R59). -/
def sweepCell (w : Sweep) (as bs : List Band) : Sweep :=
  let live := (as.zip bs).filter fun p => !p.1.dead && !p.2.dead
  let w := { w with most := max w.most live.length }
  live.foldl (fun w p =>
    if p.1.nonFinite || p.2.nonFinite then w
    else
      let e := p.1.exp + p.2.exp
      let x := e + p.1.width + p.2.width - 2 + (Nat.log2 p.1.elems : Int)
      match w.top with
      | none => { w with top := some x, low := e }
      | some t => { w with top := some (max t x), low := min w.low e }) w

def Sweep.eacc (w : Sweep) : Int :=
  match w.top with
  | none => 0
  | some t => if w.most = 0 then 0 else max (t + ceilLog2 w.most - 55) w.low

/-- Eacc of the sweep over an extent from the side bands read (R59). -/
def sweepEacc (e : Extent) (steps : Nat) (descrs : List Nat) : Int :=
  let bands := descrs.map bandOf
  let rows := (upTo e.rows).map fun m => (bands.drop (m * steps)).take steps
  let bb := bands.drop (e.rows * steps)
  let cols := (upTo 32).map fun n => (upTo steps).map fun k => (bb[k * 32 + n]?).getD default
  (rows.foldl (fun w a => cols.foldl (fun w b => sweepCell w a b) w) ⟨none, 0, 0⟩).eacc

/-- An FP64 block whose ceiling may hide its true exponent, or a format without windows (R59, R44).  The
sweep takes FP32 blocks, and pairs of formats that no product takes: the spec does not say (log 72). -/
def sweepRefuses (d : Nat) : Bool :=
  windowWidth (descrFmt d) = 0 ||
    (descrFmt d = 0x08 && (descrScale d = 1 || descrScale d = 254))

/-- One step of the sweep: the record first, then one side band, then the tile is zeroed (R59,
R173). -/
def State.sweep (s : State) (r n : Nat) (c : Command) (t : Bool) : State :=
  let f := s.frame r c.elem
  match c.prog.skip with
  | some v => s.zeroTile r n c t (sextInt 16 (bits v 0 16))
  | none =>
    if c.prog.blks.isEmpty then
      (s.engineRead r n c c.msg.operand.toNat 0).andThen s fun b s =>
        if (extentOf b).isNone then s.engineIllegal r n c
        else s.setProg r n { c.prog with blks := [b], words := [f.mbmap, f.mbpitch] }
    else match extentOf (c.prog.blks.headD default) with
      | none => s.engineIllegal r n c
      | some e =>
        let mbmap := c.prog.words.headD 0
        let pitch := (c.prog.words.drop 1).headD 0
        match (e.addrs mbmap pitch)[c.prog.i]? with
        | none => s.zeroTile r n c t (sweepEacc e (e.visited mbmap).length c.prog.nums)
        | some a =>
          (s.engineRead r n c (a % 2 ^ 64) 0).andThen s fun b s =>
            if sweepRefuses b.descr then s.engineFault r n c 0x13 (word a)
            else s.setProg r n
              { c.prog with i := c.prog.i + 1, nums := c.prog.nums ++ [b.descr] }

def execMzeroAuto (c : Cmd) (t : Bool) (s : State) : Result :=
  onEngine s c false fun s r n k => s.sweep r n k t

/-! ## MLDB and MLDC, R174 -/

/-- The format classes that may meet in a product (R172); 0 for a format that none takes. -/
def formatClass (fmt : Nat) : Nat :=
  match fmt with
  | 0x0A | 0x0B => 1
  | 0x0C | 0x0D | 0x0E => 2
  | 0x01 => 3
  | 0x0F => 4
  | 0x08 => 5
  | _ => 0

/-- One column block of MLDB (R174). -/
def State.loadB (s : State) (r n : Nat) (c : Command) : State :=
  let f := s.frame r c.elem
  let i := c.prog.i
  if i ≥ 32 then s.finish r n 0
  else
    let first := (c.prog.nums.head?).getD 0x0B
    let ea := (c.msg.operand + wordI (i * f.mbpitch.toNat)).toNat
    (s.engineRead r n c ea first).andThen s fun b s =>
      if formatClass b.fmt = 0 || (i > 0 && formatClass b.fmt != formatClass first) then
        s.engineFault r n c 0x13 (word ea)
      else
        (s.editFrame r c.elem fun f => { f with bbuf := f.bbuf.put i b }).setProg r n
          { c.prog with i := i + 1, nums := if i = 0 then [b.fmt] else c.prog.nums }

def execMldb (c : Cmd) (s : State) : Result :=
  onEngine s c false fun s r n k => s.loadB r n k

/-- Blocks of a row of 32 elements in a format of MLDC (R174). -/
def rowBlocks (fmt : Nat) : Nat :=
  match fmt with
  | 0x08 => 4
  | 0x09 => 2
  | 0x0A | 0x0B => 1
  | _ => 0

/-- Add an element to a cell as a step partial of one term, or mark the cell (R174). -/
def addTerm (c : Cell) (eacc : Int) (v : FVal) : Cell × Nat :=
  match v with
  | .fin neg m e =>
    let (t, fl) := alignTo (signed neg m) e eacc
    (c.add t, fl)
  | _ => ({ c with nan := true }, NV)

/-- Add the elements of a block to a row of cells from a column on. -/
def Frame.addRow (f : Frame) (t : Bool) (m : Nat) : Nat → List FVal → Frame × Nat
  | _, [] => (f, 0)
  | n, v :: vs =>
    let (c, fl) := addTerm (f.cell t m n) (f.eacc t) v
    let (f, fl') := (f.setCell t m n c).addRow t m (n + 1) vs
    (f, fl ||| fl')

/-- One block of MLDC: row i, block j of the row (R174). -/
def State.loadC (s : State) (r n : Nat) (c : Command) (t : Bool) : State :=
  let f := s.frame r c.elem
  let i := c.prog.i
  let j := c.prog.j
  if i ≥ 32 then s.finish r n 0
  else
    let rowFmt := (c.prog.nums.head?).getD 0x0B
    let ea := (c.msg.operand + wordI (i * f.mcpitch.toNat + 64 * j)).toNat
    (s.engineRead r n c ea rowFmt).andThen s fun b s =>
      if rowBlocks b.fmt = 0 || (j > 0 && b.fmt != rowFmt) then
        s.engineFault r n c 0x13 (word ea)
      else
        let vs := blockVals b.fmt b.scale b.data
        let (f, fl) := (s.frame r c.elem).addRow t i (j * vs.length) vs
        let s := (s.editFrame r c.elem fun _ => f).cmdFlags r n fl
        if j + 1 = rowBlocks b.fmt then s.setProg r n { c.prog with i := i + 1, j := 0 }
        else s.setProg r n { c.prog with j := j + 1, nums := [b.fmt] }

def execMldc (c : Cmd) (t : Bool) (s : State) : Result :=
  onEngine s c false fun s r n k => s.loadC r n k t

/-! ## Products, R56 to R58, R172, R175 -/

/-- The connected A-row inputs of a frame, in index order (R170). -/
def State.aInputs (s : State) (r key : Nat) : List Nat :=
  (upTo 4).filter fun p => ((s.run r).inEnd key p).isSome

/-- A step of row and column: the cell with the aligned partial, or marked; a zero term raises nothing
(R58, R61, R175). -/
def stepCell (x3 : Bool) (c : Cell) (eacc : Int) (a b : Operand) : Cell × Nat :=
  if a.nonFinite || b.nonFinite then ({ c with nan := true }, NV)
  else
    let p := if x3 then sliceDot a.ints b.ints else dot a.ints b.ints
    let (t, fl) := alignTo p (a.exp + b.exp + a.scaleTerm + b.scaleTerm) eacc
    (c.add t, fl ||| flagIf ((a.lost && !b.zero) || (b.lost && !a.zero)) NX)

/-- One row beat against the 32 columns. -/
def Frame.rowStep (f : Frame) (x3 t : Bool) (m : Nat) (a : Operand) : List Nat → Frame × Nat
  | [] => (f, 0)
  | n :: ns =>
    let b := (f.bbuf.find n).getD (Blk.zero 0 0)
    let (c, fl) := stepCell x3 (f.cell t m n) (f.eacc t) a (operandOf b.fmt b.scale b.data)
    let (f, fl') := (f.setCell t m n c).rowStep x3 t m a ns
    (f, fl ||| fl')

/-- The beat's format and every column's may meet in this command (R172). -/
def Frame.pairsWith (f : Frame) (x3 : Bool) (fmt : Nat) : Bool :=
  formatClass fmt != 0 && (formatClass fmt = 5) == x3 &&
    (upTo 32).all fun n => formatClass ((f.bbuf.find n).getD (Blk.zero 0 0)).fmt = formatClass fmt

/-- One row beat of MMA, MMAS or MMAX3 (R175); control beats are taken without effect. -/
def State.multiply (s : State) (r n : Nat) (c : Command) (x3 t : Bool) : State :=
  let rows := bits c.msg.operand 0 6
  let i := c.prog.i
  let ins := s.aInputs r c.elem
  if rows = 0 || rows > 32 then s.engineIllegal r n c
  else if i ≥ rows then s.finish r n (word rows)
  else
    let port := (ins[i % (max ins.length 1)]?).getD 0
    if s.starved r c.elem port then s.finish r n (word rows)
    else match s.inBeat r c.elem port with
      | none => s
      | some b =>
        if !b.isData then s.takeBeat r c.elem port
        else
          let f := s.frame r c.elem
          if !f.pairsWith x3 b.fmt then
            s.beatFault r n c port b (mkDescr ((f.bbuf.find 0).getD (Blk.zero 0 0)).fmt 0 true)
          else
            let (f, fl) := f.rowStep x3 t i (operandOf b.fmt b.scale b.data) (upTo 32)
            (((s.takeBeat r c.elem port).editFrame r c.elem fun _ => f).cmdFlags r n fl).setProg r n
              { c.prog with i := i + 1 }

def execMma (c : Cmd) (t : Bool) (s : State) : Result :=
  onEngine s c false fun s r n k => s.multiply r n k false t

/-- MMAS tests bit s of MBMAP first (R175). -/
def execMmas (c : Cmd) (t : Bool) (s : State) : Result :=
  onEngine s c false fun s r n k =>
    if k.prog.i = 0 && !nbit (s.frame r k.elem).mbmap.toNat (bits k.msg.operand 6 6) then
      s.finish r n 0
    else s.multiply r n k false t

def execMmax3 (c : Cmd) (t : Bool) (s : State) : Result :=
  onEngine s c false fun s r n k => s.multiply r n k true t

/-! ## MOUT, R60, R61, R176 -/

/-- Rows of the tile in one block row, and blocks in it (R176). -/
def outShape (fmt : Nat) : Nat × Nat :=
  match fmt with
  | 0x08 => (1, 4)
  | 0x09 | 0x03 => (1, 2)
  | 0x0A | 0x0B => (1, 1)
  | 0x0F => (4, 1)
  | _ => (2, 1)

/-- A value beyond every format, that stands for a sum out of range (R54). -/
def beyond (neg : Bool) : FVal := .fin neg 1 5000

/-- The exact output value of a cell, and flags: a marked cell gives a NaN; a sum out of range raises OF
and is an overflow of the destination with the sum's sign, but a zero T gives a zero and no flag, and an
infinite or NaN T what R60's table says (R54, R60, R61).  The SCALE of an output block that holds such a sum
comes out as 254: the spec gives none (log 74). -/
def outVal (c : Cell) (eacc : Int) (t : FVal) : FVal × Nat :=
  let (v, fl) := scaledSum c.value eacc t
  if c.nan then (.nan false, NV)
  else if outOfRange c.value && !t.isZero then
    match t with
    | .fin .. => (beyond (decide (c.value < 0)), OF)
    | _ => (v, fl ||| OF)
  else (v, fl)

/-- Largest values of the scaled formats, as m × 2^e (R176). -/
def fmaxOf (fmt : Nat) : Nat × Int :=
  match fmt with
  | 0x0C => (7, 6)
  | 0x0E => (7, 13)
  | 0x0F => (3, 1)
  | _ => (127, 0)

/-- The smallest k with m × 2^e ≤ f × 2^g × 2^k, for m not 0. -/
def ceilRatio (m : Nat) (e : Int) (f : Nat) (g : Int) : Int :=
  let k := expOf m e - expOf f g
  if cmpF (.fin false m e) (.fin false f (g + k)) == .gt then k + 1 else k

/-- The larger of two magnitudes. -/
def maxMag (a b : FVal) : FVal :=
  let mag (x : FVal) : FVal := match x with
    | .fin _ m e => .fin false m e
    | .inf _ => .inf false
    | y => y
  if cmpF (mag a) (mag b) == .lt then mag b else mag a

/-- SCALE of an output block of a scaled format (R176). -/
def chooseScale (fmt : Nat) (vs : List FVal) : Nat :=
  if vs.any FVal.isNaN then 255
  else match vs.foldl maxMag (.fin false 0 0) with
    | .inf _ => 254
    | .fin _ m e =>
      if m = 0 then 127
      else (clampInt (127 + ceilRatio m e (fmaxOf fmt).1 (fmaxOf fmt).2) 0 254).toNat
    | .nan _ => 255

/-- The elements of an output block, with its scale and flags (R60, R176). -/
def outBlock (fmt : Nat) (rm : RMode) (nanov : Bool) (vs : List FVal) : Blk × Nat :=
  let sc := if isScaled fmt then chooseScale fmt vs else 0
  let one (v : FVal) : Nat × Nat :=
    convertTo fmt rm nanov (if isScaled fmt then v.scale (127 - (sc : Int)) else v)
  let xs := vs.map one
  (⟨blockOf fmt (xs.map Prod.fst), mkDescr fmt sc false⟩, orAll (xs.map Prod.snd))

/-- The values of block j of block row i of a tile (R176). -/
def Frame.outVals (f : Frame) (t : Bool) (fmt i j : Nat) (ts : FVal) : List (FVal × Nat) :=
  let (rows, blocks) := outShape fmt
  let per := 32 / blocks
  (upTo rows).flatMap fun q =>
    (upTo per).map fun n => outVal (f.cell t (i * rows + q) (j * per + n)) (f.eacc t) ts

/-- One block of MOUT (R176).  DESIGN CHOICE: its row of MROWP is the row of blocks, of two or four rows of the
tile for some formats (log 94). -/
def State.outFrame (s : State) (r n : Nat) (c : Command) (t : Bool) (rm : RMode) (fmt : Nat)
    (nanov : Bool) : State :=
  let f := s.frame r c.elem
  let i := c.prog.i
  let j := c.prog.j
  let (rows, blocks) := outShape fmt
  if i ≥ 32 / rows then
    s.finish r n (word c.prog.n)
  else
    let (ts, tfl) := tensorScale f.scaleA.toNat f.scaleB.toNat
    let vals := f.outVals t fmt i j ts
    let (b, fl) := outBlock fmt rm nanov (vals.map Prod.fst)
    let fl := fl ||| orAll (vals.map Prod.snd) ||| tfl
    let ea := (c.msg.operand + wordI (i * f.mcpitch.toNat + 64 * j)).toNat
    (s.engineWrite r n c ea b).andThen s fun _ s =>
      let s := (s.cmdFlags r n fl).editCmd r n fun c => { c with task := f.mtask.toNat }
      if j + 1 = blocks then s.setProg r n { c.prog with i := i + 1, j := 0, n := c.prog.n + 1 }
      else s.setProg r n { c.prog with j := j + 1, n := c.prog.n + 1 }

def execMout (c : Cmd) (t : Bool) (rm : RMode) (fmt : BitVec 5) (nanov : Bool) (s : State) : Result :=
  onEngine s c false fun s r n k => s.outFrame r n k t rm fmt.toNat nanov

/-! ## Registers, R177 -/

/-- MROW 0 to 2: a register's old value, and its new one (R170, R177). -/
def Frame.setReg (f : Frame) (reg : Nat) (v : Word) : Frame × Word :=
  match reg with
  | 0 => ({ f with mbpitch := v }, f.mbpitch)
  | 1 => ({ f with mcpitch := v }, f.mcpitch)
  | _ => ({ f with mtask := v }, f.mtask)

/-- A pitch that is not a multiple of 64 traps ILLEGAL (R171). -/
def execMrow (c : Cmd) (reg : BitVec 2) (s : State) : Result :=
  onEngine s c false fun s r n k =>
    let (f, old) := (s.frame r k.elem).setReg reg.toNat k.msg.operand
    if reg.toNat < 2 && k.msg.operand.toNat % 64 != 0 then s.engineIllegal r n k
    else (s.editFrame r k.elem fun _ => f).finish r n old

/-- MROWP as a word (R170).  DESIGN CHOICE: while no command has stopped, NEXT reads 0 (log 94). -/
def Frame.mrowpWord (f : Frame) : Word :=
  match f.mrowp with
  | some i => word (128 + i % 128)
  | none => 0

def execMrowReadProgress (c : Cmd) (s : State) : Result :=
  onEngine s c true fun s r n k => s.finish r n (s.frame r k.elem).mrowpWord

def execMscale (c : Cmd) (s : State) : Result :=
  onEngine s c false fun s r n k =>
    let f := s.frame r k.elem
    let v := k.msg.operand
    (s.editFrame r k.elem fun f =>
      { f with scaleA := v.extractLsb' 0 32, scaleB := v.extractLsb' 32 32 }).finish r n
      (f.scaleB ++ f.scaleA)

def execMbmap (c : Cmd) (s : State) : Result :=
  onEngine s c false fun s r n k =>
    let old := (s.frame r k.elem).mbmap
    (s.editFrame r k.elem fun f => { f with mbmap := k.msg.operand }).finish r n old

end Sys2Proof.Machine
end

