-- ==== Sys2Proof/Machine/Vectors.lean ====
section
/-! DEFINITION. Vector elements and converters: opcodes 0xB0 to 0xB9 (R179 to R184, R266, R267). -/

namespace Sys2Proof.Machine

/-! ## Exact values -/

/-- a × b as an exact value, with the flags of an invalid product. -/
def mulV (a b : FVal) : FVal × Nat :=
  match a, b with
  | .nan _, _ | _, .nan _ => (.nan false, anySig [a, b])
  | .inf n, .inf m => (.inf (n != m), 0)
  | .inf n, .fin m k _ | .fin m k _, .inf n => if k = 0 then (.nan false, NV) else (.inf (n != m), 0)
  | .fin n1 m1 e1, .fin n2 m2 e2 => (.fin (n1 != n2) (m1 * m2) (e1 + e2), 0)

/-- a + b as an exact value, with the flags of an invalid sum. -/
def addV (mode : RMode) (a b : FVal) : FVal × Nat :=
  match a, b with
  | .nan _, _ | _, .nan _ => (.nan false, anySig [a, b])
  | .inf n, .inf m => if n = m then (.inf n, 0) else (.nan false, NV)
  | .inf n, _ | _, .inf n => (.inf n, 0)
  | .fin n1 m1 e1, .fin n2 m2 e2 => (addExact mode n1 m1 e1 n2 m2 e2, 0)

/-- The exact sum of a list. -/
def sumV : List FVal → FVal × Nat
  | [] => (.fin false 0 0, 0)
  | v :: vs =>
    let (t, fl) := sumV vs
    let (x, fl') := addV .rne v t
    (x, fl ||| fl')

/-! ## Lanes of a beat -/

/-- The block format of SZ (R43, R179). -/
def vecFmt : FloatFmt → Nat
  | .d => 0x08
  | .s => 0x09
  | .h => 0x0A
  | .bf => 0x0B

/-- A block that an engine forms: its ceiling and ZERO are those of its elements (R31, R45, R47;
log 18). -/
def Blk.formed (fmt scale : Nat) (data : List Byte) : Blk :=
  ⟨data, mkDescr fmt (if isSelfScaled fmt then ceilingOf fmt data else scale) (data.all (· = 0))⟩

/-- A NaN pattern made canonical (R179). -/
def canonIn (f : FSpec) (x : Nat) : Nat := if (decodeF f x).isNaN then canonNaN f else x

/-- Apply a lane function to a block's elements; flags of all lanes together. -/
def mapLanes (fmt : Nat) (g : Nat → Nat × Nat) (data : List Byte) : Blk × Nat :=
  let ys := (blockElems fmt data).map g
  (Blk.formed fmt 0 (blockOf fmt (ys.map Prod.fst)), orAll (ys.map Prod.snd))

/-- VMAP's functions on one element (R181). -/
def vmapLane (f : FSpec) (rm : RMode) (fn c x : Nat) : Nat × Nat :=
  let v := decodeF f x
  let half := 2 ^ (f.width - 1)
  match fn with
  | 0 => (canonIn f x, 0)
  | 1 => (canonIn f ((x + half) % (2 * half)), 0)
  | 2 => (canonIn f (x % half), 0)
  | 3 => if v.isNaN then (canonNaN f, sigFlag v) else fMinMax f true x 0
  | 4 => fExp2 f rm v
  | 5 => fLog2 f rm v
  | 6 => fRcp f rm v
  | 7 => fRsq f rm v
  | 8 => fSinp f rm v
  | 9 => fCosp f rm v
  | 10 => fMul f rm v (decodeF f c)
  | _ => fAdd f rm v (decodeF f c)

/-- The condition of VCMP's FN (R72, R180). -/
def condOf (n : Nat) : Cond :=
  match n with
  | 0 => .eq
  | 1 => .ne
  | 2 => .lt
  | 3 => .le
  | 4 => .gt
  | _ => .ge

/-- Element-wise results of two or three operands, by position. -/
def zipLanes (g : Nat → Nat → Nat → Nat × Nat) : List Nat → List Nat → List Nat → List (Nat × Nat)
  | a :: as, b :: bs, c :: cs => g a b c :: zipLanes g as bs cs
  | _, _, _ => []

/-- VROPE on the lanes of a block, two at a time (R181). -/
def ropeLanes (f : FSpec) (rm : RMode) : List Nat → List Nat → List (Nat × Nat)
  | a0 :: a1 :: as, b0 :: _ :: bs =>
    let t := decodeF f b0
    let (cs, f1) := fCosp fp32 .rne t
    let (sn, f2) := fSinp fp32 .rne t
    let c := decodeF fp32 cs
    let s := decodeF fp32 sn
    let x0 := decodeF f a0
    let x1 := decodeF f a1
    let (p, f3) := mulV x0 c
    let (q, f4) := mulV x1 s
    let (u, f5) := mulV x0 s
    let (v, f6) := mulV x1 c
    let (y0, f7) := fSub f rm p q
    let (y1, f8) := fAdd f rm u v
    (y0, f1 ||| f2 ||| f3 ||| f4 ||| f7) :: (y1, f5 ||| f6 ||| f8) :: ropeLanes f rm as bs
  | _, _ => []

/-- What a joining command does with the lanes of one beat of each operand. -/
abbrev Lanes := FSpec → List Nat → List Nat → List Nat → List (Nat × Nat)

/-! ## Ports and beats, R179 -/

/-- The port of the next beat of the operand whose pair begins at `base`, of which `taken` beats
have been taken. -/
def Run.vecPort (x : Run) (key base taken : Nat) : Nat :=
  if (x.inEnd key (base + 1)).isSome then base + taken % 2 else base

/-- Beats taken of an operand (0 A, 1 B, 2 C). -/
def Prog.taken (p : Prog) (q : Nat) : Nat := (p.nums[q]?).getD 0

def Prog.take (p : Prog) (q : Nat) : Prog :=
  { p with nums := listModify (fillTo 3 0 p.nums) q (· + 1) }

/-- The port and the next beat of an operand. -/
def State.vecHead (s : State) (r : Nat) (c : Command) (q : Nat) : Nat × Option Beat :=
  let port := (s.run r).vecPort c.elem (2 * q) (c.prog.taken q)
  (port, s.inBeat r c.elem port)

/-- Take the next beat of an operand. -/
def State.vecTake (s : State) (r n : Nat) (q : Nat) : State :=
  match (s.run r).cmds.find n with
  | none => s
  | some c =>
    (s.takeBeat r c.elem ((s.run r).vecPort c.elem (2 * q) (c.prog.taken q))).editCmd r n fun c =>
      { c with prog := c.prog.take q }

def State.vecTakeAll (s : State) (r n : Nat) (qs : List Nat) : State :=
  qs.foldl (fun (s : State) q => s.vecTake r n q) s

/-- Both outputs have room for a beat. -/
def State.vecReady (s : State) (r key : Nat) : Bool := s.outReady r key 0 && s.outReady r key 1

/-- Send the result of A's beat `j`: on y0, or on y1 for an odd beat where y1 is connected; control
beats go to y0 (R179, R181; log 19). -/
def State.vecPut (s : State) (r key j : Nat) (b : Beat) : State :=
  let odd := b.isData && j % 2 = 1 && ((s.run r).outStrand key 1).isSome
  s.putBeats r key (if odd then 1 else 0) [b]

/-- The level of a beat: 0 for data, 7 for end-of-stream. -/
def Beat.level (b : Beat) : Nat := b.ctrl

def Beat.isEos (b : Beat) : Bool := b.ctrl = 7

/-- A data beat of another format than the command's: the operand it stands at, if any. -/
def wrongFmt (fmt : Nat) : List (Nat × Nat × Beat) → Option (Nat × Beat)
  | [] => none
  | (_, port, b) :: rest =>
    if b.isData && b.fmt != fmt then some (port, b) else wrongFmt fmt rest

/-! ## Two-input joins, R266, R267 -/

/-- What resuming an ORPHAN trap chose for the orphan that stands at the inputs: nothing, drop, or
pair it with a value (kept in `words`). -/
inductive OrphanChoice
  | none | drop | pair
  deriving DecidableEq, Repr, Inhabited

def Prog.orphan (p : Prog) : OrphanChoice :=
  match p.j with
  | 0 => .none
  | 1 => .drop
  | _ => .pair

/-- The choice has been used. -/
def State.orphanDone (s : State) (r n : Nat) : State :=
  s.editCmd r n fun c => { c with prog := { c.prog with j := 0 } }

/-- Elements of one value in every lane. -/
def padLanes (fmt v : Nat) : List Nat := List.replicate (512 / fmtBits fmt) (v % 2 ^ fmtBits fmt)

/-- Count one orphan at the strand of an operand's port. -/
def State.vecOrph (s : State) (r : Nat) (c : Command) (q : Nat) : State :=
  s.countOrph r c.elem (s.vecHead r c q).1 1

/-- The heads of the operands a command uses: operand, port and beat; none while one is missing. -/
def State.vecHeads (s : State) (r : Nat) (c : Command) : List Nat → Option (List (Nat × Nat × Beat))
  | [] => some []
  | q :: qs =>
    match s.vecHead r c q, s.vecHeads r c qs with
    | (port, some b), some hs => some ((q, port, b) :: hs)
    | _, _ => none

def headOf (hs : List (Nat × Nat × Beat)) (q : Nat) : Option Beat :=
  (hs.find? fun h => h.1 = q).map fun h => h.2.2

/-- The lanes an operand supplies: its data beat's, or the pad. -/
def laneOf (fmt pad : Nat) (hs : List (Nat × Nat × Beat)) (q : Nat) : List Nat :=
  match headOf hs q with
  | some b => if b.isData then blockElems fmt b.data else padLanes fmt pad
  | none => padLanes fmt pad

/-- A control beat on every connected output (R267). -/
def State.vecPutBoth (s : State) (r key : Nat) (b : Beat) : State :=
  (s.putBeats r key 0 [b]).putBeats r key 1 [b]

/-- What has happened since the last end of a fibre, in the command's `i`: bit 0, a result has been sent; bit
q + 1, a data beat of operand q has been taken, so that its fibre is open. -/
def Prog.openFibre (p : Prog) (q : Nat) : Bool := nbit p.i (q + 1)

def Prog.openAll (p : Prog) (qs : List Nat) : Prog := { p with i := qs.foldl (fun m q => setBit m (q + 1)) p.i }

def State.openFibres (s : State) (r n : Nat) (qs : List Nat) : State :=
  s.editCmd r n fun c => { c with prog := c.prog.openAll qs }

/-- Compute one result beat from the heads and send it; the data beats are taken. -/
def State.joinData (s : State) (r n : Nat) (c : Command) (fmt : Nat) (f : FSpec) (g : Lanes)
    (hs : List (Nat × Nat × Beat)) (pad : Nat) : State :=
  let ys := g f (laneOf fmt pad hs 0) (laneOf fmt pad hs 1) (laneOf fmt pad hs 2)
  let b := Blk.formed fmt 0 (blockOf fmt (ys.map Prod.fst))
  let qs := (hs.filter fun h => h.2.2.isData).map Prod.fst
  let s := (s.vecPut r c.elem (c.prog.taken 0) (Beat.ofBlk b)).cmdFlags r n (orAll (ys.map Prod.snd))
  ((s.editCmd r n fun c => { c with prog := { c.prog with i := setBit c.prog.i 0 } }).openFibres r n qs).vecTakeAll
    r n qs

/-- One step of a command that joins operands: `qs` are the operands it reads (R179, R266, R267).  An EOS that
closes an open fibre stands for a fibre end of level 7, as at a seam (R230).  DEDUCED: with three operands, A's
data beat alone counts as the orphan; under PAD a STOP of A passes after padded results while B has ended, and
not after a fibre without a result (log 95). -/
def State.join (s : State) (r n : Nat) (c : Command) (fmt orp : Nat) (f : FSpec) (g : Lanes)
    (qs : List Nat) : State :=
  if !s.vecReady r c.elem then s
  else match s.vecHeads r c qs with
    | none => s
    | some hs =>
      match wrongFmt fmt hs with
      | some (port, b) => s.beatFault r n c port b (mkDescr fmt 0 true)
      | none =>
        let data := hs.filter fun h => h.2.2.isData
        let ctrl := hs.filter fun h => !h.2.2.isData
        if ctrl.isEmpty then s.joinData r n c fmt f g hs 0
        else if hs.all fun h => h.2.2.isEos then
          ((s.vecPut r c.elem 0 Beat.eos).vecTakeAll r n qs).finish r n 0
        else if !data.isEmpty then
          -- a data beat faces a control beat: the orphan is A's, or that of each other operand
          let lost := if (data.any fun h => h.1 = 0) then [0] else data.map Prod.fst
          let count (s : State) : State := lost.foldl (fun (s : State) q => s.vecOrph r c q) s
          let drop (s : State) : State :=
            (s.openFibres r n (data.map Prod.fst)).vecTakeAll r n (data.map Prod.fst)
          match c.prog.orphan with
          | .drop => drop (s.orphanDone r n)
          | .pair =>
            (s.orphanDone r n).joinData r n c fmt f g hs (c.prog.words.headD 0).toNat
          | .none =>
            if orp = 0 then drop (count s)
            else if orp = 1 then (count s).joinData r n c fmt f g hs 0
            else
              let port := (s.vecHead r c (lost.headD 0)).1
              s.engineTrap r n c 0x0D (word (s.strandAt r c.elem port)) (.orphan n port)
        else
          let live := ctrl.filter fun h => !h.2.2.isEos
          let aEnded := match headOf hs 0 with
            | some b => b.isEos
            | none => true
          -- an end of stream closes an open fibre at level 7: no STOP is sent for it (R230)
          let open7 := ctrl.any fun h => h.2.2.isEos && c.prog.openFibre h.1 && (h.1 = 0 || !aEnded)
          let top := if open7 then 7 else live.foldl (fun m h => max m h.2.2.level) 0
          let low := live.filter fun h => h.2.2.level < top
          -- once an input has ended, nothing follows the last paired result but its fibre's end (R266)
          let mute := aEnded || open7 || (live.length < ctrl.length && !nbit c.prog.i 0)
          let go (s : State) : State :=
            ((if mute then s
              else if low.isEmpty then s.vecPut r c.elem 0 (Beat.stop top)
              else s.vecPutBoth r c.elem (Beat.stop top)).editCmd r n fun c =>
                { c with prog := { c.prog with i := 0 } }).vecTakeAll r n (live.map Prod.fst)
          if (aEnded && !open7) || low.isEmpty then go s
          else if orp < 2 then
            go (low.foldl (fun (s : State) h => s.vecOrph r c h.1) s)
          else if c.prog.orphan == .none then
            let port := (low.headD default).2.1
            s.engineTrap r n c 0x0D (word (s.strandAt r c.elem port)) (.orphan n port)
          else go (s.orphanDone r n)

/-! ## Commands on one operand -/

/-- One step of a command that reads A alone: `data` and `ctrl` say what it does with a beat. -/
def State.stream (s : State) (r n : Nat) (c : Command) (fmt : Nat)
    (data : State → Beat → State) (ctrl : State → Beat → State) : State :=
  if !s.vecReady r c.elem then s
  else match s.vecHead r c 0 with
    | (_, none) => s
    | (port, some b) =>
      if !b.isData then ctrl s b
      else if b.fmt != fmt then s.beatFault r n c port b (mkDescr fmt 0 true)
      else data s b

/-- A control beat of A passes to y0; end-of-stream ends the command. -/
def State.passCtrl (s : State) (r n : Nat) (c : Command) (payload : Word) (b : Beat) : State :=
  let s := (s.vecPut r c.elem 0 b).vecTake r n 0
  if b.isEos then s.finish r n payload else s

/-- VMAP takes a scalar from l for FN 10 and above alone; for FN 0 to 9 its l is a trigger (R166, R180). -/
def execVmap (c : Cmd) (f : VecForm) (s : State) : Result :=
  onEngine s c (decide (f.fn.toNat ≤ 9)) fun s r n k =>
    let fs := fspec f.sz
    let fmt := vecFmt f.sz
    s.stream r n k fmt
      (fun s b =>
        let (y, fl) := mapLanes fmt
          (vmapLane fs f.rm f.fn.toNat (bits k.msg.operand 0 fs.width)) b.data
        ((s.vecPut r k.elem (k.prog.taken 0) (Beat.ofBlk y)).cmdFlags r n fl).vecTake r n 0)
      (fun s b => s.passCtrl r n k 0 b)

/-- VFMA's lanes: B is the scalar where FN[0] is set, C is +0 where FN[1] is set (R180, R181). -/
def fmaLanes (rm : RMode) (fn c : Nat) (fmt : Nat) : Lanes := fun f as bs cs =>
  zipLanes (fun a b d => fFma f rm (decodeF f a) (decodeF f b) (decodeF f d)) as
    (if nbit fn 0 then padLanes fmt c else bs) (if nbit fn 1 then padLanes fmt 0 else cs)

/-- The operands VFMA reads. -/
def fmaOperands (fn : Nat) : List Nat :=
  0 :: ((if nbit fn 0 then [] else [1]) ++ (if nbit fn 1 then [] else [2]))

/-- VFMA's l is a scalar where FN[0] is set, and a trigger elsewhere (R166, R180). -/
def execVfma (c : Cmd) (f : VecForm) (s : State) : Result :=
  onEngine s c (!nbit f.fn.toNat 0) fun s r n k =>
    let fs := fspec f.sz
    s.join r n k (vecFmt f.sz) f.orp.toNat fs
      (fmaLanes f.rm f.fn.toNat (bits k.msg.operand 0 fs.width) (vecFmt f.sz))
      (fmaOperands f.fn.toNat)

def cmpLanes (cc : Cond) : Lanes := fun f as bs cs =>
  zipLanes (fun a b _ =>
    let (t, fl) := fCmp cc (decodeF f a) (decodeF f b)
    (if t then (roundF f .rne false 1 0).1 else 0, fl)) as bs cs

def execVcmp (c : Cmd) (f : VecForm) (s : State) : Result :=
  onEngine s c true fun s r n k =>
    s.join r n k (vecFmt f.sz) f.orp.toNat (fspec f.sz) (cmpLanes (condOf f.fn.toNat)) [0, 1]

def selLanes : Lanes := fun f as bs cs =>
  zipLanes (fun a b d => (canonIn f (if (decodeF f a).isZero then d else b), 0)) as bs cs

def execVsel (c : Cmd) (f : VecForm) (s : State) : Result :=
  onEngine s c true fun s r n k =>
    s.join r n k (vecFmt f.sz) f.orp.toNat (fspec f.sz) selLanes [0, 1, 2]

def execVrope (c : Cmd) (f : VecForm) (s : State) : Result :=
  onEngine s c true fun s r n k =>
    s.join r n k (vecFmt f.sz) f.orp.toNat (fspec f.sz)
      (fun fs as bs _ => ropeLanes fs f.rm as bs) [0, 1]

/-! ## VRED and VSCAN, R182 -/

/-- Neighbouring results added, each add rounded. -/
def pairUp (f : FSpec) (rm : RMode) : List (Nat × Nat) → List (Nat × Nat)
  | a :: b :: rest =>
    let (x, fl) := fAdd f rm (decodeF f a.1) (decodeF f b.1)
    (x, a.2 ||| b.2 ||| fl) :: pairUp f rm rest
  | l => l

/-- The pairwise tree over a list of lanes: as many rounds as it takes. -/
def treeSum (f : FSpec) (rm : RMode) : Nat → List (Nat × Nat) → Nat × Nat
  | 0, l => l.headD (0, 0)
  | k + 1, l => treeSum f rm k (pairUp f rm l)

/-- The lanes as VRED adds them: each as it is, or its square rounded (R182; log 20). -/
def redLanes (f : FSpec) (rm : RMode) (square : Bool) (xs : List Nat) : List (Nat × Nat) :=
  xs.map fun x => if square then fMul f rm (decodeF f x) (decodeF f x) else (x, 0)

/-- acc := round(acc + partial) (R182). -/
def addPartial (f : FSpec) (rm : RMode) (acc : Nat) (p : Nat × Nat) : Nat × Nat :=
  let (x, fl) := fAdd f rm (decodeF f acc) (decodeF f p.1)
  (x, fl ||| p.2)

/-- The largest or the smallest of a running value and a beat's lanes, as FMAX and FMIN. -/
def extreme (f : FSpec) (isMax : Bool) (acc : Nat) (xs : List Nat) : Nat × Nat :=
  xs.foldl (fun a x =>
    let (y, fl) := fMinMax f isMax a.1 x
    (y, a.2 ||| fl)) (acc, 0)

/-- The value of an empty fibre (R182). -/
def redStart (f : FSpec) (fn : Nat) : Nat :=
  match fn with
  | 2 => infBits f true
  | 3 => infBits f false
  | _ => 0

/-- One block as a step of an exact reduction (R58, R61). -/
def exactStep (square : Bool) (fmt : Nat) (eacc : Int) (c : Cell) (b : Blk) : Cell × Nat :=
  let o := operandOf fmt b.scale b.data
  if o.nonFinite then ({ c with nan := true }, NV)
  else
    let p := if square then dot o.ints o.ints else o.ints.foldl (· + ·) 0
    let (t, fl) := alignTo p (if square then 2 * o.exp else o.exp) eacc
    (c.add t, fl ||| flagIf o.lost NX)

/-- VRED's state in a command's progress: `n` the running value, `i` the data beats of the fibre,
`ints` the residues and marker of an exact sum, `blks` the first beat of a pair, `words` the results
of the output block. -/
def Prog.redCell (p : Prog) : Cell :=
  match p.ints with
  | [a, b, c, x] => ⟨a.toNat, b.toNat, c.toNat, x != 0⟩
  | _ => Cell.zero

def Cell.asInts (c : Cell) : List Int := [c.a, c.b, c.c, if c.nan then 1 else 0]

/-- FN 4 and 5 reduce squares; FN 1 and 5 are exact. -/
def redSquare (fn : Nat) : Bool := fn = 4 || fn = 5
def redExact (fn : Nat) : Bool := fn = 1 || fn = 5

/-- Fold a beat pair, or a single last beat, into the running value (R182). -/
def redPair (f : FSpec) (rm : RMode) (fn acc : Nat) (xs : List Nat) : Nat × Nat :=
  addPartial f rm acc (treeSum f rm 7 (redLanes f rm (redSquare fn) xs))

/-- One data beat of VRED. -/
def redBeat (f : FSpec) (fmt : Nat) (rm : RMode) (fn : Nat) (eacc : Int) (p : Prog) (b : Beat) :
    Prog × Nat :=
  let xs := blockElems fmt b.data
  let p := if p.i = 0 then { p with n := redStart f fn, ints := [], blks := [] } else p
  let p := { p with i := p.i + 1 }
  if redExact fn then
    let (c, fl) := exactStep (redSquare fn) fmt eacc p.redCell ⟨b.data, b.descr⟩
    ({ p with ints := c.asInts }, fl)
  else if fn = 2 || fn = 3 then
    let (y, fl) := extreme f (fn = 2) p.n xs
    ({ p with n := y }, fl)
  else match p.blks with
    | [] => ({ p with blks := [⟨b.data, b.descr⟩] }, 0)
    | a :: _ =>
      let (y, fl) := redPair f rm fn p.n (blockElems fmt a.data ++ xs)
      ({ p with n := y, blks := [] }, fl)

/-- The result of a fibre that ends (R182, R60). -/
def redResult (f : FSpec) (fmt : Nat) (rm : RMode) (fn : Nat) (eacc : Int) (p : Prog) : Nat × Nat :=
  if redExact fn then
    let (v, fl) := outVal (if p.i = 0 then Cell.zero else p.redCell) eacc (.fin false 1 0)
    let (y, fl') := encodeF f rm v
    (y, fl ||| fl')
  else if p.i = 0 then (redStart f fn, 0)
  else match p.blks with
    | [] => (canonIn f p.n, 0)
    | a :: _ => redPair f rm fn p.n (blockElems fmt a.data)

/-- The results gathered, as blocks: full ones, and, when flushing, a padded one. -/
def redBlocks (fmt : Nat) (flush : Bool) (ws : List Word) : List Beat × List Word :=
  if ws.length ≥ 512 / fmtBits fmt || (flush && !ws.isEmpty) then
    ([Beat.ofBlk (Blk.formed fmt 0 (blockOf fmt (ws.map BitVec.toNat)))], [])
  else ([], ws)

/-- A control beat ends a fibre of VRED; an end-of-stream right after a STOP ends none (log 20). -/
def State.redCtrl (s : State) (r n : Nat) (c : Command) (f : FSpec) (fmt : Nat) (rm : RMode)
    (fn : Nat) (eacc : Int) (b : Beat) : State :=
  let p := c.prog
  let closes := !b.isEos || p.i > 0
  let (y, fl) := if closes then redResult f fmt rm fn eacc p else (0, 0)
  let ws := if closes then p.words ++ [word y] else p.words
  let (bs, ws) := redBlocks fmt (b.level ≥ 2) ws
  let bs := bs ++ (if b.isEos then [Beat.eos] else if b.level ≥ 2 then [Beat.stop (b.level - 1)] else [])
  -- `nums[3]` counts the fibres, `nums[4]` keeps the latest result
  let nums := fillTo 5 0 p.nums
  let nums := if closes then (nums.take 3) ++ [(nums[3]?).getD 0 + 1, y] else nums
  let s := (((s.putBeats r c.elem 0 bs).cmdFlags r n fl).editCmd r n fun c =>
    { c with prog := { p with words := ws, nums := nums, i := 0 } }).vecTake r n 0
  if b.isEos then
    if (nums[3]?).getD 0 = 0 then
      -- no fibre: its result is not stated
      let (k, s) := s.takeId
      s.finish r n (Config.openValue k)
    else s.finish r n (word ((nums[4]?).getD 0))
  else s

def execVred (c : Cmd) (f : VecForm) (s : State) : Result :=
  onEngine s c false fun s r n k =>
    let fs := fspec f.sz
    let fmt := vecFmt f.sz
    let eacc := sextInt 16 (bits k.msg.operand 0 16)
    s.stream r n k fmt
      (fun s b =>
        let (p, fl) := redBeat fs fmt f.rm f.fn.toNat eacc k.prog b
        ((s.editCmd r n fun c => { c with prog := p }).cmdFlags r n fl).vecTake r n 0)
      (fun s b => s.redCtrl r n k fs fmt f.rm f.fn.toNat eacc b)

/-- The running value over the lanes of a beat, in lane order (R182). -/
def scanLanes (f : FSpec) (rm : RMode) (fn : Nat) : Nat → List Nat → List (Nat × Nat)
  | _, [] => []
  | acc, x :: xs =>
    let (y, fl) := if fn = 1 then fMinMax f true acc x else fAdd f rm (decodeF f acc) (decodeF f x)
    (y, fl) :: scanLanes f rm fn y xs

def execVscan (c : Cmd) (f : VecForm) (s : State) : Result :=
  onEngine s c true fun s r n k =>
    let fs := fspec f.sz
    let fmt := vecFmt f.sz
    let start := if f.fn = 1 then infBits fs true else 0
    s.stream r n k fmt
      (fun s b =>
        let acc := if k.prog.i = 0 then start else k.prog.n
        let ys := scanLanes fs f.rm f.fn.toNat acc (blockElems fmt b.data)
        let y := Blk.formed fmt 0 (blockOf fmt (ys.map Prod.fst))
        let p := { k.prog with i := 1, n := (ys.map Prod.fst).getLast?.getD acc }
        (((s.vecPut r k.elem (k.prog.taken 0) (Beat.ofBlk y)).cmdFlags r n
          (orAll (ys.map Prod.snd))).editCmd r n fun c => { c with prog := p }).vecTake r n 0)
      (fun s b =>
        (s.editCmd r n fun c => { c with prog := { c.prog with i := 0 } }).passCtrl r n k 0 b)

/-! ## VSOFT and VNORM, R183 -/

/-- A fibre's elements, blocks in order. -/
def fibreElems (fmt : Nat) (bs : List Blk) : List Nat := bs.flatMap fun b => blockElems fmt b.data

/-- Every element the canonical NaN, with flags. -/
def allNaN (f : FSpec) (fl : Nat) (xs : List Nat) : List (Nat × Nat) :=
  xs.map fun _ => (canonNaN f, fl)

/-- VSOFT of a fibre (R183). -/
def softFibre (f : FSpec) (rm : RMode) (c : FVal) (xs : List Nat) : List (Nat × Nat) :=
  let vs := xs.map (decodeF f)
  let m := vs.foldl (fun a v => if cmpF a v == .lt then v else a) (.inf true)
  if vs.any FVal.isNaN || m == .inf true then allNaN f NV xs
  else
    let es := vs.map fun v =>
      let (d, f1) := addV .rne v m.negate
      let (p, f2) := mulV d c
      let (e, f3) := fExp2 fp32 .rne p
      (decodeF fp32 e, f1 ||| f2 ||| f3)
    let (sum, f4) := sumV (es.map Prod.fst)
    let (sb, f5) := encodeF fp64 .rne sum
    let sv := decodeF fp64 sb
    es.map fun e =>
      let (y, f6) := fDiv f rm e.1 sv
      (y, e.2 ||| f4 ||| f5 ||| f6)

/-- sign × √(num / den) × 2^e rounded once, for den not 0. -/
def roundRoot (f : FSpec) (rm : RMode) (neg : Bool) (num den : Nat) (e : Int) : Nat × Nat :=
  if num = 0 then (signBit f neg, 0)
  else
    let num := if e % 2 = 0 then num else 2 * num
    let e := if e % 2 = 0 then e else e - 1
    let k := f.mbits + 4 + Nat.log2 den
    let q := (num <<< (2 * k)) / den
    let r := isqrt q
    let exact := r * r * den = num <<< (2 * k)
    roundF f rm neg (jam r (!exact)) (e / 2 - k - 1)

/-- x / √d for an exact value d, rounded once. -/
def overRoot (f : FSpec) (rm : RMode) (x d : FVal) : Nat × Nat :=
  match x, d with
  | .nan _, _ | _, .nan _ => nanF f (anySig [x, d])
  | _, .inf n =>
    if n || x.isInf then nanF f NV else (signBit f x.neg, 0)
  | .inf nx, .fin nd md _ =>
    if nd && md != 0 then nanF f NV else (infBits f nx, 0)
  | .fin nx mx ex, .fin nd md ed =>
    if md = 0 then if mx = 0 then nanF f NV else (infBits f nx, DZ)
    else if nd then nanF f NV
    else roundRoot f rm nx (mx * mx) md (2 * ex - ed)

/-- x / √(q / N + eps), rounded once: √(x² N / (q + N eps)) with the sign of x (R183). -/
def rmsElem (f : FSpec) (rm : RMode) (n : Nat) (qe x : FVal) : Nat × Nat :=
  match x with
  | .fin nx mx ex =>
    match qe with
    | .fin nd md ed =>
      if md = 0 || nd then overRoot f rm x qe
      else roundRoot f rm nx (mx * mx * n) md (2 * ex - ed)
    | _ => overRoot f rm x qe
  | _ => overRoot f rm x qe

/-- VNORM of a fibre (R183). -/
def normFibre (f : FSpec) (rm : RMode) (l2 : Bool) (eps : FVal) (xs : List Nat) : List (Nat × Nat) :=
  let vs := xs.map (decodeF f)
  if vs.any FVal.isNaN then allNaN f NV xs
  else
    let (q, f1) := sumV (vs.map fun v => (mulV v v).1)
    if l2 then
      if q.isZero then allNaN f (NV ||| DZ) xs
      else vs.map fun v =>
        let (y, f2) := overRoot f rm v q
        (y, f1 ||| f2)
    else
      let (ne, f2) := mulV (.fin false xs.length 0) eps
      let (qe, f3) := addV .rne q ne
      vs.map fun v =>
        let (y, f4) := rmsElem f rm xs.length qe v
        (y, f1 ||| f2 ||| f3 ||| f4)

/-- The results of a fibre as beats. -/
def fibreBeats (fmt : Nat) (ys : List Nat) : List Beat :=
  (chunks (512 / fmtBits fmt) 257 ys).map fun c => Beat.ofBlk (Blk.formed fmt 0 (blockOf fmt c))

/-- Send a fibre's beats, numbered from the first beat of the fibre on. -/
def State.vecPutAll (s : State) (r key : Nat) : Nat → List Beat → State
  | _, [] => s
  | j, b :: bs => (s.vecPut r key j b).vecPutAll r key (j + 1) bs

/-- One step of a command that buffers its fibres (R183).  After a TSKIP its input is read to the
end and gives no results (R169). -/
def State.fibreStep (s : State) (r n : Nat) (c : Command) (fmt : Nat)
    (g : List Nat → List (Nat × Nat)) : State :=
  s.stream r n c fmt
    (fun s b =>
      if c.prog.skip.isSome then s.vecTake r n 0
      else if c.prog.blks.length ≥ 256 then s.engineFault r n c 0x01 256
      else (s.editCmd r n fun c =>
        { c with prog := { c.prog with blks := c.prog.blks ++ [Blk.mk b.data b.descr] } }).vecTake r n 0)
    (fun s b =>
      let xs := fibreElems fmt c.prog.blks
      let ys := if c.prog.skip.isSome then [] else g xs
      let first := c.prog.taken 0 - c.prog.blks.length
      (((s.vecPutAll r c.elem first (fibreBeats fmt (ys.map Prod.fst))).cmdFlags r n
        (orAll (ys.map Prod.snd))).editCmd r n fun c =>
          { c with prog := { c.prog with blks := [] } }).passCtrl r n c 0 b)

def execVsoft (c : Cmd) (f : VecForm) (s : State) : Result :=
  onEngine s c false fun s r n k =>
    s.fibreStep r n k (vecFmt f.sz)
      (softFibre (fspec f.sz) f.rm (decodeF fp32 (bits k.msg.operand 0 32)))

def execVnorm (c : Cmd) (f : VecForm) (s : State) : Result :=
  onEngine s c false fun s r n k =>
    s.fibreStep r n k (vecFmt f.sz)
      (normFibre (fspec f.sz) f.rm (f.fn = 1) (decodeF fp32 (bits k.msg.operand 0 32)))

/-! ## CVT, R184 -/

/-- Source formats that CVT takes. -/
def cvtTakes (fmt : Nat) : Bool := fmtBits fmt != 0

/-- Full output blocks of the values gathered, with flags, and what is left over. -/
def cvtBlocks (fmt : Nat) (rm : RMode) (nanov : Bool) : Nat → List FVal → List Blk × Nat × Nat
  | 0, _ => ([], 0, 0)
  | fuel + 1, vs =>
    let per := 512 / fmtBits fmt
    if vs.length < per then ([], 0, 0)
    else
      let (b, fl) := outBlock fmt rm nanov (vs.take per)
      let (bs, fl', used) := cvtBlocks fmt rm nanov fuel (vs.drop per)
      (Blk.formed fmt b.scale b.data :: bs, fl ||| fl', used + per)

/-- The values not yet sent: `blks` are the source blocks, `i` the elements already sent of them. -/
def Prog.cvtVals (p : Prog) : List FVal :=
  (p.blks.flatMap fun b => blockVals b.fmt b.scale b.data).drop p.i

/-- Drop the source blocks that are wholly sent. -/
def dropSent : List Blk → Nat → List Blk × Nat
  | [], _ => ([], 0)
  | b :: bs, i =>
    let k := 512 / fmtBits b.fmt
    if i ≥ k then dropSent bs (i - k) else (b :: bs, i)

/-- One beat of CVT (R184): c0 is input 0, c1 is output 1. -/
def State.convert (s : State) (r n : Nat) (c : Command) (rm : RMode) (fmt : Nat) (nanov : Bool) :
    State :=
  if !s.outReady r c.elem 1 then s
  else match s.inBeat r c.elem 0 with
    | none => s
    | some b =>
      if b.isData then
        if !cvtTakes b.fmt then s.beatFault r n c 0 b (mkDescr fmt 0 true)
        else
          let p := { c.prog with blks := c.prog.blks ++ [Blk.mk b.data b.descr] }
          let (bs, fl, used) := cvtBlocks fmt rm nanov 17 p.cvtVals
          let (blks, i) := dropSent p.blks (p.i + used)
          (((s.takeBeat r c.elem 0).putBeats r c.elem 1 (bs.map Beat.ofBlk)).cmdFlags r n fl).setProg
            r n { p with blks := blks, i := i }
      else
        let vs := c.prog.cvtVals
        let per := 512 / fmtBits fmt
        let (bs, fl) :=
          if vs.isEmpty then ([], 0)
          else
            let (o, fl) := outBlock fmt rm nanov (fillTo per (.fin false 0 0) vs)
            ([Beat.ofBlk (Blk.formed fmt o.scale o.data)], fl)
        let s := (((s.takeBeat r c.elem 0).putBeats r c.elem 1 (bs ++ [b])).cmdFlags r n fl).setProg
          r n { c.prog with blks := [], i := 0 }
        if b.isEos then s.finish r n 0 else s

def execCvt (c : Cmd) (rm : RMode) (fmt : BitVec 5) (nanov : Bool) (s : State) : Result :=
  onEngine s c true fun s r n k => s.convert r n k rm fmt.toNat nanov

end Sys2Proof.Machine
end

