-- ==== Sys2Proof/Machine/Projection.lean ====
section
/-! DEFINITION. Camera registers, the projection sequence, the lookup of bricks and the gathers:
opcodes 0xD2 to 0xD6 (R204 to R207, R210 to R213, R319, R320, R322). -/

namespace Sys2Proof.Machine

/-! ## Camera registers, R204, R205 -/

/-- The 32 words of a camera register of a context. -/
def Ctx.cam (c : Ctx) (k : Nat) : List (BitVec 32) := fillTo 32 0 ((c.cams.find k).getD [])

def State.editCam (s : State) (r k : Nat) (f : List (BitVec 32) → List (BitVec 32)) : State :=
  s.editCtx (s.run r).ctx fun c => { c with cams := c.cams.put k (f (c.cam k)) }

def camWord (cam : List (BitVec 32)) (k : Nat) : BitVec 32 := (cam[k]?).getD 0

/-- An FP32 word as a value. -/
def val32 (x : BitVec 32) : FVal := decodeF fp32 x.toNat

def camVal (cam : List (BitVec 32)) (k : Nat) : FVal := val32 (camWord cam k)

/-- The number of the ID word (R204). -/
def camId : Nat := 22

/-- ID[31:16] is 0 (R204, R207). -/
def idOk (w : BitVec 32) : Bool := w.toNat < 65536

/-- The words of two blocks of an image. -/
def imageWords (bs : List Byte) : List (BitVec 32) :=
  (chunks 4 32 bs).map fun b => BitVec.ofNat 32 (ofBytes b)

/-- CAMLD reads the two blocks of the image, then loads words 0 to 22 (R207). -/
def State.loadCamera (s : State) (r n : Nat) (c : Command) (cam : Nat) : State :=
  let ea := c.msg.operand.toNat
  match c.prog.blks with
  | [] => (s.engineRead r n c ea 0).andThen s fun b s => s.setProg r n { c.prog with blks := [b] }
  | b0 :: _ => (s.engineRead r n c (ea + 64) 0).andThen s fun b1 s =>
    let ws := imageWords (b0.data ++ b1.data)
    if !idOk (camWord ws camId) then
      (s.setProg r n Prog.zero).engineIllegal r n c
    else (s.editCam r cam fun old => ws.take 23 ++ old.drop 23).finish r n 0

def execCamld (c : Cmd) (cam : BitVec 3) (s : State) : Result :=
  onEngine s c false fun s r n k => s.loadCamera r n k cam.toNat

/-- CAMSET writes one word and completes with the old one (R207). -/
def execCamset (c : Cmd) (cam : BitVec 3) (w : BitVec 5) (s : State) : Result :=
  onEngine s c false fun s r n k =>
    let v := BitVec.ofNat 32 (bits k.msg.operand 0 32)
    let old := camWord ((s.ctx (s.run r).ctx).cam cam.toNat) w.toNat
    if w.toNat = camId && !idOk v then s.engineIllegal r n k
    else (s.editCam r cam.toNat fun ws => listSet ws w.toNat v).finish r n (word old.toNat)

def execCamsetRead (c : Cmd) (cam : BitVec 3) (w : BitVec 5) (s : State) : Result :=
  onEngine s c true fun s r n _ =>
    s.finish r n (word (camWord ((s.ctx (s.run r).ctx).cam cam.toNat) w.toNat).toNat)

/-- fma in FP32 with RNE on bit patterns, with its flags. -/
def fma32 (a b c : BitVec 32) : BitVec 32 × Nat :=
  let (x, fl) := fFma fp32 .rne (val32 a) (val32 b) (val32 c)
  (BitVec.ofNat 32 x, fl)

def mul32 (a b : BitVec 32) : BitVec 32 × Nat :=
  let (x, fl) := fMul fp32 .rne (val32 a) (val32 b)
  (BitVec.ofNat 32 x, fl)

/-- m(i,j) of a composition (R207). -/
def composeM (a b : List (BitVec 32)) (i j : Nat) : BitVec 32 × Nat :=
  let ma (k : Nat) : BitVec 32 := camWord a (10 + 3 * i + k)
  let mb (k : Nat) : BitVec 32 := camWord b (10 + 3 * k + j)
  let (x, f0) := mul32 (ma 2) (mb 2)
  let (y, f1) := fma32 (ma 1) (mb 1) x
  let (z, f2) := fma32 (ma 0) (mb 0) y
  (z, f0 ||| f1 ||| f2)

/-- t(i) of a composition (R207). -/
def composeT (a b : List (BitVec 32)) (i : Nat) : BitVec 32 × Nat :=
  let ma (k : Nat) : BitVec 32 := camWord a (10 + 3 * i + k)
  let tb (k : Nat) : BitVec 32 := camWord b (19 + k)
  let (x, f0) := fma32 (ma 2) (tb 2) (camWord a (19 + i))
  let (y, f1) := fma32 (ma 1) (tb 1) x
  let (z, f2) := fma32 (ma 0) (tb 0) y
  (z, f0 ||| f1 ||| f2)

/-- The camera that CAMCOMP writes, words 0 to 22, and its flags (R207). -/
def compose (a b : List (BitVec 32)) : List (BitVec 32) × Nat :=
  let ms := (upTo 9).map fun k => composeM a b (k / 3) (k % 3)
  let ts := (upTo 3).map fun i => composeT a b i
  (a.take 10 ++ ms.map Prod.fst ++ ts.map Prod.fst ++ [camWord a camId],
    orAll ((ms ++ ts).map Prod.snd))

def execCamcomp (c : Cmd) (cam a b : BitVec 3) (s : State) : Result :=
  onEngine s c true fun s r n _ =>
    let x := s.ctx (s.run r).ctx
    let (ws, fl) := compose (x.cam a.toNat) (x.cam b.toNat)
    ((s.editCam r cam.toNat fun old => ws ++ old.drop 23).cmdFlags r n fl).finish r n 0

/-! ## The projection sequence, R210 -/

def mulF (a b : FVal) : FVal := decodeF fp32 (fMul fp32 .rne a b).1
def addF (a b : FVal) : FVal := decodeF fp32 (fAdd fp32 .rne a b).1
def subF (a b : FVal) : FVal := decodeF fp32 (fSub fp32 .rne a b).1
def fmaF (a b c : FVal) : FVal := decodeF fp32 (fFma fp32 .rne a b c).1

/-- a ≤ b; false with a NaN. -/
def leF (a b : FVal) : Bool := !a.isNaN && !b.isNaN && cmpF a b != .gt

def ltF (a b : FVal) : Bool := !a.isNaN && !b.isNaN && cmpF a b == .lt

/-- A cell of a store: its three coordinates. -/
abbrev CellAt := Nat × Nat × Nat

/-- The floor of a finite coordinate, where it lies in the store (R210). -/
def cellCoord (x : FVal) (dim : Nat) : Option Nat :=
  match x with
  | .fin neg m e =>
    let (k, _) := roundInt .rdn neg m e
    if 0 ≤ k && k < dim then some k.toNat else none
  | _ => none

/-- The cell of a pixel and a depth; none is OUTSIDE (R210). -/
def project (cam : List (BitVec 32)) (g : StoreDesc) (u v : Nat) (d : FVal) : Option CellAt :=
  let w := camVal cam
  let px (n k l : Nat) : FVal := mulF (subF (.fin false (2 * n + 1) (-1)) (w k)) (w l)
  if leF (w 8) (.fin false u 0) || leF (w 9) (.fin false v 0) || !leF (w 6) d || !leF d (w 7) then none
  else
    let x := mulF (px u 2 4) d
    let y := mulF (px v 3 5) d
    let row (i : Nat) : FVal :=
      fmaF (w (10 + 3 * i)) x (fmaF (w (11 + 3 * i)) y (fmaF (w (12 + 3 * i)) d (w (19 + i))))
    let grid (i : Nat) (o : BitVec 32) : FVal := mulF (subF (row i) (val32 o)) (val32 g.invvoxel)
    match cellCoord (grid 0 g.ox) g.dimx, cellCoord (grid 1 g.oy) g.dimy,
        cellCoord (grid 2 g.oz) g.dimz with
    | some cx, some cy, some cz => some (cx, cy, cz)
    | _, _, _ => none

/-- The pixel operand (R206): u and v. -/
def pixelU (l : Word) : Nat := bits l 0 16
def pixelV (l : Word) : Nat := bits l 16 16

/-- l[63:32], as a depth. -/
def operandDepth (l : Word) : BitVec 32 := BitVec.ofNat 32 (bits l 32 32)

/-- The snapshot of its camera that a command took at its start (R205). -/
def Prog.camera (p : Prog) : List (BitVec 32) := p.words.map fun w => BitVec.ofNat 32 w.toNat

/-! ## The brick table, R319, R320 -/

/-- The brick of a cell (R210). -/
def brickOf (c : CellAt) : CellAt := (c.1 / 4, c.2.1 / 4, c.2.2 / 4)

/-- The coordinates of a brick as an entry holds them (R319). -/
def brickKey (b : CellAt) : Nat := b.2.2 % 2 ^ 14 * 2 ^ 28 + b.2.1 % 2 ^ 14 * 2 ^ 14 + b.1 % 2 ^ 14

def entryState (w : Nat) : Nat := nbits w 62 2
def entryKey (w : Nat) : Nat := nbits w 20 42
def entryBrick (w : Nat) : Nat := nbits w 0 20

def mkEntry (state key brick : Nat) : Nat := state * 2 ^ 62 + key * 2 ^ 20 + brick % 2 ^ 20

/-- The hash of a brick (R320). -/
def brickHash (b : CellAt) : Nat :=
  Nat.xor (Nat.xor (b.1 * 0x2F1B7C45) (b.2.1 * 0x6D3A91E7)) (b.2.2 * 0xB4C85A13) % 2 ^ 32

/-- The entry of probe `i` (R320). -/
def probeIx (t : Nat) (b : CellAt) (i : Nat) : Nat := (brickHash b >>> (32 - t) + i) % 2 ^ t

/-- The address of an entry. -/
def entryAddr (g : StoreDesc) (e : Nat) : Nat := g.tablebase + 8 * e

/-- `n` bytes of a block at an address inside it. -/
def Blk.at_ (b : Blk) (ea n : Nat) : Nat := ofBytes ((b.data.drop (ea % 64)).take n)

/-- The block with the `n` bytes at an address replaced. -/
def Blk.set (b : Blk) (ea n v : Nat) : Blk :=
  { b with data := b.data.take (ea % 64) ++ toBytes n v ++ b.data.drop (ea % 64 + n) }

/-- What one probe of the table finds (R320). -/
inductive Probe
  | absent | found (brick : Nat) | reserved | next

def probeEntry (b : CellAt) (w : Nat) : Probe :=
  if entryState w = 0 then .absent
  else if entryKey w != brickKey b then .next
  else if entryState w = 3 then .found (entryBrick w)
  else .reserved

/-- The block of a store's structure that holds an address. -/
def State.storeRead (s : State) (r n : Nat) (c : Command) (ea : Nat) : Got Blk :=
  s.engineRead r n c (blockAt ea) 0

/-- Write back a block of a store's structure. -/
def State.storeWrite (s : State) (r n : Nat) (c : Command) (ea : Nat) (b : Blk) : Got Unit :=
  s.engineWrite r n c (blockAt ea) b

/-- Read one entry at its home. -/
def State.readEntry (s : State) (r n : Nat) (c : Command) (ea : Nat) : Got Nat :=
  match s.storeRead r n c ea with
  | .got b s => .got (b.at_ ea 8) s
  | .wait => .wait
  | .stop s => .stop s

/-! ## Records, R49, R322 -/

/-- Sum blocks of a record. -/
def sumBlocks (f : Nat) : Nat := (f + 15) / 16

def viewBlocks (f : Nat) : Nat := (f + 31) / 32

/-- Bytes of a record (R322). -/
def recordBytes (f : Nat) : Nat := 64 * (1 + sumBlocks f + viewBlocks f)

/-- The address of a cell's record (R322). -/
def recordAddr (g : StoreDesc) (brick : Nat) (c : CellAt) : Nat :=
  g.poolbase + brick * 64 * recordBytes g.f +
    (c.2.2 % 4 * 16 + c.2.1 % 4 * 4 + c.1 % 4) * recordBytes g.f

/-- Read consecutive blocks as one read. -/
def State.readBlocks (s : State) (r n : Nat) (c : Command) (ea : Nat) : Nat → Got (List Blk)
  | 0 => .got [] s
  | k + 1 =>
    match s.engineRead r n c ea 0 with
    | .stop t => .stop t
    | .wait => .wait
    | .got b s => match s.readBlocks r n c (ea + 64) k with
      | .got bs s => .got (b :: bs) s
      | .wait => .wait
      | .stop t => .stop t

/-- The blocks of a cell's record. -/
def State.readRecord (s : State) (r n : Nat) (c : Command) (g : StoreDesc) (brick : Nat)
    (x : CellAt) : Got (List Blk) :=
  s.readBlocks r n c (recordAddr g brick x) (1 + sumBlocks g.f + viewBlocks g.f)

/-- What a gather reads of a record: its header and its view blocks, in their places; the sum blocks between
them are not read (R212). -/
def State.readSeen (s : State) (r n : Nat) (c : Command) (g : StoreDesc) (brick : Nat) (x : CellAt) :
    Got (List Blk) :=
  let ea := recordAddr g brick x
  match s.readBlocks r n c ea 1 with
  | .wait => .wait
  | .stop t => .stop t
  | .got h s => match s.readBlocks r n c (ea + 64 * (1 + sumBlocks g.f)) (viewBlocks g.f) with
    | .got vs s => .got (h ++ List.replicate (sumBlocks g.f) (Blk.zero 0x11 0) ++ vs) s
    | .wait => .wait
    | .stop t => .stop t

/-- Σw and the count of a record. -/
def recSum (bs : List Blk) : Nat := (bs.headD default).at_ 0 4
def recCount (bs : List Blk) : Nat := (bs.headD default).at_ 4 2

/-! ## Gathers, R211 to R213 -/

/-- Send the channel tokens of a gather to consecutive slots (R211, R212). -/
def State.emitChannels (s : State) (r : Nat) (c : Command) (kind : Kind) (outside : Bool)
    (data : List Byte) : Nat → State
  | 0 => s
  | g + 1 =>
    let s := s.emitChannels r c kind outside data g
    match c.out.tb with
    | some (.site p slot dx dy) =>
      s.emitEngine r c (some (.site p (slot + BitVec.ofNat 5 g) dx dy))
        ⟨word (ofBytes ((data.drop (8 * g)).take 8)), kind, g, false, outside, 0⟩
    | _ => s

/-- The result of a gather: 0 a hit, 1 never seen, 3 OUTSIDE. -/
def gatherHit : Nat := 0
def gatherUnseen : Nat := 1
def gatherOutside : Nat := 3

/-- A gather ends: its channel tokens leave, its confidence token is its completion (R211, R212). -/
def State.gathered (s : State) (r n : Nat) (c : Command) (ng how sum : Nat) (d : BitVec 32)
    (data : List Byte) : State :=
  let kind : Kind := if how = gatherHit then .data else .unseen
  let s := s.emitChannels r c kind (how = gatherOutside) data ng
  (s.setProg r n { c.prog with n := how }).finish r n (word (sum * 2 ^ 32 + d.toNat))

/-- The prior as the channels of a cell never seen. -/
def StoreDesc.priorBytes (g : StoreDesc) : List Byte := g.prior.flatMap fun x => toBytes 2 x.toNat

/-- The view blocks of a record. -/
def viewBytes (f : Nat) (bs : List Blk) : List Byte :=
  (bs.drop (1 + sumBlocks f)).flatMap fun b => b.data

/-- The store a projection element has bound. -/
def Run.proj (x : Run) (key : Nat) : ProjSt := (x.projs.find key).getD ⟨0, 0, none⟩

/-- Go on with the bound store, or trap ILLEGAL where none is: PSADDR is 0 (R208). -/
def State.bound (s : State) (r n : Nat) (c : Command) (k : StoreDesc → State) : State :=
  let p := (s.run r).proj c.elem
  match p.desc with
  | some g => if p.psaddr = 0 then s.engineIllegal r n c else k g
  | none => s.engineIllegal r n c

/-- Go on with a bound store of 4 NG channels, or trap DESCRIPTOR (R211). -/
def State.gatherFrom (s : State) (r n : Nat) (c : Command) (ng : Nat) (k : StoreDesc → State) : State :=
  s.bound r n c fun g =>
    if g.f != 4 * ng then s.engineFault r n c 0x13 ((s.run r).proj c.elem).psaddr else k g

/-- What a gather makes of one probe for a cell: go on probing, nothing there, or the record. -/
inductive Looked
  | again
  | nothing
  | record (bs : List Blk)

/-- A gather cannot read the block at an address: its translation faults or it is poisoned (R320). -/
def State.unreadable (s : State) (r : Nat) (c : Command) (ea : Nat) : Bool :=
  match s.engineHome r c.elem (blockAt ea) needRead with
  | .home a => s.poisoned a
  | .fault _ | .logged _ _ => true
  | _ => false

/-- One probe of a gather and, where the brick is found, its record in the same read.  An entry that is
reserved, absent or unreadable is a brick that is not allocated (R212, R320). -/
def State.look (s : State) (r n : Nat) (c : Command) (g : StoreDesc) (x : CellAt) : Got Looked :=
  let i := c.prog.j
  if i ≥ 2 ^ g.t then .got .nothing s
  else
    let ea := entryAddr g (probeIx g.t (brickOf x) i)
    if s.unreadable r c ea then .got .nothing s
    else match s.readEntry r n c ea with
      | .stop t => .stop t
      | .wait => .wait
      | .got w s => match probeEntry (brickOf x) w with
        | .next => .got .again s
        | .absent | .reserved => .got .nothing s
        | .found brick => match s.readSeen r n c g brick x with
          | .got bs s => .got (.record bs) s
          | .wait => .wait
          | .stop t => .stop t

/-- One unit of PGATHER (R213). -/
def State.gather (s : State) (r n : Nat) (c : Command) (ng : Nat) : State :=
  s.gatherFrom r n c ng fun g =>
    let l := c.msg.operand
    let d := operandDepth l
    match project c.prog.camera g (pixelU l) (pixelV l) (val32 d) with
    | none => s.gathered r n c ng gatherOutside 0 d g.priorBytes
    | some x => (s.look r n c g x).andThen s fun a s =>
      match a with
      | .again => s.setProg r n { c.prog with j := c.prog.j + 1 }
      | .nothing => s.gathered r n c ng gatherUnseen 0 d g.priorBytes
      | .record bs =>
        if recCount bs > 0 then s.gathered r n c ng gatherHit (recSum bs) d (viewBytes g.f bs)
        else s.gathered r n c ng gatherUnseen 0 d g.priorBytes

def execPgather (c : Cmd) (_cam : BitVec 3) (ng1 : BitVec 3) (s : State) : Result :=
  onEngine s c false fun s r n k => s.gather r n k (ng1.toNat + 1)

/-- The most samples of a march (R213, R214). -/
def marchSamples : Nat := 4096

/-- The depth of sample `k` of a march (R213). -/
def sampleDepth (cam : List (BitVec 32)) (dstep : BitVec 32) (k : Nat) : BitVec 32 :=
  BitVec.ofNat 32 (fFma fp32 .rne (.fin false k 0) (val32 dstep) (camVal cam 6)).1

/-- A cell as three integers of a command's progress. -/
def cellInts (x : CellAt) : List Int := [x.1, x.2.1, x.2.2]

/-- One unit of PRAY: a sample, or one probe for its cell (R213).  `i` is the sample, `j` the probe,
`ints` the cell visited last; it is not empty once the ray has met the store. -/
def State.ray (s : State) (r n : Nat) (c : Command) (ng : Nat) : State :=
  s.gatherFrom r n c ng fun g =>
    let l := c.msg.operand
    let p := c.prog
    let cam := p.camera
    let d := sampleDepth cam ((s.run r).proj c.elem).dstep p.i
    let missed (s : State) : State :=
      s.gathered r n c ng (if p.ints.isEmpty then gatherOutside else gatherUnseen) 0 (camWord cam 7)
        g.priorBytes
    if p.i ≥ marchSamples || ltF (camVal cam 7) (val32 d) then missed s
    else match project cam g (pixelU l) (pixelV l) (val32 d) with
      | none => s.setProg r n { p with i := p.i + 1 }
      | some x =>
        let on (s : State) : State :=
          s.setProg r n { p with i := p.i + 1, j := 0, ints := cellInts x }
        if p.ints = cellInts x then s.setProg r n { p with i := p.i + 1 }
        else (s.look r n c g x).andThen s fun a s =>
          match a with
          | .again => s.setProg r n { p with j := p.j + 1 }
          | .nothing => on s
          | .record bs =>
            if recCount bs > 0 && recSum bs ≥ bits l 32 32 then
              s.gathered r n c ng gatherHit (recSum bs) d (viewBytes g.f bs)
            else on s

def execPray (c : Cmd) (_cam : BitVec 3) (ng1 : BitVec 3) (s : State) : Result :=
  onEngine s c false fun s r n k => s.ray r n k (ng1.toNat + 1)

end Sys2Proof.Machine
end

