-- ==== Sys2Proof/Machine/Sampler.lean ====
section
/-! DEFINITION. The sampler: opcodes 0xE0 to 0xE4, 0xE7 and 0xE8 (R216 to R225). -/

namespace Sys2Proof.Machine

/-! ## Its state, R216 -/

/-- The sampler at the start of a launch (R216). -/
def SamplerSt.start : SamplerSt := ⟨0, 0x3FB8AA3B, 0, [], 0⟩

def State.sampler (s : State) (r key : Nat) : SamplerSt :=
  ((s.run r).samplers.find key).getD SamplerSt.start

def State.editSampler (s : State) (r key : Nat) (f : SamplerSt → SamplerSt) : State :=
  s.editRun r fun x =>
    { x with samplers := x.samplers.put key (f ((x.samplers.find key).getD SamplerSt.start)) }

/-- A read of the command's own record. -/
def State.sampRead (s : State) (r n : Nat) (c : Command) (ea : Nat) : Got Blk := s.engineRead r n c ea 0

/-- 64-bit word `k` of a block. -/
def Blk.word (b : Blk) (k : Nat) : Nat := b.at_ (8 * k) 8

/-! ## Draws, R218, R219 -/

/-- x xor (x >> k) on 64 bits. -/
def xorShift (x k : Nat) : Nat := Nat.xor x (x >>> k)

/-- One round of the draw (R218). -/
def drawRound (x k : Nat) : Nat :=
  let x := (x + k * 0x6A5D39C1F0B84E27) % 2 ^ 64
  let x := xorShift x 29
  let x := x * 0x9B1E5A4DC3F72E6B % 2 ^ 64
  let x := xorShift x 32
  let x := x * 0xE4C37A159D2B68F1 % 2 ^ 64
  xorShift x 27

/-- draw(seed, key), 32 bits (R218). -/
def drawOf (seed key : Word) : Nat :=
  drawRound (drawRound (drawRound (seed ^^^ key).toNat 1) 2) 3 / 2 ^ 32

/-- The key word of a draw (R218). -/
def drawKey (sequence step position stream : Nat) : Word :=
  word (sequence % 2 ^ 32 * 2 ^ 32 + step % 65536 * 2 ^ 16 + position % 256 * 2 ^ 8 + stream % 256)

/-- The mark of a command stopped at a draw of the replay table, and of one whose draw a TSKIP has
supplied (R219). -/
def drawStopped : List Int := [-1]
def drawGiven (v : Nat) : List Int := [-2, v]

/-- The draw in the entries of one table block, from entry `e` of `n` (R219). -/
def entryDraw (key n e : Nat) (b : Blk) : Option Nat :=
  ((upTo 4).find? fun k => e + k < n && b.word (2 * k) = key).map fun k => b.at_ (16 * k + 8) 4

/-- Take a draw and go on with it; the table is read block by block, `ints` holding N and the next
entry (R218, R219).  The command's first progress word is SEED at its start. -/
def State.takeDraw (s : State) (r n : Nat) (c : Command) (key : Word) (k : State → Nat → State) :
    State :=
  let tab := (s.sampler r c.elem).sdtab
  let p := c.prog
  if tab = 0 then k s (drawOf (p.words.headD 0) key)
  else
    let trap (info : Word) (s : State) : State :=
      (s.setProg r n { p with ints := drawStopped }).engineFault r n c 0x01 info
    match p.ints with
    | [-2, v] => k s v.toNat
    | [m, e] =>
      let e := e.toNat
      let m := m.toNat
      (s.sampRead r n c (tab.toNat + 64 + 16 * e)).andThen s fun b s =>
        match entryDraw key.toNat m e b with
        | some d => k s d
        | none =>
          if e + 4 ≥ m then trap key s
          else s.setProg r n { p with ints := [m, ((e + 4 : Nat) : Int)] }
    | _ => (s.sampRead r n c tab.toNat).andThen s fun b s =>
      if b.word 0 = 0 || b.word 0 > 1024 then trap tab s
      else s.setProg r n { p with ints := [(b.word 0 : Int), 0] }

def execDraw (c : Cmd) (s : State) : Result :=
  onEngine s c false fun s r n k => s.takeDraw r n k k.msg.operand fun s d => s.finish r n (word d)

/-- DRAWTAB checks N and completes with the old address (R219). -/
def State.setTable (s : State) (r n : Nat) (c : Command) : State :=
  let old := (s.sampler r c.elem).sdtab
  let set (s : State) : State :=
    (s.editSampler r c.elem fun x => { x with sdtab := c.msg.operand }).finish r n old
  if c.msg.operand = 0 then set s
  else (s.sampRead r n c c.msg.operand.toNat).andThen s fun b s =>
    if b.word 0 = 0 || b.word 0 > 1024 then s.engineIllegal r n c else set s

def execDrawtab (c : Cmd) (s : State) : Result :=
  onEngine s c false fun s r n k => s.setTable r n k

/-! ## TOPK, R220 -/

/-- Entry a ranks before entry b: the higher logit, then the lower index (R220). -/
def ranksBefore (a b : BitVec 32 × Nat) : Bool :=
  match cmpF (val32 a.1) (val32 b.1) with
  | .gt => true
  | .lt => false
  | .eq => a.2 < b.2

def rankIn (a : BitVec 32 × Nat) : List (BitVec 32 × Nat) → List (BitVec 32 × Nat)
  | [] => [a]
  | b :: bs => if ranksBefore a b then a :: b :: bs else b :: rankIn a bs

/-- The formats TOPK reads. -/
def logitSpec (fmt : Nat) : Option FSpec :=
  match fmt with
  | 0x09 => some fp32
  | 0x0A => some fp16
  | 0x0B => some bf16
  | _ => none

/-- The elements of a beat, numbered from `n`, join the array; the flags with them (R220). -/
def takeLogits (f : FSpec) (base count limit : Nat) :
    Nat → List Nat → List (BitVec 32 × Nat) → List (BitVec 32 × Nat) × Nat
  | _, [], cas => (cas, 0)
  | n, x :: xs, cas =>
    let v := decodeF f x
    if count != 0 && n ≥ count then (cas, 0)
    else if v.isNaN then
      let (cas, fl) := takeLogits f base count limit (n + 1) xs cas
      (cas, NV ||| fl)
    else
      let e := (BitVec.ofNat 32 (encodeF fp32 .rne v).1, (base + n) % 2 ^ 32)
      takeLogits f base count limit (n + 1) xs ((rankIn e cas).take limit)

/-- One unit of TOPK: `j` is 1 once the array has been set up, `i` the elements read (R220). -/
def State.topk (s : State) (r n : Nat) (c : Command) : State :=
  let l := c.msg.operand
  let k := bits l 0 7
  let clr := nbit l.toNat 7
  let x := s.sampler r c.elem
  let p := c.prog
  if p.j = 0 then
    if k = 0 || k > 64 || (!clr && k != x.limit) then s.engineIllegal r n c
    else
      let s := if clr then s.editSampler r c.elem fun y => { y with cas := [], limit := k } else s
      s.setProg r n { p with j := 1 }
  else match s.inBeat r c.elem 0 with
    | none => s
    | some b =>
      if b.isEos then (s.takeBeat r c.elem 0).finish r n (word x.cas.length)
      else if !b.isData then s.takeBeat r c.elem 0
      else match logitSpec b.fmt with
        | none => s.beatFault r n c 0 b (mkDescr 0x09 0 true)
        | some f =>
          let es := blockElems b.fmt b.data
          let (cas, fl) := takeLogits f (bits l 32 32) (bits l 8 24) k p.i es x.cas
          let s := (s.takeBeat r c.elem 0).editSampler r c.elem fun y => { y with cas := cas }
          (s.cmdFlags r n fl).setProg r n { p with i := p.i + es.length }

def execTopk (c : Cmd) (s : State) : Result :=
  onEngine s c false fun s r n k => s.topk r n k

/-! ## SAMPLE, R217, R221 -/

/-- rne of a finite value to a natural number, with its flags; anything else gives 0. -/
def rneNat (v : FVal) (scale : Int) : Nat × Nat :=
  match v with
  | .fin false m e =>
    let (k, lost) := roundInt .rne false m (e + scale)
    (k.toNat, flagIf lost NX)
  | _ => (0, 0)

/-- q(j) of an entry, with the flags of its roundings (R221). -/
def weightOf (stemp x0 x : BitVec 32) : Nat × Nat :=
  let (a, f1) := fSub fp32 .rne (val32 x) (val32 x0)
  let (z, f2) := fMul fp32 .rne (decodeF fp32 a) (val32 stemp)
  let z := if (decodeF fp32 z).isNaN then FVal.fin false 0 0 else decodeF fp32 z
  let (e, f3) := fExp2 fp32 .rne z
  let (q, f4) := rneNat (decodeF fp32 e) 30
  (q, f1 ||| f2 ||| f3 ||| f4)

/-- The running sums of a list. -/
def sums (acc : Nat) : List Nat → List Nat
  | [] => []
  | x :: xs => (acc + x) :: sums (acc + x) xs

/-- rne_fp32 of a quotient of natural numbers, with its flags. -/
def ratio32 (a b : Nat) : Nat × Nat := fDiv fp32 .rne (.fin false a 0) (.fin false b 0)

/-- A pick word (R217). -/
def pickWord (ix prob : Nat) : Word := word (prob % 2 ^ 32 * 2 ^ 32 + ix % 2 ^ 32)

/-- The entry a draw picks among weights, of which the first `n` count: its position, its
probability and the flags of that (R221, R223). -/
def pick (ws : List Nat) (n d : Nat) : Nat × Nat × Nat :=
  let ss := (sums 0 ws).take n
  let total := ss.getLastD 0
  let t := d * total / 2 ^ 32
  let j := ss.findIdx fun x => x > t
  let (prob, fl) := ratio32 ((ws[j]?).getD 0) total
  (j, prob, fl)

/-- The number of entries that top-p keeps (R221). -/
def topP (ws : List Nat) (stopp : Nat) : Nat :=
  let ss := sums 0 ws
  if stopp = 0 then ss.length
  else (ss.findIdx fun x => x * 65536 ≥ stopp * ss.getLastD 0) + 1

def State.sample (s : State) (r n : Nat) (c : Command) : State :=
  let x := s.sampler r c.elem
  match x.cas with
  | [] => s.engineIllegal r n c
  | (x0, _) :: _ => s.takeDraw r n c c.msg.operand fun s d =>
    let qs := x.cas.map fun e => weightOf x.stemp x0 e.1
    let ws := qs.map Prod.fst
    let (j, prob, fl) := pick ws (topP ws x.stopp) d
    let ix := ((x.cas[j]?).map Prod.snd).getD 0
    ((s.editSampler r c.elem fun y => { y with cas := [] }).cmdFlags r n
      (fl ||| orAll (qs.map Prod.snd))).finish r n (pickWord ix prob)

def execSample (c : Cmd) (s : State) : Result :=
  onEngine s c false fun s r n k => s.sample r n k

def execSampleSetStemp (c : Cmd) (s : State) : Result :=
  onEngine s c false fun s r n k =>
    let l := k.msg.operand
    let v := BitVec.ofNat 32 l.toNat
    let ok := match val32 v with
      | .fin false m _ => m != 0
      | _ => false
    if bits l 32 32 != 0 || !ok then s.engineIllegal r n k
    else
      let old := (s.sampler r k.elem).stemp
      (s.editSampler r k.elem fun y => { y with stemp := v }).finish r n (word old.toNat)

def execSampleSetStopp (c : Cmd) (s : State) : Result :=
  onEngine s c false fun s r n k =>
    let l := k.msg.operand
    if l.toNat ≥ 65536 then s.engineIllegal r n k
    else
      let old := (s.sampler r k.elem).stopp
      (s.editSampler r k.elem fun y => { y with stopp := l.toNat }).finish r n (word old)

/-! ## ACCEPT, R222 -/

/-- A probability as ACCEPT and RESID take it: NaN, negative or above 1 raises NV and is replaced
(R222, R223). -/
def probOf (x dflt : Nat) : FVal × Nat :=
  let v := decodeF fp32 x
  if v.isNaN || ltF v (.fin false 0 0) || ltF (.fin false 1 0) v then (.fin false dflt 0, NV)
  else (v, 0)

/-- Entry `j` of an acceptance record in the entry blocks read: x's word, q and p (R222). -/
def acceptEntry (bs : List Blk) (j : Nat) : Nat × Nat × Nat :=
  let b := ((bs[j / 4]?).getD default)
  let o := 16 * (j % 4)
  (b.at_ o 8, b.at_ (o + 8) 4, b.at_ (o + 12) 4)

/-- The test of entry `j` for a draw, with its flags (R222). -/
def acceptTest (e : Nat × Nat × Nat) (d : Nat) : Bool × Nat :=
  let (q, f1) := if nbit e.1 32 then (FVal.fin false 1 0, 0) else probOf e.2.1 1
  let (p, f2) := probOf e.2.2 0
  let ok := if q.isZero then ltF (.fin false 0 0) p
    else ltF (mulV (.fin false d 0) q).1 (p.scale 32)
  (ok, f1 ||| f2)

/-- The header keeps the bits its layout gives as 0, and K is in range (R222). -/
def acceptHeaderOk (b : Blk) : Bool :=
  b.at_ 0 4 < 64 && b.at_ 0 1 ≥ 1 && b.at_ 0 1 ≤ 32 && b.word 1 < 65536 && (b.data.drop 16).all (· = 0)

/-- One unit of ACCEPT: `blks` the blocks read, `i` the entry to test (R222). -/
def State.accept (s : State) (r n : Nat) (c : Command) : State :=
  let l := c.msg.operand
  let p := c.prog
  match p.blks with
  | [] => (s.sampRead r n c l.toNat).andThen s fun b s =>
    if acceptHeaderOk b then s.setProg r n { p with blks := [b] } else s.engineIllegal r n c
  | h :: bs =>
    let k := h.at_ 0 1
    if bs.length < (k + 3) / 4 then
      (s.sampRead r n c (l.toNat + 64 * (bs.length + 1))).andThen s fun b s =>
        s.setProg r n { p with blks := p.blks ++ [b] }
    else if (upTo k).any fun j => (acceptEntry bs j).1 / 2 ^ 33 != 0 then s.engineIllegal r n c
    else if p.i ≥ k then s.finish r n (word p.i)
    else s.takeDraw r n c (drawKey (h.at_ 4 4) (h.word 1) p.i 0) fun s d =>
      let (ok, fl) := acceptTest (acceptEntry bs p.i) d
      let s := s.cmdFlags r n fl
      if ok then s.setProg r n { p with i := p.i + 1, ints := [] }
      else s.finish r n (word (p.i + 64))

def execAccept (c : Cmd) (s : State) : Result :=
  onEngine s c false fun s r n k => s.accept r n k

/-! ## RESID, R223 -/

/-- The record keeps the bits its layout gives as 0, and V is in range (R223). -/
def residOk (b : Blk) : Bool :=
  nbits (b.word 0) 16 16 = 0 && nbits (b.word 1) 6 2 = 0 && b.word 1 / 512 = 0 &&
    b.word 4 / 2 ^ 23 = 0 && b.word 4 != 0 && b.word 5 = 0 && b.word 6 = 0 && b.word 7 = 0

/-- w of a positive value (R223). -/
def residWeight (v : FVal) : Nat × Nat := rneNat v 32

/-- The weights of RESID with their flags (R223). -/
def residWeights (bonus : Bool) (ps qs : List (FVal × Nat)) : List (Nat × Nat) :=
  if bonus then ps.map fun p => residWeight p.1
  else (ps.zip qs).map fun x =>
    let (d, f1) := fSub fp32 .rne x.1.1 x.2.1
    let (w, f2) := residWeight (decodeF fp32 d)
    (w, f1 ||| f2)

/-- The inputs of a vector (R223). -/
def residInputs (v : Nat) (bs : List Blk) : List (FVal × Nat) :=
  ((bs.flatMap fun b => blockElems 0x09 b.data).take v).map fun x => probOf x 0

/-- One unit of RESID: `blks` the record, then the blocks of p, then those of q (R223). -/
def State.resid (s : State) (r n : Nat) (c : Command) : State :=
  let l := c.msg.operand
  let p := c.prog
  match p.blks with
  | [] => (s.sampRead r n c l.toNat).andThen s fun b s =>
    if residOk b then s.setProg r n { p with blks := [b] } else s.engineIllegal r n c
  | h :: bs =>
    let v := h.word 4
    let nb := (v + 15) / 16
    let bonus := nbit (h.word 1) 8
    let k := bs.length
    if k < nb || (!bonus && k < 2 * nb) then
      let ea := if k < nb then h.word 2 + 64 * k else h.word 3 + 64 * (k - nb)
      (s.sampRead r n c (ea % 2 ^ 64)).andThen s fun b s =>
        if b.fmt != 0x09 then s.engineFault r n c 0x13 (word ea)
        else s.setProg r n { p with blks := p.blks ++ [b] }
    else
      let ps := residInputs v (bs.take nb)
      let qs := residInputs v (bs.drop nb)
      let ws := residWeights bonus ps qs
      let all (xs : List (Nat × Nat)) : Nat := xs.foldl (fun a x => a + x.1) 0
      let again := all ws = 0
      let us := if again then residWeights true ps [] else ws
      let fl := orAll ((ps ++ (if bonus then [] else qs)).map Prod.snd) ||| orAll (ws.map Prod.snd) |||
        (if again then orAll (us.map Prod.snd) else 0)
      if all us = 0 then (s.cmdFlags r n fl).engineIllegal r n c
      else s.takeDraw r n c (drawKey (h.at_ 4 4) (h.at_ 0 2) (nbits (h.word 1) 0 6) 1) fun s d =>
        let (j, prob, f) := pick (us.map Prod.fst) us.length d
        (s.cmdFlags r n (fl ||| f)).finish r n (pickWord j prob)

def execResid (c : Cmd) (s : State) : Result :=
  onEngine s c false fun s r n k => s.resid r n k

/-! ## TREEMASK, R225 -/

/-- The rows of the mask, or the node whose parent is not below it. -/
def treeRows : Nat → List Byte → List Nat → Except Nat (List Nat)
  | _, [], rows => .ok rows
  | i, b :: bs, rows =>
    if b = 0xFF then treeRows (i + 1) bs (rows ++ [2 ^ i])
    else if b.toNat < i then
      treeRows (i + 1) bs (rows ++ [Nat.lor ((rows[b.toNat]?).getD 0) (2 ^ i)])
    else .error i

/-- The beats of a mask (R225). -/
def treeBeats (rows : List Nat) : List Beat :=
  ((chunks 8 8 (fillTo 64 0 rows)).map fun ws =>
    Beat.ofBlk (Blk.formed 0x04 0 (ws.flatMap fun w => toBytes 8 w))) ++ [Beat.stop 1]

def State.treemask (s : State) (r n : Nat) (c : Command) : State :=
  let l := c.msg.operand
  let k := bits l 0 7
  if l.toNat ≥ 128 || k = 0 || k > 64 then s.engineIllegal r n c
  else if !s.outReady r c.elem 1 then s
  else match s.inBeat r c.elem 0 with
    | none => s
    | some b =>
      if b.isEos && s.starved r c.elem 0 then s.finish r n 0
      else if !b.isData then s.takeBeat r c.elem 0
      else if b.fmt != 0x05 then s.beatFault r n c 0 b (mkDescr 0x05 0 true)
      else match treeRows 0 (b.data.take k) [] with
        | .error i => (s.takeBeat r c.elem 0).engineFault r n c 0x01 (word i)
        | .ok rows =>
          ((s.takeBeat r c.elem 0).putBeats r c.elem 1 (treeBeats rows)).finish r n (word k)

def execTreemask (c : Cmd) (s : State) : Result :=
  onEngine s c false fun s r n k => s.treemask r n k

end Sys2Proof.Machine
end

