-- ==== Sys2Proof/Machine/Tiles.lean ====
section
/-! DEFINITION. Memory-tile commands: opcodes 0x90 and 0xBC to 0xC7 (R48, R159, R168, R185 to
R193). -/

namespace Sys2Proof.Machine

/-- A command that names a tile outside the launch's mask traps PROTECT (R359); after a TSKIP it goes on to
its end without the tile (R169). -/
def onTile (s : State) (c : Cmd) (trigger : Bool) (work : State → Nat → Nat → Command → State) :
    Result :=
  onEngine s c trigger fun s r n k =>
    if !s.tileMasked r k.elem && k.prog.skip.isNone then
      s.engineFault r n k 0x04 (s.windowEa r (tileBlock r k.elem 0))
    else work s r n k

/-! ## Shape records, R185 -/

/-- A shape record's fields; `rows` and `cols` are the counts, one more than NROW and NCOL. -/
structure Shape where
  base : Nat
  cols : Nat
  rows : Nat
  pitch : Nat
  stop : Nat
  eos : Bool
  deriving DecidableEq, Repr, Inhabited

def shapeOf (w : Word) : Shape :=
  ⟨bits w 0 13, bits w 13 12 + 1, bits w 25 12 + 1, bits w 37 13, bits w 50 3, nbit w.toNat 53⟩

/-- Blocks of a shape. -/
def Shape.count (h : Shape) : Nat := h.rows * h.cols

/-- The index of block c of row r (R185). -/
def Shape.index (h : Shape) (r c : Nat) : Nat := (h.base + r * h.pitch + c) % 8192

/-- The index of a position in shape order. -/
def Shape.at (h : Shape) (p : Nat) : Nat := h.index (p / h.cols) (p % h.cols)

/-- Record K of generator G of a tile. -/
def Run.shape (x : Run) (key g k : Nat) : Word :=
  match x.tiles.find key with
  | some t => t.shapes.get (4 * g + k)
  | none => 0

/-- A command takes its record at its start (R186): it is the first of the command's words. -/
def State.withShape (s : State) (r n : Nat) (c : Command) (key g k : Nat) (f : Shape → State) :
    State :=
  match c.prog.words with
  | [] => s.setProg r n { c.prog with words := [(s.run r).shape key g k] }
  | w :: _ => f (shapeOf w)

/-- A set reserved bit, or level 7 (R187). -/
def badShape (w : Word) : Bool := bits w 54 10 != 0 || bits w 50 3 = 7

def execTshape (c : Cmd) (f : TileForm) (s : State) : Result :=
  onTile s c false fun s r n k =>
    let w := k.msg.operand
    if badShape w then s.engineIllegal r n k
    else (s.editRun r fun x =>
      { x with tiles := x.tiles.edit k.elem fun t =>
          { t with shapes := t.shapes.put (4 * f.g.toNat + f.k.toNat) w } }).finish r n 0

/-! ## Streams of blocks, R187, R189 -/

/-- What a stream of shape rows is made of: rows of one segment, the level sent after each segment
(0 for none), and the first row of segment i, none after the last. -/
structure Segments where
  rows : Nat
  level : Nat
  start : Nat → Option Nat

/-- One block of a stream (R187, R189): `i` is the segment, `j` the position in it, `n` the beats
sent. -/
def State.sendBlock (s : State) (r n : Nat) (c : Command) (h : Shape) (port : Nat) (g : Segments) :
    State :=
  let p := c.prog
  if !s.outReady r c.elem port then s
  else match g.start p.i with
    | none =>
      let tail := if h.eos then [Beat.eos] else []
      (s.putBeats r c.elem port tail).finish r n (word (p.n + tail.length))
    | some first =>
      (s.tileRead r n c c.elem (h.index (first + p.j / h.cols) (p.j % h.cols))).andThen s fun b s =>
        let rowEnd := (p.j + 1) % h.cols = 0
        let segEnd := p.j + 1 = g.rows * h.cols
        let bs := Beat.ofBlk b ::
          ((if rowEnd && h.stop != 0 then [Beat.stop h.stop] else []) ++
            (if segEnd && g.level != 0 then [Beat.stop g.level] else []))
        (s.putBeats r c.elem port bs).setProg r n
          { p with
            i := if segEnd then p.i + 1 else p.i
            j := if segEnd then 0 else p.j + 1
            n := p.n + bs.length }

def execTread (c : Cmd) (f : TileForm) (s : State) : Result :=
  onTile s c true fun s r n k =>
    s.withShape r n k k.elem f.g.toNat f.k.toNat fun h =>
      s.sendBlock r n k h f.p.toNat ⟨h.rows, 0, fun i => if i = 0 then some 0 else none⟩

/-- TWIN's windows (R189). -/
def execTwin (c : Cmd) (f : TileForm) (s : State) : Result :=
  onTile s c false fun s r n k =>
    let hh := bits k.msg.operand 0 12
    let step := bits k.msg.operand 12 12
    let level := bits k.msg.operand 24 3
    if hh = 0 || step = 0 || level = 7 then s.engineIllegal r n k
    else s.withShape r n k k.elem f.g.toNat f.k.toNat fun h =>
      s.sendBlock r n k h f.p.toNat
        ⟨hh, level, fun i => if i * step + hh ≤ h.rows then some (i * step) else none⟩

/-- TREP's repetitions (R189). -/
def execTrep (c : Cmd) (f : TileForm) (s : State) : Result :=
  onTile s c false fun s r n k =>
    let times := bits k.msg.operand 0 16
    let level := bits k.msg.operand 16 3
    if times = 0 || level = 7 then s.engineIllegal r n k
    else s.withShape r n k k.elem f.g.toNat f.k.toNat fun h =>
      s.sendBlock r n k h f.p.toNat ⟨h.rows, level, fun i => if i < times then some 0 else none⟩

/-! ## TWRITE, TFILL and TZMAP, R187, R190 -/

/-- One beat of TWRITE: `i` is the write position, `n` the blocks written. -/
def State.takeBlock (s : State) (r n : Nat) (c : Command) (h : Shape) (port : Nat) : State :=
  let p := c.prog
  match s.inBeat r c.elem port with
  | none => s
  | some b =>
    let t := s.takeBeat r c.elem port
    if b.isEos then t.finish r n (word p.n)
    else if !b.isData then
      t.setProg r n
        { p with i := if p.i % h.cols = 0 then p.i else (p.i / h.cols + 1) * h.cols }
    else if p.i ≥ h.count then t.countOrph r c.elem port 1
    else (t.tileWrite r c c.elem (h.at p.i) ⟨b.data, b.descr⟩).andThen s fun _ t =>
      t.setProg r n { p with i := p.i + 1, n := p.n + 1 }

def execTwrite (c : Cmd) (f : TileForm) (s : State) : Result :=
  onTile s c true fun s r n k =>
    s.withShape r n k k.elem f.g.toNat f.k.toNat fun h => s.takeBlock r n k h f.p.toNat

/-- One block of TFILL: the pattern in every word, with the block's FMT and SCALE (R187). -/
def State.fillBlock (s : State) (r n : Nat) (c : Command) (h : Shape) : State :=
  let i := c.prog.i
  if i ≥ h.count then s.finish r n 0
  else
    let ix := h.at i
    let d := (s.sideOf (tileBlock r c.elem ix)).descr
    let data := (List.replicate 8 (toBytes 8 c.msg.operand.toNat)).flatten
    (s.tileWrite r c c.elem ix ⟨data, d⟩).andThen s fun _ s =>
      s.setProg r n { c.prog with i := i + 1 }

def execTfill (c : Cmd) (f : TileForm) (s : State) : Result :=
  onTile s c false fun s r n k =>
    s.withShape r n k k.elem f.g.toNat f.k.toNat fun h => s.fillBlock r n k h

/-- The bitmap of the blocks of a shape with ZERO = 0 (R190). -/
def State.zeroMap (s : State) (r key : Nat) (h : Shape) : Nat → Nat
  | 0 => 0
  | i + 1 =>
    s.zeroMap r key h i + (if (s.sideOf (tileBlock r key (h.at i))).zero then 0 else 2 ^ i)

def execTzmap (c : Cmd) (f : TileForm) (s : State) : Result :=
  onTile s c true fun s r n k =>
    s.withShape r n k k.elem f.g.toNat f.k.toNat fun h =>
      if h.count > 64 then s.engineIllegal r n k
      else if !s.portOpen r k.elem k.rank then s
      else (s.servePort r k.elem k.rank).finish r n (word (s.zeroMap r k.elem h h.count))

/-! ## Coordinate pairs, R48 -/

def fmtCoord : Nat := 0x10

/-- The block format of a value type (R48). -/
def vtFmt (vt : Nat) : Nat :=
  match vt with
  | 0 => 0x0A
  | 1 => 0x0B
  | _ => 0x02

/-- The value type of a dense format (R48, R188); none for a format that pairs cannot carry. -/
def fmtVt (fmt : Nat) : Option Nat :=
  match fmt with
  | 0x0A => some 0
  | 0x0B => some 1
  | 0x02 => some 2
  | _ => none

/-- The value type code of a VF field (R186). -/
def valCode : ValFmt → Nat
  | .fp16 => 0
  | .bf16 => 1
  | .int16 => 2

/-- The value type of a COORD beat; none for another format or a reserved type (R48). -/
def Beat.vt (b : Beat) : Option Nat :=
  if b.fmt = fmtCoord && b.scale < 3 then some b.scale else none

/-- The used pairs of a COORD block: those before the first unused one (R48). -/
def pairsOf (data : List Byte) : List (Nat × Nat) :=
  ((chunks 4 16 data).map fun c => (ofBytes (c.take 2), ofBytes (c.drop 2))).takeWhile fun p =>
    p.1 != 0xFFFF

/-- The bytes of pairs, with unused ones after them (R48). -/
def pairBytes (ps : List (Nat × Nat)) : List Byte :=
  (fillTo 16 (0xFFFF, 0) ps).flatMap fun p => toBytes 2 p.1 ++ toBytes 2 p.2

def coordBeat (vt : Nat) (ps : List (Nat × Nat)) : Beat :=
  Beat.ofBlk (Blk.formed fmtCoord vt (pairBytes ps))

/-- Pairs as beats, 16 to a beat. -/
def coordBeats (vt : Nat) (ps : List (Nat × Nat)) : List Beat :=
  (chunks 16 (ps.length / 16 + 1) ps).map (coordBeat vt)

/-- A pair kept as one number. -/
def packPair (p : Nat × Nat) : Nat := p.1 * 65536 + p.2
def unpackPair (n : Nat) : Nat × Nat := (n / 65536, n % 65536)

/-! ## TCOMP, R188 -/

/-- The pairs of a dense block: elements that are not zero, with their coordinates (R188). -/
def densePairs (vt c : Nat) (data : List Byte) : List (Nat × Nat) :=
  ((blockElems (vtFmt vt) data).zipIdx.filter fun x =>
    (if vt = 2 then x.1 else x.1 % 0x8000) != 0).map fun x => (32 * c + x.2, x.1)

/-- One block of TCOMP: `i` is the position, `j` the pending pairs' type, `nums` the pending pairs,
`n` the beats sent. -/
def State.compress (s : State) (r n : Nat) (c : Command) (h : Shape) (port : Nat) : State :=
  let p := c.prog
  if !s.outReady r c.elem port then s
  else if p.i ≥ h.count then
    let tail := if h.eos then [Beat.eos] else []
    (s.putBeats r c.elem port tail).finish r n (word (p.n + tail.length))
  else
    let ix := h.at p.i
    let a := tileBlock r c.elem ix
    -- pairs that are complete and pairs that stay, for the next pairs and their type
    let go (s : State) (vt : Nat) (new : List (Nat × Nat)) : State :=
      let old := p.nums.map unpackPair
      let change := !old.isEmpty && !new.isEmpty && vt != p.j
      let vt := if new.isEmpty then p.j else vt
      let all := if change then new else old ++ new
      let keep := all.length % 16
      let first := if change then coordBeats p.j old else []
      let full := coordBeats vt (all.take (all.length - keep))
      let rest := all.drop (all.length - keep)
      let rowEnd := (p.i + 1) % h.cols = 0
      let tail := if rowEnd then
          (if rest.isEmpty then [] else coordBeats vt rest) ++
            [Beat.stop (if h.stop = 0 then 1 else h.stop)]
        else []
      let bs := first ++ full ++ tail
      (s.putBeats r c.elem port bs).setProg r n
        { p with
          i := p.i + 1
          j := vt
          nums := if rowEnd then [] else rest.map packPair
          n := p.n + bs.length }
    if (s.sideOf a).zero || p.skip.isSome then go s 0 []
    else (s.tileRead r n c c.elem ix).andThen s fun b s =>
      match fmtVt b.fmt with
      | none => s.engineFault r n c 0x13 (s.windowEa r a)
      | some vt => go s vt (densePairs vt (p.i % h.cols) b.data)

def execTcomp (c : Cmd) (f : TileForm) (s : State) : Result :=
  onTile s c true fun s r n k =>
    s.withShape r n k k.elem f.g.toNat f.k.toNat fun h =>
      if 32 * h.cols > 65535 then s.engineIllegal r n k
      else s.compress r n k h f.p.toNat

/-! ## TEXP, R188 -/

/-- The command's port is open, and no block of a row is held for a deferred reader. -/
def State.rowFree (s : State) (r : Nat) (c : Command) (h : Shape) (row : Nat) : Bool :=
  s.portOpen r c.elem c.rank &&
    (upTo h.cols).all fun k => !s.blockBusy (tileBlock r c.elem (h.index row k))

/-- Write a row as zeros of a format. -/
def State.zeroRow (s : State) (r : Nat) (c : Command) (h : Shape) (row fmt : Nat) : State :=
  (upTo h.cols).foldl (fun (s : State) k =>
    (s.tileWrite r c c.elem (h.index row k) (Blk.zero fmt 0)).andThen s fun _ s => s) s

/-- Write one element of a block: a completed write of its block (R191); a poisoned block refuses it, and the
command stops (R169, R393). -/
def State.putElem (s : State) (r n : Nat) (c : Command) (ix fmt lane v : Nat) : Got Unit :=
  let a := tileBlock r c.elem ix
  if s.poisoned a && c.prog.skip.isNone then .stop (s.engineFault r n c 0x0C (s.windowEa r a)) else
  let w := fmtBits fmt / 8
  let data := s.block a
  let data := data.take (w * lane) ++ toBytes w v ++ data.drop (w * lane + w)
  s.tileWrite r c c.elem ix ⟨data, (s.sideOf a).descr⟩

/-- One pair of a beat that TEXP has taken, or the beat's end; a pair beyond the row counts as an
orphan.  Each element is a write of its own, which waits for the readers of its block (R295). -/
def State.spread (s : State) (r n : Nat) (c : Command) (h : Shape) (port fmt : Nat) (b : Blk) :
    State :=
  let p := c.prog
  match (pairsOf b.data)[p.j - 1]? with
  | none => s.setProg r n { p with blks := [], j := 1 }
  | some q =>
    if q.1 ≥ 32 * h.cols then (s.countOrph r c.elem port 1).setProg r n { p with j := p.j + 1 }
    else (s.putElem r n c (h.index p.i (q.1 / 32)) fmt (q.1 % 32) q.2).andThen s fun _ s =>
      s.setProg r n { p with j := p.j + 1 }

/-- One step of TEXP: `i` is the row, `n` the rows written, `blks` a beat whose pairs are being
written, `j` 0 before the row has been begun, then one more than the pairs written of that beat. -/
def State.expand (s : State) (r n : Nat) (c : Command) (h : Shape) (port vt : Nat) : State :=
  let p := c.prog
  let fmt := vtFmt vt
  match p.blks with
  | b :: _ => s.spread r n c h port fmt b
  | [] =>
    match s.inBeat r c.elem port with
    | none => s
    | some b =>
      if b.isEos && p.j = 0 then (s.takeBeat r c.elem port).finish r n (word p.n)
      else if b.isData && b.vt != some vt then s.beatFault r n c port b (mkDescr fmtCoord vt true)
      else if p.j = 0 then
        if p.i ≥ h.rows then (s.countOrph r c.elem port 1).setProg r n { p with j := 1 }
        else if !s.rowFree r c h p.i then s
        else (s.zeroRow r c h p.i fmt).setProg r n { p with j := 1, n := p.n + 1 }
      else
        let s := s.takeBeat r c.elem port
        if b.isEos then s.finish r n (word p.n)
        else if !b.isData then s.setProg r n { p with i := p.i + 1, j := 0 }
        else if p.i ≥ h.rows then s
        else s.setProg r n { p with blks := [⟨b.data, b.descr⟩] }

def execTexp (c : Cmd) (f : TileForm) (vf : ValFmt) (s : State) : Result :=
  onTile s c true fun s r n k =>
    s.withShape r n k k.elem f.g.toNat f.k.toNat fun h => s.expand r n k h f.p.toNat (valCode vf)

/-! ## TSACC, R191 -/

/-- The element at coordinate k of the row that TSACC keeps; after a TSKIP each is zero (R169). -/
def State.sumAt (s : State) (r : Nat) (c : Command) (h : Shape) (k : Nat) : Nat :=
  if c.prog.skip.isSome then 0
  else ((blockElems 0x09 (s.block (tileBlock r c.elem (h.index 0 (k / 16)))))[k % 16]?).getD 0

/-- Insert a coordinate in ascending order, once. -/
def insertCoord (k : Nat) : List Nat → List Nat
  | [] => [k]
  | x :: xs => if k < x then k :: x :: xs else if k = x then x :: xs else x :: insertCoord k xs

/-- One pair of a beat that TSACC has taken, or the beat's end (R191): each add is a write of its own,
which waits for the readers of its block (R295). -/
def State.addPair (s : State) (r n : Nat) (c : Command) (h : Shape) (port : Nat) (b : Blk) : State :=
  let p := c.prog
  match (pairsOf b.data)[p.j - 1]? with
  | none => s.setProg r n { p with blks := [], j := 1 }
  | some q =>
    if q.1 ≥ 16 * h.cols then (s.countOrph r c.elem port 1).setProg r n { p with j := p.j + 1 }
    else
      let (y, fl) := fAdd fp32 .rne (decodeF fp32 (s.sumAt r c h q.1))
        (elemVal (vtFmt b.scale) q.2)
      (s.putElem r n c (h.index 0 (q.1 / 16)) 0x09 (q.1 % 16) y).andThen s fun _ s =>
        (s.cmdFlags r n fl).setProg r n { p with j := p.j + 1, nums := insertCoord q.1 p.nums }

/-- The blocks of the row that hold touched coordinates. -/
def touchedBlocks (t : List Nat) : List Nat := (t.map (· / 16)).eraseDups

/-- A block of touched sums that has become poisoned (R393). -/
def State.poisonedSum (s : State) (r : Nat) (c : Command) (h : Shape) (t : List Nat) : Option Nat :=
  if c.prog.skip.isSome then none
  else ((touchedBlocks t).map fun b => h.index 0 b).find? fun k => s.poisoned (tileBlock r c.elem k)

/-- A flush of TSACC: the sums as beats, with flags, and the touched blocks cleared (R191). -/
def State.flushSums (s : State) (r : Nat) (c : Command) (h : Shape) (vt : Nat) (t : List Nat) :
    State × List Beat × Nat :=
  let vs := t.map fun k => (k, convertTo (vtFmt vt) .rne false (decodeF fp32 (s.sumAt r c h k)))
  let s := (touchedBlocks t).foldl (fun (s : State) b =>
    (s.tileWrite r c c.elem (h.index 0 b) (Blk.zero 0x09 0)).andThen s fun _ s => s) s
  (s, coordBeats vt (vs.map fun v => (v.1, v.2.1)), orAll (vs.map fun v => v.2.2))

/-- One step of TSACC: `nums` are the touched coordinates, `n` the beats sent, `blks` a beat whose
pairs are being added, `j` 0 before the row has been cleared, then one more than the pairs added of
that beat. -/
def State.accumulate (s : State) (r n : Nat) (c : Command) (h : Shape) (port vt level : Nat) :
    State :=
  let p := c.prog
  match p.blks with
  | b :: _ => s.addPair r n c h port b
  | [] =>
    if p.j = 0 then
      if s.rowFree r c h 0 then (s.zeroRow r c h 0 0x09).setProg r n { p with j := 1 } else s
    else match s.inBeat r c.elem port with
      | none => s
      | some b =>
        if b.isData then
          if b.vt.isNone then s.beatFault r n c port b (mkDescr fmtCoord vt true)
          else (s.takeBeat r c.elem port).setProg r n { p with blks := [⟨b.data, b.descr⟩] }
        else if b.level < level then s.takeBeat r c.elem port
        else if !s.rowFree r c h 0 || !s.outReady r c.elem port then s
        else if let some k := s.poisonedSum r c h p.nums then
          s.engineFault r n c 0x0C (s.windowEa r (tileBlock r c.elem k))
        else
          let (s, bs, fl) := (s.takeBeat r c.elem port).flushSums r c h vt p.nums
          let bs := bs ++ [if b.isEos then Beat.eos else Beat.stop (b.level - level + 1)]
          let p := { p with nums := [], n := p.n + bs.length }
          let s := ((s.putBeats r c.elem port bs).cmdFlags r n fl).setProg r n p
          if b.isEos then s.finish r n (word p.n) else s

def execTsacc (c : Cmd) (f : TileForm) (vf : ValFmt) (s : State) : Result :=
  onTile s c false fun s r n k =>
    let level := bits k.msg.operand 0 3
    if level = 0 || level = 7 then s.engineIllegal r n k
    else s.withShape r n k k.elem f.g.toNat f.k.toNat fun h =>
      s.accumulate r n k h f.p.toNat (valCode vf) level

/-! ## TRMW, R192 -/

/-- The new element of an update and its flags (R192). -/
def rmwElem (op : RmwOp) (vt old v : Nat) : Nat × Nat :=
  let f := if vt = 0 then fp16 else bf16
  match op with
  | .gather => (old, 0)
  | .swap => (v, 0)
  | .add => if vt = 2 then ((old + v) % 65536, 0) else fAdd f .rne (decodeF f old) (decodeF f v)
  | .min =>
    if vt = 2 then (if sextInt 16 v < sextInt 16 old then v else old, 0) else fMinMax f false old v
  | .max =>
    if vt = 2 then (if sextInt 16 old < sextInt 16 v then v else old, 0) else fMinMax f true old v

/-- The first block that a beat's pairs name and that does not suit them: poisoned, of a format that
holds no values, or of another type than the beat's (R44, R192). -/
inductive RmwBad
  | none
  | block (cause ix : Nat)
  | beat (vt : Nat)
  | busy
  deriving DecidableEq, Repr, Inhabited

def State.rmwCheck (s : State) (r key : Nat) (h : Shape) (vt : Nat) : List (Nat × Nat) → RmwBad
  | [] => .none
  | p :: ps =>
    if p.1 / 32 ≥ h.count then s.rmwCheck r key h vt ps
    else
      let a := tileBlock r key (h.at (p.1 / 32))
      if s.poisoned a then .block 0x0C (h.at (p.1 / 32))
      else match fmtVt (s.sideOf a).fmt with
        | Option.none => .block 0x13 (h.at (p.1 / 32))
        | some v =>
          if v != vt then .beat v
          else if s.blockBusy a then .busy
          else s.rmwCheck r key h vt ps

/-- The check of a whole beat: its pairs, and for one with no pair inside the shape the format of the
shape's first block, which then stands for the elements' (R192; log 79). -/
def State.rmwBeat (s : State) (r key : Nat) (h : Shape) (vt : Nat) (ps : List (Nat × Nat)) : RmwBad :=
  if ps.any fun p => p.1 / 32 < h.count then s.rmwCheck r key h vt ps
  else match fmtVt (s.sideOf (tileBlock r key (h.at 0))).fmt with
    | Option.none => .block 0x13 (h.at 0)
    | some v => if v != vt then .beat v else .none

/-- A pair of TRMW comes back; `nums` gathers the pairs of its beat. -/
def State.rmwReturn (s : State) (r n : Nat) (p : Prog) (q : Nat × Nat) : State :=
  s.setProg r n { p with j := p.j + 1, nums := p.nums ++ [packPair q] }

/-- One pair of a beat that TRMW has taken, or the beat's end (R192): each update is a write of its
own, which waits for the readers of its block (R295). -/
def State.rmwPair (s : State) (r n : Nat) (c : Command) (h : Shape) (port : Nat) (op : RmwOp)
    (b : Blk) : State :=
  let p := c.prog
  match (pairsOf b.data)[p.j]? with
  | none =>
    if !s.outReady r c.elem port then s
    else (s.putBeats r c.elem port [coordBeat b.scale (p.nums.map unpackPair)]).setProg r n
      { p with blks := [], j := 0, nums := [], n := p.n + 1 }
  | some q =>
    let ix := h.at (q.1 / 32)
    if q.1 / 32 ≥ h.count then (s.countOrph r c.elem port 1).rmwReturn r n p (0xFFFF, 0)
    else if p.skip.isSome then s.rmwReturn r n p (q.1, 0)
    else if !s.portOpen r c.elem c.rank then s
    else match s.rmwCheck r c.elem h b.scale [q] with
      | .busy => s
      | .block cause ix => s.engineFault r n c cause (s.windowEa r (tileBlock r c.elem ix))
      | .beat _ => s.engineFault r n c 0x13 (s.windowEa r (tileBlock r c.elem ix))
      | .none =>
        let fmt := vtFmt b.scale
        let old := ((blockElems fmt (s.block (tileBlock r c.elem ix)))[q.1 % 32]?).getD 0
        let (y, fl) := rmwElem op b.scale old q.2
        (if op = .gather then .got () (s.servePort r c.elem c.rank) else s.putElem r n c ix fmt (q.1 % 32) y).andThen s
          fun _ s => (s.cmdFlags r n fl).rmwReturn r n p (q.1, old)

/-- One step of TRMW: `n` the beats sent, `blks` a beat whose pairs are being performed, `j` the pairs
performed, `nums` what they returned. -/
def State.readModify (s : State) (r n : Nat) (c : Command) (h : Shape) (port : Nat) (op : RmwOp) :
    State :=
  let p := c.prog
  match p.blks with
  | b :: _ => s.rmwPair r n c h port op b
  | [] =>
    match s.inBeat r c.elem port with
    | none => s
    | some b =>
      if b.isEos then (s.takeBeat r c.elem port).finish r n (word p.n)
      else if !b.isData then
        if !s.outReady r c.elem port then s
        else ((s.takeBeat r c.elem port).putBeats r c.elem port [b]).setProg r n
          { p with n := p.n + 1 }
      else match b.vt with
        | none => s.beatFault r n c port b (mkDescr fmtCoord 0 true)
        | some vt =>
          match (if p.skip.isSome then RmwBad.none else s.rmwBeat r c.elem h vt (pairsOf b.data)) with
          | .busy => s
          | .block cause ix =>
            s.engineFault r n c cause (s.windowEa r (tileBlock r c.elem ix))
          | .beat v => s.beatFault r n c port b (mkDescr fmtCoord v true)
          | .none => (s.takeBeat r c.elem port).setProg r n { p with blks := [⟨b.data, b.descr⟩] }

def execTrmw (c : Cmd) (f : TileForm) (op : RmwOp) (s : State) : Result :=
  onTile s c true fun s r n k =>
    s.withShape r n k k.elem f.g.toNat f.k.toNat fun h => s.readModify r n k h f.p.toNat op

/-! ## TROT, R193 -/

/-- The eight tiles of the ring of a cluster, by ring position (R19). -/
def ringKeys (key : Nat) : List Nat :=
  (upTo 8).map fun p => keyOf (partOf key) (cluOf key) (ringSite p)

/-- Read one block index of every tile of the ring. -/
def State.readRing (s : State) (r n : Nat) (c : Command) (ix : Nat) : List Nat → Got (List Blk)
  | [] => .got [] s
  | k :: ks =>
    match s.tileRead r n c k ix with
    | .stop t => .stop t
    | .wait => .wait
    | .got b s => match s.readRing r n c ix ks with
      | .got bs s => .got (b :: bs) s
      | .wait => .wait
      | .stop t => .stop t

/-- One block index of TROT: position p receives the block of position p − 1 (R193). -/
def State.rotate (s : State) (r n : Nat) (c : Command) (h : Shape) : State :=
  let i := c.prog.i
  if i ≥ h.count then s.finish r n 0
  else
    let ix := h.at i
    let ks := ringKeys c.elem
    if ks.any fun k => s.blockBusy (tileBlock r k ix) then s
    else (s.readRing r n c ix ks).andThen s fun bs s =>
      let moved := bs.drop 7 ++ bs.take 7
      let s := (ks.zip moved).foldl (fun (s : State) x =>
        (s.tileWrite r c x.1 ix x.2).andThen s fun _ s => s) s
      s.setProg r n { c.prog with i := i + 1 }

def execTrot (c : Cmd) (f : TileForm) (s : State) : Result :=
  onTile s c true fun s r n k =>
    if (s.run r).maskAt k.elem != 255 && k.prog.skip.isNone then
      s.engineFault r n k 0x04 (s.windowEa r (tileBlock r k.elem 0))
    else s.withShape r n k k.elem f.g.toNat f.k.toNat fun h => s.rotate r n k h

/-! ## OWN, R97, R159, R168 -/

/-- The owner bit of a tile becomes engine: from then on its own commands count (R168). -/
def State.ownEngine (s : State) (r key : Nat) : State :=
  s.editRun r fun x =>
    let mine := x.cmds.filter fun e =>
      e.2.elem = key && e.2.state == .queued && e.2.msg.usesTile && !e.2.counted.contains key
    if x.tileEngine key then x
    else
      { x with
        cmds := x.cmds.map fun e =>
          if mine.any fun m => m.1 = e.1 then (e.1, { e.2 with counted := key :: e.2.counted }) else e
        tiles := x.tiles.edit key fun t => { t with engine := true, uses := t.uses + mine.length } }

/-- OWN with ENG = 1 under its firing: the command is held until its activation commits and its
stores are visible (R159); in a committed activation the commit has taken place. -/
def State.holdOwn (s : State) (f : Firing) (c : Cmd) : State :=
  let m : CmdMsg := ⟨s.slotWord f, f.elem, f.slot, f.colour, f.iter, 0⟩
  let committed := match (s.elem f.run f.elem).act f.act with
    | some a => a.committed
    | none => true
  if committed then
    let (n, s) := s.takeId
    let dst := f.elem - siteOf f.elem + c.site.toNat
    s.editRun f.run fun y =>
      { y with cmds := y.cmds.put n ⟨dst, m, .withheld f.act, Prog.zero, 0, 0, [], false, none⟩ }
  else s.editAct f.run f.elem f.act fun a => { a with owns := a.owns ++ [m] }

/-- The payload of OWN's completion token is not stated: a free value (log 17). -/
def State.finishOpen (s : State) (r n : Nat) : State :=
  let (k, s) := s.takeId
  s.finish r n (Config.openValue k)

/-- The bit of a tile is set to engine, without change where it is set already (R159); a tile outside
the mask traps PROTECT (R359). -/
def State.flipOwn (s : State) (r n : Nat) (c : Command) : State :=
  if !s.tileMasked r c.elem && c.prog.skip.isNone then
    s.engineFault r n c 0x04 (s.windowEa r (tileBlock r c.elem 0))
  else (s.ownEngine r c.elem).finishOpen r n

/-- OWN to engine (R159): under its firing it is held; at the tile the bit is set. -/
def execOwn (c : Cmd) (s : State) : Result :=
  match s.focus with
  | .firing f => .next (s.idle.holdOwn f c)
  | .engine r n =>
    match (s.run r).cmds.find n with
    | some k => .next (s.idle.flipOwn r n k)
    | none => .next s.idle
  | _ => .fault .noAgent

/-- OWN to lace: the tile waits until no engine command that uses it is outstanding (R159). -/
def execOwnToLace (c : Cmd) (s : State) : Result :=
  onTile s c true fun s r n k =>
    match (s.run r).tiles.find k.elem with
    | none => s.finishOpen r n
    | some t =>
      if !t.engine then s.finishOpen r n
      else if t.uses > 0 then s
      else (s.editRun r fun x =>
        { x with tiles := x.tiles.edit k.elem fun t => { t with engine := false } }).finishOpen r n

end Sys2Proof.Machine
end

