-- ==== Sys2Proof/Machine/Lighters.lean ====
section
/-! DEFINITION. Lighter commands: opcodes 0xCC to 0xD0 (R156, R194 to R197, R279 to R281). -/

namespace Sys2Proof.Machine

/-! ## Registers, R194 -/

def LighterPort.zero : LighterPort := ⟨0, 0⟩

def Run.lighterPort (x : Run) (key : Nat) : LighterPort := (x.ports.find key).getD LighterPort.zero

def State.editPort (s : State) (r key : Nat) (f : LighterPort → LighterPort) : State :=
  s.editRun r fun x => { x with ports := x.ports.put key (f (x.lighterPort key)) }

/-- CPY with FORM 01: LPITCH := l, answered with the old value (R194, R195). -/
def execCpySetLpitch (c : Cmd) (_f : CopyForm) (_d : Bool) (s : State) : Result :=
  onEngine s c false fun s r n k =>
    let old := ((s.run r).lighterPort k.elem).lpitch
    (s.editPort r k.elem fun p => { p with lpitch := k.msg.operand }).finish r n old

/-- CPY with FORM 10: LTASK := l, answered with the old value (R194, R195). -/
def execCpySetLtask (c : Cmd) (_f : CopyForm) (_d : Bool) (s : State) : Result :=
  onEngine s c false fun s r n k =>
    let old := ((s.run r).lighterPort k.elem).ltask
    (s.editPort r k.elem fun p => { p with ltask := k.msg.operand }).finish r n old

/-! ## A lighter's list of copies, R195, R197 -/

/-- The die and the lighter that serve a lighter port (R194). -/
def State.lighterOf (s : State) (r key : Nat) : Nat × Nat :=
  let p := (s.run r).part (partOf key)
  (p.die, p.cluster (cluOf key) % 4)

def State.copiesAt (s : State) (die l : Nat) : List Copy := (s.dies.get die).copies.get l

def State.editCopies (s : State) (die l : Nat) (f : List Copy → List Copy) : State :=
  s.editDie die fun d => { d with copies := d.copies.put l (f (d.copies.get l)) }

/-- The outstanding estimate of a copy (R195). -/
def Copy.estimate (c : Copy) (now : Nat) : Nat :=
  match c.started with
  | none => c.base + c.blocks
  | some t => if c.moved = 0 then c.base - (now - t) + c.blocks else c.blocks - c.moved

def estimates (now : Nat) (cs : List Copy) : Nat := (cs.map fun c => c.estimate now).foldl (· + ·) 0

/-- A promise word (R156). -/
def promiseWord (handle lighter due : Nat) : Word :=
  word (handle % 64 * 2 ^ 58 + lighter % 4 * 2 ^ 56 + due % 2 ^ 56)

/-- Bridges between two dies of the 4 by 6 grid (R13, R14). -/
def dieHops (a b : Nat) : Nat :=
  (max (a / 6) (b / 6) - min (a / 6) (b / 6)) + (max (a % 6) (b % 6) - min (a % 6) (b % 6))

/-- The part of a copy's base that its memory side decides: bridges to the home, or the way to
another device (R195, R280). -/
def State.copyBase (s : State) (r key die ea need : Nat) : Nat :=
  match s.engineFinds r key ea need with
  | .home a =>
    if isTileHome a then
      let (q, p, _, _, _) := tileOf a
      600 + 40 * dieHops die ((s.run q).part p).die
    else if isAppHome a then 600
    else 600 + 40 * dieHops die (homeDie a)
  | .far => 4800
  | _ => 600

/-- A free handle of a lighter; which one is the lighter's own choice (R195, log 1). -/
def freeHandle (cs : List Copy) (n : Nat) : Option Nat :=
  ((upTo 63).map fun k => 1 + (Config.pickHandle n + k) % 63).find? fun h =>
    cs.all fun c => c.handle != h

/-! ## A copy -/

/-- The three ways a copy walks the memory side (R195, R196). -/
inductive CopyWalk
  | line | rows | index
  deriving DecidableEq, Repr, Inhabited

/-- The element key of the tile a copy names. -/
def copyTile (key : Nat) (f : CopyForm) : Nat :=
  keyOf (partOf key) (cluOf key) (ringSite f.tile.toNat)

/-- Acceptance (R195) by a lighter that is ready (R404): a handle, the snapshot of LTASK (and of LPITCH and the record; log 21), and
the promise word to TA and TB.  `words` are the record and the pitch, `nums` the handle. -/
def State.acceptCopy (s : State) (r n : Nat) (c : Command) (f : CopyForm) (need : Nat) : State :=
  let (die, l) := s.lighterOf r c.elem
  let cs := s.copiesAt die l
  if !nbit (s.dies.get die).lighters l then s
  else match freeHandle cs s.nextId with
  | none => s
  | some h =>
    let p := (s.run r).lighterPort c.elem
    let w := (s.run r).shape (copyTile c.elem f) f.g.toNat f.k.toNat
    let blocks := (shapeOf w).count
    let base := s.copyBase r c.elem die c.msg.operand.toNat need
    let due := s.clock die + estimates s.cycle cs + base + blocks
    let copy : Copy := ⟨h, r, n, base, blocks, 0, none, due % 2 ^ 56⟩
    let s := s.editCopies die l fun cs => cs ++ [copy]
    let s := s.editCmd r n fun c =>
      { c with
        task := p.ltask.toNat
        prog := { c.prog with words := [w, p.lpitch], nums := [h] } }
    s.completeTo r c (Tok.data (promiseWord h l due))

/-- A copy's entry at its lighter. -/
def State.editCopy (s : State) (r n key : Nat) (g : Copy → Copy) : State :=
  let (die, l) := s.lighterOf r key
  s.editCopies die l fun cs => cs.map fun c => if c.run = r && c.cmd = n then g c else c

/-- The copy is the one its lighter performs: the first in order of acceptance. -/
def State.copyTurn (s : State) (r n key : Nat) : Bool :=
  let (die, l) := s.lighterOf r key
  match s.copiesAt die l with
  | c :: _ => c.run = r && c.cmd = n
  | [] => false

/-- The element of the index record for a row, or the address of a block at fault (R196).  DESIGN CHOICE: the
index record is read at each block, not at the acceptance of the command (log 93). -/
def State.indexOf (s : State) (r n : Nat) (c : Command) (f : CopyForm) (rows row : Nat) : Got Nat :=
  let key := copyTile c.elem f
  let h := shapeOf ((s.run r).shape key f.g.toNat (Nat.xor f.k.toNat 1))
  let ix := h.at (row / 16)
  let bad := s.windowEa r (tileBlock r key ix)
  if c.prog.skip.isSome then .got 0 s
  else if h.count * 16 < rows then .stop (s.engineFault r n c 0x13 bad)
  else (match s.tileRead r n c key ix with
    | .got b s =>
      if b.fmt != 0x03 then .stop (s.engineFault r n c 0x13 bad)
      else
        let v := ((blockElems 0x03 b.data)[row % 16]?).getD 0
        if v ≥ 2 ^ 31 then .stop (s.engineFault r n c 0x13 bad) else .got v s
    | .wait => .wait
    | .stop s => .stop s)

/-- The memory-side offset of a block: row and column in the shape (R195, R196). -/
def State.copyOffset (s : State) (r n : Nat) (c : Command) (f : CopyForm) (w : CopyWalk) (h : Shape)
    (pitch i : Nat) : Got Nat :=
  let row := i / h.cols
  let col := i % h.cols
  match w with
  | .line => .got (64 * i) s
  | .rows => .got (row * pitch + 64 * col) s
  | .index =>
    match s.indexOf r n c f h.rows row with
    | .got v s => .got (v * pitch + 64 * col) s
    | .wait => .wait
    | .stop s => .stop s

/-- Block `i` has been moved. -/
def State.movedBlock (s : State) (r n : Nat) (c : Command) (i : Nat) : State :=
  (s.editCopy r n c.elem fun x => { x with moved := i + 1 }).editCmd r n fun c =>
    { c with prog := { c.prog with i := i + 1 }, farBlk := none }

/-- One block of a copy (R195): `d` copies the tile to memory.  After a TSKIP the copy runs to its end
without the tile and without the memory (R169). -/
def State.copyBlock (s : State) (r n : Nat) (c : Command) (f : CopyForm) (w : CopyWalk) (d : Bool)
    (h : Shape) (pitch : Nat) : State :=
  let i := c.prog.i
  let key := copyTile c.elem f
  let first := tileBlock r key (h.at i)
  if i ≥ h.count then s.finish r n 0
  else if c.prog.skip.isSome then s.movedBlock r n c i
  else if !s.tileMasked r key then s.engineFault r n c 0x04 (s.windowEa r first)
  else if !(s.run r).tileEngine key then (s.heldAtTile (α := Unit) r n c).andThen s fun _ s => s
  else
    let s := s.useTile r n key
    let ix := h.at i
    (s.copyOffset r n c f w h pitch i).andThen s fun off s =>
      let ea := (c.msg.operand + word off).toNat
      if d then
        (s.tileRead r n c key ix).andThen s fun b s =>
          (s.engineWrite r n c ea b).andThen s fun _ s => s.movedBlock r n c i
      else if !s.portOpen r key c.rank || s.blockBusy (tileBlock r key ix) then s
      else
        (s.engineRead r n c ea (s.sideOf (tileBlock r key ix)).fmt).andThen s fun b s =>
          (s.tileWrite r c key ix b).andThen s fun _ s => s.movedBlock r n c i

/-- One step of a copy: it is accepted, waits for the lighter, and then moves block after block.  An LPITCH
of 0 means NCOL × 64 with NCOL the record's field, one less than the blocks of a row (R185, R194; log
21). -/
def State.copyStep (s : State) (r n : Nat) (c : Command) (f : CopyForm) (w : CopyWalk) (d : Bool) :
    State :=
  match c.prog.words with
  | rec_ :: pitch :: _ =>
    if !s.copyTurn r n c.elem then s
    else
      let h := shapeOf rec_
      let s := s.editCopy r n c.elem fun x =>
        { x with started := some (x.started.getD s.cycle) }
      s.copyBlock r n c f w d h (if pitch = 0 then 64 * (h.cols - 1) else pitch.toNat)
  | _ => s.acceptCopy r n c f (if d then needWrite else needRead)

def execCpy (c : Cmd) (f : CopyForm) (d : Bool) (s : State) : Result :=
  onEngine s c false fun s r n k => s.copyStep r n k f .line d

def execCpyg (c : Cmd) (f : CopyForm) (s : State) : Result :=
  onEngine s c false fun s r n k => s.copyStep r n k f .index false

def execCpys (c : Cmd) (f : CopyForm) (s : State) : Result :=
  onEngine s c false fun s r n k => s.copyStep r n k f .index true

def execCpy2d (c : Cmd) (f : CopyForm) (d : Bool) (s : State) : Result :=
  onEngine s c false fun s r n k => s.copyStep r n k f .rows d

/-- CPYQ (R197): the promise word again, with a new due time, which the lighter keeps. -/
def execCpyq (c : Cmd) (s : State) : Result :=
  onEngine s c false fun s r n k =>
    let p := k.msg.operand
    let (die, _) := s.lighterOf r k.elem
    let now := s.clock die
    let l := bits p 56 2
    let h := bits p 58 6
    let cs := s.copiesAt die l
    match cs.findIdx? fun x => x.handle = h with
    | none => s.finish r n (promiseWord h l now)
    | some i =>
      let due := now + estimates s.cycle (cs.take (i + 1))
      (s.editCopies die l fun cs => listModify cs i fun x => { x with due := due % 2 ^ 56 }).finish
        r n (promiseWord h l due)

/-- A missed promise of a copy holds the due time that CPYQ gave last, so that a TRET after the end of the copy
passes the token at that cycle (R98, R156). -/
def Parked.renew (l : Nat) (c : Copy) (p : Parked) : Parked :=
  let f := p.firing
  if p.cause = 0x08 && bits f.lv 58 6 = c.handle && bits f.lv 56 2 = l then
    { p with firing := { f with l := some { f.lt with val := promiseWord c.handle l c.due } } }
  else p

/-- The missed promises of a copy in the elements of its die. -/
def State.renewPromises (s : State) (die l : Nat) (c : Copy) : State :=
  let runs : Tbl Run := s.runs.map fun r =>
    (r.1, { r.2 with elems := r.2.elems.map fun e =>
      if (r.2.part (partOf e.1)).die = die then (e.1, { e.2 with parked := e.2.parked.map (Parked.renew l c) })
      else e })
  { s with runs := runs }

/-- A finished copy leaves its lighter and frees its handle (R195). -/
def State.dropCopy (s : State) (r n key : Nat) : State :=
  let (die, l) := s.lighterOf r key
  let mine := (s.copiesAt die l).filter fun c => c.run = r && c.cmd = n
  (mine.foldl (fun (s : State) c => s.renewPromises die l c) s).editCopies die l fun cs => cs.filter fun c => !(c.run = r && c.cmd = n)

/-- A copy's word: its promise was its token, so it sends none at its end (R195). -/
def isCopy : Instr → Bool
  | .cpy .. | .cpyg .. | .cpys .. | .cpy2d .. => true
  | _ => false

end Sys2Proof.Machine
end

