-- ==== Sys2Proof/Machine/Strands.lean ====
section
/-! DEFINITION. Strands: the permit count, the strand registers and their coupling rules, STRCLOSE,
the sending of beats and the tension loop: opcodes 0x91, 0x92 and 0x98 to 0x9A (R78, R160,
R198 to R201, R256 to R269). -/

namespace Sys2Proof.Machine

/-! ## The ports that a command runs, R179, R186, R202, R203, R214, R216, R228 -/

/-- Input and output ports of an engine command. -/
def enginePorts : Instr → List Nat × List Nat
  | .mma .. | .mmas .. | .mmax3 .. => ([0, 1, 2, 3], [])
  | .vmap .. | .vred .. | .vscan .. | .vsoft .. | .vnorm .. => ([0, 1], [0, 1])
  | .vcmp .. | .vrope .. => ([0, 1, 2, 3], [0, 1])
  | .vfma _ f => ((fmaOperands f.fn.toNat).flatMap fun q => [2 * q, 2 * q + 1], [0, 1])
  | .vsel .. => ([0, 1, 2, 3, 4, 5], [0, 1])
  | .cvt .. => ([0], [1])
  | .tread _ f | .tcomp _ f | .twin _ f | .trep _ f => ([], [f.p.toNat])
  | .twrite _ f | .texp _ f _ => ([f.p.toNat], [])
  | .tsacc _ f _ | .trmw _ f _ => ([f.p.toNat], [f.p.toNat])
  | .pscat .. | .topk .. => ([0], [])
  | .treemask .. => ([0], [1])
  | .seamin _ _ q _ => ([], [q.toNat])
  | .seamout _ q _ => ([q.toNat], [])
  | .isect .. | .union .. => ([0, 1], [0, 1])
  | .cmpr .. => ([0, 1], [0])
  | _ => ([], [])

def CmdMsg.ports (m : CmdMsg) : List Nat × List Nat :=
  match decode m.word with
  | .ok i => enginePorts i
  | .error _ => ([], [])

/-- A command has started and not completed. -/
def Command.started (c : Command) : Bool :=
  match c.state with
  | .running | .stopped | .finished _ => true
  | _ => false

/-- The started command that produces on a strand, by number. -/
def Run.producer (x : Run) (st : Strand) : Option (Nat × Command) :=
  x.cmds.find? fun c => c.2.elem = st.elem && c.2.started && c.2.msg.ports.2.contains st.port

/-- The started command that consumes on a branch. -/
def Run.consumer (x : Run) (b : Branch) : Option (Nat × Command) :=
  x.cmds.find? fun c => c.2.elem = b.elem && c.2.started && c.2.msg.ports.1.contains b.port

/-! ## Endpoints, R78, R198 -/

/-- An element has an endpoint of a strand (R198). -/
def Strand.endAt (st : Strand) (key : Nat) : Bool :=
  st.bound == some key || st.branches.any fun b => b.bound == some key

/-- The strand of a number with an endpoint at an element (R78). -/
def Run.strandOf (x : Run) (key num : Nat) : Option Nat :=
  match x.strands.find? fun e => e.2.num = num && e.2.endAt key with
  | some e => some e.1
  | none => none

def State.editStrand (s : State) (r k : Nat) (f : Strand → Strand) : State :=
  s.editRun r fun x => { x with strands := x.strands.edit k f }

/-- Go on with the strand of a number that has an endpoint at the firing's element and a branch; a
number or a branch without one has no meaning, and traps ILLEGAL with the slot word (R78, R80). -/
def State.onStrand (s : State) (f : Firing) (num branch : Nat) (k : Nat → State) : State :=
  match (s.run f.run).strandOf f.elem num with
  | none => s.illegalWord f (s.slotWord f)
  | some key =>
    if branch ≥ ((s.run f.run).strands.get key).branches.length then s.illegalWord f (s.slotWord f)
    else k key

/-! ## PERMIT and TAKE, R160 -/

/-- A request of the permit count takes effect at the producer's gate (R160). -/
def State.applyPermit (s : State) (r k : Nat) (q : CtrlReq) : State :=
  let p := ((s.run r).strands.get k).permit
  match q with
  | .permit n f o =>
    let sat := p + n > 65535
    let p' := if sat then 65535 else p + n
    ((s.editStrand r k fun st => { st with permit := p' }).raise f (flagIf sat SAT)).emitOut f o
      (Tok.data (word p'))
  | .take n f o =>
    let m := min n p
    (s.editStrand r k fun st => { st with permit := p - m }).emitOut f o (Tok.data (word m))
  | .close => s

/-- At the producer end a request applies at once; from the consumer end it travels (R160, R259). -/
def State.permitOp (s : State) (f : Firing) (num : Nat) (q : CtrlReq) : State :=
  s.onStrand f num 0 fun k =>
    if ((s.run f.run).strands.get k).bound = some f.elem then s.applyPermit f.run k q
    else s.editStrand f.run k fun st => { st with control := st.control ++ [q] }

def execPermit (o : Out) (strand : BitVec 8) (s : State) : Result :=
  onFiring s fun s f => s.permitOp f strand.toNat (.permit (bits f.lv 0 16) f o)

def execTake (o : Out) (strand : BitVec 8) (s : State) : Result :=
  onFiring s fun s f => s.permitOp f strand.toNat (.take (bits f.lv 0 16) f o)

/-! ## The coupling rules, R257, R260, R268, R269 -/

/-- The loop of a strand is on (R260). -/
def Strand.loopOn (st : Strand) : Bool := st.kp != 0 || st.ki != 0

/-- The limits of one strand's registers (R257, R260, rules 1, 4 and 5 of R269). -/
def Strand.limitsOk (st : Strand) : Bool :=
  1 ≤ st.wmin && st.wmin ≤ st.wmax && st.wmax ≤ 255 &&
    st.wmin ≤ st.wpbase && st.wpbase ≤ st.wmax && st.imax ≤ 65535 &&
    st.kp ≤ 128 && 8 * st.ki ≤ st.kp &&
    st.branches.all fun b =>
      st.wmin ≤ b.wcbase && b.wcbase ≤ st.wmax && 4 ≤ b.cap && b.cap ≤ 1024 &&
        2 ≤ b.gauge && b.gauge + 2 ≤ b.cap && (!b.bridge || st.kp ≤ 64)

/-- The elements a strand's ends are bound to, once each. -/
def Strand.boundElems (st : Strand) : List Nat :=
  (st.bound.toList ++ st.branches.flatMap fun b => b.bound.toList).eraseDups

/-- The sum of KP over the loop-enabled strands with an end bound to an element (rule 2). -/
def pullOn (ss : List Strand) (key : Nat) : Nat :=
  ((ss.filter fun st => st.loopOn && st.boundElems.contains key).map fun st => st.kp).foldl (· + ·) 0

/-- An edge of the coupling graph: from, to, KP, KI, strand number (R268). -/
abbrev Edge := Nat × Nat × Nat × Nat × Nat

def edgesOf (ss : List Strand) : List Edge :=
  (ss.filter Strand.loopOn).flatMap fun st =>
    match st.bound with
    | none => []
    | some a => st.branches.filterMap fun b => b.bound.map fun z => (a, z, st.kp, st.ki, st.num)

/-- The strand numbers of the directed cycles through `start` that break rule 3: those with a KI,
and those with a KP sum above 128. -/
def badCycles (es : List Edge) (start : Nat) :
    Nat → Nat → List Nat → Nat → Bool → List Nat → List Nat
  | 0, _, _, _, _, _ => []
  | fuel + 1, here, seen, sum, ki, path =>
    es.flatMap fun e =>
      if e.1 != here then []
      else
        let sum' := sum + e.2.2.1
        let ki' := ki || e.2.2.2.1 != 0
        let path' := e.2.2.2.2 :: path
        if e.2.1 = start then (if ki' || sum' > 128 then path' else [])
        else if seen.contains e.2.1 then []
        else badCycles es start fuel e.2.1 (e.2.1 :: seen) sum' ki' path'

/-- The strand numbers that take part in a violation (R269). -/
def couplingFaults (ss : List Strand) : List Nat :=
  let es := edgesOf ss
  let own := (ss.filter fun st => !st.limitsOk).map fun st => st.num
  let pulls := (ss.filter fun st => st.loopOn && st.boundElems.any fun k => pullOn ss k > 192).map
    fun st => st.num
  let starts := (es.map fun e => e.1).eraseDups
  own ++ pulls ++ starts.flatMap fun v => badCycles es v starts.length v [v] 0 false []

/-! ## Strand registers, R199, R200 -/

def Strand.branch (st : Strand) (b : Nat) : Branch := (st.branches[b]?).getD default

def Strand.editBranch (st : Strand) (b : Nat) (f : Branch → Branch) : Strand :=
  { st with branches := listModify st.branches b f }

/-- FLAGS as read: the kept bits and whether the loop is on (R199). -/
def Strand.flagsWord (st : Strand) (b : Nat) : Nat :=
  (st.branch b).flags % 8 + (if st.loopOn then 8 else 0)

/-- A strand with the weights and the loop in force: the cycle of an update still has those before it
(R261). -/
def Strand.inForce (st : Strand) (now : Nat) : Strand :=
  if st.updated = now then
    { st with
      wprod := st.wprodWas
      loop := st.loopWas
      branches := st.branches.map fun b => { b with wcons := b.wconsWas } }
  else st

/-- The value of a strand register (R199). -/
def Strand.readReg (st : Strand) (index b : Nat) : Word :=
  let br := st.branch b
  match index with
  | 0 => word br.gauge
  | 1 => word st.kp
  | 2 => word st.ki
  | 3 => word st.wmin
  | 4 => word st.wmax
  | 5 => word st.imax
  | 6 => word br.beats.length
  | 7 => wordI br.integ
  | 8 => word st.wprod
  | 9 => word br.wcons
  | 10 => word br.cap
  | 11 => word st.orph
  | 12 => word (st.flagsWord b)
  | 13 => word st.wpbase
  | _ => word br.wcbase

/-- The width of a register that software writes (R199); none for the others. -/
def strRegBits (index : Nat) : Option Nat :=
  match index with
  | 0 => some 10
  | 1 | 2 | 3 | 4 | 13 | 14 => some 8
  | 5 => some 16
  | _ => none

/-- A strand with a register changed (R199). -/
def Strand.writeReg (st : Strand) (index b v : Nat) : Strand :=
  match index with
  | 0 => st.editBranch b fun br => { br with gauge := v }
  | 1 => { st with kp := v }
  | 2 => { st with ki := v }
  | 3 => { st with wmin := v }
  | 4 => { st with wmax := v }
  | 5 => { st with imax := v }
  | 13 => { st with wpbase := v }
  | 14 => st.editBranch b fun br => { br with wcbase := v }
  | _ => st

/-- The value fits its field and the rules still hold (R200). -/
def Run.strsetOk (x : Run) (k index b : Nat) (v : Word) : Bool :=
  match strRegBits index with
  | none => false
  | some w =>
    v.toNat < 2 ^ w &&
      (couplingFaults ((x.strands.edit k fun st => st.writeReg index b v.toNat).map Prod.snd)).isEmpty

/-- STRSET (R200): the old value is emitted; a refused value traps COUPLING.  A KP or a KI that is accepted
turns the loop on or off at the strand's next update (R200, R261). -/
def execStrset (o : Out) (strand : BitVec 8) (index : BitVec 4) (branch : BitVec 3) (s : State) :
    Result :=
  onFiring s fun s f =>
    s.onStrand f strand.toNat branch.toNat fun k =>
      let x := s.run f.run
      let st := x.strands.get k
      if x.strsetOk k index.toNat branch.toNat f.lv then
        (s.editStrand f.run k fun st => st.writeReg index.toNat branch.toNat f.lv.toNat).emitOut f o
          (Tok.data (st.readReg index.toNat branch.toNat))
      else s.park f 0x0A (word st.num)

/-- STROCC (R200): a weight is read as it is in force. -/
def execStrocc (o : Out) (strand : BitVec 8) (index : BitVec 4) (branch : BitVec 3) (s : State) :
    Result :=
  onFiring s fun s f =>
    s.onStrand f strand.toNat branch.toNat fun k =>
      let st := ((s.run f.run).strands.get k).inForce s.cycle
      s.emitOut f o (Tok.data (st.readReg index.toNat branch.toNat))

/-! ## STRCLOSE, R201 -/

/-- Producer closings whose end-of-stream beat has not been sent. -/
def Strand.closingsOut (st : Strand) : Nat :=
  (st.closing.filter fun c => match c with
    | .consumer .. => false
    | _ => true).length

/-- Commands whose payload is the number of beats sent (R186, R202). -/
def countsSent : Instr → Bool
  | .tread .. | .twin .. | .trep .. | .tcomp .. | .tsacc .. | .trmw .. | .seamin .. => true
  | _ => false

/-- The completion payload of a command that a STRCLOSE ends early: what it has done so far, where
its payload counts that (R186, R201, R202, R220, R229), and the last result of a VRED (R180); `held` are the
entries of a sampler.  The spec states none of a VRED without a fibre, of a TREEMASK and of a PSCAT (log 97). -/
def closePayload (i : Instr) (sent held : Nat) (p : Prog) : Option Word :=
  match i with
  | .twrite .. | .texp .. | .isect .. | .union .. | .seamout .. => some (word p.n)
  | .mma .. | .mmas .. | .mmax3 .. => some (word p.i)
  | .topk .. => some (word held)
  | .vred .. => if (p.nums[3]?).getD 0 = 0 then none else some (word ((p.nums[4]?).getD 0))
  | .treemask .. | .pscat .. => none
  | i => some (if countsSent i then word sent else 0)

/-- A command completes at once (R201).  One whose work is over keeps its payload, but for a count of beats of
which the last are not sent. -/
def State.closeCommand (s : State) (r n sent : Nat) (c : Command) (producer : Bool) : State :=
  match decode c.msg.word, c.state with
  | .error _, _ => s
  | .ok i, .finished _ => if producer && countsSent i then s.finish r n (word sent) else s
  | .ok i, _ =>
    let held := (((s.run r).samplers.find c.elem).map fun y => y.cas.length).getD 0
    match closePayload i sent held c.prog with
    | some v => s.finish r n v
    | none =>
      let (k, s) := s.takeId
      s.finish r n (Config.openValue k)

/-- A command still takes beats: a PSCAT has taken its one when it scatters (R214). -/
def Command.consumes (c : Command) : Bool :=
  match decode c.msg.word with
  | .ok (.pscat ..) => c.prog.j = 0
  | _ => true

/-- The producer end closes: the producing command ends, its unsent beats are not sent, and an
end-of-stream beat follows those in the strand (R201). -/
def State.closeProducer (s : State) (r k : Nat) (how : Nat → Closing) : State :=
  let st := (s.run r).strands.get k
  let (s, count) := match (s.run r).producer st with
    | some (n, c) => (s.closeCommand r n st.sent c true, st.sent)
    | none => (s, 0)
  s.editStrand r k fun st =>
    { st with
      ready := st.ready.take st.closingsOut ++ [Beat.eos]
      closing := st.closing ++ [how count] }

/-- The branches of a strand whose end is bound to an element. -/
def Strand.branchesAt (st : Strand) (key : Nat) : List Nat :=
  (upTo st.branches.length).filter fun i => (st.branch i).bound == some key

/-- The consumer end closes: the consuming commands end, with the beats they have formed as their count,
the notice leaves for the producer end, and beats are discarded from now on (R186, R201, R259). -/
def State.closeConsumer (s : State) (f : Firing) (o : Out) (k : Nat) : State :=
  let r := f.run
  let st := (s.run r).strands.get k
  let s := st.branches.foldl (fun (s : State) b =>
    if b.bound = some f.elem then
      match (s.run r).consumer b with
      | some (n, c) => if c.consumes then s.closeCommand r n c.prog.n c false else s
      | none => s
    else s) s
  s.editStrand r k fun st =>
    { st with
      control := st.control ++ [.close]
      closing := st.closing ++ [.consumer f o 0 (st.branchesAt f.elem)] }

def execStrclose (o : Out) (strand : BitVec 8) (s : State) : Result :=
  onFiring s fun s f =>
    s.onStrand f strand.toNat 0 fun k =>
      if ((s.run f.run).strands.get k).bound = some f.elem then
        s.closeProducer f.run k fun count => .producer f o count
      else s.closeConsumer f o k

/-! ## STRAND_BEAT_SEND, R201, R258, R264 -/

/-- The end of a branch takes beats: its part is neither complete nor cancelled (R344, R346). -/
def Run.takesBeats (x : Run) (b : Branch) : Bool :=
  let p := x.part (partOf b.elem)
  !p.done && !p.cancelled

/-- Every branch has room (R258); beats for an end that takes none are discarded. -/
def Run.room (x : Run) (st : Strand) : Bool :=
  st.branches.all fun b => !x.takesBeats b || b.beats.length < b.cap

/-- The gate lets a beat pass (R160, R258). -/
def Strand.gateOpen (st : Strand) (b : Beat) : Bool := !b.isData || !st.gated || st.permit > 0

/-- The closing whose end-of-stream beat is being sent, and the others. -/
def takeClosing : List Closing → Option Closing × List Closing
  | [] => (none, [])
  | .consumer f o c n :: rest =>
    let (x, ys) := takeClosing rest
    (x, .consumer f o c n :: ys)
  | c :: rest => (some c, rest)

/-- Send a beat onto every branch. -/
def Run.send (x : Run) (st : Strand) (b : Beat) : Strand :=
  { st with
    ready := st.ready.drop 1
    branches := st.branches.map fun br => if x.takesBeats br then { br with beats := br.beats ++ [b] } else br
    permit := if b.isData && st.gated then st.permit - 1 else st.permit
    sent := st.sent + 1 }

def execStrandBeatSend (r k : Nat) (s : State) : Result :=
  .next (match (s.run r).strands.find k with
    | none => s
    | some st =>
      match st.ready with
      | [] => s
      | b :: _ =>
        let x := s.run r
        if s.haltedSite r st.elem || !x.room st || !st.gateOpen b then s
        else if st.closingsOut > 0 then
          -- the beats before a pending close were discarded, so this is its end-of-stream
          let (c, rest) := takeClosing st.closing
          let s := s.editStrand r k fun y => { x.send y b with closing := rest, sent := y.sent }
          match c with
          | some (.producer f o count) => s.emitOut f o (Tok.data (word count))
          | _ => s
        else s.editStrand r k fun y => x.send y b)

/-! ## CONTROL_STRAND_REQUEST, R160, R201, R259 -/

/-- The notice of a consumer-end STRCLOSE reaches the producer end (R201). -/
def State.noticeClose (s : State) (r k : Nat) : State :=
  match (s.run r).producer ((s.run r).strands.get k) with
  | some _ => s.closeProducer r k fun _ => .producerSilent
  | none => s

/-- Beats up to and including the next end-of-stream: how many, and whether it was among them. -/
def drainCount : List Beat → Nat × Bool
  | [] => (0, false)
  | b :: bs =>
    if b.isEos then (1, true)
    else
      let (n, hit) := drainCount bs
      (n + 1, hit)

/-- Branches discard what has arrived, up to and including an end-of-stream: the strand, the number of
beats, and the branches that go on (R201). -/
def Strand.drain (st : Strand) : List Nat → Strand × Nat × List Nat
  | [] => (st, 0, [])
  | i :: is =>
    let (n, hit) := drainCount (st.branch i).beats
    let y : Strand :=
      { st with
        orph := min (st.orph + n) (2 ^ 32 - 1)
        branches := listModify st.branches i fun b =>
          { b with
            beats := b.beats.drop n
            flags := if n = 0 then b.flags else b.flags ||| 1 } }
    let (z, k, left) := y.drain is
    (z, n + k, if hit then left else i :: left)

/-- The consumer closings of a strand discard what has arrived, each branch's beats those of the oldest:
the strand, the closings that go on, and the counts of those that are done (R201). -/
def Strand.drainAll (st : Strand) (held : List Nat) :
    List Closing → Strand × List Closing × List (Firing × Out × Nat)
  | [] => (st, [], [])
  | .consumer f o count left :: rest =>
    let (y, n, on) := st.drain (left.filter fun i => !held.contains i)
    let on := on ++ left.filter held.contains
    let (z, cs, ds) := y.drainAll (held ++ on) rest
    if on.isEmpty then (z, cs, (f, o, count + n) :: ds)
    else (z, .consumer f o (count + n) on :: cs, ds)
  | c :: rest =>
    let (z, cs, ds) := st.drainAll held rest
    (z, c :: cs, ds)

/-- The consumer closings, if any, go on; each that has met its end-of-stream beats emits its count. -/
def State.drainClosings (s : State) (r k : Nat) : State :=
  let st := (s.run r).strands.get k
  if st.closingsOut = st.closing.length then s
  else
    let (y, cs, ds) := st.drainAll [] st.closing
    ds.foldl (fun (s : State) d => s.emitOut d.1 d.2.1 (Tok.data (word d.2.2)))
      (s.editStrand r k fun _ => { y with closing := cs })

/-- The oldest request of a control strand is applied, and the consumer closings go on. -/
def execControlStrandRequest (r k : Nat) (s : State) : Result :=
  .next (match (s.run r).strands.find k with
    | none => s
    | some st =>
      if s.haltedSite r st.elem then s
      else
        (match st.control with
          | [] => s
          | q :: rest =>
            let s := s.editStrand r k fun y => { y with control := rest }
            match q with
            | .close => s.noticeClose r k
            | q => s.applyPermit r k q).drainClosings r k)

/-! ## TENSION_UPDATE, R261 to R263 -/

/-- The strand is idle: no end has a started command (R263). -/
def Run.idleStrand (x : Run) (st : Strand) : Bool :=
  (x.producer st).isNone && st.branches.all fun b => (x.consumer b).isNone

/-- An output port has room for the next beat, or leads nowhere. -/
def Run.outFree (x : Run) (key port : Nat) : Bool :=
  match x.outStrand key port with
  | none => true
  | some k => (x.strands.get k).ready.isEmpty

/-- An operand of a vector command stands at this port. -/
def Run.vecAwaits (x : Run) (c : Command) (port : Nat) (qs : List Nat) : Bool :=
  x.outFree c.elem 0 && x.outFree c.elem 1 &&
    qs.any fun q => x.vecPort c.elem (2 * q) (c.prog.taken q) = port

/-- The command's next unit of work takes a beat from this port, and nothing else holds it up (R262): a
beat that it has taken is done with, and its outputs have room. -/
def Run.awaits (x : Run) (c : Command) (port : Nat) : Bool :=
  match decode c.msg.word with
  | .error _ => false
  | .ok i => match i with
    | .mma .. | .mmas .. | .mmax3 .. =>
      let ins := (upTo 4).filter fun p => (x.inEnd c.elem p).isSome
      (ins[c.prog.i % max ins.length 1]?).getD 0 = port && c.prog.i < bits c.msg.operand 0 6
    | .vmap .. | .vred .. | .vscan .. | .vsoft .. | .vnorm .. => x.vecAwaits c port [0]
    | .vcmp .. | .vrope .. => x.vecAwaits c port [0, 1]
    | .vsel .. => x.vecAwaits c port [0, 1, 2]
    | .vfma _ f => x.vecAwaits c port (fmaOperands f.fn.toNat)
    | .cvt .. | .treemask .. => x.outFree c.elem 1
    | .twrite .. | .seamout .. => true
    | .texp .. | .trmw .. => c.prog.blks.isEmpty
    | .tsacc .. => c.prog.blks.isEmpty && c.prog.j != 0
    | .isect .. | .union .. =>
      x.outFree c.elem 0 && x.outFree c.elem 1 &&
        (if port = 0 then c.prog.nums.isEmpty else c.prog.ints.isEmpty)
    | .cmpr .. => x.outFree c.elem 0
    | .pscat .. => c.prog.j = 0
    | .topk .. => c.prog.j != 0
    | _ => false

/-- Frozen at empty (R262): the started command of the branch waits for a beat. -/
def Run.frozenEmpty (x : Run) (st : Strand) (b : Branch) : Bool :=
  b.beats.isEmpty && st.wprod = st.wmax && match x.consumer b with
    | some (_, c) => c.state == .running && x.awaits c b.port
    | none => false

/-- Frozen at full (R262). -/
def Run.frozenFull (x : Run) (st : Strand) (b : Branch) : Bool :=
  b.beats.length = b.cap && !st.ready.isEmpty && b.wcons = st.wmax && (x.producer st).isSome

/-- e(b) := o(b) − GAUGE(b) (R261). -/
def Branch.error (b : Branch) : Int := (b.beats.length : Int) - b.gauge

/-- adj of a branch whose integral is up to date: rounds towards −∞ (R261). -/
def Strand.adj (st : Strand) (b : Branch) : Int :=
  ((st.kp : Int) * b.error + (st.ki : Int) * b.integ) / 256

/-- A branch after its update (R261, R262); the weight it had is in force in this cycle. -/
def Run.updateBranch (x : Run) (st : Strand) (b : Branch) : Branch :=
  let atEmpty := x.frozenEmpty st b
  let atFull := x.frozenFull st b
  let integ := if atEmpty || atFull then b.integ
    else clampInt (b.integ + b.error) (-(st.imax : Int)) st.imax
  let b' := { b with integ := integ }
  { b' with
    wconsWas := b.wcons
    wcons := (clampInt ((b.wcbase : Int) + st.adj b') st.wmin st.wmax).toNat
    flags := b.flags % 2 + (if atEmpty then 2 else 0) + (if atFull then 4 else 0) }

/-- The branch with the largest error; ties to the lowest (R261). -/
def worstBranch : List Branch → Option Branch
  | [] => none
  | b :: bs =>
    match worstBranch bs with
    | some w => if b.error ≥ w.error then some b else some w
    | none => some b

/-- A strand after one update at a cycle (R261, R263). -/
def Run.updateStrand (x : Run) (now : Nat) (st : Strand) : Strand :=
  if x.idleStrand st then st
  else
    let bs := st.branches.map (x.updateBranch st)
    let w := match worstBranch bs with
      | some f => (clampInt ((st.wpbase : Int) - st.adj f) st.wmin st.wmax).toNat
      | none => st.wprod
    { st with
      branches := bs
      wprod := w
      wprodWas := st.wprod
      loop := st.loopOn
      loopWas := st.loop
      updated := now }

/-- Every strand of every running launch updates in each cycle that is a multiple of 64 (R261). -/
def execTensionUpdate (s : State) : Result :=
  .next (
    if s.cycle % 64 != 0 then s
    else
      let update (x : Run) : Run :=
        if x.halted then x
        else { x with strands := x.strands.map fun e => (e.1, x.updateStrand s.cycle e.2) }
      { s with runs := s.runs.map fun e => (e.1, update e.2) })

end Sys2Proof.Machine
end

