-- ==== Sys2Proof/Machine/Seams.lean ====
section
/-! DEFINITION. Seam commands other than CMPR: opcodes 0x9B, 0x9C and 0xEB to 0xED (R32, R112, R202,
R203, R228 to R230, R266, R267, R332). -/

namespace Sys2Proof.Machine

/-! ## Elements, R202 -/

/-- The element width of EW in bits. -/
def ewBits : ElemWidth → Nat
  | .e64 => 64
  | .e32 => 32
  | .e16 => 16

def SeamSt.zero : SeamSt := ⟨0, 0, false, []⟩

def Run.seam (x : Run) (key : Nat) : SeamSt := (x.seams.find key).getD SeamSt.zero

def State.editSeam (s : State) (r key : Nat) (f : SeamSt → SeamSt) : State :=
  s.editRun r fun x => { x with seams := x.seams.put key (f (x.seam key)) }

/-! ## SEAMIN, R202 -/

/-- Remove the first token of an input. -/
def dropInput (n : Nat) : List SeamTok → List SeamTok
  | [] => []
  | t :: ts => if t.input = n then ts else t :: dropInput n ts

/-- Replace the first token of an input where it is POISON (a TSKIP of it, R169); a kill may have removed it. -/
def replaceInput (n : Nat) (v : Tok) : List SeamTok → List SeamTok
  | [] => []
  | t :: ts =>
    if t.input = n then (if t.tok.kind = .poison then { t with tok := v } :: ts else t :: ts)
    else t :: replaceInput n v ts

/-- The data beat of the elements gathered, padded with zeros. -/
def seamBeat (w descr : Nat) (es : List Word) : Beat :=
  ⟨fillTo 64 0 (es.flatMap fun e => toBytes (w / 8) (e.toNat % 2 ^ w)), descr, 0⟩

/-- A fault of a token that SEAMIN takes: the token stands in the trap's token registers (R169,
R202). -/
def State.seamTrap (s : State) (r n : Nat) (c : Command) (t : SeamTok) (cause : Nat) (info : Word)
    (resume : Resume) : State :=
  let bits := s.tokenBits
    ⟨r, c.elem, c.elem, t.input, 0, (s.run r).ctx, t.colour, t.iter, t.tok, none, false, false⟩
  let rec_ := s.trapRecord (c.msg.firing r) cause info resume
  (s.editCmd r n fun c => { c with state := .stopped }).trap r
    { rec_ with tokenA := t.tok.val, tokenB := bits }

/-- One token of SEAMIN: `words` are the elements of the partial beat, `n` the beats sent.  A STOP of level
0 traps ILLEGAL with the operand word (R169, R202). -/
def State.packToken (s : State) (r n : Nat) (c : Command) (input port : Nat) (w : Nat) : State :=
  let p := c.prog
  let descr := bits c.msg.operand 0 16
  if ((s.run r).part (partOf c.elem)).cancelled then s.finish r n (word p.n)
  else if !s.outReady r c.elem port then s
  else match ((s.run r).seam c.elem).inputs.find? fun t => t.input = input with
    | none => s
    | some q =>
      let t := q.tok
      let took := s.editSeam r c.elem fun z => { z with inputs := dropInput input z.inputs }
      match t.kind with
      | .data | .unseen =>
        let es := p.words ++ [t.val]
        if es.length = 512 / w then
          (took.putBeats r c.elem port [seamBeat w descr es]).setProg r n
            { p with words := [], n := p.n + 1 }
        else took.setProg r n { p with words := es }
      | .stop =>
        if t.level = 0 then s.seamTrap r n c q 0x01 c.msg.operand (.engine n)
        else
          let flush := if p.words.isEmpty then [] else [seamBeat w descr p.words]
          let bs := flush ++ [Beat.stop t.level]
          let s := (took.putBeats r c.elem port bs).setProg r n
            { p with words := [], n := p.n + bs.length }
          if t.level = 7 then s.finish r n (word (p.n + bs.length)) else s
      | .poison =>
        s.seamTrap r n c q 0x0C (word t.paddr) (.seamPoison n)
      | _ => took

def execSeamin (c : Cmd) (n : BitVec 3) (q : Bool) (ew : ElemWidth) (s : State) : Result :=
  onEngine s c false fun s r k c => s.packToken r k c n.toNat q.toNat (ewBits ew)

/-! ## SEAMOUT, R203 -/

/-- The elements of a beat as tokens, with ascending tags. -/
def State.sendElems (s : State) (r : Nat) (c : Command) (dst n : Nat) : List Tok → State
  | [] => s
  | t :: ts =>
    let d := c.msg.operand
    let (id, s) := s.takeId
    (s.addFlit id ⟨r, c.elem, dst, bits d 12 5, bits d 10 2, (s.run r).ctx, bits d 0 10,
      (bits d 32 16 + n) % 65536, t, none, true, true⟩).sendElems r c dst (n + 1) ts

/-- A failed check of R112 on SEAMOUT's destination word: its cause. -/
def State.seamoutBad (s : State) (r : Nat) (d : Word) : Option Nat :=
  let colour := bits d 0 10
  if (s.destKey r d).isNone then some 0x04
  else if bits d 10 2 = 3 then some 0x01
  else if colour != 0 && ((s.ctx (s.run r).ctx).colour colour).state = .free then some 0x01
  else none

/-- One beat of SEAMOUT: `n` counts the elements sent.  After a TSKIP the rest of the input is taken
and discarded. -/
def State.unpackBeat (s : State) (r n : Nat) (c : Command) (port w : Nat) : State :=
  let p := c.prog
  let d := c.msg.operand
  match s.inBeat r c.elem port with
  | none => s
  | some b =>
    let took := s.takeBeat r c.elem port
    if p.skip.isSome then
      if b.isEos then took.finish r n (word p.n) else took
    else match s.seamoutBad r d, s.destKey r d with
      | none, some dst =>
        if b.isData then
          let es := ((chunks (w / 8) 64 b.data).map fun e => Tok.data (word (ofBytes e)))
          (took.sendElems r c dst p.n es).setProg r n { p with n := p.n + es.length }
        else
          let s := took.sendElems r c dst p.n [Tok.stop b.ctrl]
          if b.isEos then s.finish r n (word p.n) else s
      | some cause, _ => s.engineFault r n c cause d
      | none, none => s

def execSeamout (c : Cmd) (q : Bool) (ew : ElemWidth) (s : State) : Result :=
  onEngine s c false fun s r n k => s.unpackBeat r n k q.toNat (ewBits ew)

/-! ## SEAMPOL, R228 -/

def SeamSt.policyWord (z : SeamSt) : Word :=
  word (z.padv * 2 ^ 16 + (if z.mcnt then 4 else 0) + z.pol)

/-- A reserved bit set, or POL 11; MCNT is ignored (R228). -/
def badPolicy (w : Word) : Bool := bits w 32 32 != 0 || bits w 3 13 != 0 || bits w 0 2 = 3

def execSeampol (c : Cmd) (s : State) : Result :=
  onEngine s c false fun s r n k =>
    let w := k.msg.operand
    if badPolicy w then s.engineIllegal r n k
    else (s.editSeam r k.elem fun z => { z with padv := bits w 16 16, pol := bits w 0 2 }).finish r n
      ((s.run r).seam k.elem).policyWord

/-! ## ISECT and UNION, R229, R230

The command's progress: `nums` and `ints` are the pairs of A and B still to be merged, `words` hold
the policy, the pad value, one more than the last coordinate of A and of B, the state of the fibre
(bit 0: a pair of fibres is open; bit 1: a beat of it has gone out; bits 3:2 and 5:4: the value types of A and B), and from the sixth on
the pairs to be sent; `n` the pairs sent; `j` the choice for an orphan. -/

/-- A pair to be sent: coordinate, A's value, B's value. -/
def packOut (k a b : Nat) : Word := word (k * 2 ^ 32 + a % 2 ^ 16 * 2 ^ 16 + b % 2 ^ 16)

def outCoord (w : Word) : Nat := bits w 32 16
def outA (w : Word) : Nat := bits w 16 16
def outB (w : Word) : Nat := bits w 0 16

/-- The words of a join that has just started under a policy (R228). -/
def joinWords (z : SeamSt) : List Word := [word z.pol, word z.padv, 0, 0, 0]

def Prog.wd (p : Prog) (k : Nat) : Nat := ((p.words[k]?).getD 0).toNat

def Prog.setWd (p : Prog) (k v : Nat) : Prog := { p with words := listSet p.words k (word v) }

def Prog.outs (p : Prog) : List Word := p.words.drop 5

def Prog.paired (p : Prog) : Bool := nbit (p.wd 4) 0

/-- The value type of an input's pairs (R48). -/
def Prog.vtOf (p : Prog) (side : Bool) : Nat := nbits (p.wd 4) (if side then 4 else 2) 2

/-- A beat of the fibre being joined has gone out (R312). -/
def Prog.begun (p : Prog) : Bool := nbit (p.wd 4) 1

def joinState (paired begun : Bool) (a b : Nat) : Nat :=
  (if paired then 1 else 0) + (if begun then 2 else 0) + 4 * a + 16 * b

/-- The fibre's state after a beat has gone out (R312). -/
def Prog.begin_ (p : Prog) : Prog := p.setWd 4 (joinState p.paired true (p.vtOf false) (p.vtOf true))

/-- Send the pairs gathered: full beats, and, at a flush, a partial one. -/
def State.joinSend (s : State) (r key : Nat) (p : Prog) (flush : Bool) : State × Prog :=
  let os := p.outs
  let k := if flush then os.length else os.length / 16 * 16
  let now := os.take k
  let s := s.putBeats r key 0 (coordBeats (p.vtOf false) (now.map fun o => (outCoord o, outA o)))
  let s := s.putBeats r key 1 (coordBeats (p.vtOf true) (now.map fun o => (outCoord o, outB o)))
  let p := if now.isEmpty then p else p.begin_
  (s, { p with words := p.words.take 5 ++ os.drop k, n := p.n + k })

/-- Send the last beat of a fibre; a fibre without a coordinate sends one beat of unused pairs (R312). -/
def State.joinLast (s : State) (r key : Nat) (p : Prog) : State × Prog :=
  let (s, p) := s.joinSend r key p true
  if p.begun then (s, p)
  else
    ((s.putBeats r key 0 [coordBeat (p.vtOf false) []]).putBeats r key 1 [coordBeat (p.vtOf true) []], p)

/-- Merge two ascending lists until one is empty: the pairs to send, and what is left (R229). -/
def mergePairs (union : Bool) : Nat → List (Nat × Nat) → List (Nat × Nat) →
    List Word × List (Nat × Nat) × List (Nat × Nat)
  | 0, xs, ys => ([], xs, ys)
  | fuel + 1, x :: xs, y :: ys =>
    if x.1 = y.1 then
      let (o, r) := mergePairs union fuel xs ys
      (packOut x.1 x.2 y.2 :: o, r)
    else if x.1 < y.1 then
      let (o, r) := mergePairs union fuel xs (y :: ys)
      (if union then packOut x.1 x.2 0 :: o else o, r)
    else
      let (o, r) := mergePairs union fuel (x :: xs) ys
      (if union then packOut y.1 0 y.2 :: o else o, r)
  | _, xs, ys => ([], xs, ys)

/-- The first coordinate that does not ascend above a bound (one more than the last). -/
def descent : Nat → List (Nat × Nat) → Option Nat
  | _, [] => none
  | last, p :: ps => if p.1 < last then some p.1 else descent (p.1 + 1) ps

def Prog.sidePairs (p : Prog) (side : Bool) : List (Nat × Nat) :=
  if side then p.ints.map fun x => unpackPair x.toNat else p.nums.map unpackPair

def Prog.setPairs (p : Prog) (side : Bool) (ps : List (Nat × Nat)) : Prog :=
  if side then { p with ints := ps.map fun x => (packPair x : Int) }
  else { p with nums := ps.map packPair }

/-- Take a data beat of an input: its pairs wait to be merged (R48, R229). -/
def State.joinLoad (s : State) (r n : Nat) (c : Command) (side : Bool) (b : Beat) : State :=
  let p := c.prog
  let port := side.toNat
  match b.vt with
  | none => s.beatFault r n c port b (mkDescr fmtCoord 0 true)
  | some vt =>
    let ps := pairsOf b.data
    let at_ := if side then 3 else 2
    match descent (p.wd at_) ps with
    | some k => s.engineFault r n c 0x01 (word k)
    | none =>
      let (s, p) := if vt = p.vtOf side then (s, p) else s.joinSend r c.elem p true
      let last := match ps.getLast? with
        | some q => q.1 + 1
        | none => p.wd at_
      let st := joinState p.paired p.begun (if side then p.vtOf false else vt) (if side then vt else p.vtOf true)
      (s.takeBeat r c.elem port).setProg r n (((p.setPairs side ps).setWd at_ last).setWd 4 st)

/-- A fibre begins: its coordinates ascend from anew. -/
def Prog.openPair (p : Prog) (paired : Bool) : Prog :=
  ((p.setWd 2 0).setWd 3 0).setWd 4 (joinState paired false (p.vtOf false) (p.vtOf true))

/-- STOP on both outputs, after what is gathered (R230, R312). -/
def State.joinStop (s : State) (r n : Nat) (c : Command) (p : Prog) (level : Option Nat) : State :=
  let (s, p) := s.joinLast r c.elem p
  let bs := match level with
    | some l => [Beat.stop l]
    | none => []
  ((s.putBeats r c.elem 0 bs).putBeats r c.elem 1 bs).setProg r n { p.openPair false with j := 0 }

/-- Two fibres end, at levels LA and LB (R230). -/
def State.joinEnd (s : State) (r n : Nat) (c : Command) (la lb : Nat) : State :=
  let p := c.prog
  let takeStops (s : State) : State :=
    let s := if la < 7 then s.takeBeat r c.elem 0 else s
    if lb < 7 then s.takeBeat r c.elem 1 else s
  let level := if la = 7 || lb = 7 then none else some (max la lb)
  if la = lb then (takeStops s).joinStop r n c p level
  else
    let low := if la < lb then 0 else 1
    if p.wd 0 = 2 && p.orphan == .none then
      s.engineTrap r n c 0x0D (word (s.strandAt r c.elem low)) (.orphan n low)
    else
      let s := if p.wd 0 < 2 then s.countOrph r c.elem low 1 else s
      (takeStops s).joinStop r n c p level

/-- An orphan fibre on one side, the other being at end-of-stream (R230).  One that is dropped is not checked
for its format and coordinates (DEDUCED, log 85). -/
def State.joinOrphan (s : State) (r n : Nat) (c : Command) (side : Bool) (head : Beat) : State :=
  let p := c.prog
  let port := side.toNat
  match p.orphan with
  | .none =>
    if p.wd 0 = 2 then
      s.engineTrap r n c 0x0D (word (s.strandAt r c.elem port)) (.orphan n port)
    else if p.wd 0 = 1 then
      (s.countOrph r c.elem port 1).setProg r n { p.openPair false with j := 2 }
    else s.setProg r n { p.openPair false with j := 1 }
  | .drop =>
    if head.isData then
      let s := if p.wd 0 = 0 then s.countOrph r c.elem port 1 else s
      s.takeBeat r c.elem port
    else if head.isEos then s.setProg r n { p with j := 0 }
    else (s.takeBeat r c.elem port).setProg r n { p with j := 0 }
  | .pair =>
    if !(p.sidePairs side).isEmpty then
      let pad := p.wd 1 % 65536
      let os := (p.sidePairs side).map fun x =>
        if side then packOut x.1 pad x.2 else packOut x.1 x.2 pad
      let (s, p) := s.joinSend r c.elem { p.setPairs side [] with words := p.words ++ os } false
      s.setProg r n p
    else if head.isData then s.joinLoad r n c side head
    else if head.isEos then s.joinStop r n c p none
    else (s.takeBeat r c.elem port).joinStop r n c p (some head.level)

/-- One step of a pair of fibres (R229). -/
def State.joinPair (s : State) (r n : Nat) (c : Command) (union : Bool) : State :=
  let p := c.prog
  let xs := p.sidePairs false
  let ys := p.sidePairs true
  let send (os : List Word) (xs ys : List (Nat × Nat)) : State :=
    let (s, p) := s.joinSend r c.elem
      { (p.setPairs false xs).setPairs true ys with words := p.words ++ os } false
    s.setProg r n p
  if !xs.isEmpty && !ys.isEmpty then
    let (os, xs, ys) := mergePairs union 32 xs ys
    send os xs ys
  else match s.inBeat r c.elem 0, s.inBeat r c.elem 1 with
    | a, b =>
      match (if xs.isEmpty then a else none), (if ys.isEmpty then b else none) with
      | some a, some b =>
        if a.isData then s.joinLoad r n c false a
        else if b.isData then s.joinLoad r n c true b
        else s.joinEnd r n c a.level b.level
      | some a, none =>
        if a.isData then s.joinLoad r n c false a
        else if ys.isEmpty then s
        else send (if union then ys.map fun y => packOut y.1 0 y.2 else []) [] []
      | none, some b =>
        if b.isData then s.joinLoad r n c true b
        else if xs.isEmpty then s
        else send (if union then xs.map fun x => packOut x.1 x.2 0 else []) [] []
      | none, none => s

/-- One step of ISECT or UNION. -/
def State.joinCoords (s : State) (r n : Nat) (c : Command) (union : Bool) : State :=
  let p := c.prog
  if !s.outReady r c.elem 0 || !s.outReady r c.elem 1 then s
  else if p.words.isEmpty then
    s.setProg r n { p with words := joinWords ((s.run r).seam c.elem) }
  else if p.paired then s.joinPair r n c union
  else match s.inBeat r c.elem 0, s.inBeat r c.elem 1 with
    | some a, some b =>
      if a.isEos && b.isEos && p.orphan == .none then
        let s := (s.putBeats r c.elem 0 [Beat.eos]).putBeats r c.elem 1 [Beat.eos]
        ((s.takeBeat r c.elem 0).takeBeat r c.elem 1).finish r n (word p.n)
      else if b.isEos && (p.orphan == .none || (p.sidePairs true).isEmpty) && !a.isEos then
        s.joinOrphan r n c false a
      else if a.isEos && !b.isEos then s.joinOrphan r n c true b
      else if a.isEos && b.isEos then
        -- an orphan fibre closed by end-of-stream
        s.joinOrphan r n c (!(p.sidePairs true).isEmpty) (if (p.sidePairs true).isEmpty then a else b)
      else s.setProg r n (p.openPair true)
    | _, _ => s

def execIsect (c : Cmd) (s : State) : Result :=
  onEngine s c true fun s r n k => s.joinCoords r n k false

def execUnion (c : Cmd) (s : State) : Result :=
  onEngine s c true fun s r n k => s.joinCoords r n k true

end Sys2Proof.Machine
end

