-- ==== Sys2Proof/Machine/Store.lean ====
section
/-! DEFINITION. Binding a store and changing it: PSCAT, PSTORE, PSTAT, PCLEAR, PPRIOR and the events
CELL_UPDATE, CARVE_REQUEST, BRICK_CLAIM, BRICK_POP, BRICK_PUBLISH (R208, R209, R214, R215, R316 to
R325). -/

namespace Sys2Proof.Machine

/-! ## The descriptor, R208, R316 to R318 -/

/-- The address of the counter block of a store (R317). -/
def counterAddr (psaddr : Nat) : Nat := psaddr + 128

/-- An address that is no local one outside the tile window (R316). -/
def State.outOfStore (s : State) (r : Nat) (ea : Nat) : Bool :=
  !s.isOwnDevice (nbits ea 56 8) || (s.windowOffset (s.run r).ctx (ea % 2 ^ 55)).isSome

/-- The store that block 0 and the prior describe (R317). -/
def descOf (b0 b1 : Blk) : StoreDesc where
  ox := BitVec.ofNat 32 (b0.at_ 0 4)
  oy := BitVec.ofNat 32 (b0.at_ 4 4)
  oz := BitVec.ofNat 32 (b0.at_ 8 4)
  invvoxel := BitVec.ofNat 32 (b0.at_ 12 4)
  dimx := b0.at_ 16 2
  dimy := b0.at_ 18 2
  dimz := b0.at_ 20 2
  f := b0.at_ 22 1
  mode := b0.at_ 23 1 % 4
  carvew := b0.at_ 24 2
  t := b0.at_ 28 1
  tablebase := b0.at_ 32 8
  poolbase := b0.at_ 40 8
  stackbase := b0.at_ 48 8
  poolcount := b0.at_ 56 4
  prior := (chunks 2 32 b1.data).map fun x => BitVec.ofNat 16 (ofBytes x)

/-- A finite positive FP32 word. -/
def positive32 (x : BitVec 32) : Bool :=
  match val32 x with
  | .fin false m _ => m != 0
  | _ => false

/-- The formats of the descriptor's blocks (R316). -/
def descFmts : List Nat := [0x04, 0x0B, 0x04, 0x04]

/-- A descriptor keeps the rules of R208 and R318. -/
def descOk (bs : List Blk) (g : StoreDesc) : Bool :=
  let b0 := bs.headD default
  bs.map Blk.fmt == descFmts &&
    [4, 8, 16, 32].contains g.f && positive32 g.invvoxel && g.dimx != 0 && g.dimy != 0 &&
    g.dimz != 0 && b0.at_ 23 1 / 4 = 0 && b0.at_ 26 2 = 0 && b0.at_ 29 3 = 0 && b0.at_ 60 4 = 0 &&
    6 ≤ g.t && g.t ≤ 24 && 1 ≤ g.poolcount && g.poolcount ≤ 1048576 &&
    g.tablebase % 64 = 0 && g.poolbase % 64 = 0 && g.stackbase % 64 = 0 &&
    ((bs[3]?).getD default).data.all (· = 0)

/-- The block at fault in a descriptor that breaks the rules: the first of a wrong format, where block 0
breaks no rule of its own; the reserved words of block 3 come last (R169, R318). -/
def descBlock (bs : List Blk) (g : StoreDesc) : Nat :=
  let last : Blk := ⟨List.replicate 64 0, mkDescr 0x04 0 true⟩
  let fields : List Blk := [bs.headD default, Blk.zero 0x0B 0, Blk.zero 0x04 0, last]
  if !descOk fields g then 0
  else min 3 (((bs.map Blk.fmt).zip descFmts).findIdx fun p => p.1 != p.2)

/-- PSTORE reads the four blocks of the descriptor, checks it and binds the store (R208, R316,
R318). -/
def State.bindStore (s : State) (r n : Nat) (c : Command) : State :=
  let ea := c.msg.operand.toNat
  let bs := c.prog.blks
  if ea % 64 != 0 then s.engineFault r n c 0x02 (word ea)
  else if s.outOfStore r ea then s.engineFault r n c 0x04 (word ea)
  else if bs.length < 4 then
    (s.engineRead r n c (ea + 64 * bs.length) 0).andThen s fun b s =>
      s.setProg r n { c.prog with blks := bs ++ [b] }
  else
    let g := descOf (bs.headD default) ((bs[1]?).getD default)
    let again := s.setProg r n Prog.zero
    match [g.tablebase, g.poolbase, g.stackbase].find? fun a => s.outOfStore r a with
    | some a => again.engineFault r n c 0x04 (word a)
    | none =>
      if !descOk bs g then again.engineFault r n c 0x13 (word (ea + 64 * descBlock bs g))
      else
        let step := BitVec.ofNat 32 (fDiv fp32 .rne (.fin false 1 (-1)) (val32 g.invvoxel)).1
        (s.editRun r fun x =>
          { x with projs := x.projs.put c.elem ⟨word ea, step, some g⟩ }).finish r n (word g.f)

def execPstore (c : Cmd) (s : State) : Result :=
  onEngine s c false fun s r n k => s.bindStore r n k

/-! ## Counters, R209, R317, R318 -/

/-- The address of the bound descriptor. -/
def State.psaddr (s : State) (r : Nat) (c : Command) : Nat := ((s.run r).proj c.elem).psaddr.toNat

/-- Increment a counter at the descriptor's home. -/
def State.countStore (s : State) (r n : Nat) (c : Command) (k : Nat) : Got Unit :=
  let ea := counterAddr (s.psaddr r c)
  match s.storeRead r n c ea with
  | .wait => .wait
  | .stop s => .stop s
  | .got b s => s.storeWrite r n c ea (b.set (8 * k) 8 (b.at_ (8 * k) 8 + 1))

def execPstat (c : Cmd) (k : BitVec 3) (s : State) : Result :=
  onEngine s c true fun s r n m => s.bound r n m fun g =>
    (s.storeRead r n m (counterAddr (s.psaddr r m))).andThen s fun b s =>
      let top := b.at_ 0 8
      s.finish r n (word (match k.toNat with
        | 0 => g.poolcount - top
        | 1 => top
        | j => b.at_ (8 * j) 8))

/-- PPRIOR reads the block, then writes the prior of the descriptor and of the element's copy
(R209). -/
def State.writePrior (s : State) (r n : Nat) (c : Command) : State :=
  s.bound r n c fun g =>
    let ea := c.msg.operand.toNat
    match c.prog.blks with
    | [] => (s.engineRead r n c ea 0x0B).andThen s fun b s =>
      if b.fmt != 0x0B then s.engineFault r n c 0x13 (word ea)
      else s.setProg r n { c.prog with blks := [b] }
    | b :: _ =>
      let home := s.psaddr r c + 64
      (s.storeRead r n c home).andThen s fun old s' =>
        let data := b.data.take (2 * g.f) ++ old.data.drop (2 * g.f)
        (s'.storeWrite r n c home ⟨data, mkDescr 0x0B 0 false⟩).andThen s fun _ s' =>
          let prior := (chunks 2 32 data).map fun x => BitVec.ofNat 16 (ofBytes x)
          (s'.editRun r fun x =>
            { x with projs := x.projs.edit c.elem fun y =>
                { y with desc := some { g with prior := prior } } }).finish r n 0

def execPprior (c : Cmd) (s : State) : Result :=
  onEngine s c false fun s r n k => s.writePrior r n k

/-! ## PCLEAR, R209, R323 -/

/-- The address of a stack entry. -/
def stackAddr (g : StoreDesc) (k : Nat) : Nat := g.stackbase + 4 * k

/-- Push a brick at the descriptor's home (R323). -/
def State.pushBrick (s : State) (r n : Nat) (c : Command) (g : StoreDesc) (brick : Nat) : Got Unit :=
  let ea := counterAddr (s.psaddr r c)
  match s.storeRead r n c ea with
  | .wait => .wait
  | .stop s => .stop s
  | .got b s =>
    let top := b.at_ 0 8
    match s.storeRead r n c (stackAddr g top) with
    | .wait => .wait
    | .stop s => .stop s
    | .got st s => match s.storeWrite r n c (stackAddr g top) (st.set (stackAddr g top) 4 brick) with
      | .wait => .wait
      | .stop s => .stop s
      | .got _ s => s.storeWrite r n c ea (b.set 0 8 (top + 1))

/-- One unit of PCLEAR: `i` the entry, `nums` the brick taken from it and not yet pushed, `n` the
bricks freed (R323). -/
def State.clearStore (s : State) (r n : Nat) (c : Command) : State :=
  s.bound r n c fun g =>
    let p := c.prog
    match p.nums with
    | brick :: _ => (s.pushBrick r n c g brick).andThen s fun _ s =>
      s.setProg r n { p with nums := [], i := p.i + 1, n := p.n + 1 }
    | [] =>
      if p.i ≥ 2 ^ g.t then
        let ea := counterAddr (s.psaddr r c)
        (s.storeRead r n c ea).andThen s fun b s' =>
          let b := (((b.set 16 8 0).set 24 8 0).set 32 8 0).set 40 8 0
          (s'.storeWrite r n c ea b).andThen s fun _ s' => s'.finish r n (word p.n)
      else
        let ea := entryAddr g p.i
        (s.storeRead r n c ea).andThen s fun b s' =>
          let w := b.at_ ea 8
          if entryState w = 0 then s'.setProg r n { p with i := p.i + 1 }
          else if entryState w = 3 then
            (s'.storeWrite r n c ea (b.set ea 8 0)).andThen s fun _ s' =>
              s'.setProg r n { p with nums := [entryBrick w] }
          else s

def execPclear (c : Cmd) (s : State) : Result :=
  onEngine s c true fun s r n k => s.clearStore r n k

/-! ## PSCAT, R214, R321

A PSCAT's progress: `j` its stage, `n` the probe, `i` the sample of the march, `nums` the brick and
the blocks of it already zeroed, or the brick of the cell to carve, `ints` the cells visited, the
target first, `blks` the beat it has taken. -/

def stBeat : Nat := 0
def stProject : Nat := 1
def stProbe : Nat := 2
def stClaim : Nat := 3
def stPop : Nat := 4
def stZero : Nat := 5
def stPublish : Nat := 6
def stUpdate : Nat := 7
def stExhausted : Nat := 8
def stMarch : Nat := 9
def stDrop : Nat := 10
def stCarve : Nat := 11

/-- An earlier PSCAT of the element has not taken its beat (R214). -/
def Run.beatDue (x : Run) (n : Nat) (c : Command) : Bool :=
  x.cmds.any fun e => e.2.elem = c.elem && e.1 < n && e.2.prog.j = stBeat &&
    (e.2.state == .queued || e.2.state == .running || e.2.state == .stopped) &&
    match decode e.2.msg.word with
    | .ok (.pscat ..) => true
    | _ => false

/-- One channel quantised to Q8.8, with its flags (R214). -/
def quantise (x : Nat) : Int × Nat :=
  match decodeF bf16 x with
  | .nan _ => (0, NV)
  | .inf neg => (if neg then -32768 else 32767, SAT)
  | .fin neg m e =>
    let (k, lost) := roundInt .rne neg m (e + 8)
    (clampInt k (-32768) 32767,
      flagIf lost NX ||| flagIf (k < -32768 || k > 32767) SAT)

/-- The quantised channels of a beat (R214). -/
def quantiseAll (f : Nat) (b : Blk) : List (Int × Nat) := ((blockElems 0x0B b.data).take f).map quantise

/-- PSCAT takes its beat (R214). -/
def State.scatterBeat (s : State) (r n : Nat) (c : Command) (f : Nat) : State :=
  if (s.run r).beatDue n c then s
  else match s.inBeat r c.elem 0 with
    | none => s
    | some b =>
      if b.isEos then s.engineIllegal r n c
      else if !b.isData then s.takeBeat r c.elem 0
      else if b.fmt != 0x0B then s.beatFault r n c 0 b (mkDescr 0x0B 0 true)
      else
        let k : Blk := ⟨b.data, b.descr⟩
        ((s.takeBeat r c.elem 0).cmdFlags r n (orAll ((quantiseAll f k).map Prod.snd))).setProg r n
          { c.prog with j := stProject, blks := [k] }

/-- The target cell of a scatter. -/
def Command.target (c : Command) (g : StoreDesc) : Option CellAt :=
  let l := c.msg.operand
  project c.prog.camera g (pixelU l) (pixelV l) (val32 (operandDepth l))

/-- Count a dropped scatter and complete with its status (R214). -/
def State.dropScatter (s : State) (r n : Nat) (c : Command) (k status : Nat) : State :=
  (s.countStore r n c k).andThen s fun _ s => s.finish r n (word status)

/-- One probe of a scatter: an entry reserved for its brick is waited for (R320, R321). -/
def State.scatterProbe (s : State) (r n : Nat) (c : Command) (g : StoreDesc) (x : CellAt) : State :=
  let p := c.prog
  if p.n ≥ 2 ^ g.t then s.setProg r n { p with j := stExhausted }
  else (s.readEntry r n c (entryAddr g (probeIx g.t (brickOf x) p.n))).andThen s fun w s' =>
    match probeEntry (brickOf x) w with
    | .next => s'.setProg r n { p with n := p.n + 1 }
    | .absent => s'.setProg r n { p with j := stClaim }
    | .found brick => s'.setProg r n { p with j := stUpdate, nums := [brick] }
    | .reserved => s

/-- Blocks of a brick. -/
def brickBlocks (f : Nat) : Nat := recordBytes f

/-- Zero the next block of a new brick (R321). -/
def State.zeroBrick (s : State) (r n : Nat) (c : Command) (g : StoreDesc) : State :=
  let p := c.prog
  let brick := (p.nums[0]?).getD 0
  let k := (p.nums[1]?).getD 0
  if k ≥ brickBlocks g.f then s.setProg r n { p with j := stPublish }
  else
    let ea := g.poolbase + brick * 64 * recordBytes g.f + 64 * k
    (s.storeWrite r n c ea ⟨List.replicate 64 0, mkDescr 0x11 0 true⟩).andThen s fun _ s =>
      s.setProg r n { p with nums := [brick, k + 1] }

/-- The pool is exhausted: drop and count, or trap BRICKPOOL; the retry begins at the lookup
(R214, R321). -/
def State.exhausted (s : State) (r n : Nat) (c : Command) (ptrap : Bool) : State :=
  if ptrap then
    (s.setProg r n { c.prog with j := stProbe, n := 0 }).engineFault r n c 0x11
      (word (s.psaddr r c))
  else s.dropScatter r n c 3 2

/-- The visited cells of a march as coordinates. -/
def visited (xs : List Int) (x : CellAt) : Bool := (chunks 3 xs.length xs).contains (cellInts x)

/-- One unit of the carving march (R214): a sample or a probe for its cell. -/
def State.march (s : State) (r n : Nat) (c : Command) (g : StoreDesc) : State :=
  let l := c.msg.operand
  let p := c.prog
  let d := sampleDepth p.camera ((s.run r).proj c.elem).dstep p.i
  if p.i ≥ marchSamples || ltF (camVal p.camera 7) (val32 d) || !ltF (val32 d) (val32 (operandDepth l))
  then s.finish r n 0
  else match project p.camera g (pixelU l) (pixelV l) (val32 d) with
    | none => s.setProg r n { p with i := p.i + 1 }
    | some x =>
      if visited p.ints x then s.setProg r n { p with i := p.i + 1 }
      else
        let on (s : State) : State :=
          s.setProg r n { p with i := p.i + 1, n := 0, ints := p.ints ++ cellInts x }
        if p.n ≥ 2 ^ g.t then on s
        else (s.readEntry r n c (entryAddr g (probeIx g.t (brickOf x) p.n))).andThen s fun w s =>
          match probeEntry (brickOf x) w with
          | .next => s.setProg r n { p with n := p.n + 1 }
          | .absent | .reserved => on s
          | .found brick => s.setProg r n
              { p with j := stCarve, nums := [brick], ints := p.ints ++ cellInts x }

/-- One unit of PSCAT; the claims, pops, publications, updates and carves are events of the homes. -/
def State.scatter (s : State) (r n : Nat) (c : Command) (ptrap : Bool) : State :=
  s.bound r n c fun g =>
    let p := c.prog
    if p.j = stBeat then s.scatterBeat r n c g.f
    else match c.target g with
      | none => s.dropScatter r n c 2 1
      | some x =>
        if p.j = stProject then s.setProg r n { p with j := stProbe }
        else if p.j = stProbe then s.scatterProbe r n c g x
        else if p.j = stZero then s.zeroBrick r n c g
        else if p.j = stExhausted then s.exhausted r n c ptrap
        else if p.j = stMarch then s.march r n c g
        else if p.j = stDrop then s.dropScatter r n c 3 2
        else s

def execPscat (c : Cmd) (_cam : BitVec 3) (_carve ptrap : Bool) (s : State) : Result :=
  onEngine s c false fun s r n k => s.scatter r n k ptrap

/-! ## The homes of a store -/

/-- The run that holds an engine command. -/
def State.cmdRun (s : State) (n : Nat) : Option (Nat × Command) :=
  match s.runs.find? fun x => (x.2.cmds.find n).isSome with
  | some x => (x.2.cmds.find n).map fun c => (x.1, c)
  | none => none

/-- A request of a scatter reaches a home: its run, command, bound store and target cell. -/
def State.atHome (s : State) (n stage : Nat) (k : State → Nat → Command → StoreDesc → CellAt → State) :
    Result :=
  .next (match s.cmdRun n with
    | none => s
    | some (r, c) =>
      if !(s.run r).works s.cycle n c || c.prog.j != stage then s
      else match decode c.msg.word, ((s.run r).proj c.elem).desc with
        | .ok (.pscat ..), some g => match c.target g with
          | some x => k s r c g x
          | none => s
        | _, _ => s)

/-- BRICK_CLAIM at the entry's home (R321, step 1). -/
def execBrickClaim (n : Nat) (s : State) : Result :=
  s.atHome n stClaim fun s r c g x =>
    let p := c.prog
    let ea := entryAddr g (probeIx g.t (brickOf x) p.n)
    (s.storeRead r n c ea).andThen s fun b s' =>
      let w := b.at_ ea 8
      if entryState w = 0 then
        (s'.storeWrite r n c ea (b.set ea 8 (mkEntry 1 (brickKey (brickOf x)) 0))).andThen s
          fun _ s' => s'.setProg r n { p with j := stPop }
      else if entryKey w = brickKey (brickOf x) then s'.setProg r n { p with j := stProbe }
      else s'.setProg r n { p with j := stProbe, n := p.n + 1 }

/-- BRICK_POP at the descriptor's home; after a pop that fails the entry returns to empty (R321,
step 2). -/
def execBrickPop (n : Nat) (s : State) : Result :=
  s.atHome n stPop fun s r c g x =>
    let p := c.prog
    let ea := counterAddr (s.psaddr r c)
    (s.storeRead r n c ea).andThen s fun b s' =>
      let top := b.at_ 0 8
      if top = 0 then
        let e := entryAddr g (probeIx g.t (brickOf x) p.n)
        (s'.storeRead r n c e).andThen s fun eb s' =>
          (s'.storeWrite r n c e (eb.set e 8 0)).andThen s fun _ s' =>
            s'.setProg r n { p with j := stExhausted }
      else
        let sa := stackAddr g (top - 1)
        (s'.storeRead r n c sa).andThen s fun st s' =>
          (s'.storeWrite r n c ea (b.set 0 8 (top - 1))).andThen s fun _ s' =>
            s'.setProg r n { p with j := stZero, nums := [st.at_ sa 4, 0] }

/-- BRICK_PUBLISH at the entry's home (R321, step 4). -/
def execBrickPublish (n : Nat) (s : State) : Result :=
  s.atHome n stPublish fun s r c g x =>
    let p := c.prog
    let brick := (p.nums[0]?).getD 0
    let ea := entryAddr g (probeIx g.t (brickOf x) p.n)
    (s.storeRead r n c ea).andThen s fun b s' =>
      (s'.storeWrite r n c ea (b.set ea 8 (mkEntry 3 (brickKey (brickOf x)) brick))).andThen s
        fun _ s' => s'.setProg r n { p with j := stUpdate, nums := [brick] }

/-! ## Updates and carves, R324, R325 -/

/-- A record's fields (R49). -/
structure Rec where
  sw : Nat
  count : Nat
  serial : Nat
  camera : Nat
  seen : Bool
  carved : Bool
  depth : BitVec 32
  sums : List Int
  view : List Nat
  deriving DecidableEq, Repr, Inhabited

/-- The record of its blocks. -/
def recOf (f : Nat) (bs : List Blk) : Rec :=
  let h := bs.headD default
  let sums := ((bs.drop 1).take (sumBlocks f)).flatMap fun b => b.data
  { sw := h.at_ 0 4
    count := h.at_ 4 2
    serial := h.at_ 6 2
    camera := h.at_ 8 1
    seen := nbit (h.at_ 9 1) 0
    carved := nbit (h.at_ 9 1) 1
    depth := BitVec.ofNat 32 (h.at_ 12 4)
    sums := ((chunks 4 f sums).take f).map fun x => sextInt 32 (ofBytes x)
    view := ((chunks 2 f (viewBytes f bs)).take f).map ofBytes }

/-- The header of a record: the bytes that R49 reserves keep what they hold. -/
def Rec.header (x : Rec) (old : Blk) : Blk :=
  let h := ((((old.set 0 4 x.sw).set 4 2 x.count).set 6 2 x.serial).set 8 1 x.camera).set 9 1
    ((if x.seen then 1 else 0) + (if x.carved then 2 else 0))
  h.set 12 4 x.depth.toNat

/-- The blocks of a record (R49). -/
def Rec.blocks (x : Rec) (f : Nat) (old : List Blk) : List Blk :=
  let sums := fillTo (64 * sumBlocks f) 0 (x.sums.flatMap fun v => toBytes 4 (lowBits 32 v))
  let view := fillTo (64 * viewBlocks f) 0 (x.view.flatMap fun v => toBytes 2 v)
  x.header (old.headD default) ::
    ((chunks 64 8 sums ++ chunks 64 8 view).map fun d => Blk.mk d (mkDescr 0x11 0 false))

/-- What a cell update carries (R214, R324). -/
structure Update where
  w : Nat
  fq : List Int
  serial : Nat
  camera : Nat
  depth : BitVec 32
  deriving DecidableEq, Repr, Inhabited

/-- One field of a key comparison: the new key is ahead, behind or equal. -/
def ahead16 (v m : Nat) : Ordering :=
  if v = m then .eq else if serLane 16 m v = v then .gt else .lt

/-- The smaller depth is ahead. -/
def nearer (d held : BitVec 32) : Ordering := (cmpF (val32 d) (val32 held)).swap

/-- The first field that differs decides. -/
def beats : List Ordering → Bool
  | [] => false
  | .eq :: os => beats os
  | o :: _ => o == .gt

/-- The new key beats the held key in a mode (R324). -/
def Update.beats (u : Update) (x : Rec) (mode : Nat) : Bool :=
  let ser := ahead16 u.serial x.serial
  let sw := compare u.w x.sw
  let sums := (u.fq.zip x.sums).map fun p => compare (u.w * p.1 : Int) p.2
  let near := nearer u.depth x.depth
  match mode with
  | 0 => Machine.beats [ser, near]
  | 1 => Machine.beats ([ser, sw] ++ sums ++ [near])
  | 2 => Machine.beats ([sw, ser] ++ sums ++ [near])
  | _ => false

/-- The view of a record, one rounding each (R324). -/
def viewOf (x : Rec) : List (Nat × Nat) :=
  x.sums.map fun v => fDiv bf16 .rne (intVal v) (intVal (256 * x.sw))

/-- The record after a cell update, and its flags (R324); one that loses rounds no view and raises no flag
(DEDUCED, log 86). -/
def Rec.update (x : Rec) (mode : Nat) (u : Update) : Rec × Nat :=
  let y := { x with count := min (x.count + 1) 65535, seen := true }
  let mark (z : Rec) : Rec := { z with serial := u.serial, camera := u.camera, depth := u.depth }
  let wins := !x.seen || u.beats x mode
  let seeView (z : Rec) (fl : Nat) : Rec × Nat :=
    if z.sw > 0 then
      let vs := viewOf z
      ({ z with view := vs.map Prod.fst }, fl ||| orAll (vs.map Prod.snd))
    else (z, fl)
  if mode = 0 then
    let exact : List Int := (u.fq.zip x.sums).map fun p => p.2 + u.w * p.1
    let kept : List Int := exact.map fun v => clampInt v (-(2 : Int) ^ 31) ((2 : Int) ^ 31 - 1)
    let z := { y with sw := min (x.sw + u.w) (2 ^ 32 - 1), sums := kept }
    seeView (if wins then mark z else z)
      (flagIf (x.sw + u.w > 2 ^ 32 - 1 || exact != kept) SAT)
  else if wins then seeView (mark { y with sw := u.w, sums := u.fq.map fun q => u.w * q }) 0
  else (y, 0)

/-- The record after a carve request (R325). -/
def Rec.carve (x : Rec) (c : Nat) : Rec :=
  let sw := x.sw - min x.sw c
  { x with sw := sw, carved := true, sums := if sw = 0 then x.sums.map fun _ => 0 else x.sums }

/-- Write the blocks that changed (R324); `all` writes the header whatever it holds. -/
def State.writeRecord (s : State) (r n : Nat) (c : Command) (ea : Nat) (all : Bool) :
    List Blk → List Blk → Got Unit
  | b :: bs, o :: os =>
    let write (s : State) : Got Unit :=
      match s.engineWrite r n c ea b with
      | .got _ s => s.writeRecord r n c (ea + 64) false bs os
      | .wait => .wait
      | .stop s => .stop s
    if all || b.data != o.data then write s else s.writeRecord r n c (ea + 64) false bs os
  | _, _ => .got () s

/-- The changed blocks of a record may all be written: each is tried alone. -/
def State.mayWrite (s : State) (r n : Nat) (c : Command) (ea : Nat) (all : Bool) :
    List Blk → List Blk → Got Unit
  | b :: bs, o :: os =>
    if all || b.data != o.data then
      match s.engineWrite r n c ea b with
      | .got _ _ => s.mayWrite r n c (ea + 64) false bs os
      | .wait => .wait
      | .stop t => .stop t
    else s.mayWrite r n c (ea + 64) false bs os
  | _, _ => .got () s

/-- Change a record and increment a counter as one update: where a block or the counter is at fault, nothing
is written, so that TRET applies the update once (R169, R324, R325). -/
def State.changeRecord (s : State) (r n : Nat) (c : Command) (ea : Nat) (all : Bool) (new old : List Blk)
    (k : Nat) : Got Unit :=
  match s.mayWrite r n c ea all new old, s.countStore r n c k with
  | .got _ _, .got _ _ => match s.writeRecord r n c ea all new old with
    | .got _ s => s.countStore r n c k
    | .wait => .wait
    | .stop t => .stop t
  | .got _ _, g => g
  | g, _ => g

/-- The entry that a scatter or a march has found still holds its brick (R209). -/
def State.stillThere (s : State) (r n : Nat) (c : Command) (g : StoreDesc) (x : CellAt) (brick : Nat) :
    Got Bool :=
  match s.readEntry r n c (entryAddr g (probeIx g.t (brickOf x) c.prog.n)) with
  | .wait => .wait
  | .stop t => .stop t
  | .got w s => .got (entryState w = 3 && entryKey w = brickKey (brickOf x) && entryBrick w = brick) s

/-- The update that a scatter sends (R214). -/
def Command.update (c : Command) (f : Nat) : Update :=
  let b := c.prog.blks.headD default
  let id := (camWord c.prog.camera camId).toNat
  ⟨b.scale, (quantiseAll f b).map Prod.fst, id % 65536, id % 256, operandDepth c.msg.operand⟩

/-- A scatter carves. -/
def Command.carves (c : Command) : Bool :=
  match decode c.msg.word with
  | .ok (.pscat _ _ carve _) => carve
  | _ => false

/-- CELL_UPDATE at the cell's home (R324); counter 4 is incremented before the answer (R318).  Where the brick
has been freed meanwhile, the scatter looks it up and allocates it again (R209). -/
def execCellUpdate (n : Nat) (s : State) : Result :=
  s.atHome n stUpdate fun s r c g x =>
    let p := c.prog
    let brick := (p.nums[0]?).getD 0
    (s.stillThere r n c g x brick).andThen s fun there s' =>
      if !there then s'.setProg r n { p with j := stProbe, n := 0, nums := [] }
      else (s'.readRecord r n c g brick x).andThen s fun bs s' =>
        let (y, fl) := (recOf g.f bs).update g.mode (c.update g.f)
        (s'.changeRecord r n c (recordAddr g brick x) true (y.blocks g.f bs) bs 4).andThen s fun _ s' =>
          let s' := s'.cmdFlags r n fl
          if c.carves then s'.setProg r n { p with j := stMarch, i := 0, n := 0, ints := cellInts x }
          else s'.finish r n 0

/-- The cell a march has found last. -/
def Prog.lastCell (p : Prog) : CellAt :=
  match p.ints.reverse with
  | z :: y :: x :: _ => (x.toNat, y.toNat, z.toNat)
  | _ => (0, 0, 0)

/-- CARVE_REQUEST at the cell's home (R325); counter 5 is incremented before the answer (R318).  A brick that
has been freed meanwhile is not carved (R209, R214). -/
def execCarveRequest (n : Nat) (s : State) : Result :=
  s.atHome n stCarve fun s r c g _ =>
    let p := c.prog
    let brick := (p.nums[0]?).getD 0
    let x := p.lastCell
    let on (s : State) : State := s.setProg r n { p with j := stMarch, i := p.i + 1, n := 0 }
    (s.stillThere r n c g x brick).andThen s fun there s' =>
      if !there then on s'
      else (s'.readRecord r n c g brick x).andThen s fun bs s' =>
        let y := (recOf g.f bs).carve g.carvew
        (s'.changeRecord r n c (recordAddr g brick x) false (y.blocks g.f bs) bs 5).andThen s
          fun _ s' => on s'

end Sys2Proof.Machine
end

