-- ==== Sys2Proof/Machine/Commands.lean ====
section
/-! DEFINITION. The life of an engine command: ENGINE_COMMAND_START, ENGINE_COMPLETION and
OWNER_FLIP_ENGINE (R159, R166 to R169, R178, R186, R205, R206, R216, R228, R303, R304, R346). -/

namespace Sys2Proof.Machine

/-! ## What a command waits for, R166, R178, R186, R195, R206, R216, R228 -/

/-- The instruction of a command. -/
def Command.instr (c : Command) : Option Instr :=
  match decode c.msg.word with
  | .ok i => some i
  | .error _ => none

/-- A frame command on an accumulator tile: whether it multiplies, whether it is MZERO, the tile. -/
def frameTile : Instr → Option (Bool × Bool × Bool)
  | .mma _ t | .mmas _ t | .mmax3 _ t => some (true, false, t)
  | .mzero _ t | .mzeroAuto _ t => some (false, true, t)
  | .mldc _ t | .mout _ t _ _ _ => some (false, false, t)
  | _ => none

/-- A frame may run the second command while the first runs (R173, R178). -/
def frameOverlap (first second : Instr) : Bool :=
  match frameTile first, frameTile second with
  | some (m1, _, t1), some (m2, z2, t2) => t1 != t2 && (m1 != m2 || (z2 && !m1))
  | _, _ => false

/-- A running product has used the B buffer for its last row (R175, R178). -/
def Command.doneWithB (c : Command) (i : Instr) : Bool :=
  match frameTile i, c.state with
  | some (true, _, _), .finished _ => true
  | some (true, _, _), .running => decide (bits c.msg.operand 0 6 ≤ c.prog.i)
  | _, _ => false

/-- A frame may load B beside products that have finished reading it (R178). -/
def isMldb : Instr → Bool
  | .mldb .. => true
  | _ => false

/-- The generator and the ports of a tile command (R186). -/
def tileGen : Instr → Option Nat
  | .tshape _ f | .tread _ f | .twrite _ f | .tcomp _ f | .texp _ f _ | .trot _ f | .twin _ f
  | .tzmap _ f | .tsacc _ f _ | .trep _ f | .trmw _ f _ | .tfill _ f => some f.g.toNat
  | _ => none

/-- Two commands use one port. -/
def sharePort (a b : Instr) : Bool :=
  let p := enginePorts a
  let q := enginePorts b
  (p.1.any fun x => q.1.contains x) || (p.2.any fun x => q.2.contains x)

/-- Camera commands are applied in order of arrival (R205). -/
def cameraWord : Instr → Bool
  | .camld .. | .camset .. | .camsetRead .. | .camcomp .. => true
  | _ => false

/-- PSTORE and PPRIOR change the binding: no other command of the element runs beside them (log
22). -/
def bindsStore : Instr → Bool
  | .pstore .. | .pprior .. => true
  | _ => false

/-- SEAMPOL, which no port orders. -/
def isSeampol : Instr → Bool
  | .seampol .. => true
  | _ => false

def isTrot : Instr → Bool
  | .trot .. => true
  | _ => false

/-- Two SEAMINs read one token input: the later is the next that names it (R332). -/
def shareInput : Instr → Instr → Bool
  | .seamin _ a _ _, .seamin _ b _ _ => a == b
  | _, _ => false

/-- A queued seam command waits for an earlier one on its ports, or for an earlier SEAMPOL (R228). -/
def Run.seamHeld (x : Run) (n : Nat) (c : Command) (i : Instr) : Bool :=
  x.cmds.any fun e =>
    e.1 < n && e.2.elem = c.elem && match e.2.instr with
      | some j => sharePort j i || shareInput j i || isSeampol j
      | none => false

/-- SEAMPOL holds later commands of its seam back until it has been applied; itself it follows the start of
each earlier command that waits for none on its ports (R166, R228). -/
def Run.policyOrder (x : Run) (n : Nat) (earlier : Command) (i j : Instr) : Bool :=
  isSeampol i || (isSeampol j && earlier.state == .queued && !x.seamHeld n earlier i)

/-- An earlier command of the same engine holds a command's start back. -/
def startsAfter (kind : SiteKind) (earlier : Command) (i j : Instr) : Bool :=
  match kind with
  | .frame =>
    earlier.state == .queued || !(frameOverlap i j || (isMldb j && earlier.doneWithB i))
  | .tile => (tileGen i).isSome && (tileGen i == tileGen j || sharePort i j)
  | .seam => sharePort i j || shareInput i j
  | .lighter => !(isCopy i && !earlier.prog.words.isEmpty)
  | .projection => earlier.state == .queued || bindsStore i || bindsStore j
  | _ => true

/-- The command has not been handed to its engine yet (R159). -/
def Command.isWithheld (c : Command) : Bool :=
  match c.state with
  | .withheld _ => true
  | _ => false

/-- What the command waits for has been done; a second TROT waits for the first at any tile of the ring
(R193). -/
def Run.mayStart (x : Run) (n : Nat) (c : Command) (j : Instr) : Bool :=
  let kind := siteKind (siteOf c.elem)
  x.cmds.all fun e =>
    e.1 ≥ n || e.2.isWithheld || match e.2.instr with
    | some i =>
      !(e.2.elem = c.elem && (startsAfter kind e.2 i j || x.policyOrder e.1 e.2 i j)) &&
        !(isTrot i && isTrot j && e.2.elem / 64 = c.elem / 64)
    | none => true

/-- No camera command of the context that came earlier, in any of its launches that is not frozen, is still to be
applied: the master copies are the context's (R205). -/
def State.cameraFree (s : State) (r n : Nat) (j : Instr) : Bool :=
  !cameraWord j || s.runs.all fun x =>
    x.2.ctx != (s.run r).ctx || x.2.state == .frozen || x.2.cmds.all fun e =>
      e.1 ≥ n || e.2.isWithheld || match e.2.instr with
        | some i => !cameraWord i
        | none => true

/-- The tiles that must be engine-owned before a command starts (R168). -/
def neededTiles (key : Nat) : Instr → List Nat
  | .trot .. => ringKeys key
  | i => if usesOwnTile i then [key] else []

/-! ## The start, R166, R205, R218, R228 -/

/-- What a command takes as a snapshot at its start: its camera, SEED, or the policy of its seam. -/
def State.snapshot (s : State) (r : Nat) (c : Command) : Instr → List Word
  | .pgather _ cam _ | .pray _ cam _ | .pscat _ cam _ _ =>
    ((s.ctx (s.run r).ctx).cam cam.toNat).map fun w => word w.toNat
  | .draw .. | .sample .. | .accept .. | .resid .. => [(s.ctx (s.run r).ctx).regs.seed]
  | .isect .. | .union .. => joinWords ((s.run r).seam c.elem)
  | _ => []

/-- The strands that a command produces on begin its count of beats (R199). -/
def Run.startOutputs (x : Run) (c : Command) (i : Instr) : Run :=
  { x with strands := x.strands.map fun e =>
      if e.2.elem = c.elem && (enginePorts i).2.contains e.2.port then (e.1, { e.2 with sent := 0 })
      else e }

/-- The command starts, and counts at its tiles; one that names a tile outside the mask starts to trap
(R168, R359). -/
def State.startCommand (s : State) (r n : Nat) (c : Command) (i : Instr) : State :=
  let s := ((neededTiles c.elem i).filter (s.run r).tileEngine).foldl (fun (s : State) k => s.useTile r n k) s
  let ws := s.snapshot r c i
  (s.editRun r fun x => x.startOutputs c i).editCmd r n fun c =>
    { c with state := .running, prog := { Prog.zero with words := ws } }

/-- In a second copy, the seam receives a comparator strand: its commands complete at once and forward
nothing (R399). -/
def Run.silentSeam (x : Run) (key : Nat) : Bool :=
  x.copyB && x.strands.any fun st => st.2.cmp && st.2.branches.any fun b => b.elem = key

/-- A run holds engines that may work: it is loaded and neither frozen nor complete. -/
def Run.engaged (x : Run) : Bool := x.state == .running

def execEngineCommandStart (r n : Nat) (s : State) : Result :=
  .next (match (s.run r).cmds.find n with
    | none => s
    | some c =>
      let x := s.run r
      if c.state != .queued || !x.engaged || s.haltedSite r c.elem || x.heldBack n c then s
      else if x.silentSeam c.elem then s.finish r n 0
      else match c.instr with
        | none => s
        | some i =>
          if !x.mayStart n c i || !s.cameraFree r n i then s
          else if ((neededTiles c.elem i).all x.tileEngine ||
              (neededTiles c.elem i).any fun k => !s.tileMasked r k) then s.startCommand r n c i
          else if (x.part (partOf c.elem)).cancelled then s.finish r n 0
          else s)

/-! ## The completion, R53, R158, R167, R168, R195, R303 -/

/-- The beats a command has formed have left its output ports. -/
def Run.outputsGone (x : Run) (c : Command) : Bool :=
  (x.part (partOf c.elem)).cancelled ||
    x.strands.all fun e =>
      e.2.elem != c.elem || !(c.msg.ports.2.contains e.2.port) || e.2.ready.isEmpty

/-- What the decrement of a command's task word comes to. -/
inductive Decrement
  | done (s : State)
  | wait
  | sent (s : State)
  | stop (s : State)

/-- A decrement that faults: the completion, whose payload is kept, is withheld (R167). -/
def State.decrementFault (s : State) (r n : Nat) (c : Command) (payload : Word) (cause : Nat) : State :=
  (s.editCmd r n fun c => { c with flags := 0, prog := { c.prog with words := [payload] } }).engineTrap
    r n c cause (word c.task) (.decrement n)

/-- Decrement the command's task word, as SIGNAL does by 1: an update outside the scratch memory, which
taints the colour as every write of the command does (R158, R167, R396). -/
def State.decrement (s : State) (r n : Nat) (c : Command) (payload : Word) : Decrement :=
  if c.task = 0 || ((s.run r).part (partOf c.elem)).cancelled then .done s
  else if c.task % 8 != 0 then .stop (s.decrementFault r n c payload 0x02)
  else match s.engineHome r c.elem c.task needBoth with
    | .home a =>
      let s := s.engineFill r c.elem c.task
      if s.outsideCopy r a needBoth then .stop (s.decrementFault r n c payload 0x04)
      else match s.tileFor r n a with
      | none => .wait
      | some s =>
        if s.poisoned a then .stop (s.decrementFault r n c payload 0x0C)
        else if s.blockBusy a then .wait
        else
          let (x, t) := signalWord (s.num a 8) 1
          let s := if (s.run r).inScratch c.task then s else s.taint r c.msg.colour
          .done ((((s.serveHome a networkRank).writeNum a 8 x).startTask a t).wake a)
    | .far =>
      let cx := (s.run r).ctx
      let pk := s.packetTo cx (nbits c.task 56 8) (.request opSignal 8 c.task 1 0 [] cx true)
      if s.outsideCopy r (farHome c.task) needBoth then .stop (s.decrementFault r n c payload 0x04)
      else if !(s.ctx cx).far.mayForm then .wait
      else .sent (((s.taint r c.msg.colour).addFar cx ⟨pk, true, n, none⟩).editCmd r n fun c => { c with task := 0, flags := 0 })
    | .miss => .wait
    | .fault cause => .stop (s.decrementFault r n c payload cause)
    | .logged cause level =>
      if s.logBusy (s.run r).ctx then .wait
      else .stop ((s.logFault (c.msg.firing r) c.task cause level).decrementFault r n c payload cause)

/-- The command leaves the use counts of its tiles; a count that reaches 0 returns the tile to lace
(R168). -/
def Run.dropUses (x : Run) (now : Nat) (keys : List Nat) : Run :=
  { x with tiles := keys.foldl (fun t k => t.edit k fun (y : TileSt) =>
      { y with
        uses := y.uses - 1
        engine := y.engine && y.uses != 1
        freed := if y.engine && y.uses = 1 then some now else y.freed }) x.tiles }

/-- The confidence token of a gather: its kind is that of the gather's result (R211, R212). -/
def gatherTok (how : Nat) (v : Word) : Tok :=
  ⟨v, if how = gatherHit then .data else .unseen, 0, false, how = gatherOutside, 0⟩

/-- The completion token of a command; a copy sent its promise word instead (R167, R195, R211). -/
def State.sendCompletion (s : State) (r n : Nat) (c : Command) (payload : Word) : State :=
  match c.instr with
  | some (.pgather ..) | some (.pray ..) => s.emitEngine r c c.out.ta (gatherTok c.prog.n payload)
  | some i => if isCopy i then s.dropCopy r n c.elem else s.completeTo r c (Tok.data payload)
  | none => s

/-- The last steps of a completion: the flip back, the token, and the command is gone. -/
def State.complete (s : State) (r n : Nat) (payload : Word) : State :=
  match (s.run r).cmds.find n with
  | none => s
  | some c =>
    let s := s.editRun r fun x => x.dropUses s.cycle c.counted
    let s := if ((s.run r).part (partOf c.elem)).cancelled then
        match c.instr with
        | some i => if isCopy i then s.dropCopy r n c.elem else s
        | none => s
      else s.sendCompletion r n c payload
    s.editRun r fun x => { x with cmds := x.cmds.del n }

/-- The payload of a completion: the value of a TSKIP where the command went on after one (R169); MZERO
AUTO took it as Eacc. -/
def Command.payload (c : Command) (v : Word) : Word :=
  match c.instr with
  | some (.mzeroAuto ..) => v
  | _ => c.prog.skip.getD v

def execEngineCompletion (r n : Nat) (s : State) : Result :=
  .next (match (s.run r).cmds.find n with
    | none => s
    | some c =>
      match c.state with
      | .finished v =>
        let payload := c.payload v
        let x := s.run r
        if !x.engaged || s.farOutstanding r n || !x.outputsGone c then s
        else
          let t := s.orFlags x.ctx c.flags
          match t.decrement r n c payload with
          | .done t => t.complete r n payload
          | .wait => s
          | .sent t => t
          | .stop t => t
      | _ => s)

/-! ## OWN, R159 -/

/-- The buffered writes of an activation are visible in the cluster of its element: those with a home there are
performed, the others are on their way to it (R159, R285, R304). -/
def State.visibleClu (s : State) (r uid : Nat) (m : CmdMsg) : Bool :=
  s.reqs.all fun q =>
    !(q.2.cls = .buffered && q.2.firing.run = r && q.2.firing.elem = m.issuer && q.2.firing.act = uid) ||
      (!s.homeInside (m.firing r) .clu q.2.home && s.onItsWay q.1 q.2)

def execOwnerFlipEngine (r n : Nat) (s : State) : Result :=
  .next (match (s.run r).cmds.find n with
    | none => s
    | some c =>
      match c.state with
      | .withheld uid =>
        if !(s.run r).engaged || s.haltedSite r c.elem || !s.visibleClu r uid c.msg then s
        else s.flipOwn r n c
      | _ => s)

end Sys2Proof.Machine
end

