-- ==== Sys2Proof/Machine/Select.lean ====
section
/-! DEFINITION. FIRING_SELECT: stride scheduling, the policy check and the start of a replay (R33, R66,
R69, R76, R90, R102, R236 to R240, R242, R243, R249, R396, R397). -/

namespace Sys2Proof.Machine

/-! ## Stride scheduling, R239, R240 -/

/-- The engine command that a slot issues: the engine's key, and its input and output ports. -/
def Elem.drives (e : Elem) (key slot : Nat) : Option (Nat × List Nat × List Nat) :=
  match e.instrAt slot with
  | some i =>
    let p := enginePorts i
    if p.1.isEmpty && p.2.isEmpty then none
    else some (key - siteOf key + bits ((e.slots[slot]?).getD 0) 0 6, p.1, p.2)
  | none => none

/-- The weights in force of the loop-enabled strand ends, bound to the element, that a slot drives (R240,
R261). -/
def Run.endWeights (x : Run) (now key : Nat) (d : Nat × List Nat × List Nat) : List Nat :=
  x.strands.flatMap fun e =>
    let st := e.2.inForce now
    if !st.loop then []
    else
      (if st.bound = some key && st.elem = d.1 && d.2.2.contains st.port then [st.wprod] else []) ++
        st.branches.filterMap fun b =>
          if b.bound = some key && b.elem = d.1 && d.2.1.contains b.port then some b.wcons else none

/-- The issue weight of a slot (R240). -/
def Run.weight (x : Run) (now key slot : Nat) : Nat :=
  match (x.elems.get key).drives key slot with
  | none => 16
  | some d => match x.endWeights now key d with
    | [] => 16
    | w :: ws => max 1 (ws.foldl min w)

def Elem.passOf (e : Elem) (slot : Nat) : Nat := (e.pass[slot]?).getD 0

/-- Slots that gain a candidate catch up with the virtual time (R239). -/
def Elem.gain (e : Elem) (cs : List Cand) : Elem :=
  cs.foldl (fun (e : Elem) c =>
    if nbit e.hadCand c.slot then e
    else { e with pass := listSet e.pass c.slot (max (e.passOf c.slot) e.vt) }) e

/-- The candidate with the least pass; ties go to the lower slot (R239). -/
def Elem.choose (e : Elem) (cs : List Cand) : Option Cand :=
  cs.foldl (fun (best : Option Cand) c => match best with
    | some b => if e.passOf c.slot < e.passOf b.slot then some c else some b
    | none => some c) none

/-- Remove the oldest token of an identity at a port. -/
def dropWait (slot port colour iter : Nat) : List Wait → List Wait
  | [] => []
  | w :: ws =>
    if w.slot = slot && w.port = port && w.colour = colour && w.iter = iter then ws
    else w :: dropWait slot port colour iter ws

/-- The operands of a firing leave the matching store, and spilled entries take their ways (R242,
R243). -/
def Elem.consume (e : Elem) (c : Cand) : Elem :=
  let e := { e with waiting := c.toks.foldl (fun ws t =>
    dropWait c.slot t.1 c.colour c.iter ws) e.waiting }
  c.toks.foldl (fun (e : Elem) _ => e.reload (setOf c.slot c.iter c.colour)) e

/-- The bookkeeping of one selection (R33, R239). -/
def Elem.selected (e : Elem) (now weight : Nat) (c : Cand) : Elem :=
  let p := e.passOf c.slot
  let e := e.consume c
  { e with
    vt := p
    pass := listSet e.pass c.slot (p + 65536 / weight)
    lastSelect := some now
    quarter := if e.quarterAt c.slot then some now else e.quarter
    hadCand := (e.candidates now).foldl (fun m x => setBit m x.slot) 0 }

def Cand.tok (c : Cand) (port : Nat) : Option Tok := (c.toks.find? fun t => t.1 = port).map Prod.snd

/-! ## Replay, R396, R397 -/

/-- A colour is replayable, as far as it alone decides (R396). -/
def Colour.replayable (c : Colour) : Bool := !c.taint && c.state == .allocated && c.replays < 3

/-- One more generation of descendants. -/
def Ctx.descend (c : Ctx) (set : List Nat) : List Nat :=
  (set ++ (c.colours.filter fun e => e.2.parents.any fun p => set.contains p).map Prod.fst).eraseDups

def Ctx.descendants (c : Ctx) : Nat → List Nat → List Nat
  | 0, set => set
  | k + 1, set =>
    let set' := c.descend set
    if set'.length = set.length then set else c.descendants k set'

/-- The purge set of a colour (R397). -/
def Ctx.purgeSet (c : Ctx) (n : Nat) : List Nat := c.descendants 1024 [n]

/-- The colour replays: its graph allows it, and nothing of its purge set is tainted (R396, R397). -/
def State.replays (s : State) (f : Firing) : Bool :=
  let x := s.run f.run
  let c := s.ctx x.ctx
  nbit x.plan.flagsWord.toNat 0 && f.colour != 0 && (c.colour f.colour).replayable &&
    (c.purgeSet f.colour).all fun n => !(c.colour n).taint

/-- The purge wave of a replay starts; what arrives meanwhile in its colours is purged with them
(R397). -/
def State.startReplay (s : State) (f : Firing) : State :=
  let x := s.run f.run
  let set := (s.ctx x.ctx).purgeSet f.colour
  let s := s.editCtx x.ctx fun c =>
    set.foldl (fun (c : Ctx) n => c.editColour n fun y =>
      { y with state := if y.state = .draining then .draining else .killed }) c
  s.startWave f.run f.elem set none (some f.colour)

/-- A replay of the colour is under way: a second POISON is absorbed by it (R398). -/
def State.replaying (s : State) (f : Firing) : Bool :=
  s.waves.any fun w => w.2.run = f.run && w.2.replay.isSome && w.2.colours.contains f.colour

/-! ## The policy check, R69, R76, R90, R102, R249 -/

/-- SELECT, NULLT and KINDQ ignore their policy (R102). -/
def readsKinds : Instr → Bool
  | .select .. | .nullt .. | .kindq .. => true
  | _ => false

def isExit : Instr → Bool
  | .exit .. => true
  | _ => false

/-- A counted firing (R236).  DESIGN CHOICE: NULLT and KINDQ with a hold register as target count as R236 has
it, though R109 calls neither a counted firing (log 90). -/
def isCounted (i : Instr) : Bool :=
  let hold (t : Option Target) : Bool := match t with
    | some (.hold _) => true
    | _ => false
  (match memSlot i with
    | some m => m.writes
    | none => false) || isExit i || hold (outOf i).ta || hold (outOf i).tb || hold (thirdOf i)

/-- What becomes of a firing whose operands are at hand. -/
inductive Fate
  | execute (f : Firing)
  | absorb
  /-- it emits this token and counts, without executing -/
  | forward (t : Tok)
  | poison

def Tok.special (t : Tok) : Bool := t.kind != .data

/-- The operands of a firing in port order. -/
def Firing.toks (f : Firing) : List Tok := f.l.toList ++ f.r.toList ++ f.p.toList

/-- The predicate decides against execution (R76). -/
def Firing.predFalse (f : Firing) : Bool :=
  match f.p with
  | some t => t.kind = .null || (t.kind = .data && t.val = 0)
  | none => false

/-- The policy of a slot (R69). -/
def Elem.policyOf (e : Elem) (slot : Nat) : Nat := bits e.policy (2 * slot) 2

/-- Replace a special token by the slot's IMM16 (R249). -/
def replaceTok (imm : Nat) (t : Tok) : Tok := if t.special then Tok.data (sextWord 16 imm) else t

def Firing.mapToks (f : Firing) (g : Tok → Tok) : Firing :=
  { f with l := f.l.map g, r := f.r.map g, p := f.p.map g }

/-- The hold register that an instruction reads (R138, R153). -/
def heldOperand : Instr → Option Nat
  | .fma _ _ _ _ k => some k.toNat
  | .acas _ _ _ _ k _ => some k.toNat
  | _ => none

/-- A firing consumes POISON: a POISON token, or the value of a hold register that a word error has hit
(R249, R393). -/
def State.meetsPoison (s : State) (f : Firing) (i : Instr) : Bool :=
  (f.toks.any fun t => t.kind = .poison) || match heldOperand i with
    | some k => nbit (s.elem f.run f.elem).holdsBad k
    | none => false

/-- The fate of a firing (R76, R90, R102, R249): a slot of any port traps whatever its first token is (R70).
A SELECT, NULLT or KINDQ executes whatever special kind but NULL its predicate is: R76 gives such a token to
the policy that R102 has these instructions ignore (log 77). -/
def State.fate (s : State) (f : Firing) (i : Instr) : Fate :=
  let e := s.elem f.run f.elem
  let ts := f.toks
  if (readsOf i).any then .execute f
  else if s.meetsPoison f i then .poison
  else if f.predFalse then .forward Tok.nul
  else if readsKinds i then .execute f
  else match ts.find? Tok.special with
    | none => .execute f
    | some t => match e.policyOf f.slot with
      | 0 => .absorb
      | 1 => if ts.any fun t => t.kind = .null then .forward Tok.nul else .forward t.carry
      | 2 =>
        -- DEDUCED (notes/assumptions/31.md): a predicate that the replacement makes false decides as R76
        let g := f.mapToks (replaceTok (bits (s.slotWord f) 0 16))
        if g.predFalse then .forward Tok.nul else .execute g
      | _ => .execute f

/-- The mark of a counted firing of a committed identity: a TSKIP discards its operands (R236). -/
def countedMark : Nat := 0x101

/-- A counted firing of a committed identity (R236). -/
def State.tooLate (s : State) (f : Firing) (i : Instr) : Bool :=
  isCounted i && match (s.elem f.run f.elem).act f.act with
    | some a => a.committed
    | none => true

/-- An absorbed access of a read-class slot will not be issued, so nothing waits for it; a
write-class slot leaves its LSID open (R249). -/
def State.absorbed (s : State) (f : Firing) (i : Instr) : State :=
  match memSlot i with
  | some m => if m.writes then s else s.resolveLsid f m.lsid
  | none => s

/-- A firing emits without executing: its LSID is nulled, its exit counts (R76, R90). -/
def State.forwarded (s : State) (f : Firing) (i : Instr) (t : Tok) : State :=
  let s := match memSlot i with
    | some m => s.closeLsid f m
    | none => s
  let s := if isExit i then s.countExit f else s
  s.emitAll f i t

/-- The activation of a firing that a purge is to take commits no more (R246, condition 5). -/
def State.markAct (s : State) (f : Firing) : State :=
  s.editAct f.run f.elem f.act fun a => { a with poisoned := true }

/-- POISON starts a replay, is absorbed by one, or traps with the address recorded (R393, R397). -/
def State.meetPoison (s : State) (f : Firing) : State :=
  if s.replaying f then s.markAct f
  else if s.replays f then (s.markAct f).startReplay f
  else
    let a := match f.toks.find? fun t => t.kind = .poison with
      | some t => t.paddr
      | none => 0
    s.park f 0x0C (word a)

/-- A firing executes: it is counted, and gets the focus (R162). -/
def State.toExecute (s : State) (f : Firing) : State :=
  { s.editElem f.run f.elem fun e => e.count 0 1 with focus := .firing f }

/-- A firing with its operands goes its way: the focus goes to one that executes, or whose word is
corrupted, which traps there (R80). -/
def State.decide (s : State) (f : Firing) : State :=
  if nbit (s.elem f.run f.elem).badSlots f.slot then { s with focus := .firing f }
  else match decode (s.slotWord f) with
  | .error _ => { s with focus := .firing f }
  | .ok i => match s.fate f i with
    | .poison => s.meetPoison f
    | .absorb => s.absorbed f i
    | .forward t =>
      if s.tooLate f i then s.parkAs f 0x01 countedMark (word f.slot) else s.forwarded f i t
    | .execute g =>
      if s.tooLate f i then s.parkAs f 0x01 countedMark (word f.slot)
      else s.toExecute g

/-! ## FIRING_SELECT -/

/-- The firing of a candidate, in the activation of its identity. -/
def State.firingOf (s : State) (r k : Nat) (c : Cand) : Firing :=
  let uid := match (s.elem r k).actOf c.colour c.iter with
    | some a => a.uid
    | none => 0
  ⟨r, k, c.slot, c.colour, c.iter, uid, c.tok 0, c.tok 1, c.tok 2⟩

/-- The element has selected in this cycle already (R33). -/
def Elem.busyNow (e : Elem) (now : Nat) : Bool :=
  match e.lastSelect with
  | some t => t ≥ now
  | none => false

def execFiringSelect (r k : Nat) (s : State) : Result :=
  .next (
    let e := s.elem r k
    if !s.alive r k || e.busyNow s.cycle then s
    else
      let cs := e.candidates s.cycle
      let e := e.gain cs
      match e.choose cs with
      | none => s
      | some c =>
        let w := (s.run r).weight s.cycle k c.slot
        (s.editElem r k fun _ => e.selected s.cycle w c).decide (s.firingOf r k c))

end Sys2Proof.Machine
end

