-- ==== Sys2Proof/Machine/Xmss.lean ====
section
/-! DEFINITION. SHAKE256 and the signature scheme XMSS-SHAKE256_20_256 that R412 and R413 name by NIST SP
800-208 and RFC 8391 (log 10): n = 32, w = 16, 67 chains, a tree of height 20.  A key is the 32 bytes of the
root and the 32 bytes of the public seed (R409). -/

namespace Sys2Proof.Machine

/-! ## SHAKE256 -/

/-- Lane x + 5y of a Keccak state. -/
def keccakLane (a : List Word) (k : Nat) : Word := a.getD k 0

/-- The rotation of each lane. -/
def keccakRot : List Nat :=
  [0, 1, 62, 28, 27, 36, 44, 6, 55, 20, 3, 10, 43, 25, 39, 41, 45, 15, 21, 8, 18, 2, 61, 56, 14]

/-- The round constants. -/
def keccakRounds : List Word :=
  [0x0000000000000001, 0x0000000000008082, 0x800000000000808A, 0x8000000080008000,
    0x000000000000808B, 0x0000000080000001, 0x8000000080008081, 0x8000000000008009,
    0x000000000000008A, 0x0000000000000088, 0x0000000080008009, 0x000000008000000A] ++
  [0x000000008000808B, 0x800000000000008B, 0x8000000000008089, 0x8000000000008003,
    0x8000000000008002, 0x8000000000000080, 0x000000000000800A, 0x800000008000000A,
    0x8000000080008081, 0x8000000000008080, 0x0000000080000001, 0x8000000080008008]

/-- The step θ: each lane takes the parities of the columns before and after its own. -/
def keccakTheta (a : List Word) : List Word :=
  let c := (upTo 5).map fun x => (upTo 5).foldl (fun w y => w ^^^ keccakLane a (x + 5 * y)) (0 : Word)
  let d := (upTo 5).map fun x => keccakLane c ((x + 4) % 5) ^^^ (keccakLane c ((x + 1) % 5)).rotateLeft 1
  (upTo 25).map fun k => keccakLane a k ^^^ keccakLane d (k % 5)

/-- The steps ρ and π. -/
def keccakMove (a : List Word) : List Word :=
  (upTo 25).map fun k =>
    let from_ := (k % 5 + 3 * (k / 5)) % 5 + 5 * (k % 5)
    (keccakLane a from_).rotateLeft (keccakRot.getD from_ 0)

/-- The step χ. -/
def keccakChi (b : List Word) : List Word :=
  (upTo 25).map fun k =>
    let at_ (n : Nat) : Word := keccakLane b ((k + n) % 5 + 5 * (k / 5))
    keccakLane b k ^^^ (~~~ at_ 1 &&& at_ 2)

/-- One round, with its constant. -/
def keccakRound (a : List Word) (rc : Word) : List Word :=
  match keccakChi (keccakMove (keccakTheta a)) with
  | [] => []
  | w :: rest => (w ^^^ rc) :: rest

def keccakF (a : List Word) : List Word := keccakRounds.foldl keccakRound a

/-- The bytes of SHAKE256 that one permutation takes in or gives. -/
def shakeRate : Nat := 136

/-- Take in blocks of the padded message. -/
def absorb (a : List Word) (blocks : List (List Byte)) : List Word :=
  blocks.foldl (fun a b =>
    keccakF ((upTo 25).map fun k => keccakLane a k ^^^ word (ofBytes ((b.drop (8 * k)).take 8)))) a

/-- The message with the domain bits 1111 and the padding of a sponge. -/
def shakePad (m : List Byte) : List Byte :=
  let gap := shakeRate - 1 - m.length % shakeRate
  m ++ if gap = 0 then [0x9F] else [0x1F] ++ List.replicate (gap - 1) 0 ++ [0x80]

/-- The first 32 bytes of SHAKE256. -/
def shake256 (m : List Byte) : List Byte :=
  let p := shakePad m
  let a := absorb (List.replicate 25 0) (chunks shakeRate (p.length / shakeRate) p)
  (a.take 4).flatMap fun w => toBytes 8 w.toNat

/-! ## The hash functions of the scheme -/

/-- A number as `n` bytes, most significant first. -/
def bigBytes (n x : Nat) : List Byte := (toBytes n x).reverse

/-- The keyed functions F, H, H_msg and PRF, by their numbers 0 to 3. -/
def xmssHash (fn : Nat) (key m : List Byte) : List Byte := shake256 (bigBytes 32 fn ++ key ++ m)

def xorBytes (xs ys : List Byte) : List Byte := List.zipWith (fun x y => x ^^^ y) xs ys

/-- A hash address: its type and its four last words; the layer and the tree are 0. -/
def xmssAdrs (kind a b c d : Nat) : List Byte :=
  List.replicate 12 0 ++ bigBytes 4 kind ++ bigBytes 4 a ++ bigBytes 4 b ++ bigBytes 4 c ++ bigBytes 4 d

/-- A pseudo-random value of the public seed. -/
def xmssPrf (seed adrs : List Byte) : List Byte := xmssHash 3 seed adrs

/-- Two nodes under their parent: in the tree of a one-time key (kind 1) or in the tree of all keys (kind 2). -/
def randHash (seed : List Byte) (kind a height index : Nat) (l r : List Byte) : List Byte :=
  let prf (k : Nat) : List Byte := xmssPrf seed (xmssAdrs kind a height index k)
  xmssHash 1 (prf 0) (xorBytes l (prf 1) ++ xorBytes r (prf 2))

/-! ## One-time signatures -/

/-- `n` links of a chain from link `start` on. -/
def chainFrom (seed : List Byte) (key chain : Nat) : Nat → Nat → List Byte → List Byte
  | 0, _, x => x
  | n + 1, start, x =>
    let prf (k : Nat) : List Byte := xmssPrf seed (xmssAdrs 0 key chain start k)
    chainFrom seed key chain n (start + 1) (xmssHash 0 (prf 0) (xorBytes x (prf 1)))

/-- The 67 digits of base 16 that a digest signs: its own 64 and the three of their checksum. -/
def otsDigits (m : List Byte) : List Nat :=
  let ds := m.flatMap fun b => [b.toNat / 16, b.toNat % 16]
  let sum := ds.foldl (fun n d => n + (15 - d)) 0
  ds ++ [sum / 256 % 16, sum / 16 % 16, sum % 16]

/-- One level of the tree over the ends of the chains: the last of an odd number moves up as it is. -/
def ltreeLevel (seed : List Byte) (key height : Nat) : Nat → List (List Byte) → List (List Byte)
  | i, l :: r :: rest => randHash seed 1 key height i l r :: ltreeLevel seed key height (i + 1) rest
  | _, rest => rest

/-- The leaf of a one-time key: the root of the tree over the ends of its 67 chains, seven levels high. -/
def ltree (seed : List Byte) (key : Nat) (ends : List (List Byte)) : List Byte :=
  ((upTo 7).foldl (fun xs h => ltreeLevel seed key h 0 xs) ends).getD 0 []

/-- The leaf that a one-time signature of a digest gives. -/
def leafOfSig (seed : List Byte) (key : Nat) (m : List Byte) (sig : List (List Byte)) : List Byte :=
  ltree seed key (((otsDigits m).zip sig).zipIdx.map fun x =>
    chainFrom seed key x.2 (15 - x.1.1) x.1.1 x.1.2)

/-! ## The tree and the signature -/

/-- The height of the tree. -/
def xmssHeight : Nat := 20

/-- One step up the tree with a node of the authentication path. -/
def pathStep (seed : List Byte) (key : Nat) (node : List Byte) (x : List Byte × Nat) : List Byte :=
  let index := key / 2 ^ (x.2 + 1)
  if key / 2 ^ x.2 % 2 = 0 then randHash seed 2 0 x.2 index node x.1
  else randHash seed 2 0 x.2 index x.1 node

/-- The root that a signature gives. -/
def rootOfSig (seed : List Byte) (key : Nat) (m : List Byte) (sig path : List (List Byte)) : List Byte :=
  path.zipIdx.foldl (pathStep seed key) (leafOfSig seed key m sig)

/-- The digest that is signed, of the randomiser, the root, the index and the message. -/
def xmssDigest (rnd root : List Byte) (key : Nat) (m : List Byte) : List Byte :=
  xmssHash 2 (rnd ++ root ++ bigBytes 32 key) m

/-- The bytes of a signature: the index, the randomiser, 67 chain values and the path. -/
def xmssSigBytes : Nat := 2820

/-- A signature verifies under a key of 64 bytes (R336, R410, R412). -/
def xmssVerify (key m sig : List Byte) : Bool :=
  let root := key.take 32
  let seed := key.drop 32
  let index := ofBytes (sig.take 4).reverse
  let parts := chunks 32 88 (sig.drop 4)
  sig.length = xmssSigBytes && index < 2 ^ xmssHeight &&
    rootOfSig seed index (xmssDigest (parts.getD 0 []) root index m) ((parts.drop 1).take 67)
      (parts.drop 68) == root

/-! ## The device's own key, R413 -/

/-- The secret start of a chain of one of the device's one-time keys (log 10). -/
def deviceSecret (key chain : Nat) : List Byte := fillTo 32 0 (Config.otsSecret key chain)

def deviceSeed : List Byte := fillTo 32 0 Config.xmssSeed

/-- A leaf of the device's tree. -/
def deviceLeaf (key : Nat) : List Byte :=
  ltree deviceSeed key ((upTo 67).map fun i => chainFrom deviceSeed key i 15 0 (deviceSecret key i))

/-- A node of the device's tree, at a height. -/
def deviceNode : Nat → Nat → List Byte
  | 0, i => deviceLeaf i
  | h + 1, i => randHash deviceSeed 2 0 h i (deviceNode h (2 * i)) (deviceNode h (2 * i + 1))

/-- The root of the device's tree, which stands above every one-time key. -/
def deviceRoot (key : Nat) : List Byte := deviceNode xmssHeight (key / 2 ^ xmssHeight)

/-- The signature of a message by the one-time key at an index (R413). -/
def xmssSign (key : Nat) (m : List Byte) : List Byte :=
  let rnd := xmssHash 3 (fillTo 32 0 Config.xmssPrfKey) (bigBytes 32 key)
  let digest := xmssDigest rnd (deviceRoot key) key m
  bigBytes 4 key ++ rnd ++
    ((otsDigits digest).zipIdx.flatMap fun d => chainFrom deviceSeed key d.2 d.1 0 (deviceSecret key d.2)) ++
    (upTo xmssHeight).flatMap fun h => deviceNode h ((key / 2 ^ h) ^^^ 1)

end Sys2Proof.Machine
end

