-- ==== Sys2Proof/Machine/Loader.lean ====
section
/-! DEFINITION. The loader: what an image in a context's memory holds, and the checks that refuse it
(R66 to R78, R81, R88, R198, R211, R256, R257, R260, R268, R269, R336 to R342, R348, R353, R395). -/

namespace Sys2Proof.Machine

/-! ## Reading and writing through a context's tables -/

/-- `n` bytes at a virtual address, block by block; none where a page is missing or not readable. -/
def virtReadFrom (s : State) (c : Nat) : Nat → Nat → Nat → Option (List Byte)
  | 0, _, n => if n = 0 then some [] else none
  | fuel + 1, va, n =>
    if n = 0 then some []
    else
      let k := min n (64 - va % 64)
      match s.walkHome c (va % 2 ^ 55) needRead, virtReadFrom s c fuel (va + k) (n - k) with
      | .ok a, some bs => some (s.bytes a k ++ bs)
      | _, _ => none

def State.virtRead (s : State) (c va n : Nat) : Option (List Byte) :=
  virtReadFrom s c (n / 64 + 2) va n

def numAt (bs : List Byte) (at_ n : Nat) : Nat := ofBytes ((bs.drop at_).take n)

/-! ## The report of a refusal, R348 -/

/-- The report word of a refused job. -/
def refusedWord (status item slot site clu part num : Nat) : Word :=
  word (3 + status * 2 ^ 8 + item * 2 ^ 16 + slot % 32 * 2 ^ 20 + site % 64 * 2 ^ 25 +
    clu % 16 * 2 ^ 31 + part % 32 * 2 ^ 35 + num % 65536 * 2 ^ 48)

/-- A refusal of the image as a whole: ITEM 11. -/
def refusedImage (status : Nat) : Word := refusedWord status 3 0 0 0 0 0

/-- The first of a list of checks that refuses. -/
def firstSome {α β : Type} (f : α → Option β) : List α → Option β
  | [] => none
  | x :: xs => match f x with
    | some b => some b
    | none => firstSome f xs

/-- A status where a condition holds. -/
def refuseWhen (c : Bool) (status : Nat) : Option Nat := if c then some status else none

/-! ## The strands of a graph, R198, R256, R260 -/

def PlanPart.cluster (p : PlanPart) (c : Nat) : Option PlanCluster :=
  p.clusters.find? fun x => x.clu = c

/-- The elements that a graph configures, by key. -/
def PlanGraph.elems (g : PlanGraph) : List (Nat × PlanElem) :=
  g.parts.zipIdx.flatMap fun p => p.1.clusters.flatMap fun c =>
    c.elems.map fun e => (keyOf p.2 c.clu e.site, e)

/-- The element of a plan at a key; one without a block holds unused slots (R70). -/
def PlanGraph.slotsAt (g : PlanGraph) (key : Nat) : List Word :=
  match g.elems.find? fun e => e.1 = key with
  | some e => fillTo 32 0 e.2.slots
  | none => List.replicate 32 0

/-- A slot word issues a command that runs a port of an engine's site. -/
def runsPort (site port : Nat) (input : Bool) (w : Word) : Bool :=
  match decode w with
  | .ok i =>
    let ps := enginePorts i
    bits w 0 6 = site && (if input then ps.1.contains port else ps.2.contains port)
  | .error _ => false

/-- The element of least key among those of a list. -/
def leastKey : List (Nat × PlanElem) → Option Nat
  | [] => none
  | e :: es => some (es.foldl (fun k x => min k x.1) e.1)

/-- The element an end of a strand is bound to (R198). -/
def PlanGraph.bind (g : PlanGraph) (key port : Nat) (input : Bool) : Option Nat :=
  let here := g.elems.filter fun e => e.1 / 64 = key / 64 && siteKind (siteOf e.1) == .lace
  let issuing := here.filter fun e => e.2.slots.any fun w => runsPort (siteOf key) port input w
  leastKey (if issuing.isEmpty then here else issuing)

/-- The values of a strand's registers when a launch starts (R260). -/
def PlanGraph.strandStart (g : PlanGraph) (p : PlanStrand) : Strand :=
  let base := min (max 16 p.wmin) p.wmax
  { num := p.num
    elem := p.fromElem
    port := p.fromPort
    bound := g.bind p.fromElem p.fromPort false
    kp := p.kp
    ki := p.ki
    wmin := p.wmin
    wmax := p.wmax
    imax := 1024
    wprod := base
    wprodWas := base
    loop := p.kp != 0 || p.ki != 0
    loopWas := p.kp != 0 || p.ki != 0
    updated := 0
    orph := 0
    wpbase := base
    gated := false
    permit := 0
    branches := p.dests.map fun d =>
      { elem := d.elem
        port := d.port
        bound := g.bind d.elem d.port true
        bridge := d.bridges > 0
        gauge := p.gauge.getD (p.cap / 2)
        integ := 0
        wcons := base
        wconsWas := base
        cap := p.cap
        flags := 0
        wcbase := base
        beats := [] }
    ready := []
    control := []
    closing := []
    sent := 0
    cmp := p.cmp }

/-- A slot word of PERMIT or TAKE that names a strand (R160). -/
def gates (num : Nat) (w : Word) : Bool :=
  match decode w with
  | .ok (.permit _ n) | .ok (.take _ n) => n.toNat = num
  | _ => false

/-- A strand is gated if a slot with an endpoint of it names it in a PERMIT or TAKE (R160). -/
def PlanGraph.gatesStrand (g : PlanGraph) (st : Strand) : Bool :=
  g.elems.any fun e => st.endAt e.1 && e.2.slots.any fun w => gates st.num w

/-- The strands of a launch at its start. -/
def PlanGraph.strandTable (g : PlanGraph) : Tbl Strand :=
  g.strands.zipIdx.map fun p =>
    let st := g.strandStart p.1
    (p.2, { st with gated := g.gatesStrand st })

/-- The beats that the end buffer of a branch holds: the capacity less the buffering of its route (R257). -/
def PlanStrand.endBuffer (p : PlanStrand) (d : PlanDest) : Int :=
  (p.cap : Int) - (2 * d.hops + 48 * d.bridges : Nat)

/-- The beats that the end buffers of one element take of its pool (R257). -/
def PlanGraph.poolUse (g : PlanGraph) (key : Nat) : Int :=
  g.strands.foldl (fun n p =>
    (p.dests.filter fun d => d.elem = key).foldl (fun n d => n + p.endBuffer d) n) 0

/-- The strands of a graph that break R257. -/
def PlanGraph.bufferFaults (g : PlanGraph) : List Nat :=
  (g.strands.filter fun p =>
    p.dests.any fun d => p.endBuffer d < 2 || g.poolUse d.elem > 256).map fun p => p.num

/-- The lowest strand number that takes part in a violation of R257, R260 or R269, over the graphs of
an image. -/
def couplingRefusal (gs : List PlanGraph) : Option Word :=
  let bad := gs.flatMap fun g => g.bufferFaults ++ couplingFaults (g.strandTable.map Prod.snd)
  match bad with
  | [] => none
  | n :: ns => some (refusedWord 0x1A 3 0 0 0 0 (ns.foldl min n))

/-! ## The checks of a block, R66 to R78, R81 -/

/-- The load status of a decoding error (R81). -/
def statusOf : DecodeError → Nat
  | .opcode => 0x10
  | .modifier => 0x11
  | .field => 0x12
  | .target => 0x13
  | .engine => 0x17
  | .strand => 0x18
  | .register => 0x19
  | .seq => 0x05

/-- IMM16 of an instruction that has no other use for it: the replacement value of policy 10 (R69,
R71).  DEDUCED: an entry that gives IMM16 as 0 has no use for it, so PACK takes policy 10 as ABS and MOV do
(R125; log 88). -/
def freeImm : Instr → Option (BitVec 16)
  | .mov _ r | .steer _ r | .steern _ r | .select _ r | .nullt _ r | .iter _ r | .iterset _ r
  | .iterread _ r | .colnew _ r | .colfree _ r | .retag _ r | .exit _ r | .send _ r | .sendx _ r
  | .gate _ r | .kindq _ r | .kill _ r | .retire _ r => some r
  | .add _ f | .sub _ f | .mul _ f | .mulh _ f _ | .div _ f _ _ | .rem _ f _ _ | .and _ f | .or _ f
  | .xor _ f | .andn _ f | .shl _ f | .shr _ f | .sar _ f | .rol _ f | .min _ f _ | .max _ f _
  | .cmp _ f _ | .test _ f _ | .adds _ f _ | .subs _ f _ => if f.immOn then none else some f.imm
  | .abs _ f | .neg _ f | .clz _ f | .popc _ f | .brev _ f => some f.rep
  | .pack _ f => some f.rep
  | .fadd _ f | .fsub _ f | .fmul _ f => some f.rep
  | .fdiv _ _ _ r | .fsqrt _ _ _ r | .fmin _ _ _ r | .fmax _ _ _ r | .fcmp _ _ _ _ r
  | .fexp2 _ _ _ r | .flog2 _ _ _ r | .frcp _ _ _ r | .frsq _ _ _ r | .fsinp _ _ _ r
  | .fcosp _ _ _ r | .fclass _ _ r => some r
  | .cycle _ r | .waitt _ r | .flags _ r | .brk _ r | .tret _ r | .tskip _ r => some r
  | _ => none

/-- The status of a target from an element (R66, R68): the place it names is a slot of a lace element
whose instruction reads the port, a token input of a seam, or a hold register of the block. -/
def targetStatus (g : PlanGraph) (key hmask : Nat) : Target → Option Nat
  | .hold k => refuseWhen (!nbit hmask k.toNat) 0x15
  | .site p slot dx dy =>
    let site := siteOf key
    let x := ((site % 8 : Nat) : Int) + dx.toInt
    let y := ((site / 8 : Nat) : Int) + dy.toInt
    if x < 0 || x > 7 || y < 0 || y > 7 then some 0x13
    else
      let port := p.toBits.toNat
      match siteKind (siteOf (targetKey key dx dy)) with
      | .lace =>
        match decode (((g.slotsAt (targetKey key dx dy))[slot.toNat]?).getD 0) with
        | .ok i => refuseWhen (!(readsOf i).reads port) 0x13
        | .error _ => none
      | .seam => refuseWhen (slot.toNat > 7 || port > 1) 0x13
      | _ => some 0x13

/-- The NG targets of a gather: TB and the slots after it (R211). -/
def gatherStatus (g : PlanGraph) (key hmask ng1 : Nat) : Option Target → Option Nat
  | some (.site p slot dx dy) =>
    if slot.toNat + ng1 > 31 then some 0x13
    else firstSome (fun k => targetStatus g key hmask (.site p (slot + BitVec.ofNat 5 k) dx dy))
      (upTo (ng1 + 1))
  | _ => some 0x13

/-- The strand of a strand-group instruction with its branch (R78). -/
def strandField : Instr → Option (Nat × Nat)
  | .permit _ n | .take _ n | .strclose _ n => some (n.toNat, 0)
  | .strset _ n _ b | .strocc _ n _ b => some (n.toNat, b.toNat)
  | _ => none

/-- The strand has an endpoint at the element, and the branch exists (R78). -/
def strandStatus (ss : Tbl Strand) (key : Nat) (i : Instr) : Option Nat :=
  match strandField i with
  | none => none
  | some (n, b) =>
    match ss.find? fun e => e.2.num = n && e.2.endAt key with
    | none => some 0x18
    | some e => refuseWhen (b ≥ e.2.branches.length) 0x18

/-- The status of one slot word of a block.  Which of several faults of one word is reported, the spec leaves
open: what decoding refuses, then an unused field, the targets, a gather's slots, the strand, the LSID
(log 75). -/
def slotStatus (g : PlanGraph) (ss : Tbl Strand) (key : Nat) (e : PlanElem) (slot : Nat) :
    Option Nat :=
  let w := (e.slots[slot]?).getD 0
  let hmask := bits e.header 24 8
  let stmask := bits e.header 32 32
  let pol := bits e.policy (2 * slot) 2
  match decode w with
  | .error err => some (statusOf err)
  | .ok i =>
    let field := match freeImm i with
      | some v => pol != 2 && v != 0
      | none => false
    let targets := (outOf i).ta.toList ++ (outOf i).tb.toList ++ (thirdOf i).toList ++ (match i with
      | .site _ t => [t]
      | _ => [])
    let gather := match i with
      | .pgather c _ n | .pray c _ n => gatherStatus g key hmask n.toNat c.tb
      | _ => none
    let lsid := match memSlot i with
      | some m =>
        let earlier := (e.slots.take slot).any fun v => match decode v with
          | .ok j => match memSlot j with
            | some k => k.lsid = m.lsid
            | none => false
          | .error _ => false
        refuseWhen (earlier || (m.writes && !nbit stmask m.lsid)) 0x14
      | none => none
    firstSome id [refuseWhen field 0x12, firstSome (fun t => targetStatus g key hmask t) targets, gather,
      strandStatus ss key i, lsid]

/-- The instructions of a block. -/
def PlanElem.instrs (e : PlanElem) : List Instr :=
  e.slots.filterMap fun w => match decode w with
    | .ok i => some i
    | .error _ => none

/-- The status of a block's header (R67, R68, R74).  A mismatch of a slot with the header's masks is the slot's
where a bit is missing, and the header's where a bit has no slot: the spec says neither (log 75). -/
def headerStatus (e : PlanElem) : Option Nat :=
  let h := e.header
  let is := e.instrs
  let exits := bits h 22 2
  let held := is.flatMap fun i =>
    ((outOf i).ta.toList ++ (outOf i).tb.toList ++ (thirdOf i).toList).filterMap fun t => match t with
      | .hold k => some k.toNat
      | _ => none
  let writes := is.filterMap fun i => match memSlot i with
    | some m => if m.writes then some m.lsid else none
    | none => none
  firstSome id
    [ refuseWhen (bits h 19 3 != 0 || bits h 8 8 != 0 || exits > 1 || bits h 0 8 > 40 ||
        (is.any isExit) != (exits == 1)) 0x16,
      refuseWhen ((upTo 32).any fun k => nbit (bits h 32 32) k && !writes.contains k) 0x14,
      refuseWhen ((upTo 8).any fun k => nbit (bits h 24 8) k && !held.contains k) 0x15 ]

/-- The status of a block's policy word (R69, R81).  A policy is refused as the policy word and not as its slot,
and policy 10 is refused on an ILL slot, whose IMM16 must be 0: the spec says neither (log 75). -/
def policyStatus (e : PlanElem) : Option Nat :=
  refuseWhen ((upTo 32).any fun k =>
    let w := (e.slots[k]?).getD 0
    let pol := bits e.policy (2 * k) 2
    (w == 0 && pol != 0) || (pol == 2 && match decode w with
      | .ok i => (freeImm i).isNone
      | .error _ => false)) 0x12

/-- The status of a source token (R88).  DESIGN CHOICE: one for a port that its slot does not read is accepted, and
traps ILLEGAL when it is injected (R82; log 89). -/
def sourceStatus (t : SourceTok) : Option Nat :=
  refuseWhen (if t.kind = .stop then t.level = 0 else t.level != 0) 0x12

/-- The first refusal of one block: its slots, its header, its policy word, its source tokens (R81).
Each is given by status, item and slot; a refused source token gives item 0 and the slot it goes to, which
the spec does not say (log 75). -/
def blockRefusal (g : PlanGraph) (ss : Tbl Strand) (key : Nat) (e : PlanElem) :
    Option (Nat × Nat × Nat) :=
  firstSome id
    [ firstSome (fun k => (slotStatus g ss key e k).map fun st => (st, 0, k)) (upTo 32),
      (headerStatus e).map fun st => (st, 1, 0),
      (policyStatus e).map fun st => (st, 2, 0),
      firstSome (fun t => (sourceStatus t).map fun st => (st, 0, t.slot)) e.sources ]

/-- The first refused item of a graph's blocks, with its place (R81, R348). -/
def planRefusal (n : Nat) (g : PlanGraph) : Option Word :=
  let ss := g.strandTable
  firstSome (fun e => (blockRefusal g ss e.1 e.2).map fun b =>
    refusedWord b.1 b.2.1 b.2.2 (siteOf e.1) (cluOf e.1) (partOf e.1) n) g.elems

/-! ## Regions, R338, R353, R395 -/

/-- The die at an offset from a home die, where it lies on the package (R13, R353). -/
def dieAt (home : Nat) (dc dr : Int) : Option Nat :=
  let c := ((home % 6 : Nat) : Int) + dc
  let r := ((home / 6 : Nat) : Int) + dr
  if 0 ≤ c && c < 6 && 0 ≤ r && r < 4 then some (r * 6 + c).toNat else none

def PlanGraph.replay (g : PlanGraph) : Bool := nbit g.flagsWord.toNat 0
def PlanGraph.redundant (g : PlanGraph) : Bool := nbit g.flagsWord.toNat 1

/-- The dies of a graph's parts. -/
def PlanGraph.dies (g : PlanGraph) (home : Nat) : List (Option Nat) :=
  g.parts.map fun p => dieAt home p.dc p.dr

/-- A list without repeats. -/
def distinct : List (Option Nat) → Bool
  | [] => true
  | x :: xs => !xs.contains x && distinct xs

/-- A graph's record or rectangles are refused with REGION. -/
def badRegion (home : Nat) (g : PlanGraph) : Bool :=
  let ds := g.dies home
  bits g.flagsWord 2 62 != 0 || (g.redundant && !g.replay) ||
    (g.replay && (bits g.scrbase 0 6 != 0 || bits g.scrsize 0 6 != 0)) ||
    g.parts.isEmpty || ds.any Option.isNone || !distinct ds ||
    (g.parts.any fun p =>
      p.w = 0 || p.w > 4 || p.h = 0 || p.h > 4 || p.clusters.any fun c =>
        c.clu ≥ p.w * p.h || c.elems.any fun e => siteKind e.site != .lace)

/-! ## The image, R336, R337 -/

/-- A section of an image: offset and length. -/
def section_ (head : List Byte) (k : Nat) : Nat × Nat :=
  (numAt head (16 + 8 * k) 4, numAt head (20 + 8 * k) 4)

/-- The five sections in HEAD's order. -/
def sections (head : List Byte) : List (Nat × Nat) := (upTo 5).map (section_ head)

/-- Two sections overlap. -/
def sectionsMeet : List (Nat × Nat) → Bool
  | [] => false
  | x :: xs => (xs.any fun y => overlap x.1 x.2 y.1 y.2) || sectionsMeet xs

/-- A HEAD with another magic, version or count than R337 allows, or a reserved field set. -/
def badHead (head : List Byte) : Bool :=
  numAt head 0 4 != 0x4C485355 || numAt head 4 2 != 1 || numAt head 11 1 != 0 ||
    numAt head 6 2 = 0 || numAt head 6 2 > 256 || numAt head 8 2 = 0 || numAt head 8 2 > 4096

/-- The bytes of a section; a section that is absent has none. -/
def State.sectionBytes (s : State) (c image : Nat) (x : Nat × Nat) : Option (List Byte) :=
  s.virtRead c (image + x.1) x.2

/-- The sections of an image break R336: one overlaps another or HEAD, is misaligned, or does not
lie in readable memory; PLAN or SEQ is absent. -/
def State.badSections (s : State) (c image : Nat) (head : List Byte) : Bool :=
  let xs := (sections head).filter fun x => x.2 != 0
  (section_ head 0).2 = 0 || (section_ head 2).2 = 0 || sectionsMeet ((0, 64) :: xs) ||
    xs.any fun x => x.1 % 64 != 0 || (s.sectionBytes c image x).isNone

/-- SIGN fails to verify over every preceding byte, or is absent where the queue requires it (R338,
R410). -/
def State.badSign (s : State) (c image : Nat) (head : List Byte) (required : Bool) : Bool :=
  let sign := section_ head 4
  if sign.2 = 0 then required
  else
    let noKey := s.life.imgkey.all (· = 0)
    match s.virtRead c image sign.1, s.sectionBytes c image sign with
    | some m, some sig => (required && noKey) || !xmssVerify s.life.imgkey m sig
    | _, _ => true

/-! ## SEQ, PORTS and DATA, R338, R339, R342 -/

/-- The steps of an image. -/
def seqSteps (seq : List Byte) (n : Nat) : List Word :=
  (upTo n).map fun k => word (numAt seq (8 * k) 8)

/-- An entry of the task table: entry step and initial count. -/
def taskEntry (seq : List Byte) (nstep n : Nat) : Nat := numAt seq (8 * (nstep + n)) 8

/-- A step breaks R339. -/
def badStep (ngraph nstep : Nat) (w : Word) : Bool :=
  match decodeSeq w with
  | .ok (.seqRun g) | .ok (.seqWait g) => g.toNat ≥ ngraph
  | .ok (.seqBranch _ t) | .ok (.seqLoop _ t) => t.toNat ≥ nstep
  | .ok _ => false
  | .error _ => true

/-- The first refusal of SEQ: a step, by its index, or a task entry. -/
def seqRefusal (seq : List Byte) (ngraph nstep ntask : Nat) : Option Word :=
  let steps := seqSteps seq nstep
  match (upTo nstep).find? fun k => badStep ngraph nstep ((steps[k]?).getD 0) with
  | some k => some (refusedWord 0x05 3 0 0 0 0 k)
  | none =>
    if seq.length < 8 * (nstep + ntask) || (upTo ntask).any fun n =>
        let e := taskEntry seq nstep n
        nbits e 0 16 ≥ nstep || nbits e 40 24 != 0 then
      some (refusedImage 0x05)
    else none

/-- A DATA block is unaligned, unmapped, far, or in a tile window that no part of its graph owns. -/
def State.badData (s : State) (c : Nat) (gs : List PlanGraph) (d : DataBlk) : Bool :=
  let va := d.addr % 2 ^ 55
  d.addr % 64 != 0 || nbit d.addr 55 || !s.isOwnDevice (nbits d.addr 56 8) ||
    match s.windowOffset c va with
    | some off =>
      match gs[d.graph]? with
      | none => true
      | some g => match g.parts[nbits off 26 5]? with
        | none => true
        | some p => match p.cluster (nbits off 22 4) with
          | none => true
          | some k => !nbit k.mask (nbits off 19 3)
    | none => match s.walkHome c va needWrite with
      | .ok _ => false
      | .error _ => true

/-- A binding names no edge port, or an unaligned address (R338). -/
def badBinding (gs : List PlanGraph) (b : PortBinding) : Bool :=
  !b.atEdge || b.addr % 64 != 0 || match gs[b.graph]? with
    | none => true
    | some g => g.strands.all fun p => p.num != b.strand

/-! ## Validation, R338 -/

/-- What a validated image gives its job. -/
abbrev Loaded := List Word × Nat × List (Nat × Nat) × List PlanGraph × List DataBlk × Word

/-- The sections of a readable image in the order of R338: the first refusal, or the job's contents. -/
def State.validateSections (s : State) (c home image : Nat) (head : List Byte) :
    Except Word Loaded :=
  let bytesOf (k : Nat) : List Byte := (s.sectionBytes c image (section_ head k)).getD []
  let ngraph := numAt head 6 2
  let nstep := numAt head 8 2
  let ntask := numAt head 10 1
  match Config.planOf (bytesOf 0) with
  | none => .error (refusedImage 0x01)
  | some gs =>
    if gs.length != ngraph then .error (refusedImage 0x01)
    else if gs.any fun g => badRegion home g then .error (refusedImage 0x04)
    else match firstSome (fun g => planRefusal g.2 g.1) gs.zipIdx with
      | some w => .error w
      | none => match couplingRefusal gs with
        | some w => .error w
        | none =>
          let ports := if (section_ head 1).2 = 0 then some [] else Config.portsOf (bytesOf 1)
          let data := if (section_ head 3).2 = 0 then some [] else Config.dataOf (bytesOf 3)
          match ports, seqRefusal (bytesOf 2) ngraph nstep ntask, data with
          | none, _, _ => .error (refusedImage 0x06)
          | some bs, sr, d =>
            if bs.any fun b => badBinding gs b then .error (refusedImage 0x06)
            else match sr, d with
              | some w, _ => .error w
              | none, none => .error (refusedImage 0x07)
              | none, some ds =>
                if ds.any fun x => s.badData c gs x then .error (refusedImage 0x07)
                else .ok (seqSteps (bytesOf 2) nstep, ntask,
                  (upTo ntask).map fun n =>
                    let e := taskEntry (bytesOf 2) nstep n
                    (nbits e 0 16, nbits e 16 24),
                  gs, ds, word (numAt head 12 4))

/-- Validate the image at an address for a queue of a home die (R338). -/
def State.validate (s : State) (c home image : Nat) (signed : Bool) : Except Word Loaded :=
  match s.virtRead c image 64 with
  | none => .error (refusedImage 0x01)
  | some head =>
    if badHead head then .error (refusedImage 0x01)
    else if image % 64 != 0 || s.badSections c image head then .error (refusedImage 0x02)
    else if s.badSign c image head signed then .error (refusedImage 0x03)
    else s.validateSections c home image head

end Sys2Proof.Machine
end

