-- ==== Sys2Proof/Machine/Jobs.lean ====
section
/-! DEFINITION. Jobs: submission, validation and start, the steps of the sequencing program, task
starts, and the work hierarchy with CANCEL and DONEQ (R157, R338 to R348). -/

namespace Sys2Proof.Machine

/-! ## Queues and jobs -/

def State.queue (s : State) (q : Nat) : Queue := (s.queues.find q).getD Queue.reset

def State.job (s : State) (j : Nat) : Job := s.jobs.get j

/-- The virtual address of a record of a queue (R348; log 23). -/
def Queue.recordVa (q : Queue) (ix : Nat) : Nat :=
  bits q.qbase 0 55 + 256 * (ix % 2 ^ (q.qlog + 1))

/-- A queue has work (R349). -/
def Queue.hasWork (q : Queue) : Bool := q.en && (q.qhead != q.qtail || !q.heads.isEmpty)

/-- Work comes to a queue: one at anchor without work arrives now (R349). -/
def Queue.arrive (q : Queue) (now : Nat) (f : Queue → Queue) : Queue :=
  let q' := f q
  match q.place with
  | .anchor _ => if !q.hasWork && q'.hasWork then { q' with place := .anchor now } else q'
  | .berth .. => q'

/-- The report of a job that is neither refused nor cancelled by a trap (R348). -/
def plainReport (outcome : Nat) : Word := word (outcome + 3 * 2 ^ 16)

/-- Write a job's report word (R348). -/
def State.writeReport (s : State) (j : Nat) (w : Word) : State :=
  let x := s.job j
  (s.readAllVirt x.ctx (x.record + 8 * 19)).virtWrite x.ctx (x.record + 8 * 19) (toBytes 8 w.toNat)

/-- A job is retired when its record is reused (R344, R348). -/
def State.retireRecord (s : State) (q va : Nat) : State :=
  let old := (s.jobs.filter fun j => j.2.queue = q && j.2.record = va && j.2.status.complete).map
    Prod.fst
  { s with
    jobs := s.jobs.filter fun j => !old.contains j.1
    runs := s.runs.filter fun r => !old.contains r.2.job }

/-- A job that has been submitted and not yet taken. -/
def Job.submitted (q va ctx : Nat) : Job where
  queue := q
  record := va
  ctx := ctx
  args := []
  image := 0
  taskbase := 0
  debug := false
  steps := []
  ntask := 0
  tasks := []
  graphs := []
  data := []
  trapslot := 0
  phase := 0
  threads := []
  starts := []
  runs := []
  phases := []
  status := ⟨false, false⟩
  report := 0

/-- The block of a record that holds the report and the job's number still has deferred readers: the device
writes it later (R295). -/
def State.recordBusy (s : State) (c va : Nat) : Bool := s.virtBusy c (va + 8 * 19)

/-- Submission of one record: the job's number and a pending report are written (R348). -/
def State.submit (s : State) (q ix : Nat) : State :=
  let x := s.queue q
  let va := x.recordVa ix
  let s := s.retireRecord q va
  let n := s.nextJob
  let s := { s with
    nextJob := if n + 1 ≥ 2 ^ 32 then 1 else n + 1
    jobs := s.jobs.put n (Job.submitted q va x.ctx) }
  (s.readAllVirt x.ctx (va + 8 * 19)).virtWrite x.ctx (va + 8 * 19)
    (toBytes 8 (plainReport 0).toNat ++ toBytes 8 n)

/-- A write of QTAIL submits the records before it (R348); before HM is ready it is ignored (R403). -/
def State.doorbell (s : State) (q tail : Nat) : State :=
  let x := s.queue q
  if !s.life.hmReady || q ≥ 4096 then s
  else
    let tail := tail % 65536
    let s := s.editQueue q fun y => y.arrive s.cycle fun z => { z with qtail := tail }
    if !x.en then s
    else (upTo ((tail + 65536 - x.qtail) % 65536)).foldl
      (fun (s : State) k => s.submit q (x.qtail + k)) s

/-- A record that a doorbell submits has deferred readers. -/
def State.doorbellBusy (s : State) (q tail : Nat) : Bool :=
  let x := s.queue q
  x.en && (upTo ((tail % 65536 + 65536 - x.qtail) % 65536)).any fun k =>
    s.recordBusy x.ctx (x.recordVa (x.qtail + k))

def execQueueDoorbell (q tail : Nat) (s : State) : Result :=
  .next (if s.doorbellBusy q tail then s else s.doorbell q tail)

/-! ## Threads, R340, R341 -/

def State.editThread (s : State) (j t : Nat) (f : Thread → Thread) : State :=
  s.editJob j fun x => { x with threads := x.threads.edit t f }

def Thread.start (step : Nat) : Thread := ⟨step, false, 0, .none, []⟩

/-- Start a thread at a step, or let the start wait while the job has 16 live threads (R341). -/
def State.startThread (s : State) (j step : Nat) : State :=
  if (s.job j).threads.length ≥ 16 then
    s.editJob j fun x => { x with starts := x.starts ++ [step] }
  else
    let (n, s) := s.takeId
    s.editJob j fun x => { x with threads := x.threads.put n (Thread.start step) }

/-- A thread ends, and a start that waited for it takes its place (R341). -/
def State.endThread (s : State) (j t : Nat) : State :=
  let s := s.editJob j fun x => { x with threads := x.threads.del t }
  match (s.job j).starts with
  | [] => s
  | step :: rest => (s.editJob j fun x => { x with starts := rest }).startThread j step

/-! ## Validation and start of a job, R338, R341, R342 -/

/-- The HBM DATA blocks of a job are written as completed writes (R341). -/
def State.writeData (s : State) (c : Nat) (d : DataBlk) : State :=
  let va := d.addr % 2 ^ 55
  match s.windowOffset c va, s.walkHome c va needWrite with
  | none, .ok a => ((s.readAll a).writeBlock a d.fmt d.scale d.payload).wake a
  | _, _ => s

/-- The task word that task `n` starts with (R342). -/
def firstTaskWord (n count : Nat) : Nat := mkTask n count (count != 0) false

/-- A task word is written at the start of its job (R342). -/
def State.writeTask (s : State) (x : Job) (n count : Nat) : State :=
  (s.readAllVirt x.ctx (x.taskbase + 8 * n)).virtWrite x.ctx (x.taskbase + 8 * n)
    (toBytes 8 (firstTaskWord n count))

/-- DATA blocks and task words are written and the first threads start (R341, R342). -/
def State.startJob (s : State) (j : Nat) (l : Loaded) : State :=
  let (steps, ntask, tasks, graphs, data, trapslot) := l
  let s := s.editJob j fun x =>
    { x with
      steps := steps
      ntask := ntask
      tasks := tasks
      graphs := graphs
      data := data
      trapslot := trapslot
      phase := 1
      phases := [(1, ⟨false, false⟩)] }
  let x := s.job j
  let s := data.foldl (fun (s : State) d => s.writeData x.ctx d) s
  let s := tasks.zipIdx.foldl (fun (s : State) t => s.writeTask x t.2 t.1.2) s
  let s := s.startThread j 0
  tasks.foldl (fun (s : State) t => if t.2 = 0 then s.startThread j t.1 else s) s

/-- A task word or a DATA block of a job still has deferred readers. -/
def State.startBusy (s : State) (c taskbase : Nat) (l : Loaded) : Bool :=
  let (_, _, tasks, _, data, _) := l
  ((upTo tasks.length).any fun n => s.virtBusy c (taskbase + 8 * n)) ||
    data.any fun d => s.virtBusy c (d.addr % 2 ^ 55)

/-- A job ends without having run (R338, R346). -/
def State.endUnrun (s : State) (j : Nat) (report : Word) : State :=
  (s.editJob j fun x => { x with status := { x.status with complete := true }, report := report })
    |>.writeReport j report

/-- The job has been cancelled before it was taken, and its record is still in the queue. -/
def Job.cancelledUntaken (x : Job) : Bool := x.status.cancelled && x.phase = 0 && x.steps.isEmpty

/-- The job of a record that is not retired or complete, or that was cancelled before it was taken; one
submitted while the queue was disabled is given its number now. -/
def State.jobAt (s : State) (q ix : Nat) : Nat × State :=
  let va := (s.queue q).recordVa ix
  match s.jobs.find? fun j =>
      j.2.queue = q && j.2.record = va && (!j.2.status.complete || j.2.cancelledUntaken) with
  | some j => (j.1, s)
  | none => (s.nextJob, s.submit q ix)

/-- The job at the head of a queue is taken, validated, and refused or started; one that was cancelled before
is passed over (R338, R341, R346). -/
def State.takeJob (s : State) (q : Nat) : State :=
  let x := s.queue q
  let va := x.recordVa x.qhead
  let before := s
  let (j, s) := s.jobAt q x.qhead
  let s := s.editQueue q fun y => { y with qhead := (y.qhead + 1) % 65536 }
  if (s.job j).status.cancelled then s.editJob j fun y => { y with phase := 1 }
  else match s.virtRead x.ctx va 256 with
    | none => s.endUnrun j (refusedImage 0x01)
    | some rec_ =>
      let w (k : Nat) : Nat := numAt rec_ (8 * k) 8
      match s.validate x.ctx x.die (w 16 % 2 ^ 55) x.signed with
      | .error r => s.endUnrun j r
      | .ok l =>
        if before.startBusy x.ctx (w 17 % 2 ^ 55) l then before
        else
        let s := s.editJob j fun y =>
          { y with
            args := (upTo 16).map fun k => word (w k)
            image := w 16
            taskbase := w 17 % 2 ^ 55
            debug := nbit (w 18) 0 }
        (s.editQueue q fun y => { y with job := some j }).startJob j l

/-- A queue's next job is validated when no other of it is current (R338). -/
def execJobValidate (q : Nat) (s : State) : Result :=
  .next (
    let x := s.queue q
    if !s.life.hmReady || !x.en || x.job.isSome || x.qhead = x.qtail ||
        (s.ctx x.ctx).state != .live || s.recordBusy x.ctx (x.recordVa x.qhead) then s
    else s.takeJob q)

/-! ## The steps, R340 -/

/-- Execute for the thread in focus. -/
def onThread (s : State) (k : State → Nat → Nat → Thread → State) : Result :=
  match s.focus with
  | .thread j t =>
    match (s.job j).threads.find t with
    | some th => .next (k s.idle j t th)
    | none => .next s.idle
  | _ => .fault .noAgent

/-- The element of the image's trap slot in runs of a graph (R164, R337). -/
def trapElemOf (trapslot : Word) (graph : Nat) : Option Nat :=
  if trapslot.getLsbD 31 && bits trapslot 15 8 = graph then
    some (keyOf (bits trapslot 23 8) (bits trapslot 11 4) (bits trapslot 5 6))
  else none

/-- The runs of a phase of a job, the second copies of redundant graphs apart (R344, R399). -/
def State.phaseRuns (s : State) (j p : Nat) : List (Nat × Run) :=
  s.runs.filter fun r => r.2.job = j && r.2.phase = p && !r.2.copyB

/-- A run as its RUN creates it, waiting for admission. -/
def Job.newRun (x : Job) (j g nth now : Nat) : Run :=
  { (default : Run) with
    job := j
    graph := g
    phase := x.phase
    nth := nth
    ctx := x.ctx
    age := now
    state := .waiting
    plan := (x.graphs[g]?).getD default
    args := x.args
    debug := x.debug
    trapElem := trapElemOf x.trapslot g
    trapSlot := bits x.trapslot 0 5
    trapRegs := ⟨false, 0, 0, 0, 0, 0, 0⟩ }

/-- RUN: request admission of a graph in the job's current phase. -/
def State.requestRun (s : State) (j g : Nat) : Nat × State :=
  let x := s.job j
  let (n, s) := s.takeId
  let nth := (s.phaseRuns j x.phase).length + 1
  let s := { s with runs := s.runs.put n (x.newRun j g nth s.cycle) }
  let s := s.editJob j fun y => { y with runs := y.runs ++ [n] }
  (n, s.editQueue x.queue fun q => q.arrive s.cycle fun z => { z with heads := z.heads ++ [⟨n, 0, false⟩] })

def execSeqEnd (s : State) : Result := onThread s fun s j t _ => s.endThread j t

def execSeqRun (graph : BitVec 8) (s : State) : Result :=
  onThread s fun s j t th =>
    let (n, s) := s.requestRun j graph.toNat
    s.editThread j t fun _ =>
      { th with step := th.step + 1, wait := .run n, runs := th.runs.put graph.toNat n }

/-- A graph is complete when every launch of it is, those of its second copy too (R344, R399). -/
def State.graphDone (s : State) (r : Nat) : Bool :=
  let x := s.run r
  x.state == .complete && match x.twin with
    | some b => (s.run b).state == .complete
    | none => true

/-- A graph was cancelled: some launch of it was. -/
def State.graphCancelled (s : State) (r : Nat) : Bool :=
  let x := s.run r
  x.cancelled || match x.twin with
    | some b => (s.run b).cancelled
    | none => false

/-- A thread goes on after a wait, with LAST. -/
def Thread.goOn (th : Thread) (last : Bool) : Thread :=
  { th with step := th.step + 1, last := last, wait := .none }

def execSeqWait (graph : BitVec 8) (s : State) : Result :=
  onThread s fun s j t th =>
    match th.runs.find graph.toNat with
    | none => s.editThread j t fun _ => th.goOn false
    | some r =>
      if s.graphDone r then s.editThread j t fun _ => th.goOn (s.graphCancelled r)
      else s.editThread j t fun _ => { th with wait := .wait r }

/-- Every graph of a phase is complete. -/
def State.phaseGraphsDone (s : State) (j p : Nat) : Bool :=
  (s.phaseRuns j p).all fun r => s.graphDone r.1

def State.phaseCancelled (s : State) (j p : Nat) : Bool :=
  (s.phaseRuns j p).any fun r => s.graphCancelled r.1

/-- PHASE is over for a thread: the phase number moves on unless another thread has moved it. -/
def State.passPhase (s : State) (j t p : Nat) (th : Thread) : State :=
  let last := s.phaseCancelled j p
  let s := s.editThread j t fun _ => th.goOn last
  s.editJob j fun x =>
    if x.phase = p then
      { x with phase := p + 1, phases := x.phases.put (p + 1) ⟨false, false⟩ }
    else x

def execSeqPhase (s : State) : Result :=
  onThread s fun s j t th =>
    let p := (s.job j).phase
    if s.phaseGraphsDone j p then s.passPhase j t p th
    else s.editThread j t fun _ => { th with wait := .phase p }

def SeqCond.holds (c : SeqCond) (last : Bool) : Bool :=
  match c with
  | .always => true
  | .cancelled => last
  | .normal => !last

def execSeqBranch (cond : SeqCond) (target : BitVec 16) (s : State) : Result :=
  onThread s fun s j t th =>
    s.editThread j t fun _ =>
      { th with step := if SeqCond.holds cond th.last then target.toNat else th.step + 1 }

def execSeqLoop (n : BitVec 32) (target : BitVec 16) (s : State) : Result :=
  onThread s fun s j t th =>
    let c := (if th.ctr = 0 then n.toNat else th.ctr) - 1
    s.editThread j t fun _ =>
      { th with ctr := c, step := if c > 0 then target.toNat else th.step + 1 }

/-- The run has started, or will never start. -/
def Run.hasStarted (x : Run) : Bool :=
  match x.state with
  | .waiting | .loading => false
  | _ => true

def execSeqThreadResume (j t : Nat) (s : State) : Result :=
  .next (match (s.job j).threads.find t with
    | none => s
    | some th =>
      match th.wait with
      | .none => s
      | .run r => if (s.run r).hasStarted then s.editThread j t fun _ => { th with wait := .none } else s
      | .wait r =>
        if s.graphDone r then s.editThread j t fun _ => th.goOn (s.graphCancelled r) else s
      | .phase p => if s.phaseGraphsDone j p then s.passPhase j t p th else s)

/-! ## Tasks, R343 -/

/-- The live job whose task table holds the task word of a home address. -/
def State.taskJob (s : State) (home : Nat) : Option (Nat × Job) :=
  s.jobs.find? fun j =>
    !j.2.status.complete && !j.2.status.cancelled && (upTo j.2.ntask).any fun n =>
      match s.walkHome j.2.ctx (j.2.taskbase + 8 * n) needBoth with
      | .ok a => a = home
      | .error _ => false

/-- The harbourmaster starts the thread of a task whose count reached zero (R343). -/
def execTaskStart (k : Nat) (s : State) : Result :=
  .next (match s.pendingStarts[k]? with
    | none => s
    | some (home, task) =>
      let s := { s with pendingStarts := s.pendingStarts.eraseIdx k }
      match s.taskJob home with
      | none => s
      | some (j, x) =>
        match x.tasks[task]? with
        | some e => s.startThread j e.1
        | none => s)

/-! ## Completion of items, R344 -/

/-- A firing of a part of a run. -/
def Firing.inPart (f : Firing) (r p : Nat) : Bool := f.run = r && partOf f.elem = p

/-- A far request of a part's firings or commands awaits its reply. -/
def State.farIn (s : State) (r p : Nat) : Bool :=
  let x := s.run r
  let fs := (s.ctx x.ctx).far
  let mine (q : Nat) (f : Option (Firing × Out)) : Bool :=
    (match f with
      | some (g, _) => g.inPart r p
      | none => false) || match x.cmds.find q with
      | some c => partOf c.elem = p
      | none => false
  (fs.outstanding.any fun q => mine q.req q.firing) || (fs.refused.any fun q => mine q.req q.firing) ||
    fs.waiting.any fun w => mine w.2.req w.2.firing

/-- No token of a part is in flight, waiting or held, no activation is open and nothing is parked
(R344). -/
def Elem.quiet (e : Elem) : Bool :=
  e.waiting.isEmpty && (e.acts.all fun a => a.committed) && e.parked.isEmpty && e.waitts.isEmpty &&
    e.throttled.isEmpty && e.helds.isEmpty && e.spillHeld.isEmpty

/-- Beats of a second copy that the first copy's comparator, running or frozen, has still to take (R399;
log 27). -/
def State.comparing (s : State) (x : Run) : Bool :=
  x.copyB && (match x.twin with
    | some a => (s.run a).state != .complete
    | none => false) &&
    x.strands.any fun st => st.2.cmp &&
      (!st.2.ready.isEmpty || st.2.branches.any fun b => !b.beats.isEmpty)

/-- Nothing of a launch moves any more (R344). -/
def State.settled (s : State) (r p : Nat) : Bool :=
  let x := s.run r
  x.state == .running && !x.halted &&
    (s.flits.all fun f => f.2.run != r || (partOf f.2.dst != p && partOf f.2.src != p)) &&
    (x.elems.all fun e => partOf e.1 != p || e.2.quiet) &&
    (x.cmds.all fun c => partOf c.2.elem != p) &&
    (s.reqs.all fun q => !q.2.firing.inPart r p) &&
    (s.walks.all fun w => !w.2.firing.inPart r p) &&
    ((s.ctx x.ctx).waiting.all fun w => !w.firing.inPart r p) &&
    (s.waves.all fun w => w.2.run != r) &&
    (s.agenda.all fun h => match h.2 with
      | .refire f => !f.inPart r p
      | _ => true) &&
    !s.farIn r p

/-- Every launch of both copies of a redundant graph has settled or has ended: no comparison can start the copies
again, and until then none of their launches completes by itself (R344, R400; DESIGN CHOICE, log 105). -/
def State.copiesSettled (s : State) (r : Nat) : Bool :=
  match (s.run r).twin with
  | none => true
  | some t => [r, t].all fun k => (s.run k).parts.zipIdx.all fun p =>
      p.1.done || p.1.cancelled || s.settled k p.2

/-- A launch is quiescent (R344). -/
def State.quiescent (s : State) (r p : Nat) : Bool :=
  s.settled r p && s.copiesSettled r && !s.comparing (s.run r)

/-- The beats held at the ends in a part are discarded with its completion (R344). -/
def Strand.discardAt (st : Strand) (p : Nat) : Strand :=
  { st with branches := st.branches.map fun b => if partOf b.elem = p then { b with beats := [] } else b }

/-- What a run keeps of a part whose planes have been cleared (R64).  A strand cut across dies stays while
another part with an end of it runs: the beats there are that part's to take (R344). -/
def Run.dropPart (x : Run) (p : Nat) : Run :=
  let away (k : Nat) : Bool := partOf k != p
  let runs (k : Nat) : Bool := away k && !(x.part (partOf k)).done
  { x with
    elems := x.elems.filter fun e => away e.1
    frames := x.frames.filter fun e => away e.1
    tiles := x.tiles.filter fun e => away e.1
    samplers := x.samplers.filter fun e => away e.1
    projs := x.projs.filter fun e => away e.1
    seams := x.seams.filter fun e => away e.1
    ports := x.ports.filter fun e => away e.1
    strands := (x.strands.filter fun e => runs e.2.elem || e.2.branches.any fun b => runs b.elem).map fun e =>
      (e.1, e.2.discardAt p)
    cmds := x.cmds.filter fun e => away e.2.elem }

/-- The request of a run for admission or restore is withdrawn. -/
def State.withdraw (s : State) (r : Nat) : State :=
  { s with queues := s.queues.map fun q =>
      (q.1, { q.2 with heads := q.2.heads.filter fun h => h.run != r }) }

/-- A launch is complete: its planes are cleared and its clusters are free (R64, R344); with the last launch of a
frozen graph its request for restore goes (R349, R365). -/
def State.completeLaunch (s : State) (r p : Nat) : State :=
  let s := s.clearRange (tileHome r p 0 0 0) (tileHome r (p + 1) 0 0 0)
  let s := s.editRun r fun x => (x.dropPart p).editPart p fun q => { q with done := true }
  if (s.run r).state == .frozen && (s.run r).parts.all fun q => q.done then s.withdraw r else s

/-- The home address by which requests to the harbourmaster are known; no memory has it. -/
def harbourHome : Nat := 2 ^ 63

/-- A cancelled launch has stopped: its commands have run out, its committed writes are performed and its far
requests answered, so that its completion is a release of them (R346, R347). -/
def State.stopped (s : State) (r p : Nat) : Bool :=
  let x := s.run r
  (x.part p).cancelled && x.state != .waiting && (x.cmds.all fun c => partOf c.2.elem != p) &&
    (s.reqs.all fun q => !q.2.firing.inPart r p || q.2.home = harbourHome) && !s.farIn r p

/-- The report of a trap that cancelled a launch of the run's job, where its job has not completed and the
report is to be written (R348). -/
def State.trapReportDue (s : State) (r : Nat) : Option (Nat × Job) :=
  let j := (s.run r).job
  let x := s.job j
  if x.report != 0 && !x.status.complete then some (j, x) else none

/-- A launch may complete: it is quiescent, or it was cancelled and has stopped (R344, R346); the report
that its completion writes waits for the readers of its block. -/
def State.launchReady (s : State) (r p : Nat) : Bool :=
  let x := s.run r
  p < x.parts.length && !(x.part p).done && (s.quiescent r p || s.stopped r p) &&
    match s.trapReportDue r with
    | some (_, y) => !s.recordBusy y.ctx y.record
    | none => true

/-- A launch completes; a trap that cancelled one of its job is reported with release, whether or not the
job goes on to complete (R344, R348). -/
def State.launchDone (s : State) (r p : Nat) : State :=
  match s.trapReportDue r with
  | some (j, y) => (s.completeLaunch r p).writeReport j y.report
  | none => s.completeLaunch r p

/-- An item is complete (R344, R347). -/
def State.itemDone (s : State) (i : ItemRef) : Bool :=
  match i with
  | .launch r p => ((s.run r).part p).done || (s.run r).state == .complete
  | .graph r => s.graphDone r
  | .phase j p => ((s.job j).phases.get p).complete
  | .job j => (s.job j).status.complete

/-- The completion tokens of the CANCELs whose item is complete are sent (R346). -/
def State.releaseCancels (s : State) : State :=
  let due := s.cancelWaits.filter fun w => s.itemDone w.item
  let s := { s with cancelWaits := s.cancelWaits.filter fun w => !s.itemDone w.item }
  due.foldl (fun (s : State) w => match s.reqs.find w.req with
    | some q => s.reply w.req q (Tok.data 0) 0
    | none => s) s

/-- Every graph of a job is complete and every thread has ended (R341); its report can be written. -/
def State.jobReady (s : State) (j : Nat) : Bool :=
  let x := s.job j
  !x.status.complete && !x.steps.isEmpty && x.threads.isEmpty && x.starts.isEmpty &&
    (x.runs.all fun r => (s.run r).state == .complete) && !s.recordBusy x.ctx x.record

/-- The report of a job that has run (R348). -/
def Job.finalReport (x : Job) : Word :=
  if x.report != 0 then x.report else plainReport (if x.status.cancelled then 2 else 1)

/-- A job is complete: its report is written and its queue goes on (R341, R348). -/
def State.completeJob (s : State) (j : Nat) : State :=
  let x := s.job j
  let s := s.editJob j fun y => { y with status := { y.status with complete := true } }
  let s := s.writeReport j x.finalReport
  s.editQueue x.queue fun q => if q.job = some j then { q with job := none } else q

/-- A phase is complete: its graphs are, and its number has moved on, its job has completed, or it was
cancelled (R344, R346). -/
def State.phaseReady (s : State) (j p : Nat) : Bool :=
  let x := s.job j
  (x.phases.find p).isSome && s.phaseGraphsDone j p &&
    (x.phase > p || x.status.complete || (x.phases.get p).cancelled)

/-- The completion of a phase is recorded. -/
def State.completePhase (s : State) (j p : Nat) : State :=
  s.editJob j fun y => { y with
    phases := y.phases.put p ⟨true, (y.phases.get p).cancelled || s.phaseCancelled j p⟩ }

def execItemCompletion (i : ItemRef) (s : State) : Result :=
  .next (State.releaseCancels (match i with
    | .launch r p => if s.launchReady r p then s.launchDone r p else s
    | .graph r =>
      let x := s.run r
      if (x.state == .running || x.state == .loading || x.state == .frozen) &&
          x.parts.all fun q => q.done then
        s.editRun r fun y => { y with state := .complete, freeze := none }
      else s
    | .phase j p => if s.phaseReady j p then s.completePhase j p else s
    | .job j => if s.jobReady j then s.completeJob j else s))

/-! ## CANCEL and DONEQ, R345 to R347 -/

/-- The fields of an id word below a level (R345). -/
def idBelow (w : Word) (level : Nat) : Bool :=
  match level with
  | 4 => bits w 0 32 != 0
  | 3 => bits w 0 20 != 0
  | 2 => bits w 0 8 != 0
  | _ => false

/-- The item that an id word names at a level, as seen from a firing (R345). -/
def State.findItem (s : State) (f : Firing) (w : Word) (level : Nat) : Option ItemRef :=
  let x := s.run f.run
  let j := if bits w 32 32 = 0 then x.job else bits w 32 32
  let p := if bits w 20 12 = 0 then x.phase else bits w 20 12
  let g := if bits w 8 12 = 0 then x.nth else bits w 8 12
  let k := if bits w 0 8 = 0 then partOf f.elem else bits w 0 8 - 1
  if level = 0 || level > 4 || idBelow w level then none
  else match s.jobs.find j with
    | none => none
    | some y =>
      if y.ctx != x.ctx then none
      else if level = 4 then some (.job j)
      else if (y.phases.find p).isNone then none
      else if level = 3 then some (.phase j p)
      else
        -- the firing's own graph, in the copy that the firing belongs to
        let own := bits w 8 12 = 0 && j = x.job && p = x.phase && level = 1
        match (if own then some (f.run, x) else (s.phaseRuns j p).find? fun r => r.2.nth = g) with
        | none => none
        | some r =>
          if level = 2 then some (.graph r.1)
          else if k < r.2.parts.length then some (.launch r.1 k)
          else none

/-- Every launch of a run is cancelled between the two start phases: its reservations are released and no
token is injected (R353). -/
def State.cancelLoading (s : State) (r : Nat) : State :=
  (upTo (s.run r).parts.length).foldl
    (fun (s : State) p => (s.cancelPart r p).completeLaunch r p) s

/-- Cancel one launch; one that is quiescent has completed first (R346, R347).  Between the start phases every
launch of the graph goes, in both copies (R353); a frozen one completes at once (R365). -/
def State.cancelLaunch (s : State) (r p : Nat) : State :=
  let x := s.run r
  if (x.part p).done then s
  else if s.quiescent r p then s.completeLaunch r p
  else match x.state with
    | .loading =>
      let s := s.cancelLoading r
      match x.twin with
      | some b => if (s.run b).state == .loading then s.cancelLoading b else s
      | none => s
    | .frozen => (s.cancelPart r p).completeLaunch r p
    | _ => s.cancelPart r p

/-- Cancel the launches of one run; a RUN that still waits is withdrawn (R346). -/
def State.cancelRun (s : State) (r : Nat) : State :=
  let x := s.run r
  match x.state with
  | .complete => s
  | .waiting =>
    (s.withdraw r).editRun r fun y => { y with state := .complete, cancelled := true }
  | _ =>
    let s := if x.state == .frozen then s.withdraw r else s
    (upTo x.parts.length).foldl (fun (s : State) p => s.cancelLaunch r p) s

/-- Cancel a graph with its second copy. -/
def State.cancelGraph (s : State) (r : Nat) : State :=
  let twin := (s.run r).twin
  let s := s.cancelRun r
  match twin with
  | some b => s.cancelRun b
  | none => s

/-- Cancel a job: its threads end and its graphs are cancelled (R346).  One that is ready has completed first
(R347), and one that has not been taken completes at once. -/
def State.cancelJob (s : State) (j : Nat) : State :=
  let x := s.job j
  if x.status.complete then s
  else if s.jobReady j then s.completeJob j
  else if x.steps.isEmpty then
    (s.editJob j fun y => { y with status := { y.status with cancelled := true } }).endUnrun j
      (plainReport 2)
  else
    let s := s.editJob j fun y =>
      { y with threads := [], starts := [], status := { y.status with cancelled := true } }
    x.runs.foldl (fun (s : State) r => s.cancelRun r) s

/-- Cancel a phase and its graphs; one that is ready has completed first (R346, R347). -/
def State.cancelPhase (s : State) (j p : Nat) : State :=
  if s.phaseReady j p then s.completePhase j p
  else
    let s := s.editJob j fun y =>
      { y with phases := y.phases.edit p fun z => { z with cancelled := true } }
    (s.phaseRuns j p).foldl (fun (s : State) r => s.cancelGraph r.1) s

/-- Cancel an item and every item below it (R346). -/
def State.cancelItem (s : State) (i : ItemRef) : State :=
  match i with
  | .launch r p => s.cancelLaunch r p
  | .graph r => s.cancelGraph r
  | .phase j p => s.cancelPhase j p
  | .job j => s.cancelJob j

/-- What the harbourmaster does with a CANCEL or DONEQ (R345 to R347). -/
def State.jobRequest (s : State) (n : Nat) (q : Req) : State :=
  match s.findItem q.firing (word q.ea) (bits q.data 0 3) with
  | none => s.reply n q (Tok.data (if q.op = .doneq then 1 else 0)) 0
  | some i =>
    if q.op = .doneq then s.reply n q (Tok.data (if s.itemDone i then 1 else 0)) 0
    else if s.itemDone i then s.reply n q (Tok.data 0) 0
    else
      let s := (s.cancelItem i)
      { s with
        reqs := s.reqs.edit n fun p => { p with state := .held }
        cancelWaits := s.cancelWaits ++ [⟨i, n⟩] }

/-- CANCEL is a buffered write to the harbourmaster: its effective address is the id word, its
operand the level (R157, R345, R346). -/
def execCancel (o : Out) (lsid : BitVec 5) (ord : Option Scope) (s : State) : Result :=
  onFiring s fun s f =>
    match s.findItem f f.lv (bits f.rv 0 3) with
    | none => s.park f 0x01 f.lv
    | some _ => s.bufferWrite f o .cancel f.lv.toNat harbourHome 0 f.rv lsid.toNat ord

def execDoneq (o : Out) (lsid : BitVec 5) (ord : Option Scope) (s : State) : Result :=
  onFiring s fun s f =>
    match s.findItem f f.lv (bits f.rv 0 3) with
    | none => s.park f 0x01 f.lv
    | some _ => s.issueRead f o .doneq f.lv.toNat harbourHome 0 f.rv 0 lsid.toNat ord

/-! ## The ports of homes, R274, R275, R282, R300 -/

/-- A request that its tile performs is taken by the tile's port, after those of the strands and the lighter
of its cycle (R274). -/
def State.tileRequest (s : State) (n : Nat) : State :=
  match s.reqs.find n with
  | some q =>
    if s.mayPerform n q && atTile q.home then
      (s.serveHome q.home networkRank).homeEvent n atTile State.jobRequest
    else s
  | none => s

/-- The tile's port performs a request for one of its blocks (R274). -/
def execTilePortRequest (w : PortWork) (s : State) : Result :=
  .next (match w with
    | .pending n => s.tileRequest n
    | _ => s)

/-- A home that a quay, or the harbourmaster, serves. -/
def atQuay (a : Nat) : Bool := !isTileHome a

/-- The quays and the stack of a die are ready (R404). -/
def DieSt.quaysReady (d : DieSt) : Bool := d.ready && d.hbmReady

/-- The die of a home address is ready and awake (R404, R407). -/
def State.awake (s : State) (a : Nat) : Bool :=
  let d := s.dies.get (homeDie a)
  isAppHome a || (d.quaysReady && d.power = 0)

/-- A request or an access from outside the device's launches has come to a home of a sleeping die, which is to
wake (R407). -/
def State.callDie (s : State) (a : Nat) : State :=
  s.editDie (homeDie a) fun d => { d with called := d.called || d.power != 0 }

/-- A quay performs a request for one of its blocks, or an access of an application core (R275,
R300); a sleeping die wakes first (R407). -/
def execQuayRequest (w : PortWork) (s : State) : Result :=
  .next (match w with
    | .pending n => s.homeEvent n (fun a => atQuay a && s.awake a) State.jobRequest
    | .coreRead a _ => if s.awake a then s else s.callDie a
    | .coreWrite a bs => if s.awake a then s.coreWrite a bs else s.callDie a)

end Sys2Proof.Machine
end

