-- ==== Sys2Proof/Machine/Freeze.lean ====
section
/-! DEFINITION. The freeze wave, the parking and reading out of a launch, and its restore:
FREEZE_WAVE, FREEZE_COMPLETE, PLANE_SWITCH and LAUNCH_RESTORE (R351, R358 to R365, R398). -/

namespace Sys2Proof.Machine

/-! ## The save area, R356, R363 -/

/-- Write bytes at a virtual address, block by block. -/
def virtWriteFrom (s : State) (c : Nat) : Nat → Nat → List Byte → State
  | 0, _, _ => s
  | fuel + 1, va, bs =>
    match bs with
    | [] => s
    | _ =>
      let k := 64 - va % 64
      virtWriteFrom (s.virtWrite c va (bs.take k)) c fuel (va + k) (bs.drop k)

def State.virtWriteAll (s : State) (c va : Nat) (bs : List Byte) : State :=
  virtWriteFrom s c (bs.length / 64 + 2) va bs

/-- The bytes kept at the start of the save area for the save record (log 11). -/
def recordRoom : Nat := 65536

/-- The device's writes of `n` bytes at a virtual address wait for the LDVs of their blocks (R295). -/
def State.rangeBusy (s : State) (c va n : Nat) : Bool :=
  (upTo (n / 64 + 2)).any fun k => s.virtBusy c (va + 64 * k)

/-- The blocks of a run's tiles that are not as at reset, by their place in the run's tiles, with their side
bands (R42, R363). -/
def State.tileBlocks (s : State) (r : Nat) : List (Nat × List Byte × Side) :=
  let lo := tileHome r 0 0 0 0
  let hi := tileHome (r + 1) 0 0 0 0
  let cells := (s.mem.filter fun c => lo ≤ c.1 && c.1 < hi).map fun c => blockIx c.1
  let sides := (s.side.filter fun e => blockIx lo ≤ e.1 && e.1 < blockIx hi).map Prod.fst
  (cells ++ sides).eraseDups.map fun k => (64 * k - lo, s.bytes (64 * k) 64, s.sideOf (64 * k))

/-- MAGIC of a frozen image (R363). -/
def imageMagic : Nat := 0x5A524653

/-- The frozen image of a run: at most 4,718,592 bytes for each cluster (R363). -/
def State.image (s : State) (r : Nat) : List Byte :=
  let x := s.run r
  (toBytes 4 imageMagic ++ Config.frozenImage x (s.tileBlocks r)
    (s.reqs.filter fun q => q.2.firing.run = r) (s.waves.filter fun w => w.2.run = r)
    ((s.ctx x.ctx).waiting.filter fun w => w.firing.run = r)).take
    (4718592 * (x.parts.foldl (fun n p => n + p.w * p.h) 0))

/-- The first free byte of a context's save area. -/
def State.saveEnd (s : State) (c : Nat) : Nat :=
  s.runs.foldl (fun n r =>
    if r.2.ctx = c && r.2.out then max n (r.2.saveAt + r.2.saveLen) else n) recordRoom

/-- The address of the next frozen image of a context. -/
def State.saveNext (s : State) (c : Nat) : Nat := bits (s.ctx c).savebase 0 55 + s.saveEnd c

def Run.setParts (x : Run) (st : PartState) : Run :=
  { x with parts := x.parts.map fun p => if p.done then p else { p with state := st } }

/-- Pass values and VT are not saved (R239, R363). -/
def Elem.unsaved (e : Elem) : Elem :=
  { e with pass := List.replicate 32 0, vt := 0, hadCand := 0 }

/-- The image of a run waits for the LDVs that read the blocks it is written to (R295). -/
def State.imageBusy (s : State) (r : Nat) : Bool :=
  s.rangeBusy (s.run r).ctx (s.saveNext (s.run r).ctx) (s.image r).length

/-- Read a parked launch out into the save area; one that does not fit stays parked (R363). -/
def State.freezeOut (s : State) (r : Nat) : State :=
  let x := s.run r
  let c := s.ctx x.ctx
  let at_ := s.saveEnd x.ctx
  let bs := s.image r
  if s.imageBusy r then s
  else if at_ + bs.length > c.savesize.toNat then s.editRun r fun y => y.setParts .tooSmall
  else
    let s := s.virtWriteAll x.ctx (s.saveNext x.ctx) bs
    s.editRun r fun y =>
      { y.setParts .frozenOut with
        saveAt := at_
        saveLen := bs.length
        elems := y.elems.map fun e => (e.1, e.2.unsaved) }

/-! ## FREEZE_WAVE, R361, R398 -/

/-- A kill or purge wave of a run has places still to reach. -/
def State.purging (s : State) (r : Nat) : Bool :=
  s.waves.any fun w => w.2.run = r && !w.2.todo.isEmpty

/-- The ordered freeze of a run starts: a purge wave completes first (R398), and the sources have
been injected (R365). -/
def execFreezeWave (r : Nat) (s : State) : Result :=
  .next (
    let x := s.run r
    match x.freeze with
    | some ⟨none, out, command⟩ =>
      if x.state != .running || s.purging r then s
      else s.editRun r fun y => { y with freeze := some ⟨some s.cycle, out, command⟩ }
    | _ => s)

/-! ## FREEZE_COMPLETE, R361 to R363 -/

/-- Every site of a run has halted (R361). -/
def Run.allHalted (x : Run) (now start : Nat) : Bool :=
  x.parts.all fun p => now ≥ start + 8 * p.w + 8 * p.h - 2

/-- Every lighter copy of a run has completed (R361). -/
def Run.copiesDone (x : Run) : Bool :=
  x.cmds.all fun c => siteKind (siteOf c.2.elem) != .lighter || !c.2.started

/-- A request is on its way to its home or read there: its order has let it go (R361). -/
def State.unanswered (s : State) (n : Nat) (q : Req) : Bool :=
  !isFarHome q.home && (q.state == .satisfied || (q.state == .pending &&
    s.onItsWay n q &&
    !(q.op.isRead && s.engineOwned q.home)))

/-- What the freeze waits for is done (R361): links empty, requests answered or still to be issued, walks
and firings over; far requests are kept on their list (R362), and a replay follows the restore (R398). -/
def State.freezeReady (s : State) (r start : Nat) : Bool :=
  let x := s.run r
  x.allHalted s.cycle start && x.copiesDone &&
    (s.flits.all fun f => f.2.run != r) &&
    (s.reqs.all fun q => q.2.firing.run != r || !s.unanswered q.1 q.2) &&
    (s.walks.all fun w => w.2.firing.run != r) &&
    (s.waves.all fun w => w.2.run != r || (w.2.todo.isEmpty && w.2.replay.isSome)) &&
    s.agenda.all fun h => match h.2 with
      | .refire f => f.run != r
      | _ => true

/-- The open activations keep their ages, and the waiting tokens theirs (R363): while the launch is frozen,
`opened` and `at_` hold ages.  Every site has been idle. -/
def Elem.freezeAges (e : Elem) (now : Nat) : Elem :=
  { e with
    acts := e.acts.map fun a => { a with opened := now - a.opened }
    waiting := e.waiting.map fun w => { w with at_ := now - w.at_ }
    lastSelect := none
    quarter := none
    before := [] }

/-- A held LDV of the run is saved as unissued (R362). -/
def withdrawHeld (r : Nat) (q : Req) : Req :=
  if q.firing.run = r && q.state == .held && q.op = .ldv then { q with state := .pending, extra := 0 } else q

/-- The launch stands parked in its planes. -/
def State.parkRun (s : State) (r : Nat) : State :=
  let reqs : Tbl Req := s.reqs.map fun q => (q.1, withdrawHeld r q.2)
  let elems : Tbl Elem := (s.run r).elems.map fun e => (e.1, e.2.freezeAges s.cycle)
  State.editRun { s with reqs := reqs } r fun x =>
    { x.setParts .parked with state := .frozen, freeze := none, elems := elems }

/-- The run waits at a breakpoint for system software (R162). -/
def Run.atBreak (x : Run) : Bool := x.elems.any fun e => e.2.parked.any fun p => p.cause = brkMark

/-- A launch that pre-emption froze is queued at the front of its queue, with its age (R351). -/
def State.queueRestore (s : State) (r : Nat) : State :=
  let x := s.run r
  s.editQueue (s.job x.job).queue fun q => q.arrive s.cycle fun z =>
    { z with heads := ⟨r, 0, true⟩ :: z.heads }

def execFreezeComplete (r : Nat) (out : Bool) (s : State) : Result :=
  .next (
    let x := s.run r
    match x.freeze with
    | some ⟨some t, o, command⟩ =>
      if o != out || !s.freezeReady r t then s
      else
        let t := s.parkRun r
        if out && t.imageBusy r then s
        else
          let t := if out then t.freezeOut r else t
          if !command && !x.atBreak then t.queueRestore r else t
    | _ => s)

/-! ## Resuming, R360, R362, R364 -/

/-- The ages go on (R363). -/
def Elem.thawAges (e : Elem) (now : Nat) : Elem :=
  { e with
    acts := e.acts.map fun a => { a with opened := now - a.opened }
    waiting := e.waiting.map fun w => { w with at_ := now - w.at_ } }

/-- A BAR whose generation has ended while its launch was frozen is released (R362). -/
def State.thawBars (s : State) (r : Nat) : State :=
  s.reqs.foldl (fun (s : State) q =>
    match q.2.state with
    | .arrived g =>
      let now := nbits (s.num q.2.home 8) 48 16
      if q.2.firing.run = r && now != g then s.reply q.1 q.2 (Tok.data (word now)) 0 else s
    | _ => s) s

/-- Firings parked at BRK emit their left tokens (R162). -/
def State.thawBreaks (s : State) (r : Nat) : State :=
  (s.run r).elems.foldl (fun (s : State) e =>
    let ps := e.2.parked.filter fun p => p.cause = brkMark
    let s := s.editElem r e.1 fun y => { y with parked := y.parked.filter fun p => p.cause != brkMark }
    ps.foldl (fun (s : State) p => s.emitOut p.firing (s.outAt p.firing) p.firing.lt.carry) s) s

/-- What waited in the inbox is on its way again, in its order (R25, R362). -/
def State.thawInbox (s : State) (r : Nat) : State :=
  let fs := (s.run r).inbox
  fs.foldl (fun (s : State) f => s.addFlit f.1 f.2) (s.editRun r fun x => { x with inbox := [] })

/-- A COLNEW that a freeze saved requests again, as does a replay: it comes to the pool after those that wait
there (R115, R398). -/
def State.thawColnews (s : State) (r : Nat) : State :=
  let s := { s with waves := s.waves.map fun w : Nat × Wave =>
    (w.1, if w.2.run = r then { w.2 with asked := s.cycle } else w.2) }
  s.editCtx (s.run r).ctx fun c =>
    { c with waiting := (c.waiting.filter fun w => w.firing.run != r) ++
        (c.waiting.filter fun w => w.firing.run = r).map fun w => { w with since := s.cycle } }

/-! ## The spill region, R243 to R245, R363 -/

/-- An element as a launch that was read out leaves it in the planes: its spilled entries are moved out. -/
def Elem.unspilled (e : Elem) : Elem :=
  { e with
    waiting := e.waiting.filter fun w => w.spilled.isNone
    acts := e.acts.map fun a =>
      { a with stores := a.stores.map fun st => { st with spilled := none } } }

/-- A waiting token as it arrived at its element. -/
def Wait.flit (w : Wait) (r key c : Nat) : Flit :=
  ⟨r, key, key, w.slot, w.port, c, w.colour, w.iter, w.tok, none, false, false⟩

/-- The element keeps a token that the spill region has no room for, before those it kept already (R245). -/
def State.keepAgain (s : State) (f : Flit) (n : Nat) : State :=
  match (s.elem f.run f.dst).spillHeld with
  | [] => s.keepToken f
  | fs => s.editElem f.run f.dst fun e => { e with spillHeld := fs.take n ++ f :: fs.drop n }

/-- A spilled token goes to the spill region again; `n` of its element have found it full. -/
def State.respillToken (s : State) (r key n : Nat) (w : Wait) : State × Nat :=
  let c := (s.run r).ctx
  let f := w.flit r key c
  if n > 0 || s.spillFull c then (s.keepAgain f n, n + 1)
  else
    let k := s.spillPlace c
    ((s.writeSpill c k (s.matchEntry f)).editElem r key fun e =>
      { e with waiting := e.waiting ++ [{ w with spilled := some k, at_ := s.cycle - w.at_ }] }, n)

/-- A spilled store-buffer entry goes to the spill region again; one without room stays in the buffer
(log 68). -/
def State.respillStore (s : State) (r key uid : Nat) (st : Store) : State :=
  let c := (s.run r).ctx
  if s.spillFull c then s
  else
    let k := s.spillPlace c
    (s.writeSpill c k (s.storeEntry st.firing st.ea st.data st.lsid)).editAct r key uid fun a =>
      { a with stores := a.stores.map fun x => if x.lsid = st.lsid then { x with spilled := some k } else x }

/-- The spilled entries that an element had. -/
def State.respillElem (s : State) (r key : Nat) (old : Elem) : State :=
  let s := ((old.waiting.filter fun w => w.spilled.isSome).foldl
    (fun (x : State × Nat) w => x.1.respillToken r key x.2 w) (s, 0)).1
  old.acts.foldl (fun (s : State) a =>
    (a.stores.filter fun st => st.spilled.isSome).foldl
      (fun (s : State) st => s.respillStore r key a.uid st) s) s

/-- The spilled entries that a frozen image holds go to the spill region again (R363). -/
def State.respill (s : State) (r : Nat) (old : Tbl Elem) : State :=
  old.foldl (fun (s : State) e => s.respillElem r e.1 e.2) s

/-! ## The homes of saved accesses, R362, R364, R369, R370 -/

/-- The rights that an access needs (R367). -/
def MemOp.need : MemOp → Nat
  | .read | .vers | .ldd | .ldv | .xread | .ldk => needRead
  | .write | .vset | .std | .stv | .xinit | .kvcommit => needWrite
  | _ => needBoth

/-- The home of a saved access is found again: its page may have moved, or the device changed (R362,
R364, R369). -/
def State.rehome (s : State) (r key : Nat) (op : MemOp) (ea old : Nat) : Trans :=
  match op with
  | .fence | .cancel | .doneq => .home old
  | _ => match s.engineFinds r key ea op.need with
    | .far => .home (farHome ea)
    | t => t

/-- The next record of a run's fault log waits for no reader any more (R295). -/
def State.readLog (s : State) (r : Nat) : State :=
  let c := (s.run r).ctx
  s.readAllVirt c (s.ctx c).logNext

/-- A buffered store whose address translates no more has faulted: DEDUCED, it leaves its buffer, and its firing is
parked and issues it again (R369, R370; log 99). -/
def State.unbuffer (s : State) (r key uid : Nat) (st : Store) (t : Trans) : State :=
  let s := s.editAct r key uid fun a =>
    { a with
      stores := a.stores.filter fun x => x.lsid != st.lsid
      lsids := dropBit a.lsids st.lsid
      mems := dropBit a.mems st.lsid }
  let s := s.editElem r key fun e =>
    { e with helds := e.helds.filter fun h => h.2.act != uid || h.2.lsid != st.lsid }
  (s.readLog r).parkTrans st.firing (word st.ea) t

/-- A buffered store finds its home again. -/
def State.rehomeStore (s : State) (r key uid : Nat) (st : Store) : State :=
  match s.rehome r key st.op st.ea st.home with
  | .home a => s.editAct r key uid fun b =>
      { b with stores := b.stores.map fun x =>
          if x.lsid = st.lsid then { x with home := a, far := isFarHome a } else x }
  | t => s.unbuffer r key uid st t

/-- The buffered stores of a run find their homes again (R362, R364, R369). -/
def State.rehomeStores (s : State) (r : Nat) : State :=
  (s.run r).elems.foldl (fun (s : State) e => e.2.acts.foldl (fun (s : State) a =>
    a.stores.foldl (fun (s : State) st => s.rehomeStore r e.1 a.uid st) s) s) s

/-- A BAR that traps while it waits for its release keeps its generation beside it, plus one. -/
def Req.barMark (q : Req) : Word :=
  match q.state with
  | .arrived g => word (g + 1)
  | _ => q.extra

/-- A saved request goes to its home again, or traps where its address does not translate (R362, R370). -/
def State.rehomeReq (s : State) (n : Nat) (q : Req) : State :=
  let f := q.firing
  let stop (s : State) (cause : Nat) : State :=
    s.trapRequest n { q with extra := q.barMark } cause (word q.ea)
  match s.rehome f.run f.elem q.op q.ea q.home with
  | .home a => { s with reqs := s.reqs.put n { q with home := a } }
  | .logged cause level => stop ((s.readLog f.run).logFault f q.ea cause level) cause
  | .fault cause => stop s cause
  | _ => s

/-- The request stands on its context's list of far requests, or waits for the window. -/
def State.listedFar (s : State) (n : Nat) (q : Req) : Bool :=
  let fs := (s.ctx (s.run q.firing.run).ctx).far
  (fs.outstanding.any fun p => p.req = n) || (fs.refused.any fun p => p.req = n) ||
    fs.waiting.any fun p => p.2.req = n

/-- The requests of a run are issued again at their homes (R362). -/
def State.rehomeReqs (s : State) (r : Nat) : State :=
  s.reqs.foldl (fun (s : State) q =>
    let waits := match q.2.state with
      | .pending | .arrived _ => true
      | _ => false
    if q.2.firing.run = r && waits && !s.listedFar q.1 q.2 then s.rehomeReq q.1 q.2 else s) s

/-- A request that trapped for its address walks it again (R370); a BAR among them takes up its wait
(R362). -/
def State.retryHome (s : State) (n : Nat) (q : Req) : State :=
  let f := q.firing
  let bar := q.op = .bar && q.extra != 0
  let q := if bar then { q with state := .arrived (q.extra.toNat - 1), extra := 0 }
    else { q with state := .pending }
  ((s.dropEntries f.run f.elem q.ea).rehomeReq n q).thawBars f.run

/-- A launch runs again, on every part in the same cycle (R364). -/
def State.thaw (s : State) (r : Nat) : State :=
  let x := s.run r
  let moved (e : Elem) : Elem := if x.out then e.unspilled else e
  let s := s.editRun r fun y =>
    { y.setParts .running with
      state := .running
      elems := y.elems.map fun e => (e.1, (moved e.2).thawAges s.cycle) }
  let s := if x.out then s.respill r x.elems else s
  (((((((s.thawInbox r).thawColnews r).rehomeStores r).rehomeReqs r).thawBars r).thawBreaks r).presentNext r)

/-! ## Planes of clusters, R358 -/

/-- A part covers a cluster of a die. -/
def Part.covers (p : Part) (die cl : Nat) : Bool :=
  p.die = die && p.row ≤ cl / 4 && cl / 4 < p.row + p.h && p.col ≤ cl % 4 && cl % 4 < p.col + p.w

/-- A part holds planes of its clusters. -/
def Run.holdsPlanes (x : Run) (p : Part) : Bool :=
  !p.done && x.state != .complete && p.state != .frozenOut

/-- A part's plane is loading or running. -/
def Part.active (p : Part) : Bool :=
  p.state == .loading || p.state == .running || p.state == .switching

/-- The parts that hold a plane of a cluster, with their runs. -/
def State.planesAt (s : State) (die cl : Nat) : List (Nat × Part) :=
  s.runs.flatMap fun r =>
    (r.2.parts.filter fun p => r.2.holdsPlanes p && p.covers die cl).map fun p => (r.1, p)

/-- The clusters of a part. -/
def Part.clusters (p : Part) : List Nat := (upTo (p.w * p.h)).map fun k => p.cluster k

/-- No other run's plane is loading or running in the clusters of a run (R360). -/
def State.planesFree (s : State) (r : Nat) : Bool :=
  (s.run r).parts.all fun p => p.done || p.clusters.all fun cl =>
    (s.planesAt p.die cl).all fun q => q.1 = r || !q.2.active

/-- A restore of the run is queued. -/
def State.restoreQueued (s : State) (r : Nat) : Bool :=
  (s.queue (s.job (s.run r).job).queue).heads.any fun h => h.run = r

/-- A die that a run's parts stand on sleeps: the run waits for its wake (R407). -/
def State.sleeping (s : State) (r : Nat) : Bool :=
  (s.run r).parts.any fun p => !p.done && (s.dies.get p.die).power != 0

/-- The sleeping dies of a run are to wake. -/
def State.callDies (s : State) (r : Nat) : State :=
  (s.run r).parts.foldl (fun (s : State) p =>
    s.editDie p.die fun d => { d with called := d.called || d.power != 0 }) s

/-- A restore's writes of the fault log wait for the LDVs of its block (R295). -/
def State.thawBusy (s : State) (r : Nat) : Bool := s.logBusy (s.run r).ctx

/-- A parked launch returns to running by a switch of planes: one that the arbiter has admitted
again, or one that system software thaws after BRK (R162, R360).  One that was read out while it stood at
BRK returns through a loading plane: its restore is queued. -/
def execPlaneSwitch (r : Nat) (s : State) : Result :=
  .next (
    let x := s.run r
    let admitted := x.parts.all fun p => p.done || p.state == .switching
    let broken := x.atBreak && x.parts.all fun p => p.done || p.state == .parked || p.state == .tooSmall
    if x.state != .frozen then s
    else if x.atBreak && x.out && !s.restoreQueued r then s.queueRestore r
    else if !(admitted || broken) || !s.planesFree r || s.thawBusy r then s
    else if s.sleeping r then s.callDies r
    else s.thaw r)

/-! ## The checks of a restore, R81, R364 -/

/-- The blocks that stand at a cluster of a run's image. -/
def Run.blocksAt (x : Run) (part clu : Nat) : List PlanElem :=
  (x.elems.filter fun e => partOf e.1 = part && cluOf e.1 = clu).map fun e =>
    ⟨siteOf e.1, e.2.slots, e.2.header, e.2.policy, e.2.holds, []⟩

/-- The plan of a run with the slots, headers and policy words of its image (R363). -/
def Run.imagePlan (x : Run) : PlanGraph :=
  { x.plan with parts := x.plan.parts.zipIdx.map fun p =>
      { p.1 with clusters := p.1.clusters.map fun c => { c with elems := x.blocksAt p.2 c.clu } } }

/-- The first refused item of a run's image (R81). -/
def Run.imageRefusal (x : Run) : Option Word := planRefusal x.graph x.imagePlan

/-- A refused image is not placed: its launches end as cancelled, and the job reports the refusal (R81;
log 80). -/
def State.refuseImage (s : State) (r : Nat) (w : Word) : State :=
  let x := s.run r
  let s := s.editJob x.job fun j => { j with report := if j.report = 0 then w else j.report }
  (upTo x.parts.length).foldl
    (fun (s : State) p => if ((s.run r).part p).done then s else (s.cancelPart r p).launchDone r p) s

/-- A frozen image is restored into the region the arbiter has given it: `parts` are the dies and
first clusters of its parts (R364); sleeping dies wake first (R407). -/
def execLaunchRestore (r : Nat) (parts : List (Nat × Nat)) (s : State) : Result :=
  .next (
    let x := s.run r
    if x.state != .frozen || (x.parts.map fun p => (p.die, p.row * 4 + p.col)) != parts ||
        !(x.parts.all fun p => p.done || p.state == .loading) || s.thawBusy r || s.sleeping r then s
    else match x.imageRefusal with
      | some w => s.refuseImage r w
      | none => s.thaw r)

end Sys2Proof.Machine
end

