-- ==== Sys2Proof/Machine/Berths.lean ====
section
/-! DEFINITION. Berths, the arbiter of a die, the two start phases of a graph and pre-emption (R64, R88,
R115, R272, R349 to R354, R358 to R360, R364, R399, R401, R404, R405). -/

namespace Sys2Proof.Machine

/-- Cycles of a microsecond: the device clock is 1.4 GHz (R9). -/
def usCycles : Nat := 1400

/-! ## Berths, R349, R405 -/

def Queue.anchored (q : Queue) : Option Nat :=
  match q.place with
  | .anchor t => some t
  | .berth .. => none

/-- The lowest free berth of a die. -/
def State.freeBerth (s : State) (die : Nat) : Option Nat :=
  (upTo 64).find? fun b => s.queues.all fun q =>
    q.2.die != die || match q.2.place with
      | .berth i _ => i != b
      | .anchor _ => true

/-- The anchored queues of a die with work, with their arrival times. -/
def State.atAnchor (s : State) (die : Nat) : List (Nat × Nat) :=
  s.queues.filterMap fun q =>
    if q.2.die = die && q.2.hasWork then q.2.anchored.map fun t => (q.1, t) else none

/-- The berth that an anchored queue with work takes: a free one, in order of its work's arrival (R349); one of a
die that is not ready stays at anchor (R405). -/
def State.nextBerth (s : State) (q : Nat) : Option Nat :=
  let x := s.queue q
  match x.anchored with
  | none => none
  | some t =>
    let first := (s.atAnchor x.die).all fun y => t < y.2 || (t = y.2 && q ≤ y.1)
    if !x.hasWork || !first || !(s.dies.get x.die).ready || !s.life.hmReady then none else s.freeBerth x.die

/-- A queue takes a berth in this cycle. -/
def State.berths (s : State) (q : Nat) : Bool := (s.nextBerth q).isSome

/-- An anchored queue with work takes a free berth (R349); no cycle passes before it does. -/
def execBerthing (q : Nat) (s : State) : Result :=
  .next (match s.nextBerth q with
    | some b => s.editQueue q fun y => { y with place := .berth b s.cycle }
    | none => s)

/-- The start of the wait of a die's anchored queues with work. -/
def State.waitStart (s : State) (die : Nat) : Option Nat :=
  match s.atAnchor die with
  | [] => none
  | y :: ys => some (ys.foldl (fun m z => min m z.2) y.2)

/-- A launch of a queue's jobs runs. -/
def State.queueRuns (s : State) (q : Nat) : Bool :=
  s.runs.any fun r => (s.job r.2.job).queue = q && (r.2.state == .running || r.2.state == .loading)

/-- The cycle in which the tenure of a berthed queue ends, while others of its die wait (R349).  DESIGN CHOICE: with
a BERTHQ of 0 it lasts one cycle (log 103). -/
def State.tenureEnd (s : State) (x : Queue) : Option Nat :=
  match x.place, s.waitStart x.die with
  | .berth _ since, some w =>
    some (max (since + 1) (max since w + (s.dies.get x.die).berthq * usCycles))
  | _, _ => none

/-- The tenure of a berthed queue is over (R349). -/
def State.tenureOver (s : State) (x : Queue) : Bool :=
  match s.tenureEnd x with
  | some t => s.cycle ≥ t
  | none => false

/-- A berthed queue loses its berth: its tenure is over, or it has neither work nor a running launch
(R349). -/
def State.berthLost (s : State) (q : Nat) (x : Queue) : Bool :=
  match x.place with
  | .anchor _ => false
  | .berth .. => s.tenureOver x || (!x.hasWork && !s.queueRuns q)

/-- A queue loses its berth after BERTHQ while others wait, or when it has neither work nor a running
launch (R349); no cycle passes before it does. -/
def execBerthTenureExpiry (q : Nat) (s : State) : Result :=
  .next (
    if s.berthLost q (s.queue q) then s.editQueue q fun y => { y with place := .anchor s.cycle } else s)

/-! ## Where a rectangle fits, R350, R358, R359, R399, R401, R404 -/

/-- The frame sites of a cluster in R18's order. -/
def frameSites : List Nat := [1, 6, 16, 23, 40, 47, 57, 62]

/-- A slot word issues a command to a site. -/
def wordUsesSite (site : Nat) (w : Word) : Bool :=
  match decode w with
  | .ok i => (siteKind site == .frame) && bits w 0 6 = site && (match i with
      | .mzero .. | .mzeroAuto .. | .mldb .. | .mldc .. | .mma .. | .mmas .. | .mmax3 .. | .mout ..
      | .mrow .. | .mrowReadProgress .. | .mscale .. | .mbmap .. => true
      | _ => false)
  | .error _ => false

/-- A cluster of a plan uses a retired frame's site (R401). -/
def usesRetired (c : ClusterSt) (p : Option PlanCluster) : Bool :=
  match p with
  | none => false
  | some k => (upTo 8).any fun f =>
      nbit c.frret f && k.elems.any fun e => e.slots.any fun w =>
        wordUsesSite ((frameSites[f]?).getD 0) w

/-- The arbiter may place a plan's cluster on a cluster of a die; `spare` lets it take one that is
withheld for a test (R401, R405). -/
def State.usable (s : State) (die cl : Nat) (spare : Bool) (p : Option PlanCluster) : Bool :=
  let d := s.dies.get die
  let c := d.clusters.get cl
  d.ready && c.ready && c.state != .retired && c.state != .suspect && !c.avoid && !c.testing &&
    (spare || !c.withheld) && !usesRetired c p

/-- A placement of one part: die, row, column, plane, and the parked runs that must first be frozen
out (R358). -/
structure Spot where
  die : Nat
  row : Nat
  col : Nat
  plane : Nat
  clash : List Nat
  deriving DecidableEq, Repr, Inhabited

/-- The clusters of a rectangle at a position, with their index in the part. -/
def rectClusters (w h row col : Nat) : List (Nat × Nat) :=
  (upTo (w * h)).map fun k => (k, (row + k / w) * 4 + col + k % w)

/-- The parked parts that meet a rectangle's clusters: index in the part, run, parked part, cluster. -/
def State.parkedUnder (s : State) (die : Nat) (cls : List (Nat × Nat)) :
    List (Nat × Nat × Part × Nat) :=
  cls.flatMap fun k => (s.planesAt die k.2).map fun q => (k.1, q.1, q.2, k.2)

/-- The tile mask of a part in a cluster of its die. -/
def Part.maskIn (p : Part) (cl : Nat) : Nat :=
  (p.masks[(cl / 4 - p.row) * p.w + (cl % 4 - p.col)]?).getD 0

/-- A part fits at a position of a die (R350, R358): every cluster is usable and has no running plane,
one plane is empty in all of them, and no launch is parked there whose tiles overlap and that could
not be frozen out. -/
def State.spotAt (s : State) (die : Nat) (p : PlanPart) (spare : Bool) (used : List (Nat × Nat))
    (self row col : Nat) : Option Spot :=
  if row + p.h > 4 || col + p.w > 4 then none
  else
    let cls := rectClusters p.w p.h row col
    let here := (s.parkedUnder die cls).filter fun q => q.2.1 != self
    let clash := here.filter fun q =>
      Nat.land (q.2.2.1.maskIn q.2.2.2) (match p.cluster q.1 with
        | some k => k.mask
        | none => 0) != 0
    let taken := here.map fun q => q.2.2.1.plane
    if (cls.all fun k => s.usable die k.2 spare (p.cluster k.1) && !used.contains (die, k.2)) &&
        (here.all fun q => !q.2.2.1.active) && !(taken.contains 0 && taken.contains 1) &&
        (clash.all fun q => q.2.2.1.state != .tooSmall) then
      some ⟨die, row, col, if taken.contains 0 then 1 else 0, (clash.map fun q => q.2.1).eraseDups⟩
    else none

/-- The first free position of the scan from row 0, column 0, row by row (R350). -/
def State.firstSpot (s : State) (die : Nat) (p : PlanPart) (spare : Bool) (used : List (Nat × Nat))
    (self : Nat) : Option Spot :=
  firstSome (fun k => s.spotAt die p spare used self (k / 4) (k % 4)) (upTo 16)

/-- Every element of a list of choices, or none. -/
def allSome {α : Type} : List (Option α) → Option (List α)
  | [] => some []
  | x :: xs => match x, allSome xs with
    | some a, some as => some (a :: as)
    | _, _ => none

/-- Spots for every part of a graph whose part 0 stands on a die, all or none (R353). -/
def State.spots (s : State) (home : Nat) (g : PlanGraph) (spare : Bool) (used : List (Nat × Nat))
    (self : Nat) : Option (List Spot) :=
  allSome (g.parts.map fun p => match dieAt home p.dc p.dr with
    | some d => s.firstSpot d p spare used self
    | none => none)

/-- The clusters that spots take. -/
def spotClusters (g : PlanGraph) (xs : List Spot) : List (Nat × Nat) :=
  (List.zip g.parts xs).flatMap fun x =>
    (rectClusters x.1.w x.1.h x.2.row x.2.col).map fun k => (x.2.die, k.2)

/-- Spots for the second copy of a redundant graph: where the shape fits, on no die of the first
(R399). -/
def State.twinSpots (s : State) (g : PlanGraph) (spare : Bool) (first : List Spot) :
    Option (List Spot) :=
  let used := spotClusters g first
  let apart (xs : List Spot) : Bool := xs.all fun x => first.all fun y => x.die != y.die
  let at_ (home : Nat) : Option (List Spot) := s.spots home g spare used 0
  let far (home : Nat) : Option (List Spot) := match at_ home with
    | some xs => if apart xs then some xs else none
    | none => none
  match firstSome far (upTo 24) with
  | some xs => some xs
  | none => firstSome at_ (upTo 24)

/-- Where a waiting RUN fits: the spots of its parts and of its second copy. -/
def State.fitNew (s : State) (home : Nat) (g : PlanGraph) (spare : Bool) :
    Option (List Spot × List Spot) :=
  match s.spots home g spare [] 0 with
  | none => none
  | some xs =>
    if g.redundant then (s.twinSpots g spare xs).map fun ys => (xs, ys) else some (xs, [])

/-! ## Restores, R360, R364 -/

/-- An instruction that pins a part (R364). -/
def pins : Instr → Bool
  | .site .. | .send .. | .sendx .. | .seamout .. => true
  | _ => false

/-- A PLAN part whose image is PINNED (R364). -/
def PlanPart.pinned (p : PlanPart) : Bool :=
  p.clusters.any fun c => c.elems.any fun e => e.instrs.any pins

def Run.pinned (x : Run) : Bool := x.plan.parts.any PlanPart.pinned

/-- The clusters of a run that stands in planes, each with its die. -/
def Run.clustersHeld (x : Run) : List (Nat × Nat) :=
  (x.parts.filter fun p => x.holdsPlanes p).flatMap fun p => p.clusters.map fun c => (p.die, c)

/-- The clusters of the other copy of a redundant graph, where it stands in planes (R399). -/
def State.twinHeld (s : State) (x : Run) : List (Nat × Nat) :=
  match x.twin with
  | some t => (s.run t).clustersHeld
  | none => []

/-- The dies to which the first copy of a redundant graph returns, where both copies were read out (R399). -/
def State.twinReturns (s : State) (home : Nat) (x : Run) : List Nat :=
  match x.twin with
  | some t => if x.copyB && (s.run t).out then (x.plan.dies home).filterMap id else []
  | none => []

/-- Where a frozen-out run fits: a pinned one only where it was; of a redundant graph the first copy on its home
die and the second anywhere, but on no die of the other where the shape fits apart, and never on a cluster of the
other (R364, R399). -/
def State.fitOut (s : State) (home r : Nat) (spare : Bool) : Option (List Spot) :=
  let x := s.run r
  let used := s.twinHeld x
  let held := used.map Prod.fst
  let at_ (d : Nat) : Option (List Spot) := s.spots d x.plan spare used r
  let apart (ds : List Nat) (d : Nat) : Option (List Spot) := match at_ d with
    | some xs => if xs.all fun y => !ds.contains y.die then some xs else none
    | none => none
  if x.pinned then
    allSome ((List.zip x.plan.parts x.parts).map fun y =>
      s.spotAt y.2.die y.1 spare used r y.2.row y.2.col)
  else if x.twin.isNone then at_ home
  else
    let dies := if x.copyB then upTo 24 else home :: upTo 24
    firstSome id [firstSome (apart (s.twinReturns home x ++ held)) dies, firstSome (apart held) dies,
      firstSome at_ dies]

/-! ## The arbiter, R350, R353 -/

/-- A berthed head: its queue, class, age, berth. -/
structure Bid where
  queue : Nat
  home : Nat
  prio : Nat
  age : Nat
  berth : Nat
  head : Head
  deriving DecidableEq, Repr, Inhabited

/-- Rank: class, age, berth index (R350). -/
def Bid.above (a b : Bid) : Bool :=
  a.prio > b.prio || (a.prio = b.prio && (a.age < b.age || (a.age = b.age && a.berth < b.berth)))

/-- The head of a queue: its oldest waiting RUN (R349). -/
def State.headOf (s : State) : List Head → Option Head
  | [] => none
  | h :: hs => some (hs.foldl (fun b k => if (s.run k.run).age < (s.run b.run).age then k else b) h)

/-- The berthed heads of contexts on the device; a queue whose tenure is over admits no more (R349, R357). -/
def State.bids (s : State) : List Bid :=
  s.queues.filterMap fun q => match q.2.place, s.headOf q.2.heads with
    | .berth b _, some h =>
      if q.2.en && !s.tenureOver q.2 && (s.ctx (s.run h.run).ctx).state == .live then
        some ⟨q.1, q.2.die, q.2.prio, (s.run h.run).age, b, h⟩
      else none
    | _, _ => none

/-- The dies that a head's graph touches. -/
def State.bidDies (s : State) (b : Bid) : List Nat :=
  let x := s.run b.head.run
  if b.head.restore && (!x.out || x.pinned) then x.parts.map fun p => p.die
  else (x.plan.dies b.home).filterMap id

/-- The heads of a die. -/
def State.dieBids (s : State) (d : Nat) : List Bid :=
  s.bids.filter fun b => (s.bidDies b).contains d

def topBid : List Bid → Option Bid
  | [] => none
  | b :: bs => some (bs.foldl (fun a c => if c.above a then c else a) b)

/-- The only head that a die may admit, when heads have reached its bypass limit (R350). -/
def State.mustAdmit (s : State) (d : Nat) : Option Bid :=
  topBid ((s.dieBids d).filter fun b => b.head.bypasses ≥ (s.dies.get d).bypassmax)

/-- Every die a head touches may admit it. -/
def State.mayAdmit (s : State) (b : Bid) : Bool :=
  (s.bidDies b).all fun d => match s.mustAdmit d with
    | some c => c == b
    | none => true

/-- How a head fits now. -/
inductive Fit
  | new (xs ys : List Spot)
  | out (xs : List Spot)
  | switch
  deriving DecidableEq, Repr, Inhabited

/-- A class-7 head that fits only with a withheld cluster is admitted to it (R401). -/
def withSpare {α : Type} (prio : Nat) (f : Bool → Option α) : Option α :=
  match f false with
  | some a => some a
  | none => if prio = 7 then f true else none

def State.fit (s : State) (b : Bid) : Option Fit :=
  let r := b.head.run
  let x := s.run r
  if !b.head.restore then
    (withSpare b.prio fun sp => s.fitNew b.home x.plan sp).map fun y => .new y.1 y.2
  else if x.out then (withSpare b.prio fun sp => s.fitOut b.home r sp).map .out
  else if x.state == .frozen && s.planesFree r then some .switch
  else none

/-- A part as admission places it. -/
def placedPart (p : PlanPart) (x : Spot) : Part where
  die := x.die
  row := x.row
  col := x.col
  w := p.w
  h := p.h
  dc := p.dc
  dr := p.dr
  plane := x.plane
  masks := (upTo (p.w * p.h)).map fun k => match p.cluster k with
    | some c => c.mask
    | none => 0
  state := .loading
  cancelled := false
  done := false

def placedParts (g : PlanGraph) (xs : List Spot) : List Part :=
  (List.zip g.parts xs).map fun y => placedPart y.1 y.2

/-- The parked runs under a placement are frozen out first (R358). -/
def State.clearUnder (s : State) (xs : List Spot) : State :=
  (xs.flatMap fun x => x.clash).eraseDups.foldl (fun (s : State) r => s.freezeOut r) s

/-- None of them is left in its planes. -/
def State.cleared (s : State) (xs : List Spot) : Bool :=
  xs.all fun x => x.clash.all fun r => (s.run r).out

/-- Admit a new run, and its second copy, at once (R353, R399). -/
def State.admitNew (s : State) (r : Nat) (xs ys : List Spot) : State :=
  let s := s.editRun r fun x =>
    { x with state := .loading, admitted := s.cycle, parts := placedParts x.plan xs }
  if ys.isEmpty then s
  else
    let (b, s) := s.takeId
    let x := s.run r
    let y : Run := { x with parts := placedParts x.plan ys, copyB := true, twin := some r }
    let s := { s with runs := s.runs.put b y }
    (s.editRun r fun y => { y with twin := some b }).editJob x.job fun j => { j with runs := j.runs ++ [b] }

/-- The place of a destination word in a run's old parts, written for its new ones (R364). -/
def moveSite (w : Word) (old new : List Part) : Word :=
  match findCluster (bits w 27 5) (bits w 23 4) old 0 with
  | none => w
  | some (p, c) =>
    let q := (new[p]?).getD default
    destWord (bits w 56 8) (bits w 32 16) q.die (q.cluster c) (bits w 17 6) (bits w 12 5) (bits w 10 2)
      (bits w 0 10)

/-- Reserve the region of a frozen image; TRAPSITE is rewritten (R364). -/
def State.admitOut (s : State) (r : Nat) (xs : List Spot) : State :=
  s.editRun r fun x =>
    let parts := (List.zip x.parts xs).map fun y =>
      if y.1.done then y.1
      else { y.1 with
        die := y.2.die
        row := y.2.row
        col := y.2.col
        plane := y.2.plane
        state := .loading }
    { x with
      parts := parts
      admitted := s.cycle
      trapRegs := { x.trapRegs with site := moveSite x.trapRegs.site x.parts parts } }

/-- The admission passes over higher-ranked heads on the dies it touches: each gains one bypass
(R350). -/
def State.bypass (s : State) (b : Bid) : State :=
  let higher := ((s.bidDies b).flatMap fun d => s.dieBids d).filter fun c => c.above b
  let bump (h : Head) : Head :=
    if higher.any fun c => c.head.run = h.run then { h with bypasses := h.bypasses + 1 } else h
  let queues : Tbl Queue := s.queues.map fun q => (q.1, { q.2 with heads := q.2.heads.map bump })
  { s with queues := queues }

/-- The highest-ranked head of a die that may be admitted and fits. -/
def State.topFit (s : State) (d : Nat) : Option Bid :=
  topBid ((s.dieBids d).filter fun b => s.mayAdmit b && (s.fit b).isSome)

/-- The head that a die admits: it is the highest-ranked that fits on every die it touches (R350, R353). -/
def State.chooseBid (s : State) (d : Nat) : Option Bid :=
  match s.topFit d with
  | some b => if (s.bidDies b).all fun e => s.topFit e == some b then some b else none
  | none => none

/-- The arbiter of a die admits one head (R350, R353, R360). -/
def execAdmission (d : Nat) (s : State) : Result :=
  .next (match s.chooseBid d with
    | none => s
    | some b =>
      let r := b.head.run
      let go (s : State) : State := (s.bypass b).withdraw r
      match s.fit b with
      | some (.new xs ys) =>
        let s := s.clearUnder (xs ++ ys)
        if s.cleared (xs ++ ys) then (go s).admitNew r xs ys else s
      | some (.out xs) =>
        let s := s.clearUnder xs
        if s.cleared xs then (go s).admitOut r xs else s
      | some .switch => (go s).editRun r fun x => { x.setParts .switching with admitted := s.cycle }
      | none => s)

/-! ## The start, R64, R88, R272, R353 -/

/-- An element as its block configures it when the launch starts (R64, R67, R162). -/
def Elem.loaded (p : Option PlanElem) : Elem :=
  match p with
  | none => Elem.cleared
  | some b =>
    { Elem.cleared with
      slots := fillTo 32 0 b.slots
      header := b.header
      policy := b.policy
      holds := fillTo 8 0 b.holds }

/-- The keys of a run's sites of a kind. -/
def Run.keysOf (x : Run) (kind : SiteKind) : List Nat :=
  x.parts.zipIdx.flatMap fun p => (upTo (p.1.w * p.1.h)).flatMap fun c =>
    ((upTo 64).filter fun site => siteKind site == kind).map fun site => keyOf p.2 c site

def tableOf {α : Type} (keys : List Nat) (v : Nat → α) : Tbl α := keys.map fun k => (k, v k)

/-- The strands of a run at its start: a second copy's comparator strands run to in1 of the seam in the
first copy, which reads them here (R399). -/
def Run.strandsAtStart (x : Run) : Tbl Strand :=
  let move (b : Branch) : Branch := { b with port := 1 }
  if !x.copyB then x.plan.strandTable
  else x.plan.strandTable.map fun st =>
    if st.2.cmp then (st.1, { st.2 with branches := st.2.branches.map move }) else st

/-- A run as the configuration network has loaded it: everything of Launch lifetime at its start
values. -/
def Run.loadPlanes (x : Run) : Run :=
  let plan := x.plan.elems
  { x.setParts .running with
    state := .running
    elems := tableOf (x.keysOf .lace) fun k =>
      Elem.loaded ((plan.find? fun e => e.1 = k).map Prod.snd)
    frames := tableOf (x.keysOf .frame) fun _ => Frame.start
    tiles := tableOf (x.keysOf .tile) fun _ => ⟨false, 0, [], 0, 0, none⟩
    samplers := tableOf (x.keysOf .sampler) fun _ => SamplerSt.start
    projs := tableOf (x.keysOf .projection) fun _ => ⟨0, 0, none⟩
    seams := tableOf (x.keysOf .seam) fun _ => SeamSt.zero
    ports := tableOf (x.keysOf .lighter) fun _ => LighterPort.zero
    strands := x.strandsAtStart
    cmds := [] }

/-- The DATA sections of a graph in its tile window are written at the start of its launches (R272). -/
def State.writeWindowData (s : State) (r : Nat) (d : DataBlk) : State :=
  let x := s.run r
  if d.graph != x.graph then s
  else match s.windowOffset x.ctx (d.addr % 2 ^ 55) with
    | none => s
    | some off => match x.windowHome r off with
      | some a => s.writeBlock a d.fmt d.scale d.payload
      | none => s

/-- The payload of a source token: 0 where its kind carries none (R26). -/
def SourceTok.payload (t : SourceTok) : Word :=
  match t.kind with
  | .null | .empty | .stop | .poison => 0
  | _ => t.value

/-- Inject a source token (R26, R88). -/
def State.injectSource (s : State) (r key : Nat) (t : SourceTok) : State :=
  s.deliver ⟨r, key, key, t.slot, t.port, (s.run r).ctx, t.colour, t.iter,
    ⟨t.payload, t.kind, t.level, false, false, 0⟩, none, false, false⟩

/-- Inject every source token of a run's plan, on all dies in one cycle (R353). -/
def State.injectAll (s : State) (r : Nat) : State :=
  (s.run r).plan.elems.foldl (fun (s : State) e =>
    e.2.sources.foldl (fun (s : State) t => s.injectSource r e.1 t) s) s

/-- Load the planes, the tile window's data and the sources of a launch. -/
def State.startLaunch (s : State) (r : Nat) : State :=
  let s := s.editRun r Run.loadPlanes
  let s := (s.job (s.run r).job).data.foldl (fun (s : State) d => s.writeWindowData r d) s
  s.injectAll r

/-- Once every die has acknowledged its part, the sources are injected (R353); a sleeping die wakes
first (R407). -/
def execGraphSourceInjection (r : Nat) (s : State) : Result :=
  .next (
    let x := s.run r
    if x.state != .loading || x.parts.any fun p => p.done || (s.dies.get p.die).power != 0 then s
    else s.startLaunch r)

/-! ## Pre-emption, R351, R354 -/

/-- A class-7 head of a die that has waited longer than PREEMPTWAIT and does not fit (R351, R354). -/
def State.urgentBid (s : State) (d : Nat) : Option Bid :=
  let wait := (s.dies.get d).preemptwait
  if wait = 0 then none
  else topBid (s.bids.filter fun b =>
    b.prio = 7 && b.home = d && s.cycle - b.age > wait * usCycles && (s.fit b).isNone)

/-- The class of a run's queue. -/
def State.prioOf (s : State) (x : Run) : Nat := (s.queue (s.job x.job).queue).prio

/-- A run that pre-emption may freeze: running on the die, and below class 7. -/
def State.freezable (s : State) (d : Nat) (x : Run) : Bool :=
  x.state == .running && x.freeze.isNone && s.prioOf x < 7 &&
    x.parts.any fun p => p.die = d && !p.done

/-- The next run to freeze: of the lowest class, then the most recently admitted (R351). -/
def State.victim (s : State) (d : Nat) : Option (Nat × Run) :=
  (s.runs.filter fun r => s.freezable d r.2).foldl (fun (best : Option (Nat × Run)) r =>
    match best with
    | none => some r
    | some b =>
      if s.prioOf r.2 < s.prioOf b.2 ||
          (s.prioOf r.2 = s.prioOf b.2 && r.2.admitted > b.2.admitted) then some r
      else some b) none

/-- Parking a run makes the head fit, in the other planes and with masks that allow it (R360). -/
def State.parkSuffices (s : State) (b : Bid) (r : Nat) : Bool :=
  let t := s.editRun r fun x => { x.setParts .parked with state := .frozen }
  match t.fit b with
  | some (.new xs ys) => (xs ++ ys).all fun x => !x.clash.contains r
  | some (.out xs) => xs.all fun x => !x.clash.contains r
  | some .switch => true
  | none => false

/-- Pre-emption freezes one running launch at a time until the class-7 head fits (R351). -/
def execPreemption (d : Nat) (s : State) : Result :=
  .next (match s.urgentBid d, s.victim d with
    | some b, some (r, x) =>
      if s.runs.any fun y => y.2.freeze.isSome && y.2.parts.any fun p => p.die = d then s
      else
        let out := !s.parkSuffices b r
        let s := s.startFreeze r out
        match x.twin with
        | some t => s.startFreeze t out
        | none => s
    | _, _ => s)

end Sys2Proof.Machine
end

