-- ==== Sys2Proof/Machine/Contexts.lean ====
section
/-! DEFINITION. Contexts: CREATE, SWITCHOUT, RESTORE and DESTROY, and the invalidation of translations
(R355 to R357, R369, R371, R382, R383, R405, R409). -/

namespace Sys2Proof.Machine

/-! ## Commands, R357 -/

/-- A command of a context has been written and has not ended. -/
def Ctx.pends (x : Ctx) (cmd : Nat) : Bool := x.state == .busy && x.command = cmd

/-- A command ends: CMDSTATUS and the new STATE (R357). -/
def State.endCommand (s : State) (c status : Nat) (st : CtxState) : State :=
  s.editCtx c fun x => { x with cmdstatus := status, state := st, command := 0, drainEnd := none }

/-- A command fails: it changes nothing but CMDSTATUS (R357). -/
def State.failCommand (s : State) (c status : Nat) : State := s.endCommand c status (s.ctx c).prior

/-- CMD is written (R357): 0 and 5 to 7 are ignored; while a command runs, another is not allowed
(log 24). -/
def State.startCommandOf (s : State) (c cmd : Nat) : State :=
  s.editCtx c fun x =>
    if cmd = 0 || cmd > 4 then x
    else if x.state == .busy then { x with cmdstatus := 1 }
    else { x with prior := x.state, state := .busy, command := cmd }

/-! ## The checks of a descriptor, R356, R357 -/

/-- A region of virtual addresses is mapped and may be written. -/
def State.regionOk (s : State) (c va size : Nat) : Bool :=
  size = 0 || (upTo ((va + size - 1) / 65536 - va / 65536 + 1)).all fun k =>
    match s.walkHome c ((va / 65536 + k) * 65536) needWrite with
    | .ok _ => true
    | .error _ => false

/-- The bytes of a fault log. -/
def Ctx.logBytes (x : Ctx) : Nat := 32 * x.logSize

/-- A base is misaligned, or a size is out of range (R356). -/
def Ctx.malformed (x : Ctx) : Bool :=
  let off (v : Word) (n : Nat) : Bool := v.toNat % n != 0
  let beyond (v size : Nat) : Bool := v + size > 2 ^ 55
  off x.ptroot 65536 || off x.twbase (2 ^ 31) || off x.spillbase 65536 || off x.spillsize 65536 ||
    x.spillsize.toNat < 2 ^ 20 || off x.savebase 65536 || off x.savesize 65536 || off x.flbase 4096 ||
    beyond x.twbase.toNat (2 ^ 31) || beyond x.spillbase.toNat x.spillsize.toNat ||
    beyond x.savebase.toNat x.savesize.toNat || beyond x.flbase.toNat x.logBytes

/-- SPILLBASE, SAVEBASE and FLBASE regions walk to writable memory (R357). -/
def State.regionsOk (s : State) (c : Nat) : Bool :=
  let x := s.ctx c
  s.regionOk c x.spillbase.toNat x.spillsize.toNat && s.regionOk c x.savebase.toNat x.savesize.toNat &&
    s.regionOk c x.flbase.toNat x.logBytes

/-- A requester id is in quarantine (R383). -/
def State.quarantined (s : State) (id : Nat) : Bool :=
  match s.quarantine.find id with
  | some t => s.cycle < t
  | none => false

/-- The checks that CREATE and RESTORE share: the first that fails gives CMDSTATUS (R357, R409). -/
def State.openError (s : State) (c : Nat) : Option Nat :=
  let x := s.ctx c
  if x.prior != .free then some 1
  else if s.life.devid = 0xFF then some 6
  else if x.malformed then some 2
  else if !s.regionsOk c then some 3
  else none

/-! ## CREATE, R357, R371 -/

/-- The requester id that CREATE forms (R371). -/
def State.newRequester (s : State) (c : Nat) : Nat := s.life.devid * 65536 + (s.ctx c).reqnum

/-- The context registers at their Reset values, with CTXBASE0 (R161, R357). -/
def Ctx.created (x : Ctx) (id : Nat) : Ctx :=
  { x with
    regs := { Ctx.reset.regs with ctxbase := x.ctxbase0 }
    colours := []
    waiting := []
    cams := []
    far := ⟨id, 0, 0, [], [], []⟩
    saved := none }

def execCreate (c : Nat) (s : State) : Result :=
  .next (
    if !(s.ctx c).pends 1 || !s.life.hmReady then s
    else match s.openError c with
      | some e => s.failCommand c e
      | none =>
        let id := s.newRequester c
        if s.quarantined id then s.failCommand c 5
        else (s.editCtx c fun x => x.created id).endCommand c 0 .live)

/-! ## SWITCHOUT, R357, R382 -/

/-- A run of a context that is neither waiting nor complete. -/
def Run.placed (x : Run) (c : Nat) : Bool :=
  x.ctx = c && x.state != .waiting && x.state != .complete

/-- SWITCHOUT orders every launch of the context to be frozen; they are read out once its far requests are
drained (R357, R382). -/
def execSwitchout (c : Nat) (s : State) : Result :=
  .next (
    let x := s.ctx c
    if !x.pends 2 then s
    else if x.prior != .live then s.failCommand c 1
    else s.runs.foldl (fun (s : State) r =>
      if r.2.placed c && r.2.state != .frozen then s.orderFreeze r.1 ⟨none, false, true⟩ else s) s)

/-- A parked launch is read out. -/
def State.outParked (s : State) (c : Nat) : State :=
  s.runs.foldl (fun (s : State) r =>
    if r.2.placed c && r.2.state == .frozen && r.2.parts.all fun p => p.done || p.state == .parked then
      (s.freezeOut r.1).withdraw r.1
    else s) s

/-- Every launch of the context is frozen and reads no longer moving. -/
def State.allFrozen (s : State) (c : Nat) : Bool :=
  s.runs.all fun r => !r.2.placed c || (r.2.state == .frozen && r.2.parts.all fun p => !p.active)

/-- What the save record of a context and its images hold (R355, R357, R363, R382). -/
def State.savedCtx (s : State) (c : Nat) : SavedCtx :=
  let x := s.ctx c
  let runs := s.runs.filter fun r => r.2.placed c
  { flhead := x.flhead
    flovf := x.flovf
    regs := x.regs
    colours := x.colours
    waiting := x.waiting
    cams := x.cams
    far := x.far
    runs := runs.map fun r => (r.1, { r.2 with age := s.cycle - r.2.age })
    queues := runs.map fun r => (s.job r.2.job).queue
    reqs := s.reqs.filter fun q => (s.run q.2.firing.run).placed c
    waves := s.waves.filter fun w => (s.run w.2.run).placed c
    tiles := runs.map fun r => (r.1, s.tileBlocks r.1) }

/-- A failed switch-out changes nothing but CMDSTATUS: the launches it froze run again, at once where they stand
in their planes and their clusters have no running plane; those that pre-emption froze keep their place in their
queues (R351, R357, R360). -/
def State.undoSwitchout (s : State) (c : Nat) : State :=
  let s := s.failCommand c 4
  s.runs.foldl (fun (s : State) r =>
    if !r.2.placed c || r.2.state != .frozen || r.2.atBreak || s.restoreQueued r.1 then s
    else if !r.2.out && s.planesFree r.1 then s.thaw r.1
    else s.queueRestore r.1) s

/-- The launches of a context that stand parked are read out, or found too large (R363). -/
def State.readOut (s : State) (c : Nat) : Bool :=
  s.runs.all fun r => !r.2.placed c || r.2.parts.all fun p => p.done || p.state != .parked

/-- The images and the save record are written, and the context is OUT; it fails where they do not fit, and
waits where a block has readers still (R295, R357). -/
def State.saveCtx (s : State) (c : Nat) : State :=
  let t := s.outParked c
  let x := t.ctx c
  let saved := t.savedCtx c
  let bytes := Config.saveRecord saved
  if !t.readOut c || t.rangeBusy c (bits x.savebase 0 55) bytes.length then s
  else if bytes.length > recordRoom || bytes.length > x.savesize.toNat ||
      t.runs.any fun r => r.2.placed c && !r.2.out then
    s.undoSwitchout c
  else
    let t := t.virtWriteAll c (bits x.savebase 0 55) bytes
    let t := t.runs.foldl (fun (t : State) r => if r.2.placed c then t.withdraw r.1 else t) t
    (t.editCtx c fun y => { y with saved := some saved }).endCommand c 0 .out

/-- The launches are frozen; the list is empty or DRAINMAX has passed: the context is saved (R382). -/
def execSwitchoutDrainEnd (c : Nat) (s : State) : Result :=
  .next (
    if !((s.ctx c).pends 2 && (s.ctx c).prior == .live) then s
    else
      let x := s.ctx c
      if !s.allFrozen c then s
      else if x.far.outstanding.isEmpty then s.saveCtx c
      else match x.drainEnd with
        | none => s.editCtx c fun y => { y with drainEnd := some (s.cycle + s.life.drainmax * usCycles) }
        | some t => if s.cycle ≥ t then s.saveCtx c else s)

/-! ## RESTORE, R357, R371, R382 -/

/-- A context that a record on this device came from: its OUT context whose save record the bytes are
(log 11). -/
def State.savedHere (s : State) (bytes : List Byte) : Option (Nat × SavedCtx) :=
  firstSome (fun c => match c.2.saved with
    | some v => if c.2.state == .out && (Config.saveRecord v).isPrefixOf bytes then some (c.1, v) else none
    | none => none) s.ctxs

/-- A packet of a context of another number (R26, R375). -/
def Packet.inCtx (p : Packet) (c : Nat) : Packet :=
  { p with body := match p.body with
      | .request op sz ea data data2 block _ ser => .request op sz ea data data2 block c ser
      | .token dest pay tbits => .token dest pay (word (c % 64 * 2 ^ 58 + bits tbits 0 58))
      | b => b }

/-- The far requests of a context that has another number now: their packets name it (R375; DEDUCED, log 104). -/
def FarState.inCtx (f : FarState) (c : Nat) : FarState :=
  { f with
    outstanding := f.outstanding.map fun q => { q with packet := Packet.inCtx q.packet c }
    refused := f.refused.map fun q => { q with packet := Packet.inCtx q.packet c }
    waiting := f.waiting.map fun w => (w.1, { w.2 with packet := Packet.inCtx w.2.packet c }) }

/-- The trap of a far request goes with its context. -/
def TrapRec.inCtx (t : TrapRec) (c : Nat) : TrapRec :=
  { t with resume := match t.resume with
      | .far _ fs => .far c fs
      | r => r }

/-- A run changes its context. -/
def Run.moveTo (x : Run) (c : Nat) : Run :=
  { x with
    ctx := c
    inbox := x.inbox.map fun f => (f.1, { f.2 with ctx := c })
    presented := x.presented.map fun t => t.inCtx c
    trapQueue := x.trapQueue.map fun t => t.inCtx c }

/-- The context's side of a restore: fault-log state, registers, pool, cameras and serial state (R355). -/
def Ctx.restored (x y : Ctx) (c : Nat) : Ctx :=
  { x with
    flhead := y.flhead
    flovf := y.flovf
    regs := y.regs
    colours := y.colours
    waiting := y.waiting
    cams := y.cams
    far := y.far.inCtx c
    reqnum := y.far.id % 65536
    saved := none }

/-- Everything of a saved context of this device goes over to another id. -/
def State.moveCtx (s : State) (src dst : Nat) (runs : List Nat) : State :=
  let y := s.ctx src
  let rs : Tbl Run := s.runs.map fun r => if r.2.ctx = src then (r.1, r.2.moveTo dst) else r
  let js : Tbl Job := s.jobs.map fun j => (j.1, if j.2.ctx = src then { j.2 with ctx := dst } else j.2)
  let s : State := { s with runs := rs, jobs := js }
  runs.foldl (fun (s : State) r => s.queueRestore r) (s.editCtx dst fun x => x.restored y dst)

/-- A job that stands for one of another device: it only says which queue its launches return to. -/
def Job.elsewhere (queue ctx : Nat) : Job := Job.submitted queue 0 ctx

/-- A run of another device's record is kept for restore, with its age (R357). -/
def State.adoptRun (s : State) (c queue : Nat) (r : Nat × Run) : State :=
  let j := s.nextJob
  let x : Run := { (r.2.moveTo c).setParts .frozenOut with
    state := .frozen, freeze := none, job := j, age := s.cycle - r.2.age }
  let job := Job.elsewhere queue c
  let s : State := { s with
    nextJob := if j + 1 ≥ 2 ^ 32 then 1 else j + 1
    jobs := s.jobs.put j { job with runs := [r.1], phase := x.phase }
    runs := s.runs.put r.1 x }
  s.queueRestore r.1

/-- The blocks of a run's tiles come with their side bands (R363). -/
def State.adoptTiles (s : State) (r : Nat) (bs : List (Nat × List Byte × Side)) : State :=
  bs.foldl (fun (s : State) b =>
    let a := tileHome r 0 0 0 0 + b.1
    State.setSide { s with mem := memWrite s.mem a b.2.1 } a b.2.2) s

/-- What another device's record holds comes to this device (R357, R371). -/
def State.adopt (s : State) (c : Nat) (v : SavedCtx) (n : Nat) : State :=
  let far : FarState :=
    { v.far with outstanding := v.far.outstanding.map fun q => { q with since := s.cycle } }
  let y : Ctx := { s.ctx c with
    flhead := v.flhead, flovf := v.flovf,
    regs := v.regs, colours := v.colours, waiting := v.waiting, cams := v.cams, far := far }
  let reqs : Tbl Req := v.reqs.foldl (fun (t : Tbl Req) (q : Nat × Req) => t.put q.1 q.2) s.reqs
  let waves : Tbl Wave := v.waves.foldl (fun (t : Tbl Wave) (w : Nat × Wave) => t.put w.1 w.2) s.waves
  let s : State := { s with nextId := s.nextId + n, reqs := reqs, waves := waves }
  let s := v.tiles.foldl (fun (s : State) t => s.adoptTiles t.1 t.2) s
  (List.zip v.runs v.queues).foldl (fun (s : State) r => s.adoptRun c r.2 r.1)
    (s.editCtx c fun x => x.restored y c)

/-- Send a request of a list again, with the context's mark (R376, R377, R382). -/
def State.sendAgain (s : State) (c : Nat) (q : FarReq) : State :=
  s.sendPacket { q.packet with src := s.life.devid, mark := (s.ctx c).far.fullMark }

/-- Every saved request is sent again with its original serial (R382). -/
def State.resendAll (s : State) (c : Nat) : State :=
  let s := (s.ctx c).far.outstanding.foldl (fun (s : State) q => s.sendAgain c q) s
  s.editCtx c fun x => { x with far := { x.far with
    outstanding := x.far.outstanding.map fun q => { q with next := s.cycle + q.interval } } }

/-- Resend, and the context is LIVE. -/
def State.liveAgain (s : State) (c : Nat) : State := (s.resendAll c).endCommand c 0 .live

def execRestore (c : Nat) (s : State) : Result :=
  .next (
    let x := s.ctx c
    if !x.pends 3 || !s.life.hmReady then s
    else match s.openError c with
      | some e => s.failCommand c e
      | none => match s.virtRead c (bits x.savebase 0 55) (min recordRoom x.savesize.toNat) with
        | none => s.failCommand c 3
        | some bytes => match s.savedHere bytes with
          | some (src, v) =>
            if s.quarantined v.far.id then s.failCommand c 5
            else (s.moveCtx src c (v.runs.map Prod.fst)).liveAgain c
          | none => match Config.savedOf s.nextId bytes with
            | none => s.failCommand c 4
            | some (v, n) =>
              if s.quarantined v.far.id then s.failCommand c 5 else (s.adopt c v n).liveAgain c)

/-! ## DESTROY, R346, R357, R383 -/

/-- Cycles of a second. -/
def secCycles : Nat := 1400000000

/-- The job is the current one of its queue. -/
def State.isCurrent (s : State) (j : Nat) : Bool := (s.queue (s.job j).queue).job = some j

/-- Cancel every job of a context; those that were not taken end without having run (R346, R348). -/
def State.cancelCtx (s : State) (c : Nat) : State :=
  let s := s.jobs.foldl (fun (s : State) j =>
    if j.2.ctx != c || j.2.status.complete then s
    else
      let s := s.cancelJob j.1
      if s.isCurrent j.1 || (s.job j.1).status.complete then s
      else if j.2.runs.isEmpty then s.endUnrun j.1 (plainReport 2)
      else s.editJob j.1 fun x => { x with status := { x.status with complete := true } }) s
  let qs : Tbl Queue := s.queues.map fun q =>
    (q.1, if q.2.ctx = c then { q.2 with qhead := q.2.qtail } else q.2)
  { s with queues := qs }

/-- Nothing of a context runs any more. -/
def State.ctxEnded (s : State) (c : Nat) : Bool :=
  (s.jobs.all fun j => j.2.ctx != c || j.2.status.complete) &&
    s.runs.all fun r => r.2.ctx != c || r.2.state == .complete

/-- The context that a request of another device names (R375). -/
def Packet.context (p : Packet) : Option Nat :=
  match p.body with
  | .request _ _ _ _ _ _ c _ => some c
  | _ => none

/-- The id is free: its state is at Reset again (R5), and its requester id in quarantine (R383). -/
def State.freeCtx (s : State) (c : Nat) : State :=
  let id := (s.ctx c).far.id
  let s : State := { s with
    jobs := s.jobs.filter fun j => j.2.ctx != c
    runs := s.runs.filter fun r => r.2.ctx != c
    reqs := s.reqs.filter fun q => match q.2.far with
      | some p => Packet.context p != some c
      | none => (s.run q.2.firing.run).ctx != c
    quarantine := s.quarantine.put id (s.cycle + 2 * secCycles)
    ctxs := s.ctxs.edit c fun _ => Ctx.reset }
  s.endCommand c 0 .free

def execDestroy (c : Nat) (s : State) : Result :=
  .next (
    let x := s.ctx c
    if !x.pends 4 then s
    else if x.prior != .live && x.prior != .out then s.failCommand c 1
    else
      let s := s.cancelCtx c
      if s.ctxEnded c then s.freeCtx c else s)

/-! ## TLBINV, R369 -/

/-- An address lies in the range of an invalidation; INVN 0 means the whole context. -/
def Tlbinv.has (t : Tlbinv) (va size : Nat) : Bool :=
  t.n = 0 || overlap va size t.va.toNat (65536 * t.n)

/-- The access of a slot in an activation. -/
def accessKey (f : Firing) (lsid : Nat) : Nat × Nat × Nat × Nat := (f.run, f.elem, f.act, lsid)

/-- The accesses of a context in the range that have been translated and not performed: buffered
stores and requests of launches that are not frozen.  Those of a frozen one are translated again when it is
restored, and fault where they cannot be (R362, R369). -/
def State.translated (s : State) (t : Tlbinv) : List (Nat × Nat × Nat × Nat) :=
  let live (f : Firing) : Bool := (s.run f.run).ctx = t.ctx && (s.run f.run).state != .frozen
  let counts (q : Req) : Bool := match q.far with
    | some p => Packet.context p = some t.ctx
    | none => live q.firing
  let hbm (a : Nat) : Bool := a < 2 ^ 48
  let reqs := s.reqs.filterMap fun q =>
    let waits := q.2.state == .pending || q.2.state == .held || q.2.state == .satisfied
    if counts q.2 && hbm q.2.home && waits && q.2.op != .fence && t.has (q.2.ea % 2 ^ 55) q.2.size
    then some (accessKey q.2.firing q.2.lsid) else none
  let stores := s.runs.flatMap fun r => r.2.elems.flatMap fun e => e.2.acts.flatMap fun a =>
    a.stores.filterMap fun st =>
      if live st.firing && hbm st.home && t.has (st.ea % 2 ^ 55) st.size then
        some (accessKey st.firing st.lsid)
      else none
  reqs ++ stores

/-- Writing GO removes every cached translation that overlaps the range (R369). -/
def State.invalidate (s : State) : State :=
  if !s.life.hmReady then s
  else
    let t := s.tlbinv
    { s with
      tlb := s.tlb.filter fun e => !(e.ctx = t.ctx && t.has e.va e.size)
      tlbinv := { t with done := false, waits := s.translated t } }

def execTlbinv (s : State) : Result := .next s.invalidate

/-- DONE sets once every access translated with a removed entry has been performed or has faulted
(R369). -/
def execTlbinvDone (s : State) : Result :=
  .next (
    let t := s.tlbinv
    let now := s.translated t
    if t.done || t.waits.any fun k => now.contains k then s
    else { s with tlbinv := { t with done := true, waits := [] } })

end Sys2Proof.Machine
end

