-- ==== Sys2Proof/Machine/Hawser.lean ====
section
/-! DEFINITION. Far requests between devices: their issue, their owners with result cache and journal,
replies, resends, mark queries and restarts (R113, R274, R298, R371 to R384, R393, R405). -/

namespace Sys2Proof.Machine

/-! ## Serial arithmetic, R372 -/

/-- Full serial `a` is behind `b` (R372). -/
def serialBehind (a b : Nat) : Bool :=
  let d := (b + 2 ^ 32 - a % 2 ^ 32) % 2 ^ 32
  1 ≤ d && d ≤ 2 ^ 31

/-- The newer of two full marks. -/
def newer (a b : Nat) : Nat := if serialBehind a b then b else a

/-! ## The requester, R372 to R374 -/

/-- The first retransmit interval, the longest, and the lifetime (R377). -/
def firstInterval : Nat := 20 * usCycles
def longestInterval : Nat := 1000 * usCycles
def farLifetime : Nat := secCycles

/-- The operation code of a request: the opcode of its slot (R79). -/
def MemOp.code : MemOp → Nat
  | .read => 0x60
  | .write => 0x61
  | .ldv => 0x62
  | .stv => 0x63
  | .vers => 0x64
  | .vset => 0x65
  | .ldd => 0x66
  | .std => 0x67
  | .fence => 0x69
  | .aadd => 0x78
  | .aand => 0x79
  | .aor => 0x7A
  | .axor => 0x7B
  | .amin => 0x7C
  | .amax => 0x7D
  | .aswap => 0x7E
  | .acas => 0x7F
  | .afadd => 0x80
  | .xinit => 0x81
  | .xacc => 0x82
  | .xread => 0x83
  | .aincw => 0x84
  | .aser => 0x85
  | .bar => 0x8A
  | .post => 0x8B
  | .signal => 0x8C
  | .arm => 0x8D
  | .cancel => 0x8E
  | .doneq => 0x8F
  | .kvcommit => 0xE5
  | .ldk => 0xE6

/-- The operations that cross a link (R374). -/
def farOps : List MemOp :=
  [.read, .write, .ldv, .stv, .vers, .vset, .ldd, .std, .aadd, .aand, .aor, .axor, .amin, .amax, .aswap,
    .acas, .afadd, .xinit, .xacc, .xread, .aincw, .aser, .bar, .post, .signal, .arm, .kvcommit, .ldk]

def opOfCode (n : Nat) : Option MemOp := farOps.find? fun o => MemOp.code o = n

/-- The next serial is used (R373). -/
def FarState.advance (f : FarState) : FarState :=
  let n := (f.serialNext + 1) % 65536
  { f with serialNext := n, lap := if n = 0 then (f.lap + 1) % 65536 else f.lap }

/-- The number by which the n-th request of the machine is known on the list where it has no serial: a
reply to one request of an engine answers no other (R374). -/
def looseSerial (n : Nat) : Nat := 2 ^ 32 + n

/-- Issue a request, by its number: it joins the list with the next serial, and is sent (R373). -/
def State.issueFar (s : State) (c n : Nat) (w : FarWait) : State :=
  let f := (s.ctx c).far
  let fs := if w.serialled then f.fullNext else looseSerial n
  let p := { w.packet with src := s.life.devid, id := f.id, fs := fs }
  let q : FarReq :=
    ⟨fs, w.serialled, p, w.req, w.firing, s.cycle, s.cycle + firstInterval, firstInterval, false, false⟩
  let f' : FarState := { f with outstanding := f.outstanding ++ [q] }
  let s := s.editCtx c fun x => { x with far := if w.serialled then f'.advance else f' }
  s.sendAgain c q

/-- The packet of a request of an activation. -/
def State.farPacket (s : State) (q : Req) : FarWait :=
  let c := (s.run q.firing.run).ctx
  let serialled := q.op = .bar || q.cls != .read
  ⟨s.packetTo c (nbits q.ea 56 8)
    (.request (MemOp.code q.op) q.size q.ea q.data q.extra [] c serialled), serialled, 0, some (q.firing, q.out)⟩

/-- A request of an activation may be issued: its order allows, and it is not on the list. -/
def State.mayIssue (s : State) (c n : Nat) (q : Req) : Bool :=
  isFarHome q.home && q.state == .pending && (s.run q.firing.run).ctx = c &&
    (s.run q.firing.run).state != .frozen &&
    s.onItsWay n q &&
    !s.listedFar n q

/-- The launch that a waiting request belongs to is frozen. -/
def State.waitFrozen (s : State) (w : FarWait) : Bool :=
  match w.firing with
  | some (f, _) => (s.run f.run).state == .frozen
  | none => s.runs.any fun r => r.2.state == .frozen && (r.2.cmds.find w.req).isSome

/-- The context issues requests: it is LIVE, or a command runs on it that has not stopped them: SWITCHOUT once its
launches are frozen (R357, R382). -/
def State.issues (s : State) (c : Nat) : Bool :=
  let x := s.ctx c
  x.state == .live || (x.prior == .live && ((x.pends 2 && !s.allFrozen c) || x.pends 4))

/-- Issue `n`: a request that waits for the window, or a pending request of an activation; one whose entry a
word error has hit is not sent (R298, R373, R393). -/
def execFarRequestIssue (c n : Nat) (s : State) : Result :=
  .next (
    let x := s.ctx c
    if !s.issues c then s
    else match x.far.waiting.find n with
      | some w =>
        if s.waitFrozen w || (w.serialled && !x.far.windowOpen) then s
        else (s.editCtx c fun y =>
          { y with far := { y.far with waiting := y.far.waiting.del n } }).issueFar c n w
      | none => match s.reqs.find n with
        | none => s
        | some q =>
          let w := { s.farPacket q with req := n }
          if !s.mayIssue c n q || (w.serialled && !x.far.windowOpen) then s
          else if q.cls = .immediate && s.overlapsStore q.firing q.lsid q.home q.span then
            s.trapRequest n q 0x01 (word q.ea)
          else if q.spoiled then s.settle n q .poison
          else (s.taint q.firing.run q.firing.colour).issueFar c n w)

/-! ## Owners, R376 -/

/-- The owners: quay q of die d is 16d + q, the harbourmaster's token cache is the last. -/
def harbourOwner : Nat := 384

def State.owner (s : State) (o : Nat) : Owner := (s.owners.find o).getD Owner.reset

def State.editOwner (s : State) (o : Nat) (f : Owner → Owner) : State :=
  { s with owners := s.owners.put o (f (s.owner o)) }

/-- The slots of a result cache (R376). -/
def cacheSlots : Nat := 4096

/-- The home address of a journal record (R380). -/
def journalAt (o i : Nat) : Nat :=
  if o = harbourOwner then appHome (96 * 2 ^ 30 - 131072 + 32 * i)
  else o / 16 * 2 ^ 36 + stackBytes - journalBytes + 65536 * (i / 128) + 4096 * (o % 16) + 32 * (i % 128)

/-- The record of a slot (R380). -/
def CacheSlot.record (x : CacheSlot) : List Byte :=
  let word0 (fs st : Nat) : Nat := fs % 2 ^ 32 + x.id * 2 ^ 32 + st * 2 ^ 56
  match x.body with
  | .entry e =>
    toBytes 8 (word0 e.fs 1) ++ toBytes 8 e.result.toNat ++ toBytes 8 (e.flags % 64 + e.reply % 256 * 64) ++
      toBytes 8 (x.high % 2 ^ 32)
  | .tombstone _ =>
    toBytes 8 (word0 0 2) ++ toBytes 8 0 ++ toBytes 8 0 ++ toBytes 8 (x.high % 2 ^ 32)

/-- Fill a slot, with its record, which a poisoned block of the journal does not take (R380, R393). -/
def State.putSlot (s : State) (o i : Nat) (x : CacheSlot) : State :=
  (s.editOwner o fun y => { y with slots := y.slots.put i x }).deviceWrite (journalAt o i) x.record

/-- Free a slot: its record's STATE becomes 0 (R380). -/
def State.dropSlot (s : State) (o i : Nat) : State :=
  (s.editOwner o fun y => { y with slots := y.slots.del i }).deviceWrite (journalAt o i + 7) [0]

/-- The slots of an id. -/
def Owner.ofId (o : Owner) (id : Nat) : Tbl CacheSlot := o.slots.filter fun x => x.2.id = id

def CacheSlot.entry? (x : CacheSlot) : Option FarEntry :=
  match x.body with
  | .entry e => some e
  | .tombstone _ => none

/-- The entries of an id, with their slots. -/
def Owner.entries (o : Owner) (id : Nat) : List (Nat × FarEntry) :=
  (o.ofId id).filterMap fun x => x.2.entry?.map fun e => (x.1, e)

/-- The high mark of an id (R376). -/
def Owner.high (o : Owner) (id : Nat) : Option Nat :=
  match o.ofId id with
  | [] => none
  | x :: xs => some (xs.foldl (fun m y => newer m y.2.high) x.2.high)

/-- The newest of a list of entries. -/
def newestEntry : List (Nat × FarEntry) → Option (Nat × FarEntry)
  | [] => none
  | x :: xs => some (xs.foldl (fun m y => if serialBehind m.2.fs y.2.fs then y else m) x)

/-- Entries of an id retire; the slot of the last becomes its tombstone (R376, R378). -/
def State.retireEntries (s : State) (o id : Nat) (p : FarEntry → Bool) : State :=
  let all := (s.owner o).entries id
  let out := all.filter fun x => p x.2
  let tomb := if out.length = all.length then (newestEntry out).map Prod.fst else none
  out.foldl (fun (s : State) x =>
    if tomb = some x.1 then
      s.putSlot o x.1 { (s.owner o).slots.get x.1 with body := .tombstone (s.cycle + 2 * secCycles) }
    else s.dropSlot o x.1) s

/-- A packet of an id has come at `now`: the slot takes its mark and its source (R376, R378). -/
def CacheSlot.see (x : CacheSlot) (now mark src : Nat) : CacheSlot :=
  { x with
    high := newer x.high mark
    last := now
    asked := now
    gone := none
    body := match x.body with
      | .entry e => .entry { e with reply := src }
      | t => t }

/-- A packet of an id has come: its high mark, which the records of its slots mirror, and the entries
behind it retire (R376, R378, R380). -/
def State.noteMark (s : State) (o id mark src : Nat) : State :=
  let s := ((s.owner o).ofId id).foldl (fun (s : State) x =>
    s.putSlot o x.1 (x.2.see s.cycle mark src)) s
  s.retireEntries o id fun e => serialBehind e.fs (((s.owner o).high id).getD mark)

/-- The reply code of an LDK whose entry is to be loaded next (R227): the result is the address of the
entry; the codes below it are those of R27. -/
def kindEntry : Nat := 8

/-- What an owner's home answers. -/
inductive FarAns
  | done (e : FarEntry) (block : List Byte) (s : State)
  /-- the request faults, and is not performed (R375) -/
  | fault (cause : Nat)
  /-- not now: the block is busy -/
  | later
  /-- an LDV that the home holds (R148) -/
  | held

/-- A home performs a request of another device (R282, R376, R393). -/
def State.performFar (s : State) (p : Packet) (op sz home : Nat) (data data2 : Word)
    (block : List Byte) : FarAns :=
  if s.blockBusy home then .later
  else if op = opReadBlock then
    if s.poisoned home then .done (resultOf p 0 0 6 none) [] s
    else .done (resultOf p (word (s.sideOf home).descr) 0 0 none) (s.block home) s
  else if op = opWriteBlock then
    .done (resultOf p 0 0 0 none) []
      ((s.writeBlock home (descrFmt data.toNat) (descrScale data.toNat) block).wake home)
  else match opOfCode op with
    | none => .fault 0x01
    | some m => match s.perform m sz home data data2 with
      | .done v fl empty t =>
        let t := if m.isRead then s else t.wake home
        let t := if m = .bar then t.releaseBars home (bits v 0 16) else t
        .done (resultOf p v fl (if empty then 2 else 0) none) [] t
      | .poison => .done (resultOf p 0 0 6 none) [] s
      | .held => .held
      | .arrived gen t => .done (resultOf p 0 0 0 (some (home, gen))) [] (t.wake home)
      | .trap cause => .fault cause
      | .entry base => .done (resultOf p base 0 kindEntry none) [] s

/-- The rights that an operation needs (R367). -/
def needOf (op : Nat) : Nat :=
  if op = opReadBlock then needRead
  else if op = opWriteBlock then needWrite
  else match opOfCode op with
    | some .read | some .ldv | some .vers | some .ldd | some .xread | some .ldk => needRead
    | some .write | some .vset | some .std | some .stv | some .xinit | some .kvcommit => needWrite
    | _ => needBoth

/-- The home of a far address in the context of its owner, or the cause of the fault; a window address
has none (R272, R375). -/
def State.ownerHome (s : State) (c op ea : Nat) : Except Nat Nat :=
  let va := ea % 2 ^ 55
  if (s.windowOffset c va).isSome then .error 0x04
  else match s.walkHome c va (needOf op) with
    | .ok a => .ok a
    | .error (cause, _) => .error cause

/-- The home holds an LDV of another device on its list of deferred readers, once (R148). -/
def State.holdReader (s : State) (p : Packet) (ea sz home : Nat) (data : Word) : State :=
  let same (o : Packet) : Bool := o.id = p.id && o.fs = p.fs
  if s.reqs.any fun q => q.2.far.any same then s
  else
    let (n, s) := s.takeId
    let f : Firing := ⟨0, 2 ^ 64, 0, 0, 0, n, none, none, none⟩
    let q : Req :=
      ⟨f, Out.mk none none false, .ldv, .read, ea, home, sz, data, word n, 0, none, .held, [], some p⟩
    { s with reqs := s.reqs.put n q }

/-- A BAR whose generation has ended has its result (R157). -/
def State.settleBar (s : State) (e : FarEntry) : FarEntry :=
  match e.bar with
  | none => e
  | some (a, g) =>
    let now := nbits (s.num a 8) 48 16
    if now = g then e else { e with result := word now, bar := none }

/-- A repeat is answered from the cache (R376). -/
def State.answerRepeat (s : State) (o i : Nat) (p : Packet) (e : FarEntry) : State :=
  let e' := s.settleBar e
  let s := if e' = e then s else
    s.putSlot o i { (s.owner o).slots.get i with body := .entry e' }
  s.replyEntry p e' []

/-- The lowest free slot of a cache. -/
def Owner.freeSlot (o : Owner) : Option Nat := (upTo cacheSlots).find? fun i => (o.slots.find i).isNone

/-- A performed request gets its entry, and the id's tombstone goes (R376). -/
def State.cacheEntry (s : State) (o i : Nat) (p : Packet) (high : Nat) (e : FarEntry) : State :=
  let s := ((s.owner o).ofId p.id).foldl (fun (s : State) x => match x.2.body with
    | .tombstone _ => s.dropSlot o x.1
    | .entry _ => s) s
  s.putSlot o i ⟨p.id, high, s.cycle, s.cycle, none, .entry e⟩

/-- An owner replies BUSY, and counts it (R376, R384). -/
def State.answerBusy (s : State) (o : Option Nat) (p : Packet) : State :=
  (match o with
    | some o => s.editOwner o fun y => { y with busycnt := min (y.busycnt + 1) 65535 }
    | none => s).answerTo p .busy

/-- The algorithm of R376 for a serialled request; `k` performs it. -/
def State.onSerialled (s : State) (o : Nat) (p : Packet) (k : State → FarAns) : State :=
  let t := s.noteMark o p.id p.mark p.src
  let high := ((t.owner o).high p.id).getD p.mark
  match ((t.owner o).entries p.id).find? fun x => x.2.fs = p.fs with
  | some (i, e) => t.answerRepeat o i p e
  | none =>
    if serialBehind p.fs high then t
    else match (t.owner o).freeSlot with
      | none => t.answerBusy (some o) p
      | some i => match k t with
        | .later | .held => s
        | .fault cause => t.answerTo p (.faultReply cause)
        | .done e block u => (u.cacheEntry o i p high e).replyEntry p e block

/-! ## Tokens of other devices, R113 -/

/-- The result words of a token: it was delivered, or no launch was there for it (R376). -/
def tokenDelivered : Word := 0
def tokenUnplaced : Word := 1

/-- The launch of a context, with the key, that a destination word names on this device (R113). -/
def State.findPlace (s : State) (c : Nat) (dest : Word) : Option (Nat × Nat) :=
  let at_ (r : Nat × Run) : Option (Nat × Nat) :=
    match findCluster (bits dest 27 5) (bits dest 23 4) r.2.parts 0 with
    | some (p, k) =>
      if r.2.deaf p then none else some (r.1, keyOf p k (bits dest 17 6))
    | none => none
  let of (st : RunState) : List (Nat × Run) := s.runs.filter fun r => r.2.ctx = c && r.2.state == st
  firstSome at_ (of .running ++ of .frozen)

/-- The harbourmaster delivers a token of another device, or reports back (R113, R362). -/
def State.deliverFar (s : State) (p : Packet) (dest payload tbits : Word) : FarAns :=
  let c := bits tbits 58 6
  match s.findPlace c dest with
  | none => .done (resultOf p tokenUnplaced 0 0 none) [] s
  | some (r, key) =>
    let (n, s) := s.takeId
    let kind := ([Kind.data, .null, .empty, .unseen, .stop, .kill, .poison, .command][bits tbits 7 3]?).getD
      .data
    let tok : Tok := ⟨payload, kind, bits tbits 4 3, false, nbit tbits.toNat 2, 0⟩
    .done (resultOf p tokenDelivered 0 0 none) []
      (s.addFlit n ⟨r, key, key, bits dest 12 5, bits dest 10 2, c, bits dest 0 10, bits dest 32 16, tok,
        none, true, true⟩)

/-! ## OWNER_REQUEST, R375, R376 -/

/-- A request of a context arrives at its owner; one without serial counts as a packet of its id, and is
performed as it stands (R374 to R376). -/
def State.onRequest (s : State) (p : Packet) (op sz ea : Nat) (data data2 : Word) (block : List Byte)
    (c : Nat) (serialled : Bool) : State :=
  match s.ownerHome c op ea with
  | .error cause => s.answerTo p (.faultReply cause)
  | .ok a =>
    let k (t : State) : FarAns := t.performFar p op sz a data data2 block
    if !s.awake a then s.callDie a
    else if serialled then s.onSerialled (homeQuay a) p k
    else
      let t := s.noteMark (homeQuay a) p.id p.mark p.src
      match k t with
      | .later => s
      | .held => t.holdReader p ea sz a data
      | .fault cause => t.answerTo p (.faultReply cause)
      | .done e b u => u.replyEntry p e b

/-- The owner of a request: the quay that homes its block, where it has a home, or the harbourmaster for a
token (R376). -/
def State.ownerOf (s : State) (p : Packet) : Option Nat :=
  match p.body with
  | .request op _ ea _ _ _ c _ => match s.ownerHome c op ea with
    | .ok a => some (homeQuay a)
    | .error _ => none
  | _ => some harbourOwner

/-- An owner receives a request or a token; the state of the context decides (R375). -/
def execOwnerRequest (p : Packet) (s : State) : Result :=
  .next (
    let by_ (c : Nat) (serve : State) : State :=
      match (s.ctx c).state with
      | .live | .out => serve
      | .busy => s.answerBusy (s.ownerOf p) p
      | .free => s.answerTo p (.faultReply 0x10)
    match p.body with
    | .request op sz ea data data2 block c serialled =>
      by_ c (s.onRequest p op sz ea data data2 block c serialled)
    | .token dest payload tbits =>
      by_ (bits tbits 58 6) (s.onSerialled harbourOwner p fun t => t.deliverFar p dest payload tbits)
    | _ => s)

/-! ## REMOTE_REPLY, R372, R375, R377 -/

def State.editFar (s : State) (c : Nat) (f : FarState → FarState) : State :=
  s.editCtx c fun x => { x with far := f x.far }

/-- Change one request of the outstanding list. -/
def State.editFarReq (s : State) (c fs : Nat) (f : FarReq → FarReq) : State :=
  s.editFar c fun x =>
    { x with outstanding := x.outstanding.map fun q => if q.fs = fs then f q else q }

/-- A request leaves the list (R372), or those that an owner refused. -/
def State.dropFar (s : State) (c fs : Nat) : State :=
  s.editFar c fun x =>
    { x with
      outstanding := x.outstanding.filter fun q => q.fs != fs
      refused := x.refused.filter fun q => q.fs != fs }

/-- The address, or the destination word, of a request: TRAPINFO of REMOTE (R113, R375). -/
def packetPlace (p : Packet) : Word :=
  match p.body with
  | .request _ _ ea .. => word ea
  | .token dest .. => dest
  | _ => 0

/-- The firing that a request belongs to: its own, or that of its command (R169, R375). -/
def State.farFiring (s : State) (q : FarReq) : Option Firing :=
  match q.firing with
  | some (f, _) => some f
  | none => (s.cmdRun q.req).map fun x => x.2.msg.firing x.1

/-- The launch of a firing takes traps: it is there, and not cancelled. -/
def State.trapsAt (s : State) (f : Firing) : Bool :=
  (s.runs.find f.run).isSome && !(s.run f.run).deaf (partOf f.elem)

/-- A request that nobody waits for any more is abandoned: it is not sent again in any form; a command that
waited for its block completes without further effect (R346, R377). -/
def State.loseFar (s : State) (c : Nat) (q : FarReq) : State :=
  let s := s.dropFar c q.fs
  if q.firing.isSome then { s with reqs := s.reqs.del q.req }
  else match s.cmdRun q.req with
    | some (r, _) =>
      if q.serialled then s else (s.editCmd r q.req fun y => { y with farBusy := false }).finish r q.req 0
    | none => s

/-- A command whose far block failed stops; one whose work is over holds back the later commands of its engine
(R169, R375). -/
def State.farStop (s : State) (r n : Nat) : State :=
  match (s.run r).cmds.find n with
  | none => s
  | some k => match k.state with
    | .running => s.stopCmd r n k
    | .finished _ => s.editCmd r n fun y => { y with farBusy := true }
    | _ => s

/-- A request that failed traps REMOTE, and waits for its resumption; its engine stops (R169, R375, R377).  A
read of an engine leaves the list: the resumed command forms it again. -/
def State.trapFar (s : State) (c : Nat) (q : FarReq) : State :=
  match s.farFiring q with
  | none => s.loseFar c q
  | some f =>
    if !s.trapsAt f then s.loseFar c q
    else match q.firing, q.serialled, (s.run f.run).cmds.find q.req with
      | none, false, some k =>
        ((s.dropFar c q.fs).editCmd f.run q.req fun y => { y with farBusy := false }).engineFault f.run
          q.req { k with farBusy := false } 0x10 (packetPlace q.packet)
      | none, _, _ =>
        (s.farStop f.run q.req).trap f.run
          (s.trapRecord f 0x10 (packetPlace q.packet) (.far c q.fs))
      | _, _, _ => s.trap f.run (s.trapRecord f 0x10 (packetPlace q.packet) (.far c q.fs))

/-- A request that its owner refused leaves the list, and traps (R375). -/
def State.refuseFar (s : State) (c : Nat) (q : FarReq) : State :=
  ((s.dropFar c q.fs).editFar c fun x => { x with refused := x.refused ++ [q] }).trapFar c q

/-- The value of a far read, with the bytes of the activation's own stores (R145). -/
def State.farValue (s : State) (q : Req) (v : Word) : Word :=
  if q.op = .read || q.op = .ldv then
    sextWord (8 * q.size)
      (ofBytes (Sys2Proof.Machine.forwarded (s.ownStores q.firing) q.lsid q.home (toBytes q.size v.toNat)))
  else v

/-- A far read of which every byte comes from own stores is not poisoned by its block (R279). -/
def State.shadowed (s : State) (q : Req) : Bool :=
  (q.op = .read || q.op = .ldv) && allForwarded (s.ownStores q.firing) q.lsid q.home q.size

/-- The answer to a request of an activation. -/
def State.answerReq (s : State) (n : Nat) (q : Req) (v : Word) (fl kind : Nat) : State :=
  if kind = kindEntry then s.loadEntry n q v
  else if kind = 6 then
    if s.shadowed q then s.reply n q (Tok.data (s.farValue q 0)) 0
    else s.reply n q (Tok.poisonAt (blockAt q.ea)) 0
  else if kind = 2 then s.reply n q { Tok.nul with kind := .empty } fl
  else s.reply n q (Tok.data (s.farValue q v)) fl

/-- The answer to an engine's request: the block of a read, or the end of a write (R167, R393). -/
def State.answerCmd (s : State) (r n : Nat) (k : Command) (p : Packet) (v : Word) (kind : Nat)
    (block : List Byte) : State :=
  if !k.farBusy then s
  else
    let s := s.editCmd r n fun y => { y with farBusy := false }
    if kind = 6 then s.engineFault r n { k with farBusy := false } 0x0C (packetPlace p)
    else s.editCmd r n fun y => { y with farBlk := some ⟨block, v.toNat⟩ }

/-- A request of the list is answered (R372). -/
def State.answered (s : State) (c : Nat) (q : FarReq) (v : Word) (fl kind : Nat) (block : List Byte) :
    State :=
  match q.packet.body with
  | .token .. => if v = tokenUnplaced then s.refuseFar c q else s.dropFar c q.fs
  | _ =>
    let s := s.dropFar c q.fs
    match q.firing with
    | some _ => match s.reqs.find q.req with
      | some x => s.answerReq q.req x v fl kind
      | none => s
    | none => match s.cmdRun q.req with
      | some (r, k) => if q.serialled then s else s.answerCmd r q.req k q.packet v kind block
      | none => s

/-- The context that a reply is for: one that is on the device and has the request on its list; a reply
for an OUT context is discarded (R382). -/
def State.replyCtx (s : State) (p : Packet) : Option (Nat × FarReq) :=
  firstSome (fun c =>
    if (c.2.state == .live || c.2.state == .busy) && c.2.far.id = p.id then
      (c.2.far.outstanding.find? fun q => q.fs = p.fs).map fun q => (c.1, q)
    else none) s.ctxs

def execRemoteReply (p : Packet) (s : State) : Result :=
  .next (match s.replyCtx p with
    | none => s
    | some (c, q) =>
      match p.body with
      | .busy => s.editFarReq c q.fs fun x => { x with next := s.cycle + x.interval, busy := true }
      | .faultReply _ => s.refuseFar c q
      | .reply v fl kind block => s.answered c q v fl kind block
      | _ => s)

/-! ## Resends, R377 -/

/-- A request of a context by its full serial. -/
def Ctx.farReq (x : Ctx) (fs : Nat) : Option FarReq := x.far.outstanding.find? fun q => q.fs = fs

/-- The context resends: it is LIVE, or a switch-out drains it (R377, R382). -/
def Ctx.resends (x : Ctx) : Bool := x.state == .live || x.state == .busy

/-- A resend counts at the link it takes: the first that is up and on a route (R411). -/
def State.countResend (s : State) (dev : Nat) : State :=
  match s.links.find? fun l => l.2.state == linkUp && Config.linkRoutes dev l.1 with
  | some l => { s with links := s.links.edit l.1 fun x =>
      { x with resends := min (x.resends + 1) (2 ^ 32 - 1) } }
  | none => s

/-- An interval has passed without a reply: the request is sent again, and the interval doubles, but
for the resend that a BUSY reply scheduled (R377). -/
def execRetransmit (c fs : Nat) (s : State) : Result :=
  .next (match (s.ctx c).farReq fs with
    | none => s
    | some q =>
      if !(s.ctx c).resends || q.expired || s.cycle < q.next || s.cycle ≥ q.since + farLifetime then s
      else
        let i := if q.busy then q.interval else min (2 * q.interval) longestInterval
        (s.editFarReq c fs fun x =>
          { x with interval := i, next := s.cycle + i, busy := false }).sendAgain c q
          |>.countResend q.packet.dst)

/-- The lifetime has passed without a reply (R377). -/
def execRetransmitLifetimeExpiry (c fs : Nat) (s : State) : Result :=
  .next (match (s.ctx c).farReq fs with
    | none => s
    | some q =>
      if !(s.ctx c).resends || q.expired || s.cycle < q.since + farLifetime then s
      else (s.editFarReq c fs fun x => { x with expired := true }).trapFar c q)

/-! ## Mark queries, R378 -/

/-- Cycles of a millisecond. -/
def msCycles : Nat := 1400000

/-- The slot that speaks for an id: any of its slots. -/
def Owner.slotOf (o : Owner) (id : Nat) : Option CacheSlot := ((o.ofId id).head?).map Prod.snd

/-- The id has been silent for 1 ms since its last packet or query (R378). -/
def execMarkQuery (o id : Nat) (s : State) : Result :=
  .next (match ((s.owner o).entries id).head?, (s.owner o).slotOf id with
    | some (_, e), some x =>
      if s.cycle < x.asked + msCycles then s
      else
        let s := s.editOwner o fun y =>
          { y with slots := y.slots.map fun z =>
              if z.2.id = id then (z.1, { z.2 with asked := s.cycle }) else z }
        s.sendPacket ⟨s.life.devid, e.reply, id, 0, 0, .markQuery⟩
    | _, _ => s)

/-- The full mark of an id at this device, live or saved; none for an id that is unknown or in
quarantine (R378, R382, R383). -/
def State.markOf (s : State) (id : Nat) : Option Nat :=
  if s.quarantined id then none
  else
  let known (x : Ctx) : Bool := x.far.id = id && (x.state == .live || x.state == .out ||
    (x.state == .busy && (x.prior == .live || x.prior == .out)))
  let live := s.ctxs.find? fun c => known c.2 && c.2.state != .out
  match live with
  | some c => some c.2.far.fullMark
  | none => match s.ctxs.find? fun c => known c.2 with
    | some c => (c.2.saved).map fun v => v.far.fullMark
    | none => none

def execMarkQueryAnswer (p : Packet) (s : State) : Result :=
  .next (match p.body with
    | .markQuery => match s.markOf p.id with
      | some m => s.sendPacket ⟨s.life.devid, p.src, p.id, 0, m, .markAnswer⟩
      | none => s.sendPacket ⟨s.life.devid, p.src, p.id, 0, 0, .gone⟩
    | _ => s)

/-- A mark answer retires what it has passed; GONE starts a wait (R378). -/
def execMarkAnswerReceipt (o : Nat) (p : Packet) (s : State) : Result :=
  .next (match p.body with
    | .markAnswer => s.noteMark o p.id p.mark p.src
    | .gone => s.editOwner o fun y =>
        { y with slots := y.slots.map fun z =>
            if z.2.id = p.id then (z.1, { z.2 with gone := some (z.2.gone.getD s.cycle) }) else z }
    | _ => s)

/-- The wait after GONE has ended, or a second of queries without an answer: the entries are orphaned
(R378, R384). -/
def execGoneWaitExpiry (o id : Nat) (s : State) : Result :=
  .next (match (s.owner o).slotOf id with
    | none => s
    | some x =>
      let due := match x.gone with
        | some t => t + 2 * secCycles
        | none => x.last + msCycles + secCycles
      if s.cycle < due then s
      else
        let n := ((s.owner o).entries id).length
        (s.retireEntries o id fun _ => true).editOwner o fun y =>
          { y with orphaned := min (y.orphaned + n) 65535 })

/-- A tombstone is freed 2 s after it was made (R378). -/
def execTombstoneFree (o id : Nat) (s : State) : Result :=
  .next (((s.owner o).ofId id).foldl (fun (s : State) x => match x.2.body with
    | .tombstone t => if s.cycle ≥ t then s.dropSlot o x.1 else s
    | .entry _ => s) s)

/-- A quarantine of 2 s has ended (R383). -/
def execQuarantineExpiry (id : Nat) (s : State) : Result :=
  .next (match s.quarantine.find id with
    | some t => if s.cycle ≥ t then { s with quarantine := s.quarantine.del id } else s
    | none => s)

/-! ## QUAY_RESTART, R381 -/

/-- A slot as its record gives it; the kind of a result, and whether a BAR waits, stand in no record
and stay (log 26). -/
def readSlot (now : Nat) (bs : List Byte) (old : Option CacheSlot) : Option CacheSlot :=
  let w0 := numAt bs 0 8
  let w2 := numAt bs 16 8
  let high := numAt bs 24 4
  let kept := match old with
    | some x => x.entry?
    | none => none
  let kind := match kept with
    | some e => e.kind
    | none => 0
  let bar := match kept with
    | some e => e.bar
    | none => none
  let slot (b : SlotBody) : CacheSlot := ⟨nbits w0 32 24, high, now, now, none, b⟩
  match nbits w0 56 8 with
  | 1 => some (slot (.entry
      ⟨nbits w0 0 32, word (numAt bs 8 8), nbits w2 0 6, kind, nbits w2 6 8, bar⟩))
  | 2 => some (slot (.tombstone (now + 2 * secCycles)))
  | _ => none

/-- The cache of an owner as its journal gives it (R381). -/
def State.rebuilt (s : State) (o : Nat) : Tbl CacheSlot :=
  (upTo cacheSlots).filterMap fun i =>
    (readSlot s.cycle (s.bytes (journalAt o i) 32) ((s.owner o).slots.find i)).map fun x => (i, x)

/-- Each id takes the newest high mark among its records (R381). -/
def shareHigh (slots : Tbl CacheSlot) : Tbl CacheSlot :=
  let best (x : CacheSlot) : Nat :=
    slots.foldl (fun m y => if y.2.id = x.id then newer m y.2.high else m) x.high
  slots.map fun x => (x.1, { x.2 with high := best x.2 })

def State.restartOwner (s : State) (o : Nat) : State :=
  let slots := shareHigh (s.rebuilt o)
  s.editOwner o fun y => { y with slots := slots, restarts := min (y.restarts + 1) 65535 }

def execQuayRestart (o : Nat) (s : State) : Result :=
  .next (if o > harbourOwner then s else s.restartOwner o)

end Sys2Proof.Machine
end

