-- ==== Sys2Proof/Machine/Traps.lean ====
section
/-! DEFINITION. TRET and TSKIP: the return from a trap, by what the trap stopped (R156, R163, R165, R169,
R202, R203, R236, R245, R247, R254, R307, R375, R377). -/

namespace Sys2Proof.Machine

/-! ## A parked firing, R163 -/

/-- The instruction of a firing's slot. -/
def State.instrOf (s : State) (f : Firing) : Option Instr :=
  match decode (s.slotWord f) with
  | .ok i => some i
  | .error _ => none

/-- The value of a TSKIP reaches the targets of a parked firing; its LSID is nulled and its exit counts
(R90, R163, R165). -/
def State.emitSkipped (s : State) (f : Firing) (v : Word) : State :=
  match s.instrOf f with
  | some i => s.forwarded f i (Tok.data v)
  | none => s

/-- The promise word with the handle's current due time (R156). -/
def State.currentPromise (s : State) (f : Firing) : Word :=
  match s.copyOf f.run f.elem f.lv with
  | some c => promiseWord (bits f.lv 58 6) (bits f.lv 56 2) c.due
  | none => f.lv

/-- WAITT checks again with the current due time (R156). -/
def State.waitAgain (s : State) (f : Firing) : State :=
  let t := { f.lt with val := s.currentPromise f }
  let (n, s) := s.takeId
  s.editElem f.run f.elem fun e => { e with waitts := e.waitts ++ [(n, { f with l := some t })] }

/-- The slot holds ILL, whose firing has nothing to execute again (R70). -/
def State.isIll (s : State) (f : Firing) : Bool :=
  match s.instrOf f with
  | some (.ill _) => true
  | _ => false

/-- TRET of a parked firing (R163, R236).  DEDUCED (notes/assumptions/30.md): the firing of an ILL slot
has nothing to retry, so its resume ends the presentation. -/
def State.retryFiring (s : State) (f : Firing) (cause : Nat) : State :=
  if s.isIll f then s
  else if cause = 0x0E || cause = 0x0F then s.emitOut f (s.outAt f) f.lt.carry
  else if cause = 0x08 then s.waitAgain f
  else if cause = countedMark then s.parkAs f 0x01 countedMark (word f.slot)
  else s.soon (.refire f)

/-- A POISON operand becomes data (R163). -/
def unpoison (v : Word) (t : Tok) : Tok := if t.kind = .poison then Tok.data v else t

/-- A hold register whose word error made an operand POISON takes the value of the TSKIP in its place.  DESIGN
CHOICE: it keeps that value (R163, R393; log 101). -/
def State.mendHold (s : State) (f : Firing) (v : Word) : State :=
  match (s.instrOf f).bind heldOperand with
  | some k =>
    if nbit (s.elem f.run f.elem).holdsBad k then
      s.editElem f.run f.elem fun e =>
        { e with holdsBad := dropBit e.holdsBad k, holds := listSet e.holds k v, before := e.before.del k }
    else s
  | none => s

/-- TSKIP of a parked firing; a buffered write whose spill found the region full tries again, as under TRET
(R163, R236, R245). -/
def State.skipFiring (s : State) (f : Firing) (cause : Nat) (v : Word) : State :=
  if cause = 0x0C then (s.mendHold f v).decide (f.mapToks (unpoison v))
  else if cause = countedMark then s
  else if cause = 0x06 then s.soon (.refire f)
  else s.emitSkipped f v

/-- A parked firing is resumed; a POISON one stays parked under TRET (R163).  `v` is the value of a
TSKIP. -/
def State.resumeFiring (s : State) (r e uid : Nat) (v : Option Word) : State :=
  match (s.elem r e).parked.find? fun p => p.uid = uid with
  | none => s
  | some p =>
    let free := s.editElem r e fun x => { x with parked := x.parked.filter fun q => q.uid != uid }
    match v with
    | none => if p.cause = 0x0C then s else free.retryFiring p.firing p.cause
    | some v => free.skipFiring p.firing p.cause v

/-! ## Requests, commits, spills and ages -/

/-- Causes of a translation (R163, R370). -/
def isTransCause (cause : Nat) : Bool := cause = 0x03 || cause = 0x04

/-- A request trapped at its home goes there again, by a new walk where its address had faulted, or is
answered with the value: a write is nulled (R163, R307, R370). -/
def State.resumeRequest (s : State) (n cause : Nat) (v : Option Word) : State :=
  match s.reqs.find n with
  | none => s
  | some q =>
    if q.state != .trapped then s
    else match v with
      | none =>
        if isTransCause cause then s.retryHome n q
        else { s with reqs := s.reqs.put n { q with state := .pending } }
      | some v => s.reply n q (Tok.data v) 0

/-- The stores that a commit's trap concerned are nulled; their completions carry the value (R163,
R247). -/
def State.nullStores (s : State) (r e uid : Nat) (ea v : Word) : State :=
  match (s.elem r e).act uid with
  | none => s
  | some a =>
    let gone := a.stores.filter fun st => st.ea = ea.toNat
    let lsids := gone.map Store.lsid
    let s := s.editElem r e fun x =>
      { (x.editAct uid fun b => { b with stores := b.stores.filter fun st => st.ea != ea.toNat }) with
        helds := x.helds.filter fun h => h.2.act != uid || !lsids.contains h.2.lsid }
    gone.foldl (fun (s : State) st => s.emitOut st.firing st.out (Tok.data v)) s

/-- The tokens an element kept are stored again (R245). -/
def State.retrySpill (s : State) (r e : Nat) : State :=
  let fs := (s.elem r e).spillHeld
  let s := s.editElem r e fun x => { x with spillHeld := [] }
  fs.foldl (fun (s : State) f =>
    if (s.elem r e).spillHeld.isEmpty then s.storeToken f
    else s.editElem r e fun x => { x with spillHeld := x.spillHeld ++ [f] }) s

/-! ## Engine commands, R169 -/

/-- A stopped command runs again, with a change of its progress. -/
def State.runAgain (s : State) (r n : Nat) (f : Prog → Prog) : State :=
  (s.clearRow r n).editCmd r n fun c => { c with state := .running, prog := f c.prog }

def isSeamout : Instr → Bool
  | .seamout .. => true
  | _ => false

/-- Commands whose TSKIP goes on to the end of the input even at an operand word, and MZERO AUTO, whose
TSKIP gives Eacc (R169, R183). -/
def skipsOn : Instr → Bool
  | .vsoft .. | .vnorm .. | .mzeroAuto .. | .seamout .. => true
  | _ => false

/-- TRET of a command stopped at a fault of memory or of its operand word (R169, R203, R219). -/
def State.retryCmd (s : State) (r n : Nat) (c : Command) (i : Instr) (cause : Nat) : State :=
  if cause = 0x01 && !isSeamout i && c.prog.ints != drawStopped then (s.clearRow r n).finish r n 0
  else s.runAgain r n id

/-- A command of a projection element or a sampler (R169). -/
def Command.endsAtOnce (c : Command) : Bool :=
  let k := siteKind (siteOf c.elem)
  k == .projection || k == .sampler

/-- TSKIP of a command stopped at a fault of memory or of its operand word (R163, R169, R219). -/
def State.skipCmd (s : State) (r n : Nat) (c : Command) (i : Instr) (cause : Nat) (v : Word) : State :=
  if c.endsAtOnce then
    if c.prog.ints = drawStopped then
      s.runAgain r n fun p => { p with ints := drawGiven (v.toNat % 2 ^ 32) }
    else if cause = 0x11 then s.runAgain r n fun p => { p with j := stDrop }
    else s.finish r n v
  else if cause = 0x01 && !skipsOn i then (s.clearRow r n).finish r n v
  else s.runAgain r n fun p => { p with skip := some v }

/-- The operand of a vector command that a port feeds (R179). -/
def isVector (i : Instr) : Bool :=
  match i with
  | .vmap .. | .vfma .. | .vred .. | .vscan .. | .vsoft .. | .vnorm .. | .vcmp .. | .vsel .. | .vrope .. =>
    true
  | _ => false

/-- A strand beat at fault is consumed without effect (R169). -/
def State.dropBeat (s : State) (r n : Nat) (c : Command) (i : Instr) (port : Nat) : State :=
  if isVector i then s.vecTake r n (port / 2)
  else s.takeBeat r c.elem port

/-- A strand beat at fault is replaced (R169). -/
def State.replaceBeat (s : State) (r key port : Nat) (b : Beat) : State :=
  match (s.run r).inEnd key port with
  | none => s
  | some (k, i) => s.editRun r fun x =>
    { x with strands := x.strands.edit k fun st =>
        { st with branches := listModify st.branches i fun br =>
            { br with beats := b :: br.beats.drop 1 } } }

/-- A data beat of zero payload (R169). -/
def zeroBeat (descr : Nat) : Beat := ⟨List.replicate 64 0, descr, 0⟩

/-- The choice for an orphan: to drop it, or to pair it with a value (R163, R267). -/
def State.chooseOrphan (s : State) (r n : Nat) (i : Instr) (v : Option Word) : State :=
  s.runAgain r n fun p =>
    match v with
    | none => { p with j := 1 }
    | some v =>
      if isVector i then { p with j := 2, words := [v] } else { (p.setWd 1 v.toNat) with j := 2 }

/-- The input of a SEAMIN whose token is POISON takes the value as data (R169). -/
def State.giveToken (s : State) (r n : Nat) (c : Command) (i : Instr) (v : Word) : State :=
  match i with
  | .seamin _ k _ _ =>
    (s.editSeam r c.elem fun z =>
      { z with inputs := replaceInput k.toNat (Tok.data v) z.inputs }).runAgain r n id
  | _ => s

/-- A stopped command is resumed; one that has gone, or goes on already, is left alone. -/
def State.withStopped (s : State) (r n : Nat) (k : Command → Instr → State) : State :=
  match (s.run r).cmds.find n with
  | none => s
  | some c =>
    match c.state, c.instr with
    | .stopped, some i => k c i
    | _, _ => s

/-- A decrement that faulted: the completion tries again, or goes on without it (R158, R167). -/
def State.resumeDecrement (s : State) (r n : Nat) (v : Option Word) : State :=
  s.withStopped r n fun c _ => match v with
    | none => (s.clearRow r n).finish r n (c.prog.words.headD 0)
    | some v => ((s.clearRow r n).editCmd r n fun k => { k with task := 0, prog := { k.prog with skip := none } }).finish r n v

/-! ## Far requests, R375, R377 -/

/-- A trap concerns a command. -/
def TrapRec.ofCmd (t : TrapRec) (f : FarState) (n : Nat) : Bool :=
  match t.resume with
  | .engine m | .beat m _ _ | .orphan m _ | .seamPoison m | .decrement m => m = n
  | .far _ fs => (f.outstanding ++ f.refused).any fun q => q.fs = fs && q.req = n && q.firing.isNone
  | _ => false

/-- Another trap of the command waits for its resumption. -/
def State.otherTrap (s : State) (r n : Nat) : Bool :=
  let x := s.run r
  let f := (s.ctx x.ctx).far
  (x.presented.any fun t => t.ofCmd f n) || x.trapQueue.any fun t => t.ofCmd f n

/-- The command of a far block goes on, unless another trap of it waits (R169, R375, R377). -/
def State.farGoOn (s : State) (q : FarReq) (f : Prog → Prog) : State :=
  match q.firing, s.cmdRun q.req with
  | none, some (r, k) =>
    let s := s.editCmd r q.req fun c => { c with prog := f c.prog }
    if s.otherTrap r q.req then s
    else match k.state with
      | .stopped => s.runAgain r q.req id
      | .finished _ => s.editCmd r q.req fun c => { c with farBusy := false }
      | _ => s
  | _, _ => s

/-- An owner refused the request: it is sent with a new serial (R375). -/
def State.sendAnew (s : State) (c : Nat) (q : FarReq) : State :=
  let s := (s.dropFar c q.fs).farGoOn q id
  if q.firing.isSome && (s.reqs.find q.req).isSome then s
  else s.addFar c ⟨q.packet, true, q.req, q.firing⟩

/-- The lifetime passed: the request is sent again as it is, with a new lifetime and interval (R377). -/
def State.sendOn (s : State) (c : Nat) (q : FarReq) : State :=
  ((s.editFarReq c q.fs fun x =>
    { x with
      expired := false
      since := s.cycle
      next := s.cycle + firstInterval
      interval := firstInterval
      busy := false }).sendAgain c q).farGoOn q id

/-- The value of a TSKIP is the payload of a command whose work is over, or that it ends (R169). -/
def State.giveFinished (s : State) (q : FarReq) (v : Word) : State :=
  match q.firing, s.cmdRun q.req with
  | none, some (r, k) => match k.state with
    | .finished _ => s.finish r q.req v
    | _ => if k.endsAtOnce then s.finish r q.req v else s
  | _, _ => s

/-- The request is abandoned, and the value stands for its reply: that of a firing, or what the command of a
far block completes with (R163, R169, R375, R377). -/
def State.abandon (s : State) (c : Nat) (q : FarReq) (v : Word) : State :=
  let s := ((s.dropFar c q.fs).farGoOn q fun p => { p with skip := some v }).giveFinished q v
  match s.reqs.find q.req with
  | some x => if q.firing.isSome then s.reply q.req x (Tok.data v) 0 else s
  | none => s

/-- A far request that trapped is resumed: one that its owner refused, or one past its lifetime. -/
def State.resumeFar (s : State) (c fs : Nat) (v : Option Word) : State :=
  let refused := (s.ctx c).far.refused.find? fun q => q.fs = fs
  let expired := ((s.ctx c).farReq fs).filter FarReq.expired
  match refused, expired, v with
  | some q, _, some v => s.abandon c q v
  | some q, _, none => s.sendAnew c q
  | none, some q, some v => s.abandon c q v
  | none, some q, none => s.sendOn c q
  | none, none, _ => s

/-! ## TRET and TSKIP, R165 -/

/-- TRET after a fault of a translation walks the address again: no cached entry of it stays (R370). -/
def State.freshWalk (s : State) (r key : Nat) (t : TrapRec) (v : Option Word) : State :=
  if isTransCause t.cause && v.isNone then s.dropEntries r key t.info.toNat else s

/-- Go on with what a trap stopped; `v` is the value of a TSKIP (R163). -/
def State.resumeTrap (s : State) (r : Nat) (t : TrapRec) (v : Option Word) : State :=
  match t.resume with
  | .firing e uid => (s.freshWalk r e t v).resumeFiring r e uid v
  | .request n => s.resumeRequest n t.cause v
  | .commit e uid => match v with
    | none => s
    | some v => s.nullStores r e uid t.info v
  | .spill e => s.retrySpill r e
  | .age e uid => s.editAct r e uid fun a => { a with opened := s.cycle, aged := false }
  | .engine n => s.withStopped r n fun c i => match v with
    | none => (s.freshWalk r c.elem t v).retryCmd r n c i t.cause
    | some v => s.skipCmd r n c i t.cause v
  | .beat n port descr => s.withStopped r n fun c i => match v with
    | none => (s.dropBeat r n c i port).runAgain r n id
    | some _ => (s.replaceBeat r c.elem port (zeroBeat descr)).runAgain r n id
  | .orphan n _ => s.withStopped r n fun _ i => s.chooseOrphan r n i v
  | .seamPoison n => s.withStopped r n fun c i => match v with
    | none => s
    | some v => s.giveToken r n c i v
  | .decrement n => match (s.run r).cmds.find n with
    | some c => (s.freshWalk r c.elem t v).resumeDecrement r n v
    | none => s
  | .far _ fs => s.resumeFar (s.run r).ctx fs v
  | .nothing => s

/-- The presented trap that a trap record names (R165). -/
def State.named (s : State) (f : Firing) : Option TrapRec :=
  match (s.run f.run).presented with
  | some t => if t.seq = bits f.lv 16 16 then some t else none
  | none => none

/-- Resume the presented trap, and answer whether it was the record's (R165). -/
def State.returnTrap (s : State) (f : Firing) (o : Out) (v : Option Word) : State :=
  match s.named f with
  | none => s.emitOut f o (Tok.data 0)
  | some t =>
    let s := s.endPresentation f.run
    let s := s.resumeTrap f.run t v
    s.emitOut f o (Tok.data 1)

def execTret (o : Out) (_rep : BitVec 16) (s : State) : Result :=
  onFiring s fun s f => s.returnTrap f o none

def execTskip (o : Out) (_rep : BitVec 16) (s : State) : Result :=
  onFiring s fun s f => s.returnTrap f o (some f.rv)

end Sys2Proof.Machine
end

