-- ==== Sys2Proof/WellFormed.lean ====
section
/-! DEFINITION. When the fields of an instruction are ones its encoding table gives a word to
(R63 to R78, R103, R125, R137, R147, R153, R171, R180, R184, R186, R194, R199, R206, R211, R217,
R339).  The checks that need the whole image are those of the loader. -/

namespace Sys2Proof

/-- A packed form has lanes narrower than the word (R72). -/
def IntForm.wf (f : IntForm) (mayPack : Bool) : Bool :=
  !f.packed || (mayPack && f.sz != .d)

def UnForm.wf (f : UnForm) : Bool := !f.packed || f.sz != .d

/-- The packed float form is that of FP32 (R73). -/
def packedFltOk (packed : Bool) (fmt : FloatFmt) : Bool := !packed || fmt == .s

/-- A target an engine command may hold: none of PORT 11 (R66). -/
def engTargetOk : Option Target → Bool
  | some (.hold _) => false
  | _ => true

/-- The site names an engine of the kind the opcode serves, and no target is a hold register. -/
def Cmd.wf (c : Cmd) (kind : SiteKind) : Bool :=
  siteKind c.site.toNat == kind && engTargetOk c.ta && engTargetOk c.tb

def VecForm.wf (f : VecForm) (fns : Nat) : Bool := f.fn.toNat < fns && f.orp != 3

def TileForm.wf (f : TileForm) (usesPort : Bool) : Bool := usesPort || f.p == 0

/-- SZ of an atomic: 64 or 32 bits (R153). -/
def atomicSz (w : Width) : Bool := w == .d || w == .w

/-- The register index and branch of STRSET and STROCC (R78, R199). -/
def strRegOk (index : BitVec 4) (branch : BitVec 3) (write : Bool) : Bool :=
  index != 15 && !(write && 6 ≤ index.toNat && index.toNat ≤ 12) &&
    (branch == 0 || perBranch index.toNat)

/-- The instruction's fields are ones its entry gives a word to.  An event has no word and is well
formed whatever it names. -/
def Instr.wf : Instr → Bool
  | .stopt _ n => n != 0
  | .add _ f | .sub _ f | .mul _ f | .shl _ f | .shr _ f | .sar _ f | .rol _ f => f.wf true
  | .mulh _ f _ | .min _ f _ | .max _ f _ | .adds _ f _ | .subs _ f _ | .cmp _ f _ => f.wf true
  | .div _ f _ _ | .rem _ f _ _ => f.wf false
  | .and _ f | .or _ f | .xor _ f | .andn _ f | .test _ f _ => f.wf false
  | .abs _ f | .neg _ f | .clz _ f | .popc _ f | .brev _ f => f.wf
  | .extr _ pos len1 _ | .ins _ pos len1 => pos.toNat + len1.toNat + 1 ≤ 64
  | .pack _ f => f.sz != .d
  | .unpk o sz k _ => sz != .d && k.toNat + (if o.tb.isSome then 1 else 0) < 64 / sz.bits
  | .fadd _ f | .fsub _ f | .fmul _ f => packedFltOk f.packed f.fmt
  | .fma _ fmt pk _ _ | .fmin _ fmt pk _ | .fmax _ fmt pk _ | .fsgn _ fmt pk _ => packedFltOk pk fmt
  | .fcmp _ fmt pk cc _ => packedFltOk pk fmt && cc != .ltu && cc != .leu
  | .fcvt _ _ nanov dst src => fcvtId dst && fcvtId src && (!nanov || dst == 0x0C)
  | .ftoi _ _ _ id | .itof _ _ _ id => intId id
  | .stv _ sz _ => sz != .d
  | .aadd _ sz _ | .aand _ sz _ | .aor _ sz _ | .axor _ sz _ | .amin _ sz _ | .amax _ sz _
  | .aswap _ sz _ | .acas _ sz _ _ _ _ | .afadd _ sz _ | .xinit _ sz _ | .xacc _ sz _
  | .xread _ sz _ | .aincw _ sz _ => atomicSz sz
  | .own c | .ownToLace c => c.wf .tile
  | .strset _ _ index branch => strRegOk index branch true
  | .strocc _ _ index branch => strRegOk index branch false
  | .seamin c _ _ _ | .seamout c _ _ => c.wf .seam
  | .mzero c _ | .mzeroAuto c _ | .mldb c | .mldc c _ | .mma c _ | .mmas c _ | .mmax3 c _
  | .mrowReadProgress c | .mscale c | .mbmap c => c.wf .frame
  | .mrow c reg => c.wf .frame && reg != 3
  | .mout c _ _ fmt nanov => c.wf .frame && moutFmt fmt && (!nanov || fmt == 0x0C)
  | .vmap c f => c.wf .vector && f.wf 12
  | .vfma c f => c.wf .vector && f.wf 4
  | .vred c f => c.wf .vector && f.wf 6
  | .vscan c f | .vnorm c f => c.wf .vector && f.wf 2
  | .vsoft c f | .vsel c f | .vrope c f => c.wf .vector && f.wf 1
  | .vcmp c f => c.wf .vector && f.wf 6
  | .cvt c _ fmt nanov => c.wf .converter && cvtFmt fmt && (!nanov || fmt == 0x0C)
  | .tshape c f | .trot c f | .tzmap c f | .tfill c f => c.wf .tile && f.wf false
  | .tread c f | .twrite c f | .tcomp c f | .twin c f | .trep c f => c.wf .tile && f.wf true
  | .texp c f _ | .tsacc c f _ => c.wf .tile && f.wf true
  | .trmw c f _ => c.wf .tile && f.wf true
  | .cpy c _ _ | .cpySetLpitch c _ _ | .cpySetLtask c _ _ | .cpyg c _ | .cpys c _ | .cpy2d c _ _
  | .cpyq c => c.wf .lighter
  | .camld c _ | .camcomp c _ _ _ | .pgather c _ _ | .pray c _ _ | .pscat c _ _ _ | .pstore c
  | .pclear c | .pprior c => c.wf .projection
  | .camset c _ word | .camsetRead c _ word => c.wf .projection && word.toNat ≤ 22
  | .pstat c k => c.wf .projection && k.toNat ≤ 5
  | .topk c | .sample c | .sampleSetStemp c | .sampleSetStopp c | .accept c | .resid c | .draw c
  | .treemask c | .drawtab c => c.wf .sampler
  | .isect c | .union c | .seampol c | .cmpr c => c.wf .seam
  | .rds _ num => (sysRegWritable num.toNat).isSome
  | .wrs _ num => sysRegWritable num.toNat == some true
  | .site _ t => match t with | .site .. => true | .hold _ => false
  | .seqLoop n _ => n != 0
  | _ => true

/-- The rows that are slot words: the opcodes of R79 and the forms of them. -/
def Instr.isSlotWord : Instr → Bool
  | .seqEnd | .seqRun _ | .seqWait _ | .seqPhase | .seqBranch _ _ | .seqLoop _ _ => false
  | .seqThreadResume .. | .tokenArrival _ | .killTokenArrival .. | .killWaveComplete _
  | .firingSelect .. | .activationCommit .. | .relTokenSend .. | .identityRetire .. | .ageLimit
  | .colnewGrant .. | .colourDrain .. | .throttlePass .. | .promiseDue .. | .promise ..
  | .ldvRelease _ | .taskStart _ | .tilePortRequest _ | .quayRequest _ | .pageWalk _
  | .engineCommandStart .. | .engineCompletion .. | .ownerFlipEngine .. | .strandBeatSend ..
  | .controlStrandRequest .. | .tensionUpdate | .cellUpdate _ | .carveRequest _ | .brickClaim _
  | .brickPop _ | .brickPublish _ | .queueDoorbell .. | .jobValidate _ | .berthing _
  | .berthTenureExpiry _ | .admission _ | .preemption _ | .graphSourceInjection _
  | .itemCompletion _ | .freezeWave _ | .freezeComplete .. | .launchRestore .. | .planeSwitch _
  | .create _ | .switchout _ | .switchoutDrainEnd _ | .restore _ | .destroy _ | .tlbinv
  | .tlbinvDone | .farRequestIssue .. | .ownerRequest _ | .remoteReply _ | .retransmit ..
  | .retransmitLifetimeExpiry .. | .markQuery .. | .markQueryAnswer _ | .markAnswerReceipt ..
  | .goneWaitExpiry .. | .tombstoneFree .. | .quarantineExpiry _ | .quayRestart _ | .scrub ..
  | .errcntClear _ | .replayReissue _ | .bistDue .. | .bistRun .. | .bistResult ..
  | .functionReady _ | .diePowerDown _ | .dieWake _ | .thermalThrottle | .thermalShutdown | .resync
  | .attest | .fwload | .imgkey | .poweroff | .poweron | .devidWrite _ | .registerWrite ..
  | .powerLoss | .powerOnReset | .hawserLinkDown .. | .thermalThrottleRelease => false
  | _ => true

/-- The rows that are sequencing words (R339). -/
def Instr.isSeqWord : Instr → Bool
  | .seqEnd | .seqRun _ | .seqWait _ | .seqPhase | .seqBranch _ _ | .seqLoop _ _ => true
  | _ => false

/-- The rows that are engine words: their slot word is a command to an engine (R66, R166). -/
def Instr.isCommand : Instr → Bool
  | .own _ | .ownToLace _ | .seamin .. | .seamout .. | .mzero .. | .mzeroAuto .. | .mldb _
  | .mldc .. | .mma .. | .mmas .. | .mmax3 .. | .mout .. | .mrow .. | .mrowReadProgress _
  | .mscale _ | .mbmap _ | .vmap .. | .vfma .. | .vred .. | .vscan .. | .vsoft .. | .vnorm ..
  | .cvt .. | .vcmp .. | .vsel .. | .vrope .. | .tshape .. | .tread .. | .twrite .. | .tcomp ..
  | .texp .. | .trot .. | .twin .. | .tzmap .. | .tsacc .. | .trep .. | .trmw .. | .tfill ..
  | .cpy .. | .cpySetLpitch .. | .cpySetLtask .. | .cpyg .. | .cpys .. | .cpy2d .. | .cpyq _
  | .camld .. | .camset .. | .camsetRead .. | .camcomp .. | .pgather .. | .pray .. | .pscat ..
  | .pstore _ | .pstat .. | .pclear _ | .pprior _ | .topk _ | .sample _ | .sampleSetStemp _
  | .sampleSetStopp _ | .accept _ | .resid _ | .draw _ | .treemask _ | .drawtab _ | .isect _
  | .union _ | .seampol _ | .cmpr _ => true
  | _ => false

end Sys2Proof
end

