-- ==== Sys2Proof/Machine/Repair.lean ====
section
/-! DEFINITION. Error counters, scrubbing and bit errors, the re-issue of a replay, redundant copies and
CMPR, and the in-service tests of clusters (R30, R80, R231, R392 to R402). -/

namespace Sys2Proof.Machine

/-! ## SCRUB and ERRCNT, R392 to R394 -/

/-- Each uncorrectable block is marked (R393). -/
def State.markAll (s : State) (as : List Nat) : State :=
  as.foldl (fun (s : State) a => s.markPoison a) s

/-- A quay reads its range: `corrected` and `uncorrectable` are the blocks that held errors (R392,
R393).  It runs in A0 and A1. -/
def execScrub (quay : Nat) (corrected uncorrectable : List Nat) (s : State) : Result :=
  .next (
    let d := quay / 16
    let mine (a : Nat) : Bool := a < 2 ^ 48 && homeQuay a = quay
    let x := s.dies.get d
    if !x.hbmReady || x.power > 1 || d ≥ 24 then s
    else
      let bad := uncorrectable.filter mine
      let s := s.markAll bad
      s.editDie d fun y =>
        { y with
          hbmce := min (y.hbmce + (corrected.filter mine).length) 65535
          ue := min (y.ue + bad.length) 255 })

/-! ## Bit errors, R30, R80, R392 to R394 -/

/-- The die whose counters a block's errors count in: none for application-core memory; or that no storage
stands at the address. -/
def State.blockDie (s : State) (a : Nat) : Option (Option Nat) :=
  if isFarHome a then none
  else if isTileHome a then
    let (r, p, c, ring, _) := tileOf a
    let x := s.run r
    if s.tileMasked r (keyOf p c (ringSite ring)) && !(x.part p).done then some (some (x.part p).die) else none
  else if isAppHome a then if a - 2 ^ 48 < coreBytes then some none else none
  else if homeDie a < 24 && a % 2 ^ 36 < stackBytes then some (some (homeDie a)) else none

/-- A block or word has been found uncorrectable (R394). -/
def State.countUe (s : State) (d : Nat) : State :=
  s.editDie d fun y => { y with ue := min (y.ue + 1) 255 }

/-- The die of an element. -/
def State.dieOf (s : State) (r key : Nat) : Nat := ((s.run r).part (partOf key)).die

/-- A block is uncorrectable: its home marks it (R393). -/
def State.blockUpset (s : State) (a : Nat) : State :=
  match s.blockDie a with
  | none => s
  | some none => s.markPoison a
  | some (some d) => (s.markPoison a).countUe d

/-- A waiting token whose SRAM word is uncorrectable is a POISON token (R393). -/
def Wait.poisoned (w : Wait) : Wait := { w with tok := { w.tok with val := 0, kind := .poison, level := 0, paddr := 0 } }

def State.tokenUpset (s : State) (r e n : Nat) : State :=
  match ((s.elem r e).waiting)[n]? with
  | some w =>
    if w.spilled.isSome then s
    else (s.editElem r e fun x => { x with waiting := listModify x.waiting n Wait.poisoned }).countUe (s.dieOf r e)
  | none => s

/-- An uncorrectable entry of a store buffer (R393). -/
def State.storeUpset (s : State) (r e act lsid : Nat) : State :=
  let hit (st : Store) : Bool := st.lsid = lsid && st.spilled.isNone
  match (s.elem r e).act act with
  | some a =>
    if a.stores.any hit then
      (s.editAct r e act fun a =>
        { a with stores := a.stores.map fun st => if hit st then { st with bad := true } else st }).countUe
        (s.dieOf r e)
    else s
  | none => s

def State.holdUpset (s : State) (r e k : Nat) : State :=
  if k < 8 && ((s.run r).elems.find e).isSome then
    (s.editElem r e fun x => { x with holdsBad := setBit x.holdsBad k }).countUe (s.dieOf r e)
  else s

/-- An uncorrectable configuration word is found, and the slots of an element that it belongs to trap ILLEGAL
when they come to be decoded (R80, R393, R394). -/
def State.spoilSlots (s : State) (r e : Nat) (hit : Nat → Word → Bool) : State :=
  s.editElem r e fun x =>
    { x with badSlots := (upTo 32).foldl (fun b k =>
        if hit k ((x.slots[k]?).getD 0) then setBit b k else b) x.badSlots }

/-- The word of a slot becomes another, and is found uncorrectable (R80, R393, R394). -/
def State.configUpset (s : State) (r e k : Nat) (w : Word) : State :=
  if k ≥ 32 || ((s.run r).elems.find e).isNone then s
  else
    let s := s.editElem r e fun x => { x with slots := listSet x.slots k w }
    (s.spoilSlots r e fun n _ => n = k).countUe (s.dieOf r e)

/-- The header or the policy word of an element is uncorrectable: every slot rests on it (log 102). -/
def State.controlUpset (s : State) (r e : Nat) : State :=
  if ((s.run r).elems.find e).isNone then s
  else (s.spoilSlots r e fun _ _ => true).countUe (s.dieOf r e)

/-- A slot word is a command to an engine of its cluster. -/
def commandsTo (site : Nat) (w : Word) : Bool :=
  match decode w with
  | .ok i => i.isCommand && bits w 0 6 = site
  | .error _ => false

/-- A slot word names a strand (R78). -/
def namesStrand (num : Nat) (w : Word) : Bool :=
  match decode w with
  | .ok i => match strandField i with
    | some (n, _) => n = num
    | none => false
  | .error _ => false

/-- The slots of a cluster that command an engine trap (log 102). -/
def State.spoilCommands (s : State) (r site : Nat) : State :=
  (s.run r).elems.foldl (fun (s : State) e =>
    if e.1 / 64 = site / 64 then s.spoilSlots r e.1 fun _ w => commandsTo (siteOf site) w else s) s

/-- A word of a strand's configuration is uncorrectable: the slots that name it at its ends, and those that
command the engines there, trap (log 102). -/
def State.strandUpset (s : State) (r num : Nat) : State :=
  match (s.run r).strands.find? fun st => st.2.num = num with
  | none => s
  | some (_, st) =>
    let s := (s.run r).elems.foldl (fun (s : State) e =>
      if st.endAt e.1 then s.spoilSlots r e.1 fun _ w => namesStrand num w else s) s
    let s := (st.elem :: st.branches.map fun b => b.elem).eraseDups.foldl
      (fun (s : State) key => s.spoilCommands r key) s
    s.countUe (s.dieOf r st.elem)

/-- The policy word of a seam is uncorrectable (log 102). -/
def State.seamUpset (s : State) (r key : Nat) : State :=
  if ((s.run r).seams.find key).isNone then s else (s.spoilCommands r key).countUe (s.dieOf r key)

/-- A bit error of a storage array or a link (R30, R80, R392 to R394). -/
def State.upset (s : State) : Upset → State
  | .corrected d => s.editDie d fun y => { y with soft := min (y.soft + 1) 65535 }
  | .retried d => s.editDie d fun y => { y with linkretry := min (y.linkretry + 1) 65535 }
  | .block a => s.blockUpset a
  | .token r e n => s.tokenUpset r e n
  | .store r e act lsid => s.storeUpset r e act lsid
  | .hold r e k => s.holdUpset r e k
  | .config r e k w => s.configUpset r e k w
  | .control r e => s.controlUpset r e
  | .strand r n => s.strandUpset r n
  | .seam r k => s.seamUpset r k
  | .flit n => { s with flits := s.flits.edit n fun f => { f with port := 3 } }

/-- A write of 0 clears the counts but POISONED (R394). -/
def State.clearErrors (s : State) (d : Nat) : State :=
  if !s.life.hmReady then s
  else s.editDie d fun y => { y with hbmce := 0, soft := 0, ue := 0, linkretry := 0 }

def execErrcntClear (d : Nat) (s : State) : Result := .next (s.clearErrors d)

/-! ## REPLAY_REISSUE, R397 -/

/-- The colour that takes the place of a replayed one: the first that may be handed out from the
pool's own choice on (R115, log 1). -/
def Ctx.replacement (c : Ctx) (n : Nat) : Option Nat :=
  ((upTo 1023).map fun k => 1 + (Config.pickColour n + k) % 1023).find? fun k => c.mayHand k

/-- A descendant drains; the colour itself becomes an alias of its replacement, which belongs to the same firing
(R346, R397). -/
def Ctx.replaced (c : Ctx) (old new : Nat) (set : List Nat) : Ctx :=
  let x := c.colour old
  let c := set.foldl (fun (c : Ctx) n =>
    if n = old || n = noColour then c else c.editColour n fun y => { y with state := .draining }) c
  let c := c.editColour old fun y => { y with state := .allocated, alias_ := some new }
  c.editColour new fun _ =>
    { Colour.fresh with
      state := .allocated
      level := x.level
      replays := x.replays + 1
      replaces := some old
      parents := x.parents
      run := x.run
      elem := x.elem }

/-- A firing that stands for the element that emits a seed again. -/
def seedFiring (r e colour : Nat) : Firing := ⟨r, e, 0, colour, 0, 0, none, none, none⟩

/-- An element emits its seed records of a colour again, into its replacement with tag 0, in their
order (R397). -/
def State.reissueAt (s : State) (r e old new : Nat) : State :=
  let mine := (s.elem r e).seeds.filter fun d => d.colour = old
  let s := s.editElem r e fun x =>
    { x with seeds := x.seeds.map fun d => if d.colour = old then { d with colour := new } else d }
  mine.foldl (fun (s : State) d =>
    let f := seedFiring r e new
    (s.emitAs f d.out.ta d.tok new 0).emitAs f d.out.tb d.tok new 0) s

/-- A request of the pool that waits comes before a replay's (R115). -/
def State.colnewFirst (s : State) (w : Wave) : Bool :=
  let ctx := (s.run w.run).ctx
  ((s.ctx ctx).waiting.any fun v =>
    (s.run v.firing.run).state != .frozen && poolBefore v.level v.since (s.askLevel w) w.asked) ||
    s.replayFirst ctx (s.askLevel w) w.asked

/-- The purge is over and the pool has room: the colour is replaced, and its seeds are emitted again (R115,
R397), in a launch that is not to be frozen first (R398). -/
def execReplayReissue (n : Nat) (s : State) : Result :=
  .next (match s.waves.find n with
    | none => s
    | some w =>
      match w.replay with
      | none => s
      | some old =>
        let x := s.run w.run
        let c := s.ctx x.ctx
        if !s.asksColour w || s.colnewFirst w || !c.roomAt (s.askLevel w) then s
        else match c.replacement s.nextId with
          | none => s
          | some new =>
            let s : State := { s with waves := s.waves.del n }
            let s := s.editCtx x.ctx fun c => c.replaced old new w.colours
            x.elems.foldl (fun (s : State) e => s.reissueAt w.run e.1 old new) s)

/-! ## Redundant copies, R399 to R401 -/

/-- A colour of one of two runs is tainted (R400). -/
def State.copiesTainted (s : State) (r t : Nat) : Bool :=
  (s.ctx (s.run r).ctx).colours.any fun c => (c.2.run = r || c.2.run = t) && c.2.taint

/-- The clusters of a run are suspect (R400, R401); one in a bin stays there. -/
def State.suspectRun (s : State) (r : Nat) : State :=
  (s.run r).parts.foldl (fun (s : State) p =>
    s.editDie p.die fun d =>
      { d with clusters := d.clusters.map fun c =>
          if p.clusters.contains c.1 && c.2.state == .normal then (c.1, { c.2 with state := .suspect })
          else c }) s

/-- The copies of a run leave their lighters. -/
def State.dropCopies (s : State) (r : Nat) : State :=
  let dies : Tbl DieSt := s.dies.map fun d =>
    (d.1, { d.2 with copies := d.2.copies.map fun l => (l.1, l.2.filter fun c => c.run != r) })
  { s with dies := dies }

/-- Nothing of a run is left on its way (R400). -/
def State.clearRun (s : State) (r : Nat) : State :=
  let s := s.dropCopies r
  let s : State := { s with
    flits := s.flits.filter fun f => f.2.run != r
    reqs := s.reqs.filter fun q => q.2.firing.run != r
    walks := s.walks.filter fun w => w.2.firing.run != r
    waves := s.waves.filter fun w => w.2.run != r
    agenda := s.agenda.filter fun h => match h.2 with
      | .refire f => f.run != r
      | _ => true }
  let parts := (s.run r).parts.length
  let s := s.editCtx (s.run r).ctx fun c =>
    (upTo parts).foldl (fun (c : Ctx) p => c.freeColoursOf r p) c
  (s.clearRange (tileHome r 0 0 0 0) (tileHome r parts 0 0 0)).editRun r fun x =>
    { x with presented := none, trapQueue := [], trapRegs := { x.trapRegs with valid := false } }

/-- A seam of the run that receives a comparator strand. -/
def Run.compares (x : Run) (key : Nat) : Bool :=
  x.strands.any fun st => st.2.cmp && st.2.branches.any fun b => b.elem = key

/-- The output of each comparator begins with a STOP of level 6 (R400); a second copy's seams forward nothing
(R399). -/
def Run.stopOutputs (x : Run) : Run :=
  if x.copyB then x
  else { x with strands := x.strands.map fun st =>
      if x.compares st.2.elem && st.2.port = 0 then (st.1, { st.2 with ready := [Beat.stop 6] }) else st }

/-- MCNT of every seam is kept over a restart (R400). -/
def Run.keepCounts (x : Run) (old : Tbl SeamSt) : Run :=
  { x with seams := x.seams.map fun z => (z.1, { z.2 with mcnt := (old.get z.1).mcnt }) }

/-- One copy starts again from the start of its launch (R400). -/
def State.restartRun (s : State) (r : Nat) : State :=
  let seams := (s.run r).seams
  let s := (s.clearRun r).editRun r fun x => (x.loadPlanes.keepCounts seams).stopOutputs
  let s := (s.job (s.run r).job).data.foldl (fun (s : State) d => s.writeWindowData r d) s
  s.injectAll r

/-! ## CMPR, R231 -/

/-- The second input of a comparator: its own in1, or the other copy's strand to it (R399). -/
def State.secondInput (s : State) (r key : Nat) : Nat :=
  let x := s.run r
  if (x.inEnd key 1).isSome then r else x.twin.getD r

/-- MISMATCH, with the seam in TRAPINFO; resuming it only ends the presentation (R163, R231). -/
def State.trapMismatch (s : State) (r n : Nat) (c : Command) : State :=
  let t := s.secondInput r c.elem
  let info := s.placeWord s.life.devid r c.elem 0 0 0 0
  let s := (s.suspectRun r).suspectRun t
  (s.finish r n 1).trap r (s.trapRecord (c.msg.firing r) 0x12 info .nothing)

def State.setCount (s : State) (r key : Nat) (b : Bool) : State :=
  s.editSeam r key fun z => { z with mcnt := b }

/-- An unequal pair (R231, R400); a restart waits for a second copy that is frozen. -/
def State.mismatch (s : State) (r n : Nat) (c : Command) : State :=
  let before := s
  let t := s.secondInput r c.elem
  if ((s.run r).seam c.elem).mcnt then s.trapMismatch r n c
  else
    let s := s.setCount r c.elem true
    if t = r then s.finish r n 1
    else if s.copiesTainted r t then s.trapMismatch r n c
    else if (s.run t).state != .running || (s.run t).halted then before
    else (s.restartRun r).restartRun t

/-- One pair of beats of CMPR (R231). -/
def State.compareBeats (s : State) (r n : Nat) (c : Command) : State :=
  let t := s.secondInput r c.elem
  if !s.outReady r c.elem 0 then s
  else match s.inBeat r c.elem 0, s.inBeat t c.elem 1 with
    | some a, some b =>
      if a = b then
        let s := ((s.takeBeat r c.elem 0).takeBeat t c.elem 1).putBeats r c.elem 0 [a]
        if a.isEos then (s.setCount r c.elem false).finish r n 0 else s
      else s.mismatch r n c
    | _, _ => s

def execCmpr (c : Cmd) (s : State) : Result :=
  onEngine s c true fun s r n k => s.compareBeats r n k

/-! ## In-service tests, R401 -/

def State.clusterSt (s : State) (d c : Nat) : ClusterSt := (s.dies.get d).clusters.get c

def State.editCluster (s : State) (d c : Nat) (f : ClusterSt → ClusterSt) : State :=
  s.editDie d fun x => { x with clusters := x.clusters.edit c f }

/-- A cluster's test is due: its period of A0 time has passed, it is suspect, or it is to be tested again after a
failure (R401, R402). -/
def State.testDue (s : State) (d : Nat) (x : ClusterSt) : Bool :=
  x.avoid || x.state == .suspect || (s.life.testen && (s.dies.get d).power = 0 && s.cycle ≥ x.due)

/-- Another cluster of the die holds a cluster's test back: one that is suspect and is tested first, or one that is
withheld, but for a suspect cluster only while it is tested or is suspect itself (R401). -/
def ClusterSt.holdsTest (y x : ClusterSt) : Bool :=
  if x.state == .suspect then y.withheld && (y.testing || y.state == .suspect)
  else y.withheld || y.state == .suspect

/-- A due cluster is withheld, one of a die at a time, a suspect one first.  DESIGN CHOICE: it takes the place of one
that still waits for its test (R401; log 100). -/
def execBistDue (d c : Nat) (s : State) : Result :=
  .next (
    let x := s.clusterSt d c
    let others := (s.dies.get d).clusters.filter fun y => y.1 != c
    if !s.life.hmReady || !x.ready || x.withheld || x.state == .retired || !s.testDue d x ||
        (others.any fun y => y.2.holdsTest x) then s
    else s.editDie d fun z => { z with clusters := z.clusters.map fun y =>
      (y.1, { y.2 with withheld := y.1 = c }) })

/-- The test begins once both planes are empty; the next period is counted from here (R401). -/
def execBistRun (d c : Nat) (s : State) : Result :=
  .next (
    let x := s.clusterSt d c
    if !x.withheld || x.testing || !(s.planesAt d c).isEmpty || (s.dies.get d).power != 0 then s
    else s.editCluster d c fun y =>
      { y with
        testing := true
        tests := min (y.tests + 1) (2 ^ 32 - 1)
        due := s.cycle + s.life.testperiod * secCycles })

/-- The state of a cluster after a failed test (R401). -/
def Health.worse : Health → Health
  | .normal | .suspect => .bin1
  | .bin1 => .bin2
  | .bin2 | .retired => .retired

/-- A cluster fails: it is tested again at once, unless it is retired (R401, R404). -/
def ClusterSt.failed (x : ClusterSt) : ClusterSt :=
  let st := Health.worse x.state
  { x with state := st, avoid := true, ready := x.ready && st != .retired }

/-- A frame fails alone: it is binned and retired on its own (R401). -/
def ClusterSt.frameFailed (x : ClusterSt) (f : Nat) : ClusterSt :=
  let bit := 2 ^ f
  if nbit x.frret f then x
  else if nbit x.frbin2 f then
    { x with frbin2 := x.frbin2 - bit, frret := x.frret + bit, avoid := true }
  else if nbit x.frbin1 f then
    { x with frbin1 := x.frbin1 - bit, frbin2 := x.frbin2 + bit, avoid := true }
  else { x with frbin1 := x.frbin1 + bit, avoid := true }

/-- A cluster passes: a suspect one is normal again, and it is readmitted (R401). -/
def ClusterSt.passed (x : ClusterSt) : ClusterSt :=
  { x with state := if x.state == .suspect then .normal else x.state, avoid := false }

/-- A test ends (R401). -/
def execBistResult (d c : Nat) (frame : Option Nat) (pass : Bool) (s : State) : Result :=
  .next (
    if !(s.clusterSt d c).testing then s
    else s.editCluster d c fun x =>
      let x := { x with testing := false, withheld := false }
      if pass then x.passed
      else match frame with
        | some f => if f < 8 then x.frameFailed f else x
        | none => x.failed)

end Sys2Proof.Machine
end

