-- ==== Sys2Proof/Machine/Life.lean ====
section
/-! DEFINITION. The life of the device: readiness, power states, the mailbox with resynchronisation,
firmware and attestation, heat, reset, and the writes and reads of registers (R6, R8, R348, R352, R356, R369, R381,
R384, R394, R402 to R415). -/

namespace Sys2Proof.Machine

/-! ## Readiness, R403, R404 -/

/-- Lanes of a hawser link (R15). -/
def linkLanes : Nat := 8

/-- The link trains: it is up with all its lanes (R404, R411). -/
def State.trainLink (s : State) (n : Nat) : State :=
  { s with links := s.links.edit n fun x =>
      { x with state := linkUp, lanes := linkLanes, ready := true } }

/-- A function has passed its power-on self-test (R404). -/
def State.setReady (s : State) (fn : ReadyFn) : State :=
  match fn with
  | .hm => { s with life := { s.life with hmReady := true } }
  | .link n => if s.life.devid = 0xFF then s else s.trainLink n
  | .hbm d => s.editDie d fun x => { x with hbmReady := true }
  | .die d => if (s.dies.get d).hbmReady then s.editDie d fun x => { x with ready := true } else s
  | .lighter d n =>
    if (s.dies.get d).ready && n < 4 then s.editDie d fun x => { x with lighters := setBit x.lighters n }
    else s
  | .cluster d c =>
    if (s.dies.get d).ready && (s.clusterSt d c).state != .retired then
      s.editCluster d c fun x => { x with ready := true }
    else s

def execFunctionReady (fn : ReadyFn) (s : State) : Result :=
  .next (if s.life.inA4 then s else s.setReady fn)

/-- A hawser link goes down, or fails (R404, R405, R411); a failed link is retired. -/
def execHawserLinkDown (n : Nat) (failed : Bool) (s : State) : Result :=
  .next { s with links := s.links.edit n fun x =>
    { x with state := if failed then 3 else 0, lanes := 0, ready := x.ready && !failed } }

/-! ## Power states of dies, R406, R407 -/

/-- The parts that stand on a die and hold planes there. -/
def State.partsOn (s : State) (d : Nat) : List Part :=
  s.runs.flatMap fun r => r.2.parts.filter fun p => p.die = d && r.2.holdsPlanes p

/-- The die whose home a request is for. -/
def State.reqDie (s : State) (q : Req) : Option Nat :=
  if q.home = harbourHome || isFarHome q.home then none
  else if isTileHome q.home then
    let (r, p, _, _, _) := tileOf q.home
    some ((s.run r).part p).die
  else if isAppHome q.home then none
  else some (homeDie q.home)

/-- A die is idle (R406). -/
def State.idleDie (s : State) (d : Nat) : Bool :=
  ((s.partsOn d).all fun p => !p.active) &&
    (s.reqs.all fun q => s.reqDie q.2 != some d) &&
    ((s.dies.get d).copies.all fun l => l.2.isEmpty) &&
    s.flits.all fun f => ((s.run f.2.run).part (partOf f.2.dst)).die != d

/-- The lowest state whose wake latency, in µs, the tolerance allows (R406). -/
def powerFor (ltol : Nat) (parked : Bool) : Nat :=
  if ltol ≥ 12000 && !parked then 3
  else if ltol ≥ 40 then 2
  else if ltol ≥ 1 then 1
  else 0

def execDiePowerDown (d : Nat) (s : State) : Result :=
  .next (
    let x := s.dies.get d
    let p := powerFor (min x.ltol s.life.pwrdevLtol) (!(s.partsOn d).isEmpty)
    if d ≥ 24 || !x.ready || !s.life.hmReady || !s.idleDie d || p ≤ x.power then s
    else s.editDie d fun y => { y with power := p, slept := if y.power = 0 then s.cycle else y.slept })

/-- Something waits for a sleeping die: an admission or a restore, a request or a token for one of its homes,
elements or lighters, or an access from outside (R407). -/
def State.dieCalled (s : State) (d : Nat) : Bool := !s.idleDie d || (s.dies.get d).called

/-- A die that is called wakes, at the earliest after the shortest wake latency: it takes its copy of the cycle
counter again, one that leaves A3 restarts its quays, and the periods of its self-tests, which count time in A0, go
on (R9, R381, R401, R407; log 69). -/
def execDieWake (d : Nat) (s : State) : Result :=
  .next (
    let p := (s.dies.get d).power
    if p = 0 || !s.dieCalled d || s.cycle < (s.dies.get d).slept + usCycles then s
    else
    let s := s.editDie d fun y =>
      { y with
        power := 0
        wakes := y.wakes + 1
        called := false
        clusters := y.clusters.map fun c => (c.1, { c.2 with due := c.2.due + (s.cycle - y.slept) }) }
    if p = 3 then (upTo 16).foldl (fun (s : State) q => s.restartOwner (16 * d + q)) s else s)

/-! ## Heat, R415 -/

def execThermalThrottle (s : State) : Result := .next { s with life := { s.life with throttle := true } }

def execThermalThrottleRelease (s : State) : Result :=
  .next { s with life := { s.life with throttle := false } }

/-! ## A4, loss of power, reset, R408, R412, R415 -/

/-- What the device keeps for the end of its life (R5, R409, R412, R413, R415). -/
def Life.persistent (l m : Life) : Life :=
  { m with
    fwmin := l.fwmin
    fwver := l.fwver
    xmssidx := l.xmssidx
    staged := l.staged
    firmware := l.firmware
    thermalCause := l.thermalCause }

/-- The device is down: everything but persistent state is lost (R381, R408). -/
def State.down (s : State) : State :=
  { State.reset with
    cycle := s.cycle
    tick := s.tick
    nextId := s.nextId
    life := { Life.persistent s.life Life.reset with inA4 := true } }

/-- Staged firmware boots; one with its rollback flag raises the floor (R412). -/
def Life.boot (l : Life) : Life :=
  match l.staged with
  | none => l
  | some image => match Config.firmwareOf image with
    | none => l
    | some (v, rollback, _, _) =>
      { l with
        fwver := v
        fwmin := if rollback then max l.fwmin v else l.fwmin
        firmware := some image
        staged := none }

/-- The 32-byte SHAKE256 measurement of the running firmware, whole as it was stored (R413; log 10). -/
def Life.measurement (l : Life) : List Byte := shake256 (l.firmware.getD Config.deliveredFirmware)

/-- A device reset (R404, R408, R412). -/
def State.deviceReset (s : State) : State :=
  { State.reset with
    tick := s.tick
    nextId := s.nextId
    life := Life.boot (Life.persistent s.life Life.reset) }

/-- Above 95 °C the device enters A4 and records the cause (R415). -/
def execThermalShutdown (s : State) : Result :=
  .next { s.down with life := { s.down.life with thermalCause := true } }

def execPowerLoss (s : State) : Result := .next s.down

def execPowerOnReset (s : State) : Result := .next s.deviceReset

/-! ## The mailbox, R409 -/

/-- A write of CMD (R409): ignored while BUSY; an unassigned one ends at once. -/
def State.mailboxWrite (s : State) (cmd : Nat) (mgmt : Bool) : State :=
  let l := s.life
  if l.mbBusy then s
  else if cmd = 0 || cmd > 6 then { s with life := { l with mbStatus := 6 } }
  else { s with life := { l with mbBusy := true, mbCmd := cmd, mbMgmt := mgmt } }

/-- A command ends: STATUS, then BUSY clears (R409). -/
def State.endMailbox (s : State) (status : Nat) : State :=
  { s with life := { s.life with mbStatus := status, mbBusy := false, mbCmd := 0, mbMgmt := false } }

/-- A mailbox command runs while it is the pending one. -/
def onMailbox (s : State) (cmd : Nat) (k : State → State) : Result :=
  .next (if s.life.mbBusy && s.life.mbCmd = cmd then k s else s)

/-- A buffer of the application cores' memory of 96 GiB (R409; log 29). -/
def State.buffer (s : State) (a n align : Nat) : Bool :=
  !s.life.inA4 && a % align = 0 && a + n ≤ coreBytes

/-- Write bytes into the application cores' memory, block by block. -/
def appWriteFrom (s : State) : Nat → Nat → List Byte → State
  | 0, _, _ => s
  | fuel + 1, a, bs =>
    match bs with
    | [] => s
    | _ =>
      let k := 64 - a % 64
      appWriteFrom (s.deviceWrite (appHome a) (bs.take k)) fuel (a + k) (bs.drop k)

def State.appWrite (s : State) (a : Nat) (bs : List Byte) : State :=
  appWriteFrom s (bs.length / 64 + 2) a bs

/-! ## RESYNC, R411 -/

/-- A flag at its place in a word. -/
def boolBit (b : Bool) (k : Nat) : Nat := if b then 2 ^ k else 0

/-- The code of STATE (R356). -/
def CtxState.code : CtxState → Nat
  | .free => 0
  | .live => 1
  | .out => 2
  | .busy => 3

def wordsOf (xs : List Nat) : List Byte := xs.flatMap fun x => toBytes 8 x

/-- READY0 (R404). -/
def State.ready0 (s : State) : Nat :=
  let links := s.links.foldl (fun n l => if l.2.ready then n + 2 ^ (24 + l.1) else n) 0
  let dies := s.dies.foldl (fun n d => if d.2.ready then n + 2 ^ d.1 else n) 0
  (if s.life.hmReady then 2 ^ 40 else 0) + links + dies

/-- READY1 (R404). -/
def State.ready1 (s : State) : Nat := s.dies.foldl (fun n d => if d.2.hbmReady then n + 2 ^ d.1 else n) 0

/-- READYD (R404). -/
def DieSt.readyWord (d : DieSt) : Nat :=
  d.lighters * 2 ^ 16 + d.clusters.foldl (fun n c => if c.2.ready then n + 2 ^ c.1 else n) 0

/-- PWR (R406). -/
def DieSt.powerWord (d : DieSt) : Nat := d.ltol * 2 ^ 32 + d.power

/-- POISONED of a die (R394). -/
def State.poisonedIn (s : State) (d : Nat) : Nat :=
  min 255 (s.side.filter fun b => b.2.poison && b.1 < 2 ^ 42 && homeDie (64 * b.1) = d).length

/-- ERRCNT (R394). -/
def State.errcnt (s : State) (d : Nat) : Nat :=
  let x := s.dies.get d
  x.hbmce * 2 ^ 48 + x.soft * 2 ^ 32 + x.ue * 2 ^ 24 + s.poisonedIn d * 2 ^ 16 + x.linkretry

/-- The code of a cluster's state (R402). -/
def Health.code : Health → Nat
  | .normal => 0
  | .suspect => 1
  | .bin1 => 2
  | .bin2 => 3
  | .retired => 4

/-- CHEALTH (R402). -/
def ClusterSt.healthWord (c : ClusterSt) : Nat :=
  c.tests * 2 ^ 32 + c.frbin1 * 2 ^ 24 + c.frbin2 * 2 ^ 16 + c.frret * 2 ^ 8 + Health.code c.state

/-- The register of an owner (R384). -/
def Owner.word (o : Owner) : Nat :=
  o.restarts * 2 ^ 48 + o.orphaned * 2 ^ 32 + o.busycnt * 2 ^ 16 + o.slots.length

/-- FWID (R409). -/
def Life.fwid (l : Life) : Nat := l.fwmin * 2 ^ 32 + l.fwver % 2 ^ 32

/-- The berth of a queue. -/
def Queue.berth (q : Queue) : Option (Nat × Nat) :=
  match q.place with
  | .berth b since => some (b, since)
  | .anchor _ => none

/-- The entry of a berth: queue, occupied, µs held. -/
def State.berthEntry (s : State) (d b : Nat) : Nat :=
  match s.queues.find? fun q => q.2.die = d && (q.2.berth.map Prod.fst) = some b with
  | some q => match q.2.berth with
    | some (_, since) => q.1 % 65536 + 2 ^ 16 + (s.cycle - since) / usCycles % 2 ^ 32 * 2 ^ 32
    | none => 0
  | none => 0

/-- Graphs of a job's phase that are not complete. -/
def State.openGraphs (s : State) (j : Nat) : Nat :=
  ((s.phaseRuns j (s.job j).phase).filter fun r => !s.graphDone r.1).length

/-- The two words of a queue's entry. -/
def State.queueEntry (s : State) (q : Nat) : List Nat :=
  let x := s.queue q
  let berth := match x.berth with
    | some (b, _) => b
    | none => 0xFFFF
  let w0 := x.qhead + x.qtail * 2 ^ 16 + berth * 2 ^ 32 + x.die * 2 ^ 48 + x.prio * 2 ^ 53 +
    (if x.en then 2 ^ 56 else 0)
  match x.job with
  | none => [w0, 0]
  | some j =>
    let y := s.job j
    [w0, j % 2 ^ 32 + y.phase % 4096 * 2 ^ 32 + s.openGraphs j % 4096 * 2 ^ 44 +
      y.threads.length % 256 * 2 ^ 56]

/-- The code of a part's state (R411). -/
def PartState.code : PartState → Nat
  | .loading => 1
  | .running => 2
  | .parked | .switching => 3
  | .frozenOut => 4
  | .tooSmall => 5

/-- The mask of a part's clusters in its die. -/
def Part.mask (p : Part) : Nat := p.clusters.foldl (fun m c => setBit m c) 0

/-- The four words of a launch's entry (R411). -/
def launchEntry (x : Run) (k : Nat) (p : Part) : List Nat :=
  let t := x.trapRegs
  [x.job, x.phase % 4096 + x.nth % 4096 * 2 ^ 12 + k % 256 * 2 ^ 24 + p.die * 2 ^ 32 + p.mask * 2 ^ 37 +
      p.plane * 2 ^ 53 + PartState.code p.state * 2 ^ 54,
    x.ctx, t.seq % 65536 * 2 ^ 16 + t.cause % 256 * 2 ^ 32 + (if t.valid then 2 ^ 40 else 0)]

/-- The entries of the launches that stand somewhere. -/
def State.launchEntries (s : State) : List Nat :=
  s.runs.flatMap fun r =>
    if r.2.state == .complete || r.2.state == .waiting then []
    else r.2.parts.zipIdx.flatMap fun p => if p.1.done then [] else launchEntry r.2 p.2 p.1

/-- The header of the record: each value that R411 names takes a word, in the order it names them, and the last
word holds the cause of a thermal shutdown (R415).  DESIGN CHOICE: the widths and the place of the cause
(log 28). -/
def State.resyncHeader (s : State) : List Nat :=
  let l := s.life
  [0x43595352, 1, 0x1D800, s.cycle % 2 ^ 64, l.fwid, l.xmssidx, l.devid, boolBit l.thermalCause 0]

/-- The entry of a context: each value that R411 names takes a word, in the order it names them.  DESIGN CHOICE:
the widths (log 28). -/
def Ctx.resyncEntry (x : Ctx) : List Nat :=
  [CtxState.code x.state, x.reqnum, x.flhead, x.fltail, x.flovf, x.far.serialNext, x.far.lap,
    x.far.fullMark % 65536, x.far.serials.length, x.freeCount]

/-- The record of R411. -/
def State.resyncRecord (s : State) : List Byte :=
  let l := s.life
  let dies := upTo 24
  let quays := upTo 384
  wordsOf s.resyncHeader ++
    fillTo 256 0 (wordsOf (s.ready0 :: s.ready1 :: dies.map fun d => (s.dies.get d).readyWord)) ++
    fillTo 256 0 (wordsOf ((dies.map fun d => (s.dies.get d).powerWord) ++ [l.pwrdevLtol * 2 ^ 32])) ++
    wordsOf (dies.map s.errcnt) ++
    wordsOf ((upTo 16).map fun n =>
      let x := s.links.get n
      x.state + x.lanes * 16 + x.resends * 2 ^ 32) ++
    List.replicate 3200 0 ++
    wordsOf (dies.flatMap fun d => (upTo 64).map fun b => s.berthEntry d b) ++
    wordsOf ((upTo 4096).flatMap s.queueEntry) ++
    fillTo 24576 0 (wordsOf s.launchEntries) ++
    ((upTo 64).flatMap fun c => fillTo 128 0 (wordsOf (s.ctx c).resyncEntry)) ++
    wordsOf (quays.map fun q => (s.owner q).word) ++
    wordsOf (quays.map fun q => (s.clusterSt (q / 16) (q % 16)).healthWord)

def execResync (s : State) : Result :=
  onMailbox s 1 fun s =>
    let a := s.life.mbaddr.toNat
    if !s.buffer a 131072 4096 then s.endMailbox 1
    else (s.appWrite a s.resyncRecord).endMailbox 0

/-! ## ATTEST, FWLOAD and IMGKEY, R410, R412, R413 -/

/-- The 112 bytes that an attestation signs (R413). -/
def State.attestation (s : State) (nonce : List Byte) : List Byte :=
  let l := s.life
  fillTo 32 0 nonce ++ [BitVec.ofNat 8 l.devid, 0, 0, 0] ++ toBytes 4 l.fwver ++
    l.measurement ++ toBytes 4 l.xmssidx ++ List.replicate 36 0

def execAttest (s : State) : Result :=
  onMailbox s 2 fun s =>
    let a := s.life.mbaddr.toNat
    let n := s.life.mbarg.toNat
    if s.life.xmssidx ≥ 1048576 then s.endMailbox 4
    else if !s.buffer a 4096 1 || !s.buffer n 32 1 then s.endMailbox 1
    else
      let m := s.attestation (s.bytes (appHome n) 32)
      let sig := xmssSign s.life.xmssidx m
      let s := { s with life := { s.life with xmssidx := s.life.xmssidx + 1 } }
      (s.appWrite a (fillTo 4096 0 (m ++ sig))).endMailbox 0

/-- FWLOAD (R412): the signature, then the floor, then the image is staged. -/
def execFwload (s : State) : Result :=
  onMailbox s 3 fun s =>
    let a := s.life.mbaddr.toNat
    let n := s.life.mbarg.toNat
    if n = 0 || !s.buffer a n 1 then s.endMailbox 1
    else
      let image := s.bytes (appHome a) n
      match Config.firmwareOf image with
      | none => s.endMailbox 2
      | some (v, _, m, sig) =>
        if !xmssVerify Config.vendorKey m sig then s.endMailbox 2
        else if v < s.life.fwmin then s.endMailbox 3
        else { s with life := { s.life with staged := some image } }.endMailbox 0

def execImgkey (s : State) : Result :=
  onMailbox s 4 fun s =>
    let a := s.life.mbaddr.toNat
    if !s.buffer a 64 1 then s.endMailbox 1
    else
      let key := s.bytes (appHome a) 64
      { s with life := { s.life with imgkey := key } }.endMailbox 0

/-! ## POWEROFF and POWERON, R408 -/

/-- Every die is in A3 and every context FREE. -/
def State.mayPowerOff (s : State) : Bool :=
  (s.dies.all fun d => d.2.power = 3) && s.ctxs.all fun c => c.2.state == .free

def execPoweroff (s : State) : Result :=
  onMailbox s 5 fun s =>
    if !s.life.mbMgmt then s.endMailbox 5
    else if !s.mayPowerOff then s.endMailbox 7
    else s.down.endMailbox 0

def execPoweron (s : State) : Result :=
  onMailbox s 6 fun s => if !s.life.mbMgmt then s.endMailbox 5 else s.deviceReset.endMailbox 0

/-! ## DEVID, R409 -/

/-- A write of DEVID counts only while every context is FREE, and never unsets it (R409). -/
def State.writeDevid (s : State) (v : Nat) : State :=
  if v = 0xFF || !(s.ctxs.all fun c => c.2.state == .free) then s
  else { s with life := { s.life with devid := v } }

def execDevidWrite (v : BitVec 8) (s : State) : Result := .next (s.writeDevid v.toNat)

/-! ## Register writes, R6, R8 -/

/-- A die's registers of R352. -/
def State.writeDieReg (s : State) (d off : Nat) (v : Word) : State :=
  s.editDie d fun x => match off with
    | 0x00 => { x with berthq := bits v 0 32 }
    | 0x08 => { x with bypassmax := bits v 0 8 }
    | 0x10 => { x with preemptwait := bits v 0 32 }
    | _ => x

/-- A word of a queue's descriptor (R348); a write of QTAIL rings the doorbell. -/
def State.writeQueueReg (s : State) (q word : Nat) (v : Word) : State :=
  match word with
  | 7 => s.editQueue q fun x => { x with qbase := v }
  | 6 =>
    let s := s.editQueue q fun x => x.arrive s.cycle fun y =>
      { y with
        qlog := bits v 60 4
        ctx := bits v 22 6
        prio := bits v 19 3
        die := bits v 14 5
        signed := v.getLsbD 13
        en := v.getLsbD 12 }
    s.doorbell q (bits v 44 16)
  | _ => s

/-- CTXBASE0 with its low 20 or its high 44 bits replaced. -/
def lowBase (old v : Word) : Word := word (bits old 20 44 * 2 ^ 20 + bits v 44 20)
def highBase (old v : Word) : Word := word (bits v 0 44 * 2 ^ 20 + bits old 0 20)

/-- The RW fields of a word of a context's descriptor (R356). -/
def Ctx.writeWord (x : Ctx) (k : Nat) (v : Word) : Ctx :=
  match k with
  | 15 => { x with ptroot := v }
  | 14 => { x with twbase := v }
  | 13 => { x with tilekey := v }
  | 12 => { x with spillbase := v }
  | 11 => { x with spillsize := v }
  | 10 => { x with savebase := v }
  | 9 => { x with savesize := v }
  | 8 => { x with flbase := v }
  | 7 => { x with fltail := bits v 32 16 }
  | 6 => { x with fllog := bits v 60 4, reqnum := bits v 44 16, ctxbase0 := highBase x.ctxbase0 v }
  | 5 => { x with ctxbase0 := lowBase x.ctxbase0 v }
  | _ => x

/-- A word of a context's descriptor; a write of CMD starts a command (R356, R357). -/
def State.writeCtxReg (s : State) (c k : Nat) (v : Word) : State :=
  let s := s.editCtx c fun x => x.writeWord k v
  if k = 5 then s.startCommandOf c (bits v 32 3) else s

/-- TLBINV (R369). -/
def State.writeTlbinv (s : State) (high : Bool) (v : Word) : State :=
  if high then { s with tlbinv := { s.tlbinv with va := v } }
  else
    let s := { s with tlbinv := { s.tlbinv with n := bits v 32 32, ctx := bits v 8 6 } }
    if v.getLsbD 0 then s.invalidate else s

/-- DRAINMAX and TESTCTL (R382, R402). -/
def State.writeControl (s : State) (a : Nat) (v : Word) : State :=
  let l := s.life
  if a = 0x1800 then { s with life := { l with drainmax := bits v 0 32 } }
  else if a = 0x1808 then { s with life := { l with testen := v.getLsbD 32, testperiod := bits v 0 32 } }
  else s

/-- The mailbox's registers and DEVID, which answer before the harbourmaster is ready (R403, R409). -/
def State.writeMailboxReg (s : State) (a : Nat) (v : Word) (mgmt : Bool) : State :=
  let l := s.life
  match a with
  | 0x6000 => s.mailboxWrite (bits v 0 8) mgmt
  | 0x6008 => { s with life := { l with mbaddr := v } }
  | 0x6010 => { s with life := { l with mbarg := v } }
  | 0x6028 => s.writeDevid (bits v 0 8)
  | _ => s

/-- A write of one 64-bit word of the window (R6, R8): read-only and reserved places ignore it. -/
def State.writeReg64 (s : State) (a : Nat) (v : Word) (mgmt : Bool) : State :=
  if a % 8 != 0 then s
  else if 0x6000 ≤ a && a < 0x7000 then s.writeMailboxReg a v mgmt
  else if !s.life.hmReady then s
  else if a < 0x1800 then s.writeDieReg (a / 0x100) (a % 0x100) v
  else if a < 0x2000 then s.writeControl a v
  else if a = 0x2000 || a = 0x2008 then s.writeTlbinv (a = 0x2008) v
  else if 0x3000 ≤ a && a < 0x30C0 then (if v = 0 then s.clearErrors ((a - 0x3000) / 8) else s)
  else if 0x5100 ≤ a && a < 0x51C0 then
    s.editDie ((a - 0x5100) / 8) fun x => { x with ltol := bits v 32 32 }
  else if a = 0x51C0 then { s with life := { s.life with pwrdevLtol := bits v 32 32 } }
  else if 0x10000 ≤ a && a < 0x50000 then s.writeQueueReg ((a - 0x10000) / 64) (a % 64 / 8) v
  else if 0x80000 ≤ a && a < 0x82000 then s.writeCtxReg ((a - 0x80000) / 128) (a % 128 / 8) v
  else s

/-- A write of a register, at its offset from HMBASE; `mgmt` says that it comes over the management
interface (R403, R408, R409). -/
def execRegisterWrite (a : Nat) (v : BitVec 64) (mgmt : Bool) (s : State) : Result :=
  .next (s.writeReg64 a v mgmt)

/-! ## Register reads, R6, R8

What a read returns has no side effect.  A write-only field (MBCTL.CMD, CMD of a context, TLBINV.GO) and a
reserved one read 0, and so does every place of the window without a register. -/

/-- A die's registers of R352. -/
def DieSt.readReg (x : DieSt) (off : Nat) : Nat :=
  match off with
  | 0x00 => x.berthq
  | 0x08 => x.bypassmax
  | 0x10 => x.preemptwait
  | _ => 0

/-- A word of a queue's descriptor (R348). -/
def Queue.readWord (x : Queue) (k : Nat) : Nat :=
  match k with
  | 7 => x.qbase.toNat
  | 6 => x.qlog % 16 * 2 ^ 60 + x.qtail % 65536 * 2 ^ 44 + x.qhead % 65536 * 2 ^ 28 + x.ctx % 64 * 2 ^ 22 +
      x.prio % 8 * 2 ^ 19 + x.die % 32 * 2 ^ 14 + boolBit x.signed 13 + boolBit x.en 12
  | _ => 0

/-- A word of a context's descriptor (R356). -/
def Ctx.readWord (x : Ctx) (k : Nat) : Nat :=
  match k with
  | 15 => x.ptroot.toNat
  | 14 => x.twbase.toNat
  | 13 => x.tilekey.toNat
  | 12 => x.spillbase.toNat
  | 11 => x.spillsize.toNat
  | 10 => x.savebase.toNat
  | 9 => x.savesize.toNat
  | 8 => x.flbase.toNat
  | 7 => x.flhead % 65536 * 2 ^ 48 + x.fltail % 65536 * 2 ^ 32 + x.flovf % 2 ^ 32
  | 6 => x.fllog % 16 * 2 ^ 60 + x.reqnum % 65536 * 2 ^ 44 + bits x.ctxbase0 20 44
  | 5 => bits x.ctxbase0 0 20 * 2 ^ 44 + CtxState.code x.state * 2 ^ 35 + x.cmdstatus % 256 * 2 ^ 24
  | _ => 0

/-- The mailbox's registers and DEVID (R409). -/
def Life.readMailbox (l : Life) (a : Nat) : Nat :=
  match a with
  | 0x6000 => l.mbStatus % 65536 * 2 ^ 16 + boolBit l.mbBusy 8
  | 0x6008 => l.mbaddr.toNat
  | 0x6010 => l.mbarg.toNat
  | 0x6018 => l.fwid
  | 0x6020 => l.xmssidx % 2 ^ 32
  | 0x6028 => l.devid % 256
  | _ => 0

/-- READY0, READY1 and READYD (R404). -/
def State.readReady (s : State) (a : Nat) : Nat :=
  if a = 0x5000 then s.ready0
  else if a = 0x5008 then s.ready1
  else (s.dies.get ((a - 0x5010) / 8)).readyWord

/-- TLBINV (R369). -/
def Tlbinv.readWord (t : Tlbinv) (high : Bool) : Nat :=
  if high then t.va.toNat else t.n % 2 ^ 32 * 2 ^ 32 + t.ctx % 64 * 2 ^ 8 + boolBit t.done 1

/-- The value of one 64-bit word of the window (R6, R8); before the harbourmaster is ready, READY0, READY1,
READYD, DEVID and the mailbox alone answer (R403). -/
def State.readReg64 (s : State) (a : Nat) : Nat :=
  if a % 8 != 0 then 0
  else if 0x6000 ≤ a && a < 0x7000 then s.life.readMailbox a
  else if 0x5000 ≤ a && a < 0x50D0 then s.readReady a
  else if !s.life.hmReady then 0
  else if a < 0x1800 then (s.dies.get (a / 0x100)).readReg (a % 0x100)
  else if a = 0x1800 then s.life.drainmax
  else if a = 0x1808 then boolBit s.life.testen 32 + s.life.testperiod % 2 ^ 32
  else if a = 0x2000 || a = 0x2008 then s.tlbinv.readWord (a = 0x2008)
  else if 0x3000 ≤ a && a < 0x30C0 then s.errcnt ((a - 0x3000) / 8)
  else if 0x3400 ≤ a && a < 0x4000 then
    (s.clusterSt ((a - 0x3400) / 8 / 16) ((a - 0x3400) / 8 % 16)).healthWord
  else if 0x4000 ≤ a && a < 0x4C00 then (s.owner ((a - 0x4000) / 8)).word
  else if 0x5100 ≤ a && a < 0x51C0 then (s.dies.get ((a - 0x5100) / 8)).powerWord
  else if a = 0x51C0 then s.life.pwrdevLtol * 2 ^ 32
  else if 0x10000 ≤ a && a < 0x50000 then (s.queue ((a - 0x10000) / 64)).readWord (a % 64 / 8)
  else if 0x80000 ≤ a && a < 0x82000 then (s.ctx ((a - 0x80000) / 128)).readWord (a % 128 / 8)
  else 0

/-- An application core or the management interface reads a register, at its offset from HMBASE: the word
that it gets stands in `hostRead`, and nothing else changes (R6, R8; log 82). -/
def State.registerRead (s : State) (a : Nat) : State := { s with hostRead := word (s.readReg64 a) }

end Sys2Proof.Machine
end

