-- ==== Sys2Proof/Machine/Dispatch.lean ====
section
/-! DEFINITION. One arm for each row of the opcode table: a direct call of its meaning. -/

namespace Sys2Proof.Machine

open Host

def exec (i : Instr) (s : State) : Host.Outcome State Fault Refusal :=
  match i with
  | .ill high => Sys2Proof.Machine.execIll high s
  | .mov o rep => Sys2Proof.Machine.execMov o rep s
  | .mov3 o tc => Sys2Proof.Machine.execMov3 o tc s
  | .const o k => Sys2Proof.Machine.execConst o k s
  | .constor o k => Sys2Proof.Machine.execConstor o k s
  | .steer o rep => Sys2Proof.Machine.execSteer o rep s
  | .steern o rep => Sys2Proof.Machine.execSteern o rep s
  | .select o rep => Sys2Proof.Machine.execSelect o rep s
  | .nullt o rep => Sys2Proof.Machine.execNullt o rep s
  | .iter o rep => Sys2Proof.Machine.execIter o rep s
  | .iterset o rep => Sys2Proof.Machine.execIterset o rep s
  | .iterread o rep => Sys2Proof.Machine.execIterread o rep s
  | .colnew o rep => Sys2Proof.Machine.execColnew o rep s
  | .colfree o rep => Sys2Proof.Machine.execColfree o rep s
  | .retag o rep => Sys2Proof.Machine.execRetag o rep s
  | .exit o rep => Sys2Proof.Machine.execExit o rep s
  | .send pred rep => Sys2Proof.Machine.execSend pred rep s
  | .sendx pred rep => Sys2Proof.Machine.execSendx pred rep s
  | .gate o rep => Sys2Proof.Machine.execGate o rep s
  | .kindq o rep => Sys2Proof.Machine.execKindq o rep s
  | .stopt o n => Sys2Proof.Machine.execStopt o n s
  | .kill o rep => Sys2Proof.Machine.execKill o rep s
  | .throttle o w1 => Sys2Proof.Machine.execThrottle o w1 s
  | .retire o rep => Sys2Proof.Machine.execRetire o rep s
  | .add o f => Sys2Proof.Machine.execAdd o f s
  | .sub o f => Sys2Proof.Machine.execSub o f s
  | .mul o f => Sys2Proof.Machine.execMul o f s
  | .mulh o f u => Sys2Proof.Machine.execMulh o f u s
  | .div o f u zdef => Sys2Proof.Machine.execDiv o f u zdef s
  | .rem o f u zdef => Sys2Proof.Machine.execRem o f u zdef s
  | .and o f => Sys2Proof.Machine.execAnd o f s
  | .or o f => Sys2Proof.Machine.execOr o f s
  | .xor o f => Sys2Proof.Machine.execXor o f s
  | .andn o f => Sys2Proof.Machine.execAndn o f s
  | .shl o f => Sys2Proof.Machine.execShl o f s
  | .shr o f => Sys2Proof.Machine.execShr o f s
  | .sar o f => Sys2Proof.Machine.execSar o f s
  | .rol o f => Sys2Proof.Machine.execRol o f s
  | .min o f u => Sys2Proof.Machine.execMin o f u s
  | .max o f u => Sys2Proof.Machine.execMax o f u s
  | .abs o f => Sys2Proof.Machine.execAbs o f s
  | .neg o f => Sys2Proof.Machine.execNeg o f s
  | .clz o f => Sys2Proof.Machine.execClz o f s
  | .popc o f => Sys2Proof.Machine.execPopc o f s
  | .brev o f => Sys2Proof.Machine.execBrev o f s
  | .cmp o f cc => Sys2Proof.Machine.execCmp o f cc s
  | .test o f ne => Sys2Proof.Machine.execTest o f ne s
  | .adds o f u => Sys2Proof.Machine.execAdds o f u s
  | .subs o f u => Sys2Proof.Machine.execSubs o f u s
  | .lea o sz sh => Sys2Proof.Machine.execLea o sz sh s
  | .base o n => Sys2Proof.Machine.execBase o n s
  | .shape o sz m => Sys2Proof.Machine.execShape o sz m s
  | .extr o pos len1 sx => Sys2Proof.Machine.execExtr o pos len1 sx s
  | .ins o pos len1 => Sys2Proof.Machine.execIns o pos len1 s
  | .pack o sz => Sys2Proof.Machine.execPack o sz s
  | .unpk o sz k sx => Sys2Proof.Machine.execUnpk o sz k sx s
  | .fadd o f => Sys2Proof.Machine.execFadd o f s
  | .fsub o f => Sys2Proof.Machine.execFsub o f s
  | .fmul o f => Sys2Proof.Machine.execFmul o f s
  | .fma o fmt packed rnd k => Sys2Proof.Machine.execFma o fmt packed rnd k s
  | .fdiv o fmt rnd rep => Sys2Proof.Machine.execFdiv o fmt rnd rep s
  | .fsqrt o fmt rnd rep => Sys2Proof.Machine.execFsqrt o fmt rnd rep s
  | .fmin o fmt packed rep => Sys2Proof.Machine.execFmin o fmt packed rep s
  | .fmax o fmt packed rep => Sys2Proof.Machine.execFmax o fmt packed rep s
  | .fcmp o fmt packed cc rep => Sys2Proof.Machine.execFcmp o fmt packed cc rep s
  | .fsgn o fmt packed m => Sys2Proof.Machine.execFsgn o fmt packed m s
  | .fcvt o rnd nanov dst src => Sys2Proof.Machine.execFcvt o rnd nanov dst src s
  | .ftoi o fmt rnd id => Sys2Proof.Machine.execFtoi o fmt rnd id s
  | .itof o fmt rnd id => Sys2Proof.Machine.execItof o fmt rnd id s
  | .fexp2 o fmt rnd rep => Sys2Proof.Machine.execFexp2 o fmt rnd rep s
  | .flog2 o fmt rnd rep => Sys2Proof.Machine.execFlog2 o fmt rnd rep s
  | .frcp o fmt rnd rep => Sys2Proof.Machine.execFrcp o fmt rnd rep s
  | .frsq o fmt rnd rep => Sys2Proof.Machine.execFrsq o fmt rnd rep s
  | .fsinp o fmt rnd rep => Sys2Proof.Machine.execFsinp o fmt rnd rep s
  | .fcosp o fmt rnd rep => Sys2Proof.Machine.execFcosp o fmt rnd rep s
  | .fclass o fmt rep => Sys2Proof.Machine.execFclass o fmt rep s
  | .ld o sz m => Sys2Proof.Machine.execLd o sz m s
  | .st o sz m => Sys2Proof.Machine.execSt o sz m s
  | .ldv o sz m => Sys2Proof.Machine.execLdv o sz m s
  | .stv o sz m => Sys2Proof.Machine.execStv o sz m s
  | .vers o m => Sys2Proof.Machine.execVers o m s
  | .vset o m => Sys2Proof.Machine.execVset o m s
  | .ldd o m => Sys2Proof.Machine.execLdd o m s
  | .std o m => Sys2Proof.Machine.execStd o m s
  | .pref o lsid off => Sys2Proof.Machine.execPref o lsid off s
  | .fence o form scope ordered lsid => Sys2Proof.Machine.execFence o form scope ordered lsid s
  | .aadd o sz m => Sys2Proof.Machine.execAadd o sz m s
  | .aand o sz m => Sys2Proof.Machine.execAand o sz m s
  | .aor o sz m => Sys2Proof.Machine.execAor o sz m s
  | .axor o sz m => Sys2Proof.Machine.execAxor o sz m s
  | .amin o sz m => Sys2Proof.Machine.execAmin o sz m s
  | .amax o sz m => Sys2Proof.Machine.execAmax o sz m s
  | .aswap o sz m => Sys2Proof.Machine.execAswap o sz m s
  | .acas o sz lsid off k ord => Sys2Proof.Machine.execAcas o sz lsid off k ord s
  | .afadd o sz m => Sys2Proof.Machine.execAfadd o sz m s
  | .xinit o sz m => Sys2Proof.Machine.execXinit o sz m s
  | .xacc o sz m => Sys2Proof.Machine.execXacc o sz m s
  | .xread o sz m => Sys2Proof.Machine.execXread o sz m s
  | .aincw o sz m => Sys2Proof.Machine.execAincw o sz m s
  | .aser o sz m => Sys2Proof.Machine.execAser o sz m s
  | .cycle o rep => Sys2Proof.Machine.execCycle o rep s
  | .waitt o rep => Sys2Proof.Machine.execWaitt o rep s
  | .bar o m => Sys2Proof.Machine.execBar o m s
  | .post o m => Sys2Proof.Machine.execPost o m s
  | .signal o m => Sys2Proof.Machine.execSignal o m s
  | .arm o m => Sys2Proof.Machine.execArm o m s
  | .cancel o lsid ord => Sys2Proof.Machine.execCancel o lsid ord s
  | .doneq o lsid ord => Sys2Proof.Machine.execDoneq o lsid ord s
  | .own c => Sys2Proof.Machine.execOwn c s
  | .permit o strand => Sys2Proof.Machine.execPermit o strand s
  | .take o strand => Sys2Proof.Machine.execTake o strand s
  | .strset o strand index branch => Sys2Proof.Machine.execStrset o strand index branch s
  | .strocc o strand index branch => Sys2Proof.Machine.execStrocc o strand index branch s
  | .strclose o strand => Sys2Proof.Machine.execStrclose o strand s
  | .seamin c n q ew => Sys2Proof.Machine.execSeamin c n q ew s
  | .seamout c q ew => Sys2Proof.Machine.execSeamout c q ew s
  | .mzero c t => Sys2Proof.Machine.execMzero c t s
  | .mldb c => Sys2Proof.Machine.execMldb c s
  | .mldc c t => Sys2Proof.Machine.execMldc c t s
  | .mma c t => Sys2Proof.Machine.execMma c t s
  | .mmas c t => Sys2Proof.Machine.execMmas c t s
  | .mmax3 c t => Sys2Proof.Machine.execMmax3 c t s
  | .mout c t rm fmt nanov => Sys2Proof.Machine.execMout c t rm fmt nanov s
  | .mrow c reg => Sys2Proof.Machine.execMrow c reg s
  | .mscale c => Sys2Proof.Machine.execMscale c s
  | .mbmap c => Sys2Proof.Machine.execMbmap c s
  | .vmap c f => Sys2Proof.Machine.execVmap c f s
  | .vfma c f => Sys2Proof.Machine.execVfma c f s
  | .vred c f => Sys2Proof.Machine.execVred c f s
  | .vscan c f => Sys2Proof.Machine.execVscan c f s
  | .vsoft c f => Sys2Proof.Machine.execVsoft c f s
  | .vnorm c f => Sys2Proof.Machine.execVnorm c f s
  | .cvt c rm fmt nanov => Sys2Proof.Machine.execCvt c rm fmt nanov s
  | .vcmp c f => Sys2Proof.Machine.execVcmp c f s
  | .vsel c f => Sys2Proof.Machine.execVsel c f s
  | .vrope c f => Sys2Proof.Machine.execVrope c f s
  | .tshape c f => Sys2Proof.Machine.execTshape c f s
  | .tread c f => Sys2Proof.Machine.execTread c f s
  | .twrite c f => Sys2Proof.Machine.execTwrite c f s
  | .tcomp c f => Sys2Proof.Machine.execTcomp c f s
  | .texp c f vf => Sys2Proof.Machine.execTexp c f vf s
  | .trot c f => Sys2Proof.Machine.execTrot c f s
  | .twin c f => Sys2Proof.Machine.execTwin c f s
  | .tzmap c f => Sys2Proof.Machine.execTzmap c f s
  | .tsacc c f vf => Sys2Proof.Machine.execTsacc c f vf s
  | .trep c f => Sys2Proof.Machine.execTrep c f s
  | .trmw c f op => Sys2Proof.Machine.execTrmw c f op s
  | .tfill c f => Sys2Proof.Machine.execTfill c f s
  | .cpy c f d => Sys2Proof.Machine.execCpy c f d s
  | .cpyg c f => Sys2Proof.Machine.execCpyg c f s
  | .cpys c f => Sys2Proof.Machine.execCpys c f s
  | .cpy2d c f d => Sys2Proof.Machine.execCpy2d c f d s
  | .cpyq c => Sys2Proof.Machine.execCpyq c s
  | .camld c cam => Sys2Proof.Machine.execCamld c cam s
  | .camset c cam word => Sys2Proof.Machine.execCamset c cam word s
  | .camcomp c cam a b => Sys2Proof.Machine.execCamcomp c cam a b s
  | .pgather c cam ng1 => Sys2Proof.Machine.execPgather c cam ng1 s
  | .pray c cam ng1 => Sys2Proof.Machine.execPray c cam ng1 s
  | .pscat c cam carve ptrap => Sys2Proof.Machine.execPscat c cam carve ptrap s
  | .pstore c => Sys2Proof.Machine.execPstore c s
  | .pstat c k => Sys2Proof.Machine.execPstat c k s
  | .pclear c => Sys2Proof.Machine.execPclear c s
  | .pprior c => Sys2Proof.Machine.execPprior c s
  | .topk c => Sys2Proof.Machine.execTopk c s
  | .sample c => Sys2Proof.Machine.execSample c s
  | .accept c => Sys2Proof.Machine.execAccept c s
  | .resid c => Sys2Proof.Machine.execResid c s
  | .draw c => Sys2Proof.Machine.execDraw c s
  | .kvcommit o lsid scope => Sys2Proof.Machine.execKvcommit o lsid scope s
  | .ldk o sz lsid off scope => Sys2Proof.Machine.execLdk o sz lsid off scope s
  | .treemask c => Sys2Proof.Machine.execTreemask c s
  | .drawtab c => Sys2Proof.Machine.execDrawtab c s
  | .isect c => Sys2Proof.Machine.execIsect c s
  | .union c => Sys2Proof.Machine.execUnion c s
  | .seampol c => Sys2Proof.Machine.execSeampol c s
  | .cmpr c => Sys2Proof.Machine.execCmpr c s
  | .trap o code => Sys2Proof.Machine.execTrap o code s
  | .rds o num => Sys2Proof.Machine.execRds o num s
  | .wrs o num => Sys2Proof.Machine.execWrs o num s
  | .flags o rep => Sys2Proof.Machine.execFlags o rep s
  | .site o t => Sys2Proof.Machine.execSite o t s
  | .perf o k => Sys2Proof.Machine.execPerf o k s
  | .brk o rep => Sys2Proof.Machine.execBrk o rep s
  | .tret o rep => Sys2Proof.Machine.execTret o rep s
  | .tskip o rep => Sys2Proof.Machine.execTskip o rep s
  | .assert o code => Sys2Proof.Machine.execAssert o code s
  | .ownToLace c => Sys2Proof.Machine.execOwnToLace c s
  | .mzeroAuto c t => Sys2Proof.Machine.execMzeroAuto c t s
  | .mrowReadProgress c => Sys2Proof.Machine.execMrowReadProgress c s
  | .cpySetLpitch c f d => Sys2Proof.Machine.execCpySetLpitch c f d s
  | .cpySetLtask c f d => Sys2Proof.Machine.execCpySetLtask c f d s
  | .camsetRead c cam word => Sys2Proof.Machine.execCamsetRead c cam word s
  | .sampleSetStemp c => Sys2Proof.Machine.execSampleSetStemp c s
  | .sampleSetStopp c => Sys2Proof.Machine.execSampleSetStopp c s
  | .seqEnd => Sys2Proof.Machine.execSeqEnd s
  | .seqRun graph => Sys2Proof.Machine.execSeqRun graph s
  | .seqWait graph => Sys2Proof.Machine.execSeqWait graph s
  | .seqPhase => Sys2Proof.Machine.execSeqPhase s
  | .seqBranch cond target => Sys2Proof.Machine.execSeqBranch cond target s
  | .seqLoop n target => Sys2Proof.Machine.execSeqLoop n target s
  | .seqThreadResume job thread => Sys2Proof.Machine.execSeqThreadResume job thread s
  | .tokenArrival flit => Sys2Proof.Machine.execTokenArrival flit s
  | .killTokenArrival wave elem => Sys2Proof.Machine.execKillTokenArrival wave elem s
  | .killWaveComplete wave => Sys2Proof.Machine.execKillWaveComplete wave s
  | .firingSelect run elem => Sys2Proof.Machine.execFiringSelect run elem s
  | .activationCommit run elem act => Sys2Proof.Machine.execActivationCommit run elem act s
  | .relTokenSend run elem held => Sys2Proof.Machine.execRelTokenSend run elem held s
  | .identityRetire run elem act => Sys2Proof.Machine.execIdentityRetire run elem act s
  | .ageLimit => Sys2Proof.Machine.execAgeLimit s
  | .colnewGrant ctx colour => Sys2Proof.Machine.execColnewGrant ctx colour s
  | .colourDrain ctx colour => Sys2Proof.Machine.execColourDrain ctx colour s
  | .throttlePass run elem slot => Sys2Proof.Machine.execThrottlePass run elem slot s
  | .promiseDue run elem wait => Sys2Proof.Machine.execPromiseDue run elem wait s
  | .promise run elem wait => Sys2Proof.Machine.execPromise run elem wait s
  | .ldvRelease req => Sys2Proof.Machine.execLdvRelease req s
  | .taskStart start => Sys2Proof.Machine.execTaskStart start s
  | .tilePortRequest work => Sys2Proof.Machine.execTilePortRequest work s
  | .quayRequest work => Sys2Proof.Machine.execQuayRequest work s
  | .pageWalk walk => Sys2Proof.Machine.execPageWalk walk s
  | .engineCommandStart run cmd => Sys2Proof.Machine.execEngineCommandStart run cmd s
  | .engineCompletion run cmd => Sys2Proof.Machine.execEngineCompletion run cmd s
  | .ownerFlipEngine run cmd => Sys2Proof.Machine.execOwnerFlipEngine run cmd s
  | .strandBeatSend run strand => Sys2Proof.Machine.execStrandBeatSend run strand s
  | .controlStrandRequest run strand => Sys2Proof.Machine.execControlStrandRequest run strand s
  | .tensionUpdate => Sys2Proof.Machine.execTensionUpdate s
  | .cellUpdate req => Sys2Proof.Machine.execCellUpdate req s
  | .carveRequest req => Sys2Proof.Machine.execCarveRequest req s
  | .brickClaim req => Sys2Proof.Machine.execBrickClaim req s
  | .brickPop req => Sys2Proof.Machine.execBrickPop req s
  | .brickPublish req => Sys2Proof.Machine.execBrickPublish req s
  | .queueDoorbell queue tail => Sys2Proof.Machine.execQueueDoorbell queue tail s
  | .jobValidate queue => Sys2Proof.Machine.execJobValidate queue s
  | .berthing queue => Sys2Proof.Machine.execBerthing queue s
  | .berthTenureExpiry queue => Sys2Proof.Machine.execBerthTenureExpiry queue s
  | .admission die => Sys2Proof.Machine.execAdmission die s
  | .preemption die => Sys2Proof.Machine.execPreemption die s
  | .graphSourceInjection run => Sys2Proof.Machine.execGraphSourceInjection run s
  | .itemCompletion item => Sys2Proof.Machine.execItemCompletion item s
  | .freezeWave run => Sys2Proof.Machine.execFreezeWave run s
  | .freezeComplete run out => Sys2Proof.Machine.execFreezeComplete run out s
  | .launchRestore run parts => Sys2Proof.Machine.execLaunchRestore run parts s
  | .planeSwitch run => Sys2Proof.Machine.execPlaneSwitch run s
  | .create ctx => Sys2Proof.Machine.execCreate ctx s
  | .switchout ctx => Sys2Proof.Machine.execSwitchout ctx s
  | .switchoutDrainEnd ctx => Sys2Proof.Machine.execSwitchoutDrainEnd ctx s
  | .restore ctx => Sys2Proof.Machine.execRestore ctx s
  | .destroy ctx => Sys2Proof.Machine.execDestroy ctx s
  | .tlbinv => Sys2Proof.Machine.execTlbinv s
  | .tlbinvDone => Sys2Proof.Machine.execTlbinvDone s
  | .farRequestIssue ctx far => Sys2Proof.Machine.execFarRequestIssue ctx far s
  | .ownerRequest p => Sys2Proof.Machine.execOwnerRequest p s
  | .remoteReply p => Sys2Proof.Machine.execRemoteReply p s
  | .retransmit ctx fs => Sys2Proof.Machine.execRetransmit ctx fs s
  | .retransmitLifetimeExpiry ctx fs => Sys2Proof.Machine.execRetransmitLifetimeExpiry ctx fs s
  | .markQuery owner id => Sys2Proof.Machine.execMarkQuery owner id s
  | .markQueryAnswer p => Sys2Proof.Machine.execMarkQueryAnswer p s
  | .markAnswerReceipt owner p => Sys2Proof.Machine.execMarkAnswerReceipt owner p s
  | .goneWaitExpiry owner id => Sys2Proof.Machine.execGoneWaitExpiry owner id s
  | .tombstoneFree owner id => Sys2Proof.Machine.execTombstoneFree owner id s
  | .quarantineExpiry id => Sys2Proof.Machine.execQuarantineExpiry id s
  | .quayRestart owner => Sys2Proof.Machine.execQuayRestart owner s
  | .scrub quay corrected uncorrectable => Sys2Proof.Machine.execScrub quay corrected uncorrectable s
  | .errcntClear die => Sys2Proof.Machine.execErrcntClear die s
  | .replayReissue wave => Sys2Proof.Machine.execReplayReissue wave s
  | .bistDue die cluster => Sys2Proof.Machine.execBistDue die cluster s
  | .bistRun die cluster => Sys2Proof.Machine.execBistRun die cluster s
  | .bistResult die cluster frame pass => Sys2Proof.Machine.execBistResult die cluster frame pass s
  | .functionReady fn => Sys2Proof.Machine.execFunctionReady fn s
  | .diePowerDown die => Sys2Proof.Machine.execDiePowerDown die s
  | .dieWake die => Sys2Proof.Machine.execDieWake die s
  | .thermalThrottle => Sys2Proof.Machine.execThermalThrottle s
  | .thermalShutdown => Sys2Proof.Machine.execThermalShutdown s
  | .resync => Sys2Proof.Machine.execResync s
  | .attest => Sys2Proof.Machine.execAttest s
  | .fwload => Sys2Proof.Machine.execFwload s
  | .imgkey => Sys2Proof.Machine.execImgkey s
  | .poweroff => Sys2Proof.Machine.execPoweroff s
  | .poweron => Sys2Proof.Machine.execPoweron s
  | .devidWrite v => Sys2Proof.Machine.execDevidWrite v s
  | .registerWrite addr v mgmt => Sys2Proof.Machine.execRegisterWrite addr v mgmt s
  | .powerLoss => Sys2Proof.Machine.execPowerLoss s
  | .powerOnReset => Sys2Proof.Machine.execPowerOnReset s
  | .hawserLinkDown n failed => Sys2Proof.Machine.execHawserLinkDown n failed s
  | .thermalThrottleRelease => Sys2Proof.Machine.execThermalThrottleRelease s

end Sys2Proof.Machine
end

