-- ==== Sys2Proof/Machine/Fetch.lean ====
section
/-! DEFINITION. What the next step performs: the instruction of the agent in focus, or the next
happening of the agenda (log 1), with the passing of time (R9, R156, R162, R254, R261, R349) and the trap of a
slot word that no decoding accepts or that an error has hit (R80, R393). -/

namespace Sys2Proof.Machine

/-- What a step has fetched: an instruction and the state to perform it in, or the state after a
step that performs none. -/
inductive Fetched
  | run (i : Instr) (s : State)
  | stop (s : State)
  deriving DecidableEq, Repr, Inhabited

/-- The instruction of the selected firing; a word that decoding refuses, or a configuration word that an error has
hit, traps ILLEGAL (R80, R393). -/
def fetchFiring (s : State) (f : Firing) : Fetched :=
  if nbit (s.elem f.run f.elem).badSlots f.slot then .stop (s.illegalWord f (s.slotWord f))
  else match decode (s.slotWord f) with
    | .ok i => .run i s
    | .error _ => .stop (s.illegalWord f (s.slotWord f))

/-- One unit of work of a running engine command: its slot word names the work (R166).  A word that
is no engine word is no work: no command carries one. -/
def fetchEngine (s : State) (r n : Nat) : Fetched :=
  match (s.run r).cmds.find n with
  | some c =>
    if (s.run r).works s.cycle n c then
      match decode c.msg.word with
      | .ok i => if i.isCommand then .run i { s with focus := .engine r n } else .stop s
      | .error _ => .stop s
    else .stop s
  | none => .stop s

/-- The next step of a sequence thread (R339, R340); a thread that waits performs none. -/
def fetchThread (s : State) (j t : Nat) : Fetched :=
  match s.jobs.find j with
  | some job =>
    match job.threads.find t with
    | some th =>
      if th.wait = .none then
        match decodeSeq ((job.steps[th.step]?).getD 0) with
        | .ok i => .run i { s with focus := .thread j t }
        | .error _ => .stop s
      else .stop s
    | none => .stop s
  | none => .stop s

/-- A happening the machine alone decides on; the free schedule never causes it. -/
def internal : Happening → Bool
  | .refire _ => true
  | .row .tensionUpdate | .row .ageLimit => true
  | _ => false

/-- The next happening and the cycles before it: the agenda's head, or a free choice (log 1). -/
def State.pop (s : State) : Option (Nat × Happening) × State :=
  match s.agenda with
  | e :: rest => (some e, { s with agenda := rest })
  | [] =>
    let e := Config.schedule s.tick
    let s := { s with tick := s.tick + 1 }
    (if internal e.2 then none else some e, s)

/-! ## What no cycle passes by -/

/-- The waiting promises of the device: run, element and number of each with its firing (R156). -/
def State.promises (s : State) : List (Nat × Nat × Nat × Firing) :=
  s.runs.flatMap fun r => r.2.elems.flatMap fun e => e.2.waitts.map fun w => (r.1, e.1, w.1, w.2)

/-- What a waiting promise does in this cycle: it is kept, or missed (R98, R156). -/
def State.promiseEvent (s : State) (p : Nat × Nat × Nat × Firing) : Option Happening :=
  if s.promiseKept p.1 p.2.1 p.2.2.2 then some (.row (.promiseDue p.1 p.2.1 p.2.2.1))
  else if s.promiseMissed p.1 p.2.1 p.2.2.2 then some (.row (.promise p.1 p.2.1 p.2.2.1))
  else none

/-- What a queue does in this cycle: it takes a berth that is free, or loses its own (R349). -/
def State.berthEvent (s : State) (q : Nat × Queue) : Option Happening :=
  if s.berths q.1 then some (.row (.berthing q.1))
  else if s.berthLost q.1 q.2 then some (.row (.berthTenureExpiry q.1))
  else none

/-- What takes place before another cycle passes: a promise that is due or missed, and the taking and the loss of
a berth (R156, R349). -/
def State.forcedNow (s : State) : Option Happening :=
  match firstSome s.promiseEvent s.promises with
  | some h => some h
  | none => firstSome s.berthEvent s.queues

/-- The cycles until a clock reaches a due time; none once it has passed (R156). -/
def untilDue (now due : Nat) : List Nat :=
  if duePassed now due then [] else [(due % 2 ^ 56 + 2 ^ 56 - now % 2 ^ 56) % 2 ^ 56]

/-- The cycles until each deadline: DUE and DUE plus the slack of a promise, and the end of a tenure. -/
def State.deadlines (s : State) : List Nat :=
  (s.promises.flatMap fun p =>
    let now := s.clockAt p.1 p.2.1
    let due := bits p.2.2.2.lv 0 56
    untilDue now due ++ untilDue now (due + (s.ctx (s.run p.1).ctx).regs.slack)) ++
  s.queues.flatMap fun q => match s.tenureEnd q.2 with
    | some t => if s.cycle < t then [t - s.cycle] else []
    | none => []

/-- The cycles to the next deadline, or to the next multiple of 64 (R261). -/
def State.quiet (s : State) : Nat :=
  max 1 (s.deadlines.foldl min ((s.cycle / 64 + 1) * 64 - s.cycle))

/-! ## The counters of time, R162 -/

/-- The cycles of the next `n` in which no firing of an element is ready (R162). -/
def Elem.idleCycles (e : Elem) (now n : Nat) : Nat :=
  if !(e.candidates (now + 1)).isEmpty then 0
  else if (e.candidates (now + n)).isEmpty then n
  else match e.quarter with
    | some q => min n (q + 3 - now)
    | none => 0

/-- What `n` cycles add to the counters of an element: without a ready firing, stalled on a full store buffer,
waiting in COLNEW (R162). -/
def State.countCycles (s : State) (r key n : Nat) (e : Elem) : Elem :=
  if !s.alive r key then e
  else
    let stalled := e.parked.any fun p => p.cause = 0x06
    let asks := (s.ctx (s.run r).ctx).waiting.any fun w => w.firing.run = r && w.firing.elem = key
    ((e.count 4 (e.idleCycles s.cycle n)).count 5 (if stalled then n else 0)).count 7 (if asks then n else 0)

/-- `n` cycles pass in which nothing happens. -/
def State.passed (s : State) (n : Nat) : State :=
  let runs : Tbl Run := s.runs.map fun r =>
    (r.1, { r.2 with elems := r.2.elems.map fun e => (e.1, s.countCycles r.1 e.1 n e.2) })
  { s with cycle := s.cycle + n, runs := runs }

/-- Let the cycles before a happening pass.  No deadline is passed by, nor a multiple of 64 cycles without a
tension update, nor one of 1,024 without a look at the age limits (R156, R254, R261, R349). -/
def State.advance (s : State) (d : Nat) (h : Happening) : Option Happening × State :=
  let n := s.quiet
  if d < n then (some h, s.passed d)
  else
    let s := s.passed n
    let rest := (d - n, h) :: s.agenda
    if s.cycle % 64 = 0 then
      (some (.row .tensionUpdate),
        { s with agenda := if s.cycle % 1024 = 0 then (0, .row .ageLimit) :: rest else rest })
    else (none, { s with agenda := rest })

/-- What a happening performs.  A row that is an instruction word is performed only by the agent
that fetches it. -/
def fetchHappening (s : State) : Happening → Fetched
  | .row i => if i.isSlotWord || i.isSeqWord then .stop s else .run i s
  | .engine r n => fetchEngine s r n
  | .thread j t => fetchThread s j t
  | .refire f => .stop { s with focus := .firing f }
  | .upset u => .stop (s.upset u)
  | .registerRead a => .stop (s.registerRead a)

/-- The happening of an idle device: what this cycle forces, else the next one. -/
def fetchIdle (s : State) : Fetched :=
  match s.forcedNow with
  | some h => fetchHappening s h
  | none => match s.pop with
    | (none, s) => .stop s
    | (some (d, h), s) => match s.advance d h with
      | (some h, s) => fetchHappening s h
      | (none, s) => .stop s

/-- What the next step performs. -/
def fetch (s : State) : Fetched :=
  match s.focus with
  | .firing f => fetchFiring s f
  | .engine r n => fetchEngine s r n
  | .thread j t => fetchThread s j t
  | .idle => fetchIdle s

/-! ## Placing an instruction for the next step -/

/-- A cleared element with one slot word and one open activation. -/
def Elem.withWord (w : Word) : Elem :=
  { Elem.cleared with slots := w :: List.replicate 31 0, acts := [Act.open_ 0 0 0 0] }

/-- A launch that consists of one lace element with one slot word: run 0, the first cluster of die
0, site 2. -/
def Run.withWord (w : Word) : Run :=
  { (default : Run) with
    state := .running
    parts := [⟨0, 0, 0, 1, 1, 0, 0, 0, [], .running, false, false⟩]
    args := List.replicate 16 0
    elems := [(keyOf 0 0 2, Elem.withWord w)] }

/-- The firing of slot 0 of that element with two data tokens of payload 0. -/
def firingOfWord : Firing :=
  ⟨0, keyOf 0 0 2, 0, 0, 0, 0, some (Tok.data 0), some (Tok.data 0), some (Tok.data 0)⟩

/-- The machine with the word loaded in a launch of its own and its firing selected. -/
def State.withSlotWord (s : State) (w : Word) : State :=
  { s with focus := .firing firingOfWord, runs := s.runs.put 0 (Run.withWord w) }

end Sys2Proof.Machine
end

