-- ==== Sys2Proof/Machine/Step.lean ====
section
/-! DEFINITION. One step of the device: fetch and perform. -/

namespace Sys2Proof.Machine

/-- One step: what the agent in focus or the agenda has next (log 1). -/
def step (s : State) : Host.Outcome State Fault Refusal :=
  match fetch s with
  | .run i t => exec i t
  | .stop t => .next t

/-- The machine with an instruction word where the next step fetches: a launch is loaded from
outside, and the firing of its one slot is selected (log 2). -/
def State.withFetchWord (s : State) (_nbits w : Nat) : State := s.withSlotWord (BitVec.ofNat 64 w)

end Sys2Proof.Machine
end

