-- ==== Sys2Proof/Safety.lean ====
section
/-! DEFINITION. What counts as a safe run, and the words in which claims about the machine are made:
a step that goes on, the state a firing executes in, the results of integer instructions as bit
vectors (R124), and what a firing leaves alone. -/

namespace Sys2Proof.Machine

/-- A row that has its effect: the machine goes on. -/
def Goes (r : Result) : Prop := ∃ t, r = .next t

/-- The state in which the firing in focus has its effect: nothing is in focus any more (R101). -/
def State.taken (s : State) (_f : Firing) : State := s.idle

/-- The element of a firing stands in a launch of the machine. -/
structure Stands (s : State) (f : Firing) (r : Run) (e : Elem) : Prop where
  run : s.runs.find f.run = some r
  elem : r.elems.find f.elem = some e

/-- The registers of every context are those of the state before; the pool's colours and its waiting
requests are no registers, and the far requests of a launch that a trap cancels may go (R346). -/
def SameContexts (s t : State) : Prop :=
  ∀ c, ∃ gone, { t.ctx c with colours := (s.ctx c).colours, waiting := (s.ctx c).waiting } =
    { s.ctx c with far := (s.ctx c).far.without gone }

/-- The same but for FLAGS, which keep every flag they hold (R53). -/
def SameContextsButFlags (s t : State) : Prop :=
  ∀ c, ∃ gone, { t.ctx c with
      colours := (s.ctx c).colours
      waiting := (s.ctx c).waiting
      regs := { (t.ctx c).regs with flags := (s.ctx c).regs.flags } } =
      { s.ctx c with far := (s.ctx c).far.without gone } ∧
    (t.ctx c).regs.flags ||| (s.ctx c).regs.flags = (t.ctx c).regs.flags

/-- What a firing at an element leaves alone outside its launch, the contexts and memory: the device's
own registers, the dies, the queues, the links, the translations and every other launch, but for seed records of
colours that a launch which a trap cancels had allocated (R398). -/
structure SameBeyond (f : Firing) (s t : State) : Prop where
  life : t.life = s.life
  dies : t.dies = s.dies
  queues : t.queues = s.queues
  links : t.links = s.links
  owners : t.owners = s.owners
  quarantine : t.quarantine = s.quarantine
  tlb : t.tlb = s.tlb
  tlbinv : t.tlbinv = s.tlbinv
  cycle : t.cycle = s.cycle
  runs : ∀ q, q ≠ f.run → ∃ gone, t.run q = (s.run q).dropSeeds gone

/-- The same with all of memory and its side bands. -/
structure SameOutside (f : Firing) (s t : State) : Prop extends SameBeyond f s t where
  mem : t.mem = s.mem
  side : t.side = s.side

/-- A target names a hold register. -/
def isHold (o : Option Target) (k : Nat) : Prop := ∃ j : BitVec 3, o = some (.hold j) ∧ j.toNat = k

/-- A target names a slot of the firing's own element. -/
def isLocal (f : Firing) (o : Option Target) : Prop :=
  ∃ p slot dx dy, o = some (.site p slot dx dy) ∧ targetKey f.elem dx dy = f.elem

/-- A token goes to its place: through the mesh to another element, by arrival to its own unless an earlier one
of the channel is still on its way there, into the inbox of a frozen launch (R25, R34, R362). -/
def Injects (s t : State) (fl : Flit) : Prop :=
  ((s.run fl.run).state = .frozen → (t.run fl.run).inbox = (s.run fl.run).inbox.put s.nextId fl) ∧
  ((s.run fl.run).state ≠ .frozen → fl.dst ≠ fl.src ∨ s.behind s.nextId fl = true →
    t = { s with nextId := s.nextId + 1, flits := s.flits.put s.nextId fl }) ∧
  ((s.run fl.run).state ≠ .frozen → fl.dst = fl.src → s.behind s.nextId fl = false → t = s.deliver fl)

/-! ## Entries that spill, R242 to R244 -/

/-- Every set of the matching store has ways for `k` more tokens, and no entry of it is spilled. -/
def Elem.HasWays (e : Elem) (k : Nat) : Prop := ∀ n, e.inSet n + k ≤ 8 ∧ e.setSpills n = false

/-- A byte of the 32 of an address of a context, as the device writes there; the walk may choose among
the entries of a run as it likes (R368). -/
def State.InPlace (s : State) (c va b : Nat) : Prop :=
  ∃ n h, State.walkHome { s with nextId := n } c (va % 2 ^ 55) needWrite = .ok h ∧ h ≤ b ∧ b < h + 32

/-- A byte of the place of the context's spill region that takes its next entry (R244). -/
def State.SpillByte (s : State) (c b : Nat) : Prop :=
  s.InPlace c (bits (s.ctx c).spillbase 0 55 + 32 * s.spillPlace c) b

/-- A byte of the next record of the context's fault log (R370). -/
def State.LogByte (s : State) (c b : Nat) : Prop := s.InPlace c (s.ctx c).logNext b

/-- A byte of an entry that a firing's tokens for slots of its own element may spill, one target after
the other. -/
def Spills (f : Firing) (b : Nat) : List (Option Target) → State → Prop
  | [], _ => False
  | t :: ts, s => (isLocal f t ∧ s.SpillByte (s.run f.run).ctx b) ∨ Spills f b ts s ∨
    ∃ tok colour iter, Spills f b ts (s.emitAs f t tok colour iter)

/-- The targets of an instruction, in the order of emission. -/
def targetsOf (i : Instr) : List (Option Target) := [(outOf i).ta, (outOf i).tb, thirdOf i]

/-- A state in which a firing emits its tokens: its element is idle, and it may have raised flags,
counted an EXIT or closed an LSID. -/
def Emits (s : State) (f : Firing) (u : State) : Prop :=
  u = s.taken f ∨ u = (s.taken f).countExit f ∨ (∃ fl, u = (s.taken f).raise f fl) ∨
    ∃ n, u = (s.taken f).resolveLsid f n

/-- The bytes of memory that satisfy no condition are unchanged, and so are the side bands of the blocks
that hold none which does. -/
def SameBut (p : Nat → Prop) (s t : State) : Prop :=
  (∀ b, ¬ p b → memGet t.mem b = memGet s.mem b) ∧
  ∀ b, (∀ b', blockIx b' = blockIx b → ¬ p b') → t.sideOf b = s.sideOf b

/-- Hold registers of the launch: unchanged but those the targets name (R65). -/
def SameHolds (f : Firing) (o : Out) (s t : State) : Prop :=
  ∀ e k, (e = f.elem → ¬ isHold o.ta k ∧ ¬ isHold o.tb k) →
    (t.elem f.run e).holds[k]? = (s.elem f.run e).holds[k]?

/-! ## Integer operands and results, R124, R75 -/

/-- Lane `k` of width `w` of a payload. -/
def lane (w k : Nat) (x : Word) : BitVec w := x.extractLsb' (k * w) w

/-- Lane `k` of the right operand: of the payload, or of the immediate, which is sign-extended and
stands in every lane. -/
def rightLane (f : IntForm) (r : Word) (k : Nat) : BitVec f.sz.bits :=
  if f.immOn then (f.imm.signExtend 64).setWidth f.sz.bits else lane f.sz.bits k r

/-- The whole right operand of a form that is not packed. -/
def rightWhole (f : IntForm) (r : Word) : Word := if f.immOn then f.imm.signExtend 64 else r

/-- A word is the result of a lane operation: each of its lanes stands in the relation to the lanes of
the operands, or, without packing, it is the sign extension of the one lane result. -/
def Gives2 (f : IntForm) (rel : BitVec f.sz.bits → BitVec f.sz.bits → BitVec f.sz.bits → Prop)
    (l r v : Word) : Prop :=
  if f.packed then
    ∀ k < 64 / f.sz.bits, rel (lane f.sz.bits k l) (rightLane f r k) (lane f.sz.bits k v)
  else ∃ c, rel (lane f.sz.bits 0 l) (rightLane f r 0) c ∧ v = c.signExtend 64

/-- The same for one operand. -/
def Gives1 (f : UnForm) (rel : BitVec f.sz.bits → BitVec f.sz.bits → Prop) (l v : Word) : Prop :=
  if f.packed then ∀ k < 64 / f.sz.bits, rel (lane f.sz.bits k l) (lane f.sz.bits k v)
  else ∃ c, rel (lane f.sz.bits 0 l) c ∧ v = c.signExtend 64

/-- A condition of R72 on two lanes. -/
def Holds (cc : Cond) {w : Nat} (a b : BitVec w) : Prop :=
  match cc with
  | .eq => a = b
  | .ne => a ≠ b
  | .lt => a.toInt < b.toInt
  | .le => a.toInt ≤ b.toInt
  | .gt => a.toInt > b.toInt
  | .ge => a.toInt ≥ b.toInt
  | .ltu => a.toNat < b.toNat
  | .leu => a.toNat ≤ b.toNat

/-- The value of a lane, signed or unsigned. -/
def laneInt (u : Bool) {w : Nat} (a : BitVec w) : Int := if u then a.toNat else a.toInt

/-- The least and the greatest value of a lane (R129). -/
def laneMin (u : Bool) (w : Nat) : Int := if u then 0 else -(2 : Int) ^ (w - 1)
def laneMax (u : Bool) (w : Nat) : Int := if u then (2 : Int) ^ w - 1 else (2 : Int) ^ (w - 1) - 1

/-- The exact sum or difference of two lanes. -/
def exactSum (sub u : Bool) {w : Nat} (a b : BitVec w) : Int :=
  if sub then laneInt u a - laneInt u b else laneInt u a + laneInt u b

/-- The exact sum or difference falls outside the range of the lane. -/
def Clamps (sub u : Bool) {w : Nat} (a b : BitVec w) : Prop :=
  exactSum sub u a b < laneMin u w ∨ laneMax u w < exactSum sub u a b

/-- A lane holds the exact sum or difference, clamped to the range of the lane (R129). -/
def IsClampedSum (sub u : Bool) {w : Nat} (a b c : BitVec w) : Prop :=
  laneInt u c = max (laneMin u w) (min (laneMax u w) (exactSum sub u a b))

/-! ## Float operands, R136 -/

/-- The value of a float operand in the low bits of a payload. -/
def lowVal (fmt : FloatFmt) (x : Word) : FVal :=
  decodeF (fspec fmt) (x.toNat % 2 ^ (fspec fmt).width)

/-- The number that a finite value stands for. -/
def valQ : FVal → ℚ
  | .fin neg m e => (if neg then -(m : ℚ) else (m : ℚ)) * (2 : ℚ) ^ e
  | _ => 0

/-- The order of two values that are no NaNs (R140). -/
def valueLess (a b : FVal) : Prop :=
  match a, b with
  | .inf n, .inf m => n = true ∧ m = false
  | .inf n, _ => n = true
  | _, .inf m => m = false
  | a, b => valQ a < valQ b

/-- The canonical NaN of a format as a payload (R37). -/
def nanWord : FloatFmt → Word
  | .d => 0x7FF8000000000000
  | .s => 0x7FC00000
  | .h => 0x7E00
  | .bf => 0x7FC0

/-- An infinity and a zero of a format as a payload. -/
def infWord (neg : Bool) : FloatFmt → Word
  | .d => if neg then 0xFFF0000000000000 else 0x7FF0000000000000
  | .s => if neg then 0xFF800000 else 0x7F800000
  | .h => if neg then 0xFC00 else 0x7C00
  | .bf => if neg then 0xFF80 else 0x7F80

def zeroWord (neg : Bool) : FloatFmt → Word
  | .d => if neg then 0x8000000000000000 else 0
  | .s => if neg then 0x80000000 else 0
  | .h => if neg then 0x8000 else 0
  | .bf => if neg then 0x8000 else 0

/-- One as a payload of a format. -/
def oneWord : FloatFmt → Word
  | .d => 0x3FF0000000000000
  | .s => 0x3F800000
  | .h => 0x3C00
  | .bf => 0x3F80

/-- NV where one of the values is a signalling NaN (R136). -/
def sigNv (vs : List FVal) : Nat := if FVal.nan true ∈ vs then 8 else 0

/-- The state with another firing in focus. -/
def State.withFiring (s : State) (x : Firing) : State := { s with focus := .firing x }

/-- A firing with other operands. -/
def withOperands (x : Firing) (l r : Word) : Firing :=
  { x with l := some (Tok.data l), r := some (Tok.data r) }

/-! ## The words of each kind -/

/-- The words that compute on tokens and touch nothing outside them (R101 to R143). -/
def isTokenWord : Instr → Bool
  | .mov .. | .mov3 .. | .const .. | .constor .. | .steer .. | .steern .. | .select .. | .nullt ..
  | .iter .. | .iterset .. | .iterread .. | .exit .. | .gate .. | .kindq .. | .stopt ..
  | .retire .. | .add .. | .sub .. | .mul .. | .mulh .. | .and .. | .or .. | .xor .. | .andn ..
  | .shl .. | .shr .. | .sar .. | .rol .. | .min .. | .max .. | .abs .. | .neg .. | .clz ..
  | .popc .. | .brev .. | .cmp .. | .test .. | .adds .. | .subs .. | .lea .. | .base .. | .shape ..
  | .extr .. | .ins .. | .pack .. | .unpk .. | .fadd .. | .fsub .. | .fmul .. | .fma .. | .fdiv ..
  | .fsqrt .. | .fmin .. | .fmax .. | .fcmp .. | .fsgn .. | .fcvt .. | .ftoi .. | .itof ..
  | .fexp2 .. | .flog2 .. | .frcp .. | .frsq .. | .fsinp .. | .fcosp .. | .fclass .. | .cycle ..
  | .rds .. | .flags .. | .site .. | .perf .. => true
  | _ => false

/-- The token words that may raise flags (R124, R136). -/
def raisesFlags : Instr → Bool
  | .adds .. | .subs .. | .fadd .. | .fsub .. | .fmul .. | .fma .. | .fdiv .. | .fsqrt .. | .fmin ..
  | .fmax .. | .fcmp .. | .fcvt .. | .ftoi .. | .itof .. | .fexp2 .. | .flog2 .. | .frcp ..
  | .frsq .. | .fsinp .. | .fcosp .. => true
  | _ => false

/-- The command of an engine word, but of OWN to engine, which is held until its commit (R159). -/
def commandOf : Instr → Option Cmd
  | .ownToLace c | .seamin c _ _ _ | .seamout c _ _ | .mzero c _ | .mzeroAuto c _ | .mldb c
  | .mldc c _ | .mma c _ | .mmas c _ | .mmax3 c _ | .mout c _ _ _ _ | .mrow c _ | .mrowReadProgress c
  | .mscale c | .mbmap c | .vmap c _ | .vfma c _ | .vred c _ | .vscan c _ | .vsoft c _ | .vnorm c _
  | .cvt c _ _ _ | .vcmp c _ | .vsel c _ | .vrope c _ | .tshape c _ | .tread c _ | .twrite c _
  | .tcomp c _ | .texp c _ _ | .trot c _ | .twin c _ | .tzmap c _ | .tsacc c _ _ | .trep c _
  | .trmw c _ _ | .tfill c _ | .cpy c _ _ | .cpySetLpitch c _ _ | .cpySetLtask c _ _ | .cpyg c _
  | .cpys c _ | .cpy2d c _ _ | .cpyq c | .camld c _ | .camset c _ _ | .camsetRead c _ _
  | .camcomp c _ _ _ | .pgather c _ _ | .pray c _ _ | .pscat c _ _ _ | .pstore c | .pstat c _
  | .pclear c | .pprior c | .topk c | .sample c | .sampleSetStemp c | .sampleSetStopp c | .accept c
  | .resid c | .draw c | .treemask c | .drawtab c | .isect c | .union c | .seampol c | .cmpr c => some c
  | _ => none

/-- The engine words whose port l is a trigger (R166). -/
def isTrigger : Instr → Bool
  | .ownToLace _ | .mrowReadProgress _ | .vscan .. | .cvt .. | .vcmp .. | .vsel .. | .vrope ..
  | .tread .. | .twrite .. | .tcomp .. | .texp .. | .trot .. | .tzmap .. | .trmw .. | .camsetRead ..
  | .camcomp .. | .pstat .. | .pclear _ | .isect _ | .union _ | .cmpr _ => true
  | .vmap _ f => f.fn.toNat < 10
  | .vfma _ f => !f.fn.getLsbD 0
  | _ => false

/-! ## Memory accesses, R144 -/

/-- left.val + offset × size, modulo 2^64. -/
def addressAt (x : Firing) {w : Nat} (off : BitVec w) (size : Nat) : Word :=
  x.lv + off.signExtend 64 * BitVec.ofNat 64 size

/-- The effective address of a memory word, its alignment and the rights it needs: 1 to read, 2 to
write, 3 for both (R144, R153, R154, R157, R227).  BAR has an address only with a number of parties
it takes (R157). -/
def accessOf (x : Firing) : Instr → Option (Word × Nat × Nat)
  | .ld _ sz m | .ldv _ sz m => some (addressAt x m.off sz.bytes, sz.bytes, 1)
  | .vers _ m | .ldd _ m => some (addressAt x m.off 64, 64, 1)
  | .xread _ _ m => some (addressAt x m.off 8, 8, 1)
  | .ldk _ _ _ _ _ => some (x.lv, 64, 1)
  | .bar _ m =>
    if x.rv = 0 || x.rv.toNat ≥ 16777216 then none else some (addressAt x m.off 8, 8, 3)
  | .st _ sz m | .stv _ sz m => some (addressAt x m.off sz.bytes, sz.bytes, 2)
  | .vset _ m | .std _ m => some (addressAt x m.off 64, 64, 2)
  | .signal _ m | .post _ m | .arm _ m => some (addressAt x m.off 8, 8, 3)
  | .kvcommit _ _ _ => some (x.lv, 64, 2)
  | .aadd _ sz m | .aand _ sz m | .aor _ sz m | .axor _ sz m | .amin _ sz m | .amax _ sz m
  | .aswap _ sz m | .afadd _ sz m | .aincw _ sz m | .aser _ sz m =>
    some (addressAt x m.off sz.bytes, sz.bytes, 3)
  | .acas _ sz _ off _ _ => some (addressAt x off sz.bytes, sz.bytes, 3)
  | .xinit _ _ m => some (addressAt x m.off 8, 8, 2)
  | .xacc _ _ m => some (addressAt x m.off 8, 8, 3)
  | _ => none

/-- An address passes the checks of R144 and has its home at `a`, on this device or on another. -/
structure HomeAt (s : State) (x : Firing) (ea : Word) (align need a : Nat) : Prop where
  canonical : ea.getLsbD 55 = false
  aligned : ea.toNat % align = 0
  home : s.translate x.run x.elem ea.toNat need = .home a ∨
    (s.translate x.run x.elem ea.toNat need = .far ∧ a = farHome ea.toNat)
  own : s.outsideCopy x.run a need = false

/-- The bytes of a memory outside a range are those of another. -/
def SameOutsideRange (m n : List Host.Cell) (a size : Nat) : Prop :=
  ∀ b, b < a ∨ a + size ≤ b → memGet n b = memGet m b

/-- A home may perform a pending request of its own now, on a block that is not poisoned (R282). -/
structure Performs (s : State) (n : Nat) (q : Req) : Prop where
  there : s.reqs.find n = some q
  allowed : s.mayPerform n q = true
  clean : (s.sideOf q.home).poison = false
  lace : s.engineOwned q.home = false
  apart : s.overlapsStore q.firing q.lsid q.home q.span = false
  serves : atTile q.home = true ∨ (atQuay q.home = true ∧ s.awake q.home = true)

/-- The event of the port that serves a home. -/
def portEvent (q : Req) (n : Nat) : Instr :=
  if atTile q.home then .tilePortRequest (.pending n) else .quayRequest (.pending n)

/-! ## Exact accumulation, R54, R154 -/

/-- A word after the terms of a list have been accumulated in it, each a sign, a magnitude and an
exponent. -/
def afterTerms (b w : Nat) (ts : List (Bool × Nat × Int)) : Nat :=
  ts.foldl (fun x t => (xaccWord b x t.1 t.2.1 t.2.2).1) w

/-- The sum of the terms, each rounded to a multiple of the word's unit. -/
def alignedSum (b w : Nat) (ts : List (Bool × Nat × Int)) : Int :=
  (ts.map fun t => (alignTo (signed t.1 t.2.1) t.2.2 (residueEacc b (unpackResidue w).2)).1).sum

/-- The sum that a word holds, in its unit. -/
def heldSum (w : Nat) : Int := (unpackResidue w).1.value

/-- The 64-bit word at a home. -/
def State.wordAt (s : State) (a : Nat) : Word := BitVec.ofNat 64 (s.num a 8)

/-! ## Engines, R166, R167 -/

/-- A command of a launch is in focus at its engine. -/
structure AtEngine (s : State) (r n : Nat) (x : Run) (c : Command) : Prop where
  focus : s.focus = .engine r n
  run : s.runs.find r = some x
  cmd : x.cmds.find n = some c

/-- The command's work is over, and its completion will carry a payload (R167). -/
def Answers (t : State) (r n : Nat) (v : Word) : Prop :=
  ((t.run r).cmds.find n).map Command.state = some (.finished v)

/-- Memory, its side bands, the tokens under way, the requests at homes and the other launches are
unchanged. -/
structure SameAround (r : Nat) (s t : State) : Prop where
  mem : t.mem = s.mem
  side : t.side = s.side
  flits : t.flits = s.flits
  reqs : t.reqs = s.reqs
  runs : ∀ q, q ≠ r → t.run q = s.run q

/-- A sequence thread of a job is in focus. -/
structure AtThread (s : State) (j t : Nat) (job : Job) (th : Thread) : Prop where
  focus : s.focus = .thread j t
  there : s.jobs.find j = some job
  thread : job.threads.find t = some th

/-! ## Stores, R316 to R321 -/

/-- A PSCAT stands at a step of its work, with its bound store and its target cell. -/
structure ScatterAt (s : State) (n stage r : Nat) (y : Run) (c : Command) (g : StoreDesc) (x : CellAt) :
    Prop where
  command : s.cmdRun n = some (r, c)
  run : s.runs.find r = some y
  there : y.cmds.find n = some c
  works : y.works s.cycle n c = true
  stage : c.prog.j = stage
  word : ∃ k cam carve ptrap, decode c.msg.word = .ok (.pscat k cam carve ptrap)
  store : (y.proj c.elem).desc = some g
  table : g.tablebase % 64 = 0
  stack : g.stackbase % 64 = 0
  reads : c.prog.skip = none
  target : c.target g = some x

/-- The block of an address of a store has its home at `a` in the stacks, and may be read and written
there. -/
structure StoreHome (s : State) (r key ea a : Nat) : Prop where
  aligned : a % 64 = 0
  reads : s.engineHome r key (blockAt ea) needRead = .home a
  writes : s.engineHome r key (blockAt ea) needWrite = .home a
  noTile : isTileHome a = false
  clean : (s.sideOf a).poison = false
  free : s.blockBusy a = false
  own : s.outsideCopy r a needWrite = false

/-- The state whose translation caches have been filled for addresses that an engine used (R369). -/
def State.used (s : State) (r key : Nat) (eas : List Nat) : State :=
  eas.foldl (fun s ea => s.engineFill r key ea) s

/-- A block of the stacks whose translation the caches hold, with both rights, and that an engine may
read and write there (R369). -/
structure CachedHome (s : State) (r key ea a : Nat) : Prop where
  aligned : ea % 64 = 0 ∧ a % 64 = 0
  plain : s.untabled r ea = none
  hit : ∃ e, s.engineHit r key (ea % 2 ^ 55) = some e ∧ e.rd = true ∧ e.wr = true ∧
    a = e.pa + (ea % 2 ^ 55 - e.va)
  kept : s.engineFill r key ea = s
  noTile : isTileHome a = false
  clean : (s.sideOf a).poison = false
  free : s.blockBusy a = false
  own : s.outsideCopy r a needWrite = false

/-! ## Beats at ports and blocks at homes, R31, R167, R258 -/

/-- The beats that wait at an input port. -/
def State.arriving (s : State) (r key port : Nat) : List Beat :=
  match (s.run r).inEnd key port with
  | none => []
  | some (k, i) => ((((s.run r).strands.get k).branches[i]?).getD default).beats

/-- The beats formed for an output port that have not been sent. -/
def State.formed (s : State) (r key port : Nat) : List Beat :=
  match (s.run r).outStrand key port with
  | none => []
  | some k => ((s.run r).strands.get k).ready

/-- A command does its work at its engine, in a launch whose strands stand in order and of which it is
in a part that is not cancelled; no TSKIP has ended its input. -/
structure Working (s : State) (r n : Nat) (x : Run) (c : Command) : Prop where
  engine : AtEngine s r n x c
  strung : (x.strands.map Prod.fst).Pairwise (· < ·)
  live : (x.part (partOf c.elem)).cancelled = false
  noSkip : c.prog.skip = none

/-- An output port of the command leads to a strand and has room for a beat. -/
structure HasRoom (s : State) (r : Nat) (x : Run) (c : Command) (port : Nat) : Prop where
  strand : (x.outStrand c.elem port).isSome = true
  room : s.outReady r c.elem port = true

/-- One beat has been taken from each of some input ports of an element, beats have been formed for
some of its output ports, and no other input of the launch has changed. -/
structure Moves (r key : Nat) (ins : List Nat) (outs : List (Nat × List Beat)) (s t : State) :
    Prop where
  taken : ∀ p ∈ ins, t.arriving r key p = (s.arriving r key p).drop 1
  kept : ∀ k p, k ≠ key ∨ p ∉ ins → t.arriving r k p = s.arriving r k p
  formed : ∀ o ∈ outs, t.formed r key o.1 = s.formed r key o.1 ++ o.2
  unformed : ∀ p, p ∉ outs.map Prod.fst → t.formed r key p = s.formed r key p

/-- The command goes on with a progress of its own. -/
def Progress (t : State) (r n : Nat) (c : Command) (p : Prog) : Prop :=
  ((t.run r).cmds.find n).map (fun d => (d.state, d.prog)) = some (c.state, p)

/-- A block of the stacks or of the application cores' memory that an engine may read. -/
structure ReadHome (s : State) (r key ea a : Nat) : Prop where
  aligned : ea % 64 = 0 ∧ a % 64 = 0
  home : s.engineHome r key ea needRead = .home a
  noTile : isTileHome a = false
  clean : (s.sideOf a).poison = false

/-- A gather may read the header and the view blocks of a cell's record one after another, after the
entry at `ea`: `eas` are their addresses, `bs` the record's blocks as it takes them (R212). -/
def State.SeenRecord (s : State) (r key ea : Nat) (g : StoreDesc) (brick : Nat) (y : CellAt)
    (eas : List Nat) (bs : List Blk) : Prop :=
  eas = recordAddr g brick y :: ((upTo (viewBlocks g.f)).map fun m =>
    recordAddr g brick y + 64 * (1 + sumBlocks g.f + m)) ∧
  ∃ at_ : Nat → Nat,
    (∀ m e, eas[m]? = some e → ReadHome (s.used r key (ea :: eas.take m)) r key e (at_ m)) ∧
    bs = ⟨s.block (at_ 0), (s.sideOf (at_ 0)).descr⟩ ::
      (List.replicate (sumBlocks g.f) (Blk.zero 0x11 0) ++
        (upTo (viewBlocks g.f)).map fun m => ⟨s.block (at_ (m + 1)), (s.sideOf (at_ (m + 1))).descr⟩)

/-- A block of the stacks or of the application cores' memory that an engine may write. -/
structure WriteHome (s : State) (r key ea a : Nat) : Prop where
  aligned : ea % 64 = 0 ∧ a % 64 = 0
  home : s.engineHome r key ea needWrite = .home a
  noTile : isTileHome a = false
  free : s.blockBusy a = false
  own : s.outsideCopy r a needWrite = false

/-- The block at a home as an engine reads it. -/
def State.blkAt (s : State) (a : Nat) : Blk := ⟨s.block a, (s.sideOf a).descr⟩

/-- A block at a home holds new bytes, and no byte outside it has changed. -/
def Wrote (s t : State) (a : Nat) (data : List Byte) : Prop :=
  t.block a = fillTo 64 0 data ∧ SameOutsideRange s.mem t.mem a 64

/-- The accumulator tables of a frame stand in order. -/
structure Frame.Sorted (f : Frame) : Prop where
  first : (f.acc0.map Prod.fst).Pairwise (· < ·)
  second : (f.acc1.map Prod.fst).Pairwise (· < ·)

end Sys2Proof.Machine
end

