-- ==== Sys2Proof/Certificates/Slice0/Obligations.lean ====
section
/-! DEFINITION. The statements about the model, for the provers.  OBLIGATIONS.json gives each its rules
of the spec. -/

open Sys2Proof Sys2Proof.Machine

/-- Sums, products, logic, shifts, high products, minima and maxima emit their lane results (R126,
R124, R75). -/
def Obligations.ArithmeticShiftsAndProductsEmitTheirLaneResults : Prop :=
  (∀ (s : State) (x : Firing) (o : Out) (f : IntForm), s.focus = .firing x →
      (∃ v, Gives2 f (fun a b c => c = a + b) x.lv x.rv v ∧
        exec (.add o f) s = .next ((s.taken x).emitOut x o (Tok.data v))) ∧
      (∃ v, Gives2 f (fun a b c => c = a - b) x.lv x.rv v ∧
        exec (.sub o f) s = .next ((s.taken x).emitOut x o (Tok.data v))) ∧
      (∃ v, Gives2 f (fun a b c => c = a * b) x.lv x.rv v ∧
        exec (.mul o f) s = .next ((s.taken x).emitOut x o (Tok.data v))) ∧
      (∃ v, Gives2 f (fun a b c => c = a &&& b) x.lv x.rv v ∧
        exec (.and o f) s = .next ((s.taken x).emitOut x o (Tok.data v))) ∧
      (∃ v, Gives2 f (fun a b c => c = a ||| b) x.lv x.rv v ∧
        exec (.or o f) s = .next ((s.taken x).emitOut x o (Tok.data v))) ∧
      (∃ v, Gives2 f (fun a b c => c = a ^^^ b) x.lv x.rv v ∧
        exec (.xor o f) s = .next ((s.taken x).emitOut x o (Tok.data v))) ∧
      (∃ v, Gives2 f (fun a b c => c = a &&& ~~~b) x.lv x.rv v ∧
        exec (.andn o f) s = .next ((s.taken x).emitOut x o (Tok.data v)))) ∧
  (∀ (s : State) (x : Firing) (o : Out) (f : IntForm), s.focus = .firing x →
      (∃ v, Gives2 f (fun a b c => c = a <<< (b.toNat % f.sz.bits)) x.lv x.rv v ∧
        exec (.shl o f) s = .next ((s.taken x).emitOut x o (Tok.data v))) ∧
      (∃ v, Gives2 f (fun a b c => c = a >>> (b.toNat % f.sz.bits)) x.lv x.rv v ∧
        exec (.shr o f) s = .next ((s.taken x).emitOut x o (Tok.data v))) ∧
      (∃ v, Gives2 f (fun a b c => c = a.sshiftRight (b.toNat % f.sz.bits)) x.lv x.rv v ∧
        exec (.sar o f) s = .next ((s.taken x).emitOut x o (Tok.data v))) ∧
      (∃ v, Gives2 f (fun a b c => c = a.rotateLeft (b.toNat % f.sz.bits)) x.lv x.rv v ∧
        exec (.rol o f) s = .next ((s.taken x).emitOut x o (Tok.data v)))) ∧
  (∀ (s : State) (x : Firing) (o : Out) (f : IntForm) (u : Bool), s.focus = .firing x →
      (∃ v, Gives2 f (fun a b c => (2 : Int) ^ f.sz.bits * laneInt u c ≤ laneInt u a * laneInt u b ∧
          laneInt u a * laneInt u b < (2 : Int) ^ f.sz.bits * (laneInt u c + 1)) x.lv x.rv v ∧
        exec (.mulh o f u) s = .next ((s.taken x).emitOut x o (Tok.data v))) ∧
      (∃ v, Gives2 f (fun a b c => (c = a ∨ c = b) ∧ laneInt u c ≤ laneInt u a ∧ laneInt u c ≤ laneInt u b) x.lv x.rv v ∧
        exec (.min o f u) s = .next ((s.taken x).emitOut x o (Tok.data v))) ∧
      (∃ v, Gives2 f (fun a b c => (c = a ∨ c = b) ∧ laneInt u a ≤ laneInt u c ∧ laneInt u b ≤ laneInt u c) x.lv x.rv v ∧
        exec (.max o f u) s = .next ((s.taken x).emitOut x o (Tok.data v))))

/-- ABS, NEG, CLZ, POPC and BREV emit the lane results of R130 (R130). -/
def Obligations.UnaryIntegerWordsEmitTheirLaneResults : Prop :=
  ∀ (s : State) (x : Firing) (o : Out) (f : UnForm), s.focus = .firing x →
    (∃ v, Gives1 f (fun a c => c = if a.msb then -a else a) x.lv v ∧
      exec (.abs o f) s = .next ((s.taken x).emitOut x o (Tok.data v))) ∧
    (∃ v, Gives1 f (fun a c => c = 0 - a) x.lv v ∧
      exec (.neg o f) s = .next ((s.taken x).emitOut x o (Tok.data v))) ∧
    (∃ v, Gives1 f (fun a c => c.toNat ≤ f.sz.bits ∧
        (∀ j, f.sz.bits - c.toNat ≤ j → a.getLsbD j = false) ∧
        (c.toNat < f.sz.bits → a.getLsbD (f.sz.bits - 1 - c.toNat) = true)) x.lv v ∧
      exec (.clz o f) s = .next ((s.taken x).emitOut x o (Tok.data v))) ∧
    (∃ v, Gives1 f (fun a c => c.toNat = ((List.range f.sz.bits).filter fun k => a.getLsbD k).length) x.lv v ∧
      exec (.popc o f) s = .next ((s.taken x).emitOut x o (Tok.data v))) ∧
    (∃ v, Gives1 f (fun a c => ∀ i < f.sz.bits, c.getLsbD (f.sz.bits - 1 - i) = a.getLsbD i) x.lv v ∧
      exec (.brev o f) s = .next ((s.taken x).emitOut x o (Tok.data v)))

/-- CMP and TEST emit 1 or 0, packed CMP lanes of ones or zeros (R128, R72). -/
def Obligations.ComparesAndTestsGiveTruthWords : Prop :=
  ∀ (s : State) (x : Firing) (o : Out) (f : IntForm), s.focus = .firing x →
    (∀ cc : Cond, ∃ v, exec (.cmp o f cc) s = .next ((s.taken x).emitOut x o (Tok.data v)) ∧
      (f.packed = false →
        (Holds cc (lane f.sz.bits 0 x.lv) (rightLane f x.rv 0) → v = 1) ∧
        (¬ Holds cc (lane f.sz.bits 0 x.lv) (rightLane f x.rv 0) → v = 0)) ∧
      (f.packed = true → ∀ k < 64 / f.sz.bits,
        (Holds cc (lane f.sz.bits k x.lv) (rightLane f x.rv k) →
          lane f.sz.bits k v = BitVec.allOnes _) ∧
        (¬ Holds cc (lane f.sz.bits k x.lv) (rightLane f x.rv k) →
          lane f.sz.bits k v = 0))) ∧
    (f.packed = false → ∀ ne : Bool, exec (.test o f ne) s = .next ((s.taken x).emitOut x o (Tok.data
      (if (lane f.sz.bits 0 x.lv &&& rightLane f x.rv 0 = 0) ↔ (ne = false) then 1 else 0))))

/-- DIV and REM truncate towards zero; a zero divisor gives the defined result or traps DIVZERO
(R127). -/
def Obligations.DivisionTruncatesAndTrapsOnZero : Prop :=
  ∀ (s : State) (x : Firing) (o : Out) (f : IntForm) (u zdef : Bool), s.focus = .firing x →
    f.packed = false →
    ∀ a b : BitVec f.sz.bits, a = lane f.sz.bits 0 x.lv → b = rightLane f x.rv 0 →
    (b ≠ 0 →
      exec (.div o f u zdef) s = .next ((s.taken x).emitOut x o (Tok.data
        ((if u then a.udiv b else a.sdiv b).signExtend 64))) ∧
      exec (.rem o f u zdef) s = .next ((s.taken x).emitOut x o (Tok.data
        ((if u then a.umod b else a.srem b).signExtend 64)))) ∧
    (b = 0 →
      exec (.div o f u true) s = .next ((s.taken x).emitOut x o (Tok.data (BitVec.allOnes 64))) ∧
      exec (.rem o f u true) s = .next ((s.taken x).emitOut x o (Tok.data (a.signExtend 64))) ∧
      exec (.div o f u false) s = .next ((s.taken x).park x 0x05 (rightWhole f x.rv)) ∧
      exec (.rem o f u false) s = .next ((s.taken x).park x 0x05 (rightWhole f x.rv)))

/-- ADDS and SUBS clamp each lane and raise SAT once (R129). -/
def Obligations.SaturatingSumsClampAndRaiseSat : Prop :=
  ∀ (s : State) (x : Firing) (o : Out) (f : IntForm) (u : Bool), s.focus = .firing x →
    ∀ sub : Bool, ∃ v fl, Gives2 f (IsClampedSum sub u) x.lv x.rv v ∧
      exec (if sub then .subs o f u else .adds o f u) s =
        .next (((s.taken x).raise x fl).emitOut x o (Tok.data v)) ∧
      ((∃ k < (if f.packed then 64 / f.sz.bits else 1),
          Clamps sub u (lane f.sz.bits k x.lv) (rightLane f x.rv k)) → fl = 0x20) ∧
      ((∀ k < (if f.packed then 64 / f.sz.bits else 1),
          ¬ Clamps sub u (lane f.sz.bits k x.lv) (rightLane f x.rv k)) → fl = 0)

/-- LEA, BASE, SHAPE, EXTR, INS, PACK and UNPK emit the results of R131 to R135 (R131, R133, R134,
R135). -/
def Obligations.AddressAndFieldWordsEmitTheirResults : Prop :=
  ∀ (s : State) (x : Firing) (o : Out), s.focus = .firing x →
    (∀ (sz : Width) (sh : BitVec 3), exec (.lea o sz sh) s = .next ((s.taken x).emitOut x o (Tok.data
      (x.lv + (lane sz.bits 0 x.rv).signExtend 64 <<< sh.toNat)))) ∧
    (∀ n : BitVec 4, exec (.base o n) s = .next ((s.taken x).emitOut x o (Tok.data
      ((s.run x.run).args.getD n.toNat 0)))) ∧
    (∀ (sz : Width) (m : BitVec 16), exec (.shape o sz m) s = .next ((s.taken x).emitOut x o (Tok.data
      ((lane sz.bits 0 x.lv).signExtend 64 * m.setWidth 64 +
        (lane sz.bits 0 x.rv).signExtend 64)))) ∧
    (∀ pos len1 : BitVec 6, pos.toNat + len1.toNat + 1 ≤ 64 →
      (exec (.extr o pos len1 false) s = .next ((s.taken x).emitOut x o (Tok.data
        ((x.lv.extractLsb' pos.toNat (len1.toNat + 1)).setWidth 64)))) ∧
      (exec (.extr o pos len1 true) s = .next ((s.taken x).emitOut x o (Tok.data
        ((x.lv.extractLsb' pos.toNat (len1.toNat + 1)).signExtend 64)))) ∧
      (∃ v : Word, exec (.ins o pos len1) s = .next ((s.taken x).emitOut x o (Tok.data v)) ∧
        ∀ k < 64, v.getLsbD k = if pos.toNat ≤ k ∧ k < pos.toNat + len1.toNat + 1
          then x.rv.getLsbD (k - pos.toNat) else x.lv.getLsbD k)) ∧
    (∀ (sz : Width) (rep : BitVec 16), sz ≠ .d → exec (.pack o ⟨sz, rep⟩) s = .next ((s.taken x).emitOut x o (Tok.data
      ((lane sz.bits 0 x.rv ++ lane sz.bits 0 x.lv).setWidth 64)))) ∧
    (∀ (sz : Width) (k : BitVec 3), sz ≠ .d → k.toNat + (if o.tb.isSome then 1 else 0) < 64 / sz.bits →
      exec (.unpk o sz k false) s = .next (((s.taken x).emit x o.ta
        (Tok.data ((lane sz.bits k.toNat x.lv).setWidth 64))).emit x o.tb
        (Tok.data ((lane sz.bits (k.toNat + 1) x.lv).setWidth 64))) ∧
      exec (.unpk o sz k true) s = .next (((s.taken x).emit x o.ta
        (Tok.data ((lane sz.bits k.toNat x.lv).signExtend 64))).emit x o.tb
        (Tok.data ((lane sz.bits (k.toNat + 1) x.lv).signExtend 64))))

/-- MOV, MOV3, GATE, CONST, CONSTOR, NULLT, KINDQ, STOPT, RETIRE and EXIT emit the tokens of their
entries (R104, R105, R108, R110, R118, R119, R123). -/
def Obligations.MovesAndConstantsEmitTheirTokens : Prop :=
  ∀ (s : State) (x : Firing) (o : Out) (rep : BitVec 16), s.focus = .firing x →
    exec (.mov o rep) s = .next ((s.taken x).emitOut x o x.lt.carry) ∧
    exec (.gate o rep) s = .next ((s.taken x).emitOut x o x.lt.carry) ∧
    (∀ tc, exec (.mov3 o tc) s =
      .next (((s.taken x).emitOut x o x.lt.carry).emit x tc x.lt.carry)) ∧
    exec (.const o rep) s = .next ((s.taken x).emitOut x o (Tok.data (rep.signExtend 64))) ∧
    exec (.constor o rep) s = .next ((s.taken x).emitOut x o (Tok.data
      (x.lv.extractLsb' 0 48 ++ rep))) ∧
    (x.lt.kind = .null →
      exec (.nullt o rep) s = .next ((s.taken x).emitOut x o (Tok.data 1))) ∧
    (x.lt.kind ≠ .null →
      exec (.nullt o rep) s = .next ((s.taken x).emitOut x o (Tok.data 0))) ∧
    (∃ w : Word, exec (.kindq o rep) s =
        .next (((s.taken x).emit x o.ta (Tok.data w)).emit x o.tb (Tok.data x.lv)) ∧
      (w.extractLsb' 0 3).toNat = x.lt.kind.code ∧
      (w.extractLsb' 4 3).toNat = x.lt.level % 8 ∧ w.getLsbD 8 = x.lt.rel ∧
      w.getLsbD 9 = x.lt.outside ∧ w.getLsbD 3 = false ∧ w.getLsbD 7 = false ∧
      w.extractLsb' 10 54 = 0) ∧
    (∀ n : BitVec 3, exec (.stopt o n) s =
      .next ((s.taken x).emitOut x o ⟨0, .stop, n.toNat, false, false, 0⟩)) ∧
    exec (.retire o rep) s =
      .next (((s.taken x).emit x o.ta (Tok.data 1)).emit x o.tb x.lt.carry) ∧
    (∃ u : State, exec (.exit o rep) s = .next (u.emitOut x o x.lt.carry) ∧
      ∀ a, (s.elem x.run x.elem).act x.act = some a →
        ∃ b : Act, (u.elem x.run x.elem).act x.act = some b ∧ b.exits = a.exits ||| 2 ^ x.slot)

/-- STEER, STEERN and SELECT route by the right payload and the left kind; ITER, ITERSET and
ITERREAD use the tag (R106, R107, R114). -/
def Obligations.SteeringRoutesLeftByRight : Prop :=
  ∀ (s : State) (x : Firing) (o : Out) (rep : BitVec 16), s.focus = .firing x →
    (x.rv ≠ 0 →
      exec (.steer o rep) s =
        .next (((s.taken x).emit x o.ta x.lt.carry).emit x o.tb Tok.nul) ∧
      exec (.steern o rep) s =
        .next (((s.taken x).emit x o.ta Tok.nul).emit x o.tb x.lt.carry)) ∧
    (x.rv = 0 →
      exec (.steer o rep) s =
        .next (((s.taken x).emit x o.ta Tok.nul).emit x o.tb x.lt.carry) ∧
      exec (.steern o rep) s =
        .next (((s.taken x).emit x o.ta x.lt.carry).emit x o.tb Tok.nul)) ∧
    (∀ l r, x.l = some l → x.r = some r →
      exec (.select o rep) s =
        .next ((s.taken x).emitOut x o (if l.kind = .null then r.carry else l.carry))) ∧
    (x.iter < 65536 → exec (.iter o rep) s =
      .next (((s.taken x).emitAs x o.ta x.lt.carry x.colour
        (if x.iter = 65535 then 0 else x.iter + 1)).emitAs x o.tb x.lt.carry x.colour
        (if x.iter = 65535 then 0 else x.iter + 1))) ∧
    exec (.iterset o rep) s =
      .next (((s.taken x).emitAs x o.ta x.lt.carry x.colour (x.rv.extractLsb' 0 16).toNat).emitAs x
        o.tb x.lt.carry x.colour (x.rv.extractLsb' 0 16).toNat) ∧
    (∃ w : Word, exec (.iterread o rep) s = .next ((s.taken x).emitOut x o (Tok.data w)) ∧
      (w.extractLsb' 0 16).toNat = x.iter % 65536 ∧
      (w.extractLsb' 16 10).toNat = x.colour % 1024 ∧
      (w.extractLsb' 26 6).toNat = (s.run x.run).ctx % 64 ∧ w.extractLsb' 32 32 = 0)

/-- A token goes to a hold register at once, to another element through the mesh, to its own
element by arrival (R34, R35, R65, R101, R120, R362). -/
def Obligations.EmissionReachesItsTarget : Prop :=
  ∀ (s : State) (x : Firing) (r : Run) (e : Elem) (tok : Tok), Stands s x r e →
    s.emit x none tok = s ∧
    (∀ (k : BitVec 3) (n : Nat), n = (s.ctx r.ctx).resolve x.colour →
      (((s.ctx r.ctx).colour n).state = .killed → s.emit x (some (.hold k)) tok = s) ∧
      (((s.ctx r.ctx).colour n).state ≠ .killed → e.holds.length = 8 →
        ((s.emit x (some (.hold k)) tok).elem x.run x.elem).holds[k.toNat]? =
          (if tok.kind = .null then e.holds[k.toNat]? else some tok.val) ∧
        (∀ w, e.beforeAt ≠ s.cycle → e.holds[k.toNat]? = some w →
          ((s.emit x (some (.hold k)) tok).elem x.run x.elem).holdAt s.cycle k.toNat = w) ∧
        ∀ a, e.actOf n x.iter = some a →
          ∃ b ∈ ((s.emit x (some (.hold k)) tok).elem x.run x.elem).acts, b.uid = a.uid ∧
            b.holds = a.holds ||| 2 ^ k.toNat)) ∧
    (∀ p slot dx dy, Injects s (s.emit x (some (.site p slot dx dy)) tok)
      ⟨x.run, x.elem, targetKey x.elem dx dy, BitVec.toNat slot, p.toBits.toNat, r.ctx,
        x.colour, x.iter, tok, none, false, false⟩) ∧
    (∀ (key : Nat) (dx dy : BitVec 4) (X Y : Nat), X < 8 → Y < 8 →
      (X : Int) = (siteOf key % 8 : Nat) + dx.toInt → (Y : Int) = (siteOf key / 8 : Nat) + dy.toInt →
      partOf (targetKey key dx dy) = partOf key ∧ cluOf (targetKey key dx dy) = cluOf key ∧
      siteOf (targetKey key dx dy) = Y * 8 + X)

/-- SEND and SENDX inject one token at the destination word's place, or trap (R111, R112, R113,
R29). -/
def Obligations.SendInjectsOneTokenOrTraps : Prop :=
  ∀ (s : State) (x : Firing) (pred : Bool) (rep : BitVec 16), s.focus = .firing x →
    (s.destKey x.run x.rv = none ↔ ∀ p ∈ (s.run x.run).parts,
      ¬ (p.die = (x.rv.extractLsb' 27 5).toNat ∧
        p.row ≤ (x.rv.extractLsb' 23 4).toNat / 4 ∧ (x.rv.extractLsb' 23 4).toNat / 4 < p.row + p.h ∧
        p.col ≤ (x.rv.extractLsb' 23 4).toNat % 4 ∧
        (x.rv.extractLsb' 23 4).toNat % 4 < p.col + p.w)) ∧
    (s.destKey x.run x.rv = none →
      exec (.send pred rep) s = .next ((s.taken x).park x 0x04 x.rv) ∧
      (s.isOwnDevice (x.rv.extractLsb' 56 8).toNat = true →
        exec (.sendx pred rep) s = .next ((s.taken x).park x 0x04 x.rv))) ∧
    (∀ k, s.destKey x.run x.rv = some k → x.rv.extractLsb' 10 2 = 3 →
      exec (.send pred rep) s = .next ((s.taken x).park x 0x01 x.rv) ∧
      (s.isOwnDevice (x.rv.extractLsb' 56 8).toNat = true →
        exec (.sendx pred rep) s = .next ((s.taken x).park x 0x01 x.rv))) ∧
    (∀ k, s.destKey x.run x.rv = some k → x.rv.extractLsb' 10 2 ≠ 3 → ∃ t t' : State,
      exec (.send pred rep) s = .next t ∧ Injects (s.taken x) t ⟨x.run, x.elem, k,
        (x.rv.extractLsb' 12 5).toNat, (x.rv.extractLsb' 10 2).toNat, (s.run x.run).ctx, x.colour,
        x.iter, x.lt.carry, none, true, false⟩ ∧
      (s.isOwnDevice (x.rv.extractLsb' 56 8).toNat = true → exec (.sendx pred rep) s = .next t' ∧
        Injects (s.taken x) t' ⟨x.run, x.elem, k, (x.rv.extractLsb' 12 5).toNat,
          (x.rv.extractLsb' 10 2).toNat, (s.run x.run).ctx, (x.rv.extractLsb' 0 10).toNat,
          (x.rv.extractLsb' 32 16).toNat, x.lt.carry, none, true, true⟩)) ∧
    (s.isOwnDevice (x.rv.extractLsb' 56 8).toNat = false →
      (x.rv.extractLsb' 10 2 = 3 → exec (.sendx pred rep) s = .next ((s.taken x).park x 0x01 x.rv)) ∧
      (x.rv.extractLsb' 10 2 ≠ 3 → s.routed (x.rv.extractLsb' 56 8).toNat = false →
        exec (.sendx pred rep) s = .next ((s.taken x).park x 0x10 x.rv)) ∧
      (x.rv.extractLsb' 10 2 ≠ 3 → s.routed (x.rv.extractLsb' 56 8).toNat = true → ∀ c,
        s.ctxs.find (s.run x.run).ctx = some c →
        ∃ t w, exec (.sendx pred rep) s = .next t ∧
          (t.ctx (s.run x.run).ctx).far.waiting = c.far.waiting.put s.nextId w ∧
          w.packet.dst = (x.rv.extractLsb' 56 8).toNat ∧
          w.packet.body = .token x.rv x.lv (farTokenBits (s.run x.run).ctx x.rv x.lt.carry) ∧
          t.flits = s.flits ∧ t.mem = s.mem))

/-- COLNEW, COLFREE, RETAG, KILL and THROTTLE follow the pool and the window of tags (R115, R116,
R117, R120, R122, R123). -/
def Obligations.ColoursAndThrottlesFollowTheirPoolAndWindow : Prop :=
  (∀ (s : State) (x : Firing) (o : Out) (rep : BitVec 16) (r : Run) (e : Elem) (c : Ctx),
      s.focus = .firing x → Stands s x r e → s.ctxs.find r.ctx = some c →
      (∃ t, exec (.colnew o rep) s = .next t ∧ (t.ctx r.ctx).waiting =
        c.waiting ++ [⟨(e.header.extractLsb' 16 3).toNat, s.cycle, x, o⟩]) ∧
      (∀ n, n = c.resolve (x.lv.extractLsb' 0 10).toNat →
        ((c.colour n).release = true ∨ (c.colour n).state = .free ∨ (c.colour n).state = .draining →
          exec (.colfree o rep) s =
            .next ((s.taken x).park x 0x01 ((x.lv.extractLsb' 0 10).setWidth 64))) ∧
        ((c.colour n).release = false → (c.colour n).state ≠ .free → (c.colour n).state ≠ .draining →
          ∃ u : State, exec (.colfree o rep) s = .next (u.emitOut x o x.lt.carry) ∧
            ((u.ctx r.ctx).colour n).release = true ∧
            ((∀ a, e.act x.act = some a → a.committed = true) →
              ((u.ctx r.ctx).colour n).state = .draining) ∧
            (∀ a, e.act x.act = some a → a.committed = false →
              ((u.ctx r.ctx).colour n).state = (c.colour n).state ∧
              ∃ b : Act, (u.elem x.run x.elem).act x.act = some b ∧ b.frees = a.frees ++ [n])) ∧
        ((c.colour n).state = .free → exec (.kill o rep) s =
          .next ((s.taken x).park x 0x01 ((x.lv.extractLsb' 0 10).setWidth 64))) ∧
        ((c.colour n).state ≠ .free → ∃ t, exec (.kill o rep) s = .next t ∧
          ((t.ctx r.ctx).colour n).state =
            (if (c.colour n).state = .draining then .draining else .killed) ∧
          ∃ w, t.waves.find s.nextId = some w ∧ w.run = x.run ∧ w.colours = [n] ∧
            w.firing = some (x, o) ∧ w.replay = none ∧
            ∀ k, k ∈ w.todo ↔ (k ∈ ((s.taken x).run x.run).elems.map Prod.fst ∨
              k ∈ r.seams.map Prod.fst ∨ k ∈ r.ports.map Prod.fst))) ∧
      (∀ n, n = c.resolve (x.rv.extractLsb' 0 10).toNat →
        (n ≠ 0 → (c.colour n).state = .free ∨ (c.colour n).state = .draining →
          exec (.retag o rep) s =
            .next ((s.taken x).park x 0x01 ((x.rv.extractLsb' 0 10).setWidth 64))) ∧
        (n = 0 ∨ ((c.colour n).state ≠ .free ∧ (c.colour n).state ≠ .draining) →
          ∃ u : State, exec (.retag o rep) s =
              .next ((u.emitAs x o.ta x.lt.carry n 0).emitAs x o.tb x.lt.carry n 0) ∧
            u.mem = s.mem ∧ u.flits = s.flits ∧
            (r.plan.flagsWord.getLsbD 0 = false → u = s.taken x)))) ∧
  (∀ (s : State) (x : Firing) (o : Out) (w1 : BitVec 10) (r : Run) (e : Elem),
      s.focus = .firing x → Stands s x r e →
      (x.iter ∈ e.liveTags x.slot x.colour →
        exec (.throttle o w1) s = .next ((s.taken x).emitOut x o x.lt.carry)) ∧
      (x.iter ∉ e.liveTags x.slot x.colour → (e.liveTags x.slot x.colour).length ≤ w1.toNat →
        ∃ u : State, exec (.throttle o w1) s = .next (u.emitOut x o x.lt.carry) ∧
          (u.elem x.run x.elem).liveTags x.slot x.colour = e.liveTags x.slot x.colour ++ [x.iter]) ∧
      (x.iter ∉ e.liveTags x.slot x.colour → w1.toNat < (e.liveTags x.slot x.colour).length →
        ∃ t, exec (.throttle o w1) s = .next t ∧
          (t.elem x.run x.elem).throttled = e.throttled ++ [x] ∧ t.flits = s.flits) ∧
      (∀ fl : Flit, fl.run = x.run → fl.dst = x.elem →
        (fl.tok.kind = .data → ∀ n, n ∈ ((s.notice fl).elem x.run x.elem).liveTags fl.slot fl.colour ↔
          (n ∈ e.liveTags fl.slot fl.colour ∧ n ≠ fl.iter)) ∧
        (fl.tok.kind ≠ .data → s.notice fl = s)))

/-- Frame of the steering, integer, address, field and float words (R101, R102, R126, R53, R243,
R244, chapter 05_reference_steering_integer_address.md). -/
def Obligations.TokenWordsLeaveAllElseAlone : Prop :=
  ∀ (i : Instr) (s t : State) (x : Firing), isTokenWord i = true → s.focus = .firing x →
    exec i s = .next t →
    SameBeyond x s t ∧
    (Memory.wf s.mem = true →
      SameBut (fun b => ∃ u, Emits s x u ∧ Spills x b (targetsOf i) u) s t) ∧
    ((∀ g ∈ targetsOf i, ¬ isLocal x g) ∨ (s.elem x.run x.elem).HasWays 3 →
      t.mem = s.mem ∧ t.side = s.side) ∧
    SameContextsButFlags s t ∧
    (raisesFlags i = false → SameContexts s t) ∧
    (thirdOf i = none → SameHolds x (outOf i) s t) ∧
    (thirdOf i = none → ¬ isLocal x (outOf i).ta → ¬ isLocal x (outOf i).tb →
      (t.run x.run).trapRegs = (s.run x.run).trapRegs ∧
      (t.run x.run).presented = (s.run x.run).presented ∧ t.jobs = s.jobs ∧
      (raisesFlags i = false → t.ctxs = s.ctxs))

/-- An engine word at its firing sends one COMMAND token and changes nothing else (R166, R77). -/
def Obligations.EngineWordsOnlySendTheirCommand : Prop :=
  ∀ (i : Instr) (s : State) (x : Firing) (c : Cmd), s.focus = .firing x → commandOf i = some c →
    ∃ fl : Flit, exec i s = .next { s.taken x with
        nextId := s.nextId + 1
        flits := s.flits.put s.nextId fl } ∧
      fl.run = x.run ∧ fl.src = x.elem ∧ fl.dst = x.elem - x.elem % 64 + c.site.toNat ∧
      fl.colour = x.colour ∧ fl.iter = x.iter ∧ fl.tok.kind = .command ∧
      fl.cmd = some ⟨s.slotWord x, x.elem, x.slot, x.colour, x.iter, fl.tok.val⟩ ∧
      (isTrigger i = false → fl.tok.val = x.lv) ∧ (isTrigger i = true → fl.tok.val = 0)

/-- Frame of the memory words at their firing: only a fault log record or a spill entry is written
(R145, R74, R144, R244, R370). -/
def Obligations.MemoryWordsStoreNothingAtTheirFiring : Prop :=
  ∀ (i : Instr) (s t : State) (x : Firing) (c : Nat), (memSlot i).isSome = true →
    s.focus = .firing x → Memory.wf s.mem = true → c = (s.run x.run).ctx → exec i s = .next t →
    SameBut (fun b => s.LogByte c b ∨
      (64 ≤ (s.elem x.run x.elem).buffered ∧ (s.taken x).SpillByte c b) ∨
      ((∃ o l k, i = .pref o l k) ∧ ∃ u, Emits s x u ∧ Spills x b (targetsOf i) u)) s t ∧
    ((∀ b, ¬ s.LogByte c b) → (s.elem x.run x.elem).buffered < 64 →
      ((∀ o l k, i ≠ .pref o l k) ∨ (∀ g ∈ targetsOf i, ¬ isLocal x g) ∨
        (s.elem x.run x.elem).HasWays 2) →
      t.mem = s.mem ∧ t.side = s.side) ∧
    t.life = s.life ∧ t.links = s.links ∧ t.tlbinv = s.tlbinv ∧ t.cycle = s.cycle ∧
    ∀ q, q ≠ x.run → ∃ gone, t.run q = (s.run q).dropSeeds gone

/-- FADD, FSUB, FMUL, FMA, FDIV and FSQRT: NaNs, infinities, zero divisors, negative roots (R138,
R136, R37). -/
def Obligations.FloatArithmeticTreatsSpecialOperands : Prop :=
  ∀ (s : State) (x : Firing) (o : Out) (fmt : FloatFmt) (rnd : Rounding) (rep : BitVec 16) (a b : FVal),
    s.focus = .firing x → a = lowVal fmt x.lv → b = lowVal fmt x.rv →
    (∃ v fl, exec (.fadd o ⟨fmt, false, rnd, rep⟩) s =
        .next (((s.taken x).raise x fl).emitOut x o (Tok.data v)) ∧
      (a.isNaN = true ∨ b.isNaN = true → v = nanWord fmt ∧ fl = sigNv [a, b]) ∧
      (∀ n, a = .inf n → b = .inf n → v = infWord n fmt ∧ fl = 0) ∧
      (∀ n, a = .inf n → b = .inf (!n) → v = nanWord fmt ∧ fl = 8)) ∧
    (∃ v fl, exec (.fsub o ⟨fmt, false, rnd, rep⟩) s =
        .next (((s.taken x).raise x fl).emitOut x o (Tok.data v)) ∧
      (a.isNaN = true ∨ b.isNaN = true → v = nanWord fmt ∧ fl = sigNv [a, b]) ∧
      (∀ n, a = .inf n → b = .inf n → v = nanWord fmt ∧ fl = 8)) ∧
    (∃ v fl, exec (.fmul o ⟨fmt, false, rnd, rep⟩) s =
        .next (((s.taken x).raise x fl).emitOut x o (Tok.data v)) ∧
      (a.isNaN = true ∨ b.isNaN = true → v = nanWord fmt ∧ fl = sigNv [a, b]) ∧
      ((a.isInf = true ∧ b.isZero = true) ∨ (a.isZero = true ∧ b.isInf = true) →
        v = nanWord fmt ∧ fl = 8)) ∧
    (∃ v fl, exec (.fdiv o fmt rnd rep) s =
        .next (((s.taken x).raise x fl).emitOut x o (Tok.data v)) ∧
      (a.isNaN = true ∨ b.isNaN = true → v = nanWord fmt ∧ fl = sigNv [a, b]) ∧
      ((a.isZero = true ∧ b.isZero = true) ∨ (a.isInf = true ∧ b.isInf = true) →
        v = nanWord fmt ∧ fl = 8) ∧
      (a.isNaN = false → a.isInf = false → a.isZero = false → b.isZero = true →
        v = infWord (a.neg != b.neg) fmt ∧ fl = 16)) ∧
    (∃ v fl, exec (.fsqrt o fmt rnd rep) s =
        .next (((s.taken x).raise x fl).emitOut x o (Tok.data v)) ∧
      (a.isNaN = true → v = nanWord fmt ∧ fl = sigNv [a]) ∧
      (a.isNaN = false → a.isZero = false → a.neg = true → v = nanWord fmt ∧ fl = 8) ∧
      (a.isZero = true → v = zeroWord a.neg fmt ∧ fl = 0)) ∧
    (∀ (r : Run) (e : Elem) (k : BitVec 3) (c : FVal), Stands s x r e →
      c = lowVal fmt (e.holdAt s.cycle k.toNat) →
      ∃ v fl, exec (.fma o fmt false rnd k) s =
        .next (((s.taken x).raise x fl).emitOut x o (Tok.data v)) ∧
        (a.isNaN = true ∨ b.isNaN = true → v = nanWord fmt ∧ fl = sigNv [a, b, c]) ∧
        ((a.isInf = true ∧ b.isZero = true) ∨ (a.isZero = true ∧ b.isInf = true) →
          v = nanWord fmt ∧ fl = 8))

/-- A value that the format holds rounds to itself in every mode, without a flag (R138, R36, R52).
-/
def Obligations.RepresentableValuesRoundToThemselves : Prop :=
  ∀ (fmt : FloatFmt) (mode : RMode) (neg : Bool) (m : Nat) (e : Int),
    (∀ z, z < 2 ^ (fspec fmt).width → decodeF (fspec fmt) z = .fin neg m e → m ≠ 0 →
      roundF (fspec fmt) mode neg m e = (z, 0)) ∧
    (∀ k : Nat, roundF (fspec fmt) mode neg (m * 2 ^ k) (e - k) = roundF (fspec fmt) mode neg m e) ∧
    (roundF (fspec fmt) mode neg m e).1 < 2 ^ (fspec fmt).width

/-- In the packed form each FP32 lane computes alone and the flags of both are ORed (R136, R51,
R140). -/
def Obligations.PackedFloatLanesComputeAlone : Prop :=
  ∀ (s : State) (x : Firing) (o : Out) (rnd : Rounding) (rep : BitVec 16), s.focus = .firing x →
    (∀ op : Bool → Instr,
      op = (fun p => .fadd o ⟨.s, p, rnd, rep⟩) ∨ op = (fun p => .fsub o ⟨.s, p, rnd, rep⟩) ∨
      op = (fun p => .fmul o ⟨.s, p, rnd, rep⟩) ∨ op = (fun p => .fmin o .s p rep) ∨
      op = (fun p => .fmax o .s p rep) →
      ∃ v0 fl0 v1 fl1,
      exec (op false) (s.withFiring
          (withOperands x ((lane 32 0 x.lv).setWidth 64) ((lane 32 0 x.rv).setWidth 64))) =
        .next (((s.taken x).raise
          (withOperands x ((lane 32 0 x.lv).setWidth 64) ((lane 32 0 x.rv).setWidth 64)) fl0).emitOut
          (withOperands x ((lane 32 0 x.lv).setWidth 64) ((lane 32 0 x.rv).setWidth 64)) o (Tok.data v0)) ∧
      exec (op false) (s.withFiring
          (withOperands x ((lane 32 1 x.lv).setWidth 64) ((lane 32 1 x.rv).setWidth 64))) =
        .next (((s.taken x).raise
          (withOperands x ((lane 32 1 x.lv).setWidth 64) ((lane 32 1 x.rv).setWidth 64)) fl1).emitOut
          (withOperands x ((lane 32 1 x.lv).setWidth 64) ((lane 32 1 x.rv).setWidth 64)) o (Tok.data v1)) ∧
      exec (op true) s = .next (((s.taken x).raise x (fl0 ||| fl1)).emitOut x o
        (Tok.data (lane 32 0 v1 ++ lane 32 0 v0)))) ∧
    (∀ cc : Cond, ∃ v0 fl0 v1 fl1,
      exec (.fcmp o .s false cc rep) (s.withFiring
          (withOperands x ((lane 32 0 x.lv).setWidth 64) ((lane 32 0 x.rv).setWidth 64))) =
        .next (((s.taken x).raise
          (withOperands x ((lane 32 0 x.lv).setWidth 64) ((lane 32 0 x.rv).setWidth 64)) fl0).emitOut
          (withOperands x ((lane 32 0 x.lv).setWidth 64) ((lane 32 0 x.rv).setWidth 64)) o (Tok.data v0)) ∧
      exec (.fcmp o .s false cc rep) (s.withFiring
          (withOperands x ((lane 32 1 x.lv).setWidth 64) ((lane 32 1 x.rv).setWidth 64))) =
        .next (((s.taken x).raise
          (withOperands x ((lane 32 1 x.lv).setWidth 64) ((lane 32 1 x.rv).setWidth 64)) fl1).emitOut
          (withOperands x ((lane 32 1 x.lv).setWidth 64) ((lane 32 1 x.rv).setWidth 64)) o (Tok.data v1)) ∧
      exec (.fcmp o .s true cc rep) s = .next (((s.taken x).raise x (fl0 ||| fl1)).emitOut x o
        (Tok.data ((if v1 = 1 then BitVec.allOnes 32 else 0#32) ++
          (if v0 = 1 then BitVec.allOnes 32 else 0#32))))) ∧
    (∀ m : BitVec 2, ∃ v0 v1 : Word,
      exec (.fsgn o .s false m) (s.withFiring
          (withOperands x ((lane 32 0 x.lv).setWidth 64) ((lane 32 0 x.rv).setWidth 64))) = .next ((s.taken x).emitOut
          (withOperands x ((lane 32 0 x.lv).setWidth 64) ((lane 32 0 x.rv).setWidth 64)) o (Tok.data v0)) ∧
      exec (.fsgn o .s false m) (s.withFiring
          (withOperands x ((lane 32 1 x.lv).setWidth 64) ((lane 32 1 x.rv).setWidth 64))) = .next ((s.taken x).emitOut
          (withOperands x ((lane 32 1 x.lv).setWidth 64) ((lane 32 1 x.rv).setWidth 64)) o (Tok.data v1)) ∧
      exec (.fsgn o .s true m) s = .next ((s.taken x).emitOut x o
        (Tok.data (lane 32 0 v1 ++ lane 32 0 v0)))) ∧
    (∀ k : BitVec 3, ∃ v fl, exec (.fma o .s true rnd k) s =
        .next (((s.taken x).raise x fl).emitOut x o (Tok.data v)) ∧
      ∀ j < 2, (lowVal .s ((lane 32 j x.lv).setWidth 64)).isNaN = true ∨
        (lowVal .s ((lane 32 j x.rv).setWidth 64)).isNaN = true → lane 32 j v = 0x7FC00000) ∧
    (∀ (op : Out → FltForm → Instr), op = Instr.fadd ∨ op = Instr.fsub ∨ op = Instr.fmul →
      ∀ (fmt : FloatFmt) (m : RMode),
      m = [RMode.rne, .rtz, .rdn, .rup].getD ((s.ctx (s.run x.run).ctx).regs.round % 4) .rne →
      exec (op o ⟨fmt, false, .dyn, rep⟩) s = exec (op o ⟨fmt, false, .fixed m, rep⟩) s)

/-- FMIN, FMAX, FCMP, FSGN and FCLASS on NaNs, zeros and signs (R139). -/
def Obligations.FloatComparisonsAndSignsFollowTheirRules : Prop :=
  ∀ (s : State) (x : Firing) (o : Out) (fmt : FloatFmt) (rep : BitVec 16) (a b : FVal),
    s.focus = .firing x → a = lowVal fmt x.lv → b = lowVal fmt x.rv →
    (∃ v fl, exec (.fmin o fmt false rep) s =
        .next (((s.taken x).raise x fl).emitOut x o (Tok.data v)) ∧
      fl = sigNv [a, b] ∧ (a.isNaN = true → b.isNaN = true → v = nanWord fmt) ∧
      (a.isNaN = true → b.isNaN = false → v.toNat = x.rv.toNat % 2 ^ (fspec fmt).width) ∧
      (a.isNaN = false → b.isNaN = true → v.toNat = x.lv.toNat % 2 ^ (fspec fmt).width) ∧
      (a.isZero = true → b.isZero = true → v = zeroWord (a.neg || b.neg) fmt) ∧
      (a.isNaN = false → b.isNaN = false → valueLess a b → v.toNat = x.lv.toNat % 2 ^ (fspec fmt).width) ∧
      (a.isNaN = false → b.isNaN = false → valueLess b a → v.toNat = x.rv.toNat % 2 ^ (fspec fmt).width)) ∧
    (∃ v fl, exec (.fmax o fmt false rep) s =
        .next (((s.taken x).raise x fl).emitOut x o (Tok.data v)) ∧
      fl = sigNv [a, b] ∧ (a.isNaN = true → b.isNaN = true → v = nanWord fmt) ∧
      (a.isNaN = true → b.isNaN = false → v.toNat = x.rv.toNat % 2 ^ (fspec fmt).width) ∧
      (a.isNaN = false → b.isNaN = true → v.toNat = x.lv.toNat % 2 ^ (fspec fmt).width) ∧
      (a.isZero = true → b.isZero = true → v = zeroWord (a.neg && b.neg) fmt) ∧
      (a.isNaN = false → b.isNaN = false → valueLess a b → v.toNat = x.rv.toNat % 2 ^ (fspec fmt).width) ∧
      (a.isNaN = false → b.isNaN = false → valueLess b a → v.toNat = x.lv.toNat % 2 ^ (fspec fmt).width)) ∧
    (∀ cc : Cond, cc ≠ .ltu → cc ≠ .leu → ∃ v fl, exec (.fcmp o fmt false cc rep) s =
        .next (((s.taken x).raise x fl).emitOut x o (Tok.data v)) ∧
      (v = 0 ∨ v = 1) ∧
      (a.isNaN = true ∨ b.isNaN = true →
        (v = 1 ↔ cc = .ne) ∧ fl = if cc = .eq ∨ cc = .ne then sigNv [a, b] else 8) ∧
      (a.isNaN = false → b.isNaN = false → fl = 0) ∧
      (a.isNaN = false → b.isNaN = false →
        (valueLess a b → (v = 1 ↔ cc = .ne ∨ cc = .lt ∨ cc = .le)) ∧
        (valueLess b a → (v = 1 ↔ cc = .ne ∨ cc = .gt ∨ cc = .ge)) ∧
        (¬ valueLess a b → ¬ valueLess b a → (v = 1 ↔ cc = .eq ∨ cc = .le ∨ cc = .ge)))) ∧
    (∀ m : BitVec 2, ∃ v : Word, exec (.fsgn o fmt false m) s =
        .next ((s.taken x).emitOut x o (Tok.data v)) ∧
      (∀ i < (fspec fmt).width - 1, v.getLsbD i = x.lv.getLsbD i) ∧
      v.toNat < 2 ^ (fspec fmt).width ∧
      v.getLsbD ((fspec fmt).width - 1) =
        (if m = 0 then x.rv.getLsbD ((fspec fmt).width - 1)
         else if m = 1 then !x.rv.getLsbD ((fspec fmt).width - 1)
         else if m = 2 then x.lv.getLsbD ((fspec fmt).width - 1) != x.rv.getLsbD ((fspec fmt).width - 1)
         else !x.lv.getLsbD ((fspec fmt).width - 1))) ∧
    (∃ k, exec (.fclass o fmt rep) s = .next ((s.taken x).emitOut x o (Tok.data (2 ^ k))) ∧ k < 10 ∧
      (k = 9 ↔ a = .nan false) ∧ (k = 8 ↔ a = .nan true) ∧ (k = 7 ↔ a = .inf false) ∧
      (k = 0 ↔ a = .inf true) ∧ (k = 3 ↔ (a.isZero = true ∧ a.neg = true)) ∧
      (k = 4 ↔ (a.isZero = true ∧ a.neg = false)))

/-- FCVT, FTOI, ITOF and the six functions complete with the values and flags of their special
cases and exact results (R141, R142). -/
def Obligations.ConversionsAndFunctionsFollowTheirSpecialCases : Prop :=
  ∀ (s : State) (x : Firing) (o : Out) (fmt : FloatFmt) (rnd : Rounding) (rep : BitVec 16) (a : FVal)
    (mode : RMode), s.focus = .firing x → a = lowVal fmt x.lv → mode = s.roundOf x.run rnd →
    (∀ (nanov : Bool) (id src : BitVec 8) (y : Nat) (b : FVal),
      y = x.lv.toNat % 2 ^ fmtBits src.toNat → b = elemVal src.toNat y →
      ∃ v fl, exec (.fcvt o rnd nanov id src) s =
        .next (((s.taken x).raise x fl).emitOut x o (Tok.data v)) ∧
      (id = src → b.isNaN = false → v.toNat = y ∧ fl = 0) ∧
      (∀ f, b.isNaN = true → fmtSpec id.toNat = some f → id ≠ 0x0F →
        v = BitVec.ofNat 64 (canonNaN f) ∧ fl = sigNv [b]) ∧
      (b.isNaN = true → id = 0x0F → v = 0 ∧ fl = 8) ∧
      (∀ f z n m e m' e', 8 ≤ id.toNat → id.toNat ≤ 11 → fmtSpec id.toNat = some f → z < 2 ^ f.width →
        decodeF f z = .fin n m e → m ≠ 0 → b = .fin n m' e' →
        valQ (.fin n m' e') = valQ (.fin n m e) → v = BitVec.ofNat 64 z ∧ fl = 0)) ∧
    (∀ id : BitVec 8, 1 ≤ id.toNat → id.toNat ≤ 7 →
      ∃ v fl, exec (.ftoi o fmt rnd id) s =
        .next (((s.taken x).raise x fl).emitOut x o (Tok.data v)) ∧
      (a.isNaN = true → v = 0 ∧ fl = 8) ∧
      (∀ n, a = .inf n → fl = 32 ∧
        v = BitVec.ofInt 64 (if n then (intLimits id.toNat).1 else (intLimits id.toNat).2)) ∧
      (∀ n m e, a = .fin n m e →
        v = BitVec.ofInt 64
          (max (intLimits id.toNat).1 (min (intLimits id.toNat).2 (roundInt mode n m e).1)) ∧
        fl = if (roundInt mode n m e).1 < (intLimits id.toNat).1 ∨
            (intLimits id.toNat).2 < (roundInt mode n m e).1 then 32
          else if (roundInt mode n m e).2 then 1 else 0) ∧
      (∀ n m e, a = .fin n m e → 0 ≤ e →
        (intLimits id.toNat).1 ≤ signed n m * 2 ^ e.toNat →
        signed n m * 2 ^ e.toNat ≤ (intLimits id.toNat).2 →
        v = BitVec.ofInt 64 (signed n m * 2 ^ e.toNat) ∧ fl = 0)) ∧
    (∀ (id : BitVec 8) (y : Nat) (z : Int), 1 ≤ id.toNat → id.toNat ≤ 7 →
      y = x.lv.toNat % 2 ^ fmtBits id.toNat →
      z = (if id.toNat ≤ 4 then (BitVec.ofNat (fmtBits id.toNat) y).toInt else (y : Int)) →
      ∃ v fl, exec (.itof o fmt rnd id) s =
        .next (((s.taken x).raise x fl).emitOut x o (Tok.data v)) ∧
      v = BitVec.ofNat 64 (roundF (fspec fmt) mode (decide (z < 0)) z.natAbs 0).1 ∧
      fl = (roundF (fspec fmt) mode (decide (z < 0)) z.natAbs 0).2) ∧
    (∃ v fl, exec (.fexp2 o fmt rnd rep) s =
        .next (((s.taken x).raise x fl).emitOut x o (Tok.data v)) ∧
      (a.isNaN = true → v = nanWord fmt ∧ fl = sigNv [a]) ∧
      (a = .inf true → v = 0 ∧ fl = 0) ∧ (a = .inf false → v = infWord false fmt ∧ fl = 0) ∧
      (a.isZero = true → v = oneWord fmt ∧ fl = 0) ∧
      (∀ k : Int, k.natAbs < 2 ^ 20 → a.isNaN = false → a.isInf = false → valQ a = k →
        v = BitVec.ofNat 64 (roundF (fspec fmt) mode false 1 k).1 ∧
        fl = (roundF (fspec fmt) mode false 1 k).2)) ∧
    (∃ v fl, exec (.flog2 o fmt rnd rep) s =
        .next (((s.taken x).raise x fl).emitOut x o (Tok.data v)) ∧
      (a.isNaN = true → v = nanWord fmt ∧ fl = sigNv [a]) ∧
      (a.isZero = true → v = infWord true fmt ∧ fl = 16) ∧
      (a.isNaN = false → a.isZero = false → a.neg = true → v = nanWord fmt ∧ fl = 8) ∧
      (a = .inf false → v = infWord false fmt ∧ fl = 0) ∧ (valQ a = 1 → v = 0 ∧ fl = 0) ∧
      (∀ k : Int, valQ a = (2 : ℚ) ^ k →
        v = BitVec.ofNat 64 (roundF (fspec fmt) mode (decide (k < 0)) k.natAbs 0).1 ∧
        fl = (roundF (fspec fmt) mode (decide (k < 0)) k.natAbs 0).2)) ∧
    (∃ v fl, exec (.frcp o fmt rnd rep) s =
        .next (((s.taken x).raise x fl).emitOut x o (Tok.data v)) ∧
      (a.isNaN = true → v = nanWord fmt ∧ fl = sigNv [a]) ∧
      (a.isZero = true → v = infWord a.neg fmt ∧ fl = 16) ∧
      (∀ n, a = .inf n → v = zeroWord n fmt ∧ fl = 0) ∧
      (∀ k : Int, valQ a = (2 : ℚ) ^ k ∨ valQ a = -(2 : ℚ) ^ k →
        v = BitVec.ofNat 64 (roundF (fspec fmt) mode a.neg 1 (-k)).1 ∧
        fl = (roundF (fspec fmt) mode a.neg 1 (-k)).2)) ∧
    (∃ v fl, exec (.frsq o fmt rnd rep) s =
        .next (((s.taken x).raise x fl).emitOut x o (Tok.data v)) ∧
      (a.isNaN = true → v = nanWord fmt ∧ fl = sigNv [a]) ∧
      (a.isZero = true → v = infWord a.neg fmt ∧ fl = 16) ∧
      (a.isNaN = false → a.isZero = false → a.neg = true → v = nanWord fmt ∧ fl = 8) ∧
      (a = .inf false → v = 0 ∧ fl = 0) ∧
      (∀ k : Int, valQ a = (2 : ℚ) ^ (2 * k) →
        v = BitVec.ofNat 64 (roundF (fspec fmt) mode false 1 (-k)).1 ∧
        fl = (roundF (fspec fmt) mode false 1 (-k)).2)) ∧
    (∃ v fl, exec (.fsinp o fmt rnd rep) s =
        .next (((s.taken x).raise x fl).emitOut x o (Tok.data v)) ∧
      (a.isNaN = true → v = nanWord fmt ∧ fl = sigNv [a]) ∧
      (a.isInf = true → v = nanWord fmt ∧ fl = 8) ∧
      (∀ k : Int, a.isNaN = false → a.isInf = false → valQ a = k →
        v = zeroWord a.neg fmt ∧ fl = 0)) ∧
    (∃ v fl, exec (.fcosp o fmt rnd rep) s =
        .next (((s.taken x).raise x fl).emitOut x o (Tok.data v)) ∧
      (a.isNaN = true → v = nanWord fmt ∧ fl = sigNv [a]) ∧
      (a.isInf = true → v = nanWord fmt ∧ fl = 8) ∧ (a.isZero = true → v = oneWord fmt ∧ fl = 0) ∧
      (∀ k : Int, valQ a = (k : ℚ) + 1 / 2 → v = 0 ∧ fl = 0))

/-- A trap parks its firing, takes the launch's next SEQ, and is presented, queued, or cancels the
launch (R163, R161, R164). -/
def Obligations.ATrapParksItsFiringAndIsPresentedOnce : Prop :=
  ∀ (s : State) (x : Firing) (r : Run) (e : Elem) (cause : Nat) (info : Word), Stands s x r e →
    SameOutside x s (s.park x cause info) ∧ SameContexts s (s.park x cause info) ∧
    ((s.park x cause info).run x.run).trapSeq = (r.trapSeq + 1) % 65536 ∧
    (∀ te, r.trapElem = some te → r.presented = none → r.halted = false →
      ((s.park x cause info).elem x.run x.elem).parked = e.parked ++ [⟨s.nextId, x, cause⟩] ∧
      ((s.park x cause info).run x.run).trapRegs.valid = true ∧
      ((s.park x cause info).run x.run).trapRegs.seq = r.trapSeq ∧
      ((s.park x cause info).run x.run).trapRegs.cause = cause ∧
      ((s.park x cause info).run x.run).trapRegs.info = info ∧
      (∀ l, x.l = some l → cause ≠ 0x0C →
        ((s.park x cause info).run x.run).trapRegs.tokenA = l.val) ∧
      (s.park x cause info).flits = s.flits.put (s.nextId + 1)
        ⟨x.run, x.elem, te, r.trapSlot, 0, r.ctx, 0, r.trapSeq,
          Tok.data (BitVec.ofNat 64 (cause + r.trapSeq * 65536)), none, false, false⟩) ∧
    (∀ te p, r.trapElem = some te → r.presented = some p → te ≠ x.elem →
      ((s.park x cause info).run x.run).presented = some p ∧
      ((s.park x cause info).run x.run).trapRegs = r.trapRegs ∧
      (s.park x cause info).flits = s.flits ∧
      ∃ t, ((s.park x cause info).run x.run).trapQueue = r.trapQueue ++ [t] ∧ t.cause = cause ∧
        t.seq = r.trapSeq ∧ t.info = info ∧ t.resume = .firing x.elem s.nextId) ∧
    ((r.trapElem = none ∨ (r.presented.isSome = true ∧ r.trapElem = some x.elem)) →
      partOf x.elem < r.parts.length → (r.part (partOf x.elem)).done = false →
      (((s.park x cause info).run x.run).part (partOf x.elem)).cancelled = true)

/-- ILL, TRAP and ASSERT of 0 take their trap; ASSERT of another value passes its token (R163,
R165, R70). -/
def Obligations.TrapWordsTakeTheirTrap : Prop :=
  ∀ (s : State) (x : Firing) (o : Out) (code : BitVec 16), s.focus = .firing x →
    exec (.trap o code) s = .next ((s.taken x).park x 0x0E (code.setWidth 64)) ∧
    (x.lv = 0 → exec (.assert o code) s = .next ((s.taken x).park x 0x0F (code.setWidth 64))) ∧
    (x.lv ≠ 0 → exec (.assert o code) s = .next ((s.taken x).emitOut x o x.lt.carry)) ∧
    (∀ high, ∃ info, exec (.ill high) s = .next ((s.taken x).park x 0x01 info))

/-- TRET and TSKIP act only on the presented trap that the record names (R165, R163). -/
def Obligations.TrapReturnsResumeOnlyTheNamedTrap : Prop :=
  ∀ (s : State) (x : Firing) (o : Out) (rep : BitVec 16) (r : Run) (e : Elem), s.focus = .firing x →
    Stands s x r e →
    ((∀ p, r.presented = some p → p.seq ≠ (x.lv.extractLsb' 16 16).toNat) →
      exec (.tret o rep) s = .next ((s.taken x).emitOut x o (Tok.data 0)) ∧
      exec (.tskip o rep) s = .next ((s.taken x).emitOut x o (Tok.data 0))) ∧
    (∀ p k uid q, r.presented = some p → p.seq = (x.lv.extractLsb' 16 16).toNat → r.trapQueue = [] →
      p.resume = .firing k uid → ((s.elem x.run k).parked.find? fun z => z.uid = uid) = some q →
      s.isIll q.firing = false →
      ∃ u : State, (u.run x.run).presented = none ∧ (u.run x.run).trapRegs.valid = false ∧
        u.mem = s.mem ∧ u.ctxs = s.ctxs ∧ u.flits = s.flits ∧
        (q.cause = 0x0E ∨ q.cause = 0x0F → q.uid ∉ (u.elem x.run k).parked.map Parked.uid ∧
          exec (.tret o rep) s = .next ((u.emitOut q.firing (s.outAt q.firing) q.firing.lt.carry).emitOut
            x o (Tok.data 1))) ∧
        (q.cause ≠ 0x0E → q.cause ≠ 0x0F → q.cause ≠ 0x0C → q.cause ≠ 0x08 → q.cause ≠ countedMark →
          q.uid ∉ (u.elem x.run k).parked.map Parked.uid ∧
          exec (.tret o rep) s = .next ((u.soon (.refire q.firing)).emitOut x o (Tok.data 1))) ∧
        (q.cause = 0x0C → (u.elem x.run k).parked = (s.elem x.run k).parked ∧
          exec (.tret o rep) s = .next (u.emitOut x o (Tok.data 1)))) ∧
    (∀ p k uid q i, r.presented = some p → p.seq = (x.lv.extractLsb' 16 16).toNat →
      r.trapQueue = [] → p.resume = .firing k uid →
      ((s.elem x.run k).parked.find? fun z => z.uid = uid) = some q →
      q.cause ≠ 0x0C → q.cause ≠ countedMark → s.instrOf q.firing = some i →
      ∃ u : State, (u.run x.run).presented = none ∧ (u.run x.run).trapRegs.valid = false ∧
        q.uid ∉ (u.elem x.run k).parked.map Parked.uid ∧ u.mem = s.mem ∧ u.flits = s.flits ∧
        (q.cause ≠ 0x06 → exec (.tskip o rep) s =
          .next ((u.forwarded q.firing i (Tok.data x.rv)).emitOut x o (Tok.data 1))) ∧
        (q.cause = 0x06 → exec (.tskip o rep) s =
          .next ((u.soon (.refire q.firing)).emitOut x o (Tok.data 1))))

/-- RDS emits the register its number names (R161). -/
def Obligations.SystemRegistersAreReadWhereTheyStand : Prop :=
  ∀ (s : State) (x : Firing) (o : Out) (r : Run) (e : Elem) (c : Ctx), s.focus = .firing x →
    Stands s x r e → s.ctxs.find r.ctx = some c →
    (∀ num : BitVec 12, ∀ v : Word,
      (num = 0x000 ∧ v = BitVec.ofNat 64 (s.clockAt x.run x.elem)) ∨
      (num = 0x002 ∧ v = BitVec.ofNat 64 r.ctx) ∨
      (num = 0x003 ∧ v = c.regs.ctxbase) ∨ (num = 0x004 ∧ v = BitVec.ofNat 64 c.regs.flags) ∨
      (num = 0x005 ∧ v = BitVec.ofNat 64 c.regs.round) ∨ (num = 0x006 ∧ v = c.regs.seed) ∨
      (num = 0x008 ∧ v = BitVec.ofNat 64 c.far.serialNext) ∨
      (∃ k, k < 8 ∧ num = 0x010 + BitVec.ofNat 12 k ∧ v = BitVec.ofNat 64 (c.regs.cfl.getD k 0)) ∨
      (num = 0x018 ∧
        v = BitVec.ofNat 64 (1024 - (c.colours.filter fun y => y.2.state != .free).length)) ∨
      (num = 0x021 ∧ v = r.trapRegs.tokenA) ∨ (num = 0x022 ∧ v = r.trapRegs.tokenB) ∨
      (num = 0x023 ∧ v = r.trapRegs.site) ∨ (num = 0x024 ∧ v = r.trapRegs.info) ∨
      (num = 0x040 ∧ v = BitVec.ofNat 64 c.regs.slack) →
      exec (.rds o num) s = .next ((s.taken x).emitOut x o (Tok.data v))) ∧
    (∃ v : Word, exec (.rds o 0x020) s = .next ((s.taken x).emitOut x o (Tok.data v)) ∧
      v.getLsbD 32 = r.trapRegs.valid ∧ (v.extractLsb' 16 16).toNat = r.trapRegs.seq % 65536 ∧
      (v.extractLsb' 0 8).toNat = r.trapRegs.cause % 256 ∧ v.extractLsb' 8 8 = 0 ∧
      v.extractLsb' 33 31 = 0) ∧
    (∃ v : Word, exec (.rds o 0x001) s = .next ((s.taken x).emitOut x o (Tok.data v)) ∧
      (v.extractLsb' 56 8).toNat = s.life.devid % 256 ∧
      (v.extractLsb' 27 5).toNat = (r.part (partOf x.elem)).die % 32 ∧
      (v.extractLsb' 23 4).toNat = (r.part (partOf x.elem)).cluster (cluOf x.elem) % 16 ∧
      (v.extractLsb' 17 6).toNat = siteOf x.elem ∧ v.extractLsb' 0 17 = 0)

/-- A memory word with a bad address parks: PROTECT, ALIGN, the translation's fault, or a walk
(R144, R369, R399, R157, R150). -/
def Obligations.AddressesAreCheckedBeforeAnyAccess : Prop :=
  ∀ (i : Instr) (s : State) (x : Firing) (ea : Word) (al need : Nat), s.focus = .firing x →
    (accessOf x i = some (ea, al, need) →
      (ea.getLsbD 55 = true → exec i s = .next ((s.taken x).park x 0x04 ea)) ∧
      (ea.getLsbD 55 = false → ea.toNat % al ≠ 0 → exec i s = .next ((s.taken x).park x 0x02 ea)) ∧
      (ea.getLsbD 55 = false → ea.toNat % al = 0 →
        (∀ cause, s.translate x.run x.elem ea.toNat need = .fault cause →
          exec i s = .next ((s.taken x).park x cause ea)) ∧
        (s.translate x.run x.elem ea.toNat need = .miss →
          ∃ t, exec i s = .next t ∧ t.walks = s.walks.put s.nextId ⟨x, ea.toNat, need⟩ ∧
            t.flits = s.flits ∧ t.mem = s.mem ∧ t.reqs = s.reqs) ∧
        (∀ cause level, s.translate x.run x.elem ea.toNat need = .logged cause level →
          ((s.taken x).logBusy (s.run x.run).ctx = false → exec i s =
            .next (((s.taken x).logFault x ea.toNat cause level).park x cause ea)) ∧
          ((s.taken x).logBusy (s.run x.run).ctx = true → ∃ t, exec i s = .next t ∧
            t.walks = s.walks.put s.nextId ⟨x, ea.toNat, need⟩ ∧ t.flits = s.flits ∧
            t.mem = s.mem ∧ t.reqs = s.reqs)) ∧
        (∀ a, s.translate x.run x.elem ea.toNat need = .home a → s.outsideCopy x.run a need = true →
          exec i s = .next ((s.taken x).park x 0x04 ea)))) ∧
    (∀ o m, i = .bar o m → accessOf x i = none →
      ∃ info, exec i s = .next ((s.taken x).park x 0x01 info)) ∧
    (∀ o m a, i = .std o m → accessOf x i = some (ea, al, need) → HomeAt s x ea al need a →
      isReservedFmt (x.rv.toNat % 32) = true → exec i s = .next ((s.taken x).park x 0x13 ea))

/-- CYCLE, FLAGS, SITE, PERF, BRK and WAITT; WRS writes its register at its commit, in a trailing
firing at once (R155, R156, R162, R161, R236). -/
def Obligations.TimeSiteAndRegisterWordsActAsTheyName : Prop :=
  (∀ (s : State) (x : Firing) (o : Out) (rep : BitVec 16) (r : Run) (e : Elem), s.focus = .firing x →
      Stands s x r e →
      exec (.cycle o rep) s = .next ((s.taken x).emitOut x o
        (Tok.data (BitVec.ofNat 64 (s.clockAt x.run x.elem)))) ∧
      s.cycle ≤ s.clockAt x.run x.elem ∧ s.clockAt x.run x.elem ≤ s.cycle + 2 ∧
      (∀ a, e.act x.act = some a → exec (.flags o rep) s =
        .next ((s.taken x).emitOut x o (Tok.data (BitVec.ofNat 64 a.flags)))) ∧
      (∀ p slot dx dy, ∃ v : Word, exec (.site o (.site p slot dx dy)) s =
          .next ((s.taken x).emitOut x o (Tok.data v)) ∧
        (v.extractLsb' 56 8).toNat = 255 ∧ (v.extractLsb' 32 16).toNat = x.iter % 65536 ∧
        (v.extractLsb' 27 5).toNat = (r.part (partOf (targetKey x.elem dx dy))).die % 32 ∧
        (v.extractLsb' 17 6).toNat = siteOf (targetKey x.elem dx dy) ∧
        v.extractLsb' 12 5 = slot ∧ v.extractLsb' 10 2 = p.toBits ∧
        (v.extractLsb' 0 10).toNat = x.colour % 1024) ∧
      (∀ k : BitVec 3, exec (.perf o k) s = .next ((s.taken x).emitOut x o (Tok.data (BitVec.ofNat 64
        (((s.taken x).elem x.run x.elem).perf.getD k.toNat 0))))) ∧
      (r.debug = false → exec (.brk o rep) s = .next ((s.taken x).emitOut x o x.lt.carry)) ∧
      (r.debug = true → ∃ t, exec (.brk o rep) s = .next t ∧ t.flits = s.flits ∧
        (t.elem x.run x.elem).parked = e.parked ++ [⟨s.nextId, x, brkMark⟩] ∧
        (t.run x.run).freeze = if r.freeze.isSome then r.freeze else some ⟨none, false, false⟩) ∧
      ((BitVec.ofNat 56 (s.clockAt x.run x.elem) - x.lv.extractLsb' 0 56).msb = false →
        s.copyOf x.run x.elem x.lv = none →
        exec (.waitt o rep) s = .next ((s.taken x).emitOut x o x.lt.carry)) ∧
      ((BitVec.ofNat 56 (s.clockAt x.run x.elem) - x.lv.extractLsb' 0 56).msb = true ∨
          (s.copyOf x.run x.elem x.lv).isSome = true →
        ∃ t, exec (.waitt o rep) s = .next t ∧ t.flits = s.flits ∧
          (t.elem x.run x.elem).waitts = e.waitts ++ [(s.nextId, x)])) ∧
  (∀ (s : State) (x : Firing) (o : Out) (num : BitVec 12) (r : Run) (e : Elem) (c : Ctx),
      s.focus = .firing x → Stands s x r e → s.ctxs.find r.ctx = some c →
      (∀ a, e.act x.act = some a → a.committed = false →
        ∃ t, exec (.wrs o num) s = .next t ∧ t.ctxs = s.ctxs ∧ t.flits = s.flits ∧
          (t.run x.run).trapRegs = r.trapRegs ∧
          ∃ b : Act, (t.elem x.run x.elem).act x.act = some b ∧
            b.wrs = a.wrs ++ [(x, o, num.toNat, x.lv)]) ∧
      ((∀ a, e.act x.act = some a → a.committed = true) →
        ∃ u : State, exec (.wrs o num) s = .next (u.emitOut x o x.lt.carry) ∧ u.mem = s.mem ∧
          (num = 0x003 → (u.ctx r.ctx).regs = { c.regs with ctxbase := x.lv }) ∧
          (num = 0x004 → (u.ctx r.ctx).regs =
            { c.regs with flags := (x.lv.extractLsb' 0 6).toNat }) ∧
          (num = 0x005 → (u.ctx r.ctx).regs =
            { c.regs with round := (x.lv.extractLsb' 0 2).toNat }) ∧
          (num = 0x006 → (u.ctx r.ctx).regs = { c.regs with seed := x.lv }) ∧
          (num = 0x040 → (u.ctx r.ctx).regs =
            { c.regs with slack := (x.lv.extractLsb' 0 16).toNat }) ∧
          (∀ k < 8, c.regs.cfl.length = 8 → num = 0x010 + BitVec.ofNat 12 k →
            (u.ctx r.ctx).regs = { c.regs with
              cfl := c.regs.cfl.set k (x.lv.extractLsb' 0 10).toNat }) ∧
          (num = 0x020 → (u.run x.run).trapRegs = { r.trapRegs with
            valid := x.lv.getLsbD 32
            seq := (x.lv.extractLsb' 16 16).toNat
            cause := (x.lv.extractLsb' 0 8).toNat }) ∧
          (num = 0x021 → (u.run x.run).trapRegs = { r.trapRegs with tokenA := x.lv }) ∧
          (num = 0x022 → (u.run x.run).trapRegs = { r.trapRegs with tokenB := x.lv }) ∧
          (num = 0x023 → (u.run x.run).trapRegs = { r.trapRegs with site := x.lv }) ∧
          (num = 0x024 → (u.run x.run).trapRegs = { r.trapRegs with info := x.lv }) ∧
          (u.run x.run).presented = r.presented))

/-- LD, LDV, VERS, LDD, XREAD, BAR, LDK and FENCE issue one request; PREF only emits (R145, R147,
R148, R151, R152, R154, R157, R227). -/
def Obligations.ReadsIssueOneRequestToTheirHome : Prop :=
  ∀ (s : State) (x : Firing) (o : Out) (sz : Width) (m : MemForm) (lsid : BitVec 5) (off : BitVec 11)
    (scope : Scope), s.focus = .firing x →
    (∀ (i : Instr) (op : MemOp) (size : Nat) (data extra : Word) (k : Nat) (ord : Option Scope)
      (ea : Word) (al need a : Nat),
      (i, op, size, data, extra, k, ord) ∈
        [(Instr.ld o sz m, MemOp.read, sz.bytes, x.rv, (0 : Word), m.lsid.toNat, m.ord),
         (.ldv o sz m, .ldv, sz.bytes, x.rv, 0, m.lsid.toNat, m.ord),
         (.vers o m, .vers, 64, x.rv, 0, m.lsid.toNat, m.ord),
         (.ldd o m, .ldd, 64, x.rv, 0, m.lsid.toNat, m.ord),
         (.xread o sz m, .xread, sz.bytes, 0, 0, m.lsid.toNat, m.ord),
         (.bar o m, .bar, 8, x.rv, 0, m.lsid.toNat, m.ord),
         (.ldk o sz lsid off scope, .ldk, sz.bytes, x.rv,
           off.signExtend 64 * BitVec.ofNat 64 sz.bytes, lsid.toNat, some scope)] →
      accessOf x i = some (ea, al, need) → HomeAt s x ea al need a →
      ∃ t, exec i s = .next t ∧ t.flits = s.flits ∧ t.mem = s.mem ∧ t.ctxs = s.ctxs ∧
        t.reqs = s.reqs.put s.nextId
          ⟨x, o, op, .read, ea.toNat, a, size, data, extra, k, ord, .pending, [], none⟩) ∧
    (∀ (form : FenceForm) (ordered : Bool), ∃ t, exec (.fence o form scope ordered lsid) s = .next t ∧
      t.flits = s.flits ∧ t.mem = s.mem ∧ t.reqs = s.reqs.put s.nextId
        ⟨x, o, .fence, .read, 0, 0, 0, BitVec.ofNat 64 (FenceForm.code form +
          if ordered then 4 else 0), 0, lsid.toNat, some scope, .pending, [], none⟩) ∧
    (∃ u : State, exec (.pref o lsid off) s = .next (u.emitOut x o (Tok.data 0)) ∧
      u.reqs = s.reqs ∧ u.mem = s.mem ∧ u.flits = s.flits)

/-- ST, VSET, STD, SIGNAL, KVCOMMIT and CANCEL enter the store buffer; memory waits for the commit
(R145, R150, R157, R227, R345). -/
def Obligations.BufferedWritesWaitInTheStoreBuffer : Prop :=
  ∀ (s : State) (x : Firing) (o : Out) (sz : Width) (m : MemForm) (lsid : BitVec 5) (scope : Scope)
    (ord : Option Scope) (r : Run) (e : Elem), s.focus = .firing x → Stands s x r e →
    (∀ (i : Instr) (op : MemOp) (size k : Nat) (od : Option Scope) (ea : Word) (al need a : Nat)
      (act : Act),
      (i, op, size, k, od) ∈
        [(Instr.st o sz m, MemOp.write, sz.bytes, m.lsid.toNat, m.ord),
         (.vset o m, .vset, 64, m.lsid.toNat, m.ord), (.std o m, .std, 64, m.lsid.toNat, m.ord),
         (.signal o m, .signal, 8, m.lsid.toNat, m.ord),
         (.kvcommit o lsid scope, .kvcommit, 64, lsid.toNat, some scope)] →
      accessOf x i = some (ea, al, need) → HomeAt s x ea al need a →
      (op = .std → isReservedFmt (x.rv.toNat % 32) = false) →
      e.act x.act = some act → e.buffered < 64 →
      ∃ (t : State) (b : Act), exec i s = .next t ∧ t.mem = s.mem ∧ t.reqs = s.reqs ∧
        t.flits = s.flits ∧ (t.elem x.run x.elem).act x.act = some b ∧
        b.stores = act.stores ++
          [⟨x, o, op, ea.toNat, a, size, x.rv, 0, k, od, isFarHome a, none, false⟩] ∧
        b.lsids = act.lsids ||| 2 ^ k) ∧
    (s.findItem x x.lv (x.rv.toNat % 8) = none →
      exec (.cancel o lsid ord) s = .next ((s.taken x).park x 0x01 x.lv) ∧
      exec (.doneq o lsid ord) s = .next ((s.taken x).park x 0x01 x.lv)) ∧
    ((s.findItem x x.lv (x.rv.toNat % 8)).isSome = true →
      (∃ t, exec (.doneq o lsid ord) s = .next t ∧ t.mem = s.mem ∧ t.reqs = s.reqs.put s.nextId
        ⟨x, o, .doneq, .read, x.lv.toNat, harbourHome, 0, x.rv, 0, lsid.toNat, ord, .pending, [],
          none⟩) ∧
      (∀ act, e.act x.act = some act → e.buffered < 64 →
        ∃ (t : State) (b : Act), exec (.cancel o lsid ord) s = .next t ∧ t.mem = s.mem ∧
          t.reqs = s.reqs ∧ (t.elem x.run x.elem).act x.act = some b ∧
          b.stores = act.stores ++ [⟨x, o, .cancel, x.lv.toNat, harbourHome, 0, x.rv, 0, lsid.toNat,
            ord, isFarHome harbourHome, none, false⟩]))

/-- STV, the atomics, XINIT, XACC, POST and ARM issue at once, unless they overlap an own buffered
store (R149, R153, R154, R157, R289). -/
def Obligations.ImmediateWritesIssueUnlessTheyOverlap : Prop :=
  ∀ (s : State) (x : Firing) (o : Out) (sz : Width) (m : MemForm) (lsid : BitVec 5) (off : BitVec 8)
    (h : BitVec 3) (ord : Option Scope) (r : Run) (e : Elem), s.focus = .firing x → Stands s x r e →
    ∀ (i : Instr) (op : MemOp) (size : Nat) (extra : Word) (k : Nat) (od : Option Scope) (ea : Word)
      (al need a : Nat) (act : Act),
      (i, op, size, extra, k, od) ∈
        [(Instr.stv o sz m, MemOp.stv, sz.bytes, (0 : Word), m.lsid.toNat, m.ord),
         (.aadd o sz m, .aadd, sz.bytes, 0, m.lsid.toNat, m.ord),
         (.aand o sz m, .aand, sz.bytes, 0, m.lsid.toNat, m.ord),
         (.aor o sz m, .aor, sz.bytes, 0, m.lsid.toNat, m.ord),
         (.axor o sz m, .axor, sz.bytes, 0, m.lsid.toNat, m.ord),
         (.amin o sz m, .amin, sz.bytes, 0, m.lsid.toNat, m.ord),
         (.amax o sz m, .amax, sz.bytes, 0, m.lsid.toNat, m.ord),
         (.aswap o sz m, .aswap, sz.bytes, 0, m.lsid.toNat, m.ord),
         (.acas o sz lsid off h ord, .acas, sz.bytes, e.holdAt s.cycle h.toNat, lsid.toNat, ord),
         (.afadd o sz m, .afadd, sz.bytes, 0, m.lsid.toNat, m.ord),
         (.aincw o sz m, .aincw, sz.bytes, 0, m.lsid.toNat, m.ord),
         (.aser o sz m, .aser, sz.bytes, 0, m.lsid.toNat, m.ord),
         (.xinit o sz m, .xinit, sz.bytes, 0, m.lsid.toNat, m.ord),
         (.xacc o sz m, .xacc, sz.bytes, 0, m.lsid.toNat, m.ord),
         (.post o m, .post, 8, 0, m.lsid.toNat, m.ord),
         (.arm o m, .arm, 8, 0, m.lsid.toNat, m.ord)] →
      accessOf x i = some (ea, al, need) → HomeAt s x ea al need a → e.act x.act = some act →
      ((∀ st ∈ act.stores, st.lsid < k → st.home + st.size ≤ a ∨ a + op.span size ≤ st.home) →
        ∃ t, exec i s = .next t ∧ t.flits = s.flits ∧ t.mem = s.mem ∧ t.ctxs = s.ctxs ∧
          t.reqs = s.reqs.put s.nextId
            ⟨x, o, op, .immediate, ea.toNat, a, size, x.rv, extra, k, od, .pending, [], none⟩) ∧
      ((∃ st ∈ act.stores, st.lsid < k ∧ st.home < a + op.span size ∧ a < st.home + st.size) →
        exec i s = .next ((s.taken x).park x 0x01 ea))

/-- A home answers an atomic with the old value; ACAS and STV write only where the expected value
or version stands (R153, R42, R282, R149). -/
def Obligations.HomesPerformAtomicsAndConditionalWrites : Prop :=
  (∀ (s : State) (n : Nat) (q : Req) (w : Nat) (m v new : BitVec w), Performs s n q →
      Memory.wf s.mem = true → q.cls = .immediate → q.size = 4 ∨ q.size = 8 → w = 8 * q.size →
      m = BitVec.ofNat w (s.num q.home q.size) → v = q.data.setWidth w →
      (q.op, new) ∈ [(MemOp.aadd, m + v), (.aand, m &&& v), (.aor, m ||| v), (.axor, m ^^^ v),
        (.amin, if v.toInt < m.toInt then v else m), (.amax, if m.toInt < v.toInt then v else m),
        (.aswap, v), (.aincw, if v.toNat ≤ m.toNat then 0 else m + 1),
        (.aser, if 0 < (v - m).toNat ∧ (v - m).toNat < 2 ^ (w - 1) then v else m)] →
      ∃ u : State, exec (portEvent q n) s = .next (u.emitOut q.firing q.out (Tok.data (m.signExtend 64))) ∧
        (∀ k < q.size, memGet u.mem (q.home + k) = new.extractLsb' (8 * k) 8) ∧
        SameOutsideRange s.mem u.mem q.home q.size ∧ Memory.wf u.mem = true ∧
        (u.sideOf q.home).version = ((s.sideOf q.home).version + 1) % 65536 ∧ u.reqs.length ≤ s.reqs.length) ∧
  (∀ (s : State) (n : Nat) (q : Req) (w : Nat) (m v old : BitVec w), Performs s n q →
      Memory.wf s.mem = true → q.cls = .immediate → q.size ∈ [1, 2, 4, 8] → w = 8 * q.size →
      m = BitVec.ofNat w (s.num q.home q.size) → v = q.data.setWidth w → old = q.extra.setWidth w →
      (q.op = .acas → ∃ u : State, exec (portEvent q n) s =
          .next (u.emitOut q.firing q.out (Tok.data (m.signExtend 64))) ∧
        (m = old → (∀ k < q.size, memGet u.mem (q.home + k) = v.extractLsb' (8 * k) 8) ∧
          SameOutsideRange s.mem u.mem q.home q.size) ∧
        (m ≠ old → u.mem = s.mem)) ∧
      (q.op = .stv → ∃ u : State,
        ((s.sideOf q.home).version = (q.data.extractLsb' 48 16).toNat →
          exec (portEvent q n) s = .next (u.emitOut q.firing q.out (Tok.data 1)) ∧
          (∀ k < q.size, memGet u.mem (q.home + k) = v.extractLsb' (8 * k) 8) ∧
          SameOutsideRange s.mem u.mem q.home q.size) ∧
        ((s.sideOf q.home).version ≠ (q.data.extractLsb' 48 16).toNat →
          exec (portEvent q n) s = .next (u.emitOut q.firing q.out (Tok.data 0)) ∧ u.mem = s.mem)))

/-- A home answers a load with the sign-extended bytes and a store by writing them, in byte order
(R145, R148, R150, R42, R7). -/
def Obligations.HomesPerformReadsAndBufferedWrites : Prop :=
  ∀ (s : State) (n : Nat) (q : Req), Performs s n q → Memory.wf s.mem = true → q.size ∈ [1, 2, 4, 8, 64] →
    (q.cls = .read → s.ownStores q.firing = [] →
      (q.op = .read → q.size ≤ 8 → ∃ u : State, exec (portEvent q n) s = .next (u.emitOut q.firing q.out
        (Tok.data ((BitVec.ofNat (8 * q.size) (s.num q.home q.size)).signExtend 64))) ∧
        u.mem = s.mem ∧ u.side = s.side) ∧
      (q.op = .vers → ∃ u : State, exec (portEvent q n) s = .next (u.emitOut q.firing q.out
        (Tok.data (BitVec.ofNat 64 (s.sideOf q.home).version))) ∧ u.mem = s.mem ∧ u.side = s.side) ∧
      (q.op = .ldd → ∃ u : State, exec (portEvent q n) s = .next (u.emitOut q.firing q.out
        (Tok.data (BitVec.ofNat 64 ((s.sideOf q.home).scale * 256 +
          (if (s.sideOf q.home).zero then 32 else 0) + (s.sideOf q.home).fmt)))) ∧
        u.mem = s.mem ∧ u.side = s.side) ∧
      (q.op = .ldv → q.size ≤ 8 →
        (BitVec.ofNat 16 (s.sideOf q.home).version - q.data.setWidth 16).msb = false →
        ∃ u : State, exec (portEvent q n) s = .next (u.emitOut q.firing q.out
          (Tok.data ((BitVec.ofNat (8 * q.size) (s.num q.home q.size)).signExtend 64))) ∧
          u.mem = s.mem ∧ u.side = s.side)) ∧
    (q.cls = .buffered → q.ord = none → q.spoiled = false →
      (q.op = .write → q.size ≤ 8 → ∃ u : State,
        exec (portEvent q n) s = .next (u.emitOut q.firing q.out (Tok.data 0)) ∧
        (∀ k < q.size, memGet u.mem (q.home + k) = q.data.extractLsb' (8 * k) 8) ∧
        SameOutsideRange s.mem u.mem q.home q.size ∧
        (u.sideOf q.home).version = ((s.sideOf q.home).version + 1) % 65536) ∧
      (q.op = .vset → ∃ u : State,
        exec (portEvent q n) s = .next (u.emitOut q.firing q.out (Tok.data 0)) ∧ u.mem = s.mem ∧
        (u.sideOf q.home).version = (q.data.extractLsb' 0 16).toNat))

/-- Decoding the word of any well-formed instruction gives it back; no other word decodes to it
(R63, R65, R66, R71, R79, R339). -/
def Obligations.DecodingReadsBackEveryWord : Prop :=
  ∀ (i : Instr) (w : Word),
    (i.wf = true → i.isSlotWord = true → decode (encode i) = .ok i) ∧
    (decode w = .ok i → encode i = w ∧ i.wf = true ∧ i.isSlotWord = true) ∧
    (i.wf = true → i.isSeqWord = true → decodeSeq (encodeSeq i) = .ok i) ∧
    (decodeSeq w = .ok i → encodeSeq i = w ∧ i.wf = true ∧ i.isSeqWord = true)

/-- In every state the machine takes a step: it never faults and never refuses (chapter
95_what_each_step_holds.md, R79, R80). -/
def Obligations.EveryStepGoesOn : Prop :=
  ∀ s : State, Goes (step s) ∧ ∀ i : Instr,
    (i.isSlotWord = false → i.isSeqWord = false → Goes (exec i s)) ∧
    (∀ x, s.focus = .firing x → i.isSlotWord = true → Goes (exec i s)) ∧
    (∀ r n, s.focus = .engine r n → i.isCommand = true → Goes (exec i s)) ∧
    (∀ j t, s.focus = .thread j t → i.isSeqWord = true → Goes (exec i s))

/-- Every step keeps memory in its canonical form (R7, R42). -/
def Obligations.MemoryKeepsItsForm : Prop :=
  ∀ s t : State, Memory.wf s.mem = true → step s = .next t → Memory.wf t.mem = true

/-- Reset: the values the spec gives (R161, R356, R404, R409, R402). -/
def Obligations.ResetLeavesTheDeviceEmpty : Prop :=
  Memory.wf State.reset.mem = true ∧ State.reset.mem = [] ∧ (∀ a, memGet State.reset.mem a = 0) ∧
  State.reset.runs = [] ∧ State.reset.reqs = [] ∧ State.reset.tlb = [] ∧ State.reset.queues = [] ∧
  State.reset.jobs = [] ∧
  (∀ c < 64, (State.reset.ctx c).state = .free ∧ (State.reset.ctx c).regs.flags = 0 ∧
    (State.reset.ctx c).regs.round = 0 ∧ (State.reset.ctx c).regs.slack = 0 ∧
    (State.reset.ctx c).regs.cfl = List.replicate 8 0 ∧ ∀ n, ((State.reset.ctx c).colour n).state = .free) ∧
  (∀ d < 24, ∀ k < 16, ((State.reset.dies.get d).clusters.find k).map ClusterSt.state = some .normal) ∧
  State.reset.life.devid = 0xFF ∧ State.reset.life.drainmax = 100 ∧
  State.reset.life.hmReady = false ∧ State.reset.life.mbBusy = false

/-- A step performs the word that the agent in focus fetches (R63, R101, R166, R339, chapter
95_what_each_step_holds.md). -/
def Obligations.AStepRunsTheDecodedWord : Prop :=
  ∀ (s : State) (i : Instr),
    (∀ x, s.focus = .firing x → (s.elem x.run x.elem).badSlots.testBit x.slot = false →
      decode (s.slotWord x) = .ok i → step s = exec i s) ∧
    (∀ r n c, s.focus = .engine r n → (s.run r).cmds.find n = some c →
      (s.run r).works s.cycle n c = true → decode c.msg.word = .ok i → i.isCommand = true →
      step s = exec i s) ∧
    (∀ j t job th w, s.focus = .thread j t → s.jobs.find j = some job → job.threads.find t = some th →
      th.wait = .none → job.steps[th.step]? = some w → decodeSeq w = .ok i → step s = exec i s) ∧
    (∀ d rest, s.focus = .idle → s.agenda = (d, .row i) :: rest → i.isSlotWord = false →
      i.isSeqWord = false → s.forcedNow = none → d < State.quiet { s with agenda := rest } →
      step s = exec i (State.passed { s with agenda := rest } d) ∧
      (State.passed { s with agenda := rest } d).cycle = s.cycle + d ∧
      (State.passed { s with agenda := rest } d).mem = s.mem) ∧
    (s.focus = .idle → s.forcedNow = some (.row i) → i.isSlotWord = false → i.isSeqWord = false →
      step s = exec i s)

/-- A slot word that does not decode traps ILLEGAL with the word and counts a soft error (R80,
R394). -/
def Obligations.ACorruptWordTrapsIllegal : Prop :=
  ∀ (s : State) (x : Firing) (e : DecodeError), s.focus = .firing x →
    decode (s.slotWord x) = .error e ∨ (s.elem x.run x.elem).badSlots.testBit x.slot = true →
    step s = .next (s.illegalWord x (s.slotWord x)) ∧
    (∀ die st, die = ((s.run x.run).part (partOf x.elem)).die → s.dies.find die = some st →
      (s.illegalWord x (s.slotWord x)).dies.find die =
        some { st with soft := min (st.soft + 1) 65535 }) ∧
    ∀ r el te, Stands s x r el → r.trapElem = some te → r.presented = none → r.halted = false →
      ((s.illegalWord x (s.slotWord x)).elem x.run x.elem).parked = el.parked ∧
      ∃ p, ((s.illegalWord x (s.slotWord x)).run x.run).presented = some p ∧ p.cause = 0x01 ∧
        p.info = s.slotWord x ∧ p.seq = r.trapSeq ∧ p.resume = .nothing ∧
        ((s.illegalWord x (s.slotWord x)).run x.run).trapRegs.info = s.slotWord x

/-- Words written out from the encoding tables decode to their instructions (R63, R65, R71, R72,
R73, R74, R77, R79). -/
def Obligations.WordsOfTheEncodingDecode : Prop :=
  decode 0x2004830000000000 =
    .ok (.add ⟨some (.site .left 3 0 0), none, false⟩ ⟨.w, false, false, 0⟩) ∧
  decode 0x0100E50000000000 = .ok (.mov ⟨some (.hold 5), none, false⟩ 0) ∧
  decode 0x610082100000_2FFE = .ok (.st ⟨some (.site .left 2 1 0), none, false⟩ .d ⟨5, 0x7FE, none⟩) ∧
  decode 0x6090A20F00000800 =
    .ok (.ld ⟨some (.site .right 2 0 15), none, false⟩ .d ⟨1, 0, some .clu⟩) ∧
  decode 0x4014810000000000 =
    .ok (.fadd ⟨some (.site .left 1 0 0), none, false⟩ ⟨.s, false, .fixed .rtz, 0⟩) ∧
  decode 0xBD00000000000407 = .ok (.tread ⟨none, none, false, 7⟩ ⟨0, 0, 1⟩) ∧
  decode 0xF200000000000005 = .ok (.wrs ⟨none, none, false⟩ 5) ∧
  decode 0 = .ok (.ill false) ∧
  decode 0x1800000000000000 = .error .opcode ∧ decode 0xF602000000000000 = .error .field

/-- The machine with a word placed runs it next (R63, R79, chapter 95_what_each_step_holds.md). -/
def Obligations.APlacedWordIsFetchedNext : Prop :=
  ∀ (s : State) (n w : Nat) (i : Instr), decode (BitVec.ofNat 64 w) = .ok i →
    decodeTableWord n w = some i ∧ step (s.withFetchWord n w) = exec i (s.withFetchWord n w) ∧
    (s.withFetchWord n w).mem = s.mem ∧ (s.withFetchWord n w).ctxs = s.ctxs

/-- An exact-accumulate word holds the same sum whatever order its terms arrive in (R154, R54,
R50). -/
def Obligations.ExactSumsDoNotDependOnTheOrder : Prop :=
  ∀ (b w : Nat) (ts us : List (Bool × Nat × Int)), w < 2 ^ 64 → ts.Perm us →
    afterTerms b w ts = afterTerms b w us ∧
    (unpackResidue (afterTerms b w ts)).2 = (unpackResidue w).2 ∧
    (-(2 : Int) ^ 55 ≤ heldSum w + alignedSum b w ts → heldSum w + alignedSum b w ts < 2 ^ 55 →
      heldSum (afterTerms b w ts) = heldSum w + alignedSum b w ts)

/-- POST, SIGNAL, ARM and BAR update the words they name at their homes (R157, R158). -/
def Obligations.HomesKeepTaskAndBarrierWords : Prop :=
  ∀ (s : State) (n : Nat) (q : Req), Performs s n q → Memory.wf s.mem = true → q.size = 8 →
    (q.op = .post → q.cls = .immediate →
      (16777215 < ((s.wordAt q.home).extractLsb' 0 24).toNat + (q.data.extractLsb' 0 24).toNat →
        exec (portEvent q n) s = .next ((s.serveHome q.home networkRank).trapRequest n q 0x09
          (BitVec.ofNat 64 q.ea))) ∧
      (((s.wordAt q.home).extractLsb' 0 24).toNat + (q.data.extractLsb' 0 24).toNat ≤ 16777215 →
        ∃ u : State, exec (portEvent q n) s = .next (u.emitOut q.firing q.out (Tok.data 0)) ∧
          u.wordAt q.home = (s.wordAt q.home).extractLsb' 32 32 ++ 0#6 ++
            (s.wordAt q.home).extractLsb' 24 2 ++
            ((s.wordAt q.home).extractLsb' 0 24 + q.data.extractLsb' 0 24) ∧
          u.pendingStarts = s.pendingStarts ∧ SameOutsideRange s.mem u.mem q.home 8)) ∧
    (q.op = .arm → q.cls = .immediate →
      ∃ u : State, exec (portEvent q n) s = .next (u.emitOut q.firing q.out (Tok.data 0)) ∧
        SameOutsideRange s.mem u.mem q.home 8 ∧
        (q.data.extractLsb' 0 24 ≠ 0 → u.pendingStarts = s.pendingStarts ∧
          u.wordAt q.home = q.data.extractLsb' 32 32 ++ 0#6 ++ 1#2 ++ q.data.extractLsb' 0 24) ∧
        (q.data.extractLsb' 0 24 = 0 → u.wordAt q.home = q.data.extractLsb' 32 32 ++ 0#32 ∧
          u.pendingStarts = s.pendingStarts ++ [(q.home, (q.data.extractLsb' 32 32).toNat)])) ∧
    (q.op = .signal → q.cls = .buffered → q.ord = none → q.spoiled = false →
      ∀ (c k : BitVec 24) (under : BitVec 1),
      c = (s.wordAt q.home).extractLsb' 0 24 →
      k = (if q.data.extractLsb' 0 24 = 0 then 1 else q.data.extractLsb' 0 24) →
      under = (if c < k then 1#1 else (s.wordAt q.home).extractLsb' 25 1) →
      ∃ u : State, exec (portEvent q n) s = .next (u.emitOut q.firing q.out (Tok.data 0)) ∧
        SameOutsideRange s.mem u.mem q.home 8 ∧
        (c ≤ k → (s.wordAt q.home).getLsbD 24 = true →
          u.wordAt q.home = (s.wordAt q.home).extractLsb' 32 32 ++ 0#6 ++ under ++ 0#1 ++ 0#24 ∧
          u.pendingStarts =
            s.pendingStarts ++ [(q.home, ((s.wordAt q.home).extractLsb' 32 32).toNat)]) ∧
        (k < c ∨ (s.wordAt q.home).getLsbD 24 = false →
          u.wordAt q.home = (s.wordAt q.home).extractLsb' 32 32 ++ 0#6 ++ under ++
            (s.wordAt q.home).extractLsb' 24 1 ++ (if c ≤ k then 0 else c - k) ∧
          u.pendingStarts = s.pendingStarts)) ∧
    (q.op = .bar → q.cls = .read →
      (((s.wordAt q.home).extractLsb' 0 24).toNat + 1 < (q.data.extractLsb' 0 24).toNat →
        ∃ t : State, exec (portEvent q n) s = .next t ∧ t.flits = s.flits ∧
          (t.reqs.find n).map Req.state =
            some (.arrived ((s.wordAt q.home).extractLsb' 48 16).toNat) ∧
          t.wordAt q.home = (s.wordAt q.home).extractLsb' 48 16 ++ q.data.extractLsb' 0 24 ++
            ((s.wordAt q.home).extractLsb' 0 24 + 1)) ∧
      ((q.data.extractLsb' 0 24).toNat ≤ ((s.wordAt q.home).extractLsb' 0 24).toNat + 1 →
        ∃ u : State, exec (portEvent q n) s = .next ((u.emitOut q.firing q.out (Tok.data
            (((s.wordAt q.home).extractLsb' 48 16 + 1).setWidth 64))).releaseBars q.home
              ((s.wordAt q.home).extractLsb' 48 16 + 1).toNat) ∧
          u.wordAt q.home = ((s.wordAt q.home).extractLsb' 48 16 + 1) ++ q.data.extractLsb' 0 24 ++
            0#24))

/-- AFADD, the exact-accumulate words, KVCOMMIT, LDK and VSET, STD at their homes; a poisoned
block answers POISON (R153, R154, R227, R393). -/
def Obligations.HomesPerformTheOtherRequestsAndAnswerPoison : Prop :=
  (∀ (s : State) (n : Nat) (q : Req), Performs s n q → Memory.wf s.mem = true →
      (∀ fmt w, q.op = .afadd → q.cls = .immediate →
        (q.size = 8 ∧ fmt = fp64 ∧ w = 64) ∨ (q.size = 4 ∧ fmt = fp32 ∧ w = 32) →
        ∃ u : State, exec (portEvent q n) s = .next (u.emitOut q.firing q.out
            (Tok.data ((BitVec.ofNat w (s.num q.home q.size)).signExtend 64))) ∧
          u.num q.home q.size = (fAdd fmt .rne (decodeF fmt (s.num q.home q.size))
            (decodeF fmt (q.data.toNat % 2 ^ w))).1 % 2 ^ w ∧
          SameOutsideRange s.mem u.mem q.home q.size) ∧
      ((s.sideOf q.home).fmt ≠ 0x12 → q.op = .xinit ∨ q.op = .xacc →
        q.cls = .immediate → exec (portEvent q n) s =
          .next ((s.serveHome q.home networkRank).trapRequest n q 0x13
            (BitVec.ofNat 64 (q.ea - q.ea % 64)))) ∧
      ((s.sideOf q.home).fmt = 0x12 → q.cls = .immediate → ∀ B : Nat, B = (s.sideOf q.home).scale →
        (∀ o : BitVec 7, q.op = .xinit → B < 255 → q.data.toInt = 64 * ((B : Int) - 127) + o.toInt →
          ∃ u : State, exec (portEvent q n) s = .next (u.emitOut q.firing q.out (Tok.data 0)) ∧
            u.wordAt q.home = o ++ 0#57) ∧
        (q.op = .xinit → (B = 255 ∨ ∀ o : BitVec 7, q.data.toInt ≠ 64 * ((B : Int) - 127) + o.toInt) →
          exec (portEvent q n) s =
            .next ((s.serveHome q.home networkRank).trapRequest n q 0x13
            (BitVec.ofNat 64 (q.ea - q.ea % 64)))) ∧
        (∀ neg m e, q.op = .xacc → q.size = 8 → decodeF fp64 q.data.toNat = .fin neg m e →
          ∃ u : State, exec (portEvent q n) s = .next (u.emitOut q.firing q.out (Tok.data 0)) ∧
            u.wordAt q.home = BitVec.ofNat 64 (afterTerms B (s.wordAt q.home).toNat [(neg, m, e)]) ∧
            SameOutsideRange s.mem u.mem q.home 8) ∧
        ((∀ neg m e, decodeF fp64 q.data.toNat ≠ .fin neg m e) → q.op = .xacc → q.size = 8 →
          ∃ u : State, exec (portEvent q n) s = .next (u.emitOut q.firing q.out (Tok.data 0)) ∧
            u.mem = s.mem ∧ (u.sideOf q.home).scale = 255)) ∧
      (q.op = .xread → q.cls = .read → q.size = 8 → s.ownStores q.firing = [] →
        ((s.sideOf q.home).fmt ≠ 0x12 → exec (portEvent q n) s =
          .next ((s.serveHome q.home networkRank).trapRequest n q 0x13
            (BitVec.ofNat 64 (q.ea - q.ea % 64)))) ∧
        ((s.sideOf q.home).fmt = 0x12 → (s.sideOf q.home).scale = 255 → ∃ u : State,
          exec (portEvent q n) s = .next (u.emitOut q.firing q.out (Tok.data 0x7FF8000000000000)) ∧
          u.mem = s.mem) ∧
        (∀ B : Nat, (s.sideOf q.home).fmt = 0x12 → B = (s.sideOf q.home).scale → B < 255 →
          outOfRange (heldSum (s.wordAt q.home).toNat) = false → ∃ u : State,
          exec (portEvent q n) s = .next (u.emitOut q.firing q.out (Tok.data (BitVec.ofNat 64
            (encodeF fp64 .rne (.fin (decide (heldSum (s.wordAt q.home).toNat < 0))
              (heldSum (s.wordAt q.home).toNat).natAbs
              (residueEacc B (unpackResidue (s.wordAt q.home).toNat).2))).1))) ∧ u.mem = s.mem)) ∧
      (q.op = .kvcommit → q.cls = .buffered → q.spoiled = false → q.ord.isSome = true →
        ∃ t : State, exec (portEvent q n) s = .next t ∧
        (Memory.wf t.mem = true) ∧
        t.num q.home 8 = min (s.num q.home 4 + (q.data.extractLsb' 0 32).toNat) (s.num (q.home + 24) 4) ∧
        SameOutsideRange s.mem t.mem q.home 8) ∧
      (q.op = .ldk → q.cls = .read → s.ownStores q.firing = [] →
        (s.num q.home 4 ≤ q.data.toNat → ∃ u : State,
          exec (portEvent q n) s = .next (u.emitOut q.firing q.out ⟨0, .empty, 0, false, false, 0⟩) ∧
          u.mem = s.mem) ∧
        (q.data.toNat < s.num q.home 4 → exec (portEvent q n) s = .next
          ((s.serveHome q.home networkRank).loadEntry n q
          (BitVec.ofNat 64 (s.num (q.home + 8) 8 + q.data.toNat * s.num (q.home + 16) 8)))))) ∧
  (∀ (s : State) (n : Nat) (q : Req), s.reqs.find n = some q → s.mayPerform n q = true →
      ((s.sideOf q.home).poison = true ∧ (q.size < 64 ∨ q.op ≠ .write)) ∨
        (q.spoiled = true ∧ q.op.isRead = false) → s.engineOwned q.home = false →
      s.overlapsStore q.firing q.lsid q.home q.span = false → s.ownStores q.firing = [] →
      atTile q.home = true ∨ (atQuay q.home = true ∧ s.awake q.home = true) →
      q.op ∉ [MemOp.fence, .cancel, .doneq, .ldv] →
      (q.cls = .buffered → q.ord = none) →
      ∃ u : State, exec (portEvent q n) s = .next (u.emitOut q.firing q.out
          ⟨0, .poison, 0, false, false, q.ea - q.ea % 64⟩) ∧ u.mem = s.mem ∧ u.side = s.side)

/-- The engine words that set or read a register complete with its old value (R173, R177, R185,
R194, R195, R207, R217, R228). -/
def Obligations.EngineRegisterWordsSetAndAnswer : Prop :=
  ∀ (s : State) (r n : Nat) (x : Run) (c : Command) (k : Cmd) (l : Word) (f : Frame),
    AtEngine s r n x c → l = c.msg.operand → f = s.frame r c.elem →
    (∀ (reg : BitVec 2) (old : Word) (new : Frame), reg ≠ 3 → reg = 2 ∨ l.toNat % 64 = 0 →
      (reg, old, new) ∈ [((0 : BitVec 2), f.mbpitch, { f with mbpitch := l }),
        (1, f.mcpitch, { f with mcpitch := l }), (2, f.mtask, { f with mtask := l })] →
      ∃ t, exec (.mrow k reg) s = .next t ∧ Answers t r n old ∧ t.frame r c.elem = new ∧
        SameAround r s t) ∧
    (∀ reg : BitVec 2, reg.toNat < 2 → l.toNat % 64 ≠ 0 →
      exec (.mrow k reg) s = .next (s.idle.engineIllegal r n c)) ∧
    (∃ t v, exec (.mrowReadProgress k) s = .next t ∧ Answers t r n v ∧ SameAround r s t ∧
      t.frame r c.elem = f ∧ v.extractLsb' 8 56 = 0 ∧ v.getLsbD 7 = f.mrowp.isSome ∧
      ∀ i, f.mrowp = some i → (v.extractLsb' 0 7).toNat = i % 128) ∧
    (∃ t, exec (.mscale k) s = .next t ∧ Answers t r n (f.scaleB ++ f.scaleA) ∧ SameAround r s t ∧
      t.frame r c.elem = { f with scaleA := l.extractLsb' 0 32, scaleB := l.extractLsb' 32 32 }) ∧
    (∃ t, exec (.mbmap k) s = .next t ∧ Answers t r n f.mbmap ∧ SameAround r s t ∧
      t.frame r c.elem = { f with mbmap := l }) ∧
    (∀ tb : Bool, ∃ t, exec (.mzero k tb) s = .next t ∧ SameAround r s t ∧
      Answers t r n ((l.extractLsb' 0 16).signExtend 64) ∧
      (t.frame r c.elem).eacc tb = (l.extractLsb' 0 16).toInt ∧
      (∀ i j, (t.frame r c.elem).cell tb i j = Cell.zero) ∧
      (∀ i j, (t.frame r c.elem).cell (!tb) i j = f.cell (!tb) i j)) ∧
    (∀ g d, (∃ t, exec (.cpySetLpitch k g d) s = .next t ∧ SameAround r s t ∧
        Answers t r n (x.lighterPort c.elem).lpitch ∧
        (t.run r).lighterPort c.elem = { x.lighterPort c.elem with lpitch := l }) ∧
      (∃ t, exec (.cpySetLtask k g d) s = .next t ∧ SameAround r s t ∧
        Answers t r n (x.lighterPort c.elem).ltask ∧
        (t.run r).lighterPort c.elem = { x.lighterPort c.elem with ltask := l })) ∧
    (l.toNat < 65536 → ∃ t, exec (.sampleSetStopp k) s = .next t ∧ SameAround r s t ∧
      Answers t r n (BitVec.ofNat 64 (s.sampler r c.elem).stopp) ∧
      t.sampler r c.elem = { s.sampler r c.elem with stopp := l.toNat }) ∧
    (65536 ≤ l.toNat → exec (.sampleSetStopp k) s = .next (s.idle.engineIllegal r n c)) ∧
    (l.extractLsb' 32 32 = 0 → l.extractLsb' 3 13 = 0 → l.extractLsb' 0 2 ≠ 3 →
      (x.seam c.elem).pol < 4 →
      ∃ t v, exec (.seampol k) s = .next t ∧ SameAround r s t ∧ Answers t r n v ∧
        (v.extractLsb' 16 16).toNat = (x.seam c.elem).padv % 65536 ∧
        (t.run r).seam c.elem = { x.seam c.elem with
          padv := (l.extractLsb' 16 16).toNat
          pol := (l.extractLsb' 0 2).toNat }) ∧
    (l.extractLsb' 32 32 ≠ 0 ∨ l.extractLsb' 3 13 ≠ 0 ∨ l.extractLsb' 0 2 = 3 →
      exec (.seampol k) s = .next (s.idle.engineIllegal r n c)) ∧
    (∀ (cam : BitVec 3) (w : BitVec 5) (y : Ctx), s.ctxs.find x.ctx = some y → w.toNat ≤ 22 →
      (∃ t, exec (.camsetRead k cam w) s = .next t ∧ SameAround r s t ∧
        Answers t r n ((camWord (y.cam cam.toNat) w.toNat).setWidth 64) ∧ t.ctxs = s.ctxs) ∧
      (w ≠ 22 ∨ l.extractLsb' 16 16 = 0 → ∃ t, exec (.camset k cam w) s = .next t ∧
        SameAround r s t ∧ Answers t r n ((camWord (y.cam cam.toNat) w.toNat).setWidth 64) ∧
        camWord ((t.ctx x.ctx).cam cam.toNat) w.toNat = l.extractLsb' 0 32 ∧
        ∀ (cam' : BitVec 3) (w' : BitVec 5), w'.toNat ≤ 22 → cam' ≠ cam ∨ w' ≠ w →
          camWord ((t.ctx x.ctx).cam cam'.toNat) w'.toNat = camWord (y.cam cam'.toNat) w'.toNat)) ∧
    (∀ (g : TileForm) (z : TileSt), s.tileMasked r c.elem = true → x.tiles.find c.elem = some z →
      (l.extractLsb' 54 10 = 0 → l.extractLsb' 50 3 ≠ 7 →
        ∃ t, exec (.tshape k g) s = .next t ∧ SameAround r s t ∧ Answers t r n 0 ∧
          (t.run r).tiles.find c.elem = some { z with
            shapes := z.shapes.put (4 * g.g.toNat + g.k.toNat) l }) ∧
      (l.extractLsb' 54 10 ≠ 0 ∨ l.extractLsb' 50 3 = 7 →
        exec (.tshape k g) s = .next (s.idle.engineIllegal r n c)))

/-- A command starts in order, its tile flips at the commit, and its completion sends its token
(R159, R166, R167, R168). -/
def Obligations.EngineCommandsLiveFromArrivalToCompletion : Prop :=
  (∀ (s : State) (r n : Nat) (x : Run) (c : Command) (i : Instr), s.runs.find r = some x →
    x.cmds.find n = some c →
    (c.state = .queued → x.state = .running → s.haltedSite r c.elem = false →
      x.heldBack n c = false → x.silentSeam c.elem = false → c.instr = some i →
      x.mayStart n c i = true → s.cameraFree r n i = true → ((neededTiles c.elem i).all x.tileEngine) = true →
      ∃ (t : State) (d : Command), exec (.engineCommandStart r n) s = .next t ∧
        (t.run r).cmds.find n = some d ∧ d.state = .running ∧ d.prog.i = 0 ∧ d.prog.j = 0 ∧
        d.msg = c.msg ∧ t.mem = s.mem ∧ t.flits = s.flits) ∧
    (∀ v y, c.state = .finished v → x.state = .running → s.farOutstanding r n = false →
      x.outputsGone c = true → c.task = 0 → c.prog.skip = none → c.instr = some i → isCopy i = false →
      (∀ k cam g, i ≠ .pgather k cam g ∧ i ≠ .pray k cam g) →
      (x.part (partOf c.elem)).cancelled = false → s.ctxs.find x.ctx = some y →
      ∃ u : State, exec (.engineCompletion r n) s =
          .next ((u.completeTo r c (Tok.data v)).editRun r fun z => { z with cmds := z.cmds.del n }) ∧
        u.mem = s.mem ∧ u.flits = s.flits ∧
        (u.ctx x.ctx).regs = { y.regs with flags := y.regs.flags ||| c.flags }) ∧
    (∀ uid z, c.state = .withheld uid → x.state = .running → s.haltedSite r c.elem = false →
      s.visibleClu r uid c.msg = true → s.tileMasked r c.elem = true →
      x.tiles.find c.elem = some z →
      ∃ t v, exec (.ownerFlipEngine r n) s = .next t ∧ Answers t r n v ∧ t.mem = s.mem ∧
        (((t.run r).tiles.find c.elem).map TileSt.engine) = some true)) ∧
  (∀ (s : State) (x : Firing) (r : Run) (e : Elem) (k : Cmd), s.focus = .firing x → Stands s x r e →
    (∀ a, e.act x.act = some a → a.committed = false →
      ∃ t b m, exec (.own k) s = .next t ∧ (t.elem x.run x.elem).act x.act = some b ∧
        b.owns = a.owns ++ [m] ∧ m.word = s.slotWord x ∧ t.flits = s.flits) ∧
    ((∀ a, e.act x.act = some a → a.committed = true) →
      ∃ t d, exec (.own k) s = .next t ∧ (t.run x.run).cmds.find s.nextId = some d ∧
        d.state = .withheld x.act ∧ d.elem = x.elem - x.elem % 64 + k.site.toNat)) ∧
  (∀ (s : State) (r n : Nat) (x : Run) (c : Command) (k : Cmd) (z : TileSt), AtEngine s r n x c →
    s.tileMasked r c.elem = true → x.tiles.find c.elem = some z → z.engine = true →
    (0 < z.uses → exec (.ownToLace k) s = .next s.idle) ∧
    (z.uses = 0 → ∃ t v, exec (.ownToLace k) s = .next t ∧ Answers t r n v ∧ SameAround r s t ∧
      (t.run r).tiles.find c.elem = some { z with engine := false }) ∧
    ∃ t v, exec (.own k) s = .next t ∧ Answers t r n v ∧
      (((t.run r).tiles.find c.elem).map TileSt.engine) = some true)

/-- PERMIT, TAKE, STRSET, STROCC and STRCLOSE act on the strand whose endpoint the element has
(R78, R80, R160, R199, R200, R201). -/
def Obligations.StrandWordsActOnTheirStrand : Prop :=
  ∀ (s : State) (x : Firing) (o : Out) (num : BitVec 8) (r : Run) (e : Elem), s.focus = .firing x →
    Stands s x r e →
    (r.strandOf x.elem num.toNat = none →
      exec (.permit o num) s = .next ((s.taken x).illegalWord x (s.slotWord x)) ∧
      exec (.take o num) s = .next ((s.taken x).illegalWord x (s.slotWord x)) ∧
      exec (.strclose o num) s = .next ((s.taken x).illegalWord x (s.slotWord x)) ∧
      ∀ index branch,
        exec (.strset o num index branch) s = .next ((s.taken x).illegalWord x (s.slotWord x)) ∧
        exec (.strocc o num index branch) s = .next ((s.taken x).illegalWord x (s.slotWord x))) ∧
    (∀ (key : Nat) (st : Strand) (n : Nat), r.strandOf x.elem num.toNat = some key →
      r.strands.find key = some st → 0 < st.branches.length → n = (x.lv.extractLsb' 0 16).toNat →
      (st.bound = some x.elem →
        (∃ u : State, exec (.permit o num) s =
            .next (u.emitOut x o (Tok.data (BitVec.ofNat 64 (min (st.permit + n) 65535)))) ∧
          (u.run x.run).strands.find key = some { st with permit := min (st.permit + n) 65535 } ∧
          u.mem = s.mem ∧ u.flits = s.flits) ∧
        (∃ u : State, exec (.take o num) s =
            .next (u.emitOut x o (Tok.data (BitVec.ofNat 64 (min n st.permit)))) ∧
          (u.run x.run).strands.find key = some { st with permit := st.permit - min n st.permit } ∧
          u.mem = s.mem ∧ u.flits = s.flits) ∧
        (r.producer st = none → ∃ t, exec (.strclose o num) s = .next t ∧
          (t.run x.run).strands.find key = some { st with
            ready := st.ready.take st.closingsOut ++ [Beat.eos]
            closing := st.closing ++ [.producer x o 0] } ∧ t.flits = s.flits)) ∧
      (st.bound ≠ some x.elem →
        (∃ t, exec (.permit o num) s = .next t ∧ (t.run x.run).strands.find key =
          some { st with control := st.control ++ [.permit n x o] } ∧ t.flits = s.flits) ∧
        (∃ t, exec (.take o num) s = .next t ∧ (t.run x.run).strands.find key =
          some { st with control := st.control ++ [.take n x o] } ∧ t.flits = s.flits) ∧
        (∃ t, exec (.strclose o num) s = .next t ∧ (t.run x.run).strands.find key =
          some { st with
            control := st.control ++ [.close]
            closing := st.closing ++ [.consumer x o 0 (st.branchesAt x.elem)] } ∧ t.flits = s.flits)) ∧
      (∀ (index : BitVec 4) (branch : BitVec 3),
        (st.branches.length ≤ branch.toNat →
          exec (.strset o num index branch) s = .next ((s.taken x).illegalWord x (s.slotWord x)) ∧
          exec (.strocc o num index branch) s = .next ((s.taken x).illegalWord x (s.slotWord x))) ∧
        (∀ b : Branch, st.branches[branch.toNat]? = some b →
          (∀ v : Word, (index, v) ∈ [((0 : BitVec 4), BitVec.ofNat 64 b.gauge),
              (1, BitVec.ofNat 64 st.kp), (2, BitVec.ofNat 64 st.ki), (3, BitVec.ofNat 64 st.wmin),
              (4, BitVec.ofNat 64 st.wmax), (5, BitVec.ofNat 64 st.imax),
              (6, BitVec.ofNat 64 b.beats.length), (7, BitVec.ofInt 64 b.integ),
              (8, BitVec.ofNat 64 (if st.updated = s.cycle then st.wprodWas else st.wprod)),
              (9, BitVec.ofNat 64 (if st.updated = s.cycle then b.wconsWas else b.wcons)),
              (10, BitVec.ofNat 64 b.cap), (11, BitVec.ofNat 64 st.orph),
              (12, BitVec.ofNat 64 (b.flags % 8 + if st.kp = 0 ∧ st.ki = 0 then 0 else 8)),
              (13, BitVec.ofNat 64 st.wpbase), (14, BitVec.ofNat 64 b.wcbase)] →
            exec (.strocc o num index branch) s = .next ((s.taken x).emitOut x o (Tok.data v)) ∧
            (r.strsetOk key index.toNat branch.toNat x.lv = true → ∃ u : State,
              exec (.strset o num index branch) s = .next (u.emitOut x o (Tok.data v)) ∧
              (u.run x.run).strands.find key =
                some (st.writeReg index.toNat branch.toNat x.lv.toNat) ∧ u.flits = s.flits)) ∧
          (r.strsetOk key index.toNat branch.toNat x.lv = false →
            exec (.strset o num index branch) s =
              .next ((s.taken x).park x 0x0A (BitVec.ofNat 64 st.num))))))

/-- STRAND_BEAT_SEND, CONTROL_STRAND_REQUEST and TENSION_UPDATE (R160, R201, R258, R259, R261,
R262, R263). -/
def Obligations.StrandsCarryBeatsUnderTheTensionLoop : Prop :=
  (∀ (s : State) (r k : Nat) (x : Run) (st : Strand), s.runs.find r = some x →
    x.strands.find k = some st → s.haltedSite r st.elem = false →
    (∀ b rest, st.ready = b :: rest → x.room st = true → st.gateOpen b = true → st.closingsOut = 0 →
      ∃ t, exec (.strandBeatSend r k) s = .next t ∧ SameAround r s t ∧
        (t.run r).strands.find k = some { st with
          ready := rest
          branches := st.branches.map fun br =>
            if x.takesBeats br then { br with beats := br.beats ++ [b] } else br
          permit := if b.isData && st.gated then st.permit - 1 else st.permit
          sent := st.sent + 1 }) ∧
    (∀ b rest f o count cs, st.ready = b :: rest → x.room st = true → st.gateOpen b = true →
      st.closing = .producer f o count :: cs →
      ∃ u : State, exec (.strandBeatSend r k) s =
          .next (u.emitOut f o (Tok.data (BitVec.ofNat 64 count))) ∧ SameAround r s u ∧
        (u.run r).strands.find k = some { st with
          ready := rest
          branches := st.branches.map fun br =>
            if x.takesBeats br then { br with beats := br.beats ++ [b] } else br
          permit := if b.isData && st.gated then st.permit - 1 else st.permit
          closing := cs }) ∧
    (∀ b rest, st.ready = b :: rest → x.room st = false ∨ (b.isData = true ∧ st.gated = true ∧
      st.permit = 0) → exec (.strandBeatSend r k) s = .next s) ∧
    (∀ n f o rest, (∀ c ∈ st.closing, ∀ g p z w, c ≠ .consumer g p z w) →
      (st.control = .permit n f o :: rest → ∃ u : State, exec (.controlStrandRequest r k) s =
          .next (u.emitOut f o (Tok.data (BitVec.ofNat 64 (min (st.permit + n) 65535)))) ∧
        (u.run r).strands.find k = some { st with
          control := rest
          permit := min (st.permit + n) 65535 } ∧ u.mem = s.mem ∧ u.flits = s.flits) ∧
      (st.control = .take n f o :: rest → ∃ u : State, exec (.controlStrandRequest r k) s =
          .next (u.emitOut f o (Tok.data (BitVec.ofNat 64 (min n st.permit)))) ∧
        (u.run r).strands.find k = some { st with
          control := rest
          permit := st.permit - min n st.permit } ∧ u.mem = s.mem ∧ u.flits = s.flits)) ∧
    (∀ f o count i b before last after, st.control = [] → st.closing = [.consumer f o count [i]] →
      st.branches[i]? = some b → b.beats = before ++ last :: after → last.isEos = true →
      (∀ z ∈ before, z.isEos = false) →
      ∃ u : State, exec (.controlStrandRequest r k) s =
          .next (u.emitOut f o (Tok.data (BitVec.ofNat 64 (count + before.length + 1)))) ∧
        SameAround r s u ∧ (u.run r).strands.find k = some { st with
          closing := []
          orph := min (st.orph + before.length + 1) (2 ^ 32 - 1)
          branches := st.branches.set i { b with beats := after, flags := b.flags ||| 1 } })) ∧
  (∀ s : State,
    (s.cycle % 64 ≠ 0 → exec .tensionUpdate s = .next s) ∧
    (s.cycle % 64 = 0 → ∃ t, exec .tensionUpdate s = .next t ∧ t.mem = s.mem ∧ t.ctxs = s.ctxs ∧
      t.flits = s.flits ∧ ∀ r x k st, s.runs.find r = some x → x.strands.find k = some st →
        (x.halted = true ∨ (x.producer st = none ∧ ∀ b ∈ st.branches, x.consumer b = none) →
          (t.run r).strands.find k = some st) ∧
        (x.halted = false → (x.producer st ≠ none ∨ ∃ b ∈ st.branches, x.consumer b ≠ none) →
          ∃ y : Strand, (t.run r).strands.find k = some y ∧
          y.branches.length = st.branches.length ∧ (y.inForce s.cycle).wprod = st.wprod ∧
          ∀ (b : Branch) (i : Nat), st.branches[i]? = some b → ∃ b' : Branch, y.branches[i]? = some b' ∧
            b'.integ = (if x.frozenEmpty st b || x.frozenFull st b then b.integ
              else clampInt (b.integ + ((b.beats.length : Int) - b.gauge)) (-(st.imax : Int))
                st.imax) ∧
            b'.wcons = (clampInt ((b.wcbase : Int) + ((st.kp : Int) * ((b.beats.length : Int) -
              b.gauge) + (st.ki : Int) * b'.integ) / 256) st.wmin st.wmax).toNat ∧
            b'.beats = b.beats ∧
            ((∀ (j : Nat) (c : Branch), st.branches[j]? = some c →
                (c.beats.length : Int) - c.gauge ≤ (b.beats.length : Int) - b.gauge ∧
                (j < i → (c.beats.length : Int) - c.gauge < (b.beats.length : Int) - b.gauge)) →
              y.wprod = (clampInt ((st.wpbase : Int) - ((st.kp : Int) *
                ((b.beats.length : Int) - b.gauge) + (st.ki : Int) * b'.integ) / 256) st.wmin
                st.wmax).toNat))))

/-- END, RUN, WAIT, PHASE, BRANCH and LOOP move their thread; threads resume, tasks start, items
complete (R339, R340, R341, R343, R344). -/
def Obligations.SequencingWordsMoveTheirThread : Prop :=
  (∀ (s : State) (j t : Nat) (job : Job) (th : Thread), AtThread s j t job th →
    (job.starts = [] → ∃ u, exec .seqEnd s = .next u ∧ (u.job j).threads = job.threads.del t ∧
      u.runs = s.runs ∧ u.mem = s.mem) ∧
    (∀ g : BitVec 8, ∃ u x, exec (.seqRun g) s = .next u ∧ u.mem = s.mem ∧
      u.runs.find s.nextId = some x ∧ x.graph = g.toNat ∧ x.state = .waiting ∧ x.job = j ∧
      x.phase = job.phase ∧ x.age = s.cycle ∧ (u.job j).runs = job.runs ++ [s.nextId] ∧
      (u.queue job.queue).heads = (s.queue job.queue).heads ++ [⟨s.nextId, 0, false⟩] ∧
      (u.job j).threads.find t = some { th with
        step := th.step + 1
        wait := .run s.nextId
        runs := th.runs.put g.toNat s.nextId }) ∧
    (∀ g : BitVec 8, ∃ u, exec (.seqWait g) s = .next u ∧ u.runs = s.runs ∧ u.mem = s.mem ∧
      (th.runs.find g.toNat = none → (u.job j).threads.find t =
        some { th with step := th.step + 1, last := false, wait := .none }) ∧
      ∀ r, th.runs.find g.toNat = some r →
        (s.graphDone r = true → (u.job j).threads.find t =
          some { th with step := th.step + 1, last := s.graphCancelled r, wait := .none }) ∧
        (s.graphDone r = false → (u.job j).threads.find t = some { th with wait := .wait r })) ∧
    (∃ u, exec .seqPhase s = .next u ∧ u.runs = s.runs ∧ u.mem = s.mem ∧
      (s.phaseGraphsDone j job.phase = true → (u.job j).phase = job.phase + 1 ∧
        (u.job j).threads.find t = some { th with
          step := th.step + 1
          last := s.phaseCancelled j job.phase
          wait := .none }) ∧
      (s.phaseGraphsDone j job.phase = false → (u.job j).phase = job.phase ∧
        (u.job j).threads.find t = some { th with wait := .phase job.phase })) ∧
    (∀ (c : SeqCond) (tg : BitVec 16), ∃ u, exec (.seqBranch c tg) s = .next u ∧ u.runs = s.runs ∧
      u.mem = s.mem ∧ (u.job j).threads.find t = some { th with
        step := if c = .always ∨ (c = .cancelled ∧ th.last = true) ∨ (c = .normal ∧ th.last = false)
          then tg.toNat else th.step + 1 }) ∧
    (∀ (n : BitVec 32) (tg : BitVec 16), n ≠ 0 → ∃ u, exec (.seqLoop n tg) s = .next u ∧
      u.runs = s.runs ∧ u.mem = s.mem ∧ ∀ c, c = (if th.ctr = 0 then n.toNat else th.ctr) - 1 →
        (u.job j).threads.find t = some { th with
          ctr := c
          step := if c = 0 then th.step + 1 else tg.toNat })) ∧
  (∀ (s : State) (j t : Nat) (job : Job) (th : Thread), s.jobs.find j = some job →
    job.threads.find t = some th →
    (∀ r, th.wait = .run r → ((s.run r).hasStarted = false → exec (.seqThreadResume j t) s = .next s) ∧
      ((s.run r).hasStarted = true → ∃ u, exec (.seqThreadResume j t) s = .next u ∧
        u.runs = s.runs ∧ (u.job j).threads.find t = some { th with wait := .none })) ∧
    (∀ r, th.wait = .wait r → (s.graphDone r = false → exec (.seqThreadResume j t) s = .next s) ∧
      (s.graphDone r = true → ∃ u, exec (.seqThreadResume j t) s = .next u ∧ u.runs = s.runs ∧
        (u.job j).threads.find t =
          some { th with step := th.step + 1, last := s.graphCancelled r, wait := .none }))) ∧
  (∀ (s : State) (k home task j : Nat) (x y : Job) (e : Nat × Nat),
    s.pendingStarts[k]? = some (home, task) → s.taskJob home = some (j, x) →
    x.tasks[task]? = some e → s.jobs.find j = some y → y.threads.length < 16 →
    ∃ u, exec (.taskStart k) s = .next u ∧ u.pendingStarts = s.pendingStarts.eraseIdx k ∧
      (u.job j).threads = y.threads.put s.nextId (Thread.start e.1) ∧ u.mem = s.mem) ∧
  (∀ (s : State), s.cancelWaits = [] → Memory.wf s.mem = true →
    (∀ r p x, s.runs.find r = some x → s.launchReady r p = true →
      ∃ u v : State, exec (.itemCompletion (.launch r p)) s = .next u ∧
        ((u.run r).part p).done = true ∧ (∀ k, (u.run r).elems.find k ≠ none → partOf k ≠ p) ∧
        (s.trapReportDue r = none → u = v) ∧
        (∀ j job, s.trapReportDue r = some (j, job) → u = v.writeReport j job.report) ∧
        ∀ a, a < tileHome r p 0 0 0 ∨ tileHome r (p + 1) 0 0 0 ≤ a →
          memGet v.mem a = memGet s.mem a) ∧
    (∀ j job, s.jobs.find j = some job → s.jobReady j = true →
      ∃ u, exec (.itemCompletion (.job j)) s = .next u ∧ (u.job j).status.complete = true ∧
        u.runs = s.runs))

/-- Submission, validation, berthing, admission, the start of a launch and pre-emption (R348,
R338, R349, R350, R353, R64, R351, R354). -/
def Obligations.QueuesAreBerthedAndTheirHeadsAdmitted : Prop :=
  ∀ (s : State) (q : Nat) (y : Queue), y = s.queue q →
    (∀ tail, s.life.hmReady = false → exec (.queueDoorbell q tail) s = .next s) ∧
    (∀ tail, s.doorbellBusy q tail = true → exec (.queueDoorbell q tail) s = .next s) ∧
    (s.life.hmReady = true → q < 4096 → y.en = true → y.qtail < 65536 → s.nextJob + 1 < 2 ^ 32 →
      s.doorbellBusy q ((y.qtail + 1) % 65536) = false → ∃ u jb, exec (.queueDoorbell q ((y.qtail + 1) % 65536)) s = .next u ∧
        (u.queue q).qtail = (y.qtail + 1) % 65536 ∧ u.nextJob = s.nextJob + 1 ∧
        u.jobs.find s.nextJob = some jb ∧ jb.queue = q ∧ jb.record = y.recordVa y.qtail ∧
        jb.ctx = y.ctx ∧ jb.status.complete = false) ∧
    (s.life.hmReady = true → y.en = true → y.job = none → y.qhead ≠ y.qtail →
      (s.ctx y.ctx).state = .live → (∀ va, s.virtBusy y.ctx va = false) →
      ∃ u, exec (.jobValidate q) s = .next u ∧
        (u.queue q).qhead = (y.qhead + 1) % 65536 ∧
        ((u.queue q).job = some (s.jobAt q y.qhead).1 ∨
          ((u.queue q).job = none ∧ ((u.job (s.jobAt q y.qhead).1).status.complete = true ∨
            (u.job (s.jobAt q y.qhead).1).status.cancelled = true)))) ∧
    (y.job ≠ none ∨ y.qhead = y.qtail ∨ y.en = false ∨
      s.recordBusy y.ctx (y.recordVa y.qhead) = true → exec (.jobValidate q) s = .next s) ∧
    (∀ t b, y.anchored = some t → s.freeBerth y.die = some b → y.hasWork = true →
      (∀ z ∈ s.atAnchor y.die, t < z.2 ∨ (t = z.2 ∧ q ≤ z.1)) → (s.dies.get y.die).ready = true →
      s.life.hmReady = true → ∃ u, exec (.berthing q) s = .next u ∧
        u.queue q = { y with place := .berth b s.cycle } ∧ u.runs = s.runs ∧ u.mem = s.mem) ∧
    (∀ b since, y.place = .berth b since →
      (y.hasWork = false → s.queueRuns q = false → ∃ u, exec (.berthTenureExpiry q) s = .next u ∧
        u.queue q = { y with place := .anchor s.cycle } ∧ u.runs = s.runs) ∧
      (∀ w, s.waitStart y.die = some w → since < s.cycle →
        max since w + (s.dies.get y.die).berthq * 1400 ≤ s.cycle →
        ∃ u, exec (.berthTenureExpiry q) s = .next u ∧
          u.queue q = { y with place := .anchor s.cycle } ∧ u.runs = s.runs) ∧
      (y.hasWork = true → s.waitStart y.die = none → exec (.berthTenureExpiry q) s = .next s)) ∧
    (∀ d, (s.chooseBid d = none → exec (.admission d) s = .next s) ∧
      ∀ b xs x, s.chooseBid d = some b → s.fit b = some (.new xs []) →
        (∀ z ∈ xs, z.clash = []) → s.runs.find b.head.run = some x →
        ∃ u, exec (.admission d) s = .next u ∧ u.mem = s.mem ∧
          u.runs.find b.head.run = some { x with
            state := .loading
            admitted := s.cycle
            parts := placedParts x.plan xs } ∧
          ∀ z ∈ u.queues, ∀ h ∈ z.2.heads, h.run ≠ b.head.run) ∧
    (∀ r x, s.runs.find r = some x →
      (x.state ≠ .loading → exec (.graphSourceInjection r) s = .next s) ∧
      (x.state = .loading → (∀ p ∈ x.parts, p.done = false ∧ (s.dies.get p.die).power = 0) →
        ∃ u : State, exec (.graphSourceInjection r) s = .next (u.injectAll r) ∧
          u.runs.find r = some x.loadPlanes ∧ u.ctxs = s.ctxs ∧ u.flits = s.flits ∧
          x.loadPlanes.state = .running ∧ ∀ k ∈ x.keysOf .lace, ∃ e,
            x.loadPlanes.elems.find k = some e ∧ e.acts = [] ∧ e.waiting = [] ∧ e.parked = [])) ∧
    (∀ d, (s.urgentBid d = none → exec (.preemption d) s = .next s) ∧
      ∀ b r x, s.urgentBid d = some b → s.victim d = some (r, x) → x.twin = none →
        (∀ z ∈ s.runs, z.2.freeze = none) →
        exec (.preemption d) s = .next (s.startFreeze r (!s.parkSuffices b r)))

/-- FREEZE_WAVE, FREEZE_COMPLETE, PLANE_SWITCH and LAUNCH_RESTORE (R81, R358, R360, R361, R362,
R363, R364, R365, R398). -/
def Obligations.LaunchesFreezeAndThaw : Prop :=
  ∀ (s : State) (r : Nat) (x : Run), s.runs.find r = some x →
    (∀ out command, x.freeze = some ⟨none, out, command⟩ → x.state = .running →
      ((∃ w ∈ s.waves, w.2.run = r ∧ w.2.todo ≠ []) → exec (.freezeWave r) s = .next s) ∧
      ((∀ w ∈ s.waves, w.2.run = r → w.2.todo = []) → ∃ t, exec (.freezeWave r) s = .next t ∧ t.mem = s.mem ∧
        t.ctxs = s.ctxs ∧ t.runs.find r = some { x with freeze := some ⟨some s.cycle, out, command⟩ })) ∧
    (∀ start out command, x.freeze = some ⟨some start, out, command⟩ →
      (s.freezeReady r start = false → exec (.freezeComplete r out) s = .next s) ∧
      (s.freezeReady r start = true → out = false → ∃ t y, exec (.freezeComplete r out) s = .next t ∧
        t.mem = s.mem ∧ t.ctxs = s.ctxs ∧ t.runs.find r = some y ∧ y.state = .frozen ∧
        y.freeze = none ∧ y.parts.length = x.parts.length ∧
        (∀ p ∈ y.parts, p.done = true ∨ p.state = .parked) ∧ y.trapRegs = x.trapRegs ∧
        y.frames = x.frames ∧ y.tiles = x.tiles ∧ y.cmds = x.cmds ∧ y.strands = x.strands ∧
        (∀ k e, x.elems.find k = some e → ∃ z, y.elems.find k = some z ∧ z.holds = e.holds ∧
          z.waiting = e.waiting.map (fun w => { w with at_ := s.cycle - w.at_ }) ∧
          z.parked = e.parked ∧ z.acts.map Act.uid = e.acts.map Act.uid)) ∧
      (s.freezeReady r start = true → out = true → (s.parkRun r).imageBusy r = false →
        ∃ t y, exec (.freezeComplete r out) s = .next t ∧ t.ctxs = s.ctxs ∧
          t.runs.find r = some y ∧ y.state = .frozen ∧ y.freeze = none ∧ y.trapRegs = x.trapRegs ∧
          ((∀ p ∈ y.parts, p.done = true ∨ p.state = .frozenOut) ∨
            (t.mem = s.mem ∧ ∀ p ∈ y.parts, p.done = true ∨ p.state = .tooSmall)))) ∧
    (x.state ≠ .frozen → exec (.planeSwitch r) s = .next s ∧
      ∀ parts, exec (.launchRestore r parts) s = .next s) ∧
    (x.state = .frozen → s.planesFree r = true →
      (∀ p ∈ x.parts, p.done = true ∨ p.state = .switching) → s.thawBusy r = false →
      (x.atBreak = true → x.out = true → s.restoreQueued r = true) →
      (s.sleeping r = false → exec (.planeSwitch r) s = .next (s.thaw r)) ∧
      (s.sleeping r = true → exec (.planeSwitch r) s = .next (s.callDies r))) ∧
    (x.state = .frozen → (∀ p ∈ x.parts, (s.dies.get p.die).power = 0 ∧
        (p.done = true ∨ p.state = .loading)) → s.thawBusy r = false →
      (x.imageRefusal = none →
        exec (.launchRestore r (x.parts.map fun p => (p.die, p.row * 4 + p.col))) s =
          .next (s.thaw r)) ∧
      ∀ w, x.imageRefusal = some w → ∃ t,
        exec (.launchRestore r (x.parts.map fun p => (p.die, p.row * 4 + p.col))) s = .next t ∧
        ∀ p < x.parts.length, ((t.run r).part p).done = true) ∧
    (x.inbox = [] → x.trapQueue = [] → s.reqs = [] →
      (∀ z ∈ x.elems, z.2.parked = [] ∧ ∀ a ∈ z.2.acts, a.stores = []) →
      x.out = false →
      ∃ y, (s.thaw r).runs.find r = some y ∧ y.state = .running ∧
        (∀ p ∈ y.parts, p.done = true ∨ p.state = .running) ∧ y.trapRegs = x.trapRegs ∧
        (s.thaw r).mem = s.mem ∧
        ((s.thaw r).ctx x.ctx).regs = (s.ctx x.ctx).regs) ∧
    (∀ (tr : TrapRec) (te : Nat), x.trapElem = some te → x.halted = true → x.presented = none →
      (s.trap r tr).runs.find r = some { x with
        trapSeq := (x.trapSeq + 1) % 65536
        trapQueue := x.trapQueue ++ [{ tr with seq := x.trapSeq }] })

/-- CREATE, SWITCHOUT, RESTORE, DESTROY and the invalidation of translations (R357, R369, R371,
R382, R383, R409). -/
def Obligations.ContextCommandsOpenAndCloseContexts : Prop :=
  ∀ (s : State) (c : Nat) (x : Ctx), s.ctxs.find c = some x →
    (x.state ≠ .busy → exec (.create c) s = .next s ∧ exec (.switchout c) s = .next s ∧
      exec (.switchoutDrainEnd c) s = .next s ∧ exec (.restore c) s = .next s ∧
      exec (.destroy c) s = .next s) ∧
    (x.pends 1 = true → s.life.hmReady = true →
      (∀ e : Nat, (x.prior ≠ .free ∧ e = 1) ∨
          (x.prior = .free ∧ s.life.devid = 255 ∧ e = 6) ∨
          (x.prior = .free ∧ s.life.devid ≠ 255 ∧ x.malformed = true ∧ e = 2) ∨
          (x.prior = .free ∧ s.life.devid ≠ 255 ∧ x.malformed = false ∧ s.regionsOk c = false ∧
            e = 3) ∨
          (x.prior = .free ∧ s.life.devid ≠ 255 ∧ x.malformed = false ∧ s.regionsOk c = true ∧
            s.quarantined (s.life.devid * 65536 + x.reqnum) = true ∧ e = 5) →
        ∃ t, exec (.create c) s = .next t ∧ t.ctxs.find c = some { x with
          cmdstatus := e, state := x.prior, command := 0, drainEnd := none } ∧ t.mem = s.mem) ∧
      (x.prior = .free → s.life.devid ≠ 255 → x.malformed = false → s.regionsOk c = true →
        s.quarantined (s.life.devid * 65536 + x.reqnum) = false →
        ∃ t y, exec (.create c) s = .next t ∧ t.mem = s.mem ∧ t.ctxs.find c = some y ∧
          y.state = .live ∧ y.cmdstatus = 0 ∧ y.far.id = s.life.devid * 65536 + x.reqnum ∧
          y.far.serialNext = 0 ∧ y.regs = { Ctx.reset.regs with ctxbase := x.ctxbase0 } ∧
          y.colours = [] ∧ y.cams = [])) ∧
    (x.pends 2 = true → x.prior ≠ .live → ∃ t, exec (.switchout c) s = .next t ∧
      t.ctxs.find c = some { x with
        cmdstatus := 1, state := x.prior, command := 0, drainEnd := none } ∧ t.runs = s.runs) ∧
    (∀ r z, x.pends 2 = true → x.prior = .live → s.runs = [(r, z)] → z.placed c = true →
      z.state ≠ .frozen → z.freeze = none → ∃ t, exec (.switchout c) s = .next t ∧
        t.runs = [(r, { z with freeze := some ⟨none, false, true⟩ })] ∧ t.mem = s.mem) ∧
    (x.pends 2 = true → x.prior = .live → s.runs = [] → x.far.outstanding ≠ [] →
      (x.drainEnd = none → ∃ t, exec (.switchoutDrainEnd c) s = .next t ∧
        t.ctxs.find c = some { x with drainEnd := some (s.cycle + s.life.drainmax * 1400) }) ∧
      (∀ e, x.drainEnd = some e → s.cycle < e → exec (.switchoutDrainEnd c) s = .next s)) ∧
    (x.pends 2 = true → x.prior = .live → s.runs = [] → x.far.outstanding = [] →
      (∀ va, s.virtBusy c va = false) → ∃ t y, exec (.switchoutDrainEnd c) s = .next t ∧
        t.ctxs.find c = some y ∧ y.regs = x.regs ∧
        ((y.state = .out ∧ y.cmdstatus = 0 ∧ y.saved = some (s.savedCtx c)) ∨
          (y.state = .live ∧ y.cmdstatus = 4 ∧ t.mem = s.mem))) ∧
    (x.pends 3 = true → s.life.hmReady = true → x.prior ≠ .free →
      ∃ t, exec (.restore c) s = .next t ∧ t.ctxs.find c = some { x with
        cmdstatus := 1, state := x.prior, command := 0, drainEnd := none } ∧ t.mem = s.mem) ∧
    (∀ bytes, x.pends 3 = true → s.life.hmReady = true → s.openError c = none →
      s.virtRead c (bits x.savebase 0 55) (min recordRoom x.savesize.toNat) = some bytes →
      (∀ src v y, s.savedHere bytes = some (src, v) → s.quarantined v.far.id = false →
        s.ctxs.find src = some y → ∃ t z, exec (.restore c) s = .next t ∧ t.ctxs.find c = some z ∧
          z.state = .live ∧ z.cmdstatus = 0 ∧ z.regs = y.regs ∧ z.colours = y.colours ∧
          z.cams = y.cams ∧ z.far.id = y.far.id ∧ z.far.serialNext = y.far.serialNext ∧
          t.mem = s.mem) ∧
      (∀ v n, s.savedHere bytes = none → Config.savedOf s.nextId bytes = some (v, n) →
        s.quarantined v.far.id = false → ∃ t z, exec (.restore c) s = .next t ∧
          t.ctxs.find c = some z ∧ z.state = .live ∧ z.cmdstatus = 0 ∧ z.regs = v.regs ∧
          z.colours = v.colours ∧ z.cams = v.cams ∧ z.far.id = v.far.id ∧
          z.far.serialNext = v.far.serialNext)) ∧
    (x.pends 4 = true → x.prior ≠ .live → x.prior ≠ .out → ∃ t, exec (.destroy c) s = .next t ∧
      t.ctxs.find c = some { x with
        cmdstatus := 1, state := x.prior, command := 0, drainEnd := none } ∧ t.mem = s.mem) ∧
    (x.pends 4 = true → x.prior = .live ∨ x.prior = .out → s.jobs = [] → s.runs = [] →
      ∃ t, exec (.destroy c) s = .next t ∧ t.mem = s.mem ∧ t.ctxs.find c = some Ctx.reset ∧
        t.quarantine.find x.far.id = some (s.cycle + 2800000000)) ∧
    (s.life.hmReady = true → ∃ t, exec .tlbinv s = .next t ∧ t.mem = s.mem ∧
      t.tlbinv.done = false ∧ ∀ e, e ∈ t.tlb ↔ e ∈ s.tlb ∧
        ¬ (e.ctx = s.tlbinv.ctx ∧ s.tlbinv.has e.va e.size = true)) ∧
    (s.tlbinv.done = false → (∀ k ∈ s.tlbinv.waits, k ∉ s.translated s.tlbinv) →
      ∃ t, exec .tlbinvDone s = .next t ∧ t.tlbinv.done = true ∧ t.tlb = s.tlb) ∧
    ((∃ k ∈ s.tlbinv.waits, k ∈ s.translated s.tlbinv) → exec .tlbinvDone s = .next s)

/-- The requester: issue with a serial, resends, replies and the end of the lifetime (R372, R373,
R375, R377, R113). -/
def Obligations.FarRequestsAreIssuedResentAndAnswered : Prop :=
  ∀ (s : State) (c : Nat) (x : Ctx), s.ctxs.find c = some x →
    (∀ n, s.issues c = false → exec (.farRequestIssue c n) s = .next s) ∧
    (x.state = .live → s.issues c = true) ∧ (x.state ≠ .live → x.prior ≠ .live → s.issues c = false) ∧
    (∀ n w, s.issues c = true → x.far.waiting.find n = some w → s.waitFrozen w = false →
      (w.serialled = true → x.far.windowOpen = false → exec (.farRequestIssue c n) s = .next s) ∧
      (w.serialled = false ∨ x.far.windowOpen = true → ∃ (t : State) (q : FarReq),
        exec (.farRequestIssue c n) s = .next t ∧ t.mem = s.mem ∧
        (t.ctx c).far.outstanding = x.far.outstanding ++ [q] ∧ q.req = w.req ∧
        q.firing = w.firing ∧ q.since = s.cycle ∧ q.packet.fs = q.fs ∧ q.packet.id = x.far.id ∧
        q.packet.dst = w.packet.dst ∧ q.packet.body = w.packet.body ∧ q.interval = 28000 ∧
        (w.serialled = true → q.fs = x.far.fullNext ∧
          (t.ctx c).far.serialNext = (x.far.serialNext + 1) % 65536) ∧
        (s.reaches w.packet.dst = true → ∃ p, t.packetsOut = s.packetsOut ++ [p] ∧ p.fs = q.fs ∧
          p.body = w.packet.body ∧ p.src = s.life.devid) ∧
        (s.reaches w.packet.dst = false → t.packetsOut = s.packetsOut))) ∧
    (∀ fs q, x.farReq fs = some q → x.resends = true → q.expired = false →
      (s.cycle < q.next → exec (.retransmit c fs) s = .next s) ∧
      (q.next ≤ s.cycle → s.cycle < q.since + 1400000000 → ∃ t, exec (.retransmit c fs) s = .next t ∧
        t.mem = s.mem ∧
        (t.ctx c).far.outstanding = (x.far.outstanding.map fun y => if y.fs = fs then
          { y with
            interval := if q.busy then q.interval else min (2 * q.interval) 1400000
            next := s.cycle + if q.busy then q.interval else min (2 * q.interval) 1400000
            busy := false } else y) ∧
        (s.reaches q.packet.dst = true → ∃ p, t.packetsOut = s.packetsOut ++ [p] ∧
          p.fs = q.packet.fs ∧ p.body = q.packet.body)) ∧
      (s.cycle < q.since + 1400000000 → exec (.retransmitLifetimeExpiry c fs) s = .next s) ∧
      (q.since + 1400000000 ≤ s.cycle → exec (.retransmitLifetimeExpiry c fs) s =
        .next ((s.editFarReq c fs fun y => { y with expired := true }).trapFar c q))) ∧
    (∀ p, s.replyCtx p = none → exec (.remoteReply p) s = .next s) ∧
    (∀ p q, s.replyCtx p = some (c, q) →
      (p.body = .busy → ∃ t, exec (.remoteReply p) s = .next t ∧ t.packetsOut = s.packetsOut ∧
        (t.ctx c).far.outstanding = x.far.outstanding.map fun y => if y.fs = q.fs then
          { y with next := s.cycle + y.interval, busy := true } else y) ∧
      (∀ cause, p.body = .faultReply cause → exec (.remoteReply p) s = .next (s.refuseFar c q)) ∧
      (∀ v fl kind block, p.body = .reply v fl kind block →
        exec (.remoteReply p) s = .next (s.answered c q v fl kind block) ∧
        ∀ dest pay bits, q.packet.body = .token dest pay bits → v = 0 → ∃ t,
          exec (.remoteReply p) s = .next t ∧ t.mem = s.mem ∧ t.flits = s.flits ∧
          (t.ctx c).far.outstanding = x.far.outstanding.filter fun y => y.fs != q.fs)) ∧
    (∀ q f r, q.firing = some (f, r) → s.trapsAt f = true →
      s.trapFar c q = s.trap f.run (s.trapRecord f 0x10 (packetPlace q.packet) (.far c q.fs)))

/-- The owner: one performance per serial, its cache, mark queries, tombstones, quarantine and
restart (R375, R376, R378, R381, R383, R384). -/
def Obligations.OwnersPerformEachFarRequestOnce : Prop :=
  ∀ (s : State),
    (∀ p op sz ea d d2 block c ser, p.body = .request op sz ea d d2 block c ser →
      ((s.ctx c).state = .free → exec (.ownerRequest p) s = .next (s.answerTo p (.faultReply 0x10))) ∧
      ((s.ctx c).state = .busy →
        (s.ownerOf p = none → exec (.ownerRequest p) s = .next (s.answerTo p .busy)) ∧
        (∀ o, s.ownerOf p = some o → exec (.ownerRequest p) s =
          .next ((s.editOwner o fun y => { y with busycnt := min (y.busycnt + 1) 65535 }).answerTo p
            .busy))) ∧
      ((s.ctx c).state = .live ∨ (s.ctx c).state = .out →
        (∀ cause, s.ownerHome c op ea = .error cause →
          exec (.ownerRequest p) s = .next (s.answerTo p (.faultReply cause))) ∧
        (∀ a (t : State), s.ownerHome c op ea = .ok a → s.awake a = true → ser = true →
          t = s.noteMark (homeQuay a) p.id p.mark p.src →
          (∀ i e, (((t.owner (homeQuay a)).entries p.id).find? fun z => z.2.fs = p.fs) = some (i, e) →
            e.bar = none →
            exec (.ownerRequest p) s = .next (t.answerTo p (.reply e.result e.flags e.kind []))) ∧
          ((((t.owner (homeQuay a)).entries p.id).find? fun z => z.2.fs = p.fs) = none →
            serialBehind p.fs (((t.owner (homeQuay a)).high p.id).getD p.mark) = true →
            exec (.ownerRequest p) s = .next t) ∧
          (∀ (i : Nat) (m : MemOp) (v : Word) (fl : Nat) (empty : Bool) (u : State),
            (((t.owner (homeQuay a)).entries p.id).find? fun z => z.2.fs = p.fs) = none →
            serialBehind p.fs (((t.owner (homeQuay a)).high p.id).getD p.mark) = false →
            (t.owner (homeQuay a)).freeSlot = some i → t.blockBusy a = false → op ≠ opReadBlock →
            op ≠ opWriteBlock → opOfCode op = some m →
            t.perform m sz a d d2 = .done v fl empty u → ∃ w : State,
              exec (.ownerRequest p) s = .next ((w.putSlot (homeQuay a) i
                ⟨p.id, ((t.owner (homeQuay a)).high p.id).getD p.mark, w.cycle, w.cycle, none,
                  .entry ⟨p.fs, v, fl, if empty then 2 else 0, p.src, none⟩⟩).answerTo p
                (.reply v fl (if empty then 2 else 0) [])))) ∧
        (∀ a (t : State), s.ownerHome c op ea = .ok a → s.awake a = true → ser = false →
          t = s.noteMark (homeQuay a) p.id p.mark p.src → op = opReadBlock → t.blockBusy a = false →
          t.poisoned a = false → exec (.ownerRequest p) s = .next (t.answerTo p
            (.reply (BitVec.ofNat 64 (t.sideOf a).descr) 0 0 (t.block a)))))) ∧
    (∀ p body, ∃ t, s.answerTo p body = t ∧ t.mem = s.mem ∧ t.reqs = s.reqs ∧ t.runs = s.runs ∧
      (s.reaches p.src = true → ∃ a, t.packetsOut = s.packetsOut ++ [a] ∧ a.dst = p.src ∧
        a.id = p.id ∧ a.fs = p.fs ∧ a.body = body)) ∧
    (∀ o id i e rest z, (s.owner o).entries id = (i, e) :: rest → (s.owner o).slotOf id = some z →
      (s.cycle < z.asked + 1400000 → exec (.markQuery o id) s = .next s) ∧
      (z.asked + 1400000 ≤ s.cycle → ∃ t, exec (.markQuery o id) s = .next t ∧ t.mem = s.mem ∧
        (∀ w ∈ (t.owner o).slots, w.2.id = id → w.2.asked = s.cycle) ∧
        (s.reaches e.reply = true → ∃ a, t.packetsOut = s.packetsOut ++ [a] ∧ a.dst = e.reply ∧
          a.id = id ∧ a.body = .markQuery))) ∧
    (∀ p, p.body = .markQuery → s.reaches p.src = true → ∃ a,
      exec (.markQueryAnswer p) s = .next { s with packetsOut := s.packetsOut ++ [a] } ∧
      a.dst = p.src ∧ a.id = p.id ∧ (s.markOf p.id = none → a.body = .gone) ∧
      ∀ m, s.markOf p.id = some m → a.body = .markAnswer ∧ a.mark = m) ∧
    (∀ o p, (p.body = .markAnswer →
        exec (.markAnswerReceipt o p) s = .next (s.noteMark o p.id p.mark p.src)) ∧
      (p.body = .gone → ∃ t, exec (.markAnswerReceipt o p) s = .next t ∧ t.mem = s.mem ∧
        (t.owner o).slots = (s.owner o).slots.map fun z => if z.2.id = p.id then
          (z.1, { z.2 with gone := some (z.2.gone.getD s.cycle) }) else z)) ∧
    (∀ o id z due, (s.owner o).slotOf id = some z →
      due = (z.gone.map fun g => g + 2800000000).getD (z.last + 1401400000) →
      (s.cycle < due → exec (.goneWaitExpiry o id) s = .next s) ∧
      (due ≤ s.cycle → ∃ u : State, u = s.retireEntries o id (fun _ => true) ∧
        exec (.goneWaitExpiry o id) s = .next (u.editOwner o fun y => { y with
          orphaned := min (y.orphaned + ((s.owner o).entries id).length) 65535 }))) ∧
    (∀ o id i z d, (s.owner o).ofId id = [(i, z)] → z.body = .tombstone d →
      (s.cycle < d → exec (.tombstoneFree o id) s = .next s) ∧
      (d ≤ s.cycle → exec (.tombstoneFree o id) s = .next (s.dropSlot o i))) ∧
    (∀ id d, s.quarantine.find id = some d →
      (s.cycle < d → exec (.quarantineExpiry id) s = .next s) ∧
      (d ≤ s.cycle → exec (.quarantineExpiry id) s =
        .next { s with quarantine := s.quarantine.del id })) ∧
    (∀ o, o ≤ 384 → ∃ t, exec (.quayRestart o) s = .next t ∧ t.mem = s.mem ∧
      (t.owner o).slots = shareHigh (s.rebuilt o) ∧
      (t.owner o).restarts = min ((s.owner o).restarts + 1) 65535)

/-- The device's own events: errors, replay, tests, readiness, power, mailbox, reset, registers
(R393, R394, R397, R401, R403, R404, R406, R407, R408, R409, R413, R415). -/
def Obligations.DeviceEventsKeepTheDevice : Prop :=
  ∀ (s : State),
    (∀ q cs us x, s.dies.find (q / 16) = some x → q < 384 →
      (x.hbmReady = false ∨ 1 < x.power → exec (.scrub q cs us) s = .next s) ∧
      (x.hbmReady = true → x.power ≤ 1 → ∃ t : State, exec (.scrub q cs us) s = .next t ∧
        t.mem = s.mem ∧ (∀ a ∈ us, a < 2 ^ 48 → homeQuay a = q → (t.sideOf a).poison = true) ∧
        (∀ a, (t.sideOf a).version = (s.sideOf a).version) ∧
        t.dies.find (q / 16) = some { x with
          hbmce := min (x.hbmce + (cs.filter fun a => a < 2 ^ 48 && homeQuay a = q).length) 65535
          ue := min (x.ue + (us.filter fun a => a < 2 ^ 48 && homeQuay a = q).length) 255 })) ∧
    (∀ d x, s.dies.find d = some x →
      (s.life.hmReady = false → exec (.errcntClear d) s = .next s) ∧
      (s.life.hmReady = true → ∃ t : State, exec (.errcntClear d) s = .next t ∧ t.side = s.side ∧
        t.dies.find d = some { x with hbmce := 0, soft := 0, ue := 0, linkretry := 0 })) ∧
    (∀ n w old new x c, s.waves.find n = some w → w.replay = some old → s.runs.find w.run = some x →
      s.ctxs.find x.ctx = some c →
      (w.todo ≠ [] ∨ s.asksColour w = false ∨ s.colnewFirst w = true →
        exec (.replayReissue n) s = .next s) ∧
      (s.asksColour w = true → s.colnewFirst w = false → c.roomAt (s.askLevel w) = true →
        c.replacement s.nextId = some new → (c.colour old).state ≠ .free → ∃ u : State, exec (.replayReissue n) s =
          .next (x.elems.foldl (fun (s : State) e => s.reissueAt w.run e.1 old new) u) ∧
        u.mem = s.mem ∧ u.waves = s.waves.del n ∧ ((u.ctx x.ctx).colour old).alias_ = some new ∧
        ((u.ctx x.ctx).colour new).state = .allocated ∧
        ((u.ctx x.ctx).colour new).replays = (c.colour old).replays + 1)) ∧
    (∀ d c x y, s.dies.find d = some x → x.clusters.find c = some y →
      (y.withheld = true ∨ y.ready = false ∨ y.state = .retired ∨ s.testDue d y = false →
        exec (.bistDue d c) s = .next s) ∧
      (s.life.hmReady = true → y.ready = true → y.withheld = false → y.state ≠ .retired →
        s.testDue d y = true → (∀ z ∈ x.clusters, z.1 ≠ c → z.2.holdsTest y = false) →
        ∃ t : State, exec (.bistDue d c) s = .next t ∧ t.clusterSt d c = { y with withheld := true } ∧
        ∀ k, k ≠ c → t.clusterSt d k = { s.clusterSt d k with withheld := false }) ∧
      ((∃ z ∈ x.clusters, z.1 ≠ c ∧ z.2.holdsTest y = true) → exec (.bistDue d c) s = .next s) ∧
      (y.withheld = true → y.testing = false → s.planesAt d c = [] → x.power = 0 → ∃ t : State,
        exec (.bistRun d c) s = .next t ∧ t.clusterSt d c = { y with
          testing := true
          tests := min (y.tests + 1) 4294967295
          due := s.cycle + s.life.testperiod * 1400000000 }) ∧
      (s.planesAt d c ≠ [] → exec (.bistRun d c) s = .next s) ∧
      (y.testing = false → ∀ fr p, exec (.bistResult d c fr p) s = .next s) ∧
      (y.testing = true → ∀ fr, ∃ t : State, exec (.bistResult d c fr true) s = .next t ∧
        t.clusterSt d c = { y with
          testing := false
          withheld := false
          avoid := false
          state := if y.state = .suspect then .normal else y.state }) ∧
      (y.testing = true → ∃ t : State, exec (.bistResult d c none false) s = .next t ∧
        (y.state = .normal ∨ y.state = .suspect → (t.clusterSt d c).state = .bin1) ∧
        (y.state = .bin1 → (t.clusterSt d c).state = .bin2) ∧
        (y.state = .bin2 ∨ y.state = .retired → (t.clusterSt d c).state = .retired ∧
          (t.clusterSt d c).ready = false))) ∧
    (∀ fn, s.life.inA4 = true → exec (.functionReady fn) s = .next s) ∧
    (s.life.inA4 = false →
      (exec (.functionReady .hm) s = .next { s with life := { s.life with hmReady := true } }) ∧
      (∀ n l, s.links.find n = some l →
        (s.life.devid = 255 → exec (.functionReady (.link n)) s = .next s) ∧
        (s.life.devid ≠ 255 → ∃ t : State, exec (.functionReady (.link n)) s = .next t ∧
          t.links.find n = some { l with state := 2, lanes := 8, ready := true })) ∧
      ∀ d x, s.dies.find d = some x →
        (∃ t : State, exec (.functionReady (.hbm d)) s = .next t ∧
          t.dies.find d = some { x with hbmReady := true }) ∧
        (x.hbmReady = false → exec (.functionReady (.die d)) s = .next s) ∧
        (x.hbmReady = true → ∃ t : State, exec (.functionReady (.die d)) s = .next t ∧
          t.dies.find d = some { x with ready := true }) ∧
        (x.ready = false → (∀ n, exec (.functionReady (.lighter d n)) s = .next s) ∧
          ∀ c, exec (.functionReady (.cluster d c)) s = .next s) ∧
        (x.ready = true → (∀ n < 4, ∃ t : State, exec (.functionReady (.lighter d n)) s = .next t ∧
            t.dies.find d = some { x with lighters := setBit x.lighters n }) ∧
          ∀ c y, x.clusters.find c = some y → y.state ≠ .retired → ∃ t : State,
            exec (.functionReady (.cluster d c)) s = .next t ∧
            t.clusterSt d c = { y with ready := true })) ∧
    (∀ d x p, s.dies.find d = some x → d < 24 →
      p = powerFor (min x.ltol s.life.pwrdevLtol) (!(s.partsOn d).isEmpty) →
      (s.idleDie d = false ∨ p ≤ x.power → exec (.diePowerDown d) s = .next s) ∧
      (s.idleDie d = true → x.power < p → x.ready = true → s.life.hmReady = true → ∃ t : State,
        exec (.diePowerDown d) s = .next t ∧ t.dies.find d = some { x with
          power := p
          slept := if x.power = 0 then s.cycle else x.slept }) ∧
      (x.power = 0 ∨ s.dieCalled d = false ∨ s.cycle < x.slept + 1400 →
        exec (.dieWake d) s = .next s) ∧
      (x.power ≠ 0 → s.dieCalled d = true → x.slept + 1400 ≤ s.cycle → ∃ t : State,
        exec (.dieWake d) s = .next t ∧ t.mem = s.mem ∧ t.dies.find d = some { x with
          power := 0
          wakes := x.wakes + 1
          called := false
          clusters := x.clusters.map fun z => (z.1, { z.2 with due := z.2.due + (s.cycle - x.slept) }) } ∧
        (x.power ≠ 3 → t.owners = s.owners) ∧
        (x.power = 3 → ∀ q < 16, (t.owner (16 * d + q)).restarts =
          min ((s.owner (16 * d + q)).restarts + 1) 65535))) ∧
    (exec .thermalThrottle s = .next { s with life := { s.life with throttle := true } }) ∧
    (exec .thermalThrottleRelease s =
      .next { s with life := { s.life with throttle := false } }) ∧
    (∀ i ∈ [Instr.thermalShutdown, .powerLoss], ∃ t : State, exec i s = .next t ∧ t.mem = [] ∧
      t.runs = [] ∧ t.life.inA4 = true ∧ t.life.hmReady = false ∧ t.life.devid = 255 ∧
      t.life.fwmin = s.life.fwmin ∧ t.life.xmssidx = s.life.xmssidx ∧
      (i = .thermalShutdown → t.life.thermalCause = true)) ∧
    (∃ t : State, exec .powerOnReset s = .next t ∧ t.mem = [] ∧ t.runs = [] ∧ t.cycle = 0 ∧
      t.ctxs = State.reset.ctxs ∧ t.dies = State.reset.dies ∧ t.life.inA4 = false ∧
      t.life.xmssidx = s.life.xmssidx ∧ s.life.fwmin ≤ t.life.fwmin ∧
      (s.life.staged = none → t.life.fwver = s.life.fwver)) ∧
    (∀ p ∈ [(1, Instr.resync), (2, .attest), (3, .fwload), (4, .imgkey), (5, .poweroff),
        (6, .poweron)], s.life.mbBusy = false ∨ s.life.mbCmd ≠ p.1 → exec p.2 s = .next s) ∧
    (s.resyncRecord.length = 0x1D800) ∧
    (s.life.mbBusy = true → ∀ a, a = s.life.mbaddr.toNat →
      (s.life.mbCmd = 1 → (s.buffer a 131072 4096 = false → exec .resync s =
          .next (s.endMailbox 1)) ∧
        (s.buffer a 131072 4096 = true → exec .resync s =
          .next ((s.appWrite a s.resyncRecord).endMailbox 0))) ∧
      (s.life.mbCmd = 2 → (1048576 ≤ s.life.xmssidx → exec .attest s = .next (s.endMailbox 4)) ∧
        (s.life.xmssidx < 1048576 → s.buffer a 4096 1 = true →
          s.buffer s.life.mbarg.toNat 32 1 = true → ∃ t : State, exec .attest s = .next t ∧
            t.life.xmssidx = s.life.xmssidx + 1 ∧ t.life.mbStatus = 0 ∧ t.life.mbBusy = false)) ∧
      (s.life.mbCmd = 3 → ∀ image, image = s.bytes (appHome a) s.life.mbarg.toNat →
        s.life.mbarg.toNat ≠ 0 → s.buffer a s.life.mbarg.toNat 1 = true →
        (Config.firmwareOf image = none → exec .fwload s = .next (s.endMailbox 2)) ∧
        ∀ v fl m sig, Config.firmwareOf image = some (v, fl, m, sig) →
          (xmssVerify Config.vendorKey m sig = false →
            exec .fwload s = .next (s.endMailbox 2)) ∧
          (xmssVerify Config.vendorKey m sig = true →
            (v < s.life.fwmin → exec .fwload s = .next (s.endMailbox 3)) ∧
            (s.life.fwmin ≤ v → ∃ t : State, exec .fwload s = .next t ∧
              t.life.staged = some image ∧ t.life.mbStatus = 0 ∧ t.life.fwver = s.life.fwver))) ∧
      (s.life.mbCmd = 4 → s.buffer a 64 1 = true → ∃ t : State, exec .imgkey s = .next t ∧
        t.life.imgkey = s.bytes (appHome a) 64 ∧ t.life.mbStatus = 0 ∧ t.mem = s.mem) ∧
      (s.life.mbCmd = 5 → (s.life.mbMgmt = false → exec .poweroff s = .next (s.endMailbox 5)) ∧
        (s.life.mbMgmt = true → s.mayPowerOff = false →
          exec .poweroff s = .next (s.endMailbox 7)) ∧
        (s.life.mbMgmt = true → s.mayPowerOff = true → ∃ t : State, exec .poweroff s = .next t ∧
          t.life.inA4 = true ∧ t.mem = [] ∧ t.life.mbStatus = 0)) ∧
      (s.life.mbCmd = 6 → (s.life.mbMgmt = false → exec .poweron s = .next (s.endMailbox 5)) ∧
        (s.life.mbMgmt = true → ∃ t : State, exec .poweron s = .next t ∧
          t.life.inA4 = false ∧ t.runs = [] ∧ t.life.hmReady = false))) ∧
    (∀ v : BitVec 8, v ≠ 255 →
      ((∀ c ∈ s.ctxs, c.2.state = .free) → exec (.devidWrite v) s =
        .next { s with life := { s.life with devid := v.toNat } }) ∧
      ((∃ c ∈ s.ctxs, c.2.state ≠ .free) → exec (.devidWrite v) s = .next s)) ∧
    (exec (.devidWrite 255) s = .next s) ∧
    (∀ a v m, (a % 8 ≠ 0 ∨ ((a < 0x6000 ∨ 0x7000 ≤ a) ∧ s.life.hmReady = false) →
        exec (.registerWrite a v m) s = .next s) ∧
      (s.life.hmReady = true →
        exec (.registerWrite 0x1800 v m) s = .next { s with life := { s.life with
          drainmax := (v.extractLsb' 0 32).toNat } } ∧
        exec (.registerWrite 0x51C0 v m) s = .next { s with life := { s.life with
          pwrdevLtol := (v.extractLsb' 32 32).toNat } }) ∧
      exec (.registerWrite 0x6008 v m) s = .next { s with life := { s.life with mbaddr := v } } ∧
      (s.life.mbBusy = true → exec (.registerWrite 0x6000 v m) s = .next s) ∧
      (s.life.mbBusy = false → 0 < (v.extractLsb' 0 8).toNat → (v.extractLsb' 0 8).toNat ≤ 6 →
        exec (.registerWrite 0x6000 v m) s = .next { s with life := { s.life with
          mbBusy := true
          mbCmd := (v.extractLsb' 0 8).toNat
          mbMgmt := m } })) ∧
    (∀ n failed l, s.links.find n = some l → ∃ t : State,
      exec (.hawserLinkDown n failed) s = .next t ∧ t.mem = s.mem ∧ t.links.find n = some { l with
        state := if failed then 3 else 0
        lanes := 0
        ready := l.ready && !failed })

/-- The events of lace elements: arrival, selection, commit, retirement, kills, colours,
throttles, promises (R21, R34, R115, R116, R120, R122, R156, R239, R247, R248, R235, R254). -/
def Obligations.ElementsTakeTokensFireAndCommit : Prop :=
  ∀ (s : State) (r k : Nat) (x : Run) (e : Elem), s.runs.find r = some x → x.elems.find k = some e →
    (∀ n f, s.flits.find n = some f → f.run = r → f.dst = k →
      (s.behind n f = false → x.state = .frozen → ∃ t : State, exec (.tokenArrival n) s = .next t ∧
        t.flits = s.flits.del n ∧ t.run r = { x with inbox := x.inbox.put n f }) ∧
      (s.behind n f = true ∨ (x.state ≠ .frozen ∧ s.backPressed f = true) →
        exec (.tokenArrival n) s = .next s) ∧
      (x.state ≠ .frozen → s.behind n f = false → s.backPressed f = false →
        x.deaf (partOf k) = false → (s.ctx x.ctx).resolve f.colour = f.colour →
        (f.port = 3 → exec (.tokenArrival n) s =
          .next ((State.softError { s with flits := s.flits.del n } r k).trapDiscarded f)) ∧
        (∀ m, f.port < 3 → f.cmd = some m → ∃ (t : State) (c : Command), exec (.tokenArrival n) s = .next t ∧
          t.flits = s.flits.del n ∧ t.mem = s.mem ∧ (t.run r).cmds.find s.nextId = some c ∧
          c.elem = k ∧ c.msg = m ∧ c.state = .queued) ∧
        (f.cmd = none → f.port < 3 → f.tok.kind ≠ .command → f.outer = false →
          ((s.ctx x.ctx).colour f.colour).state = .killed → exec (.tokenArrival n) s =
            .next { s with flits := s.flits.del n }) ∧
        (f.cmd = none → f.port < 3 → f.tok.kind ≠ .command → f.outer = false →
          ((s.ctx x.ctx).colour f.colour).state ≠ .killed → siteKind (siteOf k) = .lace →
          (e.reads f.slot).reads f.port = true → (f.port = 1 → e.isThrottle f.slot = false) →
          e.inSet (setOf f.slot f.iter f.colour) < 8 →
          e.setSpills (setOf f.slot f.iter f.colour) = false → e.spillHeld = [] →
          ∃ t : State, exec (.tokenArrival n) s = .next t ∧ t.flits = s.flits.del n ∧
            t.mem = s.mem ∧ t.ctxs = s.ctxs ∧ (t.elem r k).waiting = e.waiting ++
              [⟨f.slot, f.port, f.colour, f.iter, f.tok, s.cycle, none⟩] ∧
            ((t.elem r k).actOf f.colour f.iter).isSome = true))) ∧
    (s.alive r k = true → e.busyNow s.cycle = false → ∀ cs, cs = e.candidates s.cycle →
      (cs = [] → exec (.firingSelect r k) s = .next s) ∧
      (cs ≠ [] → ∃ (c : Cand) (u : State), c ∈ cs ∧
        (∀ d ∈ cs, (e.gain cs).passOf c.slot ≤ (e.gain cs).passOf d.slot) ∧
        exec (.firingSelect r k) s = .next (u.decide (s.firingOf r k c)) ∧ u.mem = s.mem ∧
        u.elem r k = (e.gain cs).selected s.cycle (x.weight s.cycle k c.slot) c ∧
        ∀ i g, nbit (u.elem r k).badSlots c.slot = false → decode (u.slotWord (s.firingOf r k c)) = .ok i →
          u.fate (s.firingOf r k c) i = .execute g → u.tooLate (s.firingOf r k c) i = false →
          u.decide (s.firingOf r k c) = u.toExecute g ∧ (u.toExecute g).focus = .firing g ∧
            (u.toExecute g).mem = s.mem ∧ (u.toExecute g).flits = s.flits)) ∧
    (∀ uid a, e.act uid = some a →
      (s.commitReady r k a = false → exec (.activationCommit r k uid) s = .next s) ∧
      (s.commitReady r k a = true → ∀ st, (a.stores.find? fun z => s.engineOwned z.home) = some st →
        exec (.activationCommit r k uid) s = .next (s.trapOwner r k a st)) ∧
      (s.commitReady r k a = true → (∀ z ∈ a.stores, s.engineOwned z.home = false) → a.wrs = [] →
        a.owns = [] → s.ctxs.find x.ctx = some (s.ctx x.ctx) → ∃ (t : State) (b : Act),
        exec (.activationCommit r k uid) s = .next t ∧ t.mem = s.mem ∧
        (t.ctx x.ctx).regs.flags = (s.ctx x.ctx).regs.flags ||| a.flags ∧
        (t.elem r k).act uid = some b ∧ b.committed = true ∧
        ∀ i st, (sortStores a.stores)[i]? = some st → ∃ q : Req,
          t.reqs.find (s.nextId + i) = some q ∧ q.cls = .buffered ∧ q.state = .pending ∧
          q.op = st.op ∧ q.home = st.home ∧ q.size = st.size ∧ q.data = st.data ∧ q.ord = st.ord)) ∧
    (∀ n h, (e.helds.find? fun y => y.1 = n) = some (n, h) → x.state ≠ .frozen → h.req ≠ 0 →
      s.reqs.find h.req = none → ∃ u : State, exec (.relTokenSend r k n) s =
        .next (u.emitOut h.firing h.out h.tok) ∧ u.mem = s.mem ∧
        (u.elem r k).helds = e.helds.filter fun y => y.1 != n) ∧
    (∀ uid a, e.act uid = some a →
      (a.committed = false ∨ s.cycle ≤ a.commitAt → exec (.identityRetire r k uid) s = .next s) ∧
      (a.committed = true → a.commitAt < s.cycle → s.alive r k = true → e.noneParked a.colour a.iter = true →
        (∀ w ∈ e.waiting, w.colour ≠ a.colour ∨ w.iter ≠ a.iter) → s.underWay r k uid = false →
        ∃ t : State, exec (.identityRetire r k uid) s = .next t ∧ t.mem = s.mem ∧
          (t.elem r k).act uid = none)) ∧
    ((∀ p y, p ∈ s.runs → y ∈ p.2.elems → ∀ limit, y.2.ageLimit = some limit → ∀ a ∈ y.2.acts,
        a.committed = true ∨ a.aged = true ∨ s.cycle - a.opened < limit ∨
          s.alive p.1 y.1 = false) → exec .ageLimit s = .next s) ∧
    (∀ a limit, s.runs = [(r, x)] → x.elems = [(k, e)] → e.acts = [a] → e.ageLimit = some limit →
      a.committed = false → a.aged = false → limit ≤ s.cycle - a.opened → s.alive r k = true →
      exec .ageLimit s = .next ((s.editAct r k a.uid fun b => { b with aged := true }).trap r
        ⟨0x07, 0, k, 31, a.colour, a.iter, BitVec.ofNat 64 (s.cycle - a.opened), s.openToken r,
          s.openToken r, .age k a.uid⟩)) ∧
    (∀ n w, s.waves.find n = some w → w.run = r → x.state ≠ .frozen →
      (k ∈ w.todo → siteKind (siteOf k) = .lace → s.urgentBefore n r w.src k = false →
        s.justCommitted r k w.colours = false → s.killHeld w k = false → ∃ t : State,
        exec (.killTokenArrival n k) s = .next t ∧ t.mem = s.mem ∧
        t.elem r k = e.purge w.colours ∧
        (t.waves.find n).map Wave.todo = some (w.todo.filter fun y => y != k)) ∧
      (k ∉ w.todo ∨ s.urgentBefore n r w.src k = true ∨ s.justCommitted r k w.colours = true ∨
        s.killHeld w k = true → exec (.killTokenArrival n k) s = .next s) ∧
      (w.todo ≠ [] → exec (.killWaveComplete n) s = .next s) ∧
      (∀ f o, w.firing = some (f, o) → w.todo = [] →
        (f.colour ∈ w.colours →
          exec (.killWaveComplete n) s = .next { s with waves := s.waves.del n }) ∧
        (f.colour ∉ w.colours → exec (.killWaveComplete n) s =
          .next (State.emitOut { s with waves := s.waves.del n } f o
            (Tok.data ((f.lv.extractLsb' 0 10).setWidth 64)))))) ∧
    (∀ c y n, s.ctxs.find c = some y →
      (s.nextColnew y = none → exec (.colnewGrant c n) s = .next s) ∧
      (∀ w, s.nextColnew y = some w → y.roomAt w.level = false ∨ y.mayHand n = false ∨
          s.replayFirst c w.level w.since = true →
        exec (.colnewGrant c n) s = .next s) ∧
      (∀ w, s.nextColnew y = some w → y.roomAt w.level = true → y.mayHand n = true → w.level < 8 →
        s.replayFirst c w.level w.since = false →
        ∃ u : State, exec (.colnewGrant c n) s = .next (u.emitOut w.firing w.out
            (Tok.data (BitVec.ofNat 64 (w.level * 1024 + n)))) ∧ u.mem = s.mem ∧
          ((u.ctx c).colour n).state = .allocated ∧ ((u.ctx c).colour n).level = w.level ∧
          (u.ctx c).waiting = y.waiting.filter fun v => v != w) ∧
      ((y.colour n).state ≠ .draining ∨ s.colourClear c n = false ∨ s.inPurge c n = true →
        exec (.colourDrain c n) s = .next s) ∧
      ((y.colour n).state = .draining → s.colourClear c n = true → s.inPurge c n = false →
          (y.colours.map Prod.fst).Nodup →
        ∃ t : State, exec (.colourDrain c n) s = .next t ∧ t.mem = s.mem ∧
          ((t.ctx c).colour n).state = .free)) ∧
    (∀ slot o w f, e.throttleOf slot = some (o, w) → s.alive r k = true →
      (e.throttled.find? fun g => e.mayPass slot w g) = some f → ∃ u : State,
        exec (.throttlePass r k slot) s = .next (u.emitOut f o f.lt.carry) ∧ u.mem = s.mem ∧
        (u.elem r k).throttled = e.throttled.erase f) ∧
    (∀ n f, (e.waitts.find? fun y => y.1 = n) = some (n, f) → s.haltedSite r k = false →
      (duePassed (s.clockAt r k) (f.lv.extractLsb' 0 56).toNat = false →
        exec (.promiseDue r k n) s = .next s) ∧
      (duePassed (s.clockAt r k) (f.lv.extractLsb' 0 56).toNat = true → s.copyOf r k f.lv = none →
        ∃ u : State, exec (.promiseDue r k n) s = .next (u.emitOut f (u.outAt f) f.lt.carry) ∧
          u.mem = s.mem ∧ (u.elem r k).waitts = e.waitts.filter fun y => y.1 != n) ∧
      (∀ c, s.copyOf r k f.lv = some c →
        (duePassed (s.clockAt r k) ((f.lv.extractLsb' 0 56).toNat +
            (s.ctx x.ctx).regs.slack) = true →
          ∃ u : State, exec (.promise r k n) s = .next (u.park f 0x08 f.lv) ∧ u.mem = s.mem ∧
            (u.elem r k).waitts = e.waitts.filter fun y => y.1 != n) ∧
        (duePassed (s.clockAt r k) ((f.lv.extractLsb' 0 56).toNat +
            (s.ctx x.ctx).regs.slack) = false →
          exec (.promise r k n) s = .next s)))

/-- The homes of a spatial store apply claims, pops, publications, updates and carves; deferred
reads; page walks (R321, R324, R325, R326, R148, R295, R369, R370). -/
def Obligations.HomesServeScattersReadersAndWalks : Prop :=
  (∀ (s : State) (n r brick : Nat) (y : Run) (c : Command) (g : StoreDesc) (x : CellAt) (e a : Nat),
    Memory.wf s.mem = true → e = entryAddr g (probeIx g.t (brickOf x) c.prog.n) → StoreHome s r c.elem e a →
    (ScatterAt s n stClaim r y c g x →
      (entryState (s.num (a + e % 64) 8) = 0 → ∃ t : State, exec (.brickClaim n) s = .next t ∧
        t.num (a + e % 64) 8 = 2 ^ 62 + brickKey (brickOf x) * 2 ^ 20 ∧
        SameOutsideRange s.mem t.mem (a + e % 64) 8 ∧
        ((t.run r).cmds.find n).map Command.prog = some { c.prog with j := stPop }) ∧
      (entryState (s.num (a + e % 64) 8) ≠ 0 → ∃ t : State, exec (.brickClaim n) s = .next t ∧
        t.mem = s.mem ∧ ((t.run r).cmds.find n).map Command.prog = some { c.prog with
          j := stProbe
          n := if entryKey (s.num (a + e % 64) 8) = brickKey (brickOf x) then c.prog.n
            else c.prog.n + 1 })) ∧
    (∀ b m, m = blockAt (counterAddr (s.psaddr r c)) → ScatterAt s n stPop r y c g x →
      StoreHome s r c.elem (counterAddr (s.psaddr r c)) b →
      (s.num b 8 = 0 → StoreHome (s.used r c.elem [m]) r c.elem e a → ∃ t : State, exec (.brickPop n) s = .next t ∧ t.num (a + e % 64) 8 = 0 ∧
        SameOutsideRange s.mem t.mem (a + e % 64) 8 ∧
        ((t.run r).cmds.find n).map Command.prog = some { c.prog with j := stExhausted }) ∧
      (∀ q, s.num b 8 ≠ 0 →
        StoreHome (s.used r c.elem [m]) r c.elem (stackAddr g (s.num b 8 - 1)) q →
        StoreHome (s.used r c.elem [m, blockAt (stackAddr g (s.num b 8 - 1))]) r c.elem
          (counterAddr (s.psaddr r c)) b → ∃ t : State,
        exec (.brickPop n) s = .next t ∧ t.num b 8 = s.num b 8 - 1 ∧
        SameOutsideRange s.mem t.mem b 8 ∧ ((t.run r).cmds.find n).map Command.prog =
          some { c.prog with
            j := stZero
            nums := [s.num (q + stackAddr g (s.num b 8 - 1) % 64) 4, 0] })) ∧
    (ScatterAt s n stPublish r y c g x → c.prog.nums[0]? = some brick → brick < 1048576 →
      ∃ t : State, exec (.brickPublish n) s = .next t ∧ t.num (a + e % 64) 8 =
        3 * 2 ^ 62 + brickKey (brickOf x) * 2 ^ 20 + brick ∧
        SameOutsideRange s.mem t.mem (a + e % 64) 8 ∧
        ((t.run r).cmds.find n).map Command.prog =
          some { c.prog with j := stUpdate, nums := [brick] })) ∧
  (∀ (s : State) (n r brick : Nat) (y : Run) (c : Command) (g : StoreDesc) (x : CellAt),
    (∀ s0, ScatterAt s n stUpdate r y c g x → c.prog.nums[0]? = some brick →
      (s.stillThere r n c g x brick = .got false s0 → exec (.cellUpdate n) s =
        .next (s0.setProg r n { c.prog with j := stProbe, n := 0, nums := [] })) ∧
      (∀ bs z fl s1 s2, s.stillThere r n c g x brick = .got true s0 →
        s0.readRecord r n c g brick x = .got bs s1 →
        (recOf g.f bs).update g.mode (c.update g.f) = (z, fl) →
        s1.changeRecord r n c (recordAddr g brick x) true (z.blocks g.f bs) bs 4 = .got () s2 →
        (c.carves = false → exec (.cellUpdate n) s = .next ((s2.cmdFlags r n fl).finish r n 0)) ∧
        (c.carves = true → exec (.cellUpdate n) s = .next ((s2.cmdFlags r n fl).setProg r n
          { c.prog with j := stMarch, i := 0, n := 0, ints := cellInts x })))) ∧
    (∀ s0, ScatterAt s n stCarve r y c g x → c.prog.nums[0]? = some brick →
      (s.stillThere r n c g c.prog.lastCell brick = .got false s0 → exec (.carveRequest n) s =
        .next (s0.setProg r n { c.prog with j := stMarch, i := c.prog.i + 1, n := 0 })) ∧
      (∀ bs s1 s2, s.stillThere r n c g c.prog.lastCell brick = .got true s0 →
        s0.readRecord r n c g brick c.prog.lastCell = .got bs s1 →
        s1.changeRecord r n c (recordAddr g brick c.prog.lastCell) false
          (((recOf g.f bs).carve g.carvew).blocks g.f bs) bs 5 = .got () s2 →
        exec (.carveRequest n) s = .next (s2.setProg r n
          { c.prog with j := stMarch, i := c.prog.i + 1, n := 0 })))) ∧
  (∀ (s : State) (n r brick stage m e a b : Nat) (y : Run) (c : Command) (g : StoreDesc)
      (x z : CellAt) (h : Nat → Nat) (bs : List Blk), ScatterAt s n stage r y c g x →
    (stage = stUpdate ∧ z = x) ∨ (stage = stCarve ∧ z = c.prog.lastCell) → Memory.wf s.mem = true →
    c.prog.nums[0]? = some brick → g.f ≤ 128 → m = 1 + sumBlocks g.f + viewBlocks g.f →
    e = entryAddr g (probeIx g.t (brickOf z) c.prog.n) → CachedHome s r c.elem (blockAt e) a →
    entryState (s.num (a + e % 64) 8) = 3 → entryBrick (s.num (a + e % 64) 8) = brick →
    entryKey (s.num (a + e % 64) 8) = brickKey (brickOf z) →
    (∀ i < m, CachedHome s r c.elem (recordAddr g brick z + 64 * i) (h i) ∧ h i ≠ b) →
    (∀ i < m, ∀ j < m, h i = h j → i = j) →
    CachedHome s r c.elem (blockAt (counterAddr (s.psaddr r c))) b →
    bs = (List.range m).map (fun i => s.blkAt (h i)) →
    (stage = stUpdate → ∀ w fl, (recOf g.f bs).update g.mode (c.update g.f) = (w, fl) → ∃ t : State,
      exec (.cellUpdate n) s = .next t ∧
      (∀ i < m, t.block (h i) = (((w.blocks g.f bs)[i]?).getD default).data) ∧
      t.num (b + 32) 8 = (s.num (b + 32) 8 + 1) % 2 ^ 64 ∧
      ((t.run r).cmds.find n).map (fun d => (d.state, d.prog)) =
        some (if c.carves then (c.state, { c.prog with j := stMarch, i := 0, n := 0, ints := cellInts x })
          else (.finished 0, c.prog))) ∧
    (stage = stCarve → ∃ t : State, exec (.carveRequest n) s = .next t ∧
      (∀ i < m, t.block (h i) =
        (((((recOf g.f bs).carve g.carvew).blocks g.f bs)[i]?).getD default).data) ∧
      t.num (b + 40) 8 = (s.num (b + 40) 8 + 1) % 2 ^ 64 ∧
      ((t.run r).cmds.find n).map (fun d => (d.state, d.prog)) =
        some (c.state, { c.prog with j := stMarch, i := c.prog.i + 1, n := 0 }))) ∧
  (∀ (x y z : Rec) (u v : Update), u.fq.length = x.sums.length → v.fq.length = x.sums.length →
    y = ((x.update 0 u).1.update 0 v).1 → z = ((x.update 0 v).1.update 0 u).1 →
    nbit (x.update 0 u).2 5 = false → nbit ((x.update 0 u).1.update 0 v).2 5 = false →
    nbit (x.update 0 v).2 5 = false → nbit ((x.update 0 v).1.update 0 u).2 5 = false →
    y.sw = z.sw ∧ y.sums = z.sums ∧ y.count = z.count ∧ y.view = z.view ∧ y.seen = true) ∧
  (∀ (x : Rec) (u : Update), x.seen = true →
    (x.update 3 u).1 = { x with count := min (x.count + 1) 65535 } ∧
    ∀ m ∈ [1, 2], (u.beats x m = false → (x.update m u).1 =
        { x with count := min (x.count + 1) 65535 }) ∧
      (u.beats x m = true → (x.update m u).1.sw = u.w ∧ (x.update m u).1.serial = u.serial ∧
        (x.update m u).1.camera = u.camera ∧ (x.update m u).1.depth = u.depth ∧
        (x.update m u).1.sums = u.fq.map fun q => (u.w : Int) * q)) ∧
  (∀ (x : Rec) (w : Nat), x.carve w = { x with
    sw := x.sw - w
    carved := true
    sums := if x.sw ≤ w then x.sums.map fun _ => 0 else x.sums }) ∧
  (∀ (s : State) (n : Nat) (q : Req), s.reqs.find n = some q → q.state = .satisfied →
    ((∃ p ∈ s.reqs, p.2.state = .satisfied ∧ blockIx p.2.home = blockIx q.home ∧
        p.2.arrival < q.arrival) →
      exec (.ldvRelease n) s = .next s) ∧
    ((∀ p ∈ s.reqs, p.2.state = .satisfied → blockIx p.2.home = blockIx q.home →
        q.arrival ≤ p.2.arrival) →
      q.size ∈ [1, 2, 4, 8] → q.far = none → q.op = .ldv → q.cls = .read → s.ownStores q.firing = [] →
      atOrPast (s.sideOf q.home).version (q.data.extractLsb' 0 16).toNat = true →
      (s.sideOf q.home).poison = false → ∃ u : State, exec (.ldvRelease n) s =
        .next (u.emitOut q.firing q.out (Tok.data
          ((BitVec.ofNat (8 * q.size) (s.num q.home q.size)).signExtend 64))) ∧
        u.mem = s.mem ∧ u.reqs = s.reqs.del n)) ∧
  (∀ (s : State) (n : Nat) (w : Walk), s.walks.find n = some w →
    ((s.run w.firing.run).state = .frozen → exec (.pageWalk n) s = .next s) ∧
    (s.walkRuns w = false → exec (.pageWalk n) s = .next s) ∧
    ((s.run w.firing.run).state ≠ .frozen → s.walkRuns w = true →
      (∀ l, s.walk (s.run w.firing.run).ctx (w.ea % 2 ^ 55) = .ok l → ∃ t : State,
        exec (.pageWalk n) s = .next t ∧ t.mem = s.mem ∧
        ⟨s.cacheOf w.firing.run w.firing.elem, (s.run w.firing.run).ctx, l.va, l.size, l.pa, l.rd,
          l.wr⟩ ∈ t.tlb ∧
        ∀ k v, (k, v) ∈ s.walks → s.walkOf v = s.walkOf w → (s.run v.firing.run).state ≠ .frozen →
          (0, Happening.refire v.firing) ∈ t.agenda ∧ t.walks.find k = none) ∧
      (∀ cause level, s.walk (s.run w.firing.run).ctx (w.ea % 2 ^ 55) = .error (cause, level) →
        s.walks = [(n, w)] →
        (s.logBusy (s.run w.firing.run).ctx = true → exec (.pageWalk n) s = .next s) ∧
        (s.logBusy (s.run w.firing.run).ctx = false → ∃ u : State, u = { s with walks := [] } ∧
          exec (.pageWalk n) s = .next ((u.logFault w.firing (BitVec.ofNat 64 w.ea).toNat cause
            level).park w.firing cause (BitVec.ofNat 64 w.ea))))))

/-- Vector elements and converters take a beat of each operand and form the beats of their rules
(R179, R180, R181, R182, R183, R184). -/
def Obligations.VectorCommandsTurnBeatsIntoBeats : Prop :=
  ∀ (s : State) (r n : Nat) (x : Run) (c : Command) (k : Cmd) (f : VecForm) (fmt : Nat) (fs : FSpec),
    Working s r n x c → fmt = vecFmt f.sz → fs = fspec f.sz →
    (s.vecReady r c.elem = true → (x.outStrand c.elem 0).isSome = true →
      ∀ (o p : Nat), p = x.vecPort c.elem 0 (c.prog.taken 0) →
      o = (if c.prog.taken 0 % 2 = 1 ∧ (x.outStrand c.elem 1).isSome = true then 1 else 0) →
      (∀ b, s.inBeat r c.elem p = some b → b.ctrl = 0 → b.fmt ≠ fmt →
        ∀ i ∈ [Instr.vmap k f, .vscan k f, .vred k f, .vsoft k f, .vnorm k f],
          exec i s = .next (s.idle.beatFault r n c p b (mkDescr fmt 0 true))) ∧
      (∀ b, s.inBeat r c.elem p = some b → b.ctrl = 0 → b.fmt = fmt →
        (∃ t : State, exec (.vmap k f) s = .next t ∧ t.mem = s.mem ∧
          Moves r c.elem [p] [(o, [Beat.ofBlk (Blk.formed fmt 0 (blockOf fmt
            ((blockElems fmt b.data).map fun e => (vmapLane fs f.rm f.fn.toNat
              (bits c.msg.operand 0 fs.width) e).1)))])] s t ∧ Progress t r n c (c.prog.take 0)) ∧
        (∀ acc ys, acc = (if c.prog.i = 0 then (if f.fn = 1 then infBits fs true else 0)
            else c.prog.n) → ys = scanLanes fs f.rm f.fn.toNat acc (blockElems fmt b.data) →
          ∃ t : State, exec (.vscan k f) s = .next t ∧ t.mem = s.mem ∧
            Moves r c.elem [p] [(o, [Beat.ofBlk (Blk.formed fmt 0
              (blockOf fmt (ys.map Prod.fst)))])] s t ∧
            Progress t r n c (Prog.take { c.prog with
              i := 1
              n := (ys.map Prod.fst).getLast?.getD acc } 0)) ∧
        (∃ t : State, exec (.vred k f) s = .next t ∧ t.mem = s.mem ∧ Moves r c.elem [p] [] s t ∧
          Progress t r n c ((redBeat fs fmt f.rm f.fn.toNat
            (c.msg.operand.extractLsb' 0 16).toInt c.prog b).1.take 0)) ∧
        (∀ i ∈ [Instr.vsoft k f, .vnorm k f],
          (256 ≤ c.prog.blks.length → exec i s = .next (s.idle.engineFault r n c 0x01 256)) ∧
          (c.prog.blks.length < 256 → ∃ t : State, exec i s = .next t ∧ t.mem = s.mem ∧
            Moves r c.elem [p] [] s t ∧ Progress t r n c (Prog.take { c.prog with
              blks := c.prog.blks ++ [⟨b.data, b.descr⟩] } 0)))) ∧
      (∀ b, s.inBeat r c.elem p = some b → b.ctrl ≠ 0 →
        (∀ i ∈ [Instr.vmap k f, .vscan k f], ∃ t : State, exec i s = .next t ∧ t.mem = s.mem ∧
          Moves r c.elem [p] [(0, [b])] s t ∧ (b.ctrl = 7 → Answers t r n 0) ∧
          (b.ctrl ≠ 7 → ((t.run r).cmds.find n).map Command.state = some c.state)) ∧
        (b.ctrl = 7 → 0 < c.prog.i → ∀ y, y = (redResult fs fmt f.rm f.fn.toNat
            (c.msg.operand.extractLsb' 0 16).toInt c.prog).1 → ∃ t : State,
          exec (.vred k f) s = .next t ∧ t.mem = s.mem ∧ Answers t r n (BitVec.ofNat 64 y) ∧
          Moves r c.elem [p] [(0, (redBlocks fmt true
            (c.prog.words ++ [BitVec.ofNat 64 y])).1 ++ [Beat.eos])] s t) ∧
        (x.outStrand c.elem 1 = none → ∀ (i : Instr) (g : List Nat → List (Nat × Nat)),
          (i = .vsoft k f ∧ g = softFibre fs f.rm
            (decodeF fp32 (bits c.msg.operand 0 32))) ∨
          (i = .vnorm k f ∧ g = normFibre fs f.rm (f.fn = 1)
            (decodeF fp32 (bits c.msg.operand 0 32))) →
          ∃ t : State, exec i s = .next t ∧ t.mem = s.mem ∧ (b.ctrl = 7 → Answers t r n 0) ∧
            Moves r c.elem [p] [(0, fibreBeats fmt
              ((g (fibreElems fmt c.prog.blks)).map Prod.fst) ++ [b])] s t)) ∧
      (∀ (i : Instr) (g : Lanes) (qs : List Nat) (hs : List (Nat × Nat × Beat)),
        (i = .vfma k f ∧ g = fmaLanes f.rm f.fn.toNat (bits c.msg.operand 0 fs.width) fmt ∧
          qs = fmaOperands f.fn.toNat) ∨
        (i = .vcmp k f ∧ g = cmpLanes (condOf f.fn.toNat) ∧ qs = [0, 1]) ∨
        (i = .vsel k f ∧ g = selLanes ∧ qs = [0, 1, 2]) ∨
        (i = .vrope k f ∧ g = (fun fs as bs _ => ropeLanes fs f.rm as bs) ∧ qs = [0, 1]) →
        s.vecHeads r c qs = some hs →
        ((∀ h ∈ hs, h.2.2.ctrl = 0 ∧ h.2.2.fmt = fmt) → ∃ t : State, exec i s = .next t ∧
          t.mem = s.mem ∧ ((t.run r).cmds.find n).map Command.state = some c.state ∧
          Moves r c.elem (hs.map fun h => h.2.1) [(o, [Beat.ofBlk (Blk.formed fmt 0 (blockOf fmt
            ((g fs (laneOf fmt 0 hs 0) (laneOf fmt 0 hs 1) (laneOf fmt 0 hs 2)).map
              Prod.fst)))])] s t) ∧
        ((∀ h ∈ hs, h.2.2.ctrl = 7) → ∃ t : State, exec i s = .next t ∧ t.mem = s.mem ∧
          Answers t r n 0 ∧ Moves r c.elem (hs.map fun h => h.2.1) [(0, [Beat.eos])] s t))) ∧
    (HasRoom s r x c 1 → ∀ (rm : RMode) (out : BitVec 5) (nanov : Bool) (b : Beat),
      s.inBeat r c.elem 0 = some b →
      (b.ctrl = 0 → fmtBits b.fmt = 0 → exec (.cvt k rm out nanov) s =
        .next (s.idle.beatFault r n c 0 b (mkDescr out.toNat 0 true))) ∧
      (b.ctrl = 0 → fmtBits b.fmt ≠ 0 → ∃ t : State, exec (.cvt k rm out nanov) s = .next t ∧
        t.mem = s.mem ∧ ((t.run r).cmds.find n).map Command.state = some c.state ∧
        Moves r c.elem [0] [(1, (cvtBlocks out.toNat rm nanov 17 (Prog.cvtVals { c.prog with
          blks := c.prog.blks ++ [⟨b.data, b.descr⟩] })).1.map Beat.ofBlk)] s t) ∧
      (b.ctrl ≠ 0 → c.prog.cvtVals = [] → ∃ t : State, exec (.cvt k rm out nanov) s = .next t ∧
        t.mem = s.mem ∧ Moves r c.elem [0] [(1, [b])] s t ∧ (b.ctrl = 7 → Answers t r n 0) ∧
        (b.ctrl ≠ 7 → Progress t r n c { c.prog with blks := [], i := 0 })))

/-- Frames: MLDB and MLDC load, MMA, MMAS and MMAX3 add the products of a row, MOUT writes the
tile, MZERO sweeps (R58, R59, R60, R172, R173, R174, R175, R176). -/
def Obligations.FrameCommandsLoadMultiplyAndWriteTiles : Prop :=
  ∀ (s : State) (r n : Nat) (x : Run) (c : Command) (k : Cmd) (tb : Bool) (f : Frame) (l : Word),
    Working s r n x c → f = s.frame r c.elem → f.Sorted → l = c.msg.operand →
    (32 ≤ c.prog.i → ∀ i ∈ [Instr.mldb k, .mldc k tb], ∃ t : State, exec i s = .next t ∧
      Answers t r n 0 ∧ t.frame r c.elem = f ∧ t.mem = s.mem) ∧
    (∀ a fst, c.prog.i < 32 → ReadHome s r c.elem (l + BitVec.ofNat 64 (c.prog.i * f.mbpitch.toNat)).toNat a →
      formatClass (s.sideOf a).fmt ≠ 0 → (s.sideOf a).fmt < 32 → fst = c.prog.nums.head?.getD 0x0B →
      c.prog.i = 0 ∨ formatClass (s.sideOf a).fmt = formatClass fst → ∃ t : State,
      exec (.mldb k) s = .next t ∧ t.mem = s.mem ∧
      (t.frame r c.elem).bbuf.find c.prog.i = some (s.blkAt a) ∧
      (∀ j, j ≠ c.prog.i → (t.frame r c.elem).bbuf.find j = f.bbuf.find j) ∧
      (t.frame r c.elem).acc0 = f.acc0 ∧ (t.frame r c.elem).acc1 = f.acc1 ∧
      ((t.run r).cmds.find n).map (fun d => (d.state, d.prog.i)) = some (c.state, c.prog.i + 1)) ∧
    (∀ a fmt vs, c.prog.i < 32 → c.prog.j < rowBlocks fmt → fmt = (s.sideOf a).fmt → fmt < 32 →
      c.prog.j = 0 ∨ fmt = c.prog.nums.head?.getD 0x0B →
      ReadHome s r c.elem (l + BitVec.ofNat 64 (c.prog.i * f.mcpitch.toNat + 64 * c.prog.j)).toNat a →
      vs = blockVals fmt (s.blkAt a).scale (s.block a) → ∃ t : State, exec (.mldc k tb) s = .next t ∧
      t.mem = s.mem ∧
      (∀ m v, vs[m]? = some v → (t.frame r c.elem).cell tb c.prog.i (c.prog.j * vs.length + m) =
        (addTerm (f.cell tb c.prog.i (c.prog.j * vs.length + m)) (f.eacc tb) v).1) ∧
      (∀ i m, m < 32 → i ≠ c.prog.i → (t.frame r c.elem).cell tb i m = f.cell tb i m) ∧
      (∀ i m, (t.frame r c.elem).cell (!tb) i m = f.cell (!tb) i m)) ∧
    (∀ (i : Instr) (x3 : Bool), (i = .mma k tb ∧ x3 = false) ∨ (i = .mmax3 k tb ∧ x3 = true) ∨
        (i = .mmas k tb ∧ x3 = false ∧ (c.prog.i ≠ 0 ∨
          f.mbmap.getLsbD (l.extractLsb' 6 6).toNat = true)) →
      ((l.extractLsb' 0 6).toNat = 0 ∨ 32 < (l.extractLsb' 0 6).toNat →
        exec i s = .next (s.idle.engineIllegal r n c)) ∧
      (0 < (l.extractLsb' 0 6).toNat → (l.extractLsb' 0 6).toNat ≤ 32 →
        ((l.extractLsb' 0 6).toNat ≤ c.prog.i → ∃ t : State, exec i s = .next t ∧
          Answers t r n ((l.extractLsb' 0 6).setWidth 64) ∧ t.frame r c.elem = f) ∧
        (c.prog.i < (l.extractLsb' 0 6).toNat → ∀ p b,
          (s.aInputs r c.elem)[c.prog.i % (s.aInputs r c.elem).length]? = some p →
          s.inBeat r c.elem p = some b →
          (b.ctrl ≠ 0 → ∃ t : State, exec i s = .next t ∧ Moves r c.elem [p] [] s t ∧
            t.frame r c.elem = f ∧ Progress t r n c c.prog) ∧
          (b.ctrl = 0 → f.pairsWith x3 b.fmt = false → ∃ d, exec i s =
            .next (s.idle.beatFault r n c p b d)) ∧
          (b.ctrl = 0 → f.pairsWith x3 b.fmt = true → ∃ t : State, exec i s = .next t ∧
            Moves r c.elem [p] [] s t ∧ t.mem = s.mem ∧
            Progress t r n c { c.prog with i := c.prog.i + 1 } ∧
            (∀ m < 32, ∀ z, z = (f.bbuf.find m).getD (Blk.zero 0 0) →
              (t.frame r c.elem).cell tb c.prog.i m = (stepCell x3 (f.cell tb c.prog.i m) (f.eacc tb)
                (operandOf b.fmt b.scale b.data) (operandOf z.fmt z.scale z.data)).1) ∧
            (∀ j m, m < 32 → j ≠ c.prog.i → (t.frame r c.elem).cell tb j m = f.cell tb j m) ∧
            (∀ j m, (t.frame r c.elem).cell (!tb) j m = f.cell (!tb) j m))))) ∧
    (c.prog.i = 0 → f.mbmap.getLsbD (l.extractLsb' 6 6).toNat = false → ∃ t : State,
      exec (.mmas k tb) s = .next t ∧ Answers t r n 0 ∧ t.frame r c.elem = f ∧ t.mem = s.mem) ∧
    (∀ (rm : RMode) (fmt : BitVec 5) (nanov : Bool) (rows blocks : Nat),
      outShape fmt.toNat = (rows, blocks) →
      (32 / rows ≤ c.prog.i → ∃ t : State, exec (.mout k tb rm fmt nanov) s = .next t ∧
        Answers t r n (BitVec.ofNat 64 c.prog.n) ∧ t.mem = s.mem) ∧
      (∀ a, c.prog.i < 32 / rows → Memory.wf s.mem = true →
        WriteHome s r c.elem (l + BitVec.ofNat 64 (c.prog.i * f.mcpitch.toNat + 64 * c.prog.j)).toNat a →
        ∃ (t : State) (d : Command), exec (.mout k tb rm fmt nanov) s = .next t ∧
          Wrote s t a (outBlock fmt.toNat rm nanov ((f.outVals tb fmt.toNat c.prog.i c.prog.j
            (tensorScale f.scaleA.toNat f.scaleB.toNat).1).map Prod.fst)).1.data ∧
          (t.run r).cmds.find n = some d ∧ d.task = f.mtask.toNat ∧ d.prog.n = c.prog.n + 1 ∧
          (c.prog.j + 1 = blocks → d.prog.i = c.prog.i + 1 ∧ d.prog.j = 0) ∧
          (c.prog.j + 1 ≠ blocks → d.prog.i = c.prog.i ∧ d.prog.j = c.prog.j + 1) ∧
          (t.frame r c.elem).acc0 = f.acc0 ∧ (t.frame r c.elem).acc1 = f.acc1)) ∧
    (∀ a, c.prog.blks = [] → ReadHome s r c.elem l.toNat a →
      (extentOf (s.blkAt a) = none → exec (.mzeroAuto k tb) s =
        .next ((s.idle.used r c.elem [l.toNat]).engineIllegal r n c)) ∧
      (∀ e, extentOf (s.blkAt a) = some e → ∃ t : State, exec (.mzeroAuto k tb) s = .next t ∧
        Progress t r n c { c.prog with blks := [s.blkAt a], words := [f.mbmap, f.mbpitch] } ∧
        t.frame r c.elem = f)) ∧
    (∀ b bs e m w ws, c.prog.blks = b :: bs → extentOf b = some e → c.prog.words = m :: w :: ws →
      (∀ ea a, (e.addrs m w)[c.prog.i]? = some ea → ReadHome s r c.elem (ea % 2 ^ 64) a →
        sweepRefuses (s.sideOf a).descr = false → ∃ t : State, exec (.mzeroAuto k tb) s = .next t ∧
        Progress t r n c { c.prog with
          i := c.prog.i + 1
          nums := c.prog.nums ++ [(s.sideOf a).descr] } ∧ t.frame r c.elem = f) ∧
      ((e.addrs m w)[c.prog.i]? = none → ∃ t : State, exec (.mzeroAuto k tb) s = .next t ∧
        Answers t r n (BitVec.ofInt 64 (sweepEacc e (e.visited m).length c.prog.nums)) ∧
        (t.frame r c.elem).eacc tb = sweepEacc e (e.visited m).length c.prog.nums ∧
        (∀ i j, (t.frame r c.elem).cell tb i j = Cell.zero) ∧
        (∀ i j, (t.frame r c.elem).cell (!tb) i j = f.cell (!tb) i j)))

/-- Memory tiles: TREAD, TWIN, TREP stream a shape; TWRITE, TFILL, TEXP, TSACC, TRMW write it;
TCOMP, TZMAP read it; TROT rotates the ring (R48, R168, R185, R186, R187, R188, R189, R190, R191,
R192, R193, R359). -/
def Obligations.TileCommandsStreamWriteAndUpdateTheirTile : Prop :=
  ∀ (s : State) (r n : Nat) (x : Run) (c : Command) (k : Cmd) (f : TileForm) (vf : ValFmt)
    (op : RmwOp) (l : Word),
    Working s r n x c → s.tileMasked r c.elem = true → l = c.msg.operand →
    s.portOpen r c.elem c.rank = true →
    (c.prog.words = [] → ∀ i ∈ [Instr.tread k f, .twrite k f, .tcomp k f, .texp k f vf, .tzmap k f,
        .trmw k f op, .tfill k f], ∃ t : State, exec i s = .next t ∧ t.mem = s.mem ∧
      Progress t r n c { c.prog with words := [x.shape c.elem f.g.toNat f.k.toNat] }) ∧
    (∀ (w : Word) (h : Shape) (at_ : Nat → Nat), c.prog.words = [w] → h = shapeOf w →
      at_ = (fun q => tileBlock r c.elem (h.at q)) →
      (HasRoom s r x c f.p.toNat → ∀ (i : Instr) (g : Segments),
        (i = .tread k f ∧ g = ⟨h.rows, 0, fun m => if m = 0 then some 0 else none⟩) ∨
        (∃ z step level, i = .twin k f ∧ z = (l.extractLsb' 0 12).toNat ∧
          step = (l.extractLsb' 12 12).toNat ∧ level = (l.extractLsb' 24 3).toNat ∧
          0 < z ∧ 0 < step ∧ level ≠ 7 ∧
          g = ⟨z, level, fun m => if m * step + z ≤ h.rows then some (m * step) else none⟩) ∨
        (∃ times level, i = .trep k f ∧ times = (l.extractLsb' 0 16).toNat ∧
          level = (l.extractLsb' 16 3).toNat ∧ 0 < times ∧ level ≠ 7 ∧
          g = ⟨h.rows, level, fun m => if m < times then some 0 else none⟩) →
        (g.start c.prog.i = none → ∃ t : State, exec i s = .next t ∧ t.mem = s.mem ∧
          Moves r c.elem [] [(f.p.toNat, if h.eos then [Beat.eos] else [])] s t ∧
          Answers t r n (BitVec.ofNat 64 (c.prog.n + if h.eos then 1 else 0))) ∧
        (∀ first a, g.start c.prog.i = some first →
          a = tileBlock r c.elem (h.index (first + c.prog.j / h.cols) (c.prog.j % h.cols)) →
          (s.sideOf a).poison = false → ∃ t : State, exec i s = .next t ∧ t.mem = s.mem ∧
          Moves r c.elem [] [(f.p.toNat, Beat.ofBlk (s.blkAt a) ::
            ((if (c.prog.j + 1) % h.cols = 0 ∧ h.stop ≠ 0 then [Beat.stop h.stop] else []) ++
              (if c.prog.j + 1 = g.rows * h.cols ∧ g.level ≠ 0 then [Beat.stop g.level]
                else [])))] s t ∧
          ((t.run r).cmds.find n).map (fun d => (d.state, d.prog.i, d.prog.j)) = some
            (if c.prog.j + 1 = g.rows * h.cols then (c.state, c.prog.i + 1, 0)
              else (c.state, c.prog.i, c.prog.j + 1)))) ∧
      (∀ b, s.inBeat r c.elem f.p.toNat = some b →
        (b.ctrl = 7 → ∃ t : State, exec (.twrite k f) s = .next t ∧ t.mem = s.mem ∧
          Answers t r n (BitVec.ofNat 64 c.prog.n) ∧ Moves r c.elem [f.p.toNat] [] s t) ∧
        (b.ctrl ≠ 7 → b.ctrl ≠ 0 → ∃ t : State, exec (.twrite k f) s = .next t ∧ t.mem = s.mem ∧
          Moves r c.elem [f.p.toNat] [] s t ∧ Progress t r n c { c.prog with
            i := if c.prog.i % h.cols = 0 then c.prog.i else (c.prog.i / h.cols + 1) * h.cols }) ∧
        (b.ctrl = 0 → h.count ≤ c.prog.i → ∃ t : State, exec (.twrite k f) s = .next t ∧
          t.mem = s.mem ∧ Moves r c.elem [f.p.toNat] [] s t ∧ Progress t r n c c.prog) ∧
        (b.ctrl = 0 → c.prog.i < h.count → s.blockBusy (at_ c.prog.i) = false →
          Memory.wf s.mem = true → ∃ t : State, exec (.twrite k f) s = .next t ∧
          Wrote s t (at_ c.prog.i) b.data ∧ (t.sideOf (at_ c.prog.i)).fmt = b.fmt ∧
          Moves r c.elem [f.p.toNat] [] s t ∧
          Progress t r n c { c.prog with i := c.prog.i + 1, n := c.prog.n + 1 })) ∧
      (h.count ≤ c.prog.i → ∀ i ∈ [Instr.tfill k f, .trot k f],
        (i = .trot k f → x.maskAt c.elem = 255) → ∃ t : State, exec i s = .next t ∧
        t.mem = s.mem ∧ Answers t r n 0) ∧
      (c.prog.i < h.count → s.blockBusy (at_ c.prog.i) = false → Memory.wf s.mem = true →
        ∃ t : State, exec (.tfill k f) s = .next t ∧
        Wrote s t (at_ c.prog.i) (List.replicate 8 (toBytes 8 l.toNat)).flatten ∧
        Progress t r n c { c.prog with i := c.prog.i + 1 }) ∧
      (64 < h.count → exec (.tzmap k f) s = .next (s.idle.engineIllegal r n c)) ∧
      (h.count ≤ 64 → ∃ (t : State) (v : Word), exec (.tzmap k f) s = .next t ∧ t.mem = s.mem ∧
        Answers t r n v ∧ ∀ m < 64, v.getLsbD m =
          (decide (m < h.count) && !(s.sideOf (at_ m)).zero)) ∧
      (x.maskAt c.elem = 255 → c.prog.i < h.count → Memory.wf s.mem = true →
        (∀ q ∈ ringKeys c.elem, s.blockBusy (tileBlock r q (h.at c.prog.i)) = false ∧
          (s.sideOf (tileBlock r q (h.at c.prog.i))).poison = false ∧
          s.portOpen r q c.rank = true) →
        ∃ t : State, exec (.trot k f) s = .next t ∧
        (∀ m < 8, t.block (tileBlock r (((ringKeys c.elem)[(m + 1) % 8]?).getD 0) (h.at c.prog.i)) =
          s.block (tileBlock r (((ringKeys c.elem)[m]?).getD 0) (h.at c.prog.i))) ∧
        (∀ y, (∀ q ∈ ringKeys c.elem, y < tileBlock r q (h.at c.prog.i) ∨
          tileBlock r q (h.at c.prog.i) + 64 ≤ y) → memGet t.mem y = memGet s.mem y)) ∧
      (HasRoom s r x c f.p.toNat → 32 * h.cols ≤ 65535 →
        (h.count ≤ c.prog.i → ∃ t : State, exec (.tcomp k f) s = .next t ∧ t.mem = s.mem ∧
          Moves r c.elem [] [(f.p.toNat, if h.eos then [Beat.eos] else [])] s t) ∧
        (∀ vt ps all, c.prog.i < h.count → (s.sideOf (at_ c.prog.i)).zero = false →
          (s.sideOf (at_ c.prog.i)).poison = false → (s.sideOf (at_ c.prog.i)).fmt < 32 →
          fmtVt (s.sideOf (at_ c.prog.i)).fmt = some vt →
          ps = densePairs vt (c.prog.i % h.cols) (s.block (at_ c.prog.i)) → ps ≠ [] →
          c.prog.nums = [] ∨ vt = c.prog.j → all = c.prog.nums.map unpackPair ++ ps →
          ∃ t : State, exec (.tcomp k f) s = .next t ∧ t.mem = s.mem ∧
          ((c.prog.i + 1) % h.cols ≠ 0 →
            Moves r c.elem [] [(f.p.toNat,
              coordBeats vt (all.take (all.length - all.length % 16)))] s t ∧
            ((t.run r).cmds.find n).map (fun d => d.prog.nums) = some
              ((all.drop (all.length - all.length % 16)).map packPair)) ∧
          ((c.prog.i + 1) % h.cols = 0 → all.length % 16 ≠ 0 → Moves r c.elem [] [(f.p.toNat,
            coordBeats vt (all.take (all.length - all.length % 16)) ++
              (coordBeats vt (all.drop (all.length - all.length % 16)) ++
                [Beat.stop (if h.stop = 0 then 1 else h.stop)]))] s t))) ∧
      (∀ (a : Nat → Nat) (vt : Nat), a = (fun q => tileBlock r c.elem (h.index c.prog.i q)) →
        vt = valCode vf → Memory.wf s.mem = true →
        (∀ b, c.prog.blks = [] → s.inBeat r c.elem f.p.toNat = some b →
          (b.ctrl = 7 → ∃ t : State, exec (.texp k f vf) s = .next t ∧ t.mem = s.mem ∧
            Answers t r n (BitVec.ofNat 64 c.prog.n)) ∧
          (b.ctrl = 0 → b.vt ≠ some vt → exec (.texp k f vf) s =
            .next (s.idle.beatFault r n c f.p.toNat b (mkDescr fmtCoord vt true))) ∧
          (b.ctrl = 0 → b.vt = some vt → c.prog.j = 0 → c.prog.i < h.rows →
            (∀ q < h.cols, s.blockBusy (a q) = false) → ∃ t : State,
            exec (.texp k f vf) s = .next t ∧
            (∀ q < h.cols, t.block (a q) = List.replicate 64 0 ∧ (t.sideOf (a q)).fmt = vtFmt vt) ∧
            Progress t r n c { c.prog with j := 1, n := c.prog.n + 1 }) ∧
          (b.ctrl = 0 → b.vt = some vt → c.prog.j ≠ 0 → c.prog.i < h.rows → ∃ t : State,
            exec (.texp k f vf) s = .next t ∧ t.mem = s.mem ∧
            Moves r c.elem [f.p.toNat] [] s t ∧
            Progress t r n c { c.prog with blks := [⟨b.data, b.descr⟩] }) ∧
          (b.ctrl ≠ 0 → b.ctrl ≠ 7 → c.prog.j ≠ 0 → ∃ t : State,
            exec (.texp k f vf) s = .next t ∧ t.mem = s.mem ∧
            Moves r c.elem [f.p.toNat] [] s t ∧
            Progress t r n c { c.prog with i := c.prog.i + 1, j := 0 })) ∧
        (∀ b bs q v, c.prog.blks = b :: bs → (pairsOf b.data)[c.prog.j - 1]? = some (q, v) →
          (32 * h.cols ≤ q → ∃ t : State, exec (.texp k f vf) s = .next t ∧ t.mem = s.mem ∧
            Progress t r n c { c.prog with j := c.prog.j + 1 }) ∧
          (q < 32 * h.cols → s.blockBusy (a (q / 32)) = false → ∃ t : State,
            exec (.texp k f vf) s = .next t ∧ SameOutsideRange s.mem t.mem (a (q / 32)) 64 ∧
            (∀ m < 32, (blockElems (vtFmt vt) (t.block (a (q / 32))))[m]? =
              if m = q % 32 then some (v % 65536)
              else (blockElems (vtFmt vt) (s.block (a (q / 32))))[m]?) ∧
            Progress t r n c { c.prog with j := c.prog.j + 1 }))) ∧
      (∀ (a : Nat → Nat) (vt level : Nat), a = (fun q => tileBlock r c.elem (h.index 0 q)) →
        vt = valCode vf → level = (l.extractLsb' 0 3).toNat → 0 < level → level ≠ 7 →
        Memory.wf s.mem = true →
        (c.prog.blks = [] → c.prog.j = 0 → (∀ q < h.cols, s.blockBusy (a q) = false) →
          ∃ t : State, exec (.tsacc k f vf) s = .next t ∧
          (∀ q < h.cols, t.block (a q) = List.replicate 64 0) ∧
          Progress t r n c { c.prog with j := 1 }) ∧
        (∀ b, c.prog.blks = [] → c.prog.j ≠ 0 → s.inBeat r c.elem f.p.toNat = some b →
          (b.ctrl = 0 → b.vt.isSome = true → ∃ t : State, exec (.tsacc k f vf) s = .next t ∧
            t.mem = s.mem ∧ Moves r c.elem [f.p.toNat] [] s t ∧
            Progress t r n c { c.prog with blks := [⟨b.data, b.descr⟩] }) ∧
          (b.ctrl ≠ 0 → b.ctrl < level → ∃ t : State, exec (.tsacc k f vf) s = .next t ∧
            t.mem = s.mem ∧ Moves r c.elem [f.p.toNat] [] s t ∧ Progress t r n c c.prog) ∧
          (HasRoom s r x c f.p.toNat → b.ctrl ≠ 0 → level ≤ b.ctrl →
            (∀ q < h.cols, s.blockBusy (a q) = false) → ∃ t : State,
            exec (.tsacc k f vf) s = .next t ∧
            Moves r c.elem [f.p.toNat] [(f.p.toNat, coordBeats vt (c.prog.nums.map fun q =>
              (q, (convertTo (vtFmt vt) .rne false
                (decodeF fp32 (s.sumAt r c h q))).1)) ++
              [if b.ctrl = 7 then Beat.eos else Beat.stop (b.ctrl - level + 1)])] s t ∧
            (∀ q ∈ c.prog.nums, q < 16 * h.cols → t.block (a (q / 16)) = List.replicate 64 0) ∧
            (b.ctrl = 7 → ∃ v, Answers t r n v))) ∧
        (∀ b bs q v, c.prog.blks = b :: bs → (pairsOf b.data)[c.prog.j - 1]? = some (q, v) →
          q < 16 * h.cols → s.blockBusy (a (q / 16)) = false → ∃ t : State,
          exec (.tsacc k f vf) s = .next t ∧ SameOutsideRange s.mem t.mem (a (q / 16)) 64 ∧
          (∀ m < 16, (blockElems 0x09 (t.block (a (q / 16))))[m]? = if m = q % 16 then
              some ((fAdd fp32 .rne (decodeF fp32 (s.sumAt r c h q))
                (elemVal (vtFmt b.scale) v)).1 % 2 ^ 32)
            else (blockElems 0x09 (s.block (a (q / 16))))[m]?) ∧
          Progress t r n c { c.prog with
            j := c.prog.j + 1
            nums := insertCoord q c.prog.nums })) ∧
      (∀ b, c.prog.blks = [] → s.inBeat r c.elem f.p.toNat = some b →
        (b.ctrl = 7 → ∃ t : State, exec (.trmw k f op) s = .next t ∧ t.mem = s.mem ∧
          Answers t r n (BitVec.ofNat 64 c.prog.n) ∧ Moves r c.elem [f.p.toNat] [] s t) ∧
        (b.ctrl ≠ 0 → b.ctrl ≠ 7 → HasRoom s r x c f.p.toNat → ∃ t : State,
          exec (.trmw k f op) s = .next t ∧ t.mem = s.mem ∧
          Moves r c.elem [f.p.toNat] [(f.p.toNat, [b])] s t ∧
          Progress t r n c { c.prog with n := c.prog.n + 1 }) ∧
        (∀ vt, b.ctrl = 0 → b.vt = some vt →
          (s.rmwBeat r c.elem h vt (pairsOf b.data) = .none → ∃ t : State,
            exec (.trmw k f op) s = .next t ∧ t.mem = s.mem ∧ Moves r c.elem [f.p.toNat] [] s t ∧
            Progress t r n c { c.prog with blks := [⟨b.data, b.descr⟩] }) ∧
          (∀ v, s.rmwBeat r c.elem h vt (pairsOf b.data) = .beat v → exec (.trmw k f op) s =
            .next (s.idle.beatFault r n c f.p.toNat b (mkDescr fmtCoord v true))))) ∧
      (∀ b bs, c.prog.blks = b :: bs →
        ((pairsOf b.data)[c.prog.j]? = none → HasRoom s r x c f.p.toNat → ∃ t : State,
          exec (.trmw k f op) s = .next t ∧ t.mem = s.mem ∧ Moves r c.elem [] [(f.p.toNat,
            [coordBeat b.scale (c.prog.nums.map unpackPair)])] s t ∧
          Progress t r n c { c.prog with blks := [], j := 0, nums := [], n := c.prog.n + 1 }) ∧
        (∀ q v a old, (pairsOf b.data)[c.prog.j]? = some (q, v) → a = at_ (q / 32) →
          old = ((blockElems (vtFmt b.scale) (s.block a))[q % 32]?).getD 0 →
          (h.count ≤ q / 32 → ∃ t : State, exec (.trmw k f op) s = .next t ∧ t.mem = s.mem ∧
            Progress t r n c { c.prog with
              j := c.prog.j + 1
              nums := c.prog.nums ++ [packPair (0xFFFF, 0)] }) ∧
          (q / 32 < h.count → (s.sideOf a).poison = false → s.blockBusy a = false →
            fmtVt (s.sideOf a).fmt = some b.scale → Memory.wf s.mem = true → ∃ t : State,
            exec (.trmw k f op) s = .next t ∧ SameOutsideRange s.mem t.mem a 64 ∧
            (op = .gather → t.mem = s.mem) ∧
            (∀ m < 32, (blockElems (vtFmt b.scale) (t.block a))[m]? = if m = q % 32 then
                some ((rmwElem op b.scale old v).1 % 65536)
              else (blockElems (vtFmt b.scale) (s.block a))[m]?) ∧
            Progress t r n c { c.prog with
              j := c.prog.j + 1
              nums := c.prog.nums ++ [packPair (q, old)] }))))

/-- Lighters: CPY, CPY2D, CPYG and CPYS are accepted with a promise, wait their turn and move a
block a step; CPYQ asks again (R156, R194, R195, R196, R197, R359). -/
def Obligations.CopiesAreAcceptedInOrderAndMoveBlocks : Prop :=
  ∀ (s : State) (r n : Nat) (x : Run) (c : Command) (k : Cmd) (f : CopyForm) (l : Word)
    (die lighter key : Nat) (cs : List Copy),
    Working s r n x c → l = c.msg.operand → s.lighterOf r c.elem = (die, lighter) →
    (s.dies.find die).isSome = true → cs = s.copiesAt die lighter → key = copyTile c.elem f →
    (∀ (i : Instr) (w : CopyWalk) (d : Bool),
      (i = .cpy k f d ∧ w = .line) ∨ (i = .cpy2d k f d ∧ w = .rows) ∨
      (i = .cpyg k f ∧ w = .index ∧ d = false) ∨ (i = .cpys k f ∧ w = .index ∧ d = true) →
      (c.prog.words = [] →
        (freeHandle cs s.nextId = none ∨ nbit (s.dies.get die).lighters lighter = false →
          exec i s = .next s.idle) ∧
        (∀ handle rec_ base due, nbit (s.dies.get die).lighters lighter = true → freeHandle cs s.nextId = some handle →
          rec_ = x.shape key f.g.toNat f.k.toNat →
          base = s.copyBase r c.elem die l.toNat (if d then needWrite else needRead) →
          due = s.clock die + estimates s.cycle cs + base + (shapeOf rec_).count →
          ∃ (t : State) (m : Command), exec i s = .next (t.completeTo r c
            (Tok.data (promiseWord handle lighter due))) ∧ t.mem = s.mem ∧
          t.copiesAt die lighter =
            cs ++ [⟨handle, r, n, base, (shapeOf rec_).count, 0, none, due % 2 ^ 56⟩] ∧
          (t.run r).cmds.find n = some m ∧ m.task = (x.lighterPort c.elem).ltask.toNat ∧
          m.prog.words = [rec_, (x.lighterPort c.elem).lpitch] ∧ m.prog.nums = [handle])) ∧
      (∀ rec_ pitch h by_, c.prog.words = [rec_, pitch] → h = shapeOf rec_ →
        by_ = (if pitch = 0 then 64 * (h.cols - 1) else pitch.toNat) →
        (s.copyTurn r n c.elem = false → exec i s = .next s.idle) ∧
        (s.copyTurn r n c.elem = true →
          (h.count ≤ c.prog.i → ∃ t : State, exec i s = .next t ∧ t.mem = s.mem ∧
            Answers t r n 0) ∧
          (∀ row col off tb ea a, c.prog.i < h.count → s.tileMasked r key = true →
            x.tileEngine key = true → s.portOpen r key c.rank = true → row = c.prog.i / h.cols → col = c.prog.i % h.cols →
            tb = tileBlock r key (h.at c.prog.i) → ea = (l + BitVec.ofNat 64 off).toNat →
            (w = .line ∧ off = 64 * c.prog.i) ∨ (w = .rows ∧ off = row * by_ + 64 * col) ∨
            (∃ hx ixb v, w = .index ∧ hx = shapeOf (x.shape key f.g.toNat (Nat.xor f.k.toNat 1)) ∧
              ixb = tileBlock r key (hx.at (row / 16)) ∧ h.rows ≤ hx.count * 16 ∧
              (s.sideOf ixb).poison = false ∧ (s.sideOf ixb).fmt = 0x03 ∧
              (blockElems 0x03 (s.block ixb))[row % 16]? = some v ∧ v < 2 ^ 31 ∧
              off = v * by_ + 64 * col) →
            Memory.wf s.mem = true →
            (d = true → WriteHome s r c.elem ea a → (s.sideOf tb).poison = false → ∃ t : State,
              exec i s = .next t ∧ Wrote s t a (s.block tb) ∧
              ((t.run r).cmds.find n).map (fun m => (m.state, m.prog.i)) =
                some (c.state, c.prog.i + 1)) ∧
            (d = false → ReadHome s r c.elem ea a → s.blockBusy tb = false → ∃ t : State,
              exec i s = .next t ∧ Wrote s t tb (s.block a) ∧
              (t.sideOf tb).fmt = (s.blkAt a).fmt ∧
              ((t.run r).cmds.find n).map (fun m => (m.state, m.prog.i)) =
                some (c.state, c.prog.i + 1)))))) ∧
    (∀ lq h, lq = (l.extractLsb' 56 2).toNat → h = (l.extractLsb' 58 6).toNat →
      ((s.copiesAt die lq).findIdx? (fun y => y.handle = h) = none → ∃ t : State,
        exec (.cpyq k) s = .next t ∧ t.mem = s.mem ∧ Answers t r n (promiseWord h lq (s.clock die))) ∧
      (∀ m, (s.copiesAt die lq).findIdx? (fun y => y.handle = h) = some m → ∃ t : State,
        exec (.cpyq k) s = .next t ∧ t.mem = s.mem ∧ Answers t r n (promiseWord h lq
          (s.clock die + estimates s.cycle ((s.copiesAt die lq).take (m + 1))))))

/-- Projection: CAMLD, CAMCOMP, PSTORE, PSTAT, PPRIOR, PCLEAR, the steps of PSCAT, and what
PGATHER and PRAY find (R205, R207, R208, R209, R210, R211, R212, R213, R214, R320, R322, R323). -/
def Obligations.ProjectionCommandsReadAndChangeTheirStore : Prop :=
  ∀ (s : State) (r n : Nat) (x : Run) (c : Command) (k : Cmd) (cam ca cb : BitVec 3) (ng1 : BitVec 3)
    (carve ptrap : Bool) (l : Word),
    Working s r n x c → l = c.msg.operand → (s.ctxs.find x.ctx).isSome = true →
    (∀ a, c.prog.blks = [] → ReadHome s r c.elem l.toNat a → ∃ t : State, exec (.camld k cam) s = .next t ∧
      t.mem = s.mem ∧ Progress t r n c { c.prog with blks := [s.blkAt a] }) ∧
    (∀ b bs a ws, c.prog.blks = b :: bs → ReadHome s r c.elem (l.toNat + 64) a →
      ws = imageWords (b.data ++ s.block a) →
      (idOk (camWord ws camId) = true → ∃ t : State, exec (.camld k cam) s = .next t ∧
        t.mem = s.mem ∧ Answers t r n 0 ∧ (t.ctx x.ctx).cam cam.toNat =
          fillTo 32 0 (ws.take 23 ++ ((s.ctx x.ctx).cam cam.toNat).drop 23)) ∧
      (idOk (camWord ws camId) = false → exec (.camld k cam) s =
        .next (((s.idle.used r c.elem [l.toNat + 64]).setProg r n Prog.zero).engineIllegal r n c))) ∧
    (∃ t : State, exec (.camcomp k cam ca cb) s = .next t ∧ t.mem = s.mem ∧ Answers t r n 0 ∧
      (t.ctx x.ctx).cam cam.toNat = fillTo 32 0
        ((compose ((s.ctx x.ctx).cam ca.toNat) ((s.ctx x.ctx).cam cb.toNat)).1 ++
          ((s.ctx x.ctx).cam cam.toNat).drop 23) ∧
      ∀ j, j ≠ cam.toNat → (t.ctx x.ctx).cam j = (s.ctx x.ctx).cam j) ∧
    (l.toNat % 64 ≠ 0 → exec (.pstore k) s = .next (s.idle.engineFault r n c 0x02 l)) ∧
    (l.toNat % 64 = 0 → s.outOfStore r l.toNat = true →
      exec (.pstore k) s = .next (s.idle.engineFault r n c 0x04 l)) ∧
    (l.toNat % 64 = 0 → s.outOfStore r l.toNat = false →
      (∀ a, c.prog.blks.length < 4 → ReadHome s r c.elem (l.toNat + 64 * c.prog.blks.length) a → ∃ t : State,
        exec (.pstore k) s = .next t ∧ t.mem = s.mem ∧
        Progress t r n c { c.prog with blks := c.prog.blks ++ [s.blkAt a] }) ∧
      (∀ b0 b1 b2 b3 g, c.prog.blks = [b0, b1, b2, b3] → g = descOf b0 b1 →
        s.outOfStore r g.tablebase = false → s.outOfStore r g.poolbase = false →
        s.outOfStore r g.stackbase = false →
        (descOk [b0, b1, b2, b3] g = false → exec (.pstore k) s =
          .next ((s.idle.setProg r n Prog.zero).engineFault r n c 0x13
            (BitVec.ofNat 64 (l.toNat + 64 * descBlock [b0, b1, b2, b3] g)))) ∧
        (descOk [b0, b1, b2, b3] g = true → ∃ t : State, exec (.pstore k) s = .next t ∧
          t.mem = s.mem ∧ Answers t r n (BitVec.ofNat 64 g.f) ∧
          ((t.run r).proj c.elem).psaddr = l ∧ ((t.run r).proj c.elem).desc = some g))) ∧
    ((x.proj c.elem).desc = none ∨ (x.proj c.elem).psaddr = 0 → ∀ (q : BitVec 3),
      ∀ i ∈ [Instr.pstat k q, .pprior k, .pclear k, .pgather k cam ng1,
        .pray k cam ng1, .pscat k cam carve ptrap],
      exec i s = .next (s.idle.engineIllegal r n c)) ∧
    (∀ (g : StoreDesc) (ps : Nat), (x.proj c.elem).desc = some g →
      ps = (x.proj c.elem).psaddr.toNat → ps ≠ 0 →
      (∀ (q : BitVec 3) a, ReadHome s r c.elem (blockAt (counterAddr ps)) a → ∃ t : State,
        exec (.pstat k q) s = .next t ∧ t.mem = s.mem ∧ Answers t r n (BitVec.ofNat 64
          (if q = 0 then g.poolcount - (s.blkAt a).at_ 0 8 else if q = 1 then (s.blkAt a).at_ 0 8
            else (s.blkAt a).at_ (8 * q.toNat) 8))) ∧
      (∀ a, c.prog.blks = [] → ReadHome s r c.elem l.toNat a → (s.sideOf a).fmt = 0x0B → ∃ t : State,
        exec (.pprior k) s = .next t ∧ t.mem = s.mem ∧
        Progress t r n c { c.prog with blks := [s.blkAt a] }) ∧
      (∀ b bs a, c.prog.blks = b :: bs → ReadHome s r c.elem (blockAt (ps + 64)) a →
        WriteHome s r c.elem (blockAt (ps + 64)) a → Memory.wf s.mem = true → ∃ t : State,
        exec (.pprior k) s = .next t ∧ Answers t r n 0 ∧
        Wrote s t a (b.data.take (2 * g.f) ++ (s.block a).drop (2 * g.f)) ∧
        (((t.run r).proj c.elem).desc.map fun d => { d with prior := [] }) =
          some { g with prior := [] }) ∧
      (∀ a, c.prog.nums = [] → c.prog.i < 2 ^ g.t → ReadHome s r c.elem (blockAt (entryAddr g c.prog.i)) a →
        (entryState ((s.blkAt a).at_ (entryAddr g c.prog.i) 8) = 0 → ∃ t : State,
          exec (.pclear k) s = .next t ∧ t.mem = s.mem ∧
          Progress t r n c { c.prog with i := c.prog.i + 1 }) ∧
        (entryState ((s.blkAt a).at_ (entryAddr g c.prog.i) 8) = 3 → Memory.wf s.mem = true →
          WriteHome s r c.elem (blockAt (entryAddr g c.prog.i)) a → ∃ t : State,
          exec (.pclear k) s = .next t ∧
          Wrote s t a ((s.blkAt a).set (entryAddr g c.prog.i) 8 0).data ∧
          Progress t r n c { c.prog with
            nums := [entryBrick ((s.blkAt a).at_ (entryAddr g c.prog.i) 8)] })) ∧
      (∀ brick bs a z top m ca sa, c.prog.nums = brick :: bs → ReadHome s r c.elem (blockAt (counterAddr ps)) a →
        top = (s.blkAt a).at_ 0 8 → ca = blockAt (counterAddr ps) → sa = blockAt (stackAddr g top) →
        ReadHome (s.used r c.elem [ca]) r c.elem sa z →
        WriteHome (s.used r c.elem [ca, sa]) r c.elem sa z → a ≠ z → Memory.wf s.mem = true →
        m = memWrite s.mem z (fillTo 64 0 ((s.blkAt z).set (stackAddr g top) 4 brick).data) →
        WriteHome { s.used r c.elem [ca, sa, sa] with mem := m } r c.elem ca a → ∃ t : State, exec (.pclear k) s = .next t ∧
        t.block z = fillTo 64 0 ((s.blkAt z).set (stackAddr g top) 4 brick).data ∧
        t.block a = fillTo 64 0 ((s.blkAt a).set 0 8 (top + 1)).data ∧
        (∀ y, y < a ∨ a + 64 ≤ y → y < z ∨ z + 64 ≤ y → memGet t.mem y = memGet s.mem y) ∧
        Progress t r n c { c.prog with nums := [], i := c.prog.i + 1, n := c.prog.n + 1 }) ∧
      (∀ a, c.prog.nums = [] → 2 ^ g.t ≤ c.prog.i → ReadHome s r c.elem (blockAt (counterAddr ps)) a →
        WriteHome s r c.elem (blockAt (counterAddr ps)) a → Memory.wf s.mem = true → ∃ t : State,
        exec (.pclear k) s = .next t ∧ Answers t r n (BitVec.ofNat 64 c.prog.n) ∧
        Wrote s t a (((((s.blkAt a).set 16 8 0).set 24 8 0).set 32 8 0).set 40 8 0).data) ∧
      (c.prog.j = stBeat → x.beatDue n c = false → ∀ b, s.inBeat r c.elem 0 = some b →
        (b.ctrl = 7 → exec (.pscat k cam carve ptrap) s = .next (s.idle.engineIllegal r n c)) ∧
        (b.ctrl ≠ 0 → b.ctrl ≠ 7 → ∃ t : State, exec (.pscat k cam carve ptrap) s = .next t ∧
          t.mem = s.mem ∧ Moves r c.elem [0] [] s t ∧ Progress t r n c c.prog) ∧
        (b.ctrl = 0 → b.fmt ≠ 0x0B → exec (.pscat k cam carve ptrap) s =
          .next (s.idle.beatFault r n c 0 b (mkDescr 0x0B 0 true))) ∧
        (b.ctrl = 0 → b.fmt = 0x0B → ∃ t : State, exec (.pscat k cam carve ptrap) s = .next t ∧
          t.mem = s.mem ∧ Moves r c.elem [0] [] s t ∧
          Progress t r n c { c.prog with j := stProject, blks := [⟨b.data, b.descr⟩] })) ∧
      (∀ status q a, (c.prog.j ≠ stBeat ∧ c.target g = none ∧ status = 1 ∧ q = 2) ∨
          (∃ y, c.target g = some y ∧ status = 2 ∧ q = 3 ∧
            (c.prog.j = stDrop ∨ (c.prog.j = stExhausted ∧ ptrap = false))) →
        ReadHome s r c.elem (blockAt (counterAddr ps)) a → WriteHome s r c.elem (blockAt (counterAddr ps)) a →
        Memory.wf s.mem = true → ∃ t : State, exec (.pscat k cam carve ptrap) s = .next t ∧
        Wrote s t a ((s.blkAt a).set (8 * q) 8 ((s.blkAt a).at_ (8 * q) 8 + 1)).data ∧
        Answers t r n (BitVec.ofNat 64 status)) ∧
      (∀ y, c.target g = some y →
        (c.prog.j = stProject → ∃ t : State, exec (.pscat k cam carve ptrap) s = .next t ∧
          t.mem = s.mem ∧ Progress t r n c { c.prog with j := stProbe }) ∧
        (c.prog.j = stProbe → 2 ^ g.t ≤ c.prog.n → ∃ t : State,
          exec (.pscat k cam carve ptrap) s = .next t ∧ t.mem = s.mem ∧
          Progress t r n c { c.prog with j := stExhausted }) ∧
        (∀ ea a, c.prog.j = stProbe → c.prog.n < 2 ^ g.t →
          ea = entryAddr g (probeIx g.t (brickOf y) c.prog.n) → ReadHome s r c.elem (blockAt ea) a →
          (probeEntry (brickOf y) ((s.blkAt a).at_ ea 8) = .reserved →
            exec (.pscat k cam carve ptrap) s = .next s.idle) ∧
          (∀ p, (probeEntry (brickOf y) ((s.blkAt a).at_ ea 8) = .next ∧
              p = { c.prog with n := c.prog.n + 1 }) ∨
            (probeEntry (brickOf y) ((s.blkAt a).at_ ea 8) = .absent ∧
              p = { c.prog with j := stClaim }) ∨
            (∃ brick, probeEntry (brickOf y) ((s.blkAt a).at_ ea 8) = .found brick ∧
              p = { c.prog with j := stUpdate, nums := [brick] }) →
            ∃ t : State, exec (.pscat k cam carve ptrap) s = .next t ∧ t.mem = s.mem ∧
              Progress t r n c p)) ∧
        (∀ brick m a, c.prog.j = stZero → c.prog.nums = [brick, m] → m < brickBlocks g.f →
          WriteHome s r c.elem (blockAt (g.poolbase + brick * 64 * recordBytes g.f + 64 * m)) a →
          Memory.wf s.mem = true → ∃ t : State, exec (.pscat k cam carve ptrap) s = .next t ∧
          Wrote s t a (List.replicate 64 0) ∧
          Progress t r n c { c.prog with nums := [brick, m + 1] }) ∧
        (∀ brick m, c.prog.j = stZero → c.prog.nums = [brick, m] → brickBlocks g.f ≤ m →
          ∃ t : State, exec (.pscat k cam carve ptrap) s = .next t ∧ t.mem = s.mem ∧
          Progress t r n c { c.prog with j := stPublish })) ∧
      (g.f = 4 * (ng1.toNat + 1) → ∀ (d : BitVec 32) (u v : Nat),
        u = (l.extractLsb' 0 16).toNat → v = (l.extractLsb' 16 16).toNat →
        (d = l.extractLsb' 32 32 →
          (project c.prog.camera g u v (val32 d) = none → exec (.pgather k cam ng1) s =
            .next (s.idle.gathered r n c (ng1.toNat + 1) gatherOutside 0 d g.priorBytes)) ∧
          (∀ y ea a w, project c.prog.camera g u v (val32 d) = some y → c.prog.j < 2 ^ g.t →
            ea = entryAddr g (probeIx g.t (brickOf y) c.prog.j) → ReadHome s r c.elem (blockAt ea) a →
            w = (s.blkAt a).at_ ea 8 →
            (probeEntry (brickOf y) w = .next → ∃ t : State, exec (.pgather k cam ng1) s = .next t ∧
              t.mem = s.mem ∧ Progress t r n c { c.prog with j := c.prog.j + 1 }) ∧
            (probeEntry (brickOf y) w = .absent ∨ probeEntry (brickOf y) w = .reserved →
              exec (.pgather k cam ng1) s =
                .next ((s.idle.used r c.elem [blockAt ea]).gathered r n c (ng1.toNat + 1)
                  gatherUnseen 0 d g.priorBytes)) ∧
            (∀ brick eas bs, probeEntry (brickOf y) w = .found brick →
              s.SeenRecord r c.elem (blockAt ea) g brick y eas bs →
              exec (.pgather k cam ng1) s = .next (if 0 < recCount bs
                then (s.idle.used r c.elem (blockAt ea :: eas)).gathered r n c (ng1.toNat + 1)
                  gatherHit (recSum bs) d (viewBytes g.f bs)
                else (s.idle.used r c.elem (blockAt ea :: eas)).gathered r n c (ng1.toNat + 1)
                  gatherUnseen 0 d g.priorBytes)))) ∧
        (d = sampleDepth c.prog.camera (x.proj c.elem).dstep c.prog.i →
          (marchSamples ≤ c.prog.i ∨ ltF (camVal c.prog.camera 7) (val32 d) = true →
            exec (.pray k cam ng1) s = .next (s.idle.gathered r n c (ng1.toNat + 1)
              (if c.prog.ints = [] then gatherOutside else gatherUnseen) 0
              (camWord c.prog.camera 7) g.priorBytes)) ∧
          (c.prog.i < marchSamples → ltF (camVal c.prog.camera 7) (val32 d) = false →
            (project c.prog.camera g u v (val32 d) = none ∨
              (∃ y, project c.prog.camera g u v (val32 d) = some y ∧ c.prog.ints = cellInts y) →
              ∃ t : State, exec (.pray k cam ng1) s = .next t ∧ t.mem = s.mem ∧
                Progress t r n c { c.prog with i := c.prog.i + 1 }) ∧
            (∀ y ea a w, project c.prog.camera g u v (val32 d) = some y → c.prog.ints ≠ cellInts y →
              c.prog.j < 2 ^ g.t → ea = entryAddr g (probeIx g.t (brickOf y) c.prog.j) →
              ReadHome s r c.elem (blockAt ea) a → w = (s.blkAt a).at_ ea 8 →
              (∀ p, (probeEntry (brickOf y) w = .next ∧ p = { c.prog with j := c.prog.j + 1 }) ∨
                ((probeEntry (brickOf y) w = .absent ∨ probeEntry (brickOf y) w = .reserved) ∧
                  p = { c.prog with i := c.prog.i + 1, j := 0, ints := cellInts y }) →
                ∃ t : State, exec (.pray k cam ng1) s = .next t ∧ t.mem = s.mem ∧
                  Progress t r n c p) ∧
              (∀ brick eas bs, probeEntry (brickOf y) w = .found brick →
                s.SeenRecord r c.elem (blockAt ea) g brick y eas bs →
                (0 < recCount bs → (l.extractLsb' 32 32).toNat ≤ recSum bs →
                  exec (.pray k cam ng1) s = .next ((s.idle.used r c.elem (blockAt ea :: eas)).gathered
                    r n c (ng1.toNat + 1) gatherHit (recSum bs) d (viewBytes g.f bs))) ∧
                (recCount bs = 0 ∨ recSum bs < (l.extractLsb' 32 32).toNat → ∃ t : State,
                  exec (.pray k cam ng1) s = .next t ∧ t.mem = s.mem ∧ Progress t r n c
                    { c.prog with i := c.prog.i + 1, j := 0, ints := cellInts y })))))))

/-- Sampler and seam: TOPK, SAMPLE, DRAW, DRAWTAB, ACCEPT, RESID, TREEMASK; SEAMIN, SEAMOUT,
ISECT, UNION, CMPR (R202, R203, R217, R218, R219, R220, R221, R222, R223, R225, R229, R231). -/
def Obligations.SamplerAndSeamCommandsFollowTheirEntries : Prop :=
  (∀ (s : State) (r n : Nat) (x : Run) (c : Command) (k : Cmd) (l seed : Word) (sm : SamplerSt),
    Working s r n x c → l = c.msg.operand → sm = s.sampler r c.elem → seed = c.prog.words.headD 0 →
    (∀ (m : Nat) (clr : Bool), m = (l.extractLsb' 0 7).toNat → clr = l.getLsbD 7 →
      (c.prog.j = 0 →
        ((m = 0 ∨ 64 < m ∨ (clr = false ∧ m ≠ sm.limit)) →
          exec (.topk k) s = .next (s.idle.engineIllegal r n c)) ∧
        (0 < m → m ≤ 64 → clr = true ∨ m = sm.limit → ∃ t : State, exec (.topk k) s = .next t ∧
          t.mem = s.mem ∧ Progress t r n c { c.prog with j := 1 } ∧ (t.sampler r c.elem).limit = m ∧
          (t.sampler r c.elem).cas = if clr then [] else sm.cas)) ∧
      (c.prog.j ≠ 0 → ∀ b, s.inBeat r c.elem 0 = some b →
        (b.ctrl = 7 → ∃ t : State, exec (.topk k) s = .next t ∧ t.mem = s.mem ∧
          Answers t r n (BitVec.ofNat 64 sm.cas.length) ∧ Moves r c.elem [0] [] s t) ∧
        (b.ctrl = 0 → logitSpec b.fmt = none → exec (.topk k) s =
          .next (s.idle.beatFault r n c 0 b (mkDescr 0x09 0 true))) ∧
        (∀ fs, b.ctrl = 0 → logitSpec b.fmt = some fs → ∃ t : State, exec (.topk k) s = .next t ∧
          t.mem = s.mem ∧ Moves r c.elem [0] [] s t ∧ (t.sampler r c.elem).cas =
            (takeLogits fs (l.extractLsb' 32 32).toNat (l.extractLsb' 8 24).toNat m c.prog.i
              (blockElems b.fmt b.data) sm.cas).1 ∧
          Progress t r n c { c.prog with
            i := c.prog.i + (blockElems b.fmt b.data).length }))) ∧
    (sm.cas = [] → exec (.sample k) s = .next (s.idle.engineIllegal r n c)) ∧
    (∀ x0 y0 rest ws d p, sm.cas = (x0, y0) :: rest → sm.sdtab = 0 → d = drawOf seed l →
      ws = (sm.cas.map fun e => (weightOf sm.stemp x0 e.1).1) → p = pick ws (topP ws sm.stopp) d →
      ∃ t : State, exec (.sample k) s = .next t ∧ t.mem = s.mem ∧ (t.sampler r c.elem).cas = [] ∧
      Answers t r n (pickWord (((sm.cas[p.1]?).map Prod.snd).getD 0) p.2.1)) ∧
    (l.toNat < 2 ^ 32 → positive32 (l.extractLsb' 0 32) = true → ∃ t : State,
      exec (.sampleSetStemp k) s = .next t ∧ t.mem = s.mem ∧
      Answers t r n (sm.stemp.setWidth 64) ∧ (t.sampler r c.elem).stemp = l.extractLsb' 0 32) ∧
    (sm.sdtab = 0 → ∃ t : State, exec (.draw k) s = .next t ∧ t.mem = s.mem ∧
      Answers t r n (BitVec.ofNat 64 (drawOf seed l))) ∧
    (sm.sdtab ≠ 0 →
      (∀ a, c.prog.ints = [] → ReadHome s r c.elem sm.sdtab.toNat a → 0 < (s.blkAt a).word 0 →
        (s.blkAt a).word 0 ≤ 1024 → ∃ t : State, exec (.draw k) s = .next t ∧ t.mem = s.mem ∧
        Progress t r n c { c.prog with ints := [((s.blkAt a).word 0 : Int), 0] }) ∧
      (∀ (m e a : Nat), c.prog.ints = [(m : Int), (e : Int)] →
        ReadHome s r c.elem (sm.sdtab.toNat + 64 + 16 * e) a →
        (∀ d, entryDraw l.toNat m e (s.blkAt a) = some d → ∃ t : State,
          exec (.draw k) s = .next t ∧ t.mem = s.mem ∧ Answers t r n (BitVec.ofNat 64 d)) ∧
        (entryDraw l.toNat m e (s.blkAt a) = none → e + 4 < m → ∃ t : State,
          exec (.draw k) s = .next t ∧ t.mem = s.mem ∧
          Progress t r n c { c.prog with ints := [(m : Int), ((e + 4 : Nat) : Int)] }) ∧
        (entryDraw l.toNat m e (s.blkAt a) = none → m ≤ e + 4 → exec (.draw k) s =
          .next (((s.idle.used r c.elem [sm.sdtab.toNat + 64 + 16 * e]).setProg r n
            { c.prog with ints := drawStopped }).engineFault r n c 0x01 l)))) ∧
    (l = 0 → ∃ t : State, exec (.drawtab k) s = .next t ∧ t.mem = s.mem ∧ Answers t r n sm.sdtab ∧
      (t.sampler r c.elem).sdtab = 0) ∧
    (∀ a, l ≠ 0 → ReadHome s r c.elem l.toNat a →
      ((s.blkAt a).word 0 = 0 ∨ 1024 < (s.blkAt a).word 0 →
        exec (.drawtab k) s = .next ((s.idle.used r c.elem [l.toNat]).engineIllegal r n c)) ∧
      (0 < (s.blkAt a).word 0 → (s.blkAt a).word 0 ≤ 1024 → ∃ t : State,
        exec (.drawtab k) s = .next t ∧ t.mem = s.mem ∧ Answers t r n sm.sdtab ∧
        (t.sampler r c.elem).sdtab = l)) ∧
    (∀ a, c.prog.blks = [] → ReadHome s r c.elem l.toNat a →
      (acceptHeaderOk (s.blkAt a) = true → ∃ t : State, exec (.accept k) s = .next t ∧
        t.mem = s.mem ∧ Progress t r n c { c.prog with blks := [s.blkAt a] }) ∧
      (acceptHeaderOk (s.blkAt a) = false →
        exec (.accept k) s = .next ((s.idle.used r c.elem [l.toNat]).engineIllegal r n c)) ∧
      (residOk (s.blkAt a) = true → ∃ t : State, exec (.resid k) s = .next t ∧
        t.mem = s.mem ∧ Progress t r n c { c.prog with blks := [s.blkAt a] }) ∧
      (residOk (s.blkAt a) = false → exec (.resid k) s =
        .next ((s.idle.used r c.elem [l.toNat]).engineIllegal r n c))) ∧
    (∀ h bs m, c.prog.blks = h :: bs → m = h.at_ 0 1 →
      (∀ a, bs.length < (m + 3) / 4 → ReadHome s r c.elem (l.toNat + 64 * (bs.length + 1)) a → ∃ t : State,
        exec (.accept k) s = .next t ∧ t.mem = s.mem ∧
        Progress t r n c { c.prog with blks := h :: bs ++ [s.blkAt a] }) ∧
      ((m + 3) / 4 ≤ bs.length → (∀ j < m, (acceptEntry bs j).1 < 2 ^ 33) →
        (m ≤ c.prog.i → ∃ t : State, exec (.accept k) s = .next t ∧ t.mem = s.mem ∧
          Answers t r n (BitVec.ofNat 64 c.prog.i)) ∧
        (∀ ok, c.prog.i < m → sm.sdtab = 0 → ok = (acceptTest (acceptEntry bs c.prog.i)
            (drawOf seed (drawKey (h.at_ 4 4) (h.word 1) c.prog.i 0))).1 →
          (ok = true → ∃ t : State, exec (.accept k) s = .next t ∧ t.mem = s.mem ∧
            Progress t r n c { c.prog with i := c.prog.i + 1, ints := [] }) ∧
          (ok = false → ∃ t : State, exec (.accept k) s = .next t ∧ t.mem = s.mem ∧
            Answers t r n (BitVec.ofNat 64 (c.prog.i + 64)))))) ∧
    (∀ (h : Blk) (bs : List Blk) (v nb : Nat) (bonus : Bool), c.prog.blks = h :: bs →
      v = h.word 4 → nb = (v + 15) / 16 → bonus = nbit (h.word 1) 8 →
      (∀ ea a, bs.length < nb ∨ (bonus = false ∧ bs.length < 2 * nb) →
        ea = (if bs.length < nb then h.word 2 + 64 * bs.length
          else h.word 3 + 64 * (bs.length - nb)) →
        ReadHome s r c.elem (ea % 2 ^ 64) a → (s.sideOf a).fmt = 0x09 → ∃ t : State,
        exec (.resid k) s = .next t ∧ t.mem = s.mem ∧
        Progress t r n c { c.prog with blks := h :: bs ++ [s.blkAt a] }) ∧
      (∀ ps qs ws us p, nb ≤ bs.length → bonus = true ∨ 2 * nb ≤ bs.length →
        ps = residInputs v (bs.take nb) → qs = residInputs v (bs.drop nb) →
        ws = residWeights bonus ps qs →
        us = (if (ws.map Prod.fst).sum = 0 then residWeights true ps [] else ws) →
        (us.map Prod.fst).sum ≠ 0 → sm.sdtab = 0 →
        p = pick (us.map Prod.fst) us.length
          (drawOf seed (drawKey (h.at_ 4 4) (h.at_ 0 2) (nbits (h.word 1) 0 6) 1)) →
        ∃ t : State, exec (.resid k) s = .next t ∧ t.mem = s.mem ∧
        Answers t r n (pickWord p.1 p.2.1))) ∧
    (128 ≤ l.toNat ∨ l.toNat = 0 ∨ 64 < l.toNat →
      exec (.treemask k) s = .next (s.idle.engineIllegal r n c)) ∧
    (HasRoom s r x c 1 → 0 < l.toNat → l.toNat ≤ 64 → ∀ b, s.inBeat r c.elem 0 = some b →
      (b.ctrl ≠ 0 → ∃ t : State, exec (.treemask k) s = .next t ∧ t.mem = s.mem ∧
        Moves r c.elem [0] [] s t ∧ Progress t r n c c.prog) ∧
      (b.ctrl = 0 → b.fmt ≠ 0x05 → exec (.treemask k) s =
        .next (s.idle.beatFault r n c 0 b (mkDescr 0x05 0 true))) ∧
      (∀ rows, b.ctrl = 0 → b.fmt = 0x05 → treeRows 0 (b.data.take l.toNat) [] = .ok rows →
        ∃ t : State, exec (.treemask k) s = .next t ∧ t.mem = s.mem ∧ Answers t r n l ∧
        Moves r c.elem [0] [(1, treeBeats rows)] s t) ∧
      (∀ i, b.ctrl = 0 → b.fmt = 0x05 → treeRows 0 (b.data.take l.toNat) [] = .error i →
        exec (.treemask k) s = .next ((s.idle.takeBeat r c.elem 0).engineFault r n c 0x01
          (BitVec.ofNat 64 i))))) ∧
  (∀ (s : State) (r n : Nat) (x : Run) (c : Command) (k : Cmd) (l : Word) (m : BitVec 3) (q : Bool)
    (ew : ElemWidth) (w : Nat),
    Working s r n x c → l = c.msg.operand → w = ewBits ew →
    (HasRoom s r x c q.toNat → ∀ (st : SeamTok) (tok : Tok),
      (x.seam c.elem).inputs.find? (fun t => t.input = m.toNat) = some st → tok = st.tok →
      (∀ es, tok.kind = .data ∨ tok.kind = .unseen → es = c.prog.words ++ [tok.val] → ∃ t : State,
        exec (.seamin k m q ew) s = .next t ∧ t.mem = s.mem ∧
        ((t.run r).seam c.elem).inputs = dropInput m.toNat (x.seam c.elem).inputs ∧
        (es.length = 512 / w → Progress t r n c { c.prog with words := [], n := c.prog.n + 1 } ∧
          Moves r c.elem [] [(q.toNat, [seamBeat w (l.extractLsb' 0 16).toNat es])] s t) ∧
        (es.length ≠ 512 / w → Moves r c.elem [] [] s t ∧
          Progress t r n c { c.prog with words := es })) ∧
      (∀ bs, tok.kind = .stop → tok.level ≠ 0 → bs = (if c.prog.words = [] then []
          else [seamBeat w (l.extractLsb' 0 16).toNat c.prog.words]) ++ [Beat.stop tok.level] →
        ∃ t : State, exec (.seamin k m q ew) s = .next t ∧ t.mem = s.mem ∧
        Moves r c.elem [] [(q.toNat, bs)] s t ∧
        (tok.level = 7 → Answers t r n (BitVec.ofNat 64 (c.prog.n + bs.length))) ∧
        (tok.level ≠ 7 →
          Progress t r n c { c.prog with words := [], n := c.prog.n + bs.length })) ∧
      (tok.kind = .stop → tok.level = 0 → exec (.seamin k m q ew) s =
        .next (s.idle.seamTrap r n c st 0x01 l (.engine n))) ∧
      (tok.kind = .poison → exec (.seamin k m q ew) s = .next (s.idle.seamTrap r n c st
        0x0C (BitVec.ofNat 64 tok.paddr) (.seamPoison n))) ∧
      (tok.kind = .null → ∃ t : State, exec (.seamin k m q ew) s = .next t ∧ t.mem = s.mem ∧
        ((t.run r).seam c.elem).inputs = dropInput m.toNat (x.seam c.elem).inputs ∧
        Progress t r n c c.prog)) ∧
    (∀ b, s.inBeat r c.elem q.toNat = some b →
      (∀ cause, s.seamoutBad r l = some cause →
        exec (.seamout k q ew) s = .next (s.idle.engineFault r n c cause l)) ∧
      (∀ dst es, s.seamoutBad r l = none → s.destKey r l = some dst →
        es = (if b.ctrl = 0 then (chunks (w / 8) 64 b.data).map
          fun e => Tok.data (BitVec.ofNat 64 (ofBytes e)) else [Tok.stop b.ctrl]) → ∃ t : State,
        exec (.seamout k q ew) s = .next t ∧ t.mem = s.mem ∧ Moves r c.elem [q.toNat] [] s t ∧
        (∀ j tok, es[j]? = some tok → t.flits.find (s.nextId + j) = some ⟨r, c.elem, dst,
          (l.extractLsb' 12 5).toNat, (l.extractLsb' 10 2).toNat, x.ctx, (l.extractLsb' 0 10).toNat,
          ((l.extractLsb' 32 16).toNat + (c.prog.n + j)) % 65536, tok, none, true, true⟩) ∧
        (b.ctrl = 0 → Progress t r n c { c.prog with n := c.prog.n + es.length }) ∧
        (b.ctrl = 7 → Answers t r n (BitVec.ofNat 64 c.prog.n)))) ∧
    (HasRoom s r x c 0 → (x.inEnd c.elem 1).isSome = true → ∀ a b,
      s.inBeat r c.elem 0 = some a → s.inBeat r c.elem 1 = some b →
      (a = b → ∃ t : State, exec (.cmpr k) s = .next t ∧ t.mem = s.mem ∧
        Moves r c.elem [0, 1] [(0, [a])] s t ∧ (a.ctrl = 7 → Answers t r n 0)) ∧
      (a ≠ b → (x.seam c.elem).mcnt = false → ∃ t : State, exec (.cmpr k) s = .next t ∧
        t.mem = s.mem ∧ Answers t r n 1 ∧ ((t.run r).seam c.elem).mcnt = true) ∧
      (a ≠ b → (x.seam c.elem).mcnt = true →
        exec (.cmpr k) s = .next (s.idle.trapMismatch r n c))) ∧
    (HasRoom s r x c 0 → HasRoom s r x c 1 → ∀ (i : Instr) (u : Bool),
      (i = .isect k ∧ u = false) ∨ (i = .union k ∧ u = true) →
      (c.prog.words = [] → ∃ t : State, exec i s = .next t ∧ t.mem = s.mem ∧
        Progress t r n c { c.prog with words := joinWords (x.seam c.elem) }) ∧
      (5 ≤ c.prog.words.length → c.prog.paired = false → c.prog.j = 0 → ∀ a b,
        s.inBeat r c.elem 0 = some a → s.inBeat r c.elem 1 = some b →
        (a.ctrl = 7 → b.ctrl = 7 → ∃ t : State, exec i s = .next t ∧ t.mem = s.mem ∧
          Moves r c.elem [0, 1] [(0, [Beat.eos]), (1, [Beat.eos])] s t ∧
          Answers t r n (BitVec.ofNat 64 c.prog.n)) ∧
        (a.ctrl ≠ 7 → b.ctrl ≠ 7 → ∃ t : State, exec i s = .next t ∧ t.mem = s.mem ∧
          Progress t r n c (c.prog.openPair true))) ∧
      (5 ≤ c.prog.words.length → c.prog.paired = true → ∀ xs ys,
        xs = c.prog.sidePairs false → ys = c.prog.sidePairs true →
        (xs ≠ [] → ys ≠ [] → ∀ os xs' ys' pend z, mergePairs u 32 xs ys = (os, xs', ys') →
          pend = c.prog.outs ++ os → z = pend.length / 16 * 16 → ∃ (t : State) (d : Command),
          exec i s = .next t ∧ t.mem = s.mem ∧ Moves r c.elem []
            [(0, coordBeats (c.prog.vtOf false) ((pend.take z).map fun o => (outCoord o, outA o))),
             (1, coordBeats (c.prog.vtOf true) ((pend.take z).map fun o => (outCoord o, outB o)))] s t ∧
          (t.run r).cmds.find n = some d ∧ d.prog.n = c.prog.n + z ∧ d.prog.outs = pend.drop z ∧
          d.prog.sidePairs false = xs' ∧ d.prog.sidePairs true = ys') ∧
        (∀ b, xs = [] → s.inBeat r c.elem 0 = some b → b.ctrl = 0 →
          b.vt = some (c.prog.vtOf false) → descent (c.prog.wd 2) (pairsOf b.data) = none →
          ∃ (t : State) (d : Command), exec i s = .next t ∧ t.mem = s.mem ∧
          Moves r c.elem [0] [] s t ∧ (t.run r).cmds.find n = some d ∧
          d.prog.sidePairs false = pairsOf b.data ∧ d.prog.sidePairs true = ys ∧
          d.prog.outs = c.prog.outs) ∧
        (∀ a b os, xs = [] → ys = [] → s.inBeat r c.elem 0 = some a →
          s.inBeat r c.elem 1 = some b → a.ctrl ≠ 0 → a.ctrl < 7 → b.ctrl = a.ctrl →
          os = c.prog.outs → ∃ t : State, exec i s = .next t ∧ t.mem = s.mem ∧
          Moves r c.elem [0, 1] [
            (0, (if os = [] then (if c.prog.begun then [] else [coordBeat (c.prog.vtOf false) []])
              else coordBeats (c.prog.vtOf false) (os.map fun o => (outCoord o, outA o))) ++
              [Beat.stop a.ctrl]),
            (1, (if os = [] then (if c.prog.begun then [] else [coordBeat (c.prog.vtOf true) []])
              else coordBeats (c.prog.vtOf true) (os.map fun o => (outCoord o, outB o))) ++
              [Beat.stop a.ctrl])] s t)))) ∧
  (∀ (u : Bool) (xs ys xs' ys' : List (Nat × Nat)) (os : List Word), xs.length ≤ 16 →
    ys.length ≤ 16 → (xs.map Prod.fst).Pairwise (· < ·) → (ys.map Prod.fst).Pairwise (· < ·) →
    mergePairs u 32 xs ys = (os, xs', ys') →
    (xs' = [] ∨ ys' = []) ∧
    (∀ p ∈ xs, ∀ q ∈ ys, p.1 = q.1 → packOut p.1 p.2 q.2 ∈ os) ∧
    (u = false → ∀ o ∈ os, ∃ p ∈ xs, ∃ q ∈ ys, p.1 = q.1 ∧ o = packOut p.1 p.2 q.2))
end

