-- ==== Sys2Proof/Laws/State.lean ====
section
/-! SUPPORT. One lemma for each field of the state under each of its updates. -/

namespace Sys2Proof.Machine

/-! ## idle -/

@[simp] theorem State.idle_cycle (s : State) : s.idle.cycle = s.cycle := rfl
@[simp] theorem State.idle_focus (s : State) : s.idle.focus = .idle := rfl
@[simp] theorem State.idle_agenda (s : State) : s.idle.agenda = s.agenda := rfl
@[simp] theorem State.idle_tick (s : State) : s.idle.tick = s.tick := rfl
@[simp] theorem State.idle_nextId (s : State) : s.idle.nextId = s.nextId := rfl
@[simp] theorem State.idle_mem (s : State) : s.idle.mem = s.mem := rfl
@[simp] theorem State.idle_side (s : State) : s.idle.side = s.side := rfl
@[simp] theorem State.idle_runs (s : State) : s.idle.runs = s.runs := rfl
@[simp] theorem State.idle_ctxs (s : State) : s.idle.ctxs = s.ctxs := rfl
@[simp] theorem State.idle_reqs (s : State) : s.idle.reqs = s.reqs := rfl
@[simp] theorem State.idle_walks (s : State) : s.idle.walks = s.walks := rfl
@[simp] theorem State.idle_tlb (s : State) : s.idle.tlb = s.tlb := rfl
@[simp] theorem State.idle_tlbinv (s : State) : s.idle.tlbinv = s.tlbinv := rfl
@[simp] theorem State.idle_flits (s : State) : s.idle.flits = s.flits := rfl
@[simp] theorem State.idle_waves (s : State) : s.idle.waves = s.waves := rfl
@[simp] theorem State.idle_queues (s : State) : s.idle.queues = s.queues := rfl
@[simp] theorem State.idle_jobs (s : State) : s.idle.jobs = s.jobs := rfl
@[simp] theorem State.idle_nextJob (s : State) : s.idle.nextJob = s.nextJob := rfl
@[simp] theorem State.idle_pendingStarts (s : State) : s.idle.pendingStarts = s.pendingStarts := rfl
@[simp] theorem State.idle_cancelWaits (s : State) : s.idle.cancelWaits = s.cancelWaits := rfl
@[simp] theorem State.idle_dies (s : State) : s.idle.dies = s.dies := rfl
@[simp] theorem State.idle_owners (s : State) : s.idle.owners = s.owners := rfl
@[simp] theorem State.idle_packetsOut (s : State) : s.idle.packetsOut = s.packetsOut := rfl
@[simp] theorem State.idle_quarantine (s : State) : s.idle.quarantine = s.quarantine := rfl
@[simp] theorem State.idle_links (s : State) : s.idle.links = s.links := rfl
@[simp] theorem State.idle_life (s : State) : s.idle.life = s.life := rfl
@[simp] theorem State.idle_hostRead (s : State) : s.idle.hostRead = s.hostRead := rfl

/-! ## editRun -/

@[simp] theorem State.editRun_cycle (s : State) (r : Nat) (f : Run → Run) :
    (s.editRun r f).cycle = s.cycle := rfl
@[simp] theorem State.editRun_focus (s : State) (r : Nat) (f : Run → Run) :
    (s.editRun r f).focus = s.focus := rfl
@[simp] theorem State.editRun_agenda (s : State) (r : Nat) (f : Run → Run) :
    (s.editRun r f).agenda = s.agenda := rfl
@[simp] theorem State.editRun_tick (s : State) (r : Nat) (f : Run → Run) :
    (s.editRun r f).tick = s.tick := rfl
@[simp] theorem State.editRun_nextId (s : State) (r : Nat) (f : Run → Run) :
    (s.editRun r f).nextId = s.nextId := rfl
@[simp] theorem State.editRun_mem (s : State) (r : Nat) (f : Run → Run) :
    (s.editRun r f).mem = s.mem := rfl
@[simp] theorem State.editRun_side (s : State) (r : Nat) (f : Run → Run) :
    (s.editRun r f).side = s.side := rfl
@[simp] theorem State.editRun_runs (s : State) (r : Nat) (f : Run → Run) :
    (s.editRun r f).runs = s.runs.edit r f := rfl
@[simp] theorem State.editRun_ctxs (s : State) (r : Nat) (f : Run → Run) :
    (s.editRun r f).ctxs = s.ctxs := rfl
@[simp] theorem State.editRun_reqs (s : State) (r : Nat) (f : Run → Run) :
    (s.editRun r f).reqs = s.reqs := rfl
@[simp] theorem State.editRun_walks (s : State) (r : Nat) (f : Run → Run) :
    (s.editRun r f).walks = s.walks := rfl
@[simp] theorem State.editRun_tlb (s : State) (r : Nat) (f : Run → Run) :
    (s.editRun r f).tlb = s.tlb := rfl
@[simp] theorem State.editRun_tlbinv (s : State) (r : Nat) (f : Run → Run) :
    (s.editRun r f).tlbinv = s.tlbinv := rfl
@[simp] theorem State.editRun_flits (s : State) (r : Nat) (f : Run → Run) :
    (s.editRun r f).flits = s.flits := rfl
@[simp] theorem State.editRun_waves (s : State) (r : Nat) (f : Run → Run) :
    (s.editRun r f).waves = s.waves := rfl
@[simp] theorem State.editRun_queues (s : State) (r : Nat) (f : Run → Run) :
    (s.editRun r f).queues = s.queues := rfl
@[simp] theorem State.editRun_jobs (s : State) (r : Nat) (f : Run → Run) :
    (s.editRun r f).jobs = s.jobs := rfl
@[simp] theorem State.editRun_nextJob (s : State) (r : Nat) (f : Run → Run) :
    (s.editRun r f).nextJob = s.nextJob := rfl
@[simp] theorem State.editRun_pendingStarts (s : State) (r : Nat) (f : Run → Run) :
    (s.editRun r f).pendingStarts = s.pendingStarts := rfl
@[simp] theorem State.editRun_cancelWaits (s : State) (r : Nat) (f : Run → Run) :
    (s.editRun r f).cancelWaits = s.cancelWaits := rfl
@[simp] theorem State.editRun_dies (s : State) (r : Nat) (f : Run → Run) :
    (s.editRun r f).dies = s.dies := rfl
@[simp] theorem State.editRun_owners (s : State) (r : Nat) (f : Run → Run) :
    (s.editRun r f).owners = s.owners := rfl
@[simp] theorem State.editRun_packetsOut (s : State) (r : Nat) (f : Run → Run) :
    (s.editRun r f).packetsOut = s.packetsOut := rfl
@[simp] theorem State.editRun_quarantine (s : State) (r : Nat) (f : Run → Run) :
    (s.editRun r f).quarantine = s.quarantine := rfl
@[simp] theorem State.editRun_links (s : State) (r : Nat) (f : Run → Run) :
    (s.editRun r f).links = s.links := rfl
@[simp] theorem State.editRun_life (s : State) (r : Nat) (f : Run → Run) :
    (s.editRun r f).life = s.life := rfl
@[simp] theorem State.editRun_hostRead (s : State) (r : Nat) (f : Run → Run) :
    (s.editRun r f).hostRead = s.hostRead := rfl

/-! ## editElem -/

@[simp] theorem State.editElem_cycle (s : State) (r e : Nat) (f : Elem → Elem) :
    (s.editElem r e f).cycle = s.cycle := rfl
@[simp] theorem State.editElem_focus (s : State) (r e : Nat) (f : Elem → Elem) :
    (s.editElem r e f).focus = s.focus := rfl
@[simp] theorem State.editElem_agenda (s : State) (r e : Nat) (f : Elem → Elem) :
    (s.editElem r e f).agenda = s.agenda := rfl
@[simp] theorem State.editElem_tick (s : State) (r e : Nat) (f : Elem → Elem) :
    (s.editElem r e f).tick = s.tick := rfl
@[simp] theorem State.editElem_nextId (s : State) (r e : Nat) (f : Elem → Elem) :
    (s.editElem r e f).nextId = s.nextId := rfl
@[simp] theorem State.editElem_mem (s : State) (r e : Nat) (f : Elem → Elem) :
    (s.editElem r e f).mem = s.mem := rfl
@[simp] theorem State.editElem_side (s : State) (r e : Nat) (f : Elem → Elem) :
    (s.editElem r e f).side = s.side := rfl
@[simp] theorem State.editElem_runs (s : State) (r e : Nat) (f : Elem → Elem) :
    (s.editElem r e f).runs = s.runs.edit r fun x => { x with elems := x.elems.edit e f } := rfl
@[simp] theorem State.editElem_ctxs (s : State) (r e : Nat) (f : Elem → Elem) :
    (s.editElem r e f).ctxs = s.ctxs := rfl
@[simp] theorem State.editElem_reqs (s : State) (r e : Nat) (f : Elem → Elem) :
    (s.editElem r e f).reqs = s.reqs := rfl
@[simp] theorem State.editElem_walks (s : State) (r e : Nat) (f : Elem → Elem) :
    (s.editElem r e f).walks = s.walks := rfl
@[simp] theorem State.editElem_tlb (s : State) (r e : Nat) (f : Elem → Elem) :
    (s.editElem r e f).tlb = s.tlb := rfl
@[simp] theorem State.editElem_tlbinv (s : State) (r e : Nat) (f : Elem → Elem) :
    (s.editElem r e f).tlbinv = s.tlbinv := rfl
@[simp] theorem State.editElem_flits (s : State) (r e : Nat) (f : Elem → Elem) :
    (s.editElem r e f).flits = s.flits := rfl
@[simp] theorem State.editElem_waves (s : State) (r e : Nat) (f : Elem → Elem) :
    (s.editElem r e f).waves = s.waves := rfl
@[simp] theorem State.editElem_queues (s : State) (r e : Nat) (f : Elem → Elem) :
    (s.editElem r e f).queues = s.queues := rfl
@[simp] theorem State.editElem_jobs (s : State) (r e : Nat) (f : Elem → Elem) :
    (s.editElem r e f).jobs = s.jobs := rfl
@[simp] theorem State.editElem_nextJob (s : State) (r e : Nat) (f : Elem → Elem) :
    (s.editElem r e f).nextJob = s.nextJob := rfl
@[simp] theorem State.editElem_pendingStarts (s : State) (r e : Nat) (f : Elem → Elem) :
    (s.editElem r e f).pendingStarts = s.pendingStarts := rfl
@[simp] theorem State.editElem_cancelWaits (s : State) (r e : Nat) (f : Elem → Elem) :
    (s.editElem r e f).cancelWaits = s.cancelWaits := rfl
@[simp] theorem State.editElem_dies (s : State) (r e : Nat) (f : Elem → Elem) :
    (s.editElem r e f).dies = s.dies := rfl
@[simp] theorem State.editElem_owners (s : State) (r e : Nat) (f : Elem → Elem) :
    (s.editElem r e f).owners = s.owners := rfl
@[simp] theorem State.editElem_packetsOut (s : State) (r e : Nat) (f : Elem → Elem) :
    (s.editElem r e f).packetsOut = s.packetsOut := rfl
@[simp] theorem State.editElem_quarantine (s : State) (r e : Nat) (f : Elem → Elem) :
    (s.editElem r e f).quarantine = s.quarantine := rfl
@[simp] theorem State.editElem_links (s : State) (r e : Nat) (f : Elem → Elem) :
    (s.editElem r e f).links = s.links := rfl
@[simp] theorem State.editElem_life (s : State) (r e : Nat) (f : Elem → Elem) :
    (s.editElem r e f).life = s.life := rfl
@[simp] theorem State.editElem_hostRead (s : State) (r e : Nat) (f : Elem → Elem) :
    (s.editElem r e f).hostRead = s.hostRead := rfl

/-! ## editAct -/

@[simp] theorem State.editAct_cycle (s : State) (r e n : Nat) (f : Act → Act) :
    (s.editAct r e n f).cycle = s.cycle := rfl
@[simp] theorem State.editAct_focus (s : State) (r e n : Nat) (f : Act → Act) :
    (s.editAct r e n f).focus = s.focus := rfl
@[simp] theorem State.editAct_agenda (s : State) (r e n : Nat) (f : Act → Act) :
    (s.editAct r e n f).agenda = s.agenda := rfl
@[simp] theorem State.editAct_tick (s : State) (r e n : Nat) (f : Act → Act) :
    (s.editAct r e n f).tick = s.tick := rfl
@[simp] theorem State.editAct_nextId (s : State) (r e n : Nat) (f : Act → Act) :
    (s.editAct r e n f).nextId = s.nextId := rfl
@[simp] theorem State.editAct_mem (s : State) (r e n : Nat) (f : Act → Act) :
    (s.editAct r e n f).mem = s.mem := rfl
@[simp] theorem State.editAct_side (s : State) (r e n : Nat) (f : Act → Act) :
    (s.editAct r e n f).side = s.side := rfl
@[simp] theorem State.editAct_runs (s : State) (r e n : Nat) (f : Act → Act) :
    (s.editAct r e n f).runs = s.runs.edit r fun x => { x with elems := x.elems.edit e fun y => y.editAct n f } := rfl
@[simp] theorem State.editAct_ctxs (s : State) (r e n : Nat) (f : Act → Act) :
    (s.editAct r e n f).ctxs = s.ctxs := rfl
@[simp] theorem State.editAct_reqs (s : State) (r e n : Nat) (f : Act → Act) :
    (s.editAct r e n f).reqs = s.reqs := rfl
@[simp] theorem State.editAct_walks (s : State) (r e n : Nat) (f : Act → Act) :
    (s.editAct r e n f).walks = s.walks := rfl
@[simp] theorem State.editAct_tlb (s : State) (r e n : Nat) (f : Act → Act) :
    (s.editAct r e n f).tlb = s.tlb := rfl
@[simp] theorem State.editAct_tlbinv (s : State) (r e n : Nat) (f : Act → Act) :
    (s.editAct r e n f).tlbinv = s.tlbinv := rfl
@[simp] theorem State.editAct_flits (s : State) (r e n : Nat) (f : Act → Act) :
    (s.editAct r e n f).flits = s.flits := rfl
@[simp] theorem State.editAct_waves (s : State) (r e n : Nat) (f : Act → Act) :
    (s.editAct r e n f).waves = s.waves := rfl
@[simp] theorem State.editAct_queues (s : State) (r e n : Nat) (f : Act → Act) :
    (s.editAct r e n f).queues = s.queues := rfl
@[simp] theorem State.editAct_jobs (s : State) (r e n : Nat) (f : Act → Act) :
    (s.editAct r e n f).jobs = s.jobs := rfl
@[simp] theorem State.editAct_nextJob (s : State) (r e n : Nat) (f : Act → Act) :
    (s.editAct r e n f).nextJob = s.nextJob := rfl
@[simp] theorem State.editAct_pendingStarts (s : State) (r e n : Nat) (f : Act → Act) :
    (s.editAct r e n f).pendingStarts = s.pendingStarts := rfl
@[simp] theorem State.editAct_cancelWaits (s : State) (r e n : Nat) (f : Act → Act) :
    (s.editAct r e n f).cancelWaits = s.cancelWaits := rfl
@[simp] theorem State.editAct_dies (s : State) (r e n : Nat) (f : Act → Act) :
    (s.editAct r e n f).dies = s.dies := rfl
@[simp] theorem State.editAct_owners (s : State) (r e n : Nat) (f : Act → Act) :
    (s.editAct r e n f).owners = s.owners := rfl
@[simp] theorem State.editAct_packetsOut (s : State) (r e n : Nat) (f : Act → Act) :
    (s.editAct r e n f).packetsOut = s.packetsOut := rfl
@[simp] theorem State.editAct_quarantine (s : State) (r e n : Nat) (f : Act → Act) :
    (s.editAct r e n f).quarantine = s.quarantine := rfl
@[simp] theorem State.editAct_links (s : State) (r e n : Nat) (f : Act → Act) :
    (s.editAct r e n f).links = s.links := rfl
@[simp] theorem State.editAct_life (s : State) (r e n : Nat) (f : Act → Act) :
    (s.editAct r e n f).life = s.life := rfl
@[simp] theorem State.editAct_hostRead (s : State) (r e n : Nat) (f : Act → Act) :
    (s.editAct r e n f).hostRead = s.hostRead := rfl

/-! ## editCtx -/

@[simp] theorem State.editCtx_cycle (s : State) (c : Nat) (f : Ctx → Ctx) :
    (s.editCtx c f).cycle = s.cycle := rfl
@[simp] theorem State.editCtx_focus (s : State) (c : Nat) (f : Ctx → Ctx) :
    (s.editCtx c f).focus = s.focus := rfl
@[simp] theorem State.editCtx_agenda (s : State) (c : Nat) (f : Ctx → Ctx) :
    (s.editCtx c f).agenda = s.agenda := rfl
@[simp] theorem State.editCtx_tick (s : State) (c : Nat) (f : Ctx → Ctx) :
    (s.editCtx c f).tick = s.tick := rfl
@[simp] theorem State.editCtx_nextId (s : State) (c : Nat) (f : Ctx → Ctx) :
    (s.editCtx c f).nextId = s.nextId := rfl
@[simp] theorem State.editCtx_mem (s : State) (c : Nat) (f : Ctx → Ctx) :
    (s.editCtx c f).mem = s.mem := rfl
@[simp] theorem State.editCtx_side (s : State) (c : Nat) (f : Ctx → Ctx) :
    (s.editCtx c f).side = s.side := rfl
@[simp] theorem State.editCtx_runs (s : State) (c : Nat) (f : Ctx → Ctx) :
    (s.editCtx c f).runs = s.runs := rfl
@[simp] theorem State.editCtx_ctxs (s : State) (c : Nat) (f : Ctx → Ctx) :
    (s.editCtx c f).ctxs = s.ctxs.edit c f := rfl
@[simp] theorem State.editCtx_reqs (s : State) (c : Nat) (f : Ctx → Ctx) :
    (s.editCtx c f).reqs = s.reqs := rfl
@[simp] theorem State.editCtx_walks (s : State) (c : Nat) (f : Ctx → Ctx) :
    (s.editCtx c f).walks = s.walks := rfl
@[simp] theorem State.editCtx_tlb (s : State) (c : Nat) (f : Ctx → Ctx) :
    (s.editCtx c f).tlb = s.tlb := rfl
@[simp] theorem State.editCtx_tlbinv (s : State) (c : Nat) (f : Ctx → Ctx) :
    (s.editCtx c f).tlbinv = s.tlbinv := rfl
@[simp] theorem State.editCtx_flits (s : State) (c : Nat) (f : Ctx → Ctx) :
    (s.editCtx c f).flits = s.flits := rfl
@[simp] theorem State.editCtx_waves (s : State) (c : Nat) (f : Ctx → Ctx) :
    (s.editCtx c f).waves = s.waves := rfl
@[simp] theorem State.editCtx_queues (s : State) (c : Nat) (f : Ctx → Ctx) :
    (s.editCtx c f).queues = s.queues := rfl
@[simp] theorem State.editCtx_jobs (s : State) (c : Nat) (f : Ctx → Ctx) :
    (s.editCtx c f).jobs = s.jobs := rfl
@[simp] theorem State.editCtx_nextJob (s : State) (c : Nat) (f : Ctx → Ctx) :
    (s.editCtx c f).nextJob = s.nextJob := rfl
@[simp] theorem State.editCtx_pendingStarts (s : State) (c : Nat) (f : Ctx → Ctx) :
    (s.editCtx c f).pendingStarts = s.pendingStarts := rfl
@[simp] theorem State.editCtx_cancelWaits (s : State) (c : Nat) (f : Ctx → Ctx) :
    (s.editCtx c f).cancelWaits = s.cancelWaits := rfl
@[simp] theorem State.editCtx_dies (s : State) (c : Nat) (f : Ctx → Ctx) :
    (s.editCtx c f).dies = s.dies := rfl
@[simp] theorem State.editCtx_owners (s : State) (c : Nat) (f : Ctx → Ctx) :
    (s.editCtx c f).owners = s.owners := rfl
@[simp] theorem State.editCtx_packetsOut (s : State) (c : Nat) (f : Ctx → Ctx) :
    (s.editCtx c f).packetsOut = s.packetsOut := rfl
@[simp] theorem State.editCtx_quarantine (s : State) (c : Nat) (f : Ctx → Ctx) :
    (s.editCtx c f).quarantine = s.quarantine := rfl
@[simp] theorem State.editCtx_links (s : State) (c : Nat) (f : Ctx → Ctx) :
    (s.editCtx c f).links = s.links := rfl
@[simp] theorem State.editCtx_life (s : State) (c : Nat) (f : Ctx → Ctx) :
    (s.editCtx c f).life = s.life := rfl
@[simp] theorem State.editCtx_hostRead (s : State) (c : Nat) (f : Ctx → Ctx) :
    (s.editCtx c f).hostRead = s.hostRead := rfl

/-! ## editColour -/

@[simp] theorem State.editColour_cycle (s : State) (c n : Nat) (f : Colour → Colour) :
    (s.editColour c n f).cycle = s.cycle := rfl
@[simp] theorem State.editColour_focus (s : State) (c n : Nat) (f : Colour → Colour) :
    (s.editColour c n f).focus = s.focus := rfl
@[simp] theorem State.editColour_agenda (s : State) (c n : Nat) (f : Colour → Colour) :
    (s.editColour c n f).agenda = s.agenda := rfl
@[simp] theorem State.editColour_tick (s : State) (c n : Nat) (f : Colour → Colour) :
    (s.editColour c n f).tick = s.tick := rfl
@[simp] theorem State.editColour_nextId (s : State) (c n : Nat) (f : Colour → Colour) :
    (s.editColour c n f).nextId = s.nextId := rfl
@[simp] theorem State.editColour_mem (s : State) (c n : Nat) (f : Colour → Colour) :
    (s.editColour c n f).mem = s.mem := rfl
@[simp] theorem State.editColour_side (s : State) (c n : Nat) (f : Colour → Colour) :
    (s.editColour c n f).side = s.side := rfl
@[simp] theorem State.editColour_runs (s : State) (c n : Nat) (f : Colour → Colour) :
    (s.editColour c n f).runs = s.runs := rfl
@[simp] theorem State.editColour_ctxs (s : State) (c n : Nat) (f : Colour → Colour) :
    (s.editColour c n f).ctxs = s.ctxs.edit c fun x => x.editColour n f := rfl
@[simp] theorem State.editColour_reqs (s : State) (c n : Nat) (f : Colour → Colour) :
    (s.editColour c n f).reqs = s.reqs := rfl
@[simp] theorem State.editColour_walks (s : State) (c n : Nat) (f : Colour → Colour) :
    (s.editColour c n f).walks = s.walks := rfl
@[simp] theorem State.editColour_tlb (s : State) (c n : Nat) (f : Colour → Colour) :
    (s.editColour c n f).tlb = s.tlb := rfl
@[simp] theorem State.editColour_tlbinv (s : State) (c n : Nat) (f : Colour → Colour) :
    (s.editColour c n f).tlbinv = s.tlbinv := rfl
@[simp] theorem State.editColour_flits (s : State) (c n : Nat) (f : Colour → Colour) :
    (s.editColour c n f).flits = s.flits := rfl
@[simp] theorem State.editColour_waves (s : State) (c n : Nat) (f : Colour → Colour) :
    (s.editColour c n f).waves = s.waves := rfl
@[simp] theorem State.editColour_queues (s : State) (c n : Nat) (f : Colour → Colour) :
    (s.editColour c n f).queues = s.queues := rfl
@[simp] theorem State.editColour_jobs (s : State) (c n : Nat) (f : Colour → Colour) :
    (s.editColour c n f).jobs = s.jobs := rfl
@[simp] theorem State.editColour_nextJob (s : State) (c n : Nat) (f : Colour → Colour) :
    (s.editColour c n f).nextJob = s.nextJob := rfl
@[simp] theorem State.editColour_pendingStarts (s : State) (c n : Nat) (f : Colour → Colour) :
    (s.editColour c n f).pendingStarts = s.pendingStarts := rfl
@[simp] theorem State.editColour_cancelWaits (s : State) (c n : Nat) (f : Colour → Colour) :
    (s.editColour c n f).cancelWaits = s.cancelWaits := rfl
@[simp] theorem State.editColour_dies (s : State) (c n : Nat) (f : Colour → Colour) :
    (s.editColour c n f).dies = s.dies := rfl
@[simp] theorem State.editColour_owners (s : State) (c n : Nat) (f : Colour → Colour) :
    (s.editColour c n f).owners = s.owners := rfl
@[simp] theorem State.editColour_packetsOut (s : State) (c n : Nat) (f : Colour → Colour) :
    (s.editColour c n f).packetsOut = s.packetsOut := rfl
@[simp] theorem State.editColour_quarantine (s : State) (c n : Nat) (f : Colour → Colour) :
    (s.editColour c n f).quarantine = s.quarantine := rfl
@[simp] theorem State.editColour_links (s : State) (c n : Nat) (f : Colour → Colour) :
    (s.editColour c n f).links = s.links := rfl
@[simp] theorem State.editColour_life (s : State) (c n : Nat) (f : Colour → Colour) :
    (s.editColour c n f).life = s.life := rfl
@[simp] theorem State.editColour_hostRead (s : State) (c n : Nat) (f : Colour → Colour) :
    (s.editColour c n f).hostRead = s.hostRead := rfl

/-! ## orFlags -/

@[simp] theorem State.orFlags_cycle (s : State) (c n : Nat) : (s.orFlags c n).cycle = s.cycle := rfl
@[simp] theorem State.orFlags_focus (s : State) (c n : Nat) : (s.orFlags c n).focus = s.focus := rfl
@[simp] theorem State.orFlags_agenda (s : State) (c n : Nat) :
    (s.orFlags c n).agenda = s.agenda := rfl
@[simp] theorem State.orFlags_tick (s : State) (c n : Nat) : (s.orFlags c n).tick = s.tick := rfl
@[simp] theorem State.orFlags_nextId (s : State) (c n : Nat) :
    (s.orFlags c n).nextId = s.nextId := rfl
@[simp] theorem State.orFlags_mem (s : State) (c n : Nat) : (s.orFlags c n).mem = s.mem := rfl
@[simp] theorem State.orFlags_side (s : State) (c n : Nat) : (s.orFlags c n).side = s.side := rfl
@[simp] theorem State.orFlags_runs (s : State) (c n : Nat) : (s.orFlags c n).runs = s.runs := rfl
@[simp] theorem State.orFlags_ctxs (s : State) (c n : Nat) :
    (s.orFlags c n).ctxs = s.ctxs.edit c fun x => { x with regs := { x.regs with flags := x.regs.flags ||| n } } := rfl
@[simp] theorem State.orFlags_reqs (s : State) (c n : Nat) : (s.orFlags c n).reqs = s.reqs := rfl
@[simp] theorem State.orFlags_walks (s : State) (c n : Nat) : (s.orFlags c n).walks = s.walks := rfl
@[simp] theorem State.orFlags_tlb (s : State) (c n : Nat) : (s.orFlags c n).tlb = s.tlb := rfl
@[simp] theorem State.orFlags_tlbinv (s : State) (c n : Nat) :
    (s.orFlags c n).tlbinv = s.tlbinv := rfl
@[simp] theorem State.orFlags_flits (s : State) (c n : Nat) : (s.orFlags c n).flits = s.flits := rfl
@[simp] theorem State.orFlags_waves (s : State) (c n : Nat) : (s.orFlags c n).waves = s.waves := rfl
@[simp] theorem State.orFlags_queues (s : State) (c n : Nat) :
    (s.orFlags c n).queues = s.queues := rfl
@[simp] theorem State.orFlags_jobs (s : State) (c n : Nat) : (s.orFlags c n).jobs = s.jobs := rfl
@[simp] theorem State.orFlags_nextJob (s : State) (c n : Nat) :
    (s.orFlags c n).nextJob = s.nextJob := rfl
@[simp] theorem State.orFlags_pendingStarts (s : State) (c n : Nat) :
    (s.orFlags c n).pendingStarts = s.pendingStarts := rfl
@[simp] theorem State.orFlags_cancelWaits (s : State) (c n : Nat) :
    (s.orFlags c n).cancelWaits = s.cancelWaits := rfl
@[simp] theorem State.orFlags_dies (s : State) (c n : Nat) : (s.orFlags c n).dies = s.dies := rfl
@[simp] theorem State.orFlags_owners (s : State) (c n : Nat) :
    (s.orFlags c n).owners = s.owners := rfl
@[simp] theorem State.orFlags_packetsOut (s : State) (c n : Nat) :
    (s.orFlags c n).packetsOut = s.packetsOut := rfl
@[simp] theorem State.orFlags_quarantine (s : State) (c n : Nat) :
    (s.orFlags c n).quarantine = s.quarantine := rfl
@[simp] theorem State.orFlags_links (s : State) (c n : Nat) : (s.orFlags c n).links = s.links := rfl
@[simp] theorem State.orFlags_life (s : State) (c n : Nat) : (s.orFlags c n).life = s.life := rfl
@[simp] theorem State.orFlags_hostRead (s : State) (c n : Nat) :
    (s.orFlags c n).hostRead = s.hostRead := rfl

/-! ## editDie -/

@[simp] theorem State.editDie_cycle (s : State) (d : Nat) (f : DieSt → DieSt) :
    (s.editDie d f).cycle = s.cycle := rfl
@[simp] theorem State.editDie_focus (s : State) (d : Nat) (f : DieSt → DieSt) :
    (s.editDie d f).focus = s.focus := rfl
@[simp] theorem State.editDie_agenda (s : State) (d : Nat) (f : DieSt → DieSt) :
    (s.editDie d f).agenda = s.agenda := rfl
@[simp] theorem State.editDie_tick (s : State) (d : Nat) (f : DieSt → DieSt) :
    (s.editDie d f).tick = s.tick := rfl
@[simp] theorem State.editDie_nextId (s : State) (d : Nat) (f : DieSt → DieSt) :
    (s.editDie d f).nextId = s.nextId := rfl
@[simp] theorem State.editDie_mem (s : State) (d : Nat) (f : DieSt → DieSt) :
    (s.editDie d f).mem = s.mem := rfl
@[simp] theorem State.editDie_side (s : State) (d : Nat) (f : DieSt → DieSt) :
    (s.editDie d f).side = s.side := rfl
@[simp] theorem State.editDie_runs (s : State) (d : Nat) (f : DieSt → DieSt) :
    (s.editDie d f).runs = s.runs := rfl
@[simp] theorem State.editDie_ctxs (s : State) (d : Nat) (f : DieSt → DieSt) :
    (s.editDie d f).ctxs = s.ctxs := rfl
@[simp] theorem State.editDie_reqs (s : State) (d : Nat) (f : DieSt → DieSt) :
    (s.editDie d f).reqs = s.reqs := rfl
@[simp] theorem State.editDie_walks (s : State) (d : Nat) (f : DieSt → DieSt) :
    (s.editDie d f).walks = s.walks := rfl
@[simp] theorem State.editDie_tlb (s : State) (d : Nat) (f : DieSt → DieSt) :
    (s.editDie d f).tlb = s.tlb := rfl
@[simp] theorem State.editDie_tlbinv (s : State) (d : Nat) (f : DieSt → DieSt) :
    (s.editDie d f).tlbinv = s.tlbinv := rfl
@[simp] theorem State.editDie_flits (s : State) (d : Nat) (f : DieSt → DieSt) :
    (s.editDie d f).flits = s.flits := rfl
@[simp] theorem State.editDie_waves (s : State) (d : Nat) (f : DieSt → DieSt) :
    (s.editDie d f).waves = s.waves := rfl
@[simp] theorem State.editDie_queues (s : State) (d : Nat) (f : DieSt → DieSt) :
    (s.editDie d f).queues = s.queues := rfl
@[simp] theorem State.editDie_jobs (s : State) (d : Nat) (f : DieSt → DieSt) :
    (s.editDie d f).jobs = s.jobs := rfl
@[simp] theorem State.editDie_nextJob (s : State) (d : Nat) (f : DieSt → DieSt) :
    (s.editDie d f).nextJob = s.nextJob := rfl
@[simp] theorem State.editDie_pendingStarts (s : State) (d : Nat) (f : DieSt → DieSt) :
    (s.editDie d f).pendingStarts = s.pendingStarts := rfl
@[simp] theorem State.editDie_cancelWaits (s : State) (d : Nat) (f : DieSt → DieSt) :
    (s.editDie d f).cancelWaits = s.cancelWaits := rfl
@[simp] theorem State.editDie_dies (s : State) (d : Nat) (f : DieSt → DieSt) :
    (s.editDie d f).dies = s.dies.edit d f := rfl
@[simp] theorem State.editDie_owners (s : State) (d : Nat) (f : DieSt → DieSt) :
    (s.editDie d f).owners = s.owners := rfl
@[simp] theorem State.editDie_packetsOut (s : State) (d : Nat) (f : DieSt → DieSt) :
    (s.editDie d f).packetsOut = s.packetsOut := rfl
@[simp] theorem State.editDie_quarantine (s : State) (d : Nat) (f : DieSt → DieSt) :
    (s.editDie d f).quarantine = s.quarantine := rfl
@[simp] theorem State.editDie_links (s : State) (d : Nat) (f : DieSt → DieSt) :
    (s.editDie d f).links = s.links := rfl
@[simp] theorem State.editDie_life (s : State) (d : Nat) (f : DieSt → DieSt) :
    (s.editDie d f).life = s.life := rfl
@[simp] theorem State.editDie_hostRead (s : State) (d : Nat) (f : DieSt → DieSt) :
    (s.editDie d f).hostRead = s.hostRead := rfl

/-! ## editJob -/

@[simp] theorem State.editJob_cycle (s : State) (j : Nat) (f : Job → Job) :
    (s.editJob j f).cycle = s.cycle := rfl
@[simp] theorem State.editJob_focus (s : State) (j : Nat) (f : Job → Job) :
    (s.editJob j f).focus = s.focus := rfl
@[simp] theorem State.editJob_agenda (s : State) (j : Nat) (f : Job → Job) :
    (s.editJob j f).agenda = s.agenda := rfl
@[simp] theorem State.editJob_tick (s : State) (j : Nat) (f : Job → Job) :
    (s.editJob j f).tick = s.tick := rfl
@[simp] theorem State.editJob_nextId (s : State) (j : Nat) (f : Job → Job) :
    (s.editJob j f).nextId = s.nextId := rfl
@[simp] theorem State.editJob_mem (s : State) (j : Nat) (f : Job → Job) :
    (s.editJob j f).mem = s.mem := rfl
@[simp] theorem State.editJob_side (s : State) (j : Nat) (f : Job → Job) :
    (s.editJob j f).side = s.side := rfl
@[simp] theorem State.editJob_runs (s : State) (j : Nat) (f : Job → Job) :
    (s.editJob j f).runs = s.runs := rfl
@[simp] theorem State.editJob_ctxs (s : State) (j : Nat) (f : Job → Job) :
    (s.editJob j f).ctxs = s.ctxs := rfl
@[simp] theorem State.editJob_reqs (s : State) (j : Nat) (f : Job → Job) :
    (s.editJob j f).reqs = s.reqs := rfl
@[simp] theorem State.editJob_walks (s : State) (j : Nat) (f : Job → Job) :
    (s.editJob j f).walks = s.walks := rfl
@[simp] theorem State.editJob_tlb (s : State) (j : Nat) (f : Job → Job) :
    (s.editJob j f).tlb = s.tlb := rfl
@[simp] theorem State.editJob_tlbinv (s : State) (j : Nat) (f : Job → Job) :
    (s.editJob j f).tlbinv = s.tlbinv := rfl
@[simp] theorem State.editJob_flits (s : State) (j : Nat) (f : Job → Job) :
    (s.editJob j f).flits = s.flits := rfl
@[simp] theorem State.editJob_waves (s : State) (j : Nat) (f : Job → Job) :
    (s.editJob j f).waves = s.waves := rfl
@[simp] theorem State.editJob_queues (s : State) (j : Nat) (f : Job → Job) :
    (s.editJob j f).queues = s.queues := rfl
@[simp] theorem State.editJob_jobs (s : State) (j : Nat) (f : Job → Job) :
    (s.editJob j f).jobs = s.jobs.edit j f := rfl
@[simp] theorem State.editJob_nextJob (s : State) (j : Nat) (f : Job → Job) :
    (s.editJob j f).nextJob = s.nextJob := rfl
@[simp] theorem State.editJob_pendingStarts (s : State) (j : Nat) (f : Job → Job) :
    (s.editJob j f).pendingStarts = s.pendingStarts := rfl
@[simp] theorem State.editJob_cancelWaits (s : State) (j : Nat) (f : Job → Job) :
    (s.editJob j f).cancelWaits = s.cancelWaits := rfl
@[simp] theorem State.editJob_dies (s : State) (j : Nat) (f : Job → Job) :
    (s.editJob j f).dies = s.dies := rfl
@[simp] theorem State.editJob_owners (s : State) (j : Nat) (f : Job → Job) :
    (s.editJob j f).owners = s.owners := rfl
@[simp] theorem State.editJob_packetsOut (s : State) (j : Nat) (f : Job → Job) :
    (s.editJob j f).packetsOut = s.packetsOut := rfl
@[simp] theorem State.editJob_quarantine (s : State) (j : Nat) (f : Job → Job) :
    (s.editJob j f).quarantine = s.quarantine := rfl
@[simp] theorem State.editJob_links (s : State) (j : Nat) (f : Job → Job) :
    (s.editJob j f).links = s.links := rfl
@[simp] theorem State.editJob_life (s : State) (j : Nat) (f : Job → Job) :
    (s.editJob j f).life = s.life := rfl
@[simp] theorem State.editJob_hostRead (s : State) (j : Nat) (f : Job → Job) :
    (s.editJob j f).hostRead = s.hostRead := rfl

/-! ## editQueue -/

@[simp] theorem State.editQueue_cycle (s : State) (q : Nat) (f : Queue → Queue) :
    (s.editQueue q f).cycle = s.cycle := rfl
@[simp] theorem State.editQueue_focus (s : State) (q : Nat) (f : Queue → Queue) :
    (s.editQueue q f).focus = s.focus := rfl
@[simp] theorem State.editQueue_agenda (s : State) (q : Nat) (f : Queue → Queue) :
    (s.editQueue q f).agenda = s.agenda := rfl
@[simp] theorem State.editQueue_tick (s : State) (q : Nat) (f : Queue → Queue) :
    (s.editQueue q f).tick = s.tick := rfl
@[simp] theorem State.editQueue_nextId (s : State) (q : Nat) (f : Queue → Queue) :
    (s.editQueue q f).nextId = s.nextId := rfl
@[simp] theorem State.editQueue_mem (s : State) (q : Nat) (f : Queue → Queue) :
    (s.editQueue q f).mem = s.mem := rfl
@[simp] theorem State.editQueue_side (s : State) (q : Nat) (f : Queue → Queue) :
    (s.editQueue q f).side = s.side := rfl
@[simp] theorem State.editQueue_runs (s : State) (q : Nat) (f : Queue → Queue) :
    (s.editQueue q f).runs = s.runs := rfl
@[simp] theorem State.editQueue_ctxs (s : State) (q : Nat) (f : Queue → Queue) :
    (s.editQueue q f).ctxs = s.ctxs := rfl
@[simp] theorem State.editQueue_reqs (s : State) (q : Nat) (f : Queue → Queue) :
    (s.editQueue q f).reqs = s.reqs := rfl
@[simp] theorem State.editQueue_walks (s : State) (q : Nat) (f : Queue → Queue) :
    (s.editQueue q f).walks = s.walks := rfl
@[simp] theorem State.editQueue_tlb (s : State) (q : Nat) (f : Queue → Queue) :
    (s.editQueue q f).tlb = s.tlb := rfl
@[simp] theorem State.editQueue_tlbinv (s : State) (q : Nat) (f : Queue → Queue) :
    (s.editQueue q f).tlbinv = s.tlbinv := rfl
@[simp] theorem State.editQueue_flits (s : State) (q : Nat) (f : Queue → Queue) :
    (s.editQueue q f).flits = s.flits := rfl
@[simp] theorem State.editQueue_waves (s : State) (q : Nat) (f : Queue → Queue) :
    (s.editQueue q f).waves = s.waves := rfl
@[simp] theorem State.editQueue_queues (s : State) (q : Nat) (f : Queue → Queue) :
    (s.editQueue q f).queues = s.queues.put q (f ((s.queues.find q).getD Queue.reset)) := rfl
@[simp] theorem State.editQueue_jobs (s : State) (q : Nat) (f : Queue → Queue) :
    (s.editQueue q f).jobs = s.jobs := rfl
@[simp] theorem State.editQueue_nextJob (s : State) (q : Nat) (f : Queue → Queue) :
    (s.editQueue q f).nextJob = s.nextJob := rfl
@[simp] theorem State.editQueue_pendingStarts (s : State) (q : Nat) (f : Queue → Queue) :
    (s.editQueue q f).pendingStarts = s.pendingStarts := rfl
@[simp] theorem State.editQueue_cancelWaits (s : State) (q : Nat) (f : Queue → Queue) :
    (s.editQueue q f).cancelWaits = s.cancelWaits := rfl
@[simp] theorem State.editQueue_dies (s : State) (q : Nat) (f : Queue → Queue) :
    (s.editQueue q f).dies = s.dies := rfl
@[simp] theorem State.editQueue_owners (s : State) (q : Nat) (f : Queue → Queue) :
    (s.editQueue q f).owners = s.owners := rfl
@[simp] theorem State.editQueue_packetsOut (s : State) (q : Nat) (f : Queue → Queue) :
    (s.editQueue q f).packetsOut = s.packetsOut := rfl
@[simp] theorem State.editQueue_quarantine (s : State) (q : Nat) (f : Queue → Queue) :
    (s.editQueue q f).quarantine = s.quarantine := rfl
@[simp] theorem State.editQueue_links (s : State) (q : Nat) (f : Queue → Queue) :
    (s.editQueue q f).links = s.links := rfl
@[simp] theorem State.editQueue_life (s : State) (q : Nat) (f : Queue → Queue) :
    (s.editQueue q f).life = s.life := rfl
@[simp] theorem State.editQueue_hostRead (s : State) (q : Nat) (f : Queue → Queue) :
    (s.editQueue q f).hostRead = s.hostRead := rfl

/-! ## takeId -/

@[simp] theorem State.takeId_cycle (s : State) : s.takeId.2.cycle = s.cycle := rfl
@[simp] theorem State.takeId_focus (s : State) : s.takeId.2.focus = s.focus := rfl
@[simp] theorem State.takeId_agenda (s : State) : s.takeId.2.agenda = s.agenda := rfl
@[simp] theorem State.takeId_tick (s : State) : s.takeId.2.tick = s.tick := rfl
@[simp] theorem State.takeId_nextId (s : State) : s.takeId.2.nextId = s.nextId + 1 := rfl
@[simp] theorem State.takeId_mem (s : State) : s.takeId.2.mem = s.mem := rfl
@[simp] theorem State.takeId_side (s : State) : s.takeId.2.side = s.side := rfl
@[simp] theorem State.takeId_runs (s : State) : s.takeId.2.runs = s.runs := rfl
@[simp] theorem State.takeId_ctxs (s : State) : s.takeId.2.ctxs = s.ctxs := rfl
@[simp] theorem State.takeId_reqs (s : State) : s.takeId.2.reqs = s.reqs := rfl
@[simp] theorem State.takeId_walks (s : State) : s.takeId.2.walks = s.walks := rfl
@[simp] theorem State.takeId_tlb (s : State) : s.takeId.2.tlb = s.tlb := rfl
@[simp] theorem State.takeId_tlbinv (s : State) : s.takeId.2.tlbinv = s.tlbinv := rfl
@[simp] theorem State.takeId_flits (s : State) : s.takeId.2.flits = s.flits := rfl
@[simp] theorem State.takeId_waves (s : State) : s.takeId.2.waves = s.waves := rfl
@[simp] theorem State.takeId_queues (s : State) : s.takeId.2.queues = s.queues := rfl
@[simp] theorem State.takeId_jobs (s : State) : s.takeId.2.jobs = s.jobs := rfl
@[simp] theorem State.takeId_nextJob (s : State) : s.takeId.2.nextJob = s.nextJob := rfl
@[simp] theorem State.takeId_pendingStarts (s : State) :
    s.takeId.2.pendingStarts = s.pendingStarts := rfl
@[simp] theorem State.takeId_cancelWaits (s : State) : s.takeId.2.cancelWaits = s.cancelWaits := rfl
@[simp] theorem State.takeId_dies (s : State) : s.takeId.2.dies = s.dies := rfl
@[simp] theorem State.takeId_owners (s : State) : s.takeId.2.owners = s.owners := rfl
@[simp] theorem State.takeId_packetsOut (s : State) : s.takeId.2.packetsOut = s.packetsOut := rfl
@[simp] theorem State.takeId_quarantine (s : State) : s.takeId.2.quarantine = s.quarantine := rfl
@[simp] theorem State.takeId_links (s : State) : s.takeId.2.links = s.links := rfl
@[simp] theorem State.takeId_life (s : State) : s.takeId.2.life = s.life := rfl
@[simp] theorem State.takeId_hostRead (s : State) : s.takeId.2.hostRead = s.hostRead := rfl

/-! ## addFlit -/

@[simp] theorem State.addFlit_cycle (s : State) (n : Nat) (f : Flit) :
    (s.addFlit n f).cycle = s.cycle := rfl
@[simp] theorem State.addFlit_focus (s : State) (n : Nat) (f : Flit) :
    (s.addFlit n f).focus = s.focus := rfl
@[simp] theorem State.addFlit_agenda (s : State) (n : Nat) (f : Flit) :
    (s.addFlit n f).agenda = s.agenda := rfl
@[simp] theorem State.addFlit_tick (s : State) (n : Nat) (f : Flit) :
    (s.addFlit n f).tick = s.tick := rfl
@[simp] theorem State.addFlit_nextId (s : State) (n : Nat) (f : Flit) :
    (s.addFlit n f).nextId = s.nextId := rfl
@[simp] theorem State.addFlit_mem (s : State) (n : Nat) (f : Flit) :
    (s.addFlit n f).mem = s.mem := rfl
@[simp] theorem State.addFlit_side (s : State) (n : Nat) (f : Flit) :
    (s.addFlit n f).side = s.side := rfl
@[simp] theorem State.addFlit_runs (s : State) (n : Nat) (f : Flit) :
    (s.addFlit n f).runs = s.runs := rfl
@[simp] theorem State.addFlit_ctxs (s : State) (n : Nat) (f : Flit) :
    (s.addFlit n f).ctxs = s.ctxs := rfl
@[simp] theorem State.addFlit_reqs (s : State) (n : Nat) (f : Flit) :
    (s.addFlit n f).reqs = s.reqs := rfl
@[simp] theorem State.addFlit_walks (s : State) (n : Nat) (f : Flit) :
    (s.addFlit n f).walks = s.walks := rfl
@[simp] theorem State.addFlit_tlb (s : State) (n : Nat) (f : Flit) :
    (s.addFlit n f).tlb = s.tlb := rfl
@[simp] theorem State.addFlit_tlbinv (s : State) (n : Nat) (f : Flit) :
    (s.addFlit n f).tlbinv = s.tlbinv := rfl
@[simp] theorem State.addFlit_flits (s : State) (n : Nat) (f : Flit) :
    (s.addFlit n f).flits = s.flits.put n f := rfl
@[simp] theorem State.addFlit_waves (s : State) (n : Nat) (f : Flit) :
    (s.addFlit n f).waves = s.waves := rfl
@[simp] theorem State.addFlit_queues (s : State) (n : Nat) (f : Flit) :
    (s.addFlit n f).queues = s.queues := rfl
@[simp] theorem State.addFlit_jobs (s : State) (n : Nat) (f : Flit) :
    (s.addFlit n f).jobs = s.jobs := rfl
@[simp] theorem State.addFlit_nextJob (s : State) (n : Nat) (f : Flit) :
    (s.addFlit n f).nextJob = s.nextJob := rfl
@[simp] theorem State.addFlit_pendingStarts (s : State) (n : Nat) (f : Flit) :
    (s.addFlit n f).pendingStarts = s.pendingStarts := rfl
@[simp] theorem State.addFlit_cancelWaits (s : State) (n : Nat) (f : Flit) :
    (s.addFlit n f).cancelWaits = s.cancelWaits := rfl
@[simp] theorem State.addFlit_dies (s : State) (n : Nat) (f : Flit) :
    (s.addFlit n f).dies = s.dies := rfl
@[simp] theorem State.addFlit_owners (s : State) (n : Nat) (f : Flit) :
    (s.addFlit n f).owners = s.owners := rfl
@[simp] theorem State.addFlit_packetsOut (s : State) (n : Nat) (f : Flit) :
    (s.addFlit n f).packetsOut = s.packetsOut := rfl
@[simp] theorem State.addFlit_quarantine (s : State) (n : Nat) (f : Flit) :
    (s.addFlit n f).quarantine = s.quarantine := rfl
@[simp] theorem State.addFlit_links (s : State) (n : Nat) (f : Flit) :
    (s.addFlit n f).links = s.links := rfl
@[simp] theorem State.addFlit_life (s : State) (n : Nat) (f : Flit) :
    (s.addFlit n f).life = s.life := rfl
@[simp] theorem State.addFlit_hostRead (s : State) (n : Nat) (f : Flit) :
    (s.addFlit n f).hostRead = s.hostRead := rfl

/-! ## soon -/

@[simp] theorem State.soon_cycle (s : State) (h : Happening) : (s.soon h).cycle = s.cycle := rfl
@[simp] theorem State.soon_focus (s : State) (h : Happening) : (s.soon h).focus = s.focus := rfl
@[simp] theorem State.soon_agenda (s : State) (h : Happening) :
    (s.soon h).agenda = (0, h) :: s.agenda := rfl
@[simp] theorem State.soon_tick (s : State) (h : Happening) : (s.soon h).tick = s.tick := rfl
@[simp] theorem State.soon_nextId (s : State) (h : Happening) : (s.soon h).nextId = s.nextId := rfl
@[simp] theorem State.soon_mem (s : State) (h : Happening) : (s.soon h).mem = s.mem := rfl
@[simp] theorem State.soon_side (s : State) (h : Happening) : (s.soon h).side = s.side := rfl
@[simp] theorem State.soon_runs (s : State) (h : Happening) : (s.soon h).runs = s.runs := rfl
@[simp] theorem State.soon_ctxs (s : State) (h : Happening) : (s.soon h).ctxs = s.ctxs := rfl
@[simp] theorem State.soon_reqs (s : State) (h : Happening) : (s.soon h).reqs = s.reqs := rfl
@[simp] theorem State.soon_walks (s : State) (h : Happening) : (s.soon h).walks = s.walks := rfl
@[simp] theorem State.soon_tlb (s : State) (h : Happening) : (s.soon h).tlb = s.tlb := rfl
@[simp] theorem State.soon_tlbinv (s : State) (h : Happening) : (s.soon h).tlbinv = s.tlbinv := rfl
@[simp] theorem State.soon_flits (s : State) (h : Happening) : (s.soon h).flits = s.flits := rfl
@[simp] theorem State.soon_waves (s : State) (h : Happening) : (s.soon h).waves = s.waves := rfl
@[simp] theorem State.soon_queues (s : State) (h : Happening) : (s.soon h).queues = s.queues := rfl
@[simp] theorem State.soon_jobs (s : State) (h : Happening) : (s.soon h).jobs = s.jobs := rfl
@[simp] theorem State.soon_nextJob (s : State) (h : Happening) :
    (s.soon h).nextJob = s.nextJob := rfl
@[simp] theorem State.soon_pendingStarts (s : State) (h : Happening) :
    (s.soon h).pendingStarts = s.pendingStarts := rfl
@[simp] theorem State.soon_cancelWaits (s : State) (h : Happening) :
    (s.soon h).cancelWaits = s.cancelWaits := rfl
@[simp] theorem State.soon_dies (s : State) (h : Happening) : (s.soon h).dies = s.dies := rfl
@[simp] theorem State.soon_owners (s : State) (h : Happening) : (s.soon h).owners = s.owners := rfl
@[simp] theorem State.soon_packetsOut (s : State) (h : Happening) :
    (s.soon h).packetsOut = s.packetsOut := rfl
@[simp] theorem State.soon_quarantine (s : State) (h : Happening) :
    (s.soon h).quarantine = s.quarantine := rfl
@[simp] theorem State.soon_links (s : State) (h : Happening) : (s.soon h).links = s.links := rfl
@[simp] theorem State.soon_life (s : State) (h : Happening) : (s.soon h).life = s.life := rfl
@[simp] theorem State.soon_hostRead (s : State) (h : Happening) :
    (s.soon h).hostRead = s.hostRead := rfl

/-! ## setSide -/

@[simp] theorem State.setSide_cycle (s : State) (a : Nat) (b : Side) :
    (s.setSide a b).cycle = s.cycle := rfl
@[simp] theorem State.setSide_focus (s : State) (a : Nat) (b : Side) :
    (s.setSide a b).focus = s.focus := rfl
@[simp] theorem State.setSide_agenda (s : State) (a : Nat) (b : Side) :
    (s.setSide a b).agenda = s.agenda := rfl
@[simp] theorem State.setSide_tick (s : State) (a : Nat) (b : Side) :
    (s.setSide a b).tick = s.tick := rfl
@[simp] theorem State.setSide_nextId (s : State) (a : Nat) (b : Side) :
    (s.setSide a b).nextId = s.nextId := rfl
@[simp] theorem State.setSide_mem (s : State) (a : Nat) (b : Side) :
    (s.setSide a b).mem = s.mem := rfl
@[simp] theorem State.setSide_side (s : State) (a : Nat) (b : Side) :
    (s.setSide a b).side = s.side.put (blockIx a) b := rfl
@[simp] theorem State.setSide_runs (s : State) (a : Nat) (b : Side) :
    (s.setSide a b).runs = s.runs := rfl
@[simp] theorem State.setSide_ctxs (s : State) (a : Nat) (b : Side) :
    (s.setSide a b).ctxs = s.ctxs := rfl
@[simp] theorem State.setSide_reqs (s : State) (a : Nat) (b : Side) :
    (s.setSide a b).reqs = s.reqs := rfl
@[simp] theorem State.setSide_walks (s : State) (a : Nat) (b : Side) :
    (s.setSide a b).walks = s.walks := rfl
@[simp] theorem State.setSide_tlb (s : State) (a : Nat) (b : Side) :
    (s.setSide a b).tlb = s.tlb := rfl
@[simp] theorem State.setSide_tlbinv (s : State) (a : Nat) (b : Side) :
    (s.setSide a b).tlbinv = s.tlbinv := rfl
@[simp] theorem State.setSide_flits (s : State) (a : Nat) (b : Side) :
    (s.setSide a b).flits = s.flits := rfl
@[simp] theorem State.setSide_waves (s : State) (a : Nat) (b : Side) :
    (s.setSide a b).waves = s.waves := rfl
@[simp] theorem State.setSide_queues (s : State) (a : Nat) (b : Side) :
    (s.setSide a b).queues = s.queues := rfl
@[simp] theorem State.setSide_jobs (s : State) (a : Nat) (b : Side) :
    (s.setSide a b).jobs = s.jobs := rfl
@[simp] theorem State.setSide_nextJob (s : State) (a : Nat) (b : Side) :
    (s.setSide a b).nextJob = s.nextJob := rfl
@[simp] theorem State.setSide_pendingStarts (s : State) (a : Nat) (b : Side) :
    (s.setSide a b).pendingStarts = s.pendingStarts := rfl
@[simp] theorem State.setSide_cancelWaits (s : State) (a : Nat) (b : Side) :
    (s.setSide a b).cancelWaits = s.cancelWaits := rfl
@[simp] theorem State.setSide_dies (s : State) (a : Nat) (b : Side) :
    (s.setSide a b).dies = s.dies := rfl
@[simp] theorem State.setSide_owners (s : State) (a : Nat) (b : Side) :
    (s.setSide a b).owners = s.owners := rfl
@[simp] theorem State.setSide_packetsOut (s : State) (a : Nat) (b : Side) :
    (s.setSide a b).packetsOut = s.packetsOut := rfl
@[simp] theorem State.setSide_quarantine (s : State) (a : Nat) (b : Side) :
    (s.setSide a b).quarantine = s.quarantine := rfl
@[simp] theorem State.setSide_links (s : State) (a : Nat) (b : Side) :
    (s.setSide a b).links = s.links := rfl
@[simp] theorem State.setSide_life (s : State) (a : Nat) (b : Side) :
    (s.setSide a b).life = s.life := rfl
@[simp] theorem State.setSide_hostRead (s : State) (a : Nat) (b : Side) :
    (s.setSide a b).hostRead = s.hostRead := rfl

/-! ## editCmd -/

@[simp] theorem State.editCmd_cycle (s : State) (r n : Nat) (f : Command → Command) :
    (s.editCmd r n f).cycle = s.cycle := rfl
@[simp] theorem State.editCmd_focus (s : State) (r n : Nat) (f : Command → Command) :
    (s.editCmd r n f).focus = s.focus := rfl
@[simp] theorem State.editCmd_agenda (s : State) (r n : Nat) (f : Command → Command) :
    (s.editCmd r n f).agenda = s.agenda := rfl
@[simp] theorem State.editCmd_tick (s : State) (r n : Nat) (f : Command → Command) :
    (s.editCmd r n f).tick = s.tick := rfl
@[simp] theorem State.editCmd_nextId (s : State) (r n : Nat) (f : Command → Command) :
    (s.editCmd r n f).nextId = s.nextId := rfl
@[simp] theorem State.editCmd_mem (s : State) (r n : Nat) (f : Command → Command) :
    (s.editCmd r n f).mem = s.mem := rfl
@[simp] theorem State.editCmd_side (s : State) (r n : Nat) (f : Command → Command) :
    (s.editCmd r n f).side = s.side := rfl
@[simp] theorem State.editCmd_runs (s : State) (r n : Nat) (f : Command → Command) :
    (s.editCmd r n f).runs = s.runs.edit r fun x => { x with cmds := x.cmds.edit n f } := rfl
@[simp] theorem State.editCmd_ctxs (s : State) (r n : Nat) (f : Command → Command) :
    (s.editCmd r n f).ctxs = s.ctxs := rfl
@[simp] theorem State.editCmd_reqs (s : State) (r n : Nat) (f : Command → Command) :
    (s.editCmd r n f).reqs = s.reqs := rfl
@[simp] theorem State.editCmd_walks (s : State) (r n : Nat) (f : Command → Command) :
    (s.editCmd r n f).walks = s.walks := rfl
@[simp] theorem State.editCmd_tlb (s : State) (r n : Nat) (f : Command → Command) :
    (s.editCmd r n f).tlb = s.tlb := rfl
@[simp] theorem State.editCmd_tlbinv (s : State) (r n : Nat) (f : Command → Command) :
    (s.editCmd r n f).tlbinv = s.tlbinv := rfl
@[simp] theorem State.editCmd_flits (s : State) (r n : Nat) (f : Command → Command) :
    (s.editCmd r n f).flits = s.flits := rfl
@[simp] theorem State.editCmd_waves (s : State) (r n : Nat) (f : Command → Command) :
    (s.editCmd r n f).waves = s.waves := rfl
@[simp] theorem State.editCmd_queues (s : State) (r n : Nat) (f : Command → Command) :
    (s.editCmd r n f).queues = s.queues := rfl
@[simp] theorem State.editCmd_jobs (s : State) (r n : Nat) (f : Command → Command) :
    (s.editCmd r n f).jobs = s.jobs := rfl
@[simp] theorem State.editCmd_nextJob (s : State) (r n : Nat) (f : Command → Command) :
    (s.editCmd r n f).nextJob = s.nextJob := rfl
@[simp] theorem State.editCmd_pendingStarts (s : State) (r n : Nat) (f : Command → Command) :
    (s.editCmd r n f).pendingStarts = s.pendingStarts := rfl
@[simp] theorem State.editCmd_cancelWaits (s : State) (r n : Nat) (f : Command → Command) :
    (s.editCmd r n f).cancelWaits = s.cancelWaits := rfl
@[simp] theorem State.editCmd_dies (s : State) (r n : Nat) (f : Command → Command) :
    (s.editCmd r n f).dies = s.dies := rfl
@[simp] theorem State.editCmd_owners (s : State) (r n : Nat) (f : Command → Command) :
    (s.editCmd r n f).owners = s.owners := rfl
@[simp] theorem State.editCmd_packetsOut (s : State) (r n : Nat) (f : Command → Command) :
    (s.editCmd r n f).packetsOut = s.packetsOut := rfl
@[simp] theorem State.editCmd_quarantine (s : State) (r n : Nat) (f : Command → Command) :
    (s.editCmd r n f).quarantine = s.quarantine := rfl
@[simp] theorem State.editCmd_links (s : State) (r n : Nat) (f : Command → Command) :
    (s.editCmd r n f).links = s.links := rfl
@[simp] theorem State.editCmd_life (s : State) (r n : Nat) (f : Command → Command) :
    (s.editCmd r n f).life = s.life := rfl
@[simp] theorem State.editCmd_hostRead (s : State) (r n : Nat) (f : Command → Command) :
    (s.editCmd r n f).hostRead = s.hostRead := rfl

/-! ## setProg -/

@[simp] theorem State.setProg_cycle (s : State) (r n : Nat) (p : Prog) :
    (s.setProg r n p).cycle = s.cycle := rfl
@[simp] theorem State.setProg_focus (s : State) (r n : Nat) (p : Prog) :
    (s.setProg r n p).focus = s.focus := rfl
@[simp] theorem State.setProg_agenda (s : State) (r n : Nat) (p : Prog) :
    (s.setProg r n p).agenda = s.agenda := rfl
@[simp] theorem State.setProg_tick (s : State) (r n : Nat) (p : Prog) :
    (s.setProg r n p).tick = s.tick := rfl
@[simp] theorem State.setProg_nextId (s : State) (r n : Nat) (p : Prog) :
    (s.setProg r n p).nextId = s.nextId := rfl
@[simp] theorem State.setProg_mem (s : State) (r n : Nat) (p : Prog) :
    (s.setProg r n p).mem = s.mem := rfl
@[simp] theorem State.setProg_side (s : State) (r n : Nat) (p : Prog) :
    (s.setProg r n p).side = s.side := rfl
@[simp] theorem State.setProg_runs (s : State) (r n : Nat) (p : Prog) :
    (s.setProg r n p).runs = s.runs.edit r fun x => { x with cmds := x.cmds.edit n fun c => { c with prog := p, farBlk := none } } := rfl
@[simp] theorem State.setProg_ctxs (s : State) (r n : Nat) (p : Prog) :
    (s.setProg r n p).ctxs = s.ctxs := rfl
@[simp] theorem State.setProg_reqs (s : State) (r n : Nat) (p : Prog) :
    (s.setProg r n p).reqs = s.reqs := rfl
@[simp] theorem State.setProg_walks (s : State) (r n : Nat) (p : Prog) :
    (s.setProg r n p).walks = s.walks := rfl
@[simp] theorem State.setProg_tlb (s : State) (r n : Nat) (p : Prog) :
    (s.setProg r n p).tlb = s.tlb := rfl
@[simp] theorem State.setProg_tlbinv (s : State) (r n : Nat) (p : Prog) :
    (s.setProg r n p).tlbinv = s.tlbinv := rfl
@[simp] theorem State.setProg_flits (s : State) (r n : Nat) (p : Prog) :
    (s.setProg r n p).flits = s.flits := rfl
@[simp] theorem State.setProg_waves (s : State) (r n : Nat) (p : Prog) :
    (s.setProg r n p).waves = s.waves := rfl
@[simp] theorem State.setProg_queues (s : State) (r n : Nat) (p : Prog) :
    (s.setProg r n p).queues = s.queues := rfl
@[simp] theorem State.setProg_jobs (s : State) (r n : Nat) (p : Prog) :
    (s.setProg r n p).jobs = s.jobs := rfl
@[simp] theorem State.setProg_nextJob (s : State) (r n : Nat) (p : Prog) :
    (s.setProg r n p).nextJob = s.nextJob := rfl
@[simp] theorem State.setProg_pendingStarts (s : State) (r n : Nat) (p : Prog) :
    (s.setProg r n p).pendingStarts = s.pendingStarts := rfl
@[simp] theorem State.setProg_cancelWaits (s : State) (r n : Nat) (p : Prog) :
    (s.setProg r n p).cancelWaits = s.cancelWaits := rfl
@[simp] theorem State.setProg_dies (s : State) (r n : Nat) (p : Prog) :
    (s.setProg r n p).dies = s.dies := rfl
@[simp] theorem State.setProg_owners (s : State) (r n : Nat) (p : Prog) :
    (s.setProg r n p).owners = s.owners := rfl
@[simp] theorem State.setProg_packetsOut (s : State) (r n : Nat) (p : Prog) :
    (s.setProg r n p).packetsOut = s.packetsOut := rfl
@[simp] theorem State.setProg_quarantine (s : State) (r n : Nat) (p : Prog) :
    (s.setProg r n p).quarantine = s.quarantine := rfl
@[simp] theorem State.setProg_links (s : State) (r n : Nat) (p : Prog) :
    (s.setProg r n p).links = s.links := rfl
@[simp] theorem State.setProg_life (s : State) (r n : Nat) (p : Prog) :
    (s.setProg r n p).life = s.life := rfl
@[simp] theorem State.setProg_hostRead (s : State) (r n : Nat) (p : Prog) :
    (s.setProg r n p).hostRead = s.hostRead := rfl

/-! ## registerRead -/

@[simp] theorem State.registerRead_cycle (s : State) (a : Nat) :
    (s.registerRead a).cycle = s.cycle := rfl
@[simp] theorem State.registerRead_focus (s : State) (a : Nat) :
    (s.registerRead a).focus = s.focus := rfl
@[simp] theorem State.registerRead_agenda (s : State) (a : Nat) :
    (s.registerRead a).agenda = s.agenda := rfl
@[simp] theorem State.registerRead_tick (s : State) (a : Nat) :
    (s.registerRead a).tick = s.tick := rfl
@[simp] theorem State.registerRead_nextId (s : State) (a : Nat) :
    (s.registerRead a).nextId = s.nextId := rfl
@[simp] theorem State.registerRead_mem (s : State) (a : Nat) : (s.registerRead a).mem = s.mem := rfl
@[simp] theorem State.registerRead_side (s : State) (a : Nat) :
    (s.registerRead a).side = s.side := rfl
@[simp] theorem State.registerRead_runs (s : State) (a : Nat) :
    (s.registerRead a).runs = s.runs := rfl
@[simp] theorem State.registerRead_ctxs (s : State) (a : Nat) :
    (s.registerRead a).ctxs = s.ctxs := rfl
@[simp] theorem State.registerRead_reqs (s : State) (a : Nat) :
    (s.registerRead a).reqs = s.reqs := rfl
@[simp] theorem State.registerRead_walks (s : State) (a : Nat) :
    (s.registerRead a).walks = s.walks := rfl
@[simp] theorem State.registerRead_tlb (s : State) (a : Nat) : (s.registerRead a).tlb = s.tlb := rfl
@[simp] theorem State.registerRead_tlbinv (s : State) (a : Nat) :
    (s.registerRead a).tlbinv = s.tlbinv := rfl
@[simp] theorem State.registerRead_flits (s : State) (a : Nat) :
    (s.registerRead a).flits = s.flits := rfl
@[simp] theorem State.registerRead_waves (s : State) (a : Nat) :
    (s.registerRead a).waves = s.waves := rfl
@[simp] theorem State.registerRead_queues (s : State) (a : Nat) :
    (s.registerRead a).queues = s.queues := rfl
@[simp] theorem State.registerRead_jobs (s : State) (a : Nat) :
    (s.registerRead a).jobs = s.jobs := rfl
@[simp] theorem State.registerRead_nextJob (s : State) (a : Nat) :
    (s.registerRead a).nextJob = s.nextJob := rfl
@[simp] theorem State.registerRead_pendingStarts (s : State) (a : Nat) :
    (s.registerRead a).pendingStarts = s.pendingStarts := rfl
@[simp] theorem State.registerRead_cancelWaits (s : State) (a : Nat) :
    (s.registerRead a).cancelWaits = s.cancelWaits := rfl
@[simp] theorem State.registerRead_dies (s : State) (a : Nat) :
    (s.registerRead a).dies = s.dies := rfl
@[simp] theorem State.registerRead_owners (s : State) (a : Nat) :
    (s.registerRead a).owners = s.owners := rfl
@[simp] theorem State.registerRead_packetsOut (s : State) (a : Nat) :
    (s.registerRead a).packetsOut = s.packetsOut := rfl
@[simp] theorem State.registerRead_quarantine (s : State) (a : Nat) :
    (s.registerRead a).quarantine = s.quarantine := rfl
@[simp] theorem State.registerRead_links (s : State) (a : Nat) :
    (s.registerRead a).links = s.links := rfl
@[simp] theorem State.registerRead_life (s : State) (a : Nat) :
    (s.registerRead a).life = s.life := rfl
@[simp] theorem State.registerRead_hostRead (s : State) (a : Nat) :
    (s.registerRead a).hostRead = word (s.readReg64 a) := rfl

/-! ## finish -/

@[simp] theorem State.finish_cycle (s : State) (r n : Nat) (v : Word) :
    (s.finish r n v).cycle = s.cycle := rfl
@[simp] theorem State.finish_focus (s : State) (r n : Nat) (v : Word) :
    (s.finish r n v).focus = s.focus := rfl
@[simp] theorem State.finish_agenda (s : State) (r n : Nat) (v : Word) :
    (s.finish r n v).agenda = s.agenda := rfl
@[simp] theorem State.finish_tick (s : State) (r n : Nat) (v : Word) :
    (s.finish r n v).tick = s.tick := rfl
@[simp] theorem State.finish_nextId (s : State) (r n : Nat) (v : Word) :
    (s.finish r n v).nextId = s.nextId := rfl
@[simp] theorem State.finish_mem (s : State) (r n : Nat) (v : Word) :
    (s.finish r n v).mem = s.mem := rfl
@[simp] theorem State.finish_side (s : State) (r n : Nat) (v : Word) :
    (s.finish r n v).side = s.side := rfl
@[simp] theorem State.finish_runs (s : State) (r n : Nat) (v : Word) :
    (s.finish r n v).runs = s.runs.edit r fun x => { x with cmds := x.cmds.edit n fun c => { c with state := .finished v } } := rfl
@[simp] theorem State.finish_ctxs (s : State) (r n : Nat) (v : Word) :
    (s.finish r n v).ctxs = s.ctxs := rfl
@[simp] theorem State.finish_reqs (s : State) (r n : Nat) (v : Word) :
    (s.finish r n v).reqs = s.reqs := rfl
@[simp] theorem State.finish_walks (s : State) (r n : Nat) (v : Word) :
    (s.finish r n v).walks = s.walks := rfl
@[simp] theorem State.finish_tlb (s : State) (r n : Nat) (v : Word) :
    (s.finish r n v).tlb = s.tlb := rfl
@[simp] theorem State.finish_tlbinv (s : State) (r n : Nat) (v : Word) :
    (s.finish r n v).tlbinv = s.tlbinv := rfl
@[simp] theorem State.finish_flits (s : State) (r n : Nat) (v : Word) :
    (s.finish r n v).flits = s.flits := rfl
@[simp] theorem State.finish_waves (s : State) (r n : Nat) (v : Word) :
    (s.finish r n v).waves = s.waves := rfl
@[simp] theorem State.finish_queues (s : State) (r n : Nat) (v : Word) :
    (s.finish r n v).queues = s.queues := rfl
@[simp] theorem State.finish_jobs (s : State) (r n : Nat) (v : Word) :
    (s.finish r n v).jobs = s.jobs := rfl
@[simp] theorem State.finish_nextJob (s : State) (r n : Nat) (v : Word) :
    (s.finish r n v).nextJob = s.nextJob := rfl
@[simp] theorem State.finish_pendingStarts (s : State) (r n : Nat) (v : Word) :
    (s.finish r n v).pendingStarts = s.pendingStarts := rfl
@[simp] theorem State.finish_cancelWaits (s : State) (r n : Nat) (v : Word) :
    (s.finish r n v).cancelWaits = s.cancelWaits := rfl
@[simp] theorem State.finish_dies (s : State) (r n : Nat) (v : Word) :
    (s.finish r n v).dies = s.dies := rfl
@[simp] theorem State.finish_owners (s : State) (r n : Nat) (v : Word) :
    (s.finish r n v).owners = s.owners := rfl
@[simp] theorem State.finish_packetsOut (s : State) (r n : Nat) (v : Word) :
    (s.finish r n v).packetsOut = s.packetsOut := rfl
@[simp] theorem State.finish_quarantine (s : State) (r n : Nat) (v : Word) :
    (s.finish r n v).quarantine = s.quarantine := rfl
@[simp] theorem State.finish_links (s : State) (r n : Nat) (v : Word) :
    (s.finish r n v).links = s.links := rfl
@[simp] theorem State.finish_life (s : State) (r n : Nat) (v : Word) :
    (s.finish r n v).life = s.life := rfl
@[simp] theorem State.finish_hostRead (s : State) (r n : Nat) (v : Word) :
    (s.finish r n v).hostRead = s.hostRead := rfl

@[simp] theorem State.takeId_fst (s : State) : s.takeId.1 = s.nextId := rfl

end Sys2Proof.Machine
end

