-- ==== Sys2Proof/Laws/Firing.lean ====
section
/-! SUPPORT. What the frame of a firing's execution gives, and how tables and runs read after an
edit. -/

namespace Sys2Proof.Machine

/-! ## Tables -/

theorem Tbl.find_put_self {α : Type} (t : Tbl α) (n : Nat) (x : α) : (t.put n x).find n = some x := by
  induction t with
  | nil => simp [Tbl.put, Tbl.find]
  | cons e t ih =>
    obtain ⟨k, v⟩ := e
    simp only [Tbl.put]
    split_ifs with h1 h2
    · simp [Tbl.find]
    · simp [Tbl.find]
    · simp [Tbl.find, Ne.symm h2, ih]

theorem Tbl.find_put_ne {α : Type} (t : Tbl α) {n m : Nat} (x : α) (h : m ≠ n) :
    (t.put n x).find m = t.find m := by
  induction t with
  | nil => simp [Tbl.put, Tbl.find, Ne.symm h]
  | cons e t ih =>
    obtain ⟨k, v⟩ := e
    simp only [Tbl.put]
    split_ifs with h1 h2
    · simp [Tbl.find, Ne.symm h]
    · subst h2; simp [Tbl.find, Ne.symm h]
    · simp only [Tbl.find, ih]

theorem Tbl.find_edit {α : Type} (t : Tbl α) (n m : Nat) (f : α → α) :
    (t.edit n f).find m = if m = n then (t.find n).map f else t.find m := by
  unfold Tbl.edit
  split
  · next v hv =>
    split_ifs with h
    · subst h; rw [Tbl.find_put_self, hv]; rfl
    · rw [Tbl.find_put_ne _ _ h]
  · next hv =>
    split_ifs with h
    · subst h; rw [hv]; rfl
    · rfl

/-- Reading through an edit: the entry is the old one or its image. -/
theorem Tbl.get_edit {α : Type} [Inhabited α] (t : Tbl α) (n m : Nat) (f : α → α) :
    (t.edit n f).get m = t.get m ∨ (m = n ∧ (t.edit n f).get m = f (t.get m)) := by
  unfold Tbl.get
  rw [Tbl.find_edit]
  split_ifs with h
  · subst h
    cases t.find m with
    | none => exact .inl rfl
    | some v => exact .inr ⟨rfl, rfl⟩
  · exact .inl rfl

theorem Tbl.get_edit_ne {α : Type} [Inhabited α] (t : Tbl α) {n m : Nat} (f : α → α) (h : m ≠ n) :
    (t.edit n f).get m = t.get m := by
  rcases Tbl.get_edit t n m f with h' | ⟨h', -⟩
  · exact h'
  · exact absurd h' h

/-- A view that an edit leaves alone is the same of every entry. -/
theorem Tbl.view_edit {α β : Type} [Inhabited α] (t : Tbl α) (n m : Nat) (f : α → α) (g : α → β)
    (h : ∀ x, g (f x) = g x) : g ((t.edit n f).get m) = g (t.get m) := by
  rcases Tbl.get_edit t n m f with e | ⟨-, e⟩
  · rw [e]
  · rw [e, h]

/-! ## Runs and contexts after an edit -/

theorem State.run_editRun_view {β : Type} (s : State) (r q : Nat) (f : Run → Run) (g : Run → β)
    (h : ∀ x, g (f x) = g x) : g ((s.editRun r f).run q) = g (s.run q) :=
  Tbl.view_edit s.runs r q f g h

theorem State.run_editElem_view {β : Type} (s : State) (r e q : Nat) (f : Elem → Elem) (g : Run → β)
    (h : ∀ x t, g { x with elems := t } = g x) : g ((s.editElem r e f).run q) = g (s.run q) :=
  Tbl.view_edit s.runs r q _ g fun x => h x _

@[simp] theorem State.run_idle (s : State) (q : Nat) : s.idle.run q = s.run q := rfl

@[simp] theorem State.ctx_idle (s : State) (c : Nat) : s.idle.ctx c = s.ctx c := rfl

@[simp] theorem State.ctx_editElem (s : State) (r e c : Nat) (f : Elem → Elem) :
    (s.editElem r e f).ctx c = s.ctx c := rfl

@[simp] theorem State.ctx_taken (s : State) (f : Firing) (c : Nat) : (s.taken f).ctx c = s.ctx c := rfl

/-- A view of a run that does not depend on its elements is as before the firing. -/
theorem State.run_taken_view {β : Type} (s : State) (f : Firing) (q : Nat) (g : Run → β)
    (_h : ∀ x t, g { x with elems := t } = g x) : g ((s.taken f).run q) = g (s.run q) := rfl

/-! ## The frame of a firing's execution -/

theorem onFiring_of_focus {s : State} {f : Firing} (h : s.focus = .firing f)
    (k : State → Firing → State) : onFiring s k = .next (k (s.taken f) f) := by
  simp only [onFiring, h]
  rfl

theorem computing_of_focus {s : State} {f : Firing} (h : s.focus = .firing f) (o : Out)
    (v : State → Firing → Word) :
    computing o v s = .next ((s.taken f).emitOut f o (Tok.data (v (s.taken f) f))) :=
  onFiring_of_focus h _

theorem computingFl_of_focus {s : State} {f : Firing} (h : s.focus = .firing f) (o : Out)
    (v : State → Firing → Word × Nat) :
    computingFl o v s = .next (((s.taken f).raise f (v (s.taken f) f).2).emitOut f o
      (Tok.data (v (s.taken f) f).1)) := onFiring_of_focus h _

theorem carrying_of_focus {s : State} {f : Firing} (h : s.focus = .firing f) (o : Out) :
    carrying o s = .next ((s.taken f).emitOut f o f.lt.carry) := onFiring_of_focus h _

/-- Executing for a firing answers a next state only where a firing is in focus. -/
theorem onFiring_next {s t : State} {k : State → Firing → State} (h : onFiring s k = .next t) :
    ∃ f, s.focus = .firing f ∧ t = k (s.taken f) f := by
  unfold onFiring at h
  split at h
  · next f hf => exact ⟨f, hf, by injection h with h; exact h.symm⟩
  · simp at h

end Sys2Proof.Machine
end

