-- ==== Sys2Proof/Laws/Lanes.lean ====
section
/-! SUPPORT. Lanes as bit vectors: the fields, sign extensions and lane maps of the integer
instructions are those of `BitVec` (R124). -/

namespace Sys2Proof.Machine

theorem bits_eq (x : Word) (lo n : Nat) : bits x lo n = (x.extractLsb' lo n).toNat := by
  simp [bits, BitVec.extractLsb'_toNat]

theorem bits_lt (x : Word) (lo n : Nat) : bits x lo n < 2 ^ n := by
  rw [bits_eq]; exact BitVec.isLt _

theorem bits_lane (x : Word) (w k : Nat) : bits x (k * w) w = (lane w k x).toNat := bits_eq x _ w

theorem bits_low (x : Word) (w : Nat) : bits x 0 w = (lane w 0 x).toNat := by
  rw [← bits_lane, Nat.zero_mul]

theorem sextInt_eq (n x : Nat) : sextInt n x = (BitVec.ofNat n x).toInt := by
  simp only [sextInt, BitVec.toInt_eq_toNat_cond, BitVec.toNat_ofNat]
  have h : ((2 ^ n : Nat) : Int) = (2 : Int) ^ n := by push_cast; rfl
  split_ifs <;> omega

theorem sextInt_toNat {n : Nat} (a : BitVec n) : sextInt n a.toNat = a.toInt := by
  rw [sextInt_eq, BitVec.ofNat_toNat, BitVec.setWidth_eq]

theorem sextWord_eq (n x : Nat) : sextWord n x = (BitVec.ofNat n x).signExtend 64 := by
  rw [sextWord, sextInt_eq, wordI, BitVec.signExtend]

theorem lowBits_ofInt (n : Nat) (i : Int) : lowBits n i = (BitVec.ofInt n i).toNat := by
  rw [lowBits, BitVec.toNat_ofInt]
  push_cast
  rfl

@[simp] theorem upTo_length (n : Nat) : (upTo n).length = n := by
  induction n with
  | zero => rfl
  | succ n ih => simp [upTo, ih]

theorem upTo_eq (n : Nat) : upTo n = List.range n := by
  induction n with
  | zero => rfl
  | succ n ih => rw [upTo, ih, List.range_succ]

@[simp] theorem lanesOf_length (w : Nat) (x : Word) : (lanesOf w x).length = 64 / w := by
  simp [lanesOf]

theorem lanesOf_getElem (w : Nat) (x : Word) (k : Nat) (h : k < (lanesOf w x).length) :
    (lanesOf w x)[k] = (lane w k x).toNat := by
  simp only [lanesOf, List.getElem_map, upTo_eq, List.getElem_range, bits_lane]

theorem joinNat_lane (w : Nat) (xs : List Nat) (k : Nat) (h : k < xs.length) :
    joinNat w xs / 2 ^ (k * w) % 2 ^ w = xs[k] % 2 ^ w := by
  induction xs generalizing k with
  | nil => simp at h
  | cons x xs ih =>
    have hp : 0 < 2 ^ w := Nat.two_pow_pos w
    cases k with
    | zero => simp [joinNat, Nat.add_mul_mod_self_left]
    | succ k =>
      have e : 2 ^ ((k + 1) * w) = 2 ^ w * 2 ^ (k * w) := by rw [← pow_add]; congr 1; ring
      rw [joinNat, e, ← Nat.div_div_eq_div_mul, Nat.add_mul_div_left _ _ hp,
        Nat.div_eq_of_lt (Nat.mod_lt _ hp), Nat.zero_add]
      simpa using ih k (by simpa using h)

theorem joinNat_lt (w : Nat) (xs : List Nat) : joinNat w xs < 2 ^ (w * xs.length) := by
  induction xs with
  | nil => simp [joinNat]
  | cons x xs ih =>
    have hp : 0 < 2 ^ w := Nat.two_pow_pos w
    have h1 : x % 2 ^ w < 2 ^ w := Nat.mod_lt _ hp
    rw [joinNat, List.length_cons, Nat.mul_succ, pow_add, mul_comm (2 ^ (w * xs.length))]
    calc x % 2 ^ w + 2 ^ w * joinNat w xs < 2 ^ w + 2 ^ w * joinNat w xs := by omega
      _ = 2 ^ w * (joinNat w xs + 1) := by ring
      _ ≤ 2 ^ w * 2 ^ (w * xs.length) := Nat.mul_le_mul_left _ ih

/-- A lane of joined lanes. -/
theorem lane_joinLanes (w : Nat) (xs : List Nat) (k : Nat) (h : k < xs.length)
    (hw : w * xs.length ≤ 64) : lane w k (joinLanes w xs) = BitVec.ofNat w xs[k] := by
  apply BitVec.eq_of_toNat_eq
  have hlt : joinNat w xs < 2 ^ 64 :=
    lt_of_lt_of_le (joinNat_lt w xs) (Nat.pow_le_pow_right (by norm_num) hw)
  rw [lane, BitVec.extractLsb'_toNat, joinLanes, word, BitVec.toNat_ofNat,
    Nat.mod_eq_of_lt hlt, BitVec.toNat_ofNat, Nat.shiftRight_eq_div_pow]
  exact joinNat_lane w xs k h

theorem width_lanes (z : Width) : z.bits * (64 / z.bits) = 64 := by cases z <;> rfl

theorem width_pos (z : Width) : 0 < z.bits := by cases z <;> decide

theorem width_le (z : Width) : z.bits ≤ 64 := by cases z <;> decide

theorem lane_intMap2 (z : Width) (g : Nat → Nat → Nat) (l r : Word) (k : Nat)
    (hk : k < 64 / z.bits) :
    lane z.bits k (intMap2 z.bits true g l r) =
      BitVec.ofNat z.bits (g (lane z.bits k l).toNat (lane z.bits k r).toNat) := by
  have hlen : (List.zipWith g (lanesOf z.bits l) (lanesOf z.bits r)).length = 64 / z.bits := by
    simp
  rw [intMap2, if_pos rfl, lane_joinLanes _ _ _ (by rw [hlen]; exact hk)
    (by rw [hlen]; exact (width_lanes z).le)]
  rw [List.getElem_zipWith, lanesOf_getElem, lanesOf_getElem]

theorem lane_intMap1 (z : Width) (g : Nat → Nat) (l : Word) (k : Nat) (hk : k < 64 / z.bits) :
    lane z.bits k (intMap1 z.bits true g l) =
      BitVec.ofNat z.bits (g (lane z.bits k l).toNat) := by
  have hlen : ((lanesOf z.bits l).map g).length = 64 / z.bits := by simp
  rw [intMap1, if_pos rfl, lane_joinLanes _ _ _ (by rw [hlen]; exact hk)
    (by rw [hlen]; exact (width_lanes z).le)]
  rw [List.getElem_map, lanesOf_getElem]

/-! ## The right operand -/

theorem immLane (z : Width) (imm : BitVec 16) :
    BitVec.ofNat z.bits (lowBits z.bits imm.toInt) = (imm.signExtend 64).setWidth z.bits := by
  rw [lowBits_ofInt, BitVec.ofNat_toNat, BitVec.setWidth_eq]
  apply BitVec.eq_of_toInt_eq
  rw [BitVec.toInt_ofInt, BitVec.toInt_setWidth, BitVec.signExtend, BitVec.toNat_ofInt]
  have h : ((2 ^ z.bits : Nat) : Int) ∣ ((2 ^ 64 : Nat) : Int) :=
    Int.natCast_dvd_natCast.2 (Nat.pow_dvd_pow 2 (width_le z))
  rw [Int.toNat_of_nonneg (Int.emod_nonneg _ (by norm_num))]
  simp only [Int.bmod, Int.emod_emod_of_dvd _ h]

theorem intRight_lane (f : IntForm) (r : Word) (k : Nat)
    (hk : k < if f.packed then 64 / f.sz.bits else 1) :
    lane f.sz.bits k (intRight f r) = rightLane f r k := by
  unfold intRight rightLane
  split_ifs with hi
  · unfold immWord
    split_ifs with hp
    · rw [if_pos hp] at hk
      rw [lane_joinLanes _ _ _ (by simpa using hk) (by simpa using (width_lanes f.sz).le)]
      rw [List.getElem_replicate]
      exact immLane f.sz f.imm
    · rw [if_neg hp] at hk
      have : k = 0 := by omega
      subst this
      have e : wordI f.imm.toInt = f.imm.signExtend 64 := rfl
      rw [e, lane, Nat.zero_mul]
      apply BitVec.eq_of_toNat_eq
      simp [BitVec.extractLsb'_toNat]
  · rfl

theorem intRight_whole (f : IntForm) (r : Word) (h : f.packed = false) :
    intRight f r = rightWhole f r := by
  simp only [intRight, rightWhole, immWord, h]
  split_ifs <;> first | rfl | contradiction

/-! ## The lane maps -/

/-- An instruction whose lane function has, as bit vectors, the given relation gives that
relation. -/
theorem gives2_intApply (f : IntForm) (g : Nat → Nat → Nat → Nat) (x : Firing)
    (rel : BitVec f.sz.bits → BitVec f.sz.bits → BitVec f.sz.bits → Prop)
    (h : ∀ a b : BitVec f.sz.bits, rel a b (BitVec.ofNat f.sz.bits (g f.sz.bits a.toNat b.toNat))) :
    Gives2 f rel x.lv x.rv (intApply f g x) := by
  unfold Gives2
  split_ifs with hp
  · intro k hk
    have hr := intRight_lane f x.rv k (by rw [if_pos hp]; exact hk)
    rw [intApply, hp, lane_intMap2 _ _ _ _ _ hk, hr]
    exact h _ _
  · have hp' : f.packed = false := by simpa using hp
    have hr := intRight_lane f x.rv 0 (by simp [hp'])
    refine ⟨_, h _ _, ?_⟩
    rw [intApply, hp', intMap2, if_neg (by simp), sextWord_eq, bits_low, bits_low, hr]

theorem gives1_unApply (f : UnForm) (g : Nat → Nat → Nat) (x : Firing)
    (rel : BitVec f.sz.bits → BitVec f.sz.bits → Prop)
    (h : ∀ a : BitVec f.sz.bits, rel a (BitVec.ofNat f.sz.bits (g f.sz.bits a.toNat))) :
    Gives1 f rel x.lv (unApply f g x) := by
  unfold Gives1
  split_ifs with hp
  · intro k hk
    rw [unApply, hp, lane_intMap1 _ _ _ _ hk]
    exact h _
  · have hp' : f.packed = false := by simpa using hp
    refine ⟨_, h _, ?_⟩
    rw [unApply, hp', intMap1, if_neg (by simp), sextWord_eq, bits_low]

end Sys2Proof.Machine
end

