-- ==== Sys2Proof/Laws/Memory.lean ====
section
/-! SUPPORT. The laws of memory: every operation keeps the canonical form, a read gives what was
written last, and a write leaves every other byte alone. -/

namespace Sys2Proof.Machine

/-! ## The canonical form -/

theorem cellsWf_weaken {lo lo' : Nat} {m : List Host.Cell} (h : cellsWf lo m = true) (hl : lo' ≤ lo) :
    cellsWf lo' m = true := by
  cases m with
  | nil => rfl
  | cons c m =>
    simp only [cellsWf, Bool.and_eq_true, decide_eq_true_eq] at h ⊢
    exact ⟨⟨le_trans hl h.1.1, h.1.2⟩, h.2⟩

theorem cellsWf_memPut {m : List Host.Cell} {lo a : Nat} {b : Byte} (h : cellsWf lo m = true)
    (ha : lo ≤ a) : cellsWf lo (memPut m a b) = true := by
  induction m generalizing lo with
  | nil =>
    by_cases hb : b = unlisted <;> simp [memPut, cellsWf, hb, ha]
  | cons c m ih =>
    obtain ⟨k, c⟩ := c
    simp only [cellsWf, Bool.and_eq_true, decide_eq_true_eq, bne_iff_ne, ne_eq] at h
    obtain ⟨⟨hk, hc⟩, hm⟩ := h
    simp only [memPut]
    split_ifs with h1 hb h2 hb
    · simp [cellsWf, hk, hc, hm]
    · simp only [cellsWf, Bool.and_eq_true, decide_eq_true_eq, bne_iff_ne, ne_eq]
      exact ⟨⟨ha, hb⟩, ⟨h1, hc⟩, hm⟩
    · exact cellsWf_weaken hm (by omega)
    · subst h2
      simp only [cellsWf, Bool.and_eq_true, decide_eq_true_eq, bne_iff_ne, ne_eq]
      exact ⟨⟨ha, hb⟩, hm⟩
    · simp only [cellsWf, Bool.and_eq_true, decide_eq_true_eq, bne_iff_ne, ne_eq]
      exact ⟨⟨hk, hc⟩, ih hm (by omega)⟩

theorem Memory.wf_memPut {m : List Host.Cell} (h : Memory.wf m = true) (a : Nat) (b : Byte) :
    Memory.wf (memPut m a b) = true := cellsWf_memPut h (Nat.zero_le a)

theorem Memory.wf_memWrite {m : List Host.Cell} (h : Memory.wf m = true) (a : Nat) (bs : List Byte) :
    Memory.wf (memWrite m a bs) = true := by
  induction bs generalizing m a with
  | nil => exact h
  | cons b bs ih => exact ih (Memory.wf_memPut h a b) (a + 1)

theorem cellsWf_filter {m : List Host.Cell} {lo : Nat} (p : Host.Cell → Bool)
    (h : cellsWf lo m = true) : cellsWf lo (m.filter p) = true := by
  induction m generalizing lo with
  | nil => exact h
  | cons c m ih =>
    simp only [cellsWf, Bool.and_eq_true, decide_eq_true_eq, bne_iff_ne, ne_eq] at h
    obtain ⟨⟨hk, hc⟩, hm⟩ := h
    rw [List.filter_cons]
    split_ifs
    · simp only [cellsWf, Bool.and_eq_true, decide_eq_true_eq, bne_iff_ne, ne_eq]
      exact ⟨⟨hk, hc⟩, ih hm⟩
    · exact ih (cellsWf_weaken hm (by omega))

theorem Memory.wf_clearCells {m : List Host.Cell} (h : Memory.wf m = true) (lo hi : Nat) :
    Memory.wf (clearCells lo hi m) = true := cellsWf_filter _ h

theorem Memory.wf_reset : Memory.wf State.reset.mem = true := rfl

/-! ## Reads -/

theorem memGet_below {m : List Host.Cell} {lo a : Nat} (h : cellsWf lo m = true) (ha : a < lo) :
    memGet m a = unlisted := by
  induction m generalizing lo with
  | nil => rfl
  | cons c m ih =>
    simp only [cellsWf, Bool.and_eq_true, decide_eq_true_eq, bne_iff_ne, ne_eq] at h
    have : c.1 ≠ a := by omega
    simp only [memGet, this, if_false]
    exact ih h.2 (by omega)

theorem memGet_memPut_aux {m : List Host.Cell} {lo : Nat} (h : cellsWf lo m = true) (a x : Nat)
    (b : Byte) : memGet (memPut m a b) x = if x = a then b else memGet m x := by
  induction m generalizing lo with
  | nil =>
    by_cases hb : b = unlisted <;> by_cases hx : x = a <;> simp [memPut, memGet, hb, hx, eq_comm]
    exact fun e => absurd e.symm hx
  | cons c m ih =>
    obtain ⟨k, c⟩ := c
    simp only [cellsWf, Bool.and_eq_true, decide_eq_true_eq, bne_iff_ne, ne_eq] at h
    obtain ⟨⟨hk, hc⟩, hm⟩ := h
    simp only [memPut]
    split_ifs with h1 hb hx hx h2 hb hx hx hx
    · have e : k ≠ a := by omega
      subst hx
      simp only [memGet, e, if_false]
      rw [memGet_below hm (by omega), hb]
    · rfl
    · simp [memGet, hx]
    · simp [memGet, Ne.symm hx]
    · subst hx h2; rw [memGet_below hm (by omega), hb]
    · subst h2
      have : a ≠ x := Ne.symm hx
      simp [memGet, this]
    · simp [memGet, hx]
    · subst h2
      have : a ≠ x := Ne.symm hx
      simp [memGet, this]
    · have e : k ≠ a := by omega
      subst hx
      simp only [memGet, e, if_false]
      rw [ih hm, if_pos rfl]
    · by_cases e : k = x
      · simp [memGet, e]
      · simp only [memGet, e, if_false]
        rw [ih hm, if_neg hx]

/-- A read after a write of one byte. -/
theorem memGet_memPut {m : List Host.Cell} (h : Memory.wf m = true) (a x : Nat) (b : Byte) :
    memGet (memPut m a b) x = if x = a then b else memGet m x := memGet_memPut_aux h a x b

/-- A write of bytes leaves every byte before them alone, and every byte after them. -/
theorem memGet_memWrite_of_outside {m : List Host.Cell} (h : Memory.wf m = true) {a x : Nat}
    {bs : List Byte} (hx : x < a ∨ a + bs.length ≤ x) :
    memGet (memWrite m a bs) x = memGet m x := by
  induction bs generalizing m a with
  | nil => rfl
  | cons b bs ih =>
    simp only [List.length_cons] at hx
    rw [memWrite, ih (Memory.wf_memPut h a b) (by omega), memGet_memPut h, if_neg (by omega)]

/-- A read of one of the bytes written gives that byte. -/
theorem memGet_memWrite_of_inside {m : List Host.Cell} (h : Memory.wf m = true) (a : Nat)
    (bs : List Byte) (k : Nat) (hk : k < bs.length) :
    memGet (memWrite m a bs) (a + k) = bs[k] := by
  induction bs generalizing m a k with
  | nil => simp at hk
  | cons b bs ih =>
    rw [memWrite]
    cases k with
    | zero =>
      rw [memGet_memWrite_of_outside (Memory.wf_memPut h a b) (by omega), memGet_memPut h]
      simp
    | succ k =>
      have := ih (Memory.wf_memPut h a b) (a + 1) k (by simpa using hk)
      rw [show a + (k + 1) = a + 1 + k by omega, this]
      simp

@[simp] theorem memRead_length (m : List Host.Cell) (a n : Nat) : (memRead m a n).length = n := by
  induction n generalizing a with
  | zero => rfl
  | succ n ih => simp [memRead, ih]

theorem memRead_getElem (m : List Host.Cell) (a n k : Nat) (hk : k < (memRead m a n).length) :
    (memRead m a n)[k] = memGet m (a + k) := by
  induction n generalizing a k with
  | zero => simp [memRead] at hk
  | succ n ih =>
    cases k with
    | zero => simp [memRead]
    | succ k =>
      simp only [memRead, List.getElem_cons_succ]
      rw [ih]
      congr 1
      omega

/-- A read of the bytes written gives them. -/
theorem memRead_memWrite {m : List Host.Cell} (h : Memory.wf m = true) (a : Nat) (bs : List Byte) :
    memRead (memWrite m a bs) a bs.length = bs := by
  apply List.ext_getElem
  · simp
  · intro k h1 h2
    rw [memRead_getElem, memGet_memWrite_of_inside h a bs k h2]

/-- A read that touches none of the bytes written gives what it gave before. -/
theorem memRead_memWrite_of_outside {m : List Host.Cell} (h : Memory.wf m = true) {a x n : Nat}
    {bs : List Byte} (hx : x + n ≤ a ∨ a + bs.length ≤ x) :
    memRead (memWrite m a bs) x n = memRead m x n := by
  apply List.ext_getElem
  · simp
  · intro k h1 h2
    simp only [memRead_length] at h1
    rw [memRead_getElem, memRead_getElem, memGet_memWrite_of_outside h (by omega)]

/-- A cleared range reads as at reset, and every other byte reads as before. -/
theorem memGet_clearCells {m : List Host.Cell} {lo hi : Nat} (x : Nat) :
    memGet (clearCells lo hi m) x = if lo ≤ x ∧ x < hi then unlisted else memGet m x := by
  induction m with
  | nil => simp [clearCells, memGet]
  | cons c m ih =>
    obtain ⟨k, c⟩ := c
    simp only [clearCells] at ih ⊢
    rw [List.filter_cons]
    by_cases hx : k = x
    · subst hx
      by_cases hr : lo ≤ k ∧ k < hi
      · have hf : ¬ (k < lo ∨ hi ≤ k) := by omega
        simp only [Bool.or_eq_true, decide_eq_true_eq, hf, if_false]
        rw [ih, if_pos hr, if_pos hr]
      · have hf : k < lo ∨ hi ≤ k := by omega
        simp [hf, hr, memGet]
    · split_ifs with h1 h2 h2
      · simp only [memGet, hx, if_false]; rw [ih, if_pos h2]
      · simp only [memGet, hx, if_false]; rw [ih, if_neg h2]
      · rw [ih, if_pos h2]
      · simp only [memGet, hx, if_false]; rw [ih, if_neg h2]

/-- Memories in canonical form that read alike are equal data. -/
theorem cells_ext {m n : List Host.Cell} {lo : Nat} (hm : cellsWf lo m = true)
    (hn : cellsWf lo n = true) (h : ∀ a, memGet m a = memGet n a) : m = n := by
  induction m generalizing n lo with
  | nil =>
    cases n with
    | nil => rfl
    | cons c n =>
      simp only [cellsWf, Bool.and_eq_true, decide_eq_true_eq, bne_iff_ne, ne_eq] at hn
      have := h c.1
      simp only [memGet, if_true] at this
      exact absurd this.symm hn.1.2
  | cons c m ih =>
    obtain ⟨k, c⟩ := c
    simp only [cellsWf, Bool.and_eq_true, decide_eq_true_eq, bne_iff_ne, ne_eq] at hm
    cases n with
    | nil =>
      have := h k
      simp only [memGet, if_true] at this
      exact absurd this hm.1.2
    | cons d n =>
      obtain ⟨j, d⟩ := d
      simp only [cellsWf, Bool.and_eq_true, decide_eq_true_eq, bne_iff_ne, ne_eq] at hn
      have hkj : k = j := by
        rcases Nat.lt_trichotomy k j with hlt | heq | hgt
        · have := h k
          simp only [memGet, if_true, Nat.ne_of_gt hlt, if_false] at this
          rw [memGet_below hn.2 (by omega)] at this
          exact absurd this hm.1.2
        · exact heq
        · have := h j
          simp only [memGet, if_true, Nat.ne_of_gt hgt, if_false] at this
          rw [memGet_below hm.2 (by omega)] at this
          exact absurd this.symm hn.1.2
      subst hkj
      have hcd : c = d := by simpa [memGet] using h k
      subst hcd
      congr 1
      refine ih hm.2 hn.2 fun a => ?_
      by_cases ha : a < k + 1
      · rw [memGet_below hm.2 ha, memGet_below hn.2 ha]
      · have e : k ≠ a := by omega
        simpa [memGet, e] using h a

theorem Memory.ext {m n : List Host.Cell} (hm : Memory.wf m = true) (hn : Memory.wf n = true)
    (h : ∀ a, memGet m a = memGet n a) : m = n := cells_ext hm hn h

/-! ## The operations of the state -/

@[simp] theorem State.settleSide_mem (s : State) (a fmt scale : Nat) :
    (s.settleSide a fmt scale).mem = s.mem := rfl

@[simp] theorem State.writeBytes_mem (s : State) (a : Nat) (bs : List Byte) :
    (s.writeBytes a bs).mem = memWrite s.mem a bs := rfl

@[simp] theorem State.writeNum_mem (s : State) (a n v : Nat) :
    (s.writeNum a n v).mem = memWrite s.mem a (toBytes n v) := rfl

@[simp] theorem State.writeBlock_mem (s : State) (a fmt scale : Nat) (data : List Byte) :
    (s.writeBlock a fmt scale data).mem = memWrite s.mem (blockAt a) (fillTo 64 0 data) := rfl

@[simp] theorem State.markPoison_mem (s : State) (a : Nat) : (s.markPoison a).mem = s.mem := rfl

@[simp] theorem State.clearRange_mem (s : State) (lo hi : Nat) :
    (s.clearRange lo hi).mem = clearCells lo hi s.mem := rfl

/-- A completed write counts the block's version on (R42). -/
theorem State.settleSide_version (s : State) (a fmt scale : Nat) :
    ((s.settleSide a fmt scale).sideOf a).version = ((s.sideOf a).version + 1) % 65536 := by
  have h : ∀ (t : Tbl Side) (n : Nat) (x : Side), (t.put n x).find n = some x := by
    intro t n x
    induction t with
    | nil => simp [Tbl.put, Tbl.find]
    | cons e t ih =>
      obtain ⟨k, v⟩ := e
      simp only [Tbl.put]
      split_ifs with h1 h2
      · simp [Tbl.find]
      · simp [Tbl.find]
      · simp [Tbl.find, Ne.symm h2, ih]
  simp only [State.sideOf, State.settleSide, State.setSide, h]
  rfl

end Sys2Proof.Machine
end

