-- ==== Sys2Proof/Laws/Shared.lean ====
section
/-! SUPPORT. What the shared operations of firings and of engines leave alone: memory, its side
bands, the clock, the cached translations, the queues and the life-cycle state.  Only writes at homes
and entries that spill change memory. -/

namespace Sys2Proof.Machine

/-- The parts of the state that a token's way leaves alone, wherever it ends (R34, R243). -/
structure SameDevice (s t : State) : Prop where
  cycle : t.cycle = s.cycle
  tlb : t.tlb = s.tlb
  queues : t.queues = s.queues
  life : t.life = s.life

/-- The same with memory and its side bands: what taking a trap, moving beats and sending a token to
another element leave alone. -/
structure SameStore (s t : State) : Prop extends SameDevice s t where
  mem : t.mem = s.mem
  side : t.side = s.side

theorem SameDevice.refl (s : State) : SameDevice s s := ⟨rfl, rfl, rfl, rfl⟩

theorem SameStore.refl (s : State) : SameStore s s := ⟨.refl s, rfl, rfl⟩

theorem SameDevice.trans {s t u : State} (h : SameDevice s t) (k : SameDevice t u) : SameDevice s u :=
  ⟨k.cycle.trans h.cycle, k.tlb.trans h.tlb, k.queues.trans h.queues, k.life.trans h.life⟩

theorem SameStore.trans {s t u : State} (h : SameStore s t) (k : SameStore t u) : SameStore s u :=
  ⟨h.toSameDevice.trans k.toSameDevice, k.mem.trans h.mem, k.side.trans h.side⟩

theorem SameDevice.ite {s a b : State} {c : Prop} [Decidable c] (ha : SameDevice s a)
    (hb : SameDevice s b) : SameDevice s (if c then a else b) := by
  split
  · exact ha
  · exact hb

theorem SameStore.ite {s a b : State} {c : Prop} [Decidable c] (ha : SameStore s a)
    (hb : SameStore s b) : SameStore s (if c then a else b) := by
  split
  · exact ha
  · exact hb

/-! ## Edits -/

theorem State.editRun_same (s : State) (r : Nat) (f : Run → Run) : SameStore s (s.editRun r f) :=
  ⟨⟨rfl, rfl, rfl, rfl⟩, rfl, rfl⟩

theorem State.editElem_same (s : State) (r e : Nat) (f : Elem → Elem) :
    SameStore s (s.editElem r e f) := ⟨⟨rfl, rfl, rfl, rfl⟩, rfl, rfl⟩

theorem State.editCtx_same (s : State) (c : Nat) (f : Ctx → Ctx) : SameStore s (s.editCtx c f) :=
  ⟨⟨rfl, rfl, rfl, rfl⟩, rfl, rfl⟩

theorem State.takeId_same (s : State) : SameStore s s.takeId.2 := ⟨⟨rfl, rfl, rfl, rfl⟩, rfl, rfl⟩

theorem State.addFlit_same (s : State) (n : Nat) (f : Flit) : SameStore s (s.addFlit n f) :=
  ⟨⟨rfl, rfl, rfl, rfl⟩, rfl, rfl⟩

theorem State.taken_same (s : State) (f : Firing) : SameStore s (s.taken f) :=
  ⟨⟨rfl, rfl, rfl, rfl⟩, rfl, rfl⟩

theorem State.orFlags_same (s : State) (c fl : Nat) : SameStore s (s.orFlags c fl) :=
  State.editCtx_same ..

theorem State.raise_same (s : State) (f : Firing) (fl : Nat) : SameStore s (s.raise f fl) := by
  unfold State.raise
  split_ifs
  · exact .refl s
  · split
    · split_ifs
      · exact State.orFlags_same ..
      · exact State.editElem_same ..
    · exact State.orFlags_same ..

theorem State.taint_same (s : State) (r c : Nat) : SameStore s (s.taint r c) := by
  unfold State.taint
  split_ifs
  · exact State.editCtx_same ..
  · exact .refl s

/-! ## Traps, R163 -/

theorem State.present_same (s : State) (r : Nat) (t : TrapRec) : SameStore s (s.present r t) := by
  unfold State.present
  dsimp only
  split <;> exact ⟨⟨rfl, rfl, rfl, rfl⟩, rfl, rfl⟩

theorem State.presentNext_same (s : State) (r : Nat) : SameStore s (s.presentNext r) := by
  unfold State.presentNext
  dsimp only
  split
  · exact .ite (.refl s) (.trans (State.editRun_same s _ _) (State.present_same ..))
  · exact .refl s

theorem State.cancelPart_same (s : State) (r p : Nat) : SameStore s (s.cancelPart r p) := by
  unfold State.cancelPart
  dsimp only
  refine .ite (.refl s) (.trans ?_ (State.presentNext_same ..))
  exact ⟨⟨rfl, rfl, rfl, rfl⟩, rfl, rfl⟩

theorem State.cancelByTrap_same (s : State) (r : Nat) (t : TrapRec) (d : Bool) :
    SameStore s (s.cancelByTrap r t d) := by
  refine SameStore.trans ?_ (State.cancelPart_same _ _ _)
  exact ⟨⟨rfl, rfl, rfl, rfl⟩, rfl, rfl⟩

theorem State.trap_same (s : State) (r : Nat) (t : TrapRec) : SameStore s (s.trap r t) := by
  unfold State.trap
  dsimp only
  split
  · exact .trans (State.editRun_same s _ _) (State.cancelByTrap_same ..)
  · split_ifs
    · exact .trans (State.editRun_same s _ _) (State.cancelByTrap_same ..)
    · exact ⟨⟨rfl, rfl, rfl, rfl⟩, rfl, rfl⟩
    · exact .trans (State.editRun_same s _ _) (State.present_same ..)

theorem State.parkAs_same (s : State) (f : Firing) (cause mark : Nat) (info : Word) :
    SameStore s (s.parkAs f cause mark info) := by
  refine SameStore.trans ?_ (State.trap_same _ _ _)
  exact ⟨⟨rfl, rfl, rfl, rfl⟩, rfl, rfl⟩

theorem State.park_same (s : State) (f : Firing) (cause : Nat) (info : Word) :
    SameStore s (s.park f cause info) := State.parkAs_same ..

theorem State.trapDiscarded_same (s : State) (f : Flit) : SameStore s (s.trapDiscarded f) :=
  State.trap_same ..

theorem State.endPresentation_same (s : State) (r : Nat) : SameStore s (s.endPresentation r) :=
  .trans (State.editRun_same s _ _) (State.presentNext_same ..)

/-! ## Writes of the device itself, R244, R295 -/

theorem State.setSide_device (s : State) (a : Nat) (v : Side) : SameDevice s (s.setSide a v) :=
  ⟨rfl, rfl, rfl, rfl⟩

theorem State.writeBytes_device (s : State) (a : Nat) (bs : List Byte) :
    SameDevice s (s.writeBytes a bs) := ⟨rfl, rfl, rfl, rfl⟩

theorem State.deviceWrite_device (s : State) (a : Nat) (bs : List Byte) :
    SameDevice s (s.deviceWrite a bs) := by
  unfold State.deviceWrite
  exact .ite (.refl s) (.trans (State.writeBytes_device s a bs) ⟨rfl, rfl, rfl, rfl⟩)

theorem State.virtWrite_device (s : State) (c va : Nat) (bs : List Byte) :
    SameDevice s (s.virtWrite c va bs) := by
  unfold State.virtWrite
  split
  · exact State.deviceWrite_device ..
  · exact .refl s

theorem State.writeSpill_device (s : State) (c k : Nat) (bs : List Byte) :
    SameDevice s (s.writeSpill c k bs) := State.virtWrite_device ..

/-! ## Emission, R34, R101 -/

theorem State.openAct_same (s : State) (r e c i : Nat) : SameStore s (s.openAct r e c i) := by
  unfold State.openAct
  split
  · exact .refl s
  · exact ⟨⟨rfl, rfl, rfl, rfl⟩, rfl, rfl⟩

theorem State.keepToken_same (s : State) (f : Flit) : SameStore s (s.keepToken f) := by
  unfold State.keepToken
  dsimp only
  exact .ite (.trans (State.editElem_same s _ _ _) (State.trap_same ..)) (State.editElem_same ..)

theorem State.storeToken_device (s : State) (f : Flit) : SameDevice s (s.storeToken f) := by
  unfold State.storeToken
  dsimp only
  refine .ite (State.keepToken_same ..).toSameDevice
    (.trans (State.openAct_same s f.run f.dst f.colour f.iter).toSameDevice ?_)
  refine .trans ?_ (State.editElem_same ..).toSameDevice
  split
  · exact State.writeSpill_device ..
  · exact .refl _

/-- A token that finds a free way in its set changes neither memory nor its side bands. -/
theorem State.storeToken_same (s : State) (f : Flit)
    (h : (s.elem f.run f.dst).HasWays 1) :
    SameStore s (s.storeToken f) := by
  have full : (Decidable.decide ((s.elem f.run f.dst).inSet (setOf f.slot f.iter f.colour) ≥ 8) ||
      (s.elem f.run f.dst).setSpills (setOf f.slot f.iter f.colour)) = false := by
    simp [(h _).2, Nat.not_le.mpr (h (setOf f.slot f.iter f.colour)).1]
  unfold State.storeToken
  simp only [full, Bool.false_and, Bool.false_eq_true, if_false]
  exact .ite (State.keepToken_same ..)
    (.trans (State.openAct_same s _ _ _ _) (State.editElem_same ..))

theorem State.notice_same (s : State) (f : Flit) : SameStore s (s.notice f) := by
  unfold State.notice
  split_ifs
  · exact State.editElem_same ..
  · exact .refl s

theorem State.softError_same (s : State) (r k : Nat) : SameStore s (s.softError r k) :=
  ⟨⟨rfl, rfl, rfl, rfl⟩, rfl, rfl⟩

/-- Taint of a colour leaves every launch alone. -/
theorem State.taint_run (s : State) (r c q : Nat) : (s.taint r c).run q = s.run q := by
  unfold State.taint
  split_ifs <;> rfl

/-- A token that arrives changes nothing of the device, and memory only where it is spilled. -/
theorem State.deliver_device (s : State) (f : Flit) : SameDevice s (s.deliver f) := by
  have tainted (c : Nat) : SameDevice s (if f.outer then s.taint f.run c else s) :=
    .ite (State.taint_same ..).toSameDevice (.refl s)
  unfold State.deliver
  dsimp only
  have gone (s : State) (f : Flit) : SameDevice s (s.trapDiscarded f) :=
    (State.trapDiscarded_same s f).toSameDevice
  refine .ite (.refl s) (.ite (.trans (State.softError_same ..).toSameDevice (gone ..)) ?_)
  split
  · exact ⟨rfl, rfl, rfl, rfl⟩
  · refine .ite (gone ..) (.ite (gone ..) (.ite (.refl s) ?_))
    refine .trans (tainted ((s.ctx (s.run f.run).ctx).resolve f.colour)) ?_
    generalize (if f.outer then _ else s) = u
    split
    · exact .ite (gone ..)
        (.ite (State.notice_same ..).toSameDevice (State.storeToken_device ..))
    · exact .ite (gone ..) (State.editRun_same ..).toSameDevice
    · exact gone ..

/-- A token that arrives where every set has a free way changes neither memory nor its side bands. -/
theorem State.deliver_same (s : State) (f : Flit)
    (h : (s.elem f.run f.dst).HasWays 1) : SameStore s (s.deliver f) := by
  have tainted (c : Nat) : SameStore s (if f.outer then s.taint f.run c else s) :=
    .ite (State.taint_same ..) (.refl s)
  have there (c : Nat) :
      (if f.outer then s.taint f.run c else s).elem f.run f.dst = s.elem f.run f.dst := by
    unfold State.elem
    split_ifs
    · rw [State.taint_run]
    · rfl
  unfold State.deliver
  dsimp only
  refine .ite (.refl s)
    (.ite (.trans (State.softError_same ..) (State.trapDiscarded_same ..)) ?_)
  split
  · exact ⟨⟨rfl, rfl, rfl, rfl⟩, rfl, rfl⟩
  · refine .ite (State.trapDiscarded_same ..) (.ite (State.trapDiscarded_same ..) (.ite (.refl s) ?_))
    refine .trans (tainted ((s.ctx (s.run f.run).ctx).resolve f.colour)) ?_
    have h := there ((s.ctx (s.run f.run).ctx).resolve f.colour) ▸ h
    revert h
    generalize (if f.outer then _ else s) = u
    intro h
    split
    · exact .ite (State.trapDiscarded_same ..)
        (.ite (State.notice_same ..) (State.storeToken_same _ _ h))
    · exact .ite (State.trapDiscarded_same ..) (State.editRun_same ..)
    · exact State.trapDiscarded_same ..

theorem State.inject_device (s : State) (f : Flit) : SameDevice s (s.inject f) := by
  unfold State.inject
  split_ifs
  · exact ⟨rfl, rfl, rfl, rfl⟩
  · exact State.deliver_device ..
  · exact ⟨rfl, rfl, rfl, rfl⟩

/-- A token that another element is sent changes neither memory nor its side bands. -/
theorem State.inject_same (s : State) (f : Flit) (h : f.dst ≠ f.src) : SameStore s (s.inject f) := by
  unfold State.inject
  split_ifs with _ b
  · exact ⟨⟨rfl, rfl, rfl, rfl⟩, rfl, rfl⟩
  · simp [h] at b
  · exact ⟨⟨rfl, rfl, rfl, rfl⟩, rfl, rfl⟩

theorem State.writeHold_same (s : State) (r e k c i : Nat) (t : Tok) :
    SameStore s (s.writeHold r e k c i t) := State.editElem_same ..

theorem State.emitAs_device (s : State) (f : Firing) (t : Option Target) (tok : Tok) (c i : Nat) :
    SameDevice s (s.emitAs f t tok c i) := by
  unfold State.emitAs
  split
  · exact .refl s
  · exact .ite (.refl s) (State.writeHold_same ..).toSameDevice
  · exact State.inject_device ..

theorem State.emit_device (s : State) (f : Firing) (t : Option Target) (tok : Tok) :
    SameDevice s (s.emit f t tok) := State.emitAs_device ..

/-- Emitting to TA and to TB changes nothing of the device. -/
theorem State.emitOut_device (s : State) (f : Firing) (o : Out) (tok : Tok) :
    SameDevice s (s.emitOut f o tok) := .trans (State.emit_device s _ _ _) (State.emit_device ..)

/-! ## Engines, R166, R169 -/

theorem State.editCmd_same (s : State) (r n : Nat) (f : Command → Command) :
    SameStore s (s.editCmd r n f) := State.editRun_same ..

theorem State.setProg_same (s : State) (r n : Nat) (p : Prog) : SameStore s (s.setProg r n p) :=
  State.editCmd_same ..

theorem State.finish_same (s : State) (r n : Nat) (v : Word) : SameStore s (s.finish r n v) :=
  State.editCmd_same ..

theorem State.cmdFlags_same (s : State) (r n fl : Nat) : SameStore s (s.cmdFlags r n fl) := by
  unfold State.cmdFlags
  split_ifs
  · exact .refl s
  · exact State.editCmd_same ..

theorem State.editFrame_same (s : State) (r k : Nat) (f : Frame → Frame) :
    SameStore s (s.editFrame r k f) := State.editRun_same ..

/-- A command that stops leaves its progress at its engine alone. -/
theorem State.stopCmd_same (s : State) (r n : Nat) (c : Command) : SameStore s (s.stopCmd r n c) := by
  unfold State.stopCmd
  exact .ite (.trans (State.editCmd_same ..) (State.editFrame_same ..)) (State.editCmd_same ..)

/-- An engine that stops at a trap changes neither memory nor its side bands. -/
theorem State.engineTrap_same (s : State) (r n : Nat) (c : Command) (cause : Nat) (info : Word)
    (z : Resume) : SameStore s (s.engineTrap r n c cause info z) := by
  unfold State.engineTrap
  dsimp only
  split_ifs
  · exact State.finish_same ..
  · exact .trans (State.stopCmd_same ..) (State.trap_same ..)

theorem State.engineFault_same (s : State) (r n : Nat) (c : Command) (cause : Nat) (info : Word) :
    SameStore s (s.engineFault r n c cause info) := State.engineTrap_same ..

theorem State.engineIllegal_same (s : State) (r n : Nat) (c : Command) :
    SameStore s (s.engineIllegal r n c) := State.engineTrap_same ..

theorem State.beatFault_same (s : State) (r n : Nat) (c : Command) (port : Nat) (b : Beat)
    (e : Nat) : SameStore s (s.beatFault r n c port b e) := State.engineTrap_same ..

theorem State.takeBeat_same (s : State) (r k port : Nat) : SameStore s (s.takeBeat r k port) := by
  unfold State.takeBeat
  split
  · exact .refl s
  · exact State.editRun_same ..

theorem State.putBeats_same (s : State) (r k port : Nat) (bs : List Beat) :
    SameStore s (s.putBeats r k port bs) := by
  unfold State.putBeats
  dsimp only
  split_ifs
  · exact .refl s
  · split
    · exact .refl s
    · exact State.editRun_same ..

theorem State.countOrph_same (s : State) (r k port m : Nat) :
    SameStore s (s.countOrph r k port m) := by
  unfold State.countOrph
  split
  · exact .refl s
  · exact State.editRun_same ..

end Sys2Proof.Machine
end

