-- ==== Sys2Proof/Tests/Slice0.lean ====
section
/-! SUPPORT. Tests of the model: words written out from the spec's encoding tables, ill-formed
terms that the checks refuse, and a witness that meets the hypotheses of every statement. -/

set_option maxRecDepth 100000

namespace Sys2Proof.Tests

open Sys2Proof Sys2Proof.Machine

/-! ## Decoding -/

/-- Targets s05.l and s03.r at offset (2, 15), no predicate (R65). -/
def o1 : Out := ⟨some (.site .left 5 0 0), some (.site .right 3 2 15), false⟩

/-- One target, hold register 2, with the predicate port (R63, R65). -/
def o2 : Out := ⟨some (.hold 2), none, true⟩

/-- A command to a site with one target, s05.l (R77). -/
def c1 (n : BitVec 6) : Cmd := ⟨some (.site .left 5 0 0), none, false, n⟩

/-- A command with two targets and the predicate port. -/
def c2 (n : BitVec 6) : Cmd :=
  ⟨some (.site .left 5 0 0), some (.site .right 3 2 15), true, n⟩

def m0 : MemForm := ⟨0, 0, none⟩

/-- The words of R103, composed field by field from the encoding table. -/
def words_steering_1 : List (Word × Instr) := [
  (0x0000000000000000, .ill false),
  (0xFF00000000000000, .ill true),
  (0x01008500A32F0000, .mov o1 0),
  (0x0101E20000004321, .mov o2 0x4321),
  (0x02008500A32FDE90, .mov3 o1 (some (.site .pred 30 9 0))),
  (0x03008500A32F8000, .const o1 0x8000),
  (0x04008500A32F5678, .constor o1 0x5678),
  (0x0501E20000004321, .steer o2 0x4321)]

theorem test_decode_steering_1 :
    ∀ p ∈ words_steering_1, decode p.1 = .ok p.2 ∧ encode p.2 = p.1 := by decide

/-- More words of R103. -/
def words_steering_2 : List (Word × Instr) := [
  (0x06008500A32F0000, .steern o1 0),
  (0x0701E20000000000, .select o2 0),
  (0x08008500A32F4321, .nullt o1 0x4321),
  (0x0901E20000000000, .iter o2 0),
  (0x0A008500A32F0000, .iterset o1 0),
  (0x0B01E20000004321, .iterread o2 0x4321),
  (0x0C008500A32F0000, .colnew o1 0),
  (0x0D01E20000000000, .colfree o2 0)]

theorem test_decode_steering_2 :
    ∀ p ∈ words_steering_2, decode p.1 = .ok p.2 ∧ encode p.2 = p.1 := by decide

/-- More words of R103. -/
def words_steering_3 : List (Word × Instr) := [
  (0x0E008500A32F4321, .retag o1 0x4321),
  (0x0F01E20000000000, .exit o2 0),
  (0x1001000000000000, .send true 0),
  (0x1100000000004321, .sendx false 0x4321),
  (0x12008500A32F0000, .gate o1 0),
  (0x1301E20000000000, .kindq o2 0),
  (0x14008500A32F0007, .stopt o1 7),
  (0x1501E20000000000, .kill o2 0)]

theorem test_decode_steering_3 :
    ∀ p ∈ words_steering_3, decode p.1 = .ok p.2 ∧ encode p.2 = p.1 := by decide

/-- More words of R103. -/
def words_steering_4 : List (Word × Instr) := [
  (0x16008500A32F03FF, .throttle o1 1023),
  (0x1701E20000004321, .retire o2 0x4321)]

theorem test_decode_steering_4 :
    ∀ p ∈ words_steering_4, decode p.1 = .ok p.2 ∧ encode p.2 = p.1 := by decide

/-- The words of R125, 0x20 to 0x2F, composed field by field from the encoding table. -/
def words_integer_1 : List (Word × Instr) := [
  (0x20848500A32F8123, .add o1 ⟨.w, true, false, 0x8123⟩),
  (0x210A8500A32F8124, .sub o1 ⟨.h, false, true, 0x8124⟩),
  (0x228C8500A32F8125, .mul o1 ⟨.b, true, false, 0x8125⟩),
  (0x23168500A32F8126, .mulh o1 ⟨.w, false, true, 0x8126⟩ true),
  (0x24288500A32F8127, .div o1 ⟨.h, false, false, 0x8127⟩ false true),
  (0x251E8500A32F8128, .rem o1 ⟨.b, false, true, 0x8128⟩ true false),
  (0x26048500A32F8129, .and o1 ⟨.w, false, false, 0x8129⟩),
  (0x270A8500A32F812A, .or o1 ⟨.h, false, true, 0x812A⟩)]

theorem test_decode_integer_1 :
    ∀ p ∈ words_integer_1, decode p.1 = .ok p.2 ∧ encode p.2 = p.1 := by decide

/-- More words of R125, 0x20 to 0x2F. -/
def words_integer_2 : List (Word × Instr) := [
  (0x280C8500A32F812B, .xor o1 ⟨.b, false, false, 0x812B⟩),
  (0x29068500A32F812C, .andn o1 ⟨.w, false, true, 0x812C⟩),
  (0x2A888500A32F812D, .shl o1 ⟨.h, true, false, 0x812D⟩),
  (0x2B0E8500A32F812E, .shr o1 ⟨.b, false, true, 0x812E⟩),
  (0x2C848500A32F812F, .sar o1 ⟨.w, true, false, 0x812F⟩),
  (0x2D0A8500A32F8130, .rol o1 ⟨.h, false, true, 0x8130⟩),
  (0x2E9C8500A32F8131, .min o1 ⟨.b, true, false, 0x8131⟩ true),
  (0x2F168500A32F8132, .max o1 ⟨.w, false, true, 0x8132⟩ true)]

theorem test_decode_integer_2 :
    ∀ p ∈ words_integer_2, decode p.1 = .ok p.2 ∧ encode p.2 = p.1 := by decide

/-- More words of R125, 0x20 to 0x2F. -/
def words_integer_3 : List (Word × Instr) := [
  (0x2003E20000000005, .add o2 ⟨.d, false, true, 5⟩)]

theorem test_decode_integer_3 :
    ∀ p ∈ words_integer_3, decode p.1 = .ok p.2 ∧ encode p.2 = p.1 := by decide

/-- The words of R125, 0x30 to 0x3F, composed field by field from the encoding table. -/
def words_address_1 : List (Word × Instr) := [
  (0x30048500A32F0000, .abs o1 ⟨.w, false, 0⟩),
  (0x31888500A32F0001, .neg o1 ⟨.h, true, 1⟩),
  (0x320C8500A32F0002, .clz o1 ⟨.b, false, 2⟩),
  (0x33848500A32F0003, .popc o1 ⟨.w, true, 3⟩),
  (0x34088500A32F0004, .brev o1 ⟨.h, false, 4⟩),
  (0x35EA8500A32F0009, .cmp o1 ⟨.h, true, true, 9⟩ .ltu),
  (0x3521E20000000000, .cmp o2 ⟨.d, false, false, 0⟩ .lt),
  (0x361E8500A32F0080, .test o1 ⟨.b, false, true, 0x80⟩ true)]

theorem test_decode_address_1 :
    ∀ p ∈ words_address_1, decode p.1 = .ok p.2 ∧ encode p.2 = p.1 := by decide

/-- More words of R125, 0x30 to 0x3F. -/
def words_address_2 : List (Word × Instr) := [
  (0x37988500A32F0020, .adds o1 ⟨.h, true, false, 0x20⟩ true),
  (0x38068500A32F0003, .subs o1 ⟨.w, false, true, 3⟩ false),
  (0x39048500A32F0005, .lea o1 .w 5),
  (0x3A01E2000000000F, .base o2 15),
  (0x3B088500A32FFFFE, .shape o1 .h 0xFFFE),
  (0x3C008500A32F1276, .extr o1 54 9 true),
  (0x3D008500A32F0FC0, .ins o1 0 63),
  (0x3E088500A32F0000, .pack o1 ⟨.h, 0⟩)]

theorem test_decode_address_2 :
    ∀ p ∈ words_address_2, decode p.1 = .ok p.2 ∧ encode p.2 = p.1 := by decide

/-- More words of R125, 0x30 to 0x3F. -/
def words_address_3 : List (Word × Instr) := [
  (0x3F0C8500A32F000E, .unpk o1 .b 6 true)]

theorem test_decode_address_3 :
    ∀ p ∈ words_address_3, decode p.1 = .ok p.2 ∧ encode p.2 = p.1 := by decide

/-- The words of R137, composed field by field from the encoding table. -/
def words_float_1 : List (Word × Instr) := [
  (0x40248500A32F0000, .fadd o1 ⟨.s, false, (.fixed .rdn), 0⟩),
  (0x41C48500A32F0001, .fsub o1 ⟨.s, true, .dyn, 1⟩),
  (0x42348500A32F0002, .fmul o1 ⟨.s, false, (.fixed .rup), 2⟩),
  (0x431C8500A32F0005, .fma o1 .bf false (.fixed .rtz) 5),
  (0x44408500A32F0000, .fdiv o1 .d .dyn 0),
  (0x4539E20000000001, .fsqrt o2 .h (.fixed .rup) 1),
  (0x46848500A32F0000, .fmin o1 .s true 0),
  (0x470C8500A32F0000, .fmax o1 .bf false 0)]

theorem test_decode_float_1 :
    ∀ p ∈ words_float_1, decode p.1 = .ok p.2 ∧ encode p.2 = p.1 := by decide

/-- More words of R137. -/
def words_float_2 : List (Word × Instr) := [
  (0x48D48500A32F0000, .fcmp o1 .s true .ge 0),
  (0x49008500A32F0003, .fsgn o1 .d false 3),
  (0x4AA08500A32F090C, .fcvt o1 (.fixed .rdn) true 0x0C 0x09),
  (0x4B148500A32F0007, .ftoi o1 .s (.fixed .rtz) 7),
  (0x4C008500A32F0001, .itof o1 .d (.fixed .rne) 1),
  (0x4D008500A32F0000, .fexp2 o1 .d (.fixed .rne) 0),
  (0x4E148500A32F0000, .flog2 o1 .s (.fixed .rtz) 0),
  (0x4F288500A32F0000, .frcp o1 .h (.fixed .rdn) 0)]

theorem test_decode_float_2 :
    ∀ p ∈ words_float_2, decode p.1 = .ok p.2 ∧ encode p.2 = p.1 := by decide

/-- More words of R137. -/
def words_float_3 : List (Word × Instr) := [
  (0x503C8500A32F0000, .frsq o1 .bf (.fixed .rup) 0),
  (0x51408500A32F0000, .fsinp o1 .d .dyn 0),
  (0x52048500A32F0000, .fcosp o1 .s (.fixed .rne) 0),
  (0x53088500A32F0000, .fclass o1 .h 0)]

theorem test_decode_float_3 :
    ∀ p ∈ words_float_3, decode p.1 = .ok p.2 ∧ encode p.2 = p.1 := by decide

/-- The words of R74 and R147, composed field by field from the encoding table. -/
def words_memory_1 : List (Word × Instr) := [
  (0x60048500A32FFC00, .ld o1 .w ⟨31, 0x400, none⟩),
  (0x61A88500A32F1802, .st o1 .h ⟨3, 2, some .die⟩),
  (0x62C08500A32F0800, .ldv o1 .d ⟨1, 0, some .sys⟩),
  (0x630C8500A32F17FF, .stv o1 .b ⟨2, 0x7FF, none⟩),
  (0x64008500A32F2005, .vers o1 ⟨4, 5, none⟩),
  (0x65808500A32F2005, .vset o1 ⟨4, 5, some .act⟩),
  (0x66908500A32F3001, .ldd o1 ⟨6, 1, some .clu⟩),
  (0x67008500A32F3001, .std o1 ⟨6, 1, none⟩)]

theorem test_decode_memory_1 :
    ∀ p ∈ words_memory_1, decode p.1 = .ok p.2 ∧ encode p.2 = p.1 := by decide

/-- More words of R74 and R147. -/
def words_memory_2 : List (Word × Instr) := [
  (0x68008500A32F3BFF, .pref o1 7 1023),
  (0x69B48500A32F4800, .fence o1 .acq .dev true 9),
  (0x6919E20000004800, .fence o2 .rel .clu false 9)]

theorem test_decode_memory_2 :
    ∀ p ∈ words_memory_2, decode p.1 = .ok p.2 ∧ encode p.2 = p.1 := by decide

/-- The words of R74, R153 and R154, composed field by field from the encoding table. -/
def words_atomics_1 : List (Word × Instr) := [
  (0x78808500A32F0000, .aadd o1 .d ⟨0, 0x0, some .act⟩),
  (0x79048500A32F0FFF, .aand o1 .w ⟨1, 0x7FF, none⟩),
  (0x7A008500A32F17FE, .aor o1 .d ⟨2, 0x7FE, none⟩),
  (0x7BB48500A32F1FFD, .axor o1 .w ⟨3, 0x7FD, some .dev⟩),
  (0x7C008500A32F27FC, .amin o1 .d ⟨4, 0x7FC, none⟩),
  (0x7D048500A32F2FFB, .amax o1 .w ⟨5, 0x7FB, none⟩),
  (0x7E908500A32F37FA, .aswap o1 .d ⟨6, 0x7FA, some .clu⟩),
  (0x7FC48500A32F8C0E, .acas o1 .w 17 0x81 6 (some .sys))]

theorem test_decode_atomics_1 :
    ∀ p ∈ words_atomics_1, decode p.1 = .ok p.2 ∧ encode p.2 = p.1 := by decide

/-- More words of R74, R153 and R154. -/
def words_atomics_2 : List (Word × Instr) := [
  (0x80008500A32F4000, .afadd o1 .d ⟨8, 0, none⟩),
  (0x81048500A32F4001, .xinit o1 .w ⟨8, 1, none⟩),
  (0x82008500A32F4002, .xacc o1 .d ⟨8, 2, none⟩),
  (0x83048500A32F4003, .xread o1 .w ⟨8, 3, none⟩),
  (0x84048500A32F4004, .aincw o1 .w ⟨8, 4, none⟩),
  (0x850C8500A32F4005, .aser o1 .b ⟨8, 5, none⟩)]

theorem test_decode_atomics_2 :
    ∀ p ∈ words_atomics_2, decode p.1 = .ok p.2 ∧ encode p.2 = p.1 := by decide

/-- The words of R78, R155 to R160, R199 to R203, composed field by field from the encoding table. -/
def words_tasks_and_strands_1 : List (Word × Instr) := [
  (0x88008500A32F0000, .cycle o1 0),
  (0x8901E20000004321, .waitt o2 0x4321),
  (0x8AA08500A32F5002, .bar o1 ⟨10, 2, some .die⟩),
  (0x8BA08500A32F5003, .post o1 ⟨10, 3, some .die⟩),
  (0x8CA08500A32F5000, .signal o1 ⟨10, 0, some .die⟩),
  (0x8DA08500A32F5001, .arm o1 ⟨10, 1, some .die⟩),
  (0x8EB08500A32F5800, .cancel o1 11 (some .dev)),
  (0x8F008500A32F6000, .doneq o1 12 none)]

theorem test_decode_tasks_and_strands_1 :
    ∀ p ∈ words_tasks_and_strands_1, decode p.1 = .ok p.2 ∧ encode p.2 = p.1 := by decide

/-- More words of R78, R155 to R160, R199 to R203. -/
def words_tasks_and_strands_2 : List (Word × Instr) := [
  (0x900085000000007F, .own (c1 63)),
  (0x9000850000000018, .ownToLace (c1 24)),
  (0x91008500A32F00FF, .permit o1 255),
  (0x9201E20000000001, .take o2 1),
  (0x98008500A32F7EC8, .strset o1 200 14 7),
  (0x99008500A32F0B09, .strocc o1 9 11 0),
  (0x9A008500A32F004D, .strclose o1 77),
  (0x9B00850000000B53, .seamin (c1 19) 5 true .e16)]

theorem test_decode_tasks_and_strands_2 :
    ∀ p ∈ words_tasks_and_strands_2, decode p.1 = .ok p.2 ∧ encode p.2 = p.1 := by decide

/-- More words of R78, R155 to R160, R199 to R203. -/
def words_tasks_and_strands_3 : List (Word × Instr) := [
  (0x9C0085000000042C, .seamout (c1 44) false .e32)]

theorem test_decode_tasks_and_strands_3 :
    ∀ p ∈ words_tasks_and_strands_3, decode p.1 = .ok p.2 ∧ encode p.2 = p.1 := by decide

/-- The words of R171, composed field by field from the encoding table. -/
def words_frames_1 : List (Word × Instr) := [
  (0xA000850000000041, .mzero (c1 1) true),
  (0xA000850000000086, .mzeroAuto (c1 6) false),
  (0xA100850000000010, .mldb (c1 16)),
  (0xA200850000000057, .mldc (c1 23) true),
  (0xA3018500A32F0028, .mma (c2 40) false),
  (0xA40085000000006F, .mmas (c1 47) true),
  (0xA500850000000039, .mmax3 (c1 57) false),
  (0xA6008500000059FE, .mout (c1 62) true .rup 0x0C true)]

theorem test_decode_frames_1 :
    ∀ p ∈ words_frames_1, decode p.1 = .ok p.2 ∧ encode p.2 = p.1 := by decide

/-- More words of R171. -/
def words_frames_2 : List (Word × Instr) := [
  (0xA6008500000002BE, .mout (c1 62) false .rtz 1 false),
  (0xA700850000000081, .mrow (c1 1) 2),
  (0xA7008500000000C1, .mrowReadProgress (c1 1)),
  (0xA800850000000001, .mscale (c1 1)),
  (0xA900850000000001, .mbmap (c1 1))]

theorem test_decode_frames_2 :
    ∀ p ∈ words_frames_2, decode p.1 = .ok p.2 ∧ encode p.2 = p.1 := by decide

/-- The words of R180 and R184, composed field by field from the encoding table. -/
def words_vectors_and_converters_1 : List (Word × Instr) := [
  (0xB004850000000B73, .vmap (c1 51) ⟨.s, .rtz, 11, 0⟩),
  (0xB1008500000043B3, .vfma (c1 51) ⟨.d, .rdn, 3, 1⟩),
  (0xB208850000000533, .vred (c1 51) ⟨.h, .rne, 5, 0⟩),
  (0xB30C8500000001F3, .vscan (c1 51) ⟨.bf, .rup, 1, 0⟩),
  (0xB404850000000073, .vsoft (c1 51) ⟨.s, .rtz, 0, 0⟩),
  (0xB504850000000133, .vnorm (c1 51) ⟨.s, .rne, 1, 0⟩),
  (0xB704850000008533, .vcmp (c1 51) ⟨.s, .rne, 5, 2⟩),
  (0xB808850000004033, .vsel (c1 51) ⟨.h, .rne, 0, 1⟩)]

theorem test_decode_vectors_and_converters_1 :
    ∀ p ∈ words_vectors_and_converters_1, decode p.1 = .ok p.2 ∧ encode p.2 = p.1 := by decide

/-- More words of R180 and R184. -/
def words_vectors_and_converters_2 : List (Word × Instr) := [
  (0xB9008500000080B3, .vrope (c1 51) ⟨.d, .rdn, 0, 2⟩),
  (0xB600850000002CAB, .cvt (c1 43) .rdn 0x0C true)]

theorem test_decode_vectors_and_converters_2 :
    ∀ p ∈ words_vectors_and_converters_2, decode p.1 = .ok p.2 ∧ encode p.2 = p.1 := by decide

/-- The words of R186, composed field by field from the encoding table. -/
def words_tiles_1 : List (Word × Instr) := [
  (0xBC0085000000025F, .tshape (c1 31) ⟨1, 2, 0⟩),
  (0xBD008500000008DF, .tread (c1 31) ⟨3, 0, 2⟩),
  (0xBE0085000000071F, .twrite (c1 31) ⟨0, 3, 1⟩),
  (0xBF00850000000D9F, .tcomp (c1 31) ⟨2, 1, 3⟩),
  (0xC00085000000295F, .texp (c1 31) ⟨1, 1, 2⟩ .int16),
  (0xC1008500000002DF, .trot (c1 31) ⟨3, 2, 0⟩),
  (0xC200850000000D1F, .twin (c1 31) ⟨0, 1, 3⟩),
  (0xC30085000000009F, .tzmap (c1 31) ⟨2, 0, 0⟩)]

theorem test_decode_tiles_1 :
    ∀ p ∈ words_tiles_1, decode p.1 = .ok p.2 ∧ encode p.2 = p.1 := by decide

/-- More words of R186. -/
def words_tiles_2 : List (Word × Instr) := [
  (0xC40085000000175F, .tsacc (c1 31) ⟨1, 3, 1⟩ .bf16),
  (0xC500850000000A1F, .trep (c1 31) ⟨0, 2, 2⟩),
  (0xC6008500000043DF, .trmw (c1 31) ⟨3, 3, 0⟩ .swap),
  (0xC70085000000019F, .tfill (c1 31) ⟨2, 1, 0⟩)]

theorem test_decode_tiles_2 :
    ∀ p ∈ words_tiles_2, decode p.1 = .ok p.2 ∧ encode p.2 = p.1 := by decide

/-- The words of R194, composed field by field from the encoding table. -/
def words_lighters : List (Word × Instr) := [
  (0xCC00850000001B62, .cpy (c1 34) ⟨5, 2, 1⟩ true),
  (0xCC00850000007422, .cpySetLpitch (c1 34) ⟨0, 1, 3⟩ false),
  (0xCC00850000008022, .cpySetLtask (c1 34) ⟨0, 0, 0⟩ false),
  (0xCD00850000000DE2, .cpyg (c1 34) ⟨7, 3, 0⟩),
  (0xCE00850000002262, .cpys (c1 34) ⟨1, 0, 2⟩),
  (0xCF008500000014A2, .cpy2d (c1 34) ⟨2, 1, 1⟩ false),
  (0xD000850000000022, .cpyq (c1 34))]

theorem test_decode_lighters :
    ∀ p ∈ words_lighters, decode p.1 = .ok p.2 ∧ encode p.2 = p.1 := by decide

/-- The words of R206, composed field by field from the encoding table. -/
def words_projection_1 : List (Word × Instr) := [
  (0xD20085000000019A, .camld (c1 26) 6),
  (0xD300850000002CDA, .camset (c1 26) 3 22),
  (0xD3008500000042E5, .camsetRead (c1 37) 3 1),
  (0xD40085000000589A, .camcomp (c1 26) 2 4 5),
  (0xD500850000000E5A, .pgather (c1 26) 1 7),
  (0xD60085000000051A, .pray (c1 26) 4 2),
  (0xD70085000000055A, .pscat (c1 26) 5 false true),
  (0xD80085000000001A, .pstore (c1 26))]

theorem test_decode_projection_1 :
    ∀ p ∈ words_projection_1, decode p.1 = .ok p.2 ∧ encode p.2 = p.1 := by decide

/-- More words of R206. -/
def words_projection_2 : List (Word × Instr) := [
  (0xD90085000000015A, .pstat (c1 26) 5),
  (0xDA00850000000025, .pclear (c1 37)),
  (0xDB0085000000001A, .pprior (c1 26))]

theorem test_decode_projection_2 :
    ∀ p ∈ words_projection_2, decode p.1 = .ok p.2 ∧ encode p.2 = p.1 := by decide

/-- The words of R217, R227 and R228, composed field by field from the encoding table. -/
def words_sampler_and_seams_1 : List (Word × Instr) := [
  (0xE00085000000001D, .topk (c1 29)),
  (0xE10085000000001D, .sample (c1 29)),
  (0xE10085000000005D, .sampleSetStemp (c1 29)),
  (0xE10085000000009D, .sampleSetStopp (c1 29)),
  (0xE20085000000001D, .accept (c1 29)),
  (0xE30085000000001D, .resid (c1 29)),
  (0xE40085000000001D, .draw (c1 29)),
  (0xE5B08500A32FA000, .kvcommit o1 20 .dev)]

theorem test_decode_sampler_and_seams_1 :
    ∀ p ∈ words_sampler_and_seams_1, decode p.1 = .ok p.2 ∧ encode p.2 = p.1 := by decide

/-- More words of R217, R227 and R228. -/
def words_sampler_and_seams_2 : List (Word × Instr) := [
  (0xE6988500A32FAFFE, .ldk o1 .h 21 0x7FE .clu),
  (0xE70085000000001D, .treemask (c1 29)),
  (0xE80085000000001D, .drawtab (c1 29)),
  (0xEB00850000000013, .isect (c1 19)),
  (0xEC0085000000002C, .union (c1 44)),
  (0xED00850000000013, .seampol (c1 19)),
  (0xEE018500A32F002C, .cmpr (c2 44))]

theorem test_decode_sampler_and_seams_2 :
    ∀ p ∈ words_sampler_and_seams_2, decode p.1 = .ok p.2 ∧ encode p.2 = p.1 := by decide

/-- The words of R161 to R165, composed field by field from the encoding table. -/
def words_system_1 : List (Word × Instr) := [
  (0xF0008500A32FBEEF, .trap o1 0xBEEF),
  (0xF1008500A32F0018, .rds o1 0x018),
  (0xF201E20000000040, .wrs o2 0x040),
  (0xF3008500A32F0000, .flags o1 0),
  (0xF4008500A32FDE90, .site o1 (.site .pred 30 9 0)),
  (0xF5008500A32F0007, .perf o1 7),
  (0xF601E20000004321, .brk o2 0x4321),
  (0xF8008500A32F0000, .tret o1 0)]

theorem test_decode_system_1 :
    ∀ p ∈ words_system_1, decode p.1 = .ok p.2 ∧ encode p.2 = p.1 := by decide

/-- More words of R161 to R165. -/
def words_system_2 : List (Word × Instr) := [
  (0xF9008500A32F0000, .tskip o1 0),
  (0xFA008500A32F0011, .assert o1 17)]

theorem test_decode_system_2 :
    ∀ p ∈ words_system_2, decode p.1 = .ok p.2 ∧ encode p.2 = p.1 := by decide

/-- Words of opcodes 0x00 to 0x1F and the unassigned opcodes (R66, R70, R79, R103)
with the status that refuses each. -/
def badWords_1 : List (Word × DecodeError) := [
  (0x18008500A32F0000, .opcode), (0x54008500A32F0000, .opcode), (0x6A008500A32F0000, .opcode),
  (0x86008500A32F0000, .opcode), (0x93008500A32F0000, .opcode), (0x9D008500A32F0000, .opcode),
  (0xAA008500A32F0000, .opcode), (0xBA008500A32F0000, .opcode), (0xC8008500A32F0000, .opcode),
  (0xD1008500A32F0000, .opcode), (0xDC008500A32F0000, .opcode), (0xE9008500A32F0000, .opcode),
  (0xEF008500A32F0000, .opcode), (0xF7008500A32F0000, .opcode), (0xFB008500A32F0000, .opcode),
  (0x0000000000000001, .field), (0xFF00850000000000, .field), (0x01108500A32F0000, .modifier),
  (0x01048500A32F0000, .modifier), (0x01028500A32F0000, .field), (0x02008500A32F0001, .target),
  (0x02008500A32FE201, .target), (0x02008500A32FE800, .target), (0x02028500A32FE201, .field), (0x1000850000000000, .field), (0x14008500A32F0000, .field),
  (0x14008500A32F0008, .field), (0x16008500A32F0400, .field), (0x01000001A32F0000, .target),
  (0x01008500E9000000, .target), (0x01008500E0010000, .target)]

theorem test_decode_refuses_1 :
    ∀ p ∈ badWords_1, decode p.1 = .error p.2 := by decide

/-- Words of the integer and float groups (R72, R73, R125, R137)
with the status that refuses each. -/
def badWords_2 : List (Word × DecodeError) := [
  (0x20808500A32F0000, .modifier), (0x24448500A32F0000, .modifier), (0x26848500A32F0000, .modifier),
  (0x2E248500A32F0000, .modifier), (0x30028500A32F0000, .field), (0x36208500A32F0000, .modifier),
  (0x39008500A32F0008, .field), (0x3A008500A32F0010, .field), (0x3A048500A32F0000, .modifier),
  (0x3C008500A32F0FC1, .field), (0x3C008500A32F2000, .field), (0x3D008500A32F1000, .field),
  (0x3E008500A32F0000, .modifier), (0x3F088500A32F0003, .field), (0x3F08850000000004, .field),
  (0x40808500A32F0000, .modifier), (0x40548500A32F0000, .modifier), (0x43008500A32F0008, .field),
  (0x48648500A32F0000, .modifier), (0x49008500A32F0004, .field), (0x4A008500A32F0E09, .field),
  (0x4A808500A32F090D, .modifier), (0x4B048500A32F0008, .field), (0x53848500A32F0000, .modifier)]

theorem test_decode_refuses_2 :
    ∀ p ∈ badWords_2, decode p.1 = .error p.2 := by decide

/-- Words of the memory, strand and system groups (R74, R78, R147, R153, R157, R161, R162, R199, R227)
with the status that refuses each. -/
def badWords_3 : List (Word × DecodeError) := [
  (0x60108500A32F0000, .modifier), (0x60D08500A32F0000, .modifier), (0x63008500A32F0000, .modifier),
  (0x68808500A32F0000, .modifier), (0x690C8500A32F0000, .modifier), (0x69008500A32F0001, .field),
  (0x69508500A32F0000, .modifier), (0x78088500A32F0000, .modifier), (0x840C8500A32F0000, .modifier),
  (0x8E008500A32F0001, .field), (0xE5008500A32F0000, .modifier), (0xE5808500A32F0001, .field),
  (0x91008500A32F0100, .strand), (0x98008500A32F0600, .strand), (0x98008500A32F8000, .strand),
  (0x99008500A32F0F00, .strand), (0x99008500A32F1100, .strand), (0xF1008500A32F0007, .register),
  (0xF1008500A32F1000, .field), (0xF2008500A32F0000, .register), (0xF4008500A32FE000, .target),
  (0xF5008500A32F0008, .field)]

theorem test_decode_refuses_3 :
    ∀ p ∈ badWords_3, decode p.1 = .error p.2 := by decide

/-- Words of the engine commands (R77, R159, R171, R180, R184, R186, R194, R202, R203, R206, R217, R228)
with the status that refuses each. -/
def badWords_4 : List (Word × DecodeError) := [
  (0x9000850000000087, .field), (0x9000850000000001, .engine), (0xA000850000000101, .field),
  (0xA300850000000007, .engine), (0xA300E20000000001, .target), (0xA600850000000401, .field),
  (0xA600850000005201, .field), (0xB004850000000C0B, .field), (0xB00485000000C00B, .field),
  (0xB00485000000100B, .field), (0xB600850000000414, .field), (0xBC00850000000407, .field),
  (0xC000850000003007, .field), (0xC600850000005007, .field), (0xCC0085000000C022, .field),
  (0xCD00850000000222, .field), (0xCE00850000000022, .field), (0xD000850000000062, .field),
  (0xD300850000002E1A, .field), (0xD90085000000019A, .field), (0xE1008500000000DD, .field),
  (0xED00850000000014, .engine), (0x9B00850000000C13, .field), (0x9C00850000000053, .field)]

theorem test_decode_refuses_4 :
    ∀ p ∈ badWords_4, decode p.1 = .error p.2 := by decide

/-- Sequencing words of R339. -/
def seqWords : List (Word × Instr) := [
  (0x0000000000000000, .seqEnd),
  (0x102A000000000000, .seqRun 42),
  (0x20FF000000000000, .seqWait 255),
  (0x3000000000000000, .seqPhase),
  (0x4100010200000000, .seqBranch .cancelled 0x0102),
  (0x4200000300000000, .seqBranch .normal 3),
  (0x4000000000000000, .seqBranch .always 0),
  (0x50000009FFFFFFFF, .seqLoop 0xFFFFFFFF 9)]

theorem test_decodeSeq :
    ∀ p ∈ seqWords, decodeSeq p.1 = .ok p.2 ∧ encodeSeq p.2 = p.1 := by decide

/-- Sequencing words that R339 refuses. -/
def badSeqWords : List (Word × DecodeError) := [
  (0x0000000000000001, .seq), (0x1000000000000001, .seq), (0x3001000000000000, .seq),
  (0x4300000000000000, .seq), (0x4000000000000001, .seq), (0x5000000000000000, .seq),
  (0x5001000000000001, .seq), (0x6000000000000000, .seq), (0xF000000000000000, .seq)]

theorem test_decodeSeq_refuses :
    ∀ p ∈ badSeqWords, decodeSeq p.1 = .error p.2 := by decide

/-! ## Well-formedness -/

/-- Ill-formed terms: the integer and address checks. -/
def illFormed_1 : List Instr := [
  .stopt o1 0, .add o1 ⟨.d, true, false, 0⟩, .sub o1 ⟨.d, true, false, 0⟩,
  .mul o1 ⟨.d, true, false, 0⟩, .shl o1 ⟨.d, true, false, 0⟩, .shr o1 ⟨.d, true, false, 0⟩,
  .sar o1 ⟨.d, true, false, 0⟩, .rol o1 ⟨.d, true, false, 0⟩,
  .mulh o1 ⟨.d, true, false, 0⟩ false, .min o1 ⟨.d, true, false, 0⟩ false,
  .max o1 ⟨.d, true, false, 0⟩ false, .adds o1 ⟨.d, true, false, 0⟩ false,
  .subs o1 ⟨.d, true, false, 0⟩ false, .cmp o1 ⟨.d, true, false, 0⟩ .eq,
  .div o1 ⟨.w, true, false, 0⟩ false false, .rem o1 ⟨.w, true, false, 0⟩ false false,
  .and o1 ⟨.h, true, false, 0⟩, .or o1 ⟨.h, true, false, 0⟩, .xor o1 ⟨.h, true, false, 0⟩,
  .andn o1 ⟨.h, true, false, 0⟩, .test o1 ⟨.w, true, false, 0⟩ false, .abs o1 ⟨.d, true, 0⟩,
  .neg o1 ⟨.d, true, 0⟩, .clz o1 ⟨.d, true, 0⟩]

theorem test_wf_refuses_1 : ∀ x ∈ illFormed_1, x.wf = false := by decide

/-- Ill-formed terms: the integer and address checks. -/
def illFormed_2 : List Instr := [
  .popc o1 ⟨.d, true, 0⟩, .brev o1 ⟨.d, true, 0⟩, .extr o1 1 63 false, .ins o1 60 4, .pack o1 ⟨.d, 0⟩,
  .unpk o1 .d 0 false, .unpk o1 .h 3 false]

theorem test_wf_refuses_2 : ∀ x ∈ illFormed_2, x.wf = false := by decide

/-- Ill-formed terms: the float, memory, strand and system checks. -/
def illFormed_3 : List Instr := [
  .fadd o1 ⟨.d, true, .dyn, 0⟩, .fsub o1 ⟨.d, true, .dyn, 0⟩, .fmul o1 ⟨.d, true, .dyn, 0⟩,
  .fma o1 .h true .dyn 0, .fmin o1 .d true 0, .fmax o1 .bf true 0, .fsgn o1 .h true 0,
  .fcmp o1 .d true .eq 0, .fcmp o1 .s false .ltu 0, .fcmp o1 .s false .leu 0,
  .fcvt o1 .dyn false 0x0E 0x09, .fcvt o1 .dyn false 0x09 0x03, .fcvt o1 .dyn true 0x0D 0x09,
  .ftoi o1 .s .dyn 0, .itof o1 .s .dyn 8, .stv o1 .d m0, .aadd o1 .b m0, .aand o1 .b m0,
  .aor o1 .h m0, .axor o1 .b m0, .amin o1 .b m0, .amax o1 .b m0, .aswap o1 .h m0, .afadd o1 .h m0]

theorem test_wf_refuses_3 : ∀ x ∈ illFormed_3, x.wf = false := by decide

/-- Ill-formed terms: the float, memory, strand and system checks. -/
def illFormed_4 : List Instr := [
  .xinit o1 .h m0, .xacc o1 .b m0, .xread o1 .h m0, .aincw o1 .h m0, .acas o1 .h 0 0 0 none,
  .strset o1 0 15 0, .strset o1 0 6 0, .strset o1 0 12 0, .strset o1 0 1 1, .strocc o1 0 15 0,
  .strocc o1 0 13 1, .rds o1 0x007, .wrs o1 0x000, .wrs o1 0x019, .site o1 (.hold 3),
  .seqLoop 0 1]

theorem test_wf_refuses_4 : ∀ x ∈ illFormed_4, x.wf = false := by decide

/-- Ill-formed terms: an engine command at a lace site. -/
def illFormed_5 : List Instr := [
  .own (c1 2), .ownToLace (c1 2), .mldb (c1 2), .mrowReadProgress (c1 2), .mscale (c1 2),
  .mbmap (c1 2), .cpyq (c1 2), .pstore (c1 2), .pclear (c1 2), .pprior (c1 2), .topk (c1 2),
  .sample (c1 2), .sampleSetStemp (c1 2), .sampleSetStopp (c1 2), .accept (c1 2), .resid (c1 2),
  .draw (c1 2), .treemask (c1 2), .drawtab (c1 2), .isect (c1 2), .union (c1 2), .seampol (c1 2),
  .cmpr (c1 2), .mzero (c1 2) false]

theorem test_wf_refuses_5 : ∀ x ∈ illFormed_5, x.wf = false := by decide

/-- Ill-formed terms: an engine command at a lace site. -/
def illFormed_6 : List Instr := [
  .mzeroAuto (c1 2) false, .mldc (c1 2) false, .mma (c1 2) false, .mmas (c1 2) false,
  .mmax3 (c1 2) false, .seamin (c1 2) 0 false .e64, .seamout (c1 2) false .e64, .mrow (c1 2) 0,
  .mout (c1 2) false .rne 1 false, .vmap (c1 2) ⟨.s, .rne, 0, 0⟩, .vfma (c1 2) ⟨.s, .rne, 0, 0⟩,
  .vred (c1 2) ⟨.s, .rne, 0, 0⟩, .vscan (c1 2) ⟨.s, .rne, 0, 0⟩, .vsoft (c1 2) ⟨.s, .rne, 0, 0⟩,
  .vnorm (c1 2) ⟨.s, .rne, 0, 0⟩, .vcmp (c1 2) ⟨.s, .rne, 0, 0⟩, .vsel (c1 2) ⟨.s, .rne, 0, 0⟩,
  .vrope (c1 2) ⟨.s, .rne, 0, 0⟩, .cvt (c1 2) .rne 1 false, .tshape (c1 2) ⟨0, 0, 0⟩,
  .tread (c1 2) ⟨0, 0, 0⟩, .twrite (c1 2) ⟨0, 0, 0⟩, .tcomp (c1 2) ⟨0, 0, 0⟩,
  .trot (c1 2) ⟨0, 0, 0⟩]

theorem test_wf_refuses_6 : ∀ x ∈ illFormed_6, x.wf = false := by decide

/-- Ill-formed terms: an engine command at a lace site. -/
def illFormed_7 : List Instr := [
  .twin (c1 2) ⟨0, 0, 0⟩, .tzmap (c1 2) ⟨0, 0, 0⟩, .trep (c1 2) ⟨0, 0, 0⟩,
  .tfill (c1 2) ⟨0, 0, 0⟩, .cpyg (c1 2) ⟨0, 0, 0⟩, .cpys (c1 2) ⟨0, 0, 0⟩,
  .texp (c1 2) ⟨0, 0, 0⟩ .fp16, .tsacc (c1 2) ⟨0, 0, 0⟩ .fp16, .trmw (c1 2) ⟨0, 0, 0⟩ .add,
  .cpy (c1 2) ⟨0, 0, 0⟩ false, .cpySetLpitch (c1 2) ⟨0, 0, 0⟩ false,
  .cpySetLtask (c1 2) ⟨0, 0, 0⟩ false, .cpy2d (c1 2) ⟨0, 0, 0⟩ false, .camld (c1 2) 0,
  .camset (c1 2) 0 0, .camsetRead (c1 2) 0 0, .camcomp (c1 2) 0 0 0, .pgather (c1 2) 0 0,
  .pray (c1 2) 0 0, .pscat (c1 2) 0 false false, .pstat (c1 2) 0]

theorem test_wf_refuses_7 : ∀ x ∈ illFormed_7, x.wf = false := by decide

/-- Ill-formed terms: the fields of engine commands. -/
def illFormed_8 : List Instr := [
  .own ⟨some (.hold 0), none, false, 0⟩, .mldb ⟨none, some (.hold 7), false, 1⟩, .mrow (c1 1) 3,
  .mout (c1 1) false .rne 2 false, .mout (c1 1) false .rne 9 true,
  .vmap (c1 11) ⟨.s, .rne, 12, 0⟩, .vfma (c1 11) ⟨.s, .rne, 4, 0⟩,
  .vred (c1 11) ⟨.s, .rne, 6, 0⟩, .vscan (c1 11) ⟨.s, .rne, 2, 0⟩,
  .vsoft (c1 11) ⟨.s, .rne, 1, 0⟩, .vnorm (c1 11) ⟨.s, .rne, 2, 0⟩,
  .vcmp (c1 11) ⟨.s, .rne, 6, 0⟩, .vsel (c1 11) ⟨.s, .rne, 1, 0⟩,
  .vrope (c1 11) ⟨.s, .rne, 1, 0⟩, .vmap (c1 11) ⟨.s, .rne, 0, 3⟩, .cvt (c1 20) .rne 4 false,
  .cvt (c1 20) .rne 9 true, .tshape (c1 7) ⟨0, 0, 1⟩, .trot (c1 7) ⟨0, 0, 1⟩,
  .tzmap (c1 7) ⟨0, 0, 1⟩, .tfill (c1 7) ⟨0, 0, 1⟩, .camset (c1 26) 0 23,
  .camsetRead (c1 26) 0 31, .pstat (c1 26) 6]

theorem test_wf_refuses_8 : ∀ x ∈ illFormed_8, x.wf = false := by decide


/-! ## States for the witnesses

A device in which context 0 is live, with one page of 64 KiB at virtual address 0 whose home is
0x40000, tables in the stack of die 0 (R366, R367), and one launch. -/

/-- Three levels of table at 0x10000, 0x20000 and 0x30000, and one page that may be read and
written. -/
def tables : List Host.Cell :=
  [(0x10000, 3), (0x10002, 2), (0x20000, 3), (0x20002, 3), (0x30000, 0x0F), (0x30002, 4)]

def ctx0 : Ctx := { Ctx.reset with
  ptroot := 0x10000
  twbase := 0x10000000000
  state := .live }

/-- The device with one launch and an agent in focus. -/
def base (x : Run) (fo : Focus) : State := { State.reset with
  focus := fo
  runs := [(0, x)]
  ctxs := State.reset.ctxs.put 0 ctx0
  mem := tables
  tlb := [⟨0, 0, 0, 65536, 0x40000, true, true⟩]
  life := { Life.reset with devid := 0, hmReady := true } }

/-- A firing of slot 0 at site 2 with two data operands. -/
def fx (l r : Word) : Firing :=
  { firingOfWord with l := some (Tok.data l), r := some (Tok.data r) }

/-- The launch of one element whose slot 0 holds ILL. -/
def r0 : Run := Run.withWord 0

def e0 : Elem := Elem.withWord 0

def sx (l r : Word) : State := base r0 (.firing (fx l r))

theorem stands (l r : Word) : Stands (sx l r) (fx l r) r0 e0 := ⟨rfl, rfl⟩

theorem focus (l r : Word) : (sx l r).focus = .firing (fx l r) := rfl

theorem test_base_mem : Memory.wf (base r0 .idle).mem = true := by decide

/-! ## Witnesses for the statements about firings -/

theorem witness_ArithmeticShiftsAndProductsEmitTheirLaneResults :
    (sx 7 3).focus = .firing (fx 7 3) := rfl

theorem witness_UnaryIntegerWordsEmitTheirLaneResults :
    (sx 7 3).focus = .firing (fx 7 3) := rfl

def bf : IntForm := ⟨.b, false, false, 0⟩

def bp : IntForm := ⟨.b, true, false, 0⟩

/-- Both outcomes of a comparison, packed and not, and both of a test. -/
theorem witness_ComparesAndTestsGiveTruthWords :
    (sx 0xFF 1).focus = .firing (fx 0xFF 1) ∧
    Holds .lt (lane 8 0 0xFF) (rightLane ⟨.b, false, false, 0⟩ 1 0) ∧
    ¬ Holds .ltu (lane 8 0 0xFF) (rightLane ⟨.b, false, false, 0⟩ 1 0) ∧
    Holds .eq (lane bp.sz.bits 7 0xFF) (rightLane bp 1 7) ∧
    ¬ Holds .ge (lane 8 0 0xFF) (rightLane ⟨.b, true, true, 1⟩ 0 0) ∧
    lane bf.sz.bits 0 0xFF &&& rightLane bf 1 0 ≠ 0 ∧
    lane bf.sz.bits 0 0xFE &&& rightLane bf 1 0 = 0 := by
  refine ⟨rfl, ?_, ?_, ?_, ?_, ?_, ?_⟩ <;> (try simp only [Holds]) <;> decide

/-- A divisor of 1 and a divisor of 0, the second by the low byte alone. -/
theorem witness_DivisionTruncatesAndTrapsOnZero :
    (sx 0x80 1).focus = .firing (fx 0x80 1) ∧ IntForm.packed ⟨.b, false, false, 0⟩ = false ∧
    rightLane ⟨.b, false, false, 0⟩ 1 0 ≠ 0 ∧ rightLane ⟨.b, false, false, 0⟩ 0x100 0 = 0 := by
  decide

/-- 127 + 1 clamps as a signed byte and does not as an unsigned one; 0 - 1 the other way. -/
theorem witness_SaturatingSumsClampAndRaiseSat :
    (sx 127 1).focus = .firing (fx 127 1) ∧
    Clamps false false (lane 8 0 127) (rightLane ⟨.b, true, false, 0⟩ 1 0) ∧
    ¬ Clamps false true (lane 8 0 127) (rightLane ⟨.b, true, false, 0⟩ 1 0) ∧
    ¬ Clamps true false (lane 8 0 0) (rightLane ⟨.b, false, true, 1⟩ 0 0) ∧
    Clamps true true (lane 8 0 0) (rightLane ⟨.b, false, true, 1⟩ 0 0) := by
  unfold Clamps exactSum laneInt laneMin laneMax; decide

/-- Fields that end at bit 63, and the last lane of UNPK with and without TB. -/
theorem witness_AddressAndFieldWordsEmitTheirResults :
    (sx 7 3).focus = .firing (fx 7 3) ∧
    (54 : BitVec 6).toNat + (9 : BitVec 6).toNat + 1 ≤ 64 ∧
    (0 : BitVec 6).toNat + (63 : BitVec 6).toNat + 1 ≤ 64 ∧ Width.b ≠ .d ∧
    (6 : BitVec 3).toNat + (if o1.tb.isSome then 1 else 0) < 64 / Width.b.bits ∧
    (7 : BitVec 3).toNat + (if o2.tb.isSome then 1 else 0) < 64 / Width.b.bits := by
  decide

/-- A NULL and a data token on the left port, and the activation of an EXIT. -/
theorem witness_MovesAndConstantsEmitTheirTokens :
    (sx 7 3).focus = .firing (fx 7 3) ∧
    Firing.lt { fx 7 3 with l := some Tok.nul } = Tok.nul ∧ Tok.nul.kind = .null ∧
    (fx 7 3).lt.kind ≠ .null ∧ ((sx 7 3).elem 0 2).act 0 = some (Act.open_ 0 0 0 0) := by
  decide

/-- Right payloads 0 and 1, two operands, the tags 0 and 65535. -/
theorem witness_SteeringRoutesLeftByRight :
    (sx 7 1).focus = .firing (fx 7 1) ∧ (fx 7 1).rv ≠ 0 ∧ (fx 7 0).rv = 0 ∧
    (fx 7 1).l = some (Tok.data 7) ∧ (fx 7 1).r = some (Tok.data 1) ∧ (fx 7 1).iter < 65536 ∧
    Firing.iter { fx 7 1 with iter := 65535 } < 65536 := by
  decide

/-- A waiting colour pool: colour 1 allocated, 2 killed, 3 draining, 4 asked back; the rest free. -/
def ctxC : Ctx := { ctx0 with colours := [
  (1, { Colour.fresh with state := .allocated }), (2, { Colour.fresh with state := .killed }),
  (3, { Colour.fresh with state := .draining }),
  (4, { Colour.fresh with state := .allocated, release := true })] }

/-- A hold target, a target at another element, one at the element itself, a frozen launch, a live and a
killed colour, a hold register not yet written in the cycle, and the places of offsets at both edges of
the cluster. -/
theorem witness_EmissionReachesItsTarget :
    Stands { sx 7 3 with cycle := 1 } (fx 7 3) r0 e0 ∧ e0.holds.length = 8 ∧ e0.beforeAt ≠ 1 ∧
    e0.holds[7]? = some 0 ∧ (ctx0.colour (ctx0.resolve 0)).state ≠ .killed ∧
    (ctxC.colour (ctxC.resolve 2)).state = .killed ∧
    e0.actOf 0 0 = some (Act.open_ 0 0 0 0) ∧ r0.state ≠ .frozen ∧ targetKey 1 2 0 ≠ 1 ∧
    targetKey 1 0 0 = 1 ∧ Run.state { r0 with state := .frozen } = .frozen ∧
    ((7 : Nat) : Int) = (siteOf 1 % 8 : Nat) + (6 : BitVec 4).toInt ∧
    ((0 : Nat) : Int) = (siteOf 1 % 8 : Nat) + (15 : BitVec 4).toInt ∧
    ((0 : Nat) : Int) = (siteOf 1 / 8 : Nat) + (0 : BitVec 4).toInt := by
  refine ⟨⟨rfl, rfl⟩, ?_⟩; decide

/-- A destination in the launch, one outside it, one of port 11, this device and another. -/
theorem witness_SendInjectsOneTokenOrTraps :
    (sx 7 0xFF00000000041000).focus = .firing (fx 7 0xFF00000000041000) ∧
    (sx 7 3).destKey 0 0xFF00000000041000 = some 2 ∧
    (sx 7 3).destKey 0 0xFF00000000841000 = none ∧
    (0xFF00000000041000 : Word).extractLsb' 10 2 ≠ 3 ∧
    (0xFF00000000041C00 : Word).extractLsb' 10 2 = 3 ∧
    (sx 7 3).isOwnDevice ((0xFF00000000041000 : Word).extractLsb' 56 8).toNat = true ∧
    (sx 7 3).isOwnDevice ((0x0500000000041000 : Word).extractLsb' 56 8).toNat = false ∧
    State.routed { sx 7 3 with links := [] } ((0x0500000000041000 : Word).extractLsb' 56 8).toNat = false ∧
    (sx 7 3).ctxs.find 0 = some ctx0 := by
  decide

/-- Each state of a colour as an operand; a THROTTLE with its tag live, with room, and full. -/
theorem witness_ColoursAndThrottlesFollowTheirPoolAndWindow :
    State.ctxs { sx 1 1 with ctxs := (sx 1 1).ctxs.put 0 ctxC } = (sx 1 1).ctxs.put 0 ctxC ∧
    ((sx 1 1).ctxs.put 0 ctxC).find 0 = some ctxC ∧ r0.ctx = 0 ∧
    (∀ p ∈ [(0x401, 1), (2, 2), (3, 3), (4, 4), (1023, 1023)],
      ctxC.resolve ((BitVec.ofNat 64 p.1).extractLsb' 0 10).toNat = p.2) ∧
    (ctxC.colour 1).release = false ∧ (ctxC.colour 1).state = .allocated ∧
    (ctxC.colour 2).state = .killed ∧ (ctxC.colour 3).state = .draining ∧
    (ctxC.colour 4).release = true ∧ (ctxC.colour 1023).state = .free ∧
    (ctxC.colour 0).state = .free ∧ r0.plan.flagsWord.getLsbD 0 = false ∧
    (e0.act 0).map Act.committed = some false ∧
    (Elem.act { e0 with acts := [] } 0) = none ∧
    Elem.liveTags { e0 with live := [⟨0, 0, [0, 9]⟩] } 0 0 = [0, 9] ∧
    0 ∈ [0, 9] ∧ 5 ∉ [0, 9] ∧ [0, 9].length ≤ (2 : BitVec 10).toNat ∧
    (1 : BitVec 10).toNat < [0, 9].length := by
  decide

/-- Words with and without flags, with targets elsewhere, at the element itself and in a hold
register. -/
theorem witness_TokenWordsLeaveAllElseAlone :
    (sx 7 3).focus = .firing (fx 7 3) ∧ isTokenWord (.mov o1 0) = true ∧
    raisesFlags (.mov o1 0) = false ∧ thirdOf (.mov o1 0) = none ∧
    isTokenWord (.fadd o2 ⟨.s, false, .dyn, 0⟩) = true ∧
    raisesFlags (.fadd o2 ⟨.s, false, .dyn, 0⟩) = true ∧ thirdOf (.mov3 o1 o1.ta) ≠ none ∧
    (∃ t, exec (.mov o1 0) (sx 7 3) = .next t) ∧ (outOf (.mov o2 0)).ta = some (.hold 2) ∧
    e0.HasWays 3 ∧ ∀ p slot dx dy, (outOf (.mov o2 0)).ta ≠ some (.site p slot dx dy) := by
  refine ⟨rfl, rfl, rfl, rfl, rfl, rfl, by decide, ⟨_, rfl⟩, rfl, fun _ => ⟨show (0 : Nat) + 3 ≤ 8 by decide, rfl⟩, ?_⟩
  intro p slot dx dy h
  cases h

/-- A trigger command and one with an operand. -/
theorem witness_EngineWordsOnlySendTheirCommand :
    (sx 7 3).focus = .firing (fx 7 3) ∧ commandOf (.tread (c1 7) ⟨0, 0, 0⟩) = some (c1 7) ∧
    isTrigger (.tread (c1 7) ⟨0, 0, 0⟩) = true ∧ isTrigger (.mma (c1 1) true) = false := by
  decide

/-- A load of an address with a cached page; a device whose fault log has a page and one whose fault
log has none. -/
theorem witness_MemoryWordsStoreNothingAtTheirFiring :
    (memSlot (.ld o1 .d m0)).isSome = true ∧ (sx 8 3).focus = .firing (fx 8 3) ∧
    Memory.wf (sx 8 3).mem = true ∧ (∃ t, exec (.ld o1 .d m0) (sx 8 3) = .next t) ∧
    (sx 8 3).walkHome 0 0 needWrite = .ok 0x40000 ∧
    ∀ h, (sx 8 3).walkHome 0 0x10000000 needWrite ≠ .ok h := by
  refine ⟨rfl, rfl, by decide, ⟨_, rfl⟩, by decide, ?_⟩
  rw [show (sx 8 3).walkHome 0 0x10000000 needWrite = .error (0x03, 3) by decide]
  intro h e; cases e

/-- NaNs of both kinds, infinities of both signs, zeros of both signs, a negative and a positive
number. -/
theorem witness_FloatArithmeticTreatsSpecialOperands :
    (sx 0x7FC00000 0x7F800001).focus = .firing (fx 0x7FC00000 0x7F800001) ∧
    lowVal .s 0x7FC00000 = .nan false ∧ lowVal .s 0x7F800001 = .nan true ∧
    lowVal .s 0x7F800000 = .inf false ∧ lowVal .s 0xFF800000 = .inf true ∧
    (lowVal .s 0).isZero = true ∧ (lowVal .s 0x80000000).isZero = true ∧
    (lowVal .s 0x80000000).neg = true ∧ (lowVal .s 0xBF800000).neg = true ∧
    (lowVal .s 0xBF800000).isZero = false ∧ (lowVal .s 0xBF800000).isNaN = false ∧
    (lowVal .s 0xBF800000).isInf = false ∧ lowVal .d 0x3FF0000000000000 ≠ lowVal .d 0 ∧
    lowVal .s (e0.holdAt 0 0) = lowVal .s 0 := by
  decide

/-- The least subnormal, the least normal and the greatest number of FP16, and one. -/
theorem witness_RepresentableValuesRoundToThemselves :
    1 < 2 ^ (fspec .h).width ∧ decodeF (fspec .h) 1 = .fin false 1 (-24) ∧
    (∃ m e, decodeF (fspec .h) 0x0400 = .fin false m e ∧ m ≠ 0) ∧
    (∃ m e, decodeF (fspec .h) 0xFBFF = .fin true m e ∧ m ≠ 0) ∧
    ∃ m e, decodeF (fspec .h) 0x3C00 = .fin false m e ∧ m ≠ 0 :=
  ⟨by decide, by decide, ⟨_, _, rfl, by decide⟩, ⟨_, _, rfl, by decide⟩, ⟨_, _, rfl, by decide⟩⟩

/-- A NaN in the low lane and a number in the high one, and the dynamic mode of a context. -/
theorem witness_PackedFloatLanesComputeAlone :
    (sx 0x3F8000007FC00000 3).focus = .firing (fx 0x3F8000007FC00000 3) ∧
    (lowVal .s ((lane 32 0 (fx 0x3F8000007FC00000 3).lv).setWidth 64)).isNaN = true ∧
    (lowVal .s ((lane 32 1 (fx 0x3F8000007FC00000 3).lv).setWidth 64)).isNaN = false ∧
    RMode.rne = [RMode.rne, .rtz, .rdn, .rup].getD (((sx 0 3).ctx 0).regs.round % 4) .rne := by
  decide

/-- NaNs, zeros, and two numbers in both orders and equal. -/
theorem witness_FloatComparisonsAndSignsFollowTheirRules :
    (sx 0x3F800000 0x40000000).focus = .firing (fx 0x3F800000 0x40000000) ∧
    (lowVal .s 0x7FC00000).isNaN = true ∧ (lowVal .s 0x3F800000).isNaN = false ∧
    (lowVal .s 0).isZero = true ∧ (lowVal .s 0x80000000).isZero = true ∧
    valueLess (lowVal .s 0x3F800000) (lowVal .s 0x7F800000) ∧
    ¬ valueLess (lowVal .s 0x7F800000) (lowVal .s 0x3F800000) ∧
    valueLess (lowVal .s 0x3F800000) (lowVal .s 0x40000000) ∧
    ¬ valueLess (lowVal .s 0x3F800000) (lowVal .s 0x3F800000) ∧
    Cond.lt ≠ .ltu ∧ Cond.lt ≠ .leu := by
  have a : lowVal .s 0x3F800000 = .fin false 8388608 (-23) := by decide
  have b : lowVal .s 0x40000000 = .fin false 8388608 (-22) := by decide
  have c : lowVal .s 0x7F800000 = .inf false := by decide
  refine ⟨rfl, by decide, by decide, by decide, by decide, ?_, ?_, ?_, ?_, by decide, by decide⟩
  · rw [a, c]; rfl
  · rw [a, c]; simp [valueLess]
  · rw [a, b]; simp only [valueLess, valQ]; norm_num
  · rw [a]; exact lt_irrefl _

/-- FP32 to itself, a NaN to FP16 and to a 4-bit format, 3/2 as FP32 and as FP16, INT8 limits met exactly,
infinities, a NaN, zeros, and numbers that are powers of 2 and 4, integers and halves. -/
theorem witness_ConversionsAndFunctionsFollowTheirSpecialCases :
    (sx 0x42FE0000 3).focus = .firing (fx 0x42FE0000 3) ∧
    (elemVal 0x09 (0x42FE0000 % 2 ^ fmtBits 0x09)).isNaN = false ∧
    (elemVal 0x09 (0x7FC00000 % 2 ^ fmtBits 0x09)).isNaN = true ∧
    fmtSpec 0x0A = some fp16 ∧ (0x0A : BitVec 8) ≠ 0x0F ∧
    (8 ≤ (0x0A : BitVec 8).toNat ∧ (0x0A : BitVec 8).toNat ≤ 11 ∧ 0x3E00 < 2 ^ fp16.width ∧
      decodeF fp16 0x3E00 = .fin false 1536 (-10) ∧ elemVal 0x09 0x3FC00000 = .fin false 12582912 (-23) ∧
      valQ (.fin false 12582912 (-23)) = valQ (.fin false 1536 (-10))) ∧
    1 ≤ (1 : BitVec 8).toNat ∧ (7 : BitVec 8).toNat ≤ 7 ∧ (lowVal .s 0x7FC00000).isNaN = true ∧
    lowVal .s 0x7F800000 = .inf false ∧ lowVal .s 0xFF800000 = .inf true ∧
    (lowVal .s 0x80000000).isZero = true ∧ lowVal .s 0x4B7F0000 = .fin false 0xFF0000 0 ∧
    (intLimits 7).1 ≤ signed false 1 * 2 ^ (0 : Int).toNat ∧
    signed false 1 * 2 ^ (0 : Int).toNat ≤ (intLimits 7).2 ∧
    (lowVal .s 0xBF800000).neg = true ∧ (lowVal .s 0xBF800000).isZero = false ∧
    valQ (lowVal .s 0x40400000) = ((3 : Int) : ℚ) ∧ (3 : Int).natAbs < 2 ^ 20 ∧
    valQ (lowVal .s 0x3F800000) = 1 ∧ valQ (lowVal .s 0x3F000000) = (2 : ℚ) ^ (-1 : Int) ∧
    valQ (lowVal .s 0xBF000000) = -(2 : ℚ) ^ (-1 : Int) ∧
    valQ (lowVal .s 0x3E800000) = (2 : ℚ) ^ (2 * (-1) : Int) ∧
    valQ (lowVal .s 0x3F000000) = ((0 : Int) : ℚ) + 1 / 2 := by
  have a : lowVal .s 0x40400000 = .fin false 12582912 (-22) := by decide
  have b : lowVal .s 0x3F800000 = .fin false 8388608 (-23) := by decide
  have c : lowVal .s 0x3F000000 = .fin false 8388608 (-24) := by decide
  have d : lowVal .s 0xBF000000 = .fin true 8388608 (-24) := by decide
  have e : lowVal .s 0x3E800000 = .fin false 8388608 (-25) := by decide
  refine ⟨rfl, by decide, by decide, by decide, by decide,
    ⟨by decide, by decide, by decide, by decide, by decide, ?_⟩, by decide, by decide, by decide,
    by decide, by decide, by decide, by decide, by decide, by decide, by decide, by decide, ?_, by decide,
    ?_, ?_, ?_, ?_, ?_⟩
  · norm_num [valQ]
  · rw [a]; norm_num [valQ]
  · rw [b]; norm_num [valQ]
  · rw [c]; norm_num [valQ]
  · rw [d]; norm_num [valQ]
  · rw [e]; norm_num [valQ]
  · rw [c]; norm_num [valQ]

/-- A launch with a trap slot at site 3, slot 4. -/
def rT : Run := { r0 with
  trapElem := some 3
  trapSlot := 4
  elems := [(2, e0), (3, e0)] }

/-- A presented trap with sequence number 7 of a parked firing, number 9, at site 3. -/
def trap7 : TrapRec := ⟨0x0E, 7, 3, 3, 0, 0, 0, 0, 0, .firing 3 9⟩

/-- The firing of slot 3 at site 3 that has been parked with a cause. -/
def parked (cause : Nat) : Parked := ⟨9, { fx 5 6 with elem := 3, slot := 3 }, cause⟩

/-- The element of the parked firing; its slot 3 holds MOV to s05.l and s03.r. -/
def eP (cause : Nat) : Elem := { e0 with
  slots := List.replicate 3 0 ++ [0x01008500A32F0000] ++ List.replicate 28 0
  parked := [parked cause] }

/-- The launch with the trap presented. -/
def rP (cause : Nat) : Run := { rT with
  presented := some trap7
  elems := [(2, e0), (3, eP cause)] }

/-- No trap presented, one presented from another element, no trap slot; a launch whose part may
still be cancelled. -/
theorem witness_ATrapParksItsFiringAndIsPresentedOnce :
    Stands (base rT (.firing (fx 7 3))) (fx 7 3) rT e0 ∧ rT.trapElem = some 3 ∧
    rT.presented = none ∧ rT.halted = false ∧
    Stands (base (rP 0x0E) (.firing (fx 7 3))) (fx 7 3) (rP 0x0E) e0 ∧
    (rP 0x0E).presented = some trap7 ∧ (3 : Nat) ≠ (fx 7 3).elem ∧ (fx 7 3).l = some (Tok.data 7) ∧
    Stands (sx 7 3) (fx 7 3) r0 e0 ∧ r0.trapElem = none ∧ partOf 2 < r0.parts.length ∧
    (r0.part (partOf 2)).done = false :=
  ⟨⟨rfl, rfl⟩, rfl, rfl, by decide, ⟨rfl, rfl⟩, rfl, by decide, rfl, stands 7 3, rfl, by decide,
    by decide⟩

theorem witness_TrapWordsTakeTheirTrap :
    (sx 1 3).focus = .firing (fx 1 3) ∧ (fx 0 3).lv = 0 ∧ (fx 1 3).lv ≠ 0 := by decide

/-- The record of trap 7 and one of trap 8; a SOFTWARE, a DIVZERO and a POISON trap. -/
theorem witness_TrapReturnsResumeOnlyTheNamedTrap :
    Stands (base (rP 0x0E) (.firing (fx 0x7000E 3))) (fx 0x7000E 3) (rP 0x0E) e0 ∧
    (rP 0x0E).presented = some trap7 ∧ trap7.seq = ((fx 0x7000E 3).lv.extractLsb' 16 16).toNat ∧
    trap7.seq ≠ ((fx 0x8000E 3).lv.extractLsb' 16 16).toNat ∧ (rP 0x0E).trapQueue = [] ∧
    trap7.resume = .firing 3 9 ∧
    (∀ cause ∈ [0x0E, 0x05, 0x0C, 0x06],
      (((base (rP cause) .idle).elem 0 3).parked.find? fun z => z.uid = 9) = some (parked cause) ∧
      (base (rP cause) .idle).isIll (parked cause).firing = false ∧
      (base (rP cause) .idle).instrOf (parked cause).firing = some (.mov o1 0)) ∧
    (parked 0x05).cause ≠ 0x0E ∧ (parked 0x05).cause ≠ 0x0F ∧ (parked 0x05).cause ≠ 0x0C ∧
    (parked 0x05).cause ≠ 0x08 ∧ (parked 0x05).cause ≠ countedMark ∧ (parked 0x06).cause = 0x06 := by
  refine ⟨⟨rfl, rfl⟩, ?_⟩; decide

theorem witness_SystemRegistersAreReadWhereTheyStand :
    Stands (sx 7 3) (fx 7 3) r0 e0 ∧ (sx 7 3).ctxs.find r0.ctx = some ctx0 ∧
    (0x017 : BitVec 12) = 0x010 + BitVec.ofNat 12 7 := ⟨stands 7 3, by decide, by decide⟩

/-- The device whose cached page may not be written; the next record of its fault log is free, or stands in
a block that a deferred reader waits to read. -/
def sRO : State := { sx 8 3 with tlb := [⟨0, 0, 0, 65536, 0x40000, true, false⟩] }

def sLog : State := { sRO with
  reqs := [(5, ⟨fx 8 3, o1, .ldv, .read, 8, 0x40008, 8, 0, 0, 0, none, .satisfied, [], none⟩)] }

/-- Bit 55, an odd address, a page without a cached translation, one outside the window's tiles, a
cached page, one without the right, a BAR of no parties and a reserved format. -/
theorem witness_AddressesAreCheckedBeforeAnyAccess :
    (sx 8 3).focus = .firing (fx 8 3) ∧ accessOf (fx 8 3) (.ld o1 .d m0) = some (8, 8, 1) ∧
    (0x80000000000000 : Word).getLsbD 55 = true ∧ (8 : Word).getLsbD 55 = false ∧
    (9 : Word).toNat % 8 ≠ 0 ∧ (8 : Word).toNat % 8 = 0 ∧
    (sx 8 3).translate 0 2 0x10000000000 1 = .fault 0x04 ∧
    (sx 8 3).translate 0 2 0x10000 1 = .miss ∧ sRO.translate 0 2 8 2 = .logged 0x04 3 ∧
    sRO.logBusy 0 = false ∧ sLog.translate 0 2 8 2 = .logged 0x04 3 ∧ sLog.logBusy 0 = true ∧ (sx 8 3).translate 0 2 8 1 = .home 0x40008 ∧
    (base { r0 with twin := some 1 } .idle).outsideCopy 0 0x40008 2 = true ∧
    accessOf (fx 8 0) (.bar o1 m0) = none ∧ accessOf (fx 8 16777216) (.bar o1 m0) = none ∧
    accessOf (fx 8 16777215) (.bar o1 m0) = some (8, 8, 3) ∧
    accessOf (fx 64 0x13) (.std o1 m0) = some (64, 64, 2) ∧ isReservedFmt (0x13 % 32) = true := by
  decide

theorem home8 {need : Nat} (h : need = 1 ∨ need = 2 ∨ need = 3) :
    HomeAt (sx 8 3) (fx 8 3) 8 8 need 0x40008 := by
  rcases h with rfl | rfl | rfl <;> exact ⟨by decide, by decide, .inl (by decide), by decide⟩

theorem home64 {need : Nat} (h : need = 1 ∨ need = 2 ∨ need = 3) :
    HomeAt (sx 64 3) (fx 64 3) 64 64 need 0x40040 := by
  rcases h with rfl | rfl | rfl <;> exact ⟨by decide, by decide, .inl (by decide), by decide⟩

/-- A copy is outstanding at lighter 0 of die 0 with handle 1; promises due and not yet due, with and
without it; a committed activation. -/
def sCopy : State :=
  { sx 7 3 with
    dies := (sx 7 3).dies.edit 0 fun d => { d with copies := [(0, [⟨1, 0, 0, 0, 8, 0, none, 0⟩])] } }

theorem witness_TimeSiteAndRegisterWordsActAsTheyName :
    Stands (sx 7 3) (fx 7 3) r0 e0 ∧ e0.act 0 = some (Act.open_ 0 0 0 0) ∧ r0.debug = false ∧
    Run.debug { r0 with debug := true } = true ∧
    (BitVec.ofNat 56 ((sx 0 3).clockAt 0 2) - (fx 0 3).lv.extractLsb' 0 56).msb = false ∧
    (sx 0 3).copyOf 0 2 (fx 0 3).lv = none ∧
    (BitVec.ofNat 56 ((sx 3 3).clockAt 0 2) - (fx 3 3).lv.extractLsb' 0 56).msb = true ∧
    (sCopy.copyOf 0 2 0x0400000000000000).isSome = true ∧
    (sx 7 3).ctxs.find r0.ctx = some ctx0 ∧ (Act.open_ 0 0 0 0).committed = false ∧
    (∀ a, Elem.act { e0 with acts := [{ Act.open_ 0 0 0 0 with committed := true }] } 0 = some a →
      a.committed = true) ∧ ctx0.regs.cfl.length = 8 := by
  have k : ∀ l r : Word, ∃ j < 3, (sx l r).clockAt 0 2 = j := fun l r =>
    ⟨Config.skew 0 0 % 3, Nat.mod_lt _ (by decide), Nat.zero_add _⟩
  refine ⟨stands 7 3, rfl, rfl, rfl, ?_, by decide, ?_, by decide, by decide, rfl, ?_,
    rfl⟩
  · obtain ⟨j, hj, e⟩ := k 0 3
    rw [e]; clear e; revert j; decide
  · obtain ⟨j, hj, e⟩ := k 3 3
    rw [e]; clear e; revert j; decide
  intro a h
  cases h
  rfl

theorem witness_ReadsIssueOneRequestToTheirHome :
    (sx 8 3).focus = .firing (fx 8 3) ∧ accessOf (fx 8 3) (.ld o1 .d m0) = some (8, 8, 1) ∧
    HomeAt (sx 8 3) (fx 8 3) 8 8 1 0x40008 ∧ accessOf (fx 64 3) (.vers o1 m0) = some (64, 64, 1) ∧
    HomeAt (sx 64 3) (fx 64 3) 64 64 1 0x40040 ∧
    accessOf (fx 8 3) (.bar o1 m0) = some (8, 8, 3) ∧ HomeAt (sx 8 3) (fx 8 3) 8 8 3 0x40008 :=
  ⟨rfl, by decide, home8 (by decide), by decide, home64 (by decide), by decide,
    home8 (by decide)⟩

/-- An empty store buffer, a known item and an unknown one. -/
theorem witness_BufferedWritesWaitInTheStoreBuffer :
    Stands (sx 8 3) (fx 8 3) r0 e0 ∧ accessOf (fx 8 3) (.st o1 .d m0) = some (8, 8, 2) ∧
    HomeAt (sx 8 3) (fx 8 3) 8 8 2 0x40008 ∧ HomeAt (sx 64 3) (fx 64 3) 64 64 2 0x40040 ∧
    isReservedFmt (3 % 32) = false ∧ e0.act 0 = some (Act.open_ 0 0 0 0) ∧ e0.buffered < 64 ∧
    (sx 0 4).findItem (fx 0 4) 0 (4 % 8) = none ∧
    (State.findItem { sx 0 4 with jobs := [(0, (default : Job))] } (fx 0 4) 0 (4 % 8)).isSome =
      true := by
  refine ⟨stands 8 3, by decide, home8 (by decide), home64 (by decide), by decide, rfl, ?_⟩
  decide

/-- A buffered store that ends where the access begins, and one that reaches into it. -/
theorem witness_ImmediateWritesIssueUnlessTheyOverlap :
    Stands (sx 8 3) (fx 8 3) r0 e0 ∧ accessOf (fx 8 3) (.aadd o1 .d m0) = some (8, 8, 3) ∧
    HomeAt (sx 8 3) (fx 8 3) 8 8 3 0x40008 ∧ e0.act 0 = some (Act.open_ 0 0 0 0) ∧
    (∀ st ∈ (Act.open_ 0 0 0 0).stores, st.lsid < 1 → st.home + st.size ≤ 0x40008 ∨
      0x40008 + MemOp.span .aadd 8 ≤ st.home) ∧
    0x40000 + 8 ≤ 0x40008 ∧ 0x40001 < 0x40008 + MemOp.span .xacc 4 ∧ 0x40008 < 0x40001 + 8 :=
  ⟨stands 8 3, by decide, home8 (by decide), rfl, by decide, by decide, by decide, by decide⟩

/-! ## Witnesses for the statements about homes -/

/-- A request of the firing at 0x40008. -/
def rq (op : MemOp) (cls : MemClass) (size : Nat) (data extra : Word) : Req :=
  ⟨fx 8 3, o1, op, cls, 8, 0x40008, size, data, extra, 0, none, .pending, [], none⟩

/-- The device with that request, number 5, and a side band of the block; die 0 serves its quays. -/
def sq (q : Req) (sb : Side) : State :=
  { sx 8 3 with
    reqs := [(5, q)]
    side := [(blockIx 0x40000, sb)]
    dies := (sx 8 3).dies.edit 0 fun d => { d with ready := true, hbmReady := true } }

/-- The conditions of `Performs` at a quay, to be decided. -/
abbrev Ready (s : State) (n : Nat) (q : Req) : Prop :=
  s.reqs.find n = some q ∧ s.mayPerform n q = true ∧ (s.sideOf q.home).poison = false ∧
    s.engineOwned q.home = false ∧ s.overlapsStore q.firing q.lsid q.home q.span = false ∧
    atQuay q.home = true ∧ s.awake q.home = true

theorem performs_of {s : State} {n : Nat} {q : Req} (h : Ready s n q) : Performs s n q :=
  ⟨h.1, h.2.1, h.2.2.1, h.2.2.2.1, h.2.2.2.2.1, .inr h.2.2.2.2.2⟩

/-- A block of a format and a scale. -/
def sb (fmt scale : Nat) : Side := ⟨7, scale, false, fmt, false⟩

/-- The same request at a memory tile. -/
theorem performs_tile : Performs
    { sx 8 3 with reqs := [(5, { rq .aadd .immediate 8 1 0 with home := tileHome 0 0 0 0 8 })] } 5
    { rq .aadd .immediate 8 1 0 with home := tileHome 0 0 0 0 8 } :=
  ⟨by decide, by decide, by decide, by decide, by decide, .inl (by decide)⟩

def atomicOps : List MemOp :=
  [.aadd, .aand, .aor, .axor, .amin, .amax, .aswap, .aincw, .aser, .acas, .stv]

def wordOps : List (MemOp × MemClass × Nat) :=
  [(.read, .read, 1), (.read, .read, 8), (.vers, .read, 64), (.ldd, .read, 64), (.ldv, .read, 8),
    (.write, .buffered, 1), (.write, .buffered, 8), (.vset, .buffered, 64), (.post, .immediate, 8),
    (.arm, .immediate, 8), (.signal, .buffered, 8), (.bar, .read, 8)]

def otherOps : List (MemOp × MemClass × Nat) :=
  [(.afadd, .immediate, 8), (.afadd, .immediate, 4), (.xinit, .immediate, 8), (.xacc, .immediate, 8),
    (.xread, .read, 8), (.kvcommit, .buffered, 8), (.ldk, .read, 8)]

theorem performs_atomic : ∀ op ∈ atomicOps, ∀ size ∈ [4, 8],
    Performs (sq (rq op .immediate size 0x7000000000001 1) (sb 0 0)) 5
      (rq op .immediate size 0x7000000000001 1) := by
  have h : ∀ op ∈ atomicOps, ∀ size ∈ [4, 8],
      Ready (sq (rq op .immediate size 0x7000000000001 1) (sb 0 0)) 5
        (rq op .immediate size 0x7000000000001 1) := by decide
  exact fun op i size j => performs_of (h op i size j)

theorem performs_word : ∀ p ∈ wordOps,
    Performs (sq (rq p.1 p.2.1 p.2.2 7 0) (sb 0 0)) 5 (rq p.1 p.2.1 p.2.2 7 0) := by
  have h : ∀ p ∈ wordOps,
      Ready (sq (rq p.1 p.2.1 p.2.2 7 0) (sb 0 0)) 5 (rq p.1 p.2.1 p.2.2 7 0) := by decide
  exact fun p i => performs_of (h p i)

theorem performs_other : ∀ p ∈ otherOps, ∀ z ∈ [sb 0 0, sb 0x12 127, sb 0x12 255],
    Performs (sq (rq p.1 p.2.1 p.2.2 63 0) z) 5 (rq p.1 p.2.1 p.2.2 63 0) := by
  have h : ∀ p ∈ otherOps, ∀ z ∈ [sb 0 0, sb 0x12 127, sb 0x12 255],
      Ready (sq (rq p.1 p.2.1 p.2.2 63 0) z) 5 (rq p.1 p.2.1 p.2.2 63 0) := by decide
  exact fun p i z j => performs_of (h p i z j)

/-- Every atomic at both sizes; versions that stand and do not; expected values likewise. -/
theorem witness_HomesPerformAtomicsAndConditionalWrites :
    Memory.wf (sx 8 3).mem = true ∧
    (∀ op ∈ atomicOps, ∀ size ∈ [4, 8],
      Performs (sq (rq op .immediate size 0x7000000000001 1) (sb 0 0)) 5
        (rq op .immediate size 0x7000000000001 1)) ∧
    (sb 0 0).version = ((0x7000000000001 : Word).extractLsb' 48 16).toNat ∧
    (sb 0 0).version ≠ ((1 : Word).extractLsb' 48 16).toNat ∧
    BitVec.ofNat 64 ((sx 8 3).num 0x40008 8) ≠ 1 ∧ BitVec.ofNat 64 ((sx 8 3).num 0x40008 8) = 0 :=
  ⟨by decide, performs_atomic, by decide, by decide, by decide, by decide⟩

/-- Every read and buffered write, a version at and one past the awaited one. -/
theorem witness_HomesPerformReadsAndBufferedWrites :
    Memory.wf (sx 8 3).mem = true ∧
    (∀ p ∈ wordOps, Performs (sq (rq p.1 p.2.1 p.2.2 7 0) (sb 0 0)) 5 (rq p.1 p.2.1 p.2.2 7 0)) ∧
    (∀ p ∈ wordOps, p.2.2 ∈ [1, 2, 4, 8, 64]) ∧
    (sx 8 3).ownStores (fx 8 3) = [] ∧ (rq .write .buffered 8 7 0).ord = none ∧
    (rq .write .buffered 8 7 0).spoiled = false ∧
    (BitVec.ofNat 16 (sb 0 0).version - (7 : Word).setWidth 16).msb = false :=
  ⟨by decide, performs_word, by decide, by decide, by decide, by decide, by decide⟩

/-- A count at its limit, one past it, zero counts, an armed word, a barrier met and not yet. -/
theorem witness_HomesKeepTaskAndBarrierWords :
    Memory.wf (sx 8 3).mem = true ∧
    (∀ p ∈ wordOps, Performs (sq (rq p.1 p.2.1 p.2.2 7 0) (sb 0 0)) 5 (rq p.1 p.2.1 p.2.2 7 0)) ∧
    (rq .signal .buffered 8 7 0).spoiled = false ∧ (rq .signal .buffered 8 7 0).ord = none ∧
    ((1 : Word).extractLsb' 0 24).toNat + ((0xFFFFFE : Word).extractLsb' 0 24).toNat ≤ 16777215 ∧
    16777215 < ((1 : Word).extractLsb' 0 24).toNat + ((0xFFFFFF : Word).extractLsb' 0 24).toNat ∧
    (0x1000000 : Word).extractLsb' 0 24 = 0 ∧ (1 : Word).extractLsb' 0 24 ≠ 0 ∧
    (0x1000001 : Word).getLsbD 24 = true ∧ (1 : Word).getLsbD 24 = false ∧
    (1 : BitVec 24) ≤ 1 ∧ (1 : BitVec 24) < 2 ∧
    ((0 : Word).extractLsb' 0 24).toNat + 1 < ((2 : Word).extractLsb' 0 24).toNat ∧
    ((1 : Word).extractLsb' 0 24).toNat ≤ ((0 : Word).extractLsb' 0 24).toNat + 1 :=
  ⟨by decide, performs_word, by decide⟩

/-- A block of another format, an exact-accumulate block, a non-finite one and a poisoned one; the
least and the greatest Eacc of XINIT and one beyond; terms that are finite and not. -/
theorem witness_HomesPerformTheOtherRequestsAndAnswerPoison :
    Memory.wf (sx 8 3).mem = true ∧
    (∀ p ∈ otherOps, ∀ z ∈ [sb 0 0, sb 0x12 127, sb 0x12 255],
      Performs (sq (rq p.1 p.2.1 p.2.2 63 0) z) 5 (rq p.1 p.2.1 p.2.2 63 0)) ∧
    (sb 0 0).fmt ≠ 0x12 ∧ (sb 0x12 127).fmt = 0x12 ∧ (sb 0x12 127).scale < 255 ∧
    (sb 0x12 255).scale = 255 ∧
    (let q := { rq .kvcommit .buffered 8 63 0 with ord := some .clu }
     Ready (sq q (sb 0 0)) 5 q ∧ q.spoiled = false ∧ q.ord.isSome = true) ∧
    (let q := rq .write .buffered 8 7 1
     let s := sq q (sb 0 0)
     s.mayPerform 5 q = true ∧ q.spoiled = true ∧ q.op.isRead = false ∧ s.engineOwned q.home = false ∧
      s.overlapsStore q.firing q.lsid q.home q.span = false ∧ s.ownStores q.firing = [] ∧
      atQuay q.home = true ∧ s.awake q.home = true ∧ q.ord = none) ∧
    (63 : Word).toInt = 64 * ((127 : Nat) - 127 : Int) + (63 : BitVec 7).toInt ∧
    (-64 : Word).toInt = 64 * ((127 : Nat) - 127 : Int) + (-64 : BitVec 7).toInt ∧
    (∀ o : BitVec 7, (64 : Word).toInt ≠ 64 * ((127 : Nat) - 127 : Int) + o.toInt) ∧
    (∃ m e, decodeF fp64 0x3FF0000000000000 = .fin false m e) ∧
    decodeF fp64 0x7FF0000000000000 = .inf false ∧ outOfRange (heldSum 0) = false ∧
    (sx 8 3).ownStores (fx 8 3) = [] ∧ (sx 8 3).num 0x40008 4 ≤ (0 : Word).toNat ∧
    (let q := rq .read .read 8 7 0
     let s := sq q { sb 0 0 with poison := true }
     s.mayPerform 5 q = true ∧ (s.sideOf q.home).poison = true ∧ s.engineOwned q.home = false ∧
      s.overlapsStore q.firing q.lsid q.home q.span = false ∧ atQuay q.home = true ∧
      s.awake q.home = true ∧ q.op ∉ [MemOp.fence, .cancel, .doneq, .ldv]) :=
  ⟨by decide, performs_other, by decide, by decide, by decide, by decide, by decide, by decide, by decide,
    by decide, by decide, ⟨_, _, rfl⟩, by decide, by decide, by decide, by decide, by decide⟩

/-! ## Witnesses for the statements about steps -/

theorem witness_DecodingReadsBackEveryWord :
    (Instr.unpk o2 .b 7 true).wf = true ∧ (Instr.unpk o2 .b 7 true).isSlotWord = true ∧
    decode 0x01008500A32F0000 = .ok (.mov o1 0) ∧ (Instr.seqLoop 0xFFFFFFFF 9).wf = true ∧
    (Instr.seqLoop 0xFFFFFFFF 9).isSeqWord = true ∧ decodeSeq 0x50000009FFFFFFFF =
      .ok (.seqLoop 0xFFFFFFFF 9) := by decide

/-- An event, a slot word at a firing, an engine word at its engine and a sequencing word. -/
theorem witness_EveryStepGoesOn :
    Instr.isSlotWord .tensionUpdate = false ∧ Instr.isSeqWord .tensionUpdate = false ∧
    (sx 7 3).focus = .firing (fx 7 3) ∧ Instr.isSlotWord (.mov o1 0) = true ∧
    (base r0 (.engine 0 3)).focus = .engine 0 3 ∧ Instr.isCommand (.mldb (c1 1)) = true ∧
    (base r0 (.thread 1 2)).focus = .thread 1 2 ∧ Instr.isSeqWord .seqPhase = true := by decide

theorem witness_MemoryKeepsItsForm :
    Memory.wf (sx 7 3).mem = true ∧ ∃ t, step (sx 7 3) = .next t := ⟨by decide, _, rfl⟩

/-- The launch with a running command MLDB at the frame of site 1. -/
def rStep : Run := { r0 with cmds := [(3, ⟨1, ⟨0xA100850000000001, 1, 0, 0, 0, 0⟩, .running, Prog.zero, 0, 0,
  [], false, none⟩)] }

/-- A job with one thread at its first step, PHASE. -/
def jobStep : Job := { (default : Job) with
  steps := [0x3000000000000000]
  threads := [(2, Thread.start 0)] }

theorem witness_AStepRunsTheDecodedWord :
    (sx 7 3).focus = .firing (fx 7 3) ∧ ((sx 7 3).elem 0 2).badSlots.testBit 0 = false ∧
    decode ((sx 7 3).slotWord (fx 7 3)) = .ok (.ill false) ∧
    ((base rStep (.engine 0 3)).run 0).cmds.find 3 = rStep.cmds.find 3 ∧
    (∀ c, rStep.cmds.find 3 = some c → rStep.works 0 3 c = true ∧
      decode c.msg.word = .ok (.mldb (c1 1))) ∧
    State.focus { base r0 (.thread 1 2) with jobs := [(1, jobStep)] } = .thread 1 2 ∧
    jobStep.threads.find 2 = some (Thread.start 0) ∧ (Thread.start 0).wait = .none ∧
    jobStep.steps[(Thread.start 0).step]? = some 0x3000000000000000 ∧
    decodeSeq 0x3000000000000000 = .ok .seqPhase ∧
    State.agenda { base r0 .idle with agenda := [(63, .row .ageLimit)] } = [(63, .row .ageLimit)] ∧
    (let s := base r0 .idle
     s.focus = .idle ∧ s.forcedNow = none ∧ 63 < s.quiet) ∧
    (let s := { base r0 .idle with queues := [(2, { Queue.reset with place := .berth 3 0 })] }
     s.focus = .idle ∧ s.forcedNow = some (.row (.berthTenureExpiry 2))) ∧
    Instr.isSlotWord (.berthTenureExpiry 2) = false ∧ Instr.isSeqWord (.berthTenureExpiry 2) = false := by
  refine ⟨rfl, by decide, by decide, rfl, ?_, rfl, by decide, rfl, by decide, by decide, rfl, by decide,
    by decide, rfl, rfl⟩
  intro c h
  cases h
  decide

theorem witness_ACorruptWordTrapsIllegal :
    (base (Run.withWord 0x1800000000000000) (.firing (fx 7 3))).focus = .firing (fx 7 3) ∧
    decode ((base (Run.withWord 0x1800000000000000) (.firing (fx 7 3))).slotWord (fx 7 3)) =
      .error .opcode ∧
    ({ e0 with badSlots := 1 } : Elem).badSlots.testBit 0 = true ∧
    (sx 7 3).dies.find ((sx 7 3).run 0 |>.part (partOf 1)).die = some DieSt.reset ∧
    (let e : Elem := { e0 with badSlots := 1 }
     let r : Run := { rT with elems := [(2, e), (3, e0)] }
     Stands (base r (.firing (fx 7 3))) (fx 7 3) r e ∧ e.badSlots.testBit (fx 7 3).slot = true ∧
      r.trapElem = some 3 ∧ r.presented = none ∧ r.halted = false) := by
  (repeat' apply And.intro) <;> first | decide | exact ⟨rfl, rfl⟩

theorem witness_APlacedWordIsFetchedNext :
    decode (BitVec.ofNat 64 0x01008500A32F0000) = .ok (.mov o1 0) := by decide

/-- Three terms in two orders; a sum at the lower and one at the upper limit. -/
theorem witness_ExactSumsDoNotDependOnTheOrder :
    (0 : Nat) < 2 ^ 64 ∧
    [(false, 3, (-2 : Int)), (true, 1, 0), (false, 5, 3)].Perm
      [(false, 5, 3), (false, 3, -2), (true, 1, 0)] ∧
    -(2 : Int) ^ 55 ≤ heldSum 0 + alignedSum 127 0 [(true, 2 ^ 55, 0)] ∧
    heldSum 0 + alignedSum 127 0 [(false, 2 ^ 55 - 1, 0)] < 2 ^ 55 := by decide

/-! ## Engines -/

/-- A running command of a word, an operand and a progress at the element of a site. -/
def cmd (site : Nat) (w l : Word) (p : Prog) : Command :=
  ⟨site, ⟨w, 1, 0, 0, 0, l⟩, .running, p, 0, 0, [], false, none⟩

/-- A strand between two ports, with the beats that wait at its end. -/
def strand (num a p b q : Nat) (beats : List Beat) : Strand := { (default : Strand) with
  num := num
  elem := a
  port := p
  branches := [{ (default : Branch) with elem := b, port := q, cap := 4, beats := beats }] }

/-- A launch with that command, number 3, and strands; its tile mask is full and the tiles of sites 0
and 7 are the engines'. -/
def rE (c : Command) (ss : Tbl Strand) : Run := { r0 with
  parts := [⟨0, 0, 0, 1, 1, 0, 0, 0, [255], .running, false, false⟩]
  cmds := [(3, c)]
  strands := ss
  tiles := [(0, ⟨true, 0, [], 0, 0, none⟩), (7, ⟨true, 0, [], 0, 0, none⟩)] }

def sE (c : Command) (ss : Tbl Strand) : State := base (rE c ss) (.engine 0 3)

theorem at_engine (c : Command) (ss : Tbl Strand) : AtEngine (sE c ss) 0 3 (rE c ss) c :=
  ⟨rfl, rfl, rfl⟩

theorem working {c : Command} {ss : Tbl Strand} (h : (ss.map Prod.fst).Pairwise (· < ·))
    (l : ((rE c ss).part (partOf c.elem)).cancelled = false) (n : c.prog.skip = none) :
    Working (sE c ss) 0 3 (rE c ss) c := ⟨at_engine c ss, h, l, n⟩

/-- A page of the context is a block's home for reads and writes. -/
theorem read_home {s : State} {k a b : Nat} (h : a % 64 = 0 ∧ b % 64 = 0)
    (e : s.engineHome 0 k a needRead = .home b) (t : isTileHome b = false)
    (p : (s.sideOf b).poison = false) : ReadHome s 0 k a b := ⟨h, e, t, p⟩

theorem write_home {s : State} {k a b : Nat} (h : a % 64 = 0 ∧ b % 64 = 0)
    (e : s.engineHome 0 k a needWrite = .home b) (t : isTileHome b = false)
    (p : s.blockBusy b = false) (o : s.outsideCopy 0 b needWrite = false) : WriteHome s 0 k a b :=
  ⟨h, e, t, p, o⟩

/-- Operands in and out of range for each register word. -/
theorem witness_EngineRegisterWordsSetAndAnswer :
    AtEngine (sE (cmd 1 0 64 Prog.zero) []) 0 3 (rE (cmd 1 0 64 Prog.zero) []) (cmd 1 0 64 Prog.zero) ∧
    (64 : Word).toNat % 64 = 0 ∧ (63 : Word).toNat % 64 ≠ 0 ∧ (65535 : Word).toNat < 65536 ∧
    65536 ≤ (65536 : Word).toNat ∧
    ((0xFFFF0006 : Word).extractLsb' 32 32 = 0 ∧ (0xFFFF0006 : Word).extractLsb' 3 13 = 0 ∧
      (0xFFFF0006 : Word).extractLsb' 0 2 ≠ 3) ∧ (0x3 : Word).extractLsb' 0 2 = 3 ∧
    ((rE (cmd 1 0 64 Prog.zero) []).seam 1).pol < 4 ∧
    (sE (cmd 1 0 64 Prog.zero) []).ctxs.find 0 = some ctx0 ∧ (22 : BitVec 5).toNat ≤ 22 ∧
    (0x0000FFFF : Word).extractLsb' 16 16 = 0 ∧
    (sE (cmd 7 0 64 Prog.zero) []).tileMasked 0 7 = true ∧
    (rE (cmd 7 0 64 Prog.zero) []).tiles.find 7 = some ⟨true, 0, [], 0, 0, none⟩ ∧
    ((0x003BFFFFFFFFFFFF : Word).extractLsb' 54 10 = 0 ∧
      (0x003BFFFFFFFFFFFF : Word).extractLsb' 50 3 ≠ 7) ∧
    (0x001C000000000000 : Word).extractLsb' 50 3 = 7 := ⟨at_engine _ _, by decide⟩

/-- A queued TREAD, a finished one, an OWN that waits for its commit, and its tile in use and idle. -/
theorem witness_EngineCommandsLiveFromArrivalToCompletion :
    (let c := { cmd 7 0xBD00850000000007 0 Prog.zero with state := .queued }
     let s := sE c []
     s.runs.find 0 = some (rE c []) ∧ (rE c []).cmds.find 3 = some c ∧ (rE c []).state = .running ∧
      s.haltedSite 0 7 = false ∧ (rE c []).heldBack 3 c = false ∧ (rE c []).silentSeam 7 = false ∧
      c.instr = some (.tread (c1 7) ⟨0, 0, 0⟩) ∧
      (rE c []).mayStart 3 c (.tread (c1 7) ⟨0, 0, 0⟩) = true ∧
      s.cameraFree 0 3 (.tread (c1 7) ⟨0, 0, 0⟩) = true ∧
      ((neededTiles 7 (.tread (c1 7) ⟨0, 0, 0⟩)).all (rE c []).tileEngine) = true) ∧
    (let c := { cmd 7 0xBD00850000000007 0 Prog.zero with state := .finished 5 }
     let s := sE c []
     s.farOutstanding 0 3 = false ∧ (rE c []).outputsGone c = true ∧ c.task = 0 ∧ c.prog.skip = none ∧
      isCopy (.tread (c1 7) ⟨0, 0, 0⟩) = false ∧ ((rE c []).part (partOf 7)).cancelled = false ∧
      s.ctxs.find (rE c []).ctx = some ctx0) ∧
    (let c := { cmd 7 0x9000850000000047 0 Prog.zero with state := .withheld 0 }
     let s := sE c []
     s.visibleClu 0 0 c.msg = true ∧ s.tileMasked 0 7 = true ∧ s.haltedSite 0 7 = false ∧
      (rE c []).tiles.find 7 = some ⟨true, 0, [], 0, 0, none⟩) ∧
    Stands (sx 7 3) (fx 7 3) r0 e0 ∧ e0.act 0 = some (Act.open_ 0 0 0 0) ∧
    (Act.open_ 0 0 0 0).committed = false ∧ Elem.act { e0 with acts := [] } 0 = none ∧
    AtEngine (sE (cmd 7 0x9000850000000007 0 Prog.zero) []) 0 3
      (rE (cmd 7 0x9000850000000007 0 Prog.zero) []) (cmd 7 0x9000850000000007 0 Prog.zero) ∧
    (TileSt.mk true 0 [] 0 0 none).uses = 0 ∧ 0 < (TileSt.mk true 1 [] 0 0 none).uses := by
  refine ⟨by decide, by decide, by decide, stands 7 3, rfl, rfl, rfl, at_engine _ _, rfl, by decide⟩

/-! ## Strands and jobs -/

/-- A branch to site 9 within the limits of R269. -/
def brOk : Branch := { (default : Branch) with
  elem := 9
  port := 0
  bound := some 9
  gauge := 2
  cap := 4
  wcbase := 4 }

/-- Strand 5 from site 2, within the limits of R269. -/
def stOk : Strand := { (default : Strand) with
  num := 5
  elem := 2
  bound := some 2
  wmin := 1
  wmax := 8
  imax := 100
  wpbase := 4
  permit := 65534
  branches := [brOk] }

/-- The same strand with its producer end elsewhere and its consumer end at site 2. -/
def stFar : Strand := { stOk with
  elem := 9
  bound := some 9
  branches := [{ brOk with elem := 2, bound := some 2 }] }

def rs (st : Strand) : Run := { r0 with strands := [(0, st)] }

def ss (st : Strand) (l : Word) : State := base (rs st) (.firing (fx l 0))

/-- No strand, either end, every branch and the values that STRSET takes and refuses. -/
theorem witness_StrandWordsActOnTheirStrand :
    (ss stOk 3).focus = .firing (fx 3 0) ∧ Stands (ss stOk 3) (fx 3 0) (rs stOk) e0 ∧
    Stands (ss stFar 3) (fx 3 0) (rs stFar) e0 ∧
    (rs stOk).strandOf (fx 3 0).elem 4 = none ∧ (rs stOk).strandOf (fx 3 0).elem 5 = some 0 ∧
    (rs stOk).strands.find 0 = some stOk ∧ 0 < stOk.branches.length ∧
    stOk.bound = some (fx 3 0).elem ∧ (rs stOk).producer stOk = none ∧
    (rs stFar).strandOf (fx 3 0).elem 5 = some 0 ∧
    stFar.bound ≠ some (fx 3 0).elem ∧ stOk.branches.length ≤ (1 : BitVec 3).toNat ∧
    stOk.branches[(0 : BitVec 3).toNat]? = some brOk ∧
    (rs stOk).strsetOk 0 0 0 2 = true ∧ (rs stOk).strsetOk 0 0 0 3 = false ∧
    (rs stOk).strsetOk 0 6 0 0 = false :=
  ⟨rfl, ⟨rfl, rfl⟩, ⟨rfl, rfl⟩, by decide⟩

/-- A data beat. -/
def beat0 : Beat := ⟨List.replicate 64 0, 0, 0⟩

/-- A gated strand with room and a beat to send, one without a permit, and one that is full. -/
def stSend : Strand := { stOk with gated := true, permit := 1, ready := [beat0] }
def stShut : Strand := { stSend with permit := 0 }
def stFull : Strand := { stSend with branches := [{ brOk with beats := [beat0, beat0, beat0, beat0] }] }

/-- A strand to a running TWRITE at the tile of site 7, with one beat on it. -/
def stLoop : Strand := { stOk with
  kp := 8
  branches := [{ brOk with elem := 7, bound := some 7, beats := [beat0] }] }

def rLoop : Run := { r0 with
  strands := [(0, stLoop)]
  cmds := [(3, ⟨7, ⟨0xBE00850000000007, 1, 0, 0, 0, 0⟩, .running, Prog.zero, 0, 0, [], false, none⟩)] }

/-- A close from the producer end whose last beat goes out, and one from a consumer end whose
end-of-stream has arrived. -/
def stClose : Strand := { stSend with closing := [.producer (fx 1 0) o1 2] }
def brEnd : Branch := { brOk with beats := [beat0, Beat.eos] }
def stDrain : Strand := { stOk with closing := [.consumer (fx 1 0) o1 0 [0]], branches := [brEnd] }

theorem witness_StrandsCarryBeatsUnderTheTensionLoop :
    (ss stSend 0).runs.find 0 = some (rs stSend) ∧ (rs stSend).strands.find 0 = some stSend ∧
    (ss stSend 0).haltedSite 0 2 = false ∧ stSend.ready = beat0 :: [] ∧ (rs stSend).room stSend = true ∧
    stSend.gateOpen beat0 = true ∧ stSend.closingsOut = 0 ∧ (rs stFull).room stFull = false ∧
    (beat0.isData = true ∧ stShut.gated = true ∧ stShut.permit = 0) ∧
    (stOk.closing = [] ∧ { stOk with control := [CtrlReq.permit 3 (fx 1 0) o1] }.control =
      CtrlReq.permit 3 (fx 1 0) o1 :: [] ∧
      { stOk with control := [CtrlReq.take 3 (fx 1 0) o1] }.control =
        CtrlReq.take 3 (fx 1 0) o1 :: []) ∧
    (stClose.ready = beat0 :: [] ∧ (rs stClose).room stClose = true ∧ stClose.gateOpen beat0 = true ∧
      stClose.closing = .producer (fx 1 0) o1 2 :: []) ∧
    (stDrain.control = [] ∧ stDrain.closing = [.consumer (fx 1 0) o1 0 [0]] ∧
      stDrain.branches[0]? = some brEnd ∧ brEnd.beats = [beat0] ++ Beat.eos :: [] ∧
      Beat.eos.isEos = true ∧ ∀ z ∈ [beat0], z.isEos = false) ∧
    { base rLoop .idle with cycle := 63 }.cycle % 64 ≠ 0 ∧ (base rLoop .idle).cycle % 64 = 0 ∧
    (base rLoop .idle).runs.find 0 = some rLoop ∧ rLoop.strands.find 0 = some stLoop ∧
    rLoop.halted = false ∧ stLoop.branches[0]? = some (stLoop.branch 0) ∧
    (rLoop.consumer (stLoop.branch 0)).isSome = true ∧
    rLoop.frozenEmpty stLoop (stLoop.branch 0) = false ∧
    rLoop.frozenFull stLoop (stLoop.branch 0) = false ∧ stLoop.branches = [stLoop.branch 0] ∧
    (rs stOk).producer stOk = none ∧ (∀ b ∈ stOk.branches, (rs stOk).consumer b = none) ∧
    { rLoop with freeze := some ⟨some 0, false, false⟩ }.halted = true := by decide

/-- A thread that waits. -/
def th0 (w : ThreadWait) : Thread := ⟨4, false, 0, w, [(6, 0)]⟩

def job0 (w : ThreadWait) : Job := { (default : Job) with
  steps := [0]
  phase := 1
  phases := [(1, ⟨false, false⟩)]
  threads := [(2, th0 w)] }

/-- A device with job 1, whose thread 2 waits so, and the launch. -/
def sj (x : Run) (w : ThreadWait) : State := { base x (.thread 1 2) with jobs := [(1, job0 w)] }

/-- Graph 6's run as running, waiting and complete. -/
def rIn (st : RunState) : Run := { r0 with job := 1, phase := 1, state := st }

/-- A launch that is quiescent. -/
def rDone : Run := { rIn .running with
  elems := []
  parts := [⟨0, 0, 0, 1, 1, 0, 0, 0, [255], .running, false, false⟩] }

/-- A job that is over but for its completion, and one whose task 0 is at home 0x40000. -/
def jobEnd : Job := { (default : Job) with steps := [0] }
def jobTask : Job := { (default : Job) with ntask := 1, tasks := [(9, 0)] }

theorem witness_SequencingWordsMoveTheirThread :
    AtThread (sj (rIn .running) .none) 1 2 (job0 .none) (th0 .none) ∧ (job0 .none).starts = [] ∧
    (th0 .none).runs.find 7 = none ∧ (th0 .none).runs.find 6 = some 0 ∧
    (sj (rIn .running) .none).graphDone 0 = false ∧ (sj (rIn .complete) .none).graphDone 0 = true ∧
    (sj (rIn .running) .none).phaseGraphsDone 1 1 = false ∧
    (sj (rIn .complete) .none).phaseGraphsDone 1 1 = true ∧ (0xFFFFFFFF : BitVec 32) ≠ 0 ∧
    (sj (rIn .waiting) (.run 0)).jobs.find 1 = some (job0 (.run 0)) ∧
    (job0 (.run 0)).threads.find 2 = some (th0 (.run 0)) ∧ (th0 (.run 0)).wait = .run 0 ∧
    ((sj (rIn .waiting) (.run 0)).run 0).hasStarted = false ∧
    ((sj (rIn .running) (.run 0)).run 0).hasStarted = true ∧ (th0 (.wait 0)).wait = .wait 0 ∧
    (let s : State := { base r0 .idle with jobs := [(1, jobTask)], pendingStarts := [(0x40000, 0)] }
     s.pendingStarts[0]? = some (0x40000, 0) ∧ s.taskJob 0x40000 = some (1, jobTask) ∧
      jobTask.tasks[0]? = some (9, 0) ∧ s.jobs.find 1 = some jobTask ∧
      jobTask.threads.length < 16) ∧
    (base rDone .idle).cancelWaits = [] ∧ Memory.wf (base rDone .idle).mem = true ∧
    (base rDone .idle).runs.find 0 = some rDone ∧ (base rDone .idle).launchReady 0 0 = true ∧
    (base rDone .idle).trapReportDue 0 = none ∧
    (let y : Job := { jobEnd with report := 5 }
     let s : State := { base rDone .idle with jobs := [(1, y)] }
     s.launchReady 0 0 = true ∧ s.trapReportDue 0 = some (1, y)) ∧
    (let s : State := { base r0 .idle with jobs := [(1, jobEnd)] }
     s.jobs.find 1 = some jobEnd ∧ s.jobReady 1 = true) :=
  ⟨⟨rfl, rfl, rfl⟩, by decide⟩

/-- A queue of context 0 and die 0 at anchor, with one job to take. -/
def q0 : Queue := { Queue.reset with en := true, qtail := 1 }

/-- A device whose die 0 and its cluster 0 are ready, with queues and runs. -/
def sq0 (qs : Tbl Queue) (rs : Tbl Run) (now : Nat) : State := { base r0 .idle with
  cycle := now
  queues := qs
  runs := rs
  dies := [(0, { DieSt.reset with
    ready := true
    clusters := [(0, { ClusterSt.reset with ready := true })] })] }

/-- The same, while a deferred reader waits to read a block of each of the first two records. -/
def sBusy : State := { sq0 [(1, q0)] [] 0 with
  reqs := [0x40000 + q0.recordVa 0 + 152, 0x40000 + q0.recordVa 1 + 152].zipIdx.map fun h =>
    (5 + h.2, ⟨fx 8 3, o1, .ldv, .read, 8, h.1, 8, 0, 0, 0, none, .satisfied, [], none⟩) }

/-- A graph of one part of one cluster, and its run that waits. -/
def planOne : PlanGraph := { (default : PlanGraph) with parts := [⟨1, 1, 0, 0, []⟩] }

def rWait : Run := { (default : Run) with plan := planOne, state := .waiting }

/-- A queue in berth 3 since cycle 0, of a class, whose head is run 4. -/
def qHead (prio : Nat) : Queue := { Queue.reset with
  en := true
  prio := prio
  place := .berth 3 0
  heads := [⟨4, 0, false⟩] }

def bidOne (prio : Nat) : Bid := ⟨1, 0, prio, 0, 3, ⟨4, 0, false⟩⟩

/-- The run of another queue that stands on every cluster of its part. -/
def rVictim : Run := { rDone with job := 0 }

/-- Cycles that are longer than PREEMPTWAIT and BERTHQ. -/
def late : Nat := 2000 * 1400 + 1

def spotOne : Spot := ⟨0, 0, 0, 0, []⟩

theorem witness_QueuesAreBerthedAndTheirHeadsAdmitted :
    (base r0 .idle).life.hmReady = true ∧ State.reset.life.hmReady = false ∧ 4095 < 4096 ∧
    q0 = (sq0 [(1, q0)] [] 0).queue 1 ∧ q0.en = true ∧ q0.qtail < 65536 ∧
    (sq0 [(1, q0)] [] 0).nextJob + 1 < 2 ^ 32 ∧
    (sq0 [(1, q0)] [] 0).doorbellBusy 1 2 = false ∧ sBusy.doorbellBusy 1 2 = true ∧
    sBusy.recordBusy q0.ctx (q0.recordVa q0.qhead) = true ∧
    (∀ va, (sq0 [(1, q0)] [] 0).virtBusy q0.ctx va = false) ∧ q0.job = none ∧ q0.qhead ≠ q0.qtail ∧
    ((sq0 [(1, q0)] [] 0).ctx q0.ctx).state = .live ∧ Queue.reset.en = false ∧
    q0.anchored = some 0 ∧ (sq0 [(1, q0)] [] 0).freeBerth 0 = some 0 ∧ q0.hasWork = true ∧
    (∀ z ∈ (sq0 [(1, q0)] [] 0).atAnchor 0, 0 < z.2 ∨ (0 = z.2 ∧ 1 ≤ z.1)) ∧
    ((sq0 [(1, q0)] [] 0).dies.get 0).ready = true ∧ (qHead 0).place = .berth 3 0 ∧
    ({ qHead 0 with heads := [] }.hasWork = false ∧
      (sq0 [(1, { qHead 0 with heads := [] })] [] 0).queueRuns 1 = false) ∧
    ((sq0 [(1, qHead 0), (2, q0)] [] late).waitStart 0 = some 0 ∧ 0 < late ∧ max 0 0 + 500 * 1400 ≤ late) ∧
    ((qHead 0).hasWork = true ∧ (sq0 [(1, qHead 0)] [] 0).waitStart 0 = none) ∧
    (sq0 [] [] 0).chooseBid 0 = none ∧
    (let s := sq0 [(1, qHead 0)] [(4, rWait)] 0
     s.chooseBid 0 = some (bidOne 0) ∧ s.fit (bidOne 0) = some (.new [spotOne] []) ∧
      (∀ z ∈ [spotOne], z.clash = []) ∧ s.runs.find 4 = some rWait) ∧
    (let x : Run := { rDone with state := .loading, plan := planOne }
     (base x .idle).runs.find 0 = some x ∧ x.state = .loading ∧
      ∀ p ∈ x.parts, p.done = false ∧ ((base x .idle).dies.get p.die).power = 0) ∧
    (let s := sq0 [(1, qHead 7)] [(3, rVictim), (4, rWait)] late
     s.urgentBid 0 = some (bidOne 7) ∧ s.victim 0 = some (3, rVictim) ∧ rVictim.twin = none ∧
      ∀ z ∈ s.runs, z.2.freeze = none) ∧
    (sq0 [] [] 0).urgentBid 0 = none := by
  have free : ∀ va, (sq0 [(1, q0)] [] 0).virtBusy q0.ctx va = false := fun va => by
    unfold State.virtBusy
    split
    · rfl
    · rfl
  refine ⟨by decide, by decide, by decide, by decide, by decide, by decide, by decide, by decide,
    by decide, by decide, free, ?_⟩
  decide

/-! ## Freezing, contexts, far requests and the device -/

/-- A launch with a freeze and a state of its part. -/
def rFr (st : RunState) (p : PartState) (fr : Option Freeze) : Run := { r0 with
  state := st
  parts := [⟨0, 0, 0, 1, 1, 0, 0, 0, [255], p, false, false⟩]
  freeze := fr
  trapElem := some 2 }

def sFr (x : Run) (now : Nat) (ws : Tbl Wave) : State := { base x .idle with cycle := now, waves := ws }

/-- A wave of a run with places still to reach. -/
def wave (r : Nat) (todo : List Nat) : Wave := ⟨r, [], [], 0, todo, none, none, 0⟩

/-- A plan of one cluster for the launch's one element. -/
def planE : PlanGraph := { planOne with parts := [⟨1, 1, 0, 0, [⟨0, 255, []⟩]⟩] }

/-- A launch at a loading plane whose slot 0 holds a word. -/
def rImg (w : Word) : Run := { rFr .frozen .loading none with plan := planE, elems := [(2, Elem.withWord w)] }


theorem range_free {s : State} {c va n : Nat} (h : ∀ v, s.virtBusy c v = false) :
    s.rangeBusy c va n = false := by
  simp only [State.rangeBusy, h, List.any_eq_false]
  simp

/-- The launch with a freeze that is to be read out. -/
def rOut : Run := rFr .running .running (some ⟨some 9, true, false⟩)

theorem image_free : ((sFr rOut 23 []).parkRun 0).imageBusy 0 = false :=
  range_free fun va => by
    unfold State.virtBusy
    split <;> rfl

theorem witness_LaunchesFreezeAndThaw :
    (rOut.freeze = some ⟨some 9, true, false⟩ ∧ (sFr rOut 23 []).freezeReady 0 9 = true ∧
      ((sFr rOut 23 []).parkRun 0).imageBusy 0 = false) ∧
    (let x := rFr .running .running (some ⟨none, false, true⟩)
     (sFr x 9 []).runs.find 0 = some x ∧ x.freeze = some ⟨none, false, true⟩ ∧ x.state = .running ∧
      (∃ w ∈ (sFr x 9 [(5, wave 0 [2])]).waves, w.2.run = 0 ∧ w.2.todo ≠ []) ∧
      ∀ w ∈ (sFr x 9 [(5, wave 0 []), (6, wave 1 [2])]).waves, w.2.run = 0 → w.2.todo = []) ∧
    (let x := rFr .running .running (some ⟨some 9, false, false⟩)
     x.freeze = some ⟨some 9, false, false⟩ ∧ (sFr x 22 []).freezeReady 0 9 = false ∧
      (sFr x 23 []).freezeReady 0 9 = true ∧ x.trapElem = some 2 ∧ x.halted = true ∧
      x.presented = none) ∧
    (rFr .running .running none).state ≠ .frozen ∧
    (let x := rFr .frozen .switching none
     x.state = .frozen ∧ (sFr x 23 []).planesFree 0 = true ∧
      (∀ p ∈ x.parts, p.done = true ∨ p.state = .switching) ∧ (sFr x 23 []).thawBusy 0 = false ∧
      x.atBreak = false ∧ (sFr x 23 []).sleeping 0 = false ∧
      State.sleeping { sFr x 23 [] with dies := (sFr x 23 []).dies.edit 0 fun d => { d with power := 1 } } 0 = true) ∧
    (let x := rImg 0
     (sFr x 23 []).thawBusy 0 = false ∧ x.imageRefusal = none) ∧
    (rImg 0x0100850000000009).imageRefusal.isSome = true ∧
    (let x := rFr .frozen .loading none
     x.state = .frozen ∧ (∀ p ∈ x.parts, ((sFr x 23 []).dies.get p.die).power = 0 ∧
        (p.done = true ∨ p.state = .loading))) ∧
    (let x := rFr .frozen .switching none
     x.out = false ∧ x.inbox = [] ∧ x.trapQueue = [] ∧ (sFr x 23 []).reqs = [] ∧
      ∀ z ∈ x.elems, z.2.parked = [] ∧ ∀ a ∈ z.2.acts, a.stores = []) := by
  refine ⟨⟨rfl, by decide, image_free⟩, ?_⟩
  (repeat' apply And.intro) <;> decide

/-- A context with a command under way, from the state before it. -/
def ctxCmd (cmd : Nat) (prior : CtxState) : Ctx := { ctx0 with
  state := .busy
  prior := prior
  command := cmd
  reqnum := 7
  spillsize := 0x100000 }

/-- A level 2 leaf of 512 MiB that may be written maps the context's regions (R367). -/
def tables2 : List Host.Cell := [(0x10000, 3), (0x10002, 2), (0x20000, 0x0D)]

def sCtx (x : Ctx) (m : List Host.Cell) (rs : Tbl Run) : State := { base r0 .idle with
  ctxs := [(0, x)]
  mem := m
  runs := rs }

/-- A far request, first sent at cycle 0, and its packet to device 2. -/
def pkt (b : PacketBody) : Packet := ⟨2, 0, 5, 65535, 65535, b⟩

def far1 (b : PacketBody) : FarReq :=
  ⟨65535, true, { pkt b with src := 0, dst := 2 }, 8, some (fx 1 0, o1), 0, 28000, 28000, false, false⟩

/-- An entry of the translation cache under invalidation, a request that it has translated. -/
def tlbReq : Req :=
  ⟨fx 1 0, o1, .read, .read, 0x40, 0x40040, 8, 0, 0, 3, none, .pending, [], none⟩

/-- A record, its context that is out, and a device that restores a record of no bytes; whether the record is
one of no bytes is open (log 11). -/
def savedA : SavedCtx := { (default : SavedCtx) with far := ⟨77, 0, 0, [], [], []⟩ }

def ctxOut : Ctx := { Ctx.reset with
  state := .out
  saved := some savedA }

def sRest : State := { base r0 .idle with
  ctxs := [(0, ctxCmd 3 .free), (9, ctxOut)]
  mem := tables2 }

theorem saved_here (b : Bool) (h : (Config.saveRecord savedA).isPrefixOf [] = b) :
    sRest.savedHere [] = if b then some (9, savedA) else none := by
  have h0 : (ctxCmd 3 .free).saved = none := rfl
  have h1 : ctxOut.saved = some savedA := rfl
  have h2 : ctxOut.state = .out := rfl
  simp only [State.savedHere, sRest, firstSome, h0, h1, h2, h]
  cases b <;> simp

theorem virt_free (x : Ctx) (m : List Host.Cell) (rs : Tbl Run) (va : Nat) :
    (sCtx x m rs).virtBusy 0 va = false := by
  unfold State.virtBusy
  split <;> rfl

theorem witness_ContextCommandsOpenAndCloseContexts :
    ((Config.saveRecord savedA).isPrefixOf [] = true → sRest.savedHere [] = some (9, savedA)) ∧
    ((Config.saveRecord savedA).isPrefixOf [] = false → sRest.savedHere [] = none) ∧
    (∀ va, (sCtx (ctxCmd 2 .live) tables []).virtBusy 0 va = false) ∧
    (sCtx ctx0 tables []).ctxs.find 0 = some ctx0 ∧ ctx0.state ≠ .busy ∧
    (ctxCmd 1 .free).pends 1 = true ∧ (base r0 .idle).life.hmReady = true ∧
    (ctxCmd 1 .live).prior ≠ .free ∧ State.reset.life.devid = 255 ∧
    (sCtx (ctxCmd 1 .free) tables2 []).life.devid ≠ 255 ∧
    { ctxCmd 1 .free with spillsize := 0xF0000 }.malformed = true ∧
    (ctxCmd 1 .free).malformed = false ∧ (sCtx (ctxCmd 1 .free) tables []).regionsOk 0 = false ∧
    (sCtx (ctxCmd 1 .free) tables2 []).regionsOk 0 = true ∧
    (sCtx (ctxCmd 1 .free) tables2 []).quarantined 7 = false ∧
    { sCtx (ctxCmd 1 .free) tables2 [] with quarantine := [(7, 1)] }.quarantined 7 = true ∧
    (ctxCmd 2 .out).pends 2 = true ∧ (ctxCmd 2 .out).prior ≠ .live ∧
    ((ctxCmd 2 .live).pends 2 = true ∧ (ctxCmd 2 .live).prior = .live ∧ r0.placed 0 = true ∧
      r0.state ≠ .frozen ∧ r0.freeze = none) ∧
    (let x : Ctx := { ctxCmd 2 .live with far := ⟨5, 0, 1, [far1 .busy], [], []⟩ }
     (sCtx x tables []).runs = [] ∧ x.far.outstanding ≠ [] ∧ x.drainEnd = none ∧
      { x with drainEnd := some 1 }.drainEnd = some 1 ∧ (sCtx x tables []).cycle < 1) ∧
    (ctxCmd 2 .live).far.outstanding = [] ∧
    (sRest.openError 0 = none ∧
      sRest.virtRead 0 (bits (ctxCmd 3 .free).savebase 0 55)
        (min recordRoom (ctxCmd 3 .free).savesize.toNat) = some [] ∧
      sRest.quarantined savedA.far.id = false ∧ sRest.ctxs.find 9 = some ctxOut) ∧
    (ctxCmd 3 .live).pends 3 = true ∧ (ctxCmd 4 .free).pends 4 = true ∧
    ((ctxCmd 4 .free).prior ≠ .live ∧ (ctxCmd 4 .free).prior ≠ .out) ∧
    ((ctxCmd 4 .out).pends 4 = true ∧ (ctxCmd 4 .out).prior = .out ∧
      (sCtx (ctxCmd 4 .out) tables []).jobs = [] ∧ (sCtx (ctxCmd 4 .out) tables []).runs = []) ∧
    (let s : State := { base r0 .idle with
       reqs := [(4, tlbReq)]
       tlbinv := ⟨0, 1, 0, false, [(0, 2, 0, 3)]⟩ }
     s.tlbinv.done = false ∧ (∃ k ∈ s.tlbinv.waits, k ∈ s.translated s.tlbinv) ∧
      ∀ k ∈ { s with reqs := [] }.tlbinv.waits, k ∉ { s with reqs := [] }.translated s.tlbinv) := by
  refine ⟨fun h => saved_here true h, fun h => saved_here false h, fun va => virt_free _ _ _ va, ?_⟩
  (repeat' apply And.intro) <;> decide

/-- A context with a list and with requests that wait. -/
def ctxFar (q : List FarReq) (w : Tbl FarWait) : Ctx := { ctx0 with far := ⟨5, 0, 1, q, [], w⟩ }

/-- A request that waits for the window, with serial or without. -/
def farW (ser : Bool) : FarWait := ⟨{ pkt (.token 0 1 0) with src := 0, dst := 2 }, ser, 8, none⟩

def sFar (x : Ctx) (now : Nat) : State := { sCtx x tables [(0, r0)] with cycle := now }

/-- The list's oldest serial is 32767 behind the next. -/
def farOld : FarReq := { far1 .busy with fs := 65536 - 32767 }

theorem witness_FarRequestsAreIssuedResentAndAnswered :
    (let x := ctxFar [] [(8, farW true), (9, farW false)]
     (sFar x 0).ctxs.find 0 = some x ∧ (sFar x 0).issues 0 = true ∧ Ctx.reset.prior ≠ .live ∧
      (sFar Ctx.reset 0).issues 0 = false ∧ Ctx.reset.state ≠ .live ∧ x.state = .live ∧
      x.far.waiting.find 8 = some (farW true) ∧ x.far.waiting.find 9 = some (farW false) ∧
      (sFar x 0).waitFrozen (farW true) = false ∧ x.far.windowOpen = true) ∧
    (ctxFar [farOld] []).far.windowOpen = false ∧
    (let q := far1 (.token 0 1 0)
     let x := ctxFar [q] []
     (sFar x 0).ctxs.find 0 = some x ∧ x.farReq 65535 = some q ∧ x.resends = true ∧
      q.expired = false ∧ (sFar x 27999).cycle < q.next ∧ q.next ≤ (sFar x 28000).cycle ∧
      (sFar x 28000).cycle < q.since + 1400000000 ∧
      q.since + 1400000000 ≤ (sFar x 1400000000).cycle ∧
      (sFar x 0).replyCtx { pkt .busy with id := 6 } = none ∧
      (sFar x 0).replyCtx (pkt .busy) = some (0, q) ∧
      (sFar x 0).replyCtx (pkt (.faultReply 3)) = some (0, q) ∧
      (sFar x 0).replyCtx (pkt (.reply 0 0 0 [])) = some (0, q) ∧
      q.packet.body = .token 0 1 0 ∧ q.firing = some (fx 1 0, o1) ∧
      (sFar x 0).trapsAt (fx 1 0) = true) := by
  (repeat' apply And.intro) <;> decide

/-- A result kept under the full serial of a packet, and the slots that hold it. -/
def ent : FarEntry := ⟨65535, 4, 0, 0, 2, none⟩

def slotE : CacheSlot := ⟨5, 65535, 0, 0, none, .entry ent⟩
def slotT : CacheSlot := ⟨5, 65535, 0, 0, none, .tombstone 9⟩

/-- A device with one slot in the cache of quay 0, at a cycle. -/
def sOwn (z : CacheSlot) (st : CtxState) (now : Nat) : State := { base r0 .idle with
  cycle := now
  ctxs := [(0, { ctx0 with state := st, far := ⟨9, 3, 0, [], [], []⟩ })]
  owners := [(0, { Owner.reset with slots := [(2, z)] })]
  dies := (base r0 .idle).dies.edit 0 fun d => { d with ready := true, hbmReady := true }
  quarantine := [(7, 9)] }

def reqB (ea : Nat) : PacketBody := .request 0x78 8 ea 1 0 [] 0 true

theorem witness_OwnersPerformEachFarRequestOnce :
    (pkt (reqB 8)).body = .request 0x78 8 8 1 0 [] 0 true ∧ ((sOwn slotE .free 0).ctx 0).state = .free ∧
    ((sOwn slotE .busy 0).ctx 0).state = .busy ∧ ((sOwn slotE .out 0).ctx 0).state = .out ∧
    (sOwn slotE .live 0).ownerHome 0 0x78 0x10000 = .error 3 ∧
    (sOwn slotE .live 0).ownerHome 0 0x78 8 = .ok 0x40008 ∧
    (sOwn slotE .live 0).awake 0x40008 = true ∧ homeQuay 0x40008 = 0 ∧
    (let t := (sOwn slotE .live 0).noteMark 0 5 65535 2
     ((t.owner 0).entries 5).find? (fun z => z.2.fs = 65535) = some (2, ent) ∧ ent.bar = none) ∧
    (let t := (sOwn slotE .live 0).noteMark 0 5 65536 2
     ((t.owner 0).entries 5).find? (fun z => z.2.fs = 65535) = none ∧
      serialBehind 65535 (((t.owner 0).high 5).getD 65536) = true) ∧
    ((sOwn slotE .busy 0).ownerOf (pkt (reqB 0x10000)) = none ∧
      (sOwn slotE .busy 0).ownerOf (pkt (reqB 8)) = some 0) ∧
    (let t := (sOwn slotE .live 0).noteMark 0 5 65535 2
     ((t.owner 0).entries 5).find? (fun z => z.2.fs = 65536) = none ∧
      serialBehind 65536 (((t.owner 0).high 5).getD 65535) = false ∧
      (t.owner 0).freeSlot = some 0 ∧ t.blockBusy 0x40008 = false ∧ (0x78 : Nat) ≠ opReadBlock ∧
      (0x78 : Nat) ≠ opWriteBlock ∧ opOfCode 0x78 = some .aadd ∧
      (∃ v fl e u, t.perform .aadd 8 0x40008 1 0 = .done v fl e u) ∧
      (pkt (.request opReadBlock 8 8 1 0 [] 0 false)).body = .request opReadBlock 8 8 1 0 [] 0 false ∧
      t.poisoned 0x40008 = false) ∧
    (sOwn slotE .live 0).ownerHome 0 opReadBlock 8 = .ok 0x40008 ∧
    ((sOwn slotE .live 5).cycle < slotE.gone.elim (slotE.last + 1401400000) (fun g => g + 2800000000) ∧
      slotE.last + 1401400000 ≤ (sOwn slotE .live 1401400000).cycle) ∧
    ((sOwn slotE .live 0).owner 0).entries 5 = (2, ent) :: [] ∧
    ((sOwn slotE .live 0).owner 0).slotOf 5 = some slotE ∧
    (sOwn slotE .live 1399999).cycle < slotE.asked + 1400000 ∧
    slotE.asked + 1400000 ≤ (sOwn slotE .live 1400000).cycle ∧
    (pkt .markQuery).body = .markQuery ∧ (sOwn slotE .live 0).markOf 8 = none ∧
    (sOwn slotE .live 0).markOf 9 = some 3 ∧ (pkt .markAnswer).body = .markAnswer ∧
    (pkt .gone).body = .gone ∧
    (let z := { slotE with gone := some 4 }
     ((sOwn z .live 5).owner 0).slotOf 5 = some z ∧ z.gone = some 4 ∧ (5 : Nat) < 4 + 2800000000 ∧
      (4 : Nat) + 2800000000 ≤ (sOwn z .live 2800000004).cycle) ∧
    ((sOwn slotT .live 0).owner 0).ofId 5 = [(2, slotT)] ∧ slotT.body = .tombstone 9 ∧
    (sOwn slotT .live 8).cycle < 9 ∧ 9 ≤ (sOwn slotT .live 9).cycle ∧
    (sOwn slotT .live 8).quarantine.find 7 = some 9 ∧ (384 : Nat) ≤ 384 := by
  (repeat' apply And.intro) <;> first | decide | exact ⟨_, _, _, _, rfl⟩

/-- A cluster of die 0 in a state of its tests, with the die's registers. -/
def clus (st : Health) (withheld testing ready : Bool) : ClusterSt := { ClusterSt.reset with
  state := st
  withheld := withheld
  testing := testing
  ready := ready
  due := 5 }

def die1 (power : Nat) (c : ClusterSt) : DieSt := { DieSt.reset with
  power := power
  ready := true
  hbmReady := true
  ltol := 100
  clusters := [(3, c)] }

def sDie (x : DieSt) (lf : Life) : State := { base r0 .idle with
  cycle := 5
  runs := []
  dies := [(0, x)]
  life := lf }

def life1 : Life := { Life.reset with hmReady := true, devid := 0, pwrdevLtol := 100 }

def life2 (cmd : Nat) (mgmt : Bool) (arg idx : Nat) : Life := { life1 with
  mbBusy := true
  mbCmd := cmd
  mbMgmt := mgmt
  mbaddr := 0
  mbarg := BitVec.ofNat 64 arg
  xmssidx := idx }

/-- A replay of colour 1 whose purge wave is over. -/
def wRep (todo : List Nat) : Wave := ⟨0, [1], [0], 0, todo, none, some 1, 0⟩

def ctxRep : Ctx := { ctx0 with
  colours := [(1, { (default : Colour) with state := .killed })] }

def sRep (todo : List Nat) : State := { base r0 .idle with
  ctxs := [(0, ctxRep)]
  waves := [(6, wRep todo)] }

def d0 : DieSt := die1 0 (clus .normal false false true)

theorem hands_out (m : Nat) (h : m < 1023) (h0 : m ≠ 0) : ctxRep.mayHand (1 + m) = true := by
  have e : ctxRep.colours = [(1, { (default : Colour) with state := .killed })] := rfl
  have c : (1 : Nat) ≠ 1 + m := by omega
  simp only [Ctx.mayHand, Ctx.colour, e, Tbl.find, if_neg c, Option.getD_none, Colour.fresh]
  simp
  omega

theorem replacement_exists (n : Nat) : ∃ new, ctxRep.replacement n = some new := by
  rw [← Option.isSome_iff_exists, Ctx.replacement, List.find?_isSome]
  simp only [List.mem_map, upTo_eq, List.mem_range]
  by_cases h : Config.pickColour n % 1023 = 0
  · exact ⟨_, ⟨1, by decide, rfl⟩, hands_out _ (Nat.mod_lt _ (by decide)) (by omega)⟩
  · exact ⟨_, ⟨0, by decide, rfl⟩, hands_out _ (Nat.mod_lt _ (by decide)) (by omega)⟩

theorem witness_DeviceEventsKeepTheDevice :
    (sDie d0 life1).dies.find (15 / 16) = some d0 ∧ DieSt.reset.hbmReady = false ∧
    1 < (die1 2 (clus .normal false false true)).power ∧
    (die1 1 (clus .normal false false true)).power ≤ 1 ∧ d0.hbmReady = true ∧
    (sRep []).waves.find 6 = some (wRep []) ∧ (wRep []).replay = some 1 ∧
    (sRep []).runs.find (wRep []).run = some r0 ∧ (sRep []).ctxs.find r0.ctx = some ctxRep ∧
    (wRep [1]).todo ≠ [] ∧ (sRep []).asksColour (wRep []) = true ∧
    (sRep []).colnewFirst (wRep []) = false ∧ (sRep []).askLevel (wRep []) < 8 ∧ r0.state = .running ∧ r0.halted = false ∧
    ctxRep.roomAt (ctxRep.colour 1).level = true ∧
    (∃ new, ctxRep.replacement (sRep []).nextId = some new) ∧ (ctxRep.colour 1).state ≠ .free ∧
    (sDie d0 life1).testDue 0 (clus .normal false false true) = true ∧
    d0.clusters.find 3 = some (clus .normal false false true) ∧
    (∀ z ∈ d0.clusters, z.1 ≠ 3 → z.2.holdsTest (clus .normal false false true) = false) ∧
    (clus .suspect false false true).holdsTest (clus .normal false false true) = true ∧
    (clus .suspect true true true).testing = true ∧ (clus .normal true false true).testing = false ∧
    (sDie (die1 0 (clus .normal true false true)) life1).planesAt 0 3 = [] ∧
    (base r0 .idle).planesAt 0 0 ≠ [] ∧ (clus .retired false false false).state = .retired ∧
    (sDie d0 life1).life.inA4 = false ∧ { life1 with inA4 := true }.inA4 = true ∧
    (base r0 .idle).links.find 15 = some ⟨0, 0, 0, false⟩ ∧
    (sDie d0 life1).life.devid ≠ 255 ∧ Life.reset.devid = 255 ∧ DieSt.reset.ready = false ∧
    (∃ p, p = powerFor (min d0.ltol life1.pwrdevLtol) (!((sDie d0 life1).partsOn 0).isEmpty) ∧
      (sDie d0 life1).idleDie 0 = true ∧ d0.power < p ∧ d0.ready = true) ∧
    (base r0 .idle).idleDie 0 = false ∧
    (sDie { die1 3 (clus .normal false false true) with called := true } life1).dieCalled 0 = true ∧
    (sDie (die1 3 (clus .normal false false true)) life1).dieCalled 0 = false ∧ (die1 3 (clus .normal false false true)).power = 3 ∧
    ((die1 3 (clus .normal false false true)).slept + 1400 ≤ 1400 ∧
      (sDie (die1 3 (clus .normal false false true)) life1).cycle <
        (die1 3 (clus .normal false false true)).slept + 1400) ∧
    (life2 6 true 0 0).mbCmd ≠ 1 ∧
    ((sDie d0 (life2 1 false 0 0)).buffer 0 131072 4096 = true ∧
      (sDie d0 (life2 1 false 0 0)).buffer 1 131072 4096 = false) ∧
    1048576 ≤ (life2 2 false 0 1048576).xmssidx ∧ (life2 2 false 0 1048575).xmssidx < 1048576 ∧
    (sDie d0 (life2 2 false 0 0)).buffer 0 4096 1 = true ∧
    (sDie d0 (life2 2 false 0 0)).buffer 0 32 1 = true ∧ (life2 3 false 1 0).mbarg.toNat ≠ 0 ∧
    (sDie d0 (life2 3 false 1 0)).buffer 0 1 1 = true ∧
    (sDie d0 (life2 4 false 1 0)).buffer 0 64 1 = true ∧
    (life2 5 false 0 0).mbMgmt = false ∧ (life2 5 true 0 0).mbMgmt = true ∧
    { sDie (die1 3 (clus .normal false false true)) (life2 5 true 0 0) with
      ctxs := State.reset.ctxs }.mayPowerOff = true ∧ (base r0 .idle).mayPowerOff = false ∧
    (254 : BitVec 8) ≠ 255 ∧ (∃ c ∈ (base r0 .idle).ctxs, c.2.state ≠ .free) ∧
    (∀ c ∈ State.reset.ctxs, c.2.state = .free) ∧
    (0x6004 % 8 ≠ 0 ∧ 0x5FF8 < 0x6000 ∧ 0x7000 ≤ 0x7000) ∧
    (0 < ((1 : Word).extractLsb' 0 8).toNat ∧ ((6 : Word).extractLsb' 0 8).toNat ≤ 6) := by
  (repeat' apply And.intro) <;> first | decide | exact replacement_exists _ | exact ⟨_, rfl, by decide⟩

/-! ## Elements and homes -/

/-- An element whose slot 0 holds MOV and slot 1 THROTTLE with a window of one, and whose age limit
is 2,048 cycles; a token of slot 0 waits since cycle 0. -/
def eA : Elem := { Elem.withWord 0x01008500A32F0000 with
  slots := [0x01008500A32F0000, encode (.throttle o1 0)] ++ List.replicate 30 0
  header := 1
  acts := []
  waiting := [⟨0, 0, 0, 0, Tok.data 5, 0, none⟩] }

def rA (e : Elem) : Run := { r0 with elems := [(2, e)] }

def sA (e : Elem) (now : Nat) : State := { base (rA e) .idle with cycle := now }

def flit (colour : Nat) (cmd : Option CmdMsg) : Flit :=
  ⟨0, 2, 2, 0, 0, 0, colour, 0, Tok.data 5, cmd, false, false⟩

def sFl (x : Run) (fs : Tbl Flit) : State := { base x .idle with
  flits := fs
  ctxs := [(0, { ctx0 with colours := [(1, { (default : Colour) with state := .killed })] })] }

/-- The firing of the waiting token. -/
def candA : Cand := ⟨0, 0, 0, 0, [(0, Tok.data 5)]⟩

/-- An open activation with two buffered stores, and the same committed. -/
def store0 (home : Nat) : Store := ⟨fx 1 0, o1, .write, home, home, 8, 1, 0, 3, none, false, none, false⟩

def actA (done : Bool) (ss : List Store) : Act := { Act.open_ 4 0 0 0 with committed := done, stores := ss }

def eAct (a : Act) : Elem := { eA with waiting := [], acts := [a] }

/-- The element's launch with the tile of site 0 owned by the engines. -/
def sAct (a : Act) (now : Nat) : State := { sA (eAct a) now with
  runs := [(0, { rA (eAct a) with tiles := [(0, ⟨true, 0, [], 0, 0, none⟩)] })] }

/-- A wave of colour 1 with places to reach and the firing that waits. -/
def waveA (todo : List Nat) : Wave := ⟨0, [1], [0], 0, todo, some (fx 1 0, o1), none, 0⟩

/-- A request of the pool for a colour of a level, and its context with floors. -/
def colW (level : Nat) : ColWait := ⟨level, 0, fx 0 0, o1⟩

def ctxW (w : List ColWait) (cs : Tbl Colour) : Ctx := { ctx0 with waiting := w, colours := cs }

def sW (w : List ColWait) (cs : Tbl Colour) : State := { base r0 .idle with ctxs := [(0, ctxW w cs)] }

def thr : Firing := { fx 1 0 with slot := 1 }

/-- A WAITT whose promise names handle 1 of lighter 0 and the time 5. -/
def waitF : Firing := fx 0x0400000000000005 0

def eW : Elem := { eA with waitts := [(7, waitF)] }

/-- The copies of the cycle counter stand at most two cycles ahead (R9). -/
theorem clock_at (now : Nat) : ∃ j < 3, (sA eW now).clockAt 0 2 = now + j :=
  ⟨Config.skew 0 0 % 3, Nat.mod_lt _ (by decide), rfl⟩

/-- The promise has not passed before cycle 3, and has from cycle 5 on, also with the slack. -/
theorem promise_passes :
    duePassed ((sA eW 2).clockAt 0 2) (waitF.lv.extractLsb' 0 56).toNat = false ∧
    duePassed ((sA eW 5).clockAt 0 2) (waitF.lv.extractLsb' 0 56).toNat = true ∧
    duePassed ((sA eW 2).clockAt 0 2) ((waitF.lv.extractLsb' 0 56).toNat + ctx0.regs.slack) = false ∧
    duePassed ((sA eW 90000).clockAt 0 2) ((waitF.lv.extractLsb' 0 56).toNat + ctx0.regs.slack) = true := by
  obtain ⟨j, hj, e⟩ := clock_at 2
  obtain ⟨k, hk, f⟩ := clock_at 5
  obtain ⟨l, hl, g⟩ := clock_at 90000
  rw [e, f, g]
  clear e f g
  refine ⟨?_, ?_, ?_, ?_⟩
  · revert j; decide
  · revert k; decide
  · revert j; decide
  · revert l; decide

theorem witness_ElementsTakeTokensFireAndCommit :
    (duePassed ((sA eW 2).clockAt 0 2) (waitF.lv.extractLsb' 0 56).toNat = false ∧
      duePassed ((sA eW 5).clockAt 0 2) (waitF.lv.extractLsb' 0 56).toNat = true ∧
      duePassed ((sA eW 2).clockAt 0 2) ((waitF.lv.extractLsb' 0 56).toNat + ctx0.regs.slack) = false ∧
      duePassed ((sA eW 90000).clockAt 0 2) ((waitF.lv.extractLsb' 0 56).toNat + ctx0.regs.slack) =
        true) ∧
    (let a := { actA true [] with commitAt := 1 }
     (sAct a 1).justCommitted 0 2 [0] = true ∧ (sAct a 2).justCommitted 0 2 [0] = false ∧ a.commitAt < 2) ∧
    ((sA eA 3).urgentBefore 5 0 0 2 = false ∧
      State.urgentBefore { sA eA 3 with flits := [(3, { flit 0 none with src := 0, tok := { Tok.data 0 with kind := .kill } })] } 5 0
        0 2 = true) ∧
    ((sW [colW 7] []).replayFirst 0 7 0 = false ∧
      State.replayFirst { sW [colW 7] [] with waves := [(6, ⟨0, [1], [0], 0, [], none, some 1, 0⟩)] } 0 0 3 =
        true) ∧
    nbit eA.badSlots 0 = false ∧
    (sFl (rA eA) [(3, flit 0 none)]).runs.find 0 = some (rA eA) ∧ (rA eA).elems.find 2 = some eA ∧
    (sFl (rA eA) [(3, flit 0 none)]).flits.find 3 = some (flit 0 none) ∧ (flit 0 none).run = 0 ∧
    (flit 0 none).dst = 2 ∧ (rFr .frozen .parked none).state = .frozen ∧ (rA eA).state ≠ .frozen ∧
    (sFl (rA eA) [(2, flit 0 none), (3, flit 0 none)]).behind 3 (flit 0 none) = true ∧
    (sFl (rA { eA with spillHeld := [flit 0 none] }) []).backPressed (flit 0 none) = true ∧
    (sFl (rA eA) [(3, flit 0 none)]).behind 3 (flit 0 none) = false ∧
    (sFl (rA eA) [(3, flit 0 none)]).backPressed (flit 0 none) = false ∧
    (rA eA).deaf (partOf 2) = false ∧
    ((sFl (rA eA) []).ctx (rA eA).ctx).resolve (flit 1 none).colour = (flit 1 none).colour ∧
    (flit 0 (some ⟨0, 1, 0, 0, 0, 0⟩)).cmd = some ⟨0, 1, 0, 0, 0, 0⟩ ∧
    (flit 0 none).port < 3 ∧ { flit 0 none with port := 3 }.port = 3 ∧ (flit 0 none).tok.kind ≠ .command ∧ (flit 0 none).outer = false ∧
    (((sFl (rA eA) []).ctx 0).colour 1).state = .killed ∧
    (((sFl (rA eA) []).ctx 0).colour 0).state ≠ .killed ∧ siteKind (siteOf 2) = .lace ∧
    (eA.reads 0).reads 0 = true ∧ eA.isThrottle 0 = false ∧ eA.inSet (setOf 0 0 0) < 8 ∧
    eA.setSpills (setOf 0 0 0) = false ∧ (sA eA 3).alive 0 2 = true ∧ eA.busyNow 3 = false ∧
    eA.candidates 0 = [] ∧ eA.candidates 3 = [candA] ∧
    decode ((sA eA 3).slotWord ((sA eA 3).firingOf 0 2 candA)) = .ok (.mov o1 0) ∧
    (sA eA 3).fate ((sA eA 3).firingOf 0 2 candA) (.mov o1 0) =
      .execute ((sA eA 3).firingOf 0 2 candA) ∧
    (sA eA 3).tooLate ((sA eA 3).firingOf 0 2 candA) (.mov o1 0) = false ∧
    (eAct (actA false [])).act 4 = some (actA false []) ∧
    (sAct (actA true []) 0).commitReady 0 2 (actA true []) = false ∧
    (let a := actA false [store0 (tileHome 0 0 0 0 0)]
     (sAct a 0).commitReady 0 2 a = true ∧
      (a.stores.find? fun z => (sAct a 0).engineOwned z.home) = some (store0 (tileHome 0 0 0 0 0))) ∧
    (let a := actA false [store0 0x40000, store0 0x40008]
     (sAct a 0).commitReady 0 2 a = true ∧ (∀ z ∈ a.stores, (sAct a 0).engineOwned z.home = false) ∧
      a.wrs = [] ∧ a.owns = [] ∧ (sAct a 0).ctxs.find 0 = some ((sAct a 0).ctx 0) ∧
      (sortStores a.stores)[1]? = some (store0 0x40000)) ∧
    (let h : Held := ⟨fx 1 0, o1, Tok.data 1, 3, 8, 4, .sys⟩
     ((({ eA with helds := [(6, h)] }).helds.find? fun y => y.1 = 6) = some (6, h)) ∧ h.req ≠ 0 ∧
      (sA eA 0).reqs.find h.req = none) ∧
    (let a := actA true []
     a.committed = true ∧ (eAct a).noneParked a.colour a.iter = true ∧ (eAct a).waiting = [] ∧
      (sAct a 0).underWay 0 2 4 = false) ∧
    (let a := actA false []
     (sA (eAct a) 2048).runs = [(0, rA (eAct a))] ∧ (eAct a).acts = [a] ∧
      (eAct a).ageLimit = some 2048 ∧ a.aged = false ∧ 2048 ≤ (sA (eAct a) 2048).cycle - a.opened ∧
      (sA (eAct a) 2047).cycle - a.opened < 2048 ∧ (sA (eAct a) 2048).alive 0 2 = true) ∧
    (2 ∈ (waveA [2]).todo ∧ 3 ∉ (waveA [2]).todo ∧ (waveA [2]).todo ≠ [] ∧ (waveA []).todo = [] ∧
      (waveA []).firing = some (fx 1 0, o1) ∧ (fx 1 0).colour ∉ (waveA []).colours ∧
      (fx 1 0).colour ∈ { waveA [] with colours := [0] }.colours ∧
      (sA eA 3).killHeld (waveA [2]) 2 = false ∧
      State.killHeld (sA { eA with spillHeld := [flit 0 none] } 3) { waveA [2] with src := 3 } 2 = true) ∧
    ((sW [] []).ctxs.find 0 = some (ctxW [] []) ∧ (sW [] []).nextColnew (ctxW [] []) = none ∧
      (sW [colW 7] []).nextColnew (ctxW [colW 7] []) = some (colW 7) ∧
      (ctxW [colW 7] []).roomAt 7 = true ∧ (ctxW [colW 7] []).mayHand 1023 = true ∧
      (ctxW [colW 7] []).mayHand 1024 = false ∧ (colW 7).level < 8 ∧
      ({ ctxW [] [] with regs := { ctx0.regs with cfl := [0, 1024] } }).roomAt 0 = false) ∧
    (let cs : Tbl Colour := [(3, { Colour.fresh with state := .draining })]
     ((ctxW [] cs).colour 3).state = .draining ∧ (sW [] cs).colourClear 0 3 = true ∧
      (sW [] cs).inPurge 0 3 = false ∧
      State.inPurge { sW [] cs with waves := [(6, { waveA [2] with colours := [3], firing := none })] } 0 3 = true ∧
      (cs.map Prod.fst).Nodup ∧ ((ctxW [] cs).colour 4).state ≠ .draining) ∧
    (let e := { eA with throttled := [thr] }
     e.throttleOf 1 = some (o1, 1) ∧ (e.throttled.find? fun g => e.mayPass 1 1 g) = some thr) ∧
    (let e := { eA with waitts := [(7, waitF)] }
     (e.waitts.find? fun y => y.1 = 7) = some (7, waitF) ∧
      (sA e 5).copyOf 0 2 waitF.lv = none ∧ (sA e 5).haltedSite 0 2 = false ∧
      (State.copyOf { sA e 5 with dies := sCopy.dies } 0 2 waitF.lv).isSome = true) := by
  refine ⟨promise_passes, ?_⟩
  (repeat' apply And.intro) <;> first | decide | rfl

/-! A store of one channel group: 4 channels, a table of 64 entries at 0x1000, a pool at 0x2000 and a
stack at 0x8000, its descriptor at 0; a camera without motion in front of it, focal lengths 1. -/

def storeOf (mode : Nat) : StoreDesc where
  ox := 0
  oy := 0
  oz := 0
  invvoxel := 0x3F800000
  dimx := 8
  dimy := 8
  dimz := 8
  f := 4
  mode := mode
  carvew := 1
  t := 6
  tablebase := 0x1000
  poolbase := 0x2000
  stackbase := 0x8000
  poolcount := 2
  prior := []

/-- Centre 0, scales 1, depths from 0.5 to 64, an image of 8 by 8, the identity rotation. -/
def camA : List Word :=
  [0, 0, 0, 0, 0x3F800000, 0x3F800000, 0x3F000000, 0x42800000, 0x41000000, 0x41000000,
    0x3F800000, 0, 0, 0, 0x3F800000, 0, 0, 0, 0x3F800000, 0, 0, 0, 0]

/-- A PSCAT at the element of site 26 at a step, for pixel (1, 2) at depth 2, which is cell (3, 5, 2). -/
def scat (carve : Bool) (p : Prog) : Command :=
  { cmd 26 (encode (.pscat (c1 26) 0 carve false)) 0x4000000000020001 { p with words := camA } with
    state := .running }

def rSc (mode : Nat) (c : Command) : Run :=
  { rE c [] with projs := [(26, ⟨0, 0x3F000000, some (storeOf mode)⟩)] }

def sSc (mode : Nat) (c : Command) (m : List Host.Cell) : State :=
  { base (rSc mode c) (.engine 0 3) with mem := m }

def stage (k : Nat) (nums : List Nat) : Prog := { Prog.zero with j := k, nums := nums }

/-- The entry of the cell's brick at probe 0, and its block. -/
theorem test_brick_entry :
    (scat false (stage stClaim [])).target (storeOf 0) = some (3, 5, 2) ∧
    entryAddr (storeOf 0) (probeIx 6 (brickOf (3, 5, 2)) 0) = 0x10D8 := by decide

def tablesAnd (cs : List Host.Cell) : List Host.Cell := tables ++ cs

theorem scatter_at (carve : Bool) (k : Nat) (nums : List Nat) (ms : List Host.Cell)
    (h : ((scat carve (stage k nums)).target (storeOf 0)) = some (3, 5, 2))
    (w : (rSc 0 (scat carve (stage k nums))).works 0 3 (scat carve (stage k nums)) = true)
    (d : decode (scat carve (stage k nums)).msg.word = .ok (.pscat (c1 26) 0 carve false)) :
    ScatterAt (sSc 0 (scat carve (stage k nums)) (tablesAnd ms)) 3 k 0
      (rSc 0 (scat carve (stage k nums))) (scat carve (stage k nums)) (storeOf 0) (3, 5, 2) :=
  ⟨rfl, rfl, rfl, w, rfl, ⟨_, _, _, _, d⟩, rfl, by decide, by decide, rfl, h⟩

/-- The entry of the cell's brick: allocated as brick 1. -/
def entF : List Host.Cell := [(0x410D8, 1), (0x410DC, 4), (0x410DF, 0xC0)]

def isGot {α : Type} : Got α → Bool
  | .got _ _ => true
  | _ => false

def gotVal {α : Type} [Inhabited α] : Got α → α
  | .got a _ => a
  | _ => default

def gotState {α : Type} : Got α → State
  | .got _ s => s
  | .stop s => s
  | .wait => State.reset

theorem got_eq {α : Type} [Inhabited α] {x : Got α} (h : isGot x = true) :
    x = .got (gotVal x) (gotState x) := by
  cases x <;> first | rfl | cases h

theorem got_at {α : Type} [Inhabited α] {x : Got α} {a : α} (h : isGot x = true) (v : gotVal x = a) :
    x = .got a (gotState x) := v ▸ got_eq h

theorem ok_of {α β : Type} {x : Except α β} (h : x.isOk = true) : ∃ b, x = .ok b := by
  cases x with
  | ok b => exact ⟨b, rfl⟩
  | error a => cases h

def errOf {α β : Type} : Except α β → Option α
  | .error a => some a
  | .ok _ => none

theorem error_of {α β : Type} {x : Except α β} {a : α} (h : errOf x = some a) : x = .error a := by
  cases x with
  | ok b => cases h
  | error b => exact congrArg _ (Option.some.inj h)

/-- An update that finds its entry, reads the record, writes it and counts, in a store whose other records
are empty. -/
def cUp : Command := scat false { stage stUpdate [1] with blks := [⟨List.replicate 64 0, 0x0B⟩] }

def sUp : State := sSc 0 cUp (tablesAnd entF)

def thereUp : Got Bool := sUp.stillThere 0 3 cUp (storeOf 0) (3, 5, 2) 1

def goneUp : Got Bool := (sSc 0 cUp tables).stillThere 0 3 cUp (storeOf 0) (3, 5, 2) 1

def readUp : Got (List Blk) := (gotState thereUp).readRecord 0 3 cUp (storeOf 0) 1 (3, 5, 2)

def recUp : Rec × Nat := (recOf 4 (gotVal readUp)).update 0 (cUp.update 4)

def changeUp : Got Unit := (gotState readUp).changeRecord 0 3 cUp (recordAddr (storeOf 0) 1 (3, 5, 2)) true
  (recUp.1.blocks 4 (gotVal readUp)) (gotVal readUp) 4

/-- A carve of the cell that the march has found last. -/
def cCa : Command := scat true { stage stCarve [1] with ints := [3, 5, 1] }

def sCa : State := sSc 0 cCa (tablesAnd entF)

def thereCa : Got Bool := sCa.stillThere 0 3 cCa (storeOf 0) (3, 5, 1) 1

def goneCa : Got Bool := (sSc 0 cCa tables).stillThere 0 3 cCa (storeOf 0) (3, 5, 1) 1

def readCa : Got (List Blk) := (gotState thereCa).readRecord 0 3 cCa (storeOf 0) 1 (3, 5, 1)

def changeCa : Got Unit := (gotState readCa).changeRecord 0 3 cCa (recordAddr (storeOf 0) 1 (3, 5, 1)) false
  (((recOf 4 (gotVal readCa)).carve 1).blocks 4 (gotVal readCa)) (gotVal readCa) 5

def recA : Rec := ⟨4, 1, 7, 0, true, false, 0x40000000, [4], [0]⟩

def updA (w : Nat) : Update := ⟨w, [2], 8, 1, 0x40000000⟩

/-- A deferred read that a write has satisfied. -/
def ldvR : Req :=
  ⟨fx 8 0, o1, .ldv, .read, 8, 0x40008, 8, 0, 0, 1, none, .satisfied, [], none⟩

def sLdv (rs : Tbl Req) : State := { base r0 .idle with reqs := rs }

def sWalk (x : Run) (ea : Nat) : State := { base x .idle with walks := [(5, ⟨fx 8 0, ea, 1⟩)] }

/-- More misses of a die than it walks at once. -/
def sWalks : State := { base r0 .idle with
  walks := (upTo 65).map fun k => (k, ⟨fx 8 0, 0x10000 * (k + 1), 1⟩) }

theorem store_home (c : Command) (ms : List Host.Cell) (e a : Nat)
    (h : a % 64 = 0 ∧ (sSc 0 c (tablesAnd ms)).engineHome 0 26 (blockAt e) needRead = .home a ∧
      (sSc 0 c (tablesAnd ms)).engineHome 0 26 (blockAt e) needWrite = .home a ∧ isTileHome a = false ∧
      ((sSc 0 c (tablesAnd ms)).sideOf a).poison = false ∧
      (sSc 0 c (tablesAnd ms)).blockBusy a = false ∧
      (sSc 0 c (tablesAnd ms)).outsideCopy 0 a needWrite = false) :
    StoreHome (sSc 0 c (tablesAnd ms)) 0 26 e a := by
  obtain ⟨h1, h2, h3, h4, h5, h6, h7⟩ := h
  exact ⟨h1, h2, h3, h4, h5, h6, h7⟩

/-- A block of the context's page, which the cache of the element's cluster holds, at a place of the page. -/
theorem cached_home (c : Command) (ms : List Host.Cell) (e : Nat)
    (h : e % 64 = 0 ∧ (0x40000 + e) % 64 = 0 ∧ (sSc 0 c (tablesAnd ms)).untabled 0 e = none ∧
      (sSc 0 c (tablesAnd ms)).engineHit 0 26 (e % 2 ^ 55) = some ⟨0, 0, 0, 65536, 0x40000, true, true⟩ ∧
      e % 2 ^ 55 = e ∧ isTileHome (0x40000 + e) = false ∧
      ((sSc 0 c (tablesAnd ms)).sideOf (0x40000 + e)).poison = false ∧
      (sSc 0 c (tablesAnd ms)).blockBusy (0x40000 + e) = false ∧
      (sSc 0 c (tablesAnd ms)).outsideCopy 0 (0x40000 + e) needWrite = false)
    (k : (sSc 0 c (tablesAnd ms)).engineFill 0 26 e = sSc 0 c (tablesAnd ms)) :
    CachedHome (sSc 0 c (tablesAnd ms)) 0 26 e (0x40000 + e) := by
  obtain ⟨h1, h2, h3, h4, h5, h6, h7, h8, h9⟩ := h
  exact ⟨⟨h1, h2⟩, h3, ⟨_, h4, rfl, rfl, by show 0x40000 + e = 0x40000 + (e % 2 ^ 55 - 0); omega⟩, k, h6, h7, h8, h9⟩

theorem three {P : Nat → Prop} (h0 : P 0) (h1 : P 1) (h2 : P 2) : ∀ i < 3, P i := by
  intro i h
  have : i = 0 ∨ i = 1 ∨ i = 2 := by omega
  rcases this with rfl | rfl | rfl <;> assumption

/-- The places of a record's blocks, of its entry and of the counters, for an update and for a carve. -/
theorem update_homes :
    CachedHome sUp 0 26 (blockAt 0x10D8) 0x410C0 ∧
    (∀ i < 3, CachedHome sUp 0 26 (recordAddr (storeOf 0) 1 (3, 5, 2) + 64 * i) (0x46D40 + 64 * i)) ∧
    CachedHome sUp 0 26 (blockAt (counterAddr (sUp.psaddr 0 cUp))) 0x40080 :=
  ⟨cached_home _ _ 0x10C0 (by decide) rfl,
    three (cached_home _ _ 0x6D40 (by decide) rfl) (cached_home _ _ 0x6D80 (by decide) rfl)
      (cached_home _ _ 0x6DC0 (by decide) rfl),
    cached_home _ _ 0x80 (by decide) rfl⟩

theorem carve_homes :
    CachedHome sCa 0 26 (blockAt 0x10D8) 0x410C0 ∧
    (∀ i < 3, CachedHome sCa 0 26 (recordAddr (storeOf 0) 1 (3, 5, 1) + 64 * i) (0x46140 + 64 * i)) ∧
    CachedHome sCa 0 26 (blockAt (counterAddr (sCa.psaddr 0 cCa))) 0x40080 :=
  ⟨cached_home _ _ 0x10C0 (by decide) rfl,
    three (cached_home _ _ 0x6140 (by decide) rfl) (cached_home _ _ 0x6180 (by decide) rfl)
      (cached_home _ _ 0x61C0 (by decide) rfl),
    cached_home _ _ 0x80 (by decide) rfl⟩

/-- A scatter that pops a brick from a stack of one, and from an empty one. -/
def cPop : Command := scat false (stage stPop [])

def sPop : State := sSc 0 cPop (tablesAnd [(0x40080, 1)])

def sPop0 : State := sSc 0 cPop (tablesAnd [])

theorem used_pop : sPop.used 0 26 [128] = sPop ∧ sPop.used 0 26 [128, 0x8000] = sPop ∧
    sPop0.used 0 26 [128] = sPop0 := ⟨rfl, rfl, rfl⟩

theorem pop_homes :
    StoreHome sPop 0 26 128 0x40080 ∧ StoreHome (sPop.used 0 26 [128]) 0 26 0x8000 0x48000 ∧
    StoreHome (sPop.used 0 26 [128, 0x8000]) 0 26 128 0x40080 ∧
    StoreHome (sPop0.used 0 26 [128]) 0 26 0x10D8 0x410C0 := by
  rw [used_pop.1, used_pop.2.1, used_pop.2.2]
  exact ⟨store_home _ _ _ _ (by decide), store_home _ _ _ _ (by decide),
    store_home _ _ _ _ (by decide), store_home _ _ _ _ (by decide)⟩

/-- An entry that is empty and one that is not; a stack of bricks that is empty and one that is not. -/
theorem witness_HomesServeScattersReadersAndWalks :
    Memory.wf (tablesAnd [(0x410DF, 0xC0)]) = true ∧
    (ScatterAt (sSc 0 (scat false (stage stClaim [])) (tablesAnd [])) 3 stClaim 0
        (rSc 0 (scat false (stage stClaim []))) (scat false (stage stClaim [])) (storeOf 0) (3, 5, 2) ∧
      StoreHome (sSc 0 (scat false (stage stClaim [])) (tablesAnd [])) 0 26 0x10D8 0x410C0 ∧
      entryState ((sSc 0 (scat false (stage stClaim [])) (tablesAnd [])).num (0x410C0 + 0x10D8 % 64) 8) =
        0 ∧
      entryState ((sSc 0 (scat false (stage stClaim [])) (tablesAnd [(0x410DF, 0xC0)])).num
        (0x410C0 + 0x10D8 % 64) 8) ≠ 0) ∧
    (ScatterAt sPop 3 stPop 0 (rSc 0 cPop) cPop (storeOf 0) (3, 5, 2) ∧
      StoreHome sPop 0 26 (counterAddr (sPop.psaddr 0 cPop)) 0x40080 ∧
      blockAt (counterAddr (sPop.psaddr 0 cPop)) = 128 ∧ sPop0.num 0x40080 8 = 0 ∧
      sPop.num 0x40080 8 = 1 ∧ blockAt (stackAddr (storeOf 0) (1 - 1)) = 0x8000 ∧
      StoreHome (sPop.used 0 26 [128]) 0 26 (stackAddr (storeOf 0) (1 - 1)) 0x48000 ∧
      StoreHome (sPop.used 0 26 [128, 0x8000]) 0 26 128 0x40080 ∧
      StoreHome (sPop0.used 0 26 [128]) 0 26 0x10D8 0x410C0) ∧
    (ScatterAt (sSc 0 (scat false (stage stPublish [1048575])) (tablesAnd [])) 3 stPublish 0
        (rSc 0 (scat false (stage stPublish [1048575]))) (scat false (stage stPublish [1048575]))
        (storeOf 0) (3, 5, 2) ∧
      (scat false (stage stPublish [1048575])).prog.nums[0]? = some 1048575 ∧ 1048575 < 1048576) ∧
    (cUp.prog.nums[0]? = some 1 ∧ goneUp = .got false (gotState goneUp) ∧
      thereUp = .got true (gotState thereUp) ∧ readUp = .got (gotVal readUp) (gotState readUp) ∧
      changeUp = .got () (gotState changeUp) ∧ cUp.carves = false ∧
      (scat true (stage stUpdate [1])).carves = true) ∧
    (cCa.prog.lastCell = (3, 5, 1) ∧ cCa.prog.nums[0]? = some 1 ∧
      goneCa = .got false (gotState goneCa) ∧ thereCa = .got true (gotState thereCa) ∧
      readCa = .got (gotVal readCa) (gotState readCa) ∧ changeCa = .got () (gotState changeCa)) ∧
    (ScatterAt sUp 3 stUpdate 0 (rSc 0 cUp) cUp (storeOf 0) (3, 5, 2) ∧
      ScatterAt sCa 3 stCarve 0 (rSc 0 cCa) cCa (storeOf 0) (3, 5, 2) ∧ Memory.wf sUp.mem = true ∧
      Memory.wf sCa.mem = true ∧ (storeOf 0).f ≤ 128 ∧ 3 = 1 + sumBlocks 4 + viewBlocks 4 ∧
      (entryAddr (storeOf 0) (probeIx (storeOf 0).t (brickOf (3, 5, 2)) cUp.prog.n) = 0x10D8 ∧
        entryAddr (storeOf 0) (probeIx (storeOf 0).t (brickOf (3, 5, 1)) cCa.prog.n) = 0x10D8) ∧
      (∀ s ∈ [sUp, sCa], entryState (s.num (0x410C0 + 0x10D8 % 64) 8) = 3 ∧
        entryBrick (s.num (0x410C0 + 0x10D8 % 64) 8) = 1 ∧
        entryKey (s.num (0x410C0 + 0x10D8 % 64) 8) = brickKey (brickOf (3, 5, 2)) ∧
        entryKey (s.num (0x410C0 + 0x10D8 % 64) 8) = brickKey (brickOf (3, 5, 1))) ∧
      (∀ i < 3, 0x46D40 + 64 * i ≠ 0x40080 ∧ 0x46140 + 64 * i ≠ 0x40080)) ∧
    (nbit (recA.update 0 (updA 1)).2 5 = false ∧
      nbit ((recA.update 0 (updA 1)).1.update 0 (updA 2)).2 5 = false ∧
      nbit (recA.update 0 (updA 2)).2 5 = false ∧
      nbit ((recA.update 0 (updA 2)).1.update 0 (updA 1)).2 5 = false ∧
      (updA 1).fq.length = recA.sums.length ∧ recA.seen = true ∧
      (updA 4).beats recA 2 = true ∧ (updA 3).beats recA 2 = false) ∧
    ((sLdv [(3, ldvR), (4, { ldvR with extra := 9 })]).reqs.find 4 = some { ldvR with extra := 9 } ∧
      ldvR.state = .satisfied ∧
      (∃ p ∈ (sLdv [(3, ldvR), (4, { ldvR with extra := 9 })]).reqs, p.2.state = .satisfied ∧
        blockIx p.2.home = blockIx ldvR.home ∧ p.2.arrival < Req.arrival { ldvR with extra := 9 }) ∧
      (∀ p ∈ (sLdv [(4, ldvR)]).reqs, p.2.state = .satisfied → blockIx p.2.home = blockIx ldvR.home →
        ldvR.arrival ≤ p.2.arrival) ∧ ldvR.size ∈ [1, 2, 4, 8] ∧ (sLdv [(4, ldvR)]).ownStores ldvR.firing = [] ∧
      atOrPast ((sLdv []).sideOf ldvR.home).version (ldvR.data.extractLsb' 0 16).toNat = true ∧
      ((sLdv []).sideOf ldvR.home).poison = false) ∧
    ((sWalk r0 8).walks.find 5 = some ⟨fx 8 0, 8, 1⟩ ∧
      ((sWalk (rFr .frozen .parked none) 8).run 0).state = .frozen ∧
      ((sWalk r0 8).run 0).state ≠ .frozen ∧ (sWalk r0 8).walkRuns ⟨fx 8 0, 8, 1⟩ = true ∧
      sWalks.walks.find 64 = some ⟨fx 8 0, 0x410000, 1⟩ ∧
      sWalks.walkRuns ⟨fx 8 0, 0x410000, 1⟩ = false ∧
      (sWalk r0 0x10000).walks = [(5, ⟨fx 8 0, 0x10000, 1⟩)] ∧
      (sWalk r0 0x10000).logBusy 0 = false ∧
      State.logBusy { sWalk r0 0x10000 with reqs := [(4, { ldvR with home := 0x40000 })] } 0 = true ∧
      (∃ l, (sWalk r0 8).walk 0 8 = .ok l) ∧ (sWalk r0 0x10000).walk 0 0x10000 = .error (3, 3)) := by
  refine ⟨by decide, ⟨scatter_at _ _ _ _ (by decide) (by decide) (by decide),
      store_home _ _ _ _ (by decide), by decide, by decide⟩,
    ⟨scatter_at _ _ _ _ (by decide) (by decide) (by decide), pop_homes.1, by decide, by decide, by decide,
      by decide, pop_homes.2⟩,
    ⟨scatter_at _ _ _ _ (by decide) (by decide) (by decide), by decide⟩,
    ⟨rfl, got_at (by decide) (by decide), got_at (by decide) (by decide), got_eq (by decide),
      got_eq (by decide), by decide⟩,
    ⟨by decide, rfl, got_at (by decide) (by decide), got_at (by decide) (by decide), got_eq (by decide),
      got_eq (by decide)⟩,
    ⟨⟨rfl, rfl, rfl, by decide, rfl, ⟨c1 26, 0, false, false, by decide⟩, rfl, by decide, by decide, rfl, by decide⟩,
      ⟨rfl, rfl, rfl, by decide, rfl, ⟨c1 26, 0, true, false, by decide⟩, rfl, by decide, by decide, rfl, by decide⟩,
      by decide⟩, by decide, ?_,
    rfl, by decide, by decide, by decide, by decide, by decide, rfl, by decide, by decide, ok_of (by decide),
    error_of (by decide)⟩
  (repeat' apply And.intro) <;> decide

/-! ## Engines that take beats and blocks -/

/-- A data beat of a format, as blocks of zeros carry it. -/
def bt (fmt : Nat) : Beat := ⟨List.replicate 64 0, mkDescr fmt 0 true, 0⟩

/-- Strands into the ports of a vector element at site 11, and from its two outputs. -/
def ssV (b : Beat) : Tbl Strand :=
  [(0, strand 1 9 0 11 0 [b]), (1, strand 2 11 0 9 0 []), (2, strand 3 11 1 9 1 []),
   (3, strand 4 10 0 11 2 [b]), (4, strand 5 10 1 11 4 [b])]

/-- The same element without a second output. -/
def ssV1 (b : Beat) : Tbl Strand := [(0, strand 1 9 0 11 0 [b]), (1, strand 2 11 0 9 0 [])]

def cV (p : Prog) : Command := cmd 11 0 0 p

theorem has_room {c : Command} {ss : Tbl Strand} {q : Nat}
    (h : ((rE c ss).outStrand c.elem q).isSome = true ∧ (sE c ss).outReady 0 c.elem q = true) :
    HasRoom (sE c ss) 0 (rE c ss) c q := ⟨h.1, h.2⟩

/-- Data of the command's format and of another, a STOP and an end-of-stream, all joined operands. -/
theorem witness_VectorCommandsTurnBeatsIntoBeats :
    (Working (sE (cV Prog.zero) (ssV (bt 9))) 0 3 (rE (cV Prog.zero) (ssV (bt 9))) (cV Prog.zero) ∧
      HasRoom (sE (cV Prog.zero) (ssV (bt 9))) 0 (rE (cV Prog.zero) (ssV (bt 9))) (cV Prog.zero) 1) ∧
    (sE (cV Prog.zero) (ssV (bt 9))).vecReady 0 11 = true ∧
    ((rE (cV Prog.zero) (ssV (bt 9))).outStrand 11 0).isSome = true ∧
    (rE (cV Prog.zero) (ssV (bt 9))).vecPort 11 0 0 = 0 ∧
    (sE (cV Prog.zero) (ssV (bt 9))).inBeat 0 11 0 = some (bt 9) ∧ (bt 9).ctrl = 0 ∧
    (bt 9).fmt = vecFmt .s ∧ (bt 9).fmt ≠ vecFmt .d ∧ Beat.eos.ctrl = 7 ∧ (Beat.stop 6).ctrl ≠ 7 ∧
    (sE (cV Prog.zero) (ssV Beat.eos)).inBeat 0 11 0 = some Beat.eos ∧
    (Prog.zero.blks.length < 256 ∧ 256 ≤ (List.replicate 256 (Blk.zero 9 0)).length) ∧
    0 < { Prog.zero with i := 1 }.i ∧
    (rE (cV Prog.zero) (ssV1 (bt 9))).outStrand 11 1 = none ∧
    ((sE (cV Prog.zero) (ssV (bt 9))).vecHeads 0 (cV Prog.zero) [0, 1, 2] =
        some [(0, 0, bt 9), (1, 2, bt 9), (2, 4, bt 9)] ∧
      ∀ h ∈ [(0, 0, bt 9), (1, 2, bt 9), (2, 4, bt 9)], h.2.2.ctrl = 0 ∧ h.2.2.fmt = vecFmt .s) ∧
    ((sE (cV Prog.zero) (ssV Beat.eos)).vecHeads 0 (cV Prog.zero) [0, 1] =
        some [(0, 0, Beat.eos), (1, 2, Beat.eos)] ∧
      ∀ h ∈ [(0, 0, Beat.eos), (1, 2, Beat.eos)], h.2.2.ctrl = 7) ∧
    fmtBits (bt 0x10).fmt = 0 ∧ fmtBits (bt 9).fmt ≠ 0 ∧ Prog.zero.cvtVals = [] := by
  refine ⟨⟨working (by decide) rfl rfl, has_room (by decide)⟩, ?_⟩
  (repeat' apply And.intro) <;> decide

/-- A side band of a format without scale. -/
def sideB (fmt : Nat) : Side := ⟨0, 0, true, fmt, false⟩

/-- The launch with a command at the frame of site 1, beats for its A-row input, B blocks of a format
in its buffer, and the block at 0x40000 of a format. -/
def frB (fmt : Nat) : Frame := { Frame.start with
  mbmap := 1
  bbuf := (upTo 32).map fun n => (n, Blk.zero fmt 0) }

def sF (c : Command) (b : Beat) (fmt : Nat) : State :=
  { base { rE c [(0, strand 1 9 0 1 0 [b])] with frames := [(1, frB fmt)] } (.engine 0 3) with
    side := [(0x1000, sideB fmt)] }

def rF (c : Command) (b : Beat) (fmt : Nat) : Run :=
  { rE c [(0, strand 1 9 0 1 0 [b])] with frames := [(1, frB fmt)] }

/-- MMA's operand: a count of rows. -/
def cF (l : Word) (p : Prog) : Command := cmd 1 0 l p

/-- An extent record: one row, one step, all addresses 0. -/
def extB : Blk := ⟨List.replicate 32 0 ++ [0x41] ++ List.replicate 31 0, 0x0B⟩

theorem witness_FrameCommandsLoadMultiplyAndWriteTiles :
    Working (sF (cF 32 Prog.zero) (bt 0x0B) 0x0B) 0 3 (rF (cF 32 Prog.zero) (bt 0x0B) 0x0B)
      (cF 32 Prog.zero) ∧
    (frB 0x0B).Sorted ∧
    ReadHome (sF (cF 0 Prog.zero) (bt 0x0B) 0x0B) 0 1 0 0x40000 ∧
    WriteHome (sF (cF 0 Prog.zero) (bt 0x0B) 0x0B) 0 1 0 0x40000 ∧
    frB 0x0B = (sF (cF 32 Prog.zero) (bt 0x0B) 0x0B).frame 0 1 ∧
    32 ≤ { Prog.zero with i := 32 }.i ∧ Prog.zero.i < 32 ∧
    ((0 : Word) + BitVec.ofNat 64 (0 * (frB 0x0B).mbpitch.toNat)).toNat = 0 ∧
    formatClass ((sF (cF 0 Prog.zero) (bt 0x0B) 0x0B).sideOf 0x40000).fmt ≠ 0 ∧
    ((sF (cF 0 Prog.zero) (bt 0x0B) 0x0B).sideOf 0x40000).fmt < 32 ∧
    Prog.zero.j < rowBlocks 0x0B ∧
    (frB 0x0B).mbmap.getLsbD ((0 : Word).extractLsb' 6 6).toNat = true ∧
    (frB 0x0B).mbmap.getLsbD ((64 : Word).extractLsb' 6 6).toNat = false ∧
    ((64 : Word).extractLsb' 0 6).toNat = 0 ∧ 32 < ((33 : Word).extractLsb' 0 6).toNat ∧
    (0 < ((32 : Word).extractLsb' 0 6).toNat ∧ ((32 : Word).extractLsb' 0 6).toNat ≤ 32) ∧
    ((sF (cF 32 Prog.zero) (bt 0x0B) 0x0B).aInputs 0 1)[0 % 1]? = some 0 ∧
    (sF (cF 32 Prog.zero) (bt 0x0B) 0x0B).inBeat 0 1 0 = some (bt 0x0B) ∧
    (frB 0x0B).pairsWith false (bt 0x0B).fmt = true ∧
    (frB 0x0B).pairsWith true (bt 0x0B).fmt = false ∧ (frB 8).pairsWith true (bt 8).fmt = true ∧
    (Beat.stop 1).ctrl ≠ 0 ∧ outShape 8 = (1, 4) ∧ 32 / 1 ≤ { Prog.zero with i := 32 }.i ∧
    Prog.zero.i < 32 / 1 ∧ Memory.wf (sF (cF 0 Prog.zero) (bt 0x0B) 0x0B).mem = true ∧
    extentOf ((sF (cF 0 Prog.zero) (bt 0x0B) 0x0B).blkAt 0x40000) = none ∧
    extentOf extB = some ⟨0, 0, 0, 0, 1, 1⟩ ∧
    ((⟨0, 0, 0, 0, 1, 1⟩ : Extent).addrs 1 64)[0]? = some 0 ∧
    sweepRefuses ((sF (cF 0 Prog.zero) (bt 0x0B) 0x0B).sideOf 0x40000).descr = false ∧
    ((⟨0, 0, 0, 0, 1, 1⟩ : Extent).addrs 1 64)[33]? = none := by
  refine ⟨⟨⟨rfl, rfl, rfl⟩, by decide, rfl, rfl⟩, ⟨by decide, by decide⟩,
    read_home (by decide) (by decide) (by decide) (by decide),
    write_home (by decide) (by decide) (by decide) (by decide) (by decide), ?_⟩
  (repeat' apply And.intro) <;> decide

/-! ## Tiles and lighters -/

/-- Two rows of two blocks, a STOP of level 1 after each row and an end-of-stream (R185). -/
def shape22 : Word := 0x24004002002000

/-- Pairs as a COORD beat of 16-bit floats carries them: coordinate 0 with value 5. -/
def coord1 (q : Nat) : Beat := coordBeat 0 [(q, 5)]

def cT (l : Word) (p : Prog) : Command := cmd 7 0 l p

/-- Strands into and out of port 1 of the tile at site 7. -/
def ssT (b : Beat) : Tbl Strand := [(0, strand 1 9 0 7 1 [b]), (1, strand 2 7 1 9 0 [])]

/-- The same with 16-bit floats in every block of the shape. -/
def sTl (c : Command) (b : Beat) : State := { sE c (ssT b) with
  side := (upTo 8).map fun q => (tileBlock 0 7 q / 64, sideB 0x0A) }

def rTl (c : Command) (b : Beat) : Run := rE c (ssT b)

def pT (i j : Nat) : Prog := { Prog.zero with words := [shape22], i := i, j := j }

/-- A progress with a beat whose pairs are being performed. -/
def pB (j q : Nat) : Prog :=
  { pT 0 j with blks := [⟨(coord1 q).data, (coord1 q).descr⟩] }

def busyAt (c : Command) (b : Beat) (q : Nat) : Bool := (sTl c b).blockBusy (tileBlock 0 7 q)

theorem witness_TileCommandsStreamWriteAndUpdateTheirTile :
    Working (sTl (cT 0 (pT 0 0)) (coord1 0)) 0 3 (rTl (cT 0 (pT 0 0)) (coord1 0)) (cT 0 (pT 0 0)) ∧
    HasRoom (sTl (cT 0 (pT 0 0)) (coord1 0)) 0 (rTl (cT 0 (pT 0 0)) (coord1 0)) (cT 0 (pT 0 0)) 1 ∧
    (sTl (cT 0 (pT 0 0)) (coord1 0)).tileMasked 0 7 = true ∧ Prog.zero.words = [] ∧
    (pT 0 0).words = [shape22] ∧ shapeOf shape22 = ⟨0, 2, 2, 2, 1, true⟩ ∧
    (let z : Word := 0x01001002
     0 < (z.extractLsb' 0 12).toNat ∧ 0 < (z.extractLsb' 12 12).toNat ∧
      (z.extractLsb' 24 3).toNat ≠ 7 ∧ 0 < (z.extractLsb' 0 16).toNat ∧
      (z.extractLsb' 16 3).toNat ≠ 7) ∧
    ((sTl (cT 0 (pT 0 0)) (coord1 0)).sideOf (tileBlock 0 7 0)).poison = false ∧
    (sTl (cT 0 (pT 0 0)) Beat.eos).inBeat 0 7 1 = some Beat.eos ∧
    (sTl (cT 0 (pT 0 0)) (Beat.stop 6)).inBeat 0 7 1 = some (Beat.stop 6) ∧
    (sTl (cT 0 (pT 0 0)) (coord1 0)).inBeat 0 7 1 = some (coord1 0) ∧
    (4 ≤ (pT 4 0).i ∧ (pT 3 0).i < 4) ∧ busyAt (cT 0 (pT 3 0)) (coord1 0) 3 = false ∧
    Memory.wf (sTl (cT 0 (pT 0 0)) (coord1 0)).mem = true ∧
    64 < (shapeOf 0x80000).count ∧ (shapeOf 0x7E000).count = 64 ∧
    (rTl (cT 0 (pT 0 0)) (coord1 0)).maskAt 7 = 255 ∧
    (∀ q ∈ ringKeys 7, (sTl (cT 0 (pT 3 0)) (coord1 0)).blockBusy (tileBlock 0 q 3) = false ∧
      ((sTl (cT 0 (pT 3 0)) (coord1 0)).sideOf (tileBlock 0 q 3)).poison = false ∧
      (sTl (cT 0 (pT 3 0)) (coord1 0)).portOpen 0 q (cT 0 (pT 3 0)).rank = true) ∧
    32 * 2 ≤ 65535 ∧
    (let s : State := { sE (cT 0 (pT 0 0)) (ssT (coord1 0)) with
       mem := tablesAnd [(tileBlock 0 7 0, 5)]
       side := [(tileBlock 0 7 0 / 64, ⟨0, 0, false, 0x0A, false⟩)] }
     (s.sideOf (tileBlock 0 7 0)).zero = false ∧ fmtVt (s.sideOf (tileBlock 0 7 0)).fmt = some 0 ∧
      densePairs 0 0 (s.block (tileBlock 0 7 0)) = [(0, 5)]) ∧
    ((coord1 0).vt = some 0 ∧ (coord1 0).vt ≠ some 1 ∧ (pT 0 0).blks = [] ∧ (pT 1 1).j ≠ 0 ∧
      (pT 1 0).i < 2) ∧
    ((pB 1 0).blks = (⟨(coord1 0).data, (coord1 0).descr⟩ : Blk) :: [] ∧
      (pairsOf (coord1 0).data)[(pB 1 0).j - 1]? = some (0, 5) ∧
      (pairsOf (coord1 64).data)[(pB 1 64).j - 1]? = some (64, 5) ∧ 32 * 2 ≤ 64 ∧ 63 < 32 * 2 ∧
      31 < 16 * 2) ∧
    (0 < ((6 : Word).extractLsb' 0 3).toNat ∧ ((6 : Word).extractLsb' 0 3).toNat ≠ 7 ∧
      (Beat.stop 5).ctrl < 6 ∧ 6 ≤ (Beat.stop 6).ctrl ∧ 6 ≤ Beat.eos.ctrl) ∧
    (sTl (cT 0 (pT 0 0)) (coord1 0)).portOpen 0 7 (cT 0 (pT 0 0)).rank = true ∧
    ((sTl (cT 0 (pT 0 0)) (coord1 0)).rmwBeat 0 7 ⟨0, 2, 2, 2, 1, true⟩ 0 (pairsOf (coord1 0).data) = .none ∧
      (sTl (cT 0 (pT 0 0)) (coord1 0)).rmwBeat 0 7 ⟨0, 2, 2, 2, 1, true⟩ 1 (pairsOf (coord1 0).data) =
        .beat 0 ∧
      (sTl (cT 0 (pT 0 0)) (coord1 0)).rmwBeat 0 7 ⟨0, 2, 2, 2, 1, true⟩ 1 (pairsOf (coord1 128).data) =
        .beat 0) ∧
    (pairsOf (coord1 0).data)[(pB 1 0).j]? = none ∧
    (pairsOf (coord1 0).data)[(pB 0 0).j]? = some (0, 5) ∧
    (pairsOf (coord1 128).data)[(pB 0 128).j]? = some (128, 5) ∧ 4 ≤ 128 / 32 := by
  refine ⟨⟨⟨rfl, rfl, rfl⟩, by decide, rfl, rfl⟩, ⟨by decide, by decide⟩, ?_⟩
  (repeat' apply And.intro) <;> decide

/-- A copy at the lighter port of site 34 between the tile at site 7 and memory, with a record and a
pitch; its lighter's list. -/
def cL (p : Prog) : Command := cmd 34 0 0 p

def copyAt (n : Nat) : Copy := ⟨1, 0, n, 600, 4, 0, none, 0⟩

def fL : CopyForm := ⟨1, 0, 0⟩

def rL (p : Prog) : Run := { rE (cL p) [] with
  tiles := [(0, ⟨true, 0, [], 0, 0, none⟩), (7, ⟨true, 0, [(0, shape22), (1, 0x1000)], 0, 0, none⟩)] }

def sL (p : Prog) (cs : List Copy) : State := { base (rL p) (.engine 0 3) with
  dies := State.reset.dies.edit 0 fun d => { d with copies := [(0, cs)], lighters := 1 }
  side := [(tileBlock 0 7 0 / 64, sideB 3), (0x1000, sideB 3)] }

def pL (i : Nat) : Prog := { Prog.zero with words := [shape22, 0], i := i }

/-- Copies with every handle. -/
def allCopies : List Copy := (upTo 64).map fun k => ⟨k, 0, 3, 600, 4, 0, none, 0⟩

/-- A list of one copy has a handle to give, wherever the search begins. -/
theorem handle_given (n : Nat) : ∃ h, freeHandle [copyAt 3] n = some h := by
  rw [← Option.isSome_iff_exists, freeHandle, List.find?_isSome]
  simp only [List.mem_map, upTo_eq, List.mem_range]
  by_cases h : Config.pickHandle n % 63 = 0
  · exact ⟨_, ⟨1, by decide, rfl⟩, by simp [copyAt]; omega⟩
  · exact ⟨_, ⟨0, by decide, rfl⟩, by simp [copyAt]; omega⟩

theorem handle_none (n : Nat) : freeHandle allCopies n = none := by
  rw [freeHandle, List.find?_eq_none]
  simp only [List.mem_map, upTo_eq, List.mem_range, allCopies, List.all_map, List.all_eq_true]
  rintro _ ⟨k, _, rfl⟩ h
  have := h (1 + (Config.pickHandle n + k) % 63) (by omega)
  simp at this

/-- A full list of copies has no handle to give; a list of one has. -/
theorem witness_CopiesAreAcceptedInOrderAndMoveBlocks :
    (∃ h, freeHandle [copyAt 3] 0 = some h) ∧ freeHandle allCopies 0 = none ∧
    Working (sL (pL 0) [copyAt 3]) 0 3 (rL (pL 0)) (cL (pL 0)) ∧
    ReadHome (sL (pL 0) [copyAt 3]) 0 34 0 0x40000 ∧ WriteHome (sL (pL 0) [copyAt 3]) 0 34 0 0x40000 ∧
    (sL (pL 0) [copyAt 3]).lighterOf 0 34 = (0, 0) ∧
    ((sL (pL 0) [copyAt 3]).dies.find 0).isSome = true ∧
    nbit ((sL (pL 0) [copyAt 3]).dies.get 0).lighters 0 = true ∧ nbit DieSt.reset.lighters 0 = false ∧
    (sL (pL 0) [copyAt 3]).copiesAt 0 0 = [copyAt 3] ∧ copyTile 34 fL = 7 ∧
    Prog.zero.words = [] ∧ (pL 0).words = [shape22, 0] ∧
    (sL (pL 0) [copyAt 4]).copyTurn 0 3 34 = false ∧ (sL (pL 0) [copyAt 3]).copyTurn 0 3 34 = true ∧
    (4 ≤ (pL 4).i ∧ (pL 3).i < 4) ∧ (sL (pL 0) [copyAt 3]).tileMasked 0 7 = true ∧
    (rL (pL 0)).tileEngine 7 = true ∧ (sL (pL 0) [copyAt 3]).portOpen 0 7 (cL (pL 0)).rank = true ∧ Memory.wf (sL (pL 0) [copyAt 3]).mem = true ∧
    ((sL (pL 0) [copyAt 3]).sideOf (tileBlock 0 7 0)).poison = false ∧
    (sL (pL 0) [copyAt 3]).blockBusy (tileBlock 0 7 0) = false ∧
    (rL (pL 0)).shape 7 0 (Nat.xor 0 1) = 0x1000 ∧
    ((sL (pL 0) [copyAt 3]).copiesAt 0 0).findIdx? (fun y => y.handle = 1) = some 0 ∧
    ((sL (pL 0) [copyAt 3]).copiesAt 0 0).findIdx? (fun y => y.handle = 63) = none := by
  refine ⟨handle_given 0, handle_none 0, ⟨⟨rfl, rfl, rfl⟩, by decide, rfl, rfl⟩,
    read_home (by decide) (by decide) (by decide) (by decide),
    write_home (by decide) (by decide) (by decide) (by decide) (by decide), ?_⟩
  (repeat' apply And.intro) <;> decide

/-! ## The projection element, the sampler and the seam -/

/-- A command at the projection element of site 26 with an operand and the camera's snapshot. -/
def cP (l : Word) (p : Prog) : Command := cmd 26 0 l { p with words := camA }

/-- Its launch: the store of `storeOf` is bound at address 0x400, or none; a beat waits at port 0. -/
def rPr (c : Command) (g : Option StoreDesc) (b : Beat) : Run :=
  { rE c [(0, strand 1 9 0 26 0 [b])] with projs := [(26, ⟨0x400, 0x3F000000, g⟩)] }

def sP (c : Command) (g : Option StoreDesc) (b : Beat) (ms : List Host.Cell) : State :=
  { base (rPr c g b) (.engine 0 3) with
    mem := tablesAnd ms
    side := [(0x1000, sideB 0x0B)] }

def sP0 (ms : List Host.Cell) : State := sP (cP 0 Prog.zero) (some (storeOf 0)) Beat.eos ms

/-- The four blocks of a descriptor (R316, R317). -/
def descBlks : List Blk :=
  [⟨List.replicate 12 0 ++ [0, 0, 0x80, 0x3F, 8, 0, 8, 0, 8, 0, 4, 0, 1, 0, 0, 0, 6, 0, 0, 0] ++
      [0, 0x10, 0, 0, 0, 0, 0, 0, 0, 0x20, 0, 0, 0, 0, 0, 0, 0, 0x80, 0, 0, 0, 0, 0, 0] ++
      [2, 0, 0, 0, 0, 0, 0, 0], 0x04⟩,
   Blk.zero 0x0B 0, Blk.zero 4 0, Blk.zero 4 0]

/-- Pixel (1, 2) at depth 2. -/
def pix : Word := 0x4000000000020001

/-- The entry of the brick of cell (3, 5, 2): being claimed, and another brick's; and a count of 1 in the cell's record. -/
def entR : List Host.Cell := [(0x410DC, 4), (0x410DF, 0x40)]
def entN : List Host.Cell := [(0x410DF, 0xC0)]
def recC : List Host.Cell := [(0x46D40, 9), (0x46D44, 1)]

def sPx (p : Prog) (ms : List Host.Cell) : State := sP (cP pix p) (some (storeOf 0)) Beat.eos ms

theorem working_p {c : Command} {g : Option StoreDesc} {b : Beat} (ms : List Host.Cell)
    (l : ((rPr c g b).part (partOf c.elem)).cancelled = false) (n : c.prog.skip = none) :
    Working (sP c g b ms) 0 3 (rPr c g b) c := ⟨⟨rfl, rfl, rfl⟩, List.pairwise_singleton _ _, l, n⟩

/-- A gather's state in front of a store whose cell has been observed, or whose cell's record is empty. -/
def sGa (ms : List Host.Cell) : State := sPx Prog.zero (entF ++ ms)

/-- The blocks that a gather takes from the record of cell (3, 5, 2). -/
def seenBlks (ms : List Host.Cell) : List Blk :=
  [(sGa ms).blkAt 0x46D40, Blk.zero 0x11 0, (sGa ms).blkAt 0x46DC0]

theorem seen_record (ms : List Host.Cell) (h : ms = recC ∨ ms = []) :
    (sGa ms).SeenRecord 0 26 0x10C0 (storeOf 0) 1 (3, 5, 2) [0x6D40, 0x6DC0] (seenBlks ms) := by
  refine ⟨rfl, fun m => if m = 0 then 0x46D40 else 0x46DC0, ?_, rfl⟩
  intro m e he
  have : (m = 0 ∧ e = 0x6D40) ∨ (m = 1 ∧ e = 0x6DC0) := by
    rcases m with _ | _ | m <;> simp_all
  rcases h with rfl | rfl <;> rcases this with ⟨rfl, rfl⟩ | ⟨rfl, rfl⟩ <;>
    exact read_home (by decide) (by decide) (by decide) (by decide)

theorem witness_ProjectionCommandsReadAndChangeTheirStore :
    Working (sP0 []) 0 3 (rPr (cP 0 Prog.zero) (some (storeOf 0)) Beat.eos) (cP 0 Prog.zero) ∧
    ((sP0 []).ctxs.find 0).isSome = true ∧ Prog.zero.blks = [] ∧
    ReadHome (sP0 []) 0 26 0 0x40000 ∧ ReadHome (sP0 []) 0 26 64 0x40040 ∧
    idOk (camWord (imageWords (List.replicate 64 0 ++ (sP0 []).block 0x40040)) camId) = true ∧
    idOk (camWord (imageWords (List.replicate 64 0 ++ (sP0 [(0x4005A, 1)]).block 0x40040)) camId) =
      false ∧
    (0 : Word).toNat % 64 = 0 ∧ (1 : Word).toNat % 64 ≠ 0 ∧ (sP0 []).outOfStore 0 0 = false ∧
    (sP0 []).outOfStore 0 (0x0500000000000000 : Word).toNat = true ∧
    descOk descBlks (descOf (descBlks.headD default) (Blk.zero 0x0B 0)) = true ∧
    descOk [Blk.zero 4 0, Blk.zero 0x0B 0, Blk.zero 4 0, Blk.zero 4 0]
      (descOf (Blk.zero 4 0) (Blk.zero 0x0B 0)) = false ∧
    (sP0 []).outOfStore 0 0x1000 = false ∧ (sP0 []).outOfStore 0 0x2000 = false ∧
    (sP0 []).outOfStore 0 0x8000 = false ∧
    ((rPr (cP 0 Prog.zero) none Beat.eos).proj 26).desc = none ∧
    ((rPr (cP 0 Prog.zero) (some (storeOf 0)) Beat.eos).proj 26).desc = some (storeOf 0) ∧
    ReadHome (sP0 []) 0 26 (blockAt (counterAddr 0x400)) 0x40480 ∧
    WriteHome (sP0 []) 0 26 (blockAt (counterAddr 0x400)) 0x40480 ∧
    ((sP0 []).sideOf 0x40000).fmt = 0x0B ∧
    WriteHome (sP0 []) 0 26 (blockAt (0x400 + 64)) 0x40440 ∧ Memory.wf (sP0 []).mem = true := by
  refine ⟨working_p _ rfl rfl, rfl, rfl, read_home (by decide) (by decide) (by decide) (by decide),
    read_home (by decide) (by decide) (by decide) (by decide), by decide, by decide, by decide,
    by decide, by decide, by decide, by decide, by decide, by decide, by decide, by decide, rfl, rfl,
    read_home (by decide) (by decide) (by decide) (by decide),
    write_home (by decide) (by decide) (by decide) (by decide) (by decide), by decide,
    write_home (by decide) (by decide) (by decide) (by decide) (by decide), by decide⟩

theorem witness_ClearsTakeAndFreeBricks :
    (0 < 2 ^ (storeOf 0).t ∧ 2 ^ (storeOf 0).t ≤ 64) ∧
    ReadHome (sP0 [(0x41007, 0xC0)]) 0 26 (blockAt (entryAddr (storeOf 0) 0)) 0x41000 ∧
    WriteHome (sP0 [(0x41007, 0xC0)]) 0 26 (blockAt (entryAddr (storeOf 0) 0)) 0x41000 ∧
    entryState (((sP0 []).blkAt 0x41000).at_ (entryAddr (storeOf 0) 0) 8) = 0 ∧
    entryState (((sP0 [(0x41007, 0xC0)]).blkAt 0x41000).at_ (entryAddr (storeOf 0) 0) 8) = 3 ∧
    ((sP0 []).blkAt 0x40480).at_ 0 8 = 0 ∧
    (blockAt (counterAddr 0x400) = 0x480 ∧ blockAt (stackAddr (storeOf 0) 0) = 0x8000) ∧
    ReadHome ((sP0 []).used 0 26 [0x480]) 0 26 0x8000 0x48000 ∧
    WriteHome ((sP0 []).used 0 26 [0x480, 0x8000]) 0 26 0x8000 0x48000 ∧ 0x40480 ≠ 0x48000 ∧
    (let d := fillTo 64 0 (((sP0 []).blkAt 0x48000).set (stackAddr (storeOf 0) 0) 4 1).data
     WriteHome { (sP0 []).used 0 26 [0x480, 0x8000, 0x8000] with mem := memWrite (sP0 []).mem 0x48000 d } 0 26
      (blockAt (counterAddr 0x400)) 0x40480) := by
  refine ⟨by decide, read_home (by decide) (by decide) (by decide) (by decide),
    write_home (by decide) (by decide) (by decide) (by decide) (by decide), by decide, by decide,
    by decide, by decide, read_home (by decide) (by decide) (by decide) (by decide),
    write_home (by decide) (by decide) (by decide) (by decide) (by decide), by decide,
    write_home (by decide) (by decide) (by decide) (by decide) (by decide)⟩

theorem witness_ScattersTakeBeatsAndProbe :
    (rPr (cP 0 Prog.zero) (some (storeOf 0)) Beat.eos).beatDue 3 (cP 0 Prog.zero) = false ∧
    (sP (cP 0 Prog.zero) none Beat.eos []).inBeat 0 26 0 = some Beat.eos ∧
    (sP (cP 0 Prog.zero) none (Beat.stop 1) []).inBeat 0 26 0 = some (Beat.stop 1) ∧
    (sP (cP 0 Prog.zero) none (bt 9) []).inBeat 0 26 0 = some (bt 9) ∧
    (sP (cP 0 Prog.zero) none (bt 0x0B) []).inBeat 0 26 0 = some (bt 0x0B) ∧
    Beat.eos.ctrl = 7 ∧ (Beat.stop 1).ctrl = 1 ∧ (bt 9).ctrl = 0 ∧ (bt 9).fmt ≠ 0x0B ∧
    (bt 0x0B).fmt = 0x0B ∧
    (cP 0 (stage stProject [])).target (storeOf 0) = none ∧ stProject ≠ stBeat ∧
    (cP pix (stage stDrop [])).target (storeOf 0) = some (3, 5, 2) ∧
    64 ≤ { stage stProbe [] with n := 64 }.n ∧
    entryAddr (storeOf 0) (probeIx (storeOf 0).t (brickOf (3, 5, 2)) 0) = 0x10D8 ∧
    ReadHome (sPx (stage stProbe []) []) 0 26 (blockAt 0x10D8) 0x410C0 ∧
    (probeEntry (brickOf (3, 5, 2)) (((sPx (stage stProbe []) entR).blkAt 0x410C0).at_ 0x10D8 8) =
        .reserved ∧
      probeEntry (brickOf (3, 5, 2)) (((sPx (stage stProbe []) entN).blkAt 0x410C0).at_ 0x10D8 8) =
        .next ∧
      probeEntry (brickOf (3, 5, 2)) (((sPx (stage stProbe []) []).blkAt 0x410C0).at_ 0x10D8 8) =
        .absent ∧
      probeEntry (brickOf (3, 5, 2)) (((sPx (stage stProbe []) entF).blkAt 0x410C0).at_ 0x10D8 8) =
        .found 1) ∧
    0 < brickBlocks (storeOf 0).f ∧ brickBlocks (storeOf 0).f ≤ 192 ∧
    WriteHome (sPx (stage stZero [1, 0]) []) 0 26
      (blockAt ((storeOf 0).poolbase + 1 * 64 * recordBytes (storeOf 0).f + 64 * 0)) 0x45000 := by
  refine ⟨by decide, rfl, rfl, rfl, rfl, by decide, by decide, by decide, by decide, by decide,
    by decide, by decide, by decide, by decide, by decide,
    read_home (by decide) (by decide) (by decide) (by decide), ⟨rfl, rfl, rfl, rfl⟩, by decide,
    by decide, write_home (by decide) (by decide) (by decide) (by decide) (by decide)⟩

/-- Sample 3 of a march with steps of 0.5 lies at depth 2, and sample 4,095 behind the far plane. -/
theorem witness_GathersReadARecord :
    (storeOf 0).f = 4 * ((0 : BitVec 3).toNat + 1) ∧
    (pix.extractLsb' 0 16).toNat = 1 ∧ (pix.extractLsb' 16 16).toNat = 2 ∧
    pix.extractLsb' 32 32 = 0x40000000 ∧ (0 : Word).extractLsb' 32 32 = 0 ∧
    project (cP pix Prog.zero).prog.camera (storeOf 0) 0 0 (val32 0) = none ∧
    project (cP pix Prog.zero).prog.camera (storeOf 0) 1 2 (val32 0x40000000) = some (3, 5, 2) ∧
    Prog.zero.j < 2 ^ (storeOf 0).t ∧
    ReadHome (sPx Prog.zero (entF ++ recC)) 0 26 (blockAt 0x10D8) 0x410C0 ∧
    probeEntry (brickOf (3, 5, 2)) (((sPx Prog.zero (entF ++ recC)).blkAt 0x410C0).at_ 0x10D8 8) =
      .found 1 ∧
    blockAt 0x10D8 = 0x10C0 ∧
    (sGa recC).SeenRecord 0 26 0x10C0 (storeOf 0) 1 (3, 5, 2) [0x6D40, 0x6DC0] (seenBlks recC) ∧
    (sGa []).SeenRecord 0 26 0x10C0 (storeOf 0) 1 (3, 5, 2) [0x6D40, 0x6DC0] (seenBlks []) ∧
    recCount (seenBlks recC) = 1 ∧ recSum (seenBlks recC) = 9 ∧ recCount (seenBlks []) = 0 ∧
    (probeEntry (brickOf (3, 5, 2)) (((sGa []).blkAt 0x410C0).at_ 0x10D8 8) = .found 1 ∧
      probeEntry (brickOf (3, 5, 2)) (((sPx Prog.zero entN).blkAt 0x410C0).at_ 0x10D8 8) = .next ∧
      probeEntry (brickOf (3, 5, 2)) (((sPx Prog.zero []).blkAt 0x410C0).at_ 0x10D8 8) = .absent) ∧
    sampleDepth (cP pix Prog.zero).prog.camera 0x3F000000 3 = 0x40000000 ∧
    ltF (camVal (cP pix Prog.zero).prog.camera 7)
      (val32 (sampleDepth (cP pix Prog.zero).prog.camera 0x3F000000 3)) = false ∧
    ltF (camVal (cP pix Prog.zero).prog.camera 7)
      (val32 (sampleDepth (cP pix Prog.zero).prog.camera 0x3F000000 4095)) = true ∧
    marchSamples ≤ 4096 ∧ 3 < marchSamples ∧
    project (cP 0x10008 Prog.zero).prog.camera (storeOf 0) 8 1 (val32 0x40000000) = none ∧
    Prog.zero.ints ≠ cellInts (3, 5, 2) ∧ cellInts (3, 5, 2) = [3, 5, 2] ∧
    ((0x0000000900020001 : Word).extractLsb' 32 32).toNat ≤ 9 := by
  refine ⟨by decide, by decide, by decide, by decide, by decide, by decide, by decide, by decide,
    read_home (by decide) (by decide) (by decide) (by decide), rfl, by decide, seen_record _ (.inl rfl),
    seen_record _ (.inr rfl), by decide, by decide, by decide, ⟨rfl, rfl, rfl⟩, by decide, by decide, by decide, by decide, by decide, by decide, by decide, by decide, by decide⟩

/-- A command at the sampler of site 29, its launch with the sampler's state and a beat at port 0,
and memory in front of the tables' end. -/
def cSm (l : Word) (p : Prog) : Command := cmd 29 0 l p

def rSm (c : Command) (sm : SamplerSt) (b : Beat) : Run :=
  { rE c [(0, strand 1 9 0 29 0 [b]), (1, strand 2 29 1 9 0 [])] with samplers := [(29, sm)] }

def sSm (c : Command) (sm : SamplerSt) (b : Beat) (ms : List Host.Cell) : State :=
  { base (rSm c sm b) (.engine 0 3) with
    mem := tablesAnd ms
    side := [(0x1000, sideB 9)] }

/-- One entry: logit 1.0 of index 7. -/
def smA : SamplerSt := ⟨0, 0x3FB8AA3B, 0, [(0x3F800000, 7)], 5⟩

def sSm0 (b : Beat) (ms : List Host.Cell) : State := sSm (cSm 0 Prog.zero) smA b ms

/-- A replay table at 0x40: N of 1, and a draw of 9 for key 5. -/
def tabCells : List Host.Cell := [(0x40040, 1), (0x40080, 5), (0x40088, 9)]

/-- An acceptance record and a residual record of one entry at 0. -/
def recBlk : Blk := ⟨1 :: List.replicate 63 0, 4⟩
def resBlk (bonus : Byte) : Blk := ⟨List.replicate 9 0 ++ [bonus] ++ List.replicate 22 0 ++
  [1] ++ List.replicate 31 0, 4⟩
def oneAt (n : Nat) : Blk := ⟨fillTo 64 0 (List.replicate n 0 ++ [0, 0, 0x80, 0x3F]), 9⟩

/-- An entry with q and p of 1, and one with a q of 1 and a p of 0. -/
def entB (p : Nat) : Blk := ⟨fillTo 64 0 (List.replicate 8 0 ++ toBytes 4 0x3F800000 ++ toBytes 4 p), 4⟩

/-- The parents of two nodes, and a node that is its own parent. -/
def tree (x : Byte) : Beat := ⟨0xFF :: x :: List.replicate 62 0xFF, mkDescr 5 0 true, 0⟩

/-- The sampler's half of SamplerAndSeamCommandsFollowTheirEntries. -/
theorem witness_SamplerAndSeamCommandsFollowTheirEntries :
    Working (sSm0 Beat.eos []) 0 3 (rSm (cSm 0 Prog.zero) smA Beat.eos) (cSm 0 Prog.zero) ∧
    (sSm0 Beat.eos []).sampler 0 29 = smA ∧ smA.cas = (0x3F800000, 7) :: [] ∧ smA.sdtab = 0 ∧
    SamplerSt.start.cas = [] ∧
    ((0x85 : Word).getLsbD 7 = true ∧ ((0x85 : Word).extractLsb' 0 7).toNat = 5 ∧
      ((0x05 : Word).extractLsb' 0 7).toNat = smA.limit ∧ (0x05 : Word).getLsbD 7 = false ∧
      ((0x80 : Word).extractLsb' 0 7).toNat = 0 ∧ 64 < ((0xC1 : Word).extractLsb' 0 7).toNat ∧
      ((0x06 : Word).extractLsb' 0 7).toNat ≠ smA.limit) ∧
    ((sSm0 Beat.eos []).inBeat 0 29 0 = some Beat.eos ∧ (sSm0 (bt 9) []).inBeat 0 29 0 = some (bt 9) ∧
      logitSpec (bt 9).fmt = some fp32 ∧ logitSpec (bt 8).fmt = none ∧ (bt 9).ctrl = 0 ∧
      Beat.eos.ctrl = 7 ∧ { Prog.zero with j := 1 }.j ≠ 0) ∧
    ((0x3FB8AA3B : Word).toNat < 2 ^ 32 ∧ positive32 ((0x3FB8AA3B : Word).extractLsb' 0 32) = true) ∧
    (0x40 : Word) ≠ 0 ∧ Prog.zero.ints = [] ∧
    ReadHome (sSm0 Beat.eos tabCells) 0 29 (0x40 : Word).toNat 0x40040 ∧
    (((sSm0 Beat.eos tabCells).blkAt 0x40040).word 0 = 1 ∧
      ((sSm0 Beat.eos []).blkAt 0x40040).word 0 = 0) ∧
    ReadHome (sSm0 Beat.eos tabCells) 0 29 ((0x40 : Word).toNat + 64 + 16 * 0) 0x40080 ∧
    (entryDraw 5 1 0 ((sSm0 Beat.eos tabCells).blkAt 0x40080) = some 9 ∧
      entryDraw 6 5 0 ((sSm0 Beat.eos tabCells).blkAt 0x40080) = none ∧
      entryDraw 6 4 0 ((sSm0 Beat.eos tabCells).blkAt 0x40080) = none) ∧
    ReadHome (sSm0 Beat.eos []) 0 29 0 0x40000 ∧
    (acceptHeaderOk ((sSm0 Beat.eos [(0x40000, 1)]).blkAt 0x40000) = true ∧
      acceptHeaderOk ((sSm0 Beat.eos []).blkAt 0x40000) = false ∧
      residOk ((sSm0 Beat.eos [(0x40020, 1)]).blkAt 0x40000) = true ∧
      residOk ((sSm0 Beat.eos []).blkAt 0x40000) = false) ∧
    (recBlk.at_ 0 1 = 1 ∧ ([] : List Blk).length < (1 + 3) / 4 ∧ (1 + 3) / 4 ≤ [entB 0].length) ∧
    ReadHome (sSm0 Beat.eos []) 0 29 ((0 : Word).toNat + 64 * (0 + 1)) 0x40040 ∧
    ((acceptEntry [entB 0x3F800000] 0).1 < 2 ^ 33 ∧
      (acceptTest (acceptEntry [entB 0x3F800000] 0)
        (drawOf 0 (drawKey (recBlk.at_ 4 4) (recBlk.word 1) 0 0))).1 = true ∧
      (acceptTest (acceptEntry [entB 0] 0)
        (drawOf 0 (drawKey (recBlk.at_ 4 4) (recBlk.word 1) 0 0))).1 = false) ∧
    ((resBlk 0).word 4 = 1 ∧ nbit ((resBlk 0).word 1) 8 = false ∧ nbit ((resBlk 1).word 1) 8 = true ∧
      (resBlk 0).word 2 = 0 ∧ (resBlk 0).word 3 = 0 ∧
      ((sSm0 Beat.eos []).sideOf 0x40000).fmt = 0x09) ∧
    ((residWeights false (residInputs 1 [oneAt 0]) (residInputs 1 [oneAt 4])).map Prod.fst).sum ≠ 0 ∧
    ((residWeights false (residInputs 1 [oneAt 0]) (residInputs 1 [oneAt 0])).map Prod.fst).sum = 0 ∧
    ((residWeights true (residInputs 1 [oneAt 0]) []).map Prod.fst).sum ≠ 0 ∧
    HasRoom (sSm0 Beat.eos []) 0 (rSm (cSm 0 Prog.zero) smA Beat.eos) (cSm 0 Prog.zero) 1 ∧
    (128 ≤ (128 : Word).toNat ∧ 64 < (65 : Word).toNat ∧ (2 : Word).toNat ≤ 64) ∧
    ((sSm0 (tree 0) []).inBeat 0 29 0 = some (tree 0) ∧ (tree 0).ctrl = 0 ∧ (tree 0).fmt = 5 ∧
      (bt 9).fmt ≠ 5 ∧ treeRows 0 ((tree 0).data.take 2) [] = .ok [1, 3] ∧
      treeRows 0 ((tree 1).data.take 2) [] = .error 1) := by
  refine ⟨⟨⟨rfl, rfl, rfl⟩, by decide, rfl, rfl⟩, by decide, rfl, rfl, rfl, by decide, by decide,
    by decide, by decide, rfl, read_home (by decide) (by decide) (by decide) (by decide), by decide,
    read_home (by decide) (by decide) (by decide) (by decide), by decide,
    read_home (by decide) (by decide) (by decide) (by decide), by decide, by decide,
    read_home (by decide) (by decide) (by decide) (by decide), by decide, by decide, by decide,
    by decide, by decide, ⟨by decide, by decide⟩, by decide, by decide, by decide, by decide,
    by decide, rfl, rfl⟩

/-- A command at the seam of site 19, its launch with the seam's state and beats at its two inputs. -/
def cSe (l : Word) (p : Prog) : Command := cmd 19 0 l p

def rSe (c : Command) (z : SeamSt) (a b : Beat) : Run :=
  { rE c [(0, strand 1 9 0 19 0 [a]), (1, strand 2 9 1 19 1 [b]), (2, strand 3 19 0 11 0 []),
      (3, strand 4 19 1 11 1 [])] with seams := [(19, z)] }

def sSe (c : Command) (z : SeamSt) (a b : Beat) : State := base (rSe c z a b) (.engine 0 3)

def seamIn (t : Tok) : SeamSt := { SeamSt.zero with inputs := [⟨3, 0, 0, t⟩] }

def tokOf (k : Kind) (level : Nat) : Tok := ⟨5, k, level, false, false, 0⟩

def sSe0 (a b : Beat) : State := sSe (cSe 0 Prog.zero) SeamSt.zero a b

def rSe0 (a b : Beat) : Run := rSe (cSe 0 Prog.zero) SeamSt.zero a b

/-- A join between two fibres, with pairs of A and of B waiting. -/
def pJ (paired : Bool) (xs ys : List (Nat × Nat)) : Prog :=
  (({ Prog.zero with words := [0, 0, 0, 0, BitVec.ofNat 64 paired.toNat] }.setPairs false xs).setPairs
    true ys)

def co (ps : List (Nat × Nat)) : Beat := coordBeat 0 ps

/-- Its seam half, and lists of pairs that ascend. -/
theorem witness_SeamHalfOfSamplerAndSeamCommands :
    Working (sSe0 (co []) (co [])) 0 3 (rSe0 (co []) (co [])) (cSe 0 Prog.zero) ∧
    HasRoom (sSe0 (co []) (co [])) 0 (rSe0 (co []) (co [])) (cSe 0 Prog.zero) 0 ∧
    HasRoom (sSe0 (co []) (co [])) 0 (rSe0 (co []) (co [])) (cSe 0 Prog.zero) 1 ∧
    (rSe (cSe 0 Prog.zero) (seamIn (tokOf .data 0)) (co []) (co [])).seam 19 =
      seamIn (tokOf .data 0) ∧
    (∀ k l, (seamIn (tokOf k l)).inputs.find? (fun t => t.input = (3 : BitVec 3).toNat) =
      some ⟨3, 0, 0, tokOf k l⟩) ∧ (tokOf .stop 0).level = 0 ∧ (tokOf .stop 0).kind = .stop ∧
    (([] : List Word) ++ [5]).length ≠ 512 / ewBits .e64 ∧
    (List.replicate 7 (5 : Word) ++ [5]).length = 512 / ewBits .e64 ∧
    (tokOf .stop 7).level = 7 ∧ (tokOf .stop 1).level ≠ 7 ∧ (tokOf .stop 1).level ≠ 0 ∧
    (sSe0 (co []) (co [])).inBeat 0 19 (BitVec.toNat (0 : BitVec 1)) = some (co []) ∧
    ((sSe0 (co []) (co [])).seamoutBad 0 0xF8000000 = some 4 ∧
      (sSe0 (co []) (co [])).seamoutBad 0 0xC00 = some 1 ∧
      (sSe0 (co []) (co [])).seamoutBad 0 0 = none ∧ (sSe0 (co []) (co [])).destKey 0 0 = some 0) ∧
    (((rSe0 (co []) (co [])).inEnd 19 1).isSome = true ∧
      (sSe0 (co []) (co [])).inBeat 0 19 1 = some (co []) ∧
      (sSe0 (co []) (co [(1, 5)])).inBeat 0 19 1 = some (co [(1, 5)]) ∧ co [] ≠ co [(1, 5)] ∧
      SeamSt.zero.mcnt = false ∧ { SeamSt.zero with mcnt := true }.mcnt = true) ∧
    Prog.zero.words = [] ∧
    (5 ≤ (pJ false [] []).words.length ∧ (pJ false [] []).paired = false ∧ (pJ false [] []).j = 0 ∧
      Beat.eos.ctrl = 7 ∧ (co []).ctrl ≠ 7 ∧ (sSe0 Beat.eos Beat.eos).inBeat 0 19 0 = some Beat.eos ∧
      (sSe0 Beat.eos Beat.eos).inBeat 0 19 1 = some Beat.eos) ∧
    (5 ≤ (pJ true [(1, 5)] [(1, 6)]).words.length ∧ (pJ true [(1, 5)] [(1, 6)]).paired = true ∧
      (pJ true [(1, 5)] [(1, 6)]).sidePairs false = [(1, 5)] ∧
      (pJ true [(1, 5)] [(1, 6)]).sidePairs true = [(1, 6)] ∧
      mergePairs false 32 [(1, 5)] [(1, 6)] = ([packOut 1 5 6], [], [])) ∧
    ((pJ true [] []).sidePairs false = [] ∧ (co [(1, 5)]).ctrl = 0 ∧
      (co [(1, 5)]).vt = some ((pJ true [] []).vtOf false) ∧
      descent ((pJ true [] []).wd 2) (pairsOf (co [(1, 5)]).data) = none) ∧
    ((Beat.stop 1).ctrl ≠ 0 ∧ (Beat.stop 1).ctrl < 7 ∧ (pJ true [] []).outs = [] ∧
      (pJ true [] []).begun = false ∧
      (sSe0 (Beat.stop 1) (Beat.stop 1)).inBeat 0 19 0 = some (Beat.stop 1)) ∧
    ((([(1, 5), (3, 6)] : List (Nat × Nat)).map Prod.fst).Pairwise (· < ·) ∧
      mergePairs true 32 [(1, 5), (3, 6)] [(3, 7)] = ([packOut 1 5 0, packOut 3 6 7], [], [])) := by
  refine ⟨⟨⟨rfl, rfl, rfl⟩, by decide, rfl, rfl⟩, ⟨by decide, by decide⟩, ⟨by decide, by decide⟩,
    rfl, fun _ _ => rfl, rfl, rfl, ?_⟩
  (repeat' apply And.intro) <;> decide

end Sys2Proof.Tests
end

/-! # Every step keeps memory in its canonical form

`State.Canonical s` says that the memory of `s` is in canonical form. Each function of the
model that answers a state, alone or in an answer of its own, has one lemma here: it keeps the form
where the states it is given have it. The lemmas carry the names of the functions, so a proof has
the shape of the function it speaks of: `.ite` at a choice, `.foldl` at a loop, and
`.emitOut (.raise h)`
at a composition. What leaves memory alone by definition needs no lemma: there `h` itself is the
proof. -/

namespace Sys2Proof.Machine

/-! ## Canonical memory in states and in answers -/

/-- Memory is in canonical form (R7, R42). -/
def State.Canonical (s : State) : Prop := Memory.wf s.mem = true

/-- The next state of an outcome, if there is one, has canonical memory. -/
def Result.Canonical : Result → Prop
  | .next s => s.Canonical
  | .fault _ | .refused _ => True

/-- The state that a step fetches has canonical memory. -/
def Fetched.Canonical : Fetched → Prop
  | .run _ s | .stop s => s.Canonical

/-- The state after an access has canonical memory. -/
def Got.Canonical {α : Type} : Got α → Prop
  | .got _ s | .stop s => s.Canonical
  | .wait => True

/-- The state after a request at its home has canonical memory. -/
def HomeAns.Canonical : HomeAns → Prop
  | .done _ _ _ s | .arrived _ s => s.Canonical
  | .poison | .held | .trap _ | .entry _ => True

/-- The state after a request of another device has canonical memory. -/
def FarAns.Canonical : FarAns → Prop
  | .done _ _ s => s.Canonical
  | .fault _ | .later | .held => True

/-- The state after the decrement of a task word has canonical memory. -/
def Decrement.Canonical : Decrement → Prop
  | .done s | .sent s | .stop s => s.Canonical
  | .wait => True

variable {s t : State}

/-! ### Choices and loops -/

theorem State.Canonical.ite {p : Prop} {d : Decidable p} {a b : State} (ha : a.Canonical)
    (hb : b.Canonical) : (if p then a else b).Canonical :=
  iteInduction (fun _ => ha) fun _ => hb

theorem Fetched.Canonical.ite {p : Prop} {d : Decidable p} {a b : Fetched} (ha : a.Canonical)
    (hb : b.Canonical) : (if p then a else b).Canonical :=
  iteInduction (fun _ => ha) fun _ => hb

theorem Got.Canonical.ite {α : Type} {p : Prop} {d : Decidable p} {a b : Got α} (ha : a.Canonical)
    (hb : b.Canonical) : (if p then a else b).Canonical :=
  iteInduction (fun _ => ha) fun _ => hb

theorem HomeAns.Canonical.ite {p : Prop} {d : Decidable p} {a b : HomeAns} (ha : a.Canonical)
    (hb : b.Canonical) : (if p then a else b).Canonical :=
  iteInduction (fun _ => ha) fun _ => hb

theorem FarAns.Canonical.ite {p : Prop} {d : Decidable p} {a b : FarAns} (ha : a.Canonical)
    (hb : b.Canonical) : (if p then a else b).Canonical :=
  iteInduction (fun _ => ha) fun _ => hb

theorem Decrement.Canonical.ite {p : Prop} {d : Decidable p} {a b : Decrement} (ha : a.Canonical)
    (hb : b.Canonical) : (if p then a else b).Canonical :=
  iteInduction (fun _ => ha) fun _ => hb

theorem State.Canonical.foldl {α : Type} {f : State → α → State} {xs : List α}
    (step : ∀ {u : State} {x : α}, u.Canonical → (f u x).Canonical) (h : s.Canonical) :
    (xs.foldl f s).Canonical := by
  induction xs generalizing s with
  | nil => exact h
  | cons x xs ih => exact ih (step h)

/-- What leaves the store alone keeps its form. -/
theorem State.Canonical.same (k : SameStore s t) (h : s.Canonical) : t.Canonical := by
  unfold State.Canonical
  rw [k.mem]
  exact h

/-! ### Making an answer of a state -/

theorem Result.Canonical.next (h : s.Canonical) : Result.Canonical (.next s) := h

theorem Result.Canonical.fault {x : Fault} : Result.Canonical (.fault x) := trivial

theorem Fetched.Canonical.run {i : Instr} (h : s.Canonical) : Fetched.Canonical (.run i s) := h

theorem Fetched.Canonical.stop (h : s.Canonical) : Fetched.Canonical (.stop s) := h

theorem Got.Canonical.got {α : Type} {a : α} (h : s.Canonical) : Got.Canonical (.got a s) := h

theorem Got.Canonical.stop {α : Type} (h : s.Canonical) : Got.Canonical (α := α) (.stop s) := h

theorem Got.Canonical.wait {α : Type} : Got.Canonical (α := α) .wait := trivial

theorem HomeAns.Canonical.done {v : Word} {fl : Nat} {empty : Bool} (h : s.Canonical) :
    HomeAns.Canonical (.done v fl empty s) := h

theorem HomeAns.Canonical.arrived {gen : Nat} (h : s.Canonical) :
    HomeAns.Canonical (.arrived gen s) := h

theorem HomeAns.Canonical.poison : HomeAns.Canonical .poison := trivial

theorem HomeAns.Canonical.held : HomeAns.Canonical .held := trivial

theorem HomeAns.Canonical.trap {cause : Nat} : HomeAns.Canonical (.trap cause) := trivial

theorem HomeAns.Canonical.entry {base : Word} : HomeAns.Canonical (.entry base) := trivial

theorem FarAns.Canonical.done {e : FarEntry} {block : List Byte} (h : s.Canonical) :
    FarAns.Canonical (.done e block s) := h

theorem FarAns.Canonical.fault {cause : Nat} : FarAns.Canonical (.fault cause) := trivial

theorem FarAns.Canonical.later : FarAns.Canonical .later := trivial

theorem FarAns.Canonical.held : FarAns.Canonical .held := trivial

theorem Decrement.Canonical.done (h : s.Canonical) : Decrement.Canonical (.done s) := h

theorem Decrement.Canonical.sent (h : s.Canonical) : Decrement.Canonical (.sent s) := h

theorem Decrement.Canonical.stop (h : s.Canonical) : Decrement.Canonical (.stop s) := h

theorem Decrement.Canonical.wait : Decrement.Canonical .wait := trivial

/-! ### The state in an answer -/

theorem Fetched.Canonical.of_run {i : Instr} {x : Fetched} (e : x = .run i s) (h : x.Canonical) :
    s.Canonical := by
  subst e
  exact h

theorem Fetched.Canonical.of_stop {x : Fetched} (e : x = .stop s) (h : x.Canonical) :
    s.Canonical := by
  subst e
  exact h

theorem Got.Canonical.of_got {α : Type} {a : α} {x : Got α} (e : x = .got a s) (h : x.Canonical) :
    s.Canonical := by
  subst e
  exact h

theorem Got.Canonical.of_stop {α : Type} {x : Got α} (e : x = .stop s) (h : x.Canonical) :
    s.Canonical := by
  subst e
  exact h

theorem HomeAns.Canonical.of_done {v : Word} {fl : Nat} {empty : Bool} {x : HomeAns}
    (e : x = .done v fl empty s) (h : x.Canonical) :
    s.Canonical := by
  subst e
  exact h

theorem HomeAns.Canonical.of_arrived {gen : Nat} {x : HomeAns} (e : x = .arrived gen s)
    (h : x.Canonical) :
    s.Canonical := by
  subst e
  exact h

theorem FarAns.Canonical.of_done {y : FarEntry} {block : List Byte} {x : FarAns}
    (e : x = .done y block s) (h : x.Canonical) :
    s.Canonical := by
  subst e
  exact h

theorem Decrement.Canonical.of_done {x : Decrement} (e : x = .done s) (h : x.Canonical) :
    s.Canonical := by
  subst e
  exact h

theorem Decrement.Canonical.of_sent {x : Decrement} (e : x = .sent s) (h : x.Canonical) :
    s.Canonical := by
  subst e
  exact h

theorem Decrement.Canonical.of_stop {x : Decrement} (e : x = .stop s) (h : x.Canonical) :
    s.Canonical := by
  subst e
  exact h

/-! ## Memory and its side band -/

theorem State.Canonical.writeBytes {a : Nat} {bs : List Byte} (h : s.Canonical) :
    (s.writeBytes a bs).Canonical :=
  Memory.wf_memWrite h a bs

theorem State.Canonical.writeNum {a n v : Nat} (h : s.Canonical) : (s.writeNum a n v).Canonical :=
  .writeBytes h

theorem State.Canonical.writeBlock {a fmt scale : Nat} {data : List Byte} (h : s.Canonical) :
    (s.writeBlock a fmt scale data).Canonical :=
  Memory.wf_memWrite h ..

theorem State.Canonical.clearRange {lo hi : Nat} (h : s.Canonical) :
    (s.clearRange lo hi).Canonical :=
  Memory.wf_clearCells h lo hi

/-! ## Parts of the state -/

theorem State.Canonical.editRun {r : Nat} {f : Run → Run} (h : s.Canonical) :
    (s.editRun r f).Canonical :=
  h

theorem State.Canonical.editElem {r e : Nat} {f : Elem → Elem} (h : s.Canonical) :
    (s.editElem r e f).Canonical :=
  h

theorem State.Canonical.editCtx {c : Nat} {f : Ctx → Ctx} (h : s.Canonical) :
    (s.editCtx c f).Canonical :=
  h

theorem State.Canonical.editDie {d : Nat} {f : DieSt → DieSt} (h : s.Canonical) :
    (s.editDie d f).Canonical :=
  h

theorem State.Canonical.editJob {j : Nat} {f : Job → Job} (h : s.Canonical) :
    (s.editJob j f).Canonical :=
  h

theorem State.Canonical.editQueue {q : Nat} {f : Queue → Queue} (h : s.Canonical) :
    (s.editQueue q f).Canonical :=
  h

theorem State.Canonical.editAct {r e uid : Nat} {f : Act → Act} (h : s.Canonical) :
    (s.editAct r e uid f).Canonical :=
  h

/-! ## The walk of a page table -/

theorem State.Canonical.wake {a : Nat} (h : s.Canonical) : (s.wake a).Canonical := h

theorem State.Canonical.deviceWrite {a : Nat} {bs : List Byte} (h : s.Canonical) :
    (s.deviceWrite a bs).Canonical :=
  .ite h (.wake (.writeBytes h))

theorem State.Canonical.virtWrite {c va : Nat} {bs : List Byte} (h : s.Canonical) :
    (s.virtWrite c va bs).Canonical := by
  unfold State.virtWrite
  split
  · exact .deviceWrite h
  · exact h

/-! ## Operations the instructions share -/

theorem State.Canonical.taint {r colour : Nat} (h : s.Canonical) : (s.taint r colour).Canonical :=
  .same (State.taint_same ..) h

theorem State.Canonical.raise {f : Firing} {fl : Nat} (h : s.Canonical) :
    (s.raise f fl).Canonical :=
  .same (State.raise_same ..) h

theorem State.Canonical.presentNext {r : Nat} (h : s.Canonical) : (s.presentNext r).Canonical :=
  .same (State.presentNext_same ..) h

theorem State.Canonical.cancelPart {r p : Nat} (h : s.Canonical) : (s.cancelPart r p).Canonical :=
  .same (State.cancelPart_same ..) h

theorem State.Canonical.trap {r : Nat} {t : TrapRec} (h : s.Canonical) : (s.trap r t).Canonical :=
  .same (State.trap_same ..) h

theorem State.Canonical.trapDiscarded {f : Flit} (h : s.Canonical) :
    (s.trapDiscarded f).Canonical :=
  .same (State.trapDiscarded_same ..) h

theorem State.Canonical.parkAs {f : Firing} {cause mark : Nat} {info : Word} (h : s.Canonical) :
    (s.parkAs f cause mark info).Canonical :=
  .same (State.parkAs_same ..) h

theorem State.Canonical.park {f : Firing} {cause : Nat} {info : Word} (h : s.Canonical) :
    (s.park f cause info).Canonical :=
  .same (State.park_same ..) h

theorem State.Canonical.endPresentation {r : Nat} (h : s.Canonical) :
    (s.endPresentation r).Canonical :=
  .same (State.endPresentation_same ..) h

theorem State.Canonical.writeSpill {c place : Nat} {entry : List Byte} (h : s.Canonical) :
    (s.writeSpill c place entry).Canonical :=
  .virtWrite h

theorem State.Canonical.openAct {r e colour iter : Nat} (h : s.Canonical) :
    (s.openAct r e colour iter).Canonical :=
  .same (State.openAct_same ..) h

theorem State.Canonical.keepToken {f : Flit} (h : s.Canonical) : (s.keepToken f).Canonical :=
  .same (State.keepToken_same ..) h

theorem State.Canonical.storeToken {f : Flit} (h : s.Canonical) : (s.storeToken f).Canonical := by
  unfold State.storeToken
  refine .ite (.keepToken h) (.editElem ?_)
  split
  · exact .writeSpill (.openAct h)
  · exact .openAct h

theorem State.Canonical.notice {f : Flit} (h : s.Canonical) : (s.notice f).Canonical :=
  .same (State.notice_same ..) h

theorem State.Canonical.deliver {f0 : Flit} (h : s.Canonical) : (s.deliver f0).Canonical := by
  unfold State.deliver
  refine .ite h (.ite (.trapDiscarded h) ?_)
  split
  · exact h
  · refine .ite (.trapDiscarded h) (.ite (.trapDiscarded h) (.ite h ?_))
    have tainted {p : Prop} [Decidable p] {r c : Nat} :
        State.Canonical (if p then s.taint r c else s) :=
      .ite (.taint h) h
    dsimp only
    split
    · exact .ite (.trapDiscarded tainted) (.ite (.notice tainted) (.storeToken tainted))
    · exact .ite (.trapDiscarded tainted) (.editRun tainted)
    · exact .trapDiscarded tainted

theorem State.Canonical.inject {fl : Flit} (h : s.Canonical) : (s.inject fl).Canonical :=
  .ite h (.ite (.deliver h) h)

theorem State.Canonical.emitAs {f : Firing} {t : Option Target} {tok : Tok} {colour iter : Nat}
    (h : s.Canonical) : (s.emitAs f t tok colour iter).Canonical := by
  unfold State.emitAs
  split
  · exact h
  · exact .ite h h
  · exact .inject h

theorem State.Canonical.emit {f : Firing} {t : Option Target} {tok : Tok} (h : s.Canonical) :
    (s.emit f t tok).Canonical :=
  .emitAs h

theorem State.Canonical.emitOut {f : Firing} {o : Out} {tok : Tok} (h : s.Canonical) :
    (s.emitOut f o tok).Canonical :=
  .emit (.emit h)

theorem State.Canonical.emitAll {f : Firing} {i : Instr} {tok : Tok} (h : s.Canonical) :
    (s.emitAll f i tok).Canonical :=
  .emit (.emitOut h)

theorem Result.Canonical.onFiring {k : State → Firing → State} (h : s.Canonical)
    (hk : ∀ {u : State} {a : Firing}, u.Canonical → (k u a).Canonical) :
    (onFiring s k).Canonical := by
  unfold Machine.onFiring
  split
  · exact .next (hk h)
  · exact .fault

theorem State.Canonical.illegalWord {f : Firing} {w : Word} (h : s.Canonical) :
    (s.illegalWord f w).Canonical :=
  .trap h

/-! ## Operands -/

theorem Result.Canonical.computing {o : Out} {v : State → Firing → Word} (h : s.Canonical) :
    (computing o v s).Canonical :=
  .onFiring h fun h => .emitOut h

theorem Result.Canonical.computingFl {o : Out} {v : State → Firing → Word × Nat} (h : s.Canonical) :
    (computingFl o v s).Canonical :=
  .onFiring h fun h => .emitOut (.raise h)

theorem Result.Canonical.carrying {o : Out} (h : s.Canonical) : (carrying o s).Canonical :=
  .onFiring h fun h => .emitOut h

/-! ## Integer instructions -/

theorem Result.Canonical.dividing {o : Out} {f : IntForm} {u zdef rem : Bool} (h : s.Canonical) :
    (dividing o f u zdef rem s).Canonical :=
  .onFiring h fun h => .ite (.ite (.emitOut h) (.park h)) (.emitOut h)

/-! ## What leaves the device -/

theorem State.Canonical.addFar {c : Nat} {w : FarWait} (h : s.Canonical) :
    (s.addFar c w).Canonical :=
  h

theorem State.Canonical.sendFarToken {f : Firing} {dest : Word} {t : Tok} (h : s.Canonical) :
    (s.sendFarToken f dest t).Canonical :=
  .addFar (.taint h)

theorem State.Canonical.sendPacket {p : Packet} (h : s.Canonical) : (s.sendPacket p).Canonical :=
  .ite h h

theorem State.Canonical.answerTo {p : Packet} {body : PacketBody} (h : s.Canonical) :
    (s.answerTo p body).Canonical :=
  .sendPacket h

theorem State.Canonical.replyEntry {p : Packet} {e : FarEntry} {block : List Byte}
    (h : s.Canonical) : (s.replyEntry p e block).Canonical := by
  unfold State.replyEntry
  split
  · exact h
  · exact .answerTo h

/-! ## Translation -/

theorem State.Canonical.logFault {f : Firing} {ea cause level : Nat} (h : s.Canonical) :
    (s.logFault f ea cause level).Canonical :=
  .ite h (.editCtx (.virtWrite h))

theorem State.Canonical.keepEntry {e : TlbEntry} (h : s.Canonical) : (s.keepEntry e).Canonical := h

theorem State.Canonical.engineFill {r key ea : Nat} (h : s.Canonical) :
    (s.engineFill r key ea).Canonical := by
  unfold State.engineFill
  dsimp only
  split
  · exact h
  · split
    · refine .ite ?_ (.keepEntry ?_)
      · split
        · exact h
        · split <;> exact h
      · split
        · exact h
        · split <;> exact h
    · split
      · exact h
      · split <;> exact h

/-! ## What a home does with a request -/

theorem State.Canonical.startTask {home : Nat} {t : Option Nat} (h : s.Canonical) :
    (s.startTask home t).Canonical := by
  unfold State.startTask
  split <;> exact h

theorem HomeAns.Canonical.residue {home : Nat} {k : Nat → Nat → HomeAns}
    (hk : ∀ {u a : Nat}, (k u a).Canonical) : (s.residue home k).Canonical :=
  .ite hk .trap

theorem HomeAns.Canonical.answer {v : Word} (h : s.Canonical) : (answer v s).Canonical := .done h

theorem HomeAns.Canonical.perform {op : MemOp} {size home : Nat} {data extra : Word}
    (h : s.Canonical) : (s.perform op size home data extra).Canonical := by
  unfold State.perform
  dsimp only
  split
  · exact .answer h
  · exact .answer h
  · exact .answer h
  · exact .ite .held (.ite .poison (.answer h))
  · refine .ite .poison ?_
    split
    · exact .answer h
    · exact .answer (.writeNum h)
    · exact .answer h
    · exact .answer h
    · exact .answer h
    · exact .ite .trap (.answer h)
    · exact .ite (.answer (.writeNum h)) (.answer h)
    · exact .ite (.answer (.writeNum h)) (.answer h)
    · refine .residue ?_
      intro _ _
      split
      · exact .answer (.writeNum h)
      · exact .trap
    · refine .residue ?_
      intro _ _
      split
      · exact .done (.writeNum h)
      · exact .done h
    · exact .residue (.done h)
    · exact .ite (.answer (.writeNum h)) (.arrived (.writeNum h))
    · exact .ite .trap (.answer (.writeNum h))
    · exact .answer (.startTask (.writeNum h))
    · exact .answer (.startTask (.writeNum h))
    · exact .done (.writeNum h)
    · exact .ite (.done h) .entry
    · exact .done (.writeNum h)

/-! ## Memory instructions at their firing -/

theorem State.Canonical.parkTrans {f : Firing} {ea : Word} {t : Trans} (h : s.Canonical) :
    (s.parkTrans f ea t).Canonical := by
  unfold State.parkTrans
  split
  · exact .park h
  · exact .park (.logFault h)
  · exact h

theorem State.Canonical.withHome {f : Firing} {ea : Word} {align need : Nat}
    {k : State → Nat → State} (h : s.Canonical)
    (hk : ∀ {u : State} {a : Nat}, u.Canonical → (k u a).Canonical) :
    (s.withHome f ea align need k).Canonical := by
  unfold State.withHome
  refine .ite (.park h) (.ite (.park h) ?_)
  split
  · exact .ite (.park h) (hk h)
  · exact .ite (.park h) (hk h)
  · exact h
  · exact .ite h (.parkTrans h)
  · exact .parkTrans h

theorem State.Canonical.issueRead {f : Firing} {o : Out} {op : MemOp} {ea home size : Nat}
    {data extra : Word} {lsid : Nat} {ord : Option Scope} (h : s.Canonical) :
    (s.issueRead f o op ea home size data extra lsid ord).Canonical :=
  h

theorem State.Canonical.issueNow {f : Firing} {o : Out} {op : MemOp} {ea home size : Nat}
    {data extra : Word} {lsid : Nat} {ord : Option Scope} (h : s.Canonical) :
    (s.issueNow f o op ea home size data extra lsid ord).Canonical :=
  .ite (.park h) h

theorem State.Canonical.holdRel {f : Firing} {o : Out} {scope : Scope} {lsid : Nat}
    (h : s.Canonical) : (s.holdRel f o scope lsid).Canonical :=
  .ite h h

theorem State.Canonical.bufferWrite {f : Firing} {o : Out} {op : MemOp} {ea home size : Nat}
    {data : Word} {lsid : Nat} {ord : Option Scope} (h : s.Canonical) :
    (s.bufferWrite f o op ea home size data lsid ord).Canonical := by
  unfold State.bufferWrite
  refine .ite (.park h) ?_
  dsimp only
  split
  · refine .holdRel (.editAct ?_)
    split
    · exact .writeSpill h
    · exact h
  · refine .editAct ?_
    split
    · exact .writeSpill h
    · exact h

theorem Result.Canonical.reading {o : Out} {op : MemOp} {size : Nat} {m : MemForm}
    (h : s.Canonical) : (reading o op size m s).Canonical :=
  .onFiring h fun h => .withHome h fun h => h

theorem Result.Canonical.writingNow {o : Out} {op : MemOp} {size : Nat} {m : MemForm} {need : Nat}
    (h : s.Canonical) : (writingNow o op size m need s).Canonical :=
  .onFiring h fun h => .withHome h fun h => .issueNow h

theorem Result.Canonical.writingLater {o : Out} {op : MemOp} {size : Nat} {m : MemForm} {need : Nat}
    (h : s.Canonical) : (writingLater o op size m need s).Canonical :=
  .onFiring h fun h => .withHome h fun h => .bufferWrite h

theorem Result.Canonical.exactNow {o : Out} {op : MemOp} {sz : Width} {m : MemForm} {need : Nat}
    (h : s.Canonical) : (exactNow o op sz m need s).Canonical :=
  .onFiring h fun h => .withHome h fun h => .issueNow h

/-! ## Requests -/

theorem State.Canonical.seenBy {q : Req} (h : s.Canonical) : (s.seenBy q).Canonical :=
  have seen := Memory.wf_memWrite h ..
  .ite h (.ite seen (.ite seen seen))

theorem State.Canonical.completeLater {n : Nat} {q : Req} {tok : Tok} (h : s.Canonical) :
    (s.completeLater n q tok).Canonical := by
  unfold State.completeLater
  split
  · exact .emitOut h
  · exact h

theorem State.Canonical.reply {n : Nat} {q : Req} {tok : Tok} {fl : Nat} (h : s.Canonical) :
    (s.reply n q tok fl).Canonical := by
  unfold State.reply
  dsimp only
  split
  · exact .completeLater (.raise h)
  · exact .emitOut (.editAct (.raise h))
  · exact .emitOut (.raise h)

theorem State.Canonical.trapRequest {n : Nat} {q : Req} {cause : Nat} {info : Word}
    (h : s.Canonical) : (s.trapRequest n q cause info).Canonical :=
  .trap h

theorem State.Canonical.releaseBars {a gen : Nat} (h : s.Canonical) :
    (s.releaseBars a gen).Canonical := by
  unfold State.releaseBars
  refine .foldl ?_ h
  intro _ _ h
  split
  · exact .ite (.reply h) h
  · exact h

theorem State.Canonical.loadEntry {n : Nat} {q : Req} {base : Word} (h : s.Canonical) :
    (s.loadEntry n q base).Canonical :=
  .withHome h fun h => h

theorem State.Canonical.settle {n : Nat} {q : Req} {a : HomeAns} (h : s.Canonical)
    (ha : a.Canonical) : (s.settle n q a).Canonical := by
  unfold State.settle
  split
  · exact .reply h
  · exact h
  · exact .wake ha
  · exact .trapRequest h
  · exact .loadEntry h
  · exact .ite (.releaseBars (.reply (.ite (.taint (.ite (.wake ha) h)) (.ite (.wake ha) h))))
      (.reply (.ite (.taint (.ite (.wake ha) h)) (.ite (.wake ha) h)))

theorem State.Canonical.performReq {n : Nat} {q : Req} (h : s.Canonical) :
    (s.performReq n q).Canonical :=
  .ite (.settle h (.perform (.seenBy h))) (.ite (.settle h .poison)
    (.ite (.trapRequest h) (.ite (.trapRequest h) (.settle h (.perform h)))))

theorem State.Canonical.answerReader {n : Nat} {q : Req} {p : Packet} (h : s.Canonical) :
    (s.answerReader n q p).Canonical := by
  unfold State.answerReader
  dsimp only
  split
  · next e =>
    have k := HomeAns.Canonical.of_done e (.perform h)
    exact .replyEntry k
  · exact .replyEntry h
  · exact h

theorem State.Canonical.readSatisfied {n : Nat} {q : Req} (h : s.Canonical) :
    (s.readSatisfied n q).Canonical := by
  unfold State.readSatisfied
  split
  · exact .answerReader h
  · exact .settle h (.perform (.seenBy h))

theorem State.Canonical.readAllFrom {a fuel : Nat} (h : s.Canonical) :
    (readAllFrom s a fuel).Canonical := by
  induction fuel generalizing s with
  | zero => exact h
  | succ fuel ih =>
    unfold Machine.readAllFrom
    split
    · exact ih (.readSatisfied h)
    · exact h

theorem State.Canonical.readAll {a : Nat} (h : s.Canonical) : (s.readAll a).Canonical :=
  .readAllFrom h

theorem State.Canonical.readAllVirt {c va : Nat} (h : s.Canonical) :
    (s.readAllVirt c va).Canonical := by
  unfold State.readAllVirt
  split
  · exact .readAll h
  · exact h

theorem Result.Canonical.execLdvRelease {n : Nat} (h : s.Canonical) :
    (execLdvRelease n s).Canonical := by
  unfold Machine.execLdvRelease
  refine .next ?_
  split
  · exact h
  · exact .ite h (.readSatisfied h)

theorem State.Canonical.coreWrite {a : Nat} {bs : List Byte} (h : s.Canonical) :
    (s.coreWrite a bs).Canonical :=
  .ite h (.deviceWrite h)

theorem State.Canonical.homeEvent {n : Nat} {serves : Nat → Bool}
    {special : State → Nat → Req → State} (h : s.Canonical)
    (hspecial : ∀ {u : State} {a : Nat} {b : Req}, u.Canonical → (special u a b).Canonical) :
    (s.homeEvent n serves special).Canonical := by
  unfold State.homeEvent
  split
  · exact h
  · refine .ite h ?_
    split
    · exact hspecial h
    · exact hspecial h
    · exact .performReq h

theorem State.Canonical.endWalk {res : Except WalkFault Leaf} {n : Nat} {w : Walk}
    (h : s.Canonical) : (s.endWalk res n w).Canonical := by
  unfold State.endWalk
  dsimp only
  split
  · exact h
  · exact .ite h (.parkTrans h)

theorem Result.Canonical.execPageWalk {n : Nat} (h : s.Canonical) :
    (execPageWalk n s).Canonical := by
  unfold Machine.execPageWalk
  refine .next ?_
  split
  · exact h
  · exact .ite h (.foldl (fun h' => .ite (.endWalk h') h') h)

/-! ## Steering, control and tags -/

theorem State.Canonical.steerTo {f : Firing} {o : Out} {first : Bool} (h : s.Canonical) :
    (s.steerTo f o first).Canonical :=
  .ite (.emit (.emit h)) (.emit (.emit h))

theorem State.Canonical.countExit {f : Firing} (h : s.Canonical) : (s.countExit f).Canonical := h

theorem State.Canonical.sendTo {f : Firing} {dest : Word} {colour iter : Nat} {outer : Bool}
    (h : s.Canonical) : (s.sendTo f dest colour iter outer).Canonical := by
  unfold State.sendTo
  split
  · exact .park h
  · exact .ite (.park h) (.inject h)

theorem Result.Canonical.execSendx {_pred : Bool} {_rep : BitVec 16} (h : s.Canonical) :
    (execSendx _pred _rep s).Canonical :=
  .onFiring h fun h => .ite (.sendTo h) (.ite (.park h) (.ite (.sendFarToken h) (.park h)))

theorem State.Canonical.emitTag {f : Firing} {o : Out} {iter : Nat} (h : s.Canonical) :
    (s.emitTag f o iter).Canonical :=
  .emitAs (.emitAs h)

theorem State.Canonical.seed {f : Firing} {o : Out} {c : Nat} (h : s.Canonical) :
    (s.seed f o c).Canonical :=
  .ite h (.ite (.taint h) h)

theorem State.Canonical.passThrottle {f : Firing} {o : Out} {tags : List Nat} (h : s.Canonical) :
    (s.passThrottle f o tags).Canonical :=
  .emitOut h

/-! ## Activations and tokens -/

theorem Result.Canonical.execTokenArrival {n : Nat} (h : s.Canonical) :
    (execTokenArrival n s).Canonical := by
  unfold Machine.execTokenArrival
  refine .next ?_
  split
  · exact h
  · exact .ite h (.ite h (.ite h (.deliver h)))

theorem State.Canonical.trapOwner {r e : Nat} {a : Act} {st : Store} (h : s.Canonical) :
    (s.trapOwner r e a st).Canonical :=
  .trap h

theorem State.Canonical.commit {r e : Nat} {a : Act} (h : s.Canonical) :
    (s.commit r e a).Canonical :=
  .editAct (.foldl (fun h => h) (.foldl (fun h => .emitOut h) (.editCtx (.ite (.taint h) h))))

theorem Result.Canonical.execActivationCommit {r e uid : Nat} (h : s.Canonical) :
    (execActivationCommit r e uid s).Canonical := by
  unfold Machine.execActivationCommit
  refine .next ?_
  split
  · exact h
  · refine .ite h ?_
    split
    · exact .trapOwner h
    · exact .commit h

theorem Result.Canonical.execRelTokenSend {r e n : Nat} (h : s.Canonical) :
    (execRelTokenSend r e n s).Canonical := by
  unfold Machine.execRelTokenSend
  refine .next ?_
  split
  · exact h
  · exact .ite h (.emitOut h)

theorem Result.Canonical.execIdentityRetire {r e uid : Nat} (h : s.Canonical) :
    (execIdentityRetire r e uid s).Canonical := by
  unfold Machine.execIdentityRetire
  refine .next ?_
  split
  · exact h
  · exact .ite h h

theorem State.Canonical.checkAge {r e : Nat} {a : Act} {limit : Nat} (h : s.Canonical) :
    (s.checkAge r e a limit).Canonical :=
  .ite h (.trap h)

theorem State.Canonical.checkElem {r e : Nat} {x : Elem} (h : s.Canonical) :
    (s.checkElem r e x).Canonical := by
  unfold State.checkElem
  split
  · exact h
  · exact .foldl (fun h => .checkAge h) h

theorem State.Canonical.purgeAt {r key : Nat} {cs : List Nat} (h : s.Canonical) :
    (s.purgeAt r key cs).Canonical := by
  unfold State.purgeAt
  split <;> exact h

theorem Result.Canonical.execKillTokenArrival {n key : Nat} (h : s.Canonical) :
    (execKillTokenArrival n key s).Canonical := by
  unfold Machine.execKillTokenArrival
  refine .next ?_
  split
  · exact h
  · exact .ite h (.purgeAt h)

theorem Result.Canonical.execKillWaveComplete {n : Nat} (h : s.Canonical) :
    (execKillWaveComplete n s).Canonical := by
  unfold Machine.execKillWaveComplete
  refine .next ?_
  split
  · exact h
  · split
    · exact .ite (.ite h (.emitOut h)) h
    · exact .ite h h

theorem Result.Canonical.execColnewGrant {ctx colour : Nat} (h : s.Canonical) :
    (execColnewGrant ctx colour s).Canonical := by
  unfold Machine.execColnewGrant
  refine .next ?_
  dsimp only
  split
  · exact h
  · exact .ite h (.emitOut h)

theorem Result.Canonical.execThrottlePass {r k slot : Nat} (h : s.Canonical) :
    (execThrottlePass r k slot s).Canonical := by
  unfold Machine.execThrottlePass
  refine .next ?_
  dsimp only
  split
  · exact h
  · refine .ite h ?_
    split
    · exact h
    · exact .ite (.emitOut h) (.passThrottle h)

theorem Result.Canonical.execPromiseDue {r k n : Nat} (h : s.Canonical) :
    (execPromiseDue r k n s).Canonical := by
  unfold Machine.execPromiseDue
  refine .next ?_
  split
  · exact h
  · exact .ite h (.emitOut h)

theorem Result.Canonical.execPromise {r k n : Nat} (h : s.Canonical) :
    (execPromise r k n s).Canonical := by
  unfold Machine.execPromise
  refine .next ?_
  split
  · exact h
  · exact .ite h (.park h)

/-! ## Floating-point instructions -/

theorem Result.Canonical.fltBinary {o : Out} {f : FltForm}
    {g : FSpec → RMode → FVal → FVal → Nat × Nat} (h : s.Canonical) :
    (fltBinary o f g s).Canonical :=
  .computingFl h

theorem Result.Canonical.fltUnary {o : Out} {fmt : FloatFmt} {rnd : Rounding}
    {g : FSpec → RMode → FVal → Nat × Nat} (h : s.Canonical) : (fltUnary o fmt rnd g s).Canonical :=
  .computingFl h

/-! ## What engine commands share -/

theorem Result.Canonical.onEngine {c : Cmd} {trigger : Bool}
    {work : State → Nat → Nat → Command → State} (h : s.Canonical)
    (hwork : ∀ {u : State} {a b : Nat} {d : Command}, u.Canonical → (work u a b d).Canonical) :
    (onEngine s c trigger work).Canonical := by
  unfold Machine.onEngine
  split
  · exact .next h
  · split
    · exact .next (hwork h)
    · exact .next h
  · exact .fault

theorem State.Canonical.editCmd {r n : Nat} {f : Command → Command} (h : s.Canonical) :
    (s.editCmd r n f).Canonical :=
  h

theorem State.Canonical.setProg {r n : Nat} {p : Prog} (h : s.Canonical) :
    (s.setProg r n p).Canonical :=
  h

theorem State.Canonical.finish {r n : Nat} {payload : Word} (h : s.Canonical) :
    (s.finish r n payload).Canonical :=
  h

theorem State.Canonical.cmdFlags {r n fl : Nat} (h : s.Canonical) : (s.cmdFlags r n fl).Canonical :=
  .same (State.cmdFlags_same ..) h

theorem State.Canonical.editFrame {r key : Nat} {f : Frame → Frame} (h : s.Canonical) :
    (s.editFrame r key f).Canonical :=
  h

theorem State.Canonical.stopCmd {r n : Nat} {c : Command} (h : s.Canonical) :
    (s.stopCmd r n c).Canonical :=
  .same (State.stopCmd_same ..) h

theorem State.Canonical.clearRow {r n : Nat} (h : s.Canonical) : (s.clearRow r n).Canonical := by
  unfold State.clearRow
  split
  · exact .ite h h
  · exact h

theorem State.Canonical.engineTrap {r n : Nat} {c : Command} {cause : Nat} {info : Word}
    {resume : Resume} (h : s.Canonical) : (s.engineTrap r n c cause info resume).Canonical :=
  .same (State.engineTrap_same ..) h

theorem State.Canonical.engineFault {r n : Nat} {c : Command} {cause : Nat} {info : Word}
    (h : s.Canonical) : (s.engineFault r n c cause info).Canonical :=
  .same (State.engineFault_same ..) h

theorem State.Canonical.engineIllegal {r n : Nat} {c : Command} (h : s.Canonical) :
    (s.engineIllegal r n c).Canonical :=
  .same (State.engineIllegal_same ..) h

theorem State.Canonical.engineTransFault {r n : Nat} {c : Command} {ea : Nat} {t : Trans}
    (h : s.Canonical) : (s.engineTransFault r n c ea t).Canonical := by
  unfold State.engineTransFault
  split
  · exact .engineFault h
  · exact .engineFault (.logFault h)
  · exact h

theorem State.Canonical.useTile {r n key : Nat} (h : s.Canonical) :
    (s.useTile r n key).Canonical := by
  unfold State.useTile
  split
  · exact h
  · exact .ite h h

theorem State.Canonical.servePort {r key rank : Nat} (h : s.Canonical) :
    (s.servePort r key rank).Canonical :=
  h

theorem State.Canonical.serveHome {a rank : Nat} (h : s.Canonical) :
    (s.serveHome a rank).Canonical :=
  .ite h h

theorem State.Canonical.andThen {α : Type} {g : Got α} {k : α → State → State} (hg : g.Canonical)
    (h : s.Canonical) (hk : ∀ {a : α} {u : State}, u.Canonical → (k a u).Canonical) :
    (g.andThen s k).Canonical := by
  unfold Got.andThen
  split
  · exact hk hg
  · exact h
  · exact hg

theorem State.Canonical.tileFor {r n a : Nat} (h : s.Canonical) (e : s.tileFor r n a = some t) :
    t.Canonical := by
  unfold State.tileFor at e
  dsimp only at e
  split_ifs at e <;> cases e
  · exact h
  · exact .useTile h

theorem Got.Canonical.heldAtTile {α : Type} {r n : Nat} {c : Command} (h : s.Canonical) :
    (s.heldAtTile (α := α) r n c).Canonical :=
  .ite (.stop h) .wait

theorem Got.Canonical.transStop {α : Type} {r n : Nat} {c : Command} {ea : Nat} {x : Trans}
    (h : s.Canonical) : (s.transStop (α := α) r n c ea x).Canonical := by
  unfold State.transStop
  split
  · exact .ite .wait (.stop (.engineTransFault h))
  · exact .stop (.engineTransFault h)

theorem Got.Canonical.engineRead {r n : Nat} {c : Command} {ea fmt : Nat} (h : s.Canonical) :
    (s.engineRead r n c ea fmt).Canonical := by
  unfold State.engineRead
  refine .ite (.got h) (.ite (.stop (.engineFault h)) ?_)
  split
  · split
    · exact .heldAtTile h
    · next e =>
      have k := State.Canonical.tileFor h e
      exact .ite .wait (.ite (.stop (.engineFault (.serveHome (.engineFill k))))
        (.got (.serveHome (.engineFill k))))
  · split
    · exact .got h
    · exact .ite .wait (.stop h)
  · exact .wait
  · exact .transStop h

theorem Got.Canonical.engineWrite {r n : Nat} {c : Command} {ea : Nat} {b : Blk} (h : s.Canonical) :
    (s.engineWrite r n c ea b).Canonical := by
  unfold State.engineWrite
  refine .ite (.got h) (.ite (.stop (.engineFault h)) ?_)
  split
  · split
    · exact .heldAtTile h
    · next e =>
      have k := State.Canonical.tileFor h e
      refine .ite .wait (.ite (.stop (.engineFault (.serveHome (.engineFill k)))) (.ite .wait ?_))
      exact .got (.wake (.writeBlock (.ite (.serveHome (.engineFill k))
        (.taint (.serveHome (.engineFill k))))))
  · exact .ite (.stop (.engineFault h)) (.ite .wait (.got (.taint h)))
  · exact .wait
  · exact .transStop h

theorem Got.Canonical.tileRead {r n : Nat} {c : Command} {key ix : Nat} (h : s.Canonical) :
    (s.tileRead r n c key ix).Canonical :=
  .ite (.got h) (.ite .wait (.ite (.stop (.engineFault h)) (.got h)))

theorem Got.Canonical.tileWrite {r : Nat} {c : Command} {key ix : Nat} {b : Blk} (h : s.Canonical) :
    (s.tileWrite r c key ix b).Canonical :=
  .ite (.got h) (.ite .wait (.got (.wake (.writeBlock (.servePort (.ite h (.taint h)))))))

theorem State.Canonical.beatFault {r n : Nat} {c : Command} {port : Nat} {b : Beat} {expected : Nat}
    (h : s.Canonical) : (s.beatFault r n c port b expected).Canonical :=
  .same (State.beatFault_same ..) h

theorem State.Canonical.takeBeat {r key port : Nat} (h : s.Canonical) :
    (s.takeBeat r key port).Canonical :=
  .same (State.takeBeat_same ..) h

theorem State.Canonical.putBeats {r key port : Nat} {bs : List Beat} (h : s.Canonical) :
    (s.putBeats r key port bs).Canonical :=
  .same (State.putBeats_same ..) h

theorem State.Canonical.countOrph {r key port k : Nat} (h : s.Canonical) :
    (s.countOrph r key port k).Canonical :=
  .same (State.countOrph_same ..) h

theorem State.Canonical.emitEngine {r : Nat} {c : Command} {t : Option Target} {tok : Tok}
    (h : s.Canonical) : (s.emitEngine r c t tok).Canonical := by
  unfold State.emitEngine
  split <;> exact h

theorem State.Canonical.completeTo {r : Nat} {c : Command} {tok : Tok} (h : s.Canonical) :
    (s.completeTo r c tok).Canonical :=
  .emitEngine (.emitEngine h)

/-! ## Frame commands -/

theorem State.Canonical.sweep {r n : Nat} {c : Command} {t : Bool} (h : s.Canonical) :
    (s.sweep r n c t).Canonical := by
  unfold State.sweep
  dsimp only
  split
  · exact h
  · refine .ite (.andThen (.engineRead h) h fun h' => .ite (.engineIllegal h') h') ?_
    split
    · exact .engineIllegal h
    · split
      · exact h
      · exact .andThen (.engineRead h) h fun h => .ite (.engineFault h) h

theorem State.Canonical.loadB {r n : Nat} {c : Command} (h : s.Canonical) :
    (s.loadB r n c).Canonical :=
  .ite h (.andThen (.engineRead h) h fun h' => .ite (.engineFault h') h')

theorem State.Canonical.loadC {r n : Nat} {c : Command} {t : Bool} (h : s.Canonical) :
    (s.loadC r n c t).Canonical :=
  .ite h (.andThen (.engineRead h) h fun h' => .ite (.engineFault h')
    (.ite (.setProg (.cmdFlags h')) (.setProg (.cmdFlags h'))))

theorem State.Canonical.multiply {r n : Nat} {c : Command} {x3 t : Bool} (h : s.Canonical) :
    (s.multiply r n c x3 t).Canonical := by
  unfold State.multiply
  refine .ite (.engineIllegal h) (.ite h (.ite h ?_))
  split
  · exact h
  · exact .ite (.takeBeat h) (.ite (.beatFault h) (.setProg (.cmdFlags (.editFrame (.takeBeat h)))))

theorem State.Canonical.outFrame {r n : Nat} {c : Command} {t : Bool} {rm : RMode} {fmt : Nat}
    {nanov : Bool} (h : s.Canonical) : (s.outFrame r n c t rm fmt nanov).Canonical :=
  .ite h (.andThen (.engineWrite h) h fun h' => .ite (.setProg (.editCmd (.cmdFlags h')))
    (.setProg (.editCmd (.cmdFlags h'))))

/-! ## Vector elements and converters -/

theorem State.Canonical.vecTake {r n q : Nat} (h : s.Canonical) : (s.vecTake r n q).Canonical := by
  unfold State.vecTake
  split
  · exact h
  · exact .editCmd (.takeBeat h)

theorem State.Canonical.vecTakeAll {r n : Nat} {qs : List Nat} (h : s.Canonical) :
    (s.vecTakeAll r n qs).Canonical :=
  .foldl (fun h => .vecTake h) h

theorem State.Canonical.vecPut {r key j : Nat} {b : Beat} (h : s.Canonical) :
    (s.vecPut r key j b).Canonical :=
  .putBeats h

theorem State.Canonical.vecOrph {r : Nat} {c : Command} {q : Nat} (h : s.Canonical) :
    (s.vecOrph r c q).Canonical :=
  .countOrph h

theorem State.Canonical.vecPutBoth {r key : Nat} {b : Beat} (h : s.Canonical) :
    (s.vecPutBoth r key b).Canonical :=
  .putBeats (.putBeats h)

theorem State.Canonical.openFibres {r n : Nat} {qs : List Nat} (h : s.Canonical) :
    (s.openFibres r n qs).Canonical :=
  h

theorem State.Canonical.joinData {r n : Nat} {c : Command} {fmt : Nat} {f : FSpec} {g : Lanes}
    {hs : List (Nat × Nat × Beat)} {pad : Nat} (h : s.Canonical) :
    (s.joinData r n c fmt f g hs pad).Canonical :=
  .vecTakeAll (.openFibres (.editCmd (.cmdFlags (.vecPut h))))

theorem State.Canonical.join {r n : Nat} {c : Command} {fmt orp : Nat} {f : FSpec} {g : Lanes}
    {qs : List Nat} (h : s.Canonical) : (s.join r n c fmt orp f g qs).Canonical := by
  unfold State.join
  refine .ite h ?_
  split
  · exact h
  · split
    · exact .beatFault h
    · refine .ite (.joinData h) (.ite (.finish (.vecTakeAll (.vecPut h)))
        (.ite ?_ (.ite (.vecTakeAll (.editCmd (.ite h (.ite (.vecPut h) (.vecPutBoth h)))))
        (.ite (.vecTakeAll (.editCmd (.ite (.foldl (fun h => .vecOrph h) h)
        (.ite (.vecPut (.foldl (fun h => .vecOrph h) h))
        (.vecPutBoth (.foldl (fun h => .vecOrph h) h))))))
        (.ite (.engineTrap h) (.vecTakeAll (.editCmd
        (.ite h (.ite (.vecPut h) (.vecPutBoth h))))))))))
      dsimp only
      split
      · exact .vecTakeAll h
      · exact .joinData h
      · exact .ite (.vecTakeAll (.openFibres (.foldl (fun h => .vecOrph h) h)))
          (.ite (.joinData (.foldl (fun h => .vecOrph h) h)) (.engineTrap h))

theorem State.Canonical.stream {r n : Nat} {c : Command} {fmt : Nat}
    {data ctrl : State → Beat → State} (h : s.Canonical)
    (hdata : ∀ {u : State} {a : Beat}, u.Canonical → (data u a).Canonical)
    (hctrl : ∀ {u : State} {a : Beat}, u.Canonical → (ctrl u a).Canonical) :
    (s.stream r n c fmt data ctrl).Canonical := by
  unfold State.stream
  refine .ite h ?_
  split
  · exact h
  · exact .ite (hctrl h) (.ite (.beatFault h) (hdata h))

theorem State.Canonical.passCtrl {r n : Nat} {c : Command} {payload : Word} {b : Beat}
    (h : s.Canonical) : (s.passCtrl r n c payload b).Canonical :=
  .ite (.finish (.vecTake (.vecPut h))) (.vecTake (.vecPut h))

theorem Result.Canonical.execVmap {c : Cmd} {f : VecForm} (h : s.Canonical) :
    (execVmap c f s).Canonical :=
  .onEngine h fun h => .stream h (fun h => .vecTake (.cmdFlags (.vecPut h))) fun h => .passCtrl h

theorem State.Canonical.redCtrl {r n : Nat} {c : Command} {f : FSpec} {fmt : Nat} {rm : RMode}
    {fn : Nat} {eacc : Int} {b : Beat} (h : s.Canonical) :
    (s.redCtrl r n c f fmt rm fn eacc b).Canonical :=
  .ite (.ite (.finish (.vecTake (.editCmd (.cmdFlags (.putBeats h)))))
    (.finish (.vecTake (.editCmd (.cmdFlags (.putBeats h))))))
    (.vecTake (.editCmd (.cmdFlags (.putBeats h))))

theorem Result.Canonical.execVred {c : Cmd} {f : VecForm} (h : s.Canonical) :
    (execVred c f s).Canonical :=
  .onEngine h fun h => .stream h (fun h => .vecTake (.cmdFlags h)) fun h => .redCtrl h

theorem Result.Canonical.execVscan {c : Cmd} {f : VecForm} (h : s.Canonical) :
    (execVscan c f s).Canonical :=
  .onEngine h fun h => .stream h (fun h => .vecTake (.editCmd (.cmdFlags (.vecPut h)))) fun h =>
    .passCtrl h

theorem State.Canonical.vecPutAll {r key j : Nat} {bs : List Beat} (h : s.Canonical) :
    (s.vecPutAll r key j bs).Canonical := by
  induction bs generalizing s j with
  | nil => exact h
  | cons b bs ih => exact ih (.vecPut h)

theorem State.Canonical.fibreStep {r n : Nat} {c : Command} {fmt : Nat}
    {g : List Nat → List (Nat × Nat)} (h : s.Canonical) : (s.fibreStep r n c fmt g).Canonical :=
  .stream h (fun h => .ite (.vecTake h) (.ite (.engineFault h) (.vecTake h))) fun h => .passCtrl
    (.editCmd (.cmdFlags (.vecPutAll h)))

theorem State.Canonical.convert {r n : Nat} {c : Command} {rm : RMode} {fmt : Nat} {nanov : Bool}
    (h : s.Canonical) : (s.convert r n c rm fmt nanov).Canonical := by
  unfold State.convert
  refine .ite h ?_
  split
  · exact h
  · exact .ite (.ite (.beatFault h) (.setProg (.cmdFlags (.putBeats (.takeBeat h)))))
      (.ite (.finish (.setProg (.cmdFlags (.putBeats (.takeBeat h)))))
      (.setProg (.cmdFlags (.putBeats (.takeBeat h)))))

/-! ## Camera registers, projection and gathers -/

theorem State.Canonical.loadCamera {r n : Nat} {c : Command} {cam : Nat} (h : s.Canonical) :
    (s.loadCamera r n c cam).Canonical := by
  unfold State.loadCamera
  dsimp only
  split
  · exact .andThen (.engineRead h) h fun h => h
  · exact .andThen (.engineRead h) h fun h => .ite (.engineIllegal h) h

theorem Got.Canonical.storeRead {r n : Nat} {c : Command} {ea : Nat} (h : s.Canonical) :
    (s.storeRead r n c ea).Canonical :=
  .engineRead h

theorem Got.Canonical.storeWrite {r n : Nat} {c : Command} {ea : Nat} {b : Blk} (h : s.Canonical) :
    (s.storeWrite r n c ea b).Canonical :=
  .engineWrite h

theorem Got.Canonical.readEntry {r n : Nat} {c : Command} {ea : Nat} (h : s.Canonical) :
    (s.readEntry r n c ea).Canonical := by
  unfold State.readEntry
  split
  · next e =>
    have k := Got.Canonical.of_got e (.storeRead h)
    exact .got k
  · exact .wait
  · next e =>
    have k := Got.Canonical.of_stop e (.storeRead h)
    exact .stop k

theorem Got.Canonical.readBlocks {r n : Nat} {c : Command} {ea k : Nat} (h : s.Canonical) :
    (s.readBlocks r n c ea k).Canonical := by
  induction k generalizing s ea with
  | zero => exact .got h
  | succ k ih =>
    unfold State.readBlocks
    split
    · next e => exact .stop (Got.Canonical.of_stop e (.engineRead h))
    · exact .wait
    · next e =>
      have rest := ih (ea := ea + 64) (Got.Canonical.of_got e (.engineRead h))
      split
      · next e => exact .got (Got.Canonical.of_got e rest)
      · exact .wait
      · next e => exact .stop (Got.Canonical.of_stop e rest)

theorem Got.Canonical.readRecord {r n : Nat} {c : Command} {g : StoreDesc} {brick : Nat}
    {x : CellAt} (h : s.Canonical) : (s.readRecord r n c g brick x).Canonical :=
  .readBlocks h

theorem Got.Canonical.readSeen {r n : Nat} {c : Command} {g : StoreDesc} {brick : Nat} {x : CellAt}
    (h : s.Canonical) : (s.readSeen r n c g brick x).Canonical := by
  unfold State.readSeen
  dsimp only
  split
  · exact .wait
  · next e =>
    have k := Got.Canonical.of_stop e (.readBlocks h)
    exact .stop k
  · next e =>
    have k := Got.Canonical.of_got e (.readBlocks h)
    split
    · next e =>
      have k := Got.Canonical.of_got e (.readBlocks k)
      exact .got k
    · exact .wait
    · next e =>
      have k := Got.Canonical.of_stop e (.readBlocks k)
      exact .stop k

theorem State.Canonical.emitChannels {r : Nat} {c : Command} {kind : Kind} {outside : Bool}
    {data : List Byte} {ng : Nat} (h : s.Canonical) :
    (s.emitChannels r c kind outside data ng).Canonical := by
  induction ng with
  | zero => exact h
  | succ g ih =>
    unfold State.emitChannels
    dsimp only
    split
    · exact .emitEngine ih
    · exact ih

theorem State.Canonical.gathered {r n : Nat} {c : Command} {ng how sum : Nat} {d : BitVec 32}
    {data : List Byte} (h : s.Canonical) : (s.gathered r n c ng how sum d data).Canonical :=
  .finish (.setProg (.emitChannels h))

theorem State.Canonical.bound {r n : Nat} {c : Command} {k : StoreDesc → State} (h : s.Canonical)
    (hk : ∀ {u : StoreDesc}, (k u).Canonical) : (s.bound r n c k).Canonical := by
  unfold State.bound
  dsimp only
  split
  · exact .ite (.engineIllegal h) hk
  · exact .engineIllegal h

theorem State.Canonical.gatherFrom {r n : Nat} {c : Command} {ng : Nat} {k : StoreDesc → State}
    (h : s.Canonical) (hk : ∀ {u : StoreDesc}, (k u).Canonical) :
    (s.gatherFrom r n c ng k).Canonical :=
  .bound h (.ite (.engineFault h) hk)

theorem Got.Canonical.look {r n : Nat} {c : Command} {g : StoreDesc} {x : CellAt}
    (h : s.Canonical) : (s.look r n c g x).Canonical := by
  unfold State.look
  refine .ite (.got h) (.ite (.got h) ?_)
  split
  · next e =>
    have k := Got.Canonical.of_stop e (.readEntry h)
    exact .stop k
  · exact .wait
  · next e =>
    have k := Got.Canonical.of_got e (.readEntry h)
    split
    · exact .got k
    · exact .got k
    · exact .got k
    · split
      · next e =>
        have k := Got.Canonical.of_got e (.readSeen k)
        exact .got k
      · exact .wait
      · next e =>
        have k := Got.Canonical.of_stop e (.readSeen k)
        exact .stop k

theorem State.Canonical.gather {r n : Nat} {c : Command} {ng : Nat} (h : s.Canonical) :
    (s.gather r n c ng).Canonical := by
  unfold State.gather
  refine .gatherFrom h ?_
  intro _
  dsimp only
  split
  · exact .gathered h
  · refine .andThen (.look h) h ?_
    intro _ _ h
    split
    · exact h
    · exact .gathered h
    · exact .ite (.gathered h) (.gathered h)

theorem State.Canonical.ray {r n : Nat} {c : Command} {ng : Nat} (h : s.Canonical) :
    (s.ray r n c ng).Canonical := by
  unfold State.ray
  refine .gatherFrom h ?_
  intro _
  refine .ite (.gathered h) ?_
  split
  · exact h
  · refine .ite h (.andThen (.look h) h ?_)
    intro _ _ h'
    split
    · exact h'
    · exact h'
    · exact .ite (.gathered h') h'

/-! ## Sampler -/

theorem State.Canonical.editSampler {r key : Nat} {f : SamplerSt → SamplerSt} (h : s.Canonical) :
    (s.editSampler r key f).Canonical :=
  h

theorem Got.Canonical.sampRead {r n : Nat} {c : Command} {ea : Nat} (h : s.Canonical) :
    (s.sampRead r n c ea).Canonical :=
  .engineRead h

theorem State.Canonical.takeDraw {r n : Nat} {c : Command} {key : Word} {k : State → Nat → State}
    (h : s.Canonical) (hk : ∀ {u : State} {a : Nat}, u.Canonical → (k u a).Canonical) :
    (s.takeDraw r n c key k).Canonical := by
  unfold State.takeDraw
  refine .ite (hk h) ?_
  dsimp only
  split
  · exact hk h
  · refine .andThen (.sampRead h) h ?_
    intro _ _ h
    split
    · exact hk h
    · exact .ite (.engineFault h) h
  · exact .andThen (.sampRead h) h fun h' => .ite (.engineFault h') h'

theorem State.Canonical.setTable {r n : Nat} {c : Command} (h : s.Canonical) :
    (s.setTable r n c).Canonical :=
  .ite h (.andThen (.sampRead h) h fun h' => .ite (.engineIllegal h') h')

theorem State.Canonical.topk {r n : Nat} {c : Command} (h : s.Canonical) :
    (s.topk r n c).Canonical := by
  unfold State.topk
  refine .ite (.ite (.engineIllegal h) (.setProg (.ite h h))) ?_
  split
  · exact h
  · refine .ite (.finish (.takeBeat h)) (.ite (.takeBeat h) ?_)
    split
    · exact .beatFault h
    · exact .setProg (.cmdFlags (.editSampler (.takeBeat h)))

theorem State.Canonical.sample {r n : Nat} {c : Command} (h : s.Canonical) :
    (s.sample r n c).Canonical := by
  unfold State.sample
  dsimp only
  split
  · exact .engineIllegal h
  · exact .takeDraw h fun h' => .finish (.cmdFlags h')

theorem State.Canonical.accept {r n : Nat} {c : Command} (h : s.Canonical) :
    (s.accept r n c).Canonical := by
  unfold State.accept
  dsimp only
  split
  · exact .andThen (.sampRead h) h fun h => .ite h (.engineIllegal h)
  · exact .ite (.andThen (.sampRead h) h fun h => h)
      (.ite (.engineIllegal h) (.ite h (.takeDraw h fun h => .ite (.setProg (.cmdFlags h))
      (.finish (.cmdFlags h)))))

theorem State.Canonical.resid {r n : Nat} {c : Command} (h : s.Canonical) :
    (s.resid r n c).Canonical := by
  unfold State.resid
  dsimp only
  split
  · exact .andThen (.sampRead h) h fun h => .ite h (.engineIllegal h)
  · exact .ite (.andThen (.sampRead h) h fun h => .ite (.engineFault h) h)
      (.ite (.engineIllegal (.cmdFlags h)) (.takeDraw h fun h => .finish (.cmdFlags h)))

theorem State.Canonical.treemask {r n : Nat} {c : Command} (h : s.Canonical) :
    (s.treemask r n c).Canonical := by
  unfold State.treemask
  refine .ite (.engineIllegal h) (.ite h ?_)
  split
  · exact h
  · refine .ite h (.ite (.takeBeat h) (.ite (.beatFault h) ?_))
    split
    · exact .engineFault (.takeBeat h)
    · exact .finish (.putBeats (.takeBeat h))

/-! ## Memory-tile commands -/

theorem Result.Canonical.onTile {c : Cmd} {trigger : Bool}
    {work : State → Nat → Nat → Command → State} (h : s.Canonical)
    (hwork : ∀ {u : State} {a b : Nat} {d : Command}, u.Canonical → (work u a b d).Canonical) :
    (onTile s c trigger work).Canonical :=
  .onEngine h fun h => .ite (.engineFault h) (hwork h)

theorem State.Canonical.withShape {r n : Nat} {c : Command} {key g k : Nat} {f : Shape → State}
    (h : s.Canonical) (hf : ∀ {u : Shape}, (f u).Canonical) :
    (s.withShape r n c key g k f).Canonical := by
  unfold State.withShape
  split
  · exact h
  · exact hf

theorem State.Canonical.sendBlock {r n : Nat} {c : Command} {sh : Shape} {port : Nat} {g : Segments}
    (h : s.Canonical) : (s.sendBlock r n c sh port g).Canonical := by
  unfold State.sendBlock
  refine .ite h ?_
  split
  · exact .finish (.putBeats h)
  · exact .andThen (.tileRead h) h fun h => .setProg (.putBeats h)

theorem State.Canonical.takeBlock {r n : Nat} {c : Command} {sh : Shape} {port : Nat}
    (h : s.Canonical) : (s.takeBlock r n c sh port).Canonical := by
  unfold State.takeBlock
  dsimp only
  split
  · exact h
  · exact .ite (.finish (.takeBeat h)) (.ite (.setProg (.takeBeat h))
      (.ite (.countOrph (.takeBeat h)) (.andThen (.tileWrite (.takeBeat h)) h fun h => h)))

theorem State.Canonical.fillBlock {r n : Nat} {c : Command} {sh : Shape} (h : s.Canonical) :
    (s.fillBlock r n c sh).Canonical :=
  .ite h (.andThen (.tileWrite h) h fun h => h)

theorem State.Canonical.compress {r n : Nat} {c : Command} {sh : Shape} {port : Nat}
    (h : s.Canonical) : (s.compress r n c sh port).Canonical := by
  unfold State.compress
  refine .ite h (.ite (.finish (.putBeats h))
    (.ite (.setProg (.putBeats h)) (.andThen (.tileRead h) h ?_)))
  intro _ _ h
  split
  · exact .engineFault h
  · exact .setProg (.putBeats h)

theorem State.Canonical.zeroRow {r : Nat} {c : Command} {sh : Shape} {row fmt : Nat}
    (h : s.Canonical) : (s.zeroRow r c sh row fmt).Canonical :=
  .foldl (fun h => .andThen (.tileWrite h) h fun h => h) h

theorem Got.Canonical.putElem {r n : Nat} {c : Command} {ix fmt lane v : Nat} (h : s.Canonical) :
    (s.putElem r n c ix fmt lane v).Canonical :=
  .ite (.stop (.engineFault h)) (.tileWrite h)

theorem State.Canonical.spread {r n : Nat} {c : Command} {sh : Shape} {port fmt : Nat} {b : Blk}
    (h : s.Canonical) : (s.spread r n c sh port fmt b).Canonical := by
  unfold State.spread
  dsimp only
  split
  · exact h
  · exact .ite (.setProg (.countOrph h)) (.andThen (.putElem h) h fun h => h)

theorem State.Canonical.expand {r n : Nat} {c : Command} {sh : Shape} {port vt : Nat}
    (h : s.Canonical) : (s.expand r n c sh port vt).Canonical := by
  unfold State.expand
  dsimp only
  split
  · exact .spread h
  · split
    · exact h
    · exact .ite (.finish (.takeBeat h)) (.ite (.beatFault h)
        (.ite (.ite (.setProg (.countOrph h)) (.ite h (.setProg (.zeroRow h))))
        (.ite (.finish (.takeBeat h)) (.ite (.setProg (.takeBeat h))
        (.ite (.takeBeat h) (.setProg (.takeBeat h)))))))

theorem State.Canonical.addPair {r n : Nat} {c : Command} {sh : Shape} {port : Nat} {b : Blk}
    (h : s.Canonical) : (s.addPair r n c sh port b).Canonical := by
  unfold State.addPair
  dsimp only
  split
  · exact h
  · exact .ite (.setProg (.countOrph h)) (.andThen (.putElem h) h fun h' => .setProg (.cmdFlags h'))

theorem State.Canonical.flushSums {r : Nat} {c : Command} {sh : Shape} {vt : Nat} {xs : List Nat}
    (h : s.Canonical) : (s.flushSums r c sh vt xs).1.Canonical :=
  .foldl (fun h => .andThen (.tileWrite h) h fun h => h) h

theorem State.Canonical.accumulate {r n : Nat} {c : Command} {sh : Shape} {port vt level : Nat}
    (h : s.Canonical) : (s.accumulate r n c sh port vt level).Canonical := by
  unfold State.accumulate
  dsimp only
  split
  · exact .addPair h
  · refine .ite (.ite (.setProg (.zeroRow h)) h) ?_
    split
    · exact h
    · refine .ite (.ite (.beatFault h) (.setProg (.takeBeat h))) (.ite (.takeBeat h) (.ite h ?_))
      split
      · exact .engineFault h
      · exact .ite (.finish (.setProg (.cmdFlags (.putBeats (.flushSums (.takeBeat h))))))
          (.setProg (.cmdFlags (.putBeats (.flushSums (.takeBeat h)))))

theorem State.Canonical.rmwReturn {r n : Nat} {p : Prog} {q : Nat × Nat} (h : s.Canonical) :
    (s.rmwReturn r n p q).Canonical :=
  h

theorem State.Canonical.rmwPair {r n : Nat} {c : Command} {sh : Shape} {port : Nat} {op : RmwOp}
    {b : Blk} (h : s.Canonical) : (s.rmwPair r n c sh port op b).Canonical := by
  unfold State.rmwPair
  dsimp only
  split
  · exact .ite h (.setProg (.putBeats h))
  · refine .ite (.rmwReturn (.countOrph h)) (.ite h (.ite h ?_))
    split
    · exact h
    · exact .engineFault h
    · exact .engineFault h
    · exact .andThen (.ite (.got h) (.putElem h)) h fun h' => .rmwReturn (.cmdFlags h')

theorem State.Canonical.readModify {r n : Nat} {c : Command} {sh : Shape} {port : Nat} {op : RmwOp}
    (h : s.Canonical) : (s.readModify r n c sh port op).Canonical := by
  unfold State.readModify
  dsimp only
  split
  · exact .rmwPair h
  · split
    · exact h
    · refine .ite (.finish (.takeBeat h)) (.ite (.ite h (.setProg (.putBeats (.takeBeat h)))) ?_)
      split
      · exact .beatFault h
      · split
        · exact h
        · exact .engineFault h
        · exact .beatFault h
        · exact .setProg (.takeBeat h)

theorem Got.Canonical.readRing {r n : Nat} {c : Command} {ix : Nat} {keys : List Nat}
    (h : s.Canonical) : (s.readRing r n c ix keys).Canonical := by
  induction keys generalizing s with
  | nil => exact .got h
  | cons k ks ih =>
    unfold State.readRing
    split
    · next e => exact .stop (Got.Canonical.of_stop e (.tileRead h))
    · exact .wait
    · next e =>
      have rest := ih (Got.Canonical.of_got e (.tileRead h))
      split
      · next e => exact .got (Got.Canonical.of_got e rest)
      · exact .wait
      · next e => exact .stop (Got.Canonical.of_stop e rest)

theorem State.Canonical.rotate {r n : Nat} {c : Command} {sh : Shape} (h : s.Canonical) :
    (s.rotate r n c sh).Canonical :=
  .ite h (.ite h (.andThen (.readRing h) h fun h => .setProg
    (.foldl (fun h => .andThen (.tileWrite h) h fun h => h) h)))

theorem State.Canonical.holdOwn {f : Firing} {c : Cmd} (h : s.Canonical) :
    (s.holdOwn f c).Canonical :=
  .ite h h

theorem State.Canonical.flipOwn {r n : Nat} {c : Command} (h : s.Canonical) :
    (s.flipOwn r n c).Canonical :=
  .ite (.engineFault h) h

theorem Result.Canonical.execOwn {c : Cmd} (h : s.Canonical) : (execOwn c s).Canonical := by
  unfold Machine.execOwn
  split
  · exact .next (.holdOwn h)
  · split
    · exact .next (.flipOwn h)
    · exact .next h
  · exact .fault

theorem Result.Canonical.execOwnToLace {c : Cmd} (h : s.Canonical) :
    (execOwnToLace c s).Canonical := by
  unfold Machine.execOwnToLace
  refine .onTile h ?_
  intro _ _ _ _ h
  split
  · exact h
  · exact .ite h (.ite h h)

/-! ## Lighter commands -/

theorem State.Canonical.editCopies {die l : Nat} {f : List Copy → List Copy} (h : s.Canonical) :
    (s.editCopies die l f).Canonical :=
  h

theorem State.Canonical.acceptCopy {r n : Nat} {c : Command} {f : CopyForm} {need : Nat}
    (h : s.Canonical) : (s.acceptCopy r n c f need).Canonical := by
  unfold State.acceptCopy
  refine .ite h ?_
  split
  · exact h
  · exact .completeTo h

theorem Got.Canonical.indexOf {r n : Nat} {c : Command} {f : CopyForm} {rows row : Nat}
    (h : s.Canonical) : (s.indexOf r n c f rows row).Canonical := by
  unfold State.indexOf
  refine .ite (.got h) (.ite (.stop (.engineFault h)) ?_)
  split
  · next e =>
    have k := Got.Canonical.of_got e (.tileRead h)
    exact .ite (.stop (.engineFault k)) (.ite (.stop (.engineFault k)) (.got k))
  · exact .wait
  · next e =>
    have k := Got.Canonical.of_stop e (.tileRead h)
    exact .stop k

theorem Got.Canonical.copyOffset {r n : Nat} {c : Command} {f : CopyForm} {w : CopyWalk}
    {sh : Shape} {pitch i : Nat} (h : s.Canonical) :
    (s.copyOffset r n c f w sh pitch i).Canonical := by
  unfold State.copyOffset
  dsimp only
  split
  · exact .got h
  · exact .got h
  · split
    · next e =>
      have k := Got.Canonical.of_got e (.indexOf h)
      exact .got k
    · exact .wait
    · next e =>
      have k := Got.Canonical.of_stop e (.indexOf h)
      exact .stop k

theorem State.Canonical.copyBlock {r n : Nat} {c : Command} {f : CopyForm} {w : CopyWalk} {d : Bool}
    {sh : Shape} {pitch : Nat} (h : s.Canonical) : (s.copyBlock r n c f w d sh pitch).Canonical :=
  .ite h (.ite h (.ite (.engineFault h) (.ite (.andThen (.heldAtTile h) h fun h => h)
    (.andThen (.copyOffset (.useTile h)) (.useTile h) fun h => .ite
    (.andThen (.tileRead h) h fun h => .andThen (.engineWrite h) h fun h => h)
    (.ite h (.andThen (.engineRead h) h fun h => .andThen (.tileWrite h) h fun h => h))))))

theorem State.Canonical.copyStep {r n : Nat} {c : Command} {f : CopyForm} {w : CopyWalk} {d : Bool}
    (h : s.Canonical) : (s.copyStep r n c f w d).Canonical := by
  unfold State.copyStep
  split
  · exact .ite h (.copyBlock h)
  · exact .acceptCopy h

theorem Result.Canonical.execCpyq {c : Cmd} (h : s.Canonical) : (execCpyq c s).Canonical := by
  unfold Machine.execCpyq
  refine .onEngine h ?_
  intro _ _ _ _ h
  dsimp only
  split <;> exact h

theorem State.Canonical.dropCopy {r n key : Nat} (h : s.Canonical) :
    (s.dropCopy r n key).Canonical :=
  .editCopies (.foldl (fun h' => h') h)

/-! ## Strands -/

theorem State.Canonical.editStrand {r k : Nat} {f : Strand → Strand} (h : s.Canonical) :
    (s.editStrand r k f).Canonical :=
  h

theorem State.Canonical.onStrand {f : Firing} {num branch : Nat} {k : Nat → State} (h : s.Canonical)
    (hk : ∀ {u : Nat}, (k u).Canonical) : (s.onStrand f num branch k).Canonical := by
  unfold State.onStrand
  split
  · exact .illegalWord h
  · exact .ite (.illegalWord h) hk

theorem State.Canonical.applyPermit {r k : Nat} {q : CtrlReq} (h : s.Canonical) :
    (s.applyPermit r k q).Canonical := by
  unfold State.applyPermit
  dsimp only
  split
  · exact .emitOut (.raise h)
  · exact .emitOut h
  · exact h

theorem State.Canonical.permitOp {f : Firing} {num : Nat} {q : CtrlReq} (h : s.Canonical) :
    (s.permitOp f num q).Canonical :=
  .onStrand h (.ite (.applyPermit h) h)

theorem State.Canonical.closeCommand {r n sent : Nat} {c : Command} {producer : Bool}
    (h : s.Canonical) : (s.closeCommand r n sent c producer).Canonical := by
  unfold State.closeCommand
  split
  · exact h
  · exact .ite h h
  · dsimp only
    split <;> exact h

theorem State.Canonical.closeProducer {r k : Nat} {how : Nat → Closing} (h : s.Canonical) :
    (s.closeProducer r k how).Canonical := by
  unfold State.closeProducer
  dsimp only
  cases (s.run r).producer ((s.run r).strands.get k)
  · exact h
  · exact .closeCommand h

theorem State.Canonical.closeConsumer {f : Firing} {o : Out} {k : Nat} (h : s.Canonical) :
    (s.closeConsumer f o k).Canonical := by
  unfold State.closeConsumer
  refine .editStrand (.foldl ?_ h)
  intro _ _ h
  refine .ite ?_ h
  split
  · exact .ite (.closeCommand h) h
  · exact h

theorem Result.Canonical.execStrclose {o : Out} {strand : BitVec 8} (h : s.Canonical) :
    (execStrclose o strand s).Canonical :=
  .onFiring h fun h => .onStrand h (.ite (.closeProducer h) (.closeConsumer h))

theorem Result.Canonical.execStrandBeatSend {r k : Nat} (h : s.Canonical) :
    (execStrandBeatSend r k s).Canonical := by
  unfold Machine.execStrandBeatSend
  refine .next ?_
  split
  · exact h
  · split
    · exact h
    · refine .ite h (.ite ?_ h)
      dsimp only
      split
      · exact .emitOut h
      · exact h

theorem State.Canonical.noticeClose {r k : Nat} (h : s.Canonical) :
    (s.noticeClose r k).Canonical := by
  unfold State.noticeClose
  split
  · exact .closeProducer h
  · exact h

theorem State.Canonical.drainClosings {r k : Nat} (h : s.Canonical) :
    (s.drainClosings r k).Canonical :=
  .ite h (.foldl (fun h => .emitOut h) h)

theorem Result.Canonical.execControlStrandRequest {r k : Nat} (h : s.Canonical) :
    (execControlStrandRequest r k s).Canonical := by
  unfold Machine.execControlStrandRequest
  refine .next ?_
  split
  · exact h
  · refine .ite h (.drainClosings ?_)
    split
    · exact h
    · dsimp only
      split
      · exact .noticeClose h
      · exact .applyPermit h

/-! ## Seam commands -/

theorem State.Canonical.seamTrap {r n : Nat} {c : Command} {t : SeamTok} {cause : Nat} {info : Word}
    {resume : Resume} (h : s.Canonical) : (s.seamTrap r n c t cause info resume).Canonical :=
  .trap h

theorem State.Canonical.packToken {r n : Nat} {c : Command} {input port w : Nat} (h : s.Canonical) :
    (s.packToken r n c input port w).Canonical := by
  unfold State.packToken
  refine .ite h (.ite h ?_)
  split
  · exact h
  · dsimp only
    split
    · exact .ite (.setProg (.putBeats h)) h
    · exact .ite (.setProg (.putBeats h)) h
    · exact .ite (.seamTrap h) (.ite (.finish (.setProg (.putBeats h))) (.setProg (.putBeats h)))
    · exact .seamTrap h
    · exact h

theorem State.Canonical.sendElems {r : Nat} {c : Command} {dst n : Nat} {ts : List Tok}
    (h : s.Canonical) : (s.sendElems r c dst n ts).Canonical := by
  induction ts generalizing s n with
  | nil => exact h
  | cons t ts ih => exact ih (h)

theorem State.Canonical.unpackBeat {r n : Nat} {c : Command} {port w : Nat} (h : s.Canonical) :
    (s.unpackBeat r n c port w).Canonical := by
  unfold State.unpackBeat
  dsimp only
  split
  · exact h
  · refine .ite (.ite (.finish (.takeBeat h)) (.takeBeat h)) ?_
    split
    · exact .ite (.setProg (.sendElems (.takeBeat h)))
        (.ite (.finish (.sendElems (.takeBeat h))) (.sendElems (.takeBeat h)))
    · exact .engineFault h
    · exact h

theorem State.Canonical.joinSend {r key : Nat} {p : Prog} {flush : Bool} (h : s.Canonical) :
    (s.joinSend r key p flush).1.Canonical :=
  .putBeats (.putBeats h)

theorem State.Canonical.joinLast {r key : Nat} {p : Prog} (h : s.Canonical) :
    (s.joinLast r key p).1.Canonical := by
  unfold State.joinLast
  dsimp only
  split
  · exact .joinSend h
  · exact .putBeats (.putBeats (.joinSend h))

theorem State.Canonical.joinLoad {r n : Nat} {c : Command} {side : Bool} {b : Beat}
    (h : s.Canonical) : (s.joinLoad r n c side b).Canonical := by
  unfold State.joinLoad
  dsimp only
  split
  · exact .beatFault h
  · split
    · exact .engineFault h
    · split
      · exact .takeBeat h
      · exact .takeBeat (.joinSend h)

theorem State.Canonical.joinStop {r n : Nat} {c : Command} {p : Prog} {level : Option Nat}
    (h : s.Canonical) : (s.joinStop r n c p level).Canonical :=
  .setProg (.putBeats (.putBeats (.joinLast h)))

theorem State.Canonical.joinEnd {r n : Nat} {c : Command} {la lb : Nat} (h : s.Canonical) :
    (s.joinEnd r n c la lb).Canonical :=
  .ite (.joinStop (.ite (.takeBeat (.ite (.takeBeat h) h)) (.ite (.takeBeat h) h)))
    (.ite (.engineTrap h) (.joinStop (.ite (.takeBeat
    (.ite (.takeBeat (.ite (.countOrph h) h)) (.ite (.countOrph h) h)))
    (.ite (.takeBeat (.ite (.countOrph h) h)) (.ite (.countOrph h) h)))))

theorem State.Canonical.joinOrphan {r n : Nat} {c : Command} {side : Bool} {head : Beat}
    (h : s.Canonical) : (s.joinOrphan r n c side head).Canonical := by
  unfold State.joinOrphan
  dsimp only
  split
  · exact .ite (.engineTrap h) (.ite (.setProg (.countOrph h)) h)
  · exact .ite (.takeBeat (.ite (.countOrph h) h)) (.ite h (.setProg (.takeBeat h)))
  · exact .ite (.setProg (.joinSend h)) (.ite (.joinLoad h)
      (.ite (.joinStop h) (.joinStop (.takeBeat h))))

theorem State.Canonical.joinPair {r n : Nat} {c : Command} {union : Bool} (h : s.Canonical) :
    (s.joinPair r n c union).Canonical := by
  unfold State.joinPair
  refine .ite (.setProg (.joinSend h)) ?_
  dsimp only
  split
  · exact .ite (.joinLoad h) (.ite (.joinLoad h) (.joinEnd h))
  · exact .ite (.joinLoad h) (.ite h (.setProg (.joinSend h)))
  · exact .ite (.joinLoad h) (.ite h (.setProg (.joinSend h)))
  · exact h

theorem State.Canonical.joinCoords {r n : Nat} {c : Command} {union : Bool} (h : s.Canonical) :
    (s.joinCoords r n c union).Canonical := by
  unfold State.joinCoords
  refine .ite h (.ite h (.ite (.joinPair h) ?_))
  split
  · exact .ite (.finish (.takeBeat (.takeBeat (.putBeats (.putBeats h)))))
      (.ite (.joinOrphan h) (.ite (.joinOrphan h) (.ite (.joinOrphan h) h)))
  · exact h

/-! ## Binding a store and changing it -/

theorem State.Canonical.bindStore {r n : Nat} {c : Command} (h : s.Canonical) :
    (s.bindStore r n c).Canonical := by
  unfold State.bindStore
  refine .ite (.engineFault h) (.ite (.engineFault h)
    (.ite (.andThen (.engineRead h) h fun h => h) ?_))
  dsimp only
  split
  · exact .engineFault h
  · exact .ite (.engineFault h) h

theorem Got.Canonical.countStore {r n : Nat} {c : Command} {k : Nat} (h : s.Canonical) :
    (s.countStore r n c k).Canonical := by
  unfold State.countStore
  dsimp only
  split
  · exact .wait
  · next e =>
    have k := Got.Canonical.of_stop e (.storeRead h)
    exact .stop k
  · next e =>
    have k := Got.Canonical.of_got e (.storeRead h)
    exact .storeWrite k

theorem State.Canonical.writePrior {r n : Nat} {c : Command} (h : s.Canonical) :
    (s.writePrior r n c).Canonical := by
  unfold State.writePrior
  refine .bound h ?_
  intro _
  dsimp only
  split
  · exact .andThen (.engineRead h) h fun h => .ite (.engineFault h) h
  · exact .andThen (.storeRead h) h fun h' => .andThen (.storeWrite h') h fun h => h

theorem Got.Canonical.pushBrick {r n : Nat} {c : Command} {g : StoreDesc} {brick : Nat}
    (h : s.Canonical) : (s.pushBrick r n c g brick).Canonical := by
  unfold State.pushBrick
  dsimp only
  split
  · exact .wait
  · next e =>
    have k := Got.Canonical.of_stop e (.storeRead h)
    exact .stop k
  · next e =>
    have k := Got.Canonical.of_got e (.storeRead h)
    split
    · exact .wait
    · next e =>
      have k := Got.Canonical.of_stop e (.storeRead k)
      exact .stop k
    · next e =>
      have k := Got.Canonical.of_got e (.storeRead k)
      split
      · exact .wait
      · next e =>
        have k := Got.Canonical.of_stop e (.storeWrite k)
        exact .stop k
      · next e =>
        have k := Got.Canonical.of_got e (.storeWrite k)
        exact .storeWrite k

theorem State.Canonical.clearStore {r n : Nat} {c : Command} (h : s.Canonical) :
    (s.clearStore r n c).Canonical := by
  unfold State.clearStore
  refine .bound h ?_
  intro _
  dsimp only
  split
  · exact .andThen (.pushBrick h) h fun h => h
  · exact .ite (.andThen (.storeRead h) h fun h' => .andThen (.storeWrite h') h fun h => h)
      (.andThen (.storeRead h) h fun h' => .ite h'
      (.ite (.andThen (.storeWrite h') h fun h => h) h))

theorem State.Canonical.scatterBeat {r n : Nat} {c : Command} {f : Nat} (h : s.Canonical) :
    (s.scatterBeat r n c f).Canonical := by
  unfold State.scatterBeat
  refine .ite h ?_
  split
  · exact h
  · exact .ite (.engineIllegal h) (.ite (.takeBeat h)
      (.ite (.beatFault h) (.setProg (.cmdFlags (.takeBeat h)))))

theorem State.Canonical.dropScatter {r n : Nat} {c : Command} {k status : Nat} (h : s.Canonical) :
    (s.dropScatter r n c k status).Canonical :=
  .andThen (.countStore h) h fun h => h

theorem State.Canonical.scatterProbe {r n : Nat} {c : Command} {g : StoreDesc} {x : CellAt}
    (h : s.Canonical) : (s.scatterProbe r n c g x).Canonical := by
  unfold State.scatterProbe
  refine .ite h (.andThen (.readEntry h) h ?_)
  intro _ _ h'
  split
  · exact h'
  · exact h'
  · exact h'
  · exact h

theorem State.Canonical.zeroBrick {r n : Nat} {c : Command} {g : StoreDesc} (h : s.Canonical) :
    (s.zeroBrick r n c g).Canonical :=
  .ite h (.andThen (.storeWrite h) h fun h => h)

theorem State.Canonical.exhausted {r n : Nat} {c : Command} {ptrap : Bool} (h : s.Canonical) :
    (s.exhausted r n c ptrap).Canonical :=
  .ite (.engineFault h) (.dropScatter h)

theorem State.Canonical.march {r n : Nat} {c : Command} {g : StoreDesc} (h : s.Canonical) :
    (s.march r n c g).Canonical := by
  unfold State.march
  refine .ite h ?_
  split
  · exact h
  · refine .ite h (.ite h (.andThen (.readEntry h) h ?_))
    intro _ _ h
    split <;> exact h

theorem State.Canonical.scatter {r n : Nat} {c : Command} {ptrap : Bool} (h : s.Canonical) :
    (s.scatter r n c ptrap).Canonical := by
  unfold State.scatter
  refine .bound h ?_
  intro _
  refine .ite (.scatterBeat h) ?_
  split
  · exact .dropScatter h
  · exact .ite h (.ite (.scatterProbe h) (.ite (.zeroBrick h)
      (.ite (.exhausted h) (.ite (.march h) (.ite (.dropScatter h) h)))))

theorem Result.Canonical.atHome {n stage : Nat}
    {k : State → Nat → Command → StoreDesc → CellAt → State} (h : s.Canonical)
    (hk : ∀ {u : State} {a : Nat} {b : Command} {d : StoreDesc} {z : CellAt}, u.Canonical →
    (k u a b d z).Canonical) : (s.atHome n stage k).Canonical := by
  unfold State.atHome
  refine .next ?_
  split
  · exact h
  · refine .ite h ?_
    split
    · split
      · exact hk h
      · exact h
    · exact h

theorem Result.Canonical.execBrickClaim {n : Nat} (h : s.Canonical) :
    (execBrickClaim n s).Canonical :=
  .atHome h fun h => .andThen (.storeRead h) h fun h' => .ite
    (.andThen (.storeWrite h') h fun h => h) (.ite h' h')

theorem Result.Canonical.execBrickPop {n : Nat} (h : s.Canonical) : (execBrickPop n s).Canonical :=
  .atHome h fun h => .andThen (.storeRead h) h fun h' => .ite
    (.andThen (.storeRead h') h fun h' => .andThen (.storeWrite h') h fun h => h)
    (.andThen (.storeRead h') h fun h' => .andThen (.storeWrite h') h fun h => h)

theorem Result.Canonical.execBrickPublish {n : Nat} (h : s.Canonical) :
    (execBrickPublish n s).Canonical :=
  .atHome h fun h => .andThen (.storeRead h) h fun h' => .andThen (.storeWrite h') h fun h => h

theorem Got.Canonical.writeRecord {r n : Nat} {c : Command} {ea : Nat} {all : Bool}
    {new old : List Blk} (h : s.Canonical) : (s.writeRecord r n c ea all new old).Canonical := by
  induction new generalizing s ea all old with
  | nil => exact .got h
  | cons b bs ih =>
    cases old with
    | nil => exact .got h
    | cons o os =>
      unfold State.writeRecord
      refine .ite ?_ (ih h)
      dsimp only
      split
      · next e => exact ih (Got.Canonical.of_got e (.engineWrite h))
      · exact .wait
      · next e => exact .stop (Got.Canonical.of_stop e (.engineWrite h))

theorem Got.Canonical.mayWrite {r n : Nat} {c : Command} {ea : Nat} {all : Bool}
    {new old : List Blk} (h : s.Canonical) : (s.mayWrite r n c ea all new old).Canonical := by
  induction new generalizing ea all old with
  | nil => exact .got h
  | cons b bs ih =>
    cases old with
    | nil => exact .got h
    | cons o os =>
      unfold State.mayWrite
      refine .ite ?_ ih
      split
      · exact ih
      · exact .wait
      · next e => exact .stop (Got.Canonical.of_stop e (.engineWrite h))

theorem Got.Canonical.changeRecord {r n : Nat} {c : Command} {ea : Nat} {all : Bool}
    {new old : List Blk} {k : Nat} (h : s.Canonical) :
    (s.changeRecord r n c ea all new old k).Canonical := by
  unfold State.changeRecord
  split
  · split
    · next e => exact .countStore (Got.Canonical.of_got e (.writeRecord h))
    · exact .wait
    · next e => exact .stop (Got.Canonical.of_stop e (.writeRecord h))
  · exact .countStore h
  · exact .mayWrite h

theorem Got.Canonical.stillThere {r n : Nat} {c : Command} {g : StoreDesc} {x : CellAt}
    {brick : Nat} (h : s.Canonical) : (s.stillThere r n c g x brick).Canonical := by
  unfold State.stillThere
  split
  · exact .wait
  · next e =>
    have k := Got.Canonical.of_stop e (.readEntry h)
    exact .stop k
  · next e =>
    have k := Got.Canonical.of_got e (.readEntry h)
    exact .got k

theorem Result.Canonical.execCellUpdate {n : Nat} (h : s.Canonical) :
    (execCellUpdate n s).Canonical :=
  .atHome h fun h => .andThen (.stillThere h) h fun h' => .ite h'
    (.andThen (.readRecord h') h fun h' => .andThen (.changeRecord h') h fun h => .ite
    (.setProg (.cmdFlags h)) (.finish (.cmdFlags h)))

theorem Result.Canonical.execCarveRequest {n : Nat} (h : s.Canonical) :
    (execCarveRequest n s).Canonical :=
  .atHome h fun h => .andThen (.stillThere h) h fun h' => .ite h'
    (.andThen (.readRecord h') h fun h' => .andThen (.changeRecord h') h fun h => h)

/-! ## The life of an engine command -/

theorem State.Canonical.startCommand {r n : Nat} {c : Command} {i : Instr} (h : s.Canonical) :
    (s.startCommand r n c i).Canonical :=
  .editCmd (.editRun (.foldl (fun h => .useTile h) h))

theorem Result.Canonical.execEngineCommandStart {r n : Nat} (h : s.Canonical) :
    (execEngineCommandStart r n s).Canonical := by
  unfold Machine.execEngineCommandStart
  refine .next ?_
  split
  · exact h
  · refine .ite h (.ite h ?_)
    split
    · exact h
    · exact .ite h (.ite (.startCommand h) (.ite h h))

theorem State.Canonical.decrementFault {r n : Nat} {c : Command} {payload : Word} {cause : Nat}
    (h : s.Canonical) : (s.decrementFault r n c payload cause).Canonical :=
  .engineTrap h

theorem Decrement.Canonical.decrement {r n : Nat} {c : Command} {payload : Word} (h : s.Canonical) :
    (s.decrement r n c payload).Canonical := by
  unfold State.decrement
  refine .ite (.done h) (.ite (.stop (.decrementFault h)) ?_)
  split
  · refine .ite (.stop (.decrementFault (.engineFill h))) ?_
    split
    · exact .wait
    · next e =>
      have k := State.Canonical.tileFor (.engineFill h) e
      refine .ite (.stop (.decrementFault k)) (.ite .wait ?_)
      dsimp only
      exact .done (.wake (.startTask (.writeNum (.serveHome (.ite k (.taint k))))))
  · exact .ite (.stop (.decrementFault h)) (.ite .wait (.sent (.editCmd (.addFar (.taint h)))))
  · exact .wait
  · exact .stop (.decrementFault h)
  · exact .ite .wait (.stop (.decrementFault (.logFault h)))

theorem State.Canonical.sendCompletion {r n : Nat} {c : Command} {payload : Word}
    (h : s.Canonical) : (s.sendCompletion r n c payload).Canonical := by
  unfold State.sendCompletion
  split
  · exact .emitEngine h
  · exact .emitEngine h
  · exact .ite (.dropCopy h) (.completeTo h)
  · exact h

theorem State.Canonical.complete {r n : Nat} {payload : Word} (h : s.Canonical) :
    (s.complete r n payload).Canonical := by
  unfold State.complete
  split
  · exact h
  · refine .editRun (.ite ?_ (.sendCompletion h))
    split
    · exact .ite (.dropCopy h) h
    · exact h

theorem Result.Canonical.execEngineCompletion {r n : Nat} (h : s.Canonical) :
    (execEngineCompletion r n s).Canonical := by
  unfold Machine.execEngineCompletion
  refine .next ?_
  split
  · exact h
  · split
    · refine .ite h ?_
      dsimp only
      split
      · next e =>
        have k := Decrement.Canonical.of_done e (.decrement h)
        exact .complete k
      · exact h
      · next e =>
        have k := Decrement.Canonical.of_sent e (.decrement h)
        exact k
      · next e =>
        have k := Decrement.Canonical.of_stop e (.decrement h)
        exact k
    · exact h

theorem Result.Canonical.execOwnerFlipEngine {r n : Nat} (h : s.Canonical) :
    (execOwnerFlipEngine r n s).Canonical := by
  unfold Machine.execOwnerFlipEngine
  refine .next ?_
  split
  · exact h
  · split
    · exact .ite h (.flipOwn h)
    · exact h

/-! ## Selecting a firing -/

theorem State.Canonical.absorbed {f : Firing} {i : Instr} (h : s.Canonical) :
    (s.absorbed f i).Canonical := by
  unfold State.absorbed
  split
  · exact .ite h h
  · exact h

theorem State.Canonical.forwarded {f : Firing} {i : Instr} {t : Tok} (h : s.Canonical) :
    (s.forwarded f i t).Canonical := by
  unfold State.forwarded
  refine .emitAll (.ite (.countExit ?_) ?_)
  · split <;> exact h
  · split <;> exact h

theorem State.Canonical.meetPoison {f : Firing} (h : s.Canonical) : (s.meetPoison f).Canonical :=
  .ite h (.ite h (.park h))

theorem State.Canonical.decide {f : Firing} (h : s.Canonical) : (s.decide f).Canonical := by
  unfold State.decide
  refine .ite h ?_
  split
  · exact h
  · split
    · exact .meetPoison h
    · exact .absorbed h
    · exact .ite (.parkAs h) (.forwarded h)
    · exact .ite (.parkAs h) h

theorem Result.Canonical.execFiringSelect {r k : Nat} (h : s.Canonical) :
    (execFiringSelect r k s).Canonical := by
  unfold Machine.execFiringSelect
  refine .next (.ite h ?_)
  dsimp only
  split
  · exact h
  · exact .decide h

/-! ## Jobs -/

theorem State.Canonical.writeReport {j : Nat} {w : Word} (h : s.Canonical) :
    (s.writeReport j w).Canonical :=
  .virtWrite (.readAllVirt h)

theorem State.Canonical.submit {q ix : Nat} (h : s.Canonical) : (s.submit q ix).Canonical :=
  .virtWrite (.readAllVirt h)

theorem State.Canonical.doorbell {q tail : Nat} (h : s.Canonical) : (s.doorbell q tail).Canonical :=
  .ite h (.ite h (.foldl (fun h' => .submit h') h))

theorem State.Canonical.startThread {j step : Nat} (h : s.Canonical) :
    (s.startThread j step).Canonical :=
  .ite h h

theorem State.Canonical.endThread {j t : Nat} (h : s.Canonical) : (s.endThread j t).Canonical := by
  unfold State.endThread
  dsimp only
  split
  · exact h
  · exact .startThread h

theorem State.Canonical.writeData {c : Nat} {d : DataBlk} (h : s.Canonical) :
    (s.writeData c d).Canonical := by
  unfold State.writeData
  dsimp only
  split
  · exact .wake (.writeBlock (.readAll h))
  · exact h

theorem State.Canonical.writeTask {x : Job} {n count : Nat} (h : s.Canonical) :
    (s.writeTask x n count).Canonical :=
  .virtWrite (.readAllVirt h)

theorem State.Canonical.startJob {j : Nat} {l : Loaded} (h : s.Canonical) :
    (s.startJob j l).Canonical :=
  .foldl (fun h => .ite (.startThread h) h) (.startThread
    (.foldl (fun h' => .writeTask h') (.foldl (fun h' => .writeData h') h)))

theorem State.Canonical.endUnrun {j : Nat} {report : Word} (h : s.Canonical) :
    (s.endUnrun j report).Canonical :=
  .writeReport h

theorem State.Canonical.jobAt {q ix : Nat} (h : s.Canonical) : (s.jobAt q ix).2.Canonical := by
  unfold State.jobAt
  dsimp only
  split
  · exact h
  · exact .submit h

theorem State.Canonical.takeJob {q : Nat} (h : s.Canonical) : (s.takeJob q).Canonical := by
  unfold State.takeJob
  refine .ite (.editJob (.editQueue (.jobAt h))) ?_
  split
  · exact .endUnrun (.editQueue (.jobAt h))
  · dsimp only
    split
    · exact .endUnrun (.editQueue (.jobAt h))
    · exact .ite h (.startJob (.editQueue (.editJob (.editQueue (.jobAt h)))))

theorem Result.Canonical.onThread {k : State → Nat → Nat → Thread → State} (h : s.Canonical)
    (hk : ∀ {u : State} {a b : Nat} {d : Thread}, u.Canonical → (k u a b d).Canonical) :
    (onThread s k).Canonical := by
  unfold Machine.onThread
  split
  · split
    · exact .next (hk h)
    · exact .next h
  · exact .fault

theorem Result.Canonical.execSeqWait {graph : BitVec 8} (h : s.Canonical) :
    (execSeqWait graph s).Canonical := by
  unfold Machine.execSeqWait
  refine .onThread h ?_
  intro _ _ _ _ h
  split
  · exact h
  · exact .ite h h

theorem Result.Canonical.execSeqThreadResume {j t : Nat} (h : s.Canonical) :
    (execSeqThreadResume j t s).Canonical := by
  unfold Machine.execSeqThreadResume
  refine .next ?_
  split
  · exact h
  · split
    · exact h
    · exact .ite h h
    · exact .ite h h
    · exact .ite h h

theorem Result.Canonical.execTaskStart {k : Nat} (h : s.Canonical) :
    (execTaskStart k s).Canonical := by
  unfold Machine.execTaskStart
  refine .next ?_
  split
  · exact h
  · dsimp only
    split
    · exact h
    · split
      · exact .startThread h
      · exact h

theorem State.Canonical.withdraw {r : Nat} (h : s.Canonical) : (s.withdraw r).Canonical := h

theorem State.Canonical.completeLaunch {r p : Nat} (h : s.Canonical) :
    (s.completeLaunch r p).Canonical :=
  .ite (.withdraw (.editRun (.clearRange h))) (.editRun (.clearRange h))

theorem State.Canonical.launchDone {r p : Nat} (h : s.Canonical) :
    (s.launchDone r p).Canonical := by
  unfold State.launchDone
  split
  · exact .writeReport (.completeLaunch h)
  · exact .completeLaunch h

theorem State.Canonical.releaseCancels (h : s.Canonical) : (s.releaseCancels).Canonical := by
  unfold State.releaseCancels
  refine .foldl ?_ h
  intro _ _ h
  split
  · exact .reply h
  · exact h

theorem State.Canonical.completeJob {j : Nat} (h : s.Canonical) : (s.completeJob j).Canonical :=
  .editQueue (.writeReport h)

theorem Result.Canonical.execItemCompletion {i : ItemRef} (h : s.Canonical) :
    (execItemCompletion i s).Canonical := by
  unfold Machine.execItemCompletion
  refine .next (.releaseCancels ?_)
  split
  · exact .ite (.launchDone h) h
  · exact .ite h h
  · exact .ite h h
  · exact .ite (.completeJob h) h

theorem State.Canonical.cancelLoading {r : Nat} (h : s.Canonical) : (s.cancelLoading r).Canonical :=
  .foldl (fun h => .completeLaunch (.cancelPart h)) h

theorem State.Canonical.cancelLaunch {r p : Nat} (h : s.Canonical) :
    (s.cancelLaunch r p).Canonical := by
  unfold State.cancelLaunch
  refine .ite h (.ite (.completeLaunch h) ?_)
  split
  · dsimp only
    split
    · exact .ite (.cancelLoading (.cancelLoading h)) (.cancelLoading h)
    · exact .cancelLoading h
  · exact .completeLaunch (.cancelPart h)
  · exact .cancelPart h

theorem State.Canonical.cancelRun {r : Nat} (h : s.Canonical) : (s.cancelRun r).Canonical := by
  unfold State.cancelRun
  dsimp only
  split
  · exact h
  · exact h
  · exact .foldl (fun h => .cancelLaunch h) (.ite h h)

theorem State.Canonical.cancelGraph {r : Nat} (h : s.Canonical) : (s.cancelGraph r).Canonical := by
  unfold State.cancelGraph
  dsimp only
  split
  · exact .cancelRun (.cancelRun h)
  · exact .cancelRun h

theorem State.Canonical.cancelJob {j : Nat} (h : s.Canonical) : (s.cancelJob j).Canonical :=
  .ite h (.ite (.completeJob h) (.ite (.endUnrun h) (.foldl (fun h => .cancelRun h) h)))

theorem State.Canonical.cancelPhase {j p : Nat} (h : s.Canonical) : (s.cancelPhase j p).Canonical :=
  .ite h (.foldl (fun h => .cancelGraph h) h)

theorem State.Canonical.cancelItem {i : ItemRef} (h : s.Canonical) :
    (s.cancelItem i).Canonical := by
  unfold State.cancelItem
  split
  · exact .cancelLaunch h
  · exact .cancelGraph h
  · exact .cancelPhase h
  · exact .cancelJob h

theorem State.Canonical.jobRequest {n : Nat} {q : Req} (h : s.Canonical) :
    (s.jobRequest n q).Canonical := by
  unfold State.jobRequest
  split
  · exact .reply h
  · exact .ite (.reply h) (.ite (.reply h) (.cancelItem h))

theorem Result.Canonical.execCancel {o : Out} {lsid : BitVec 5} {ord : Option Scope}
    (h : s.Canonical) : (execCancel o lsid ord s).Canonical := by
  unfold Machine.execCancel
  refine .onFiring h ?_
  intro _ _ h
  split
  · exact .park h
  · exact .bufferWrite h

theorem Result.Canonical.execDoneq {o : Out} {lsid : BitVec 5} {ord : Option Scope}
    (h : s.Canonical) : (execDoneq o lsid ord s).Canonical := by
  unfold Machine.execDoneq
  refine .onFiring h ?_
  intro _ _ h
  split
  · exact .park h
  · exact h

theorem State.Canonical.tileRequest {n : Nat} (h : s.Canonical) : (s.tileRequest n).Canonical := by
  unfold State.tileRequest
  split
  · exact .ite (.homeEvent (.serveHome h) fun h => .jobRequest h) h
  · exact h

theorem Result.Canonical.execTilePortRequest {w : PortWork} (h : s.Canonical) :
    (execTilePortRequest w s).Canonical := by
  unfold Machine.execTilePortRequest
  refine .next ?_
  split
  · exact .tileRequest h
  · exact h

theorem Result.Canonical.execQuayRequest {w : PortWork} (h : s.Canonical) :
    (execQuayRequest w s).Canonical := by
  unfold Machine.execQuayRequest
  refine .next ?_
  split
  · exact .homeEvent h fun h => .jobRequest h
  · exact .ite h h
  · exact .ite (.coreWrite h) h

/-! ## Freezing and restoring -/

theorem State.Canonical.virtWriteFrom {c fuel va : Nat} {bs : List Byte} (h : s.Canonical) :
    (virtWriteFrom s c fuel va bs).Canonical := by
  induction fuel generalizing s va bs with
  | zero => exact h
  | succ fuel ih =>
    unfold Machine.virtWriteFrom
    split
    · exact h
    · exact ih (.virtWrite h)

theorem State.Canonical.virtWriteAll {c va : Nat} {bs : List Byte} (h : s.Canonical) :
    (s.virtWriteAll c va bs).Canonical :=
  .virtWriteFrom h

theorem State.Canonical.freezeOut {r : Nat} (h : s.Canonical) : (s.freezeOut r).Canonical :=
  .ite h (.ite h (.editRun (.virtWriteAll h)))

theorem Result.Canonical.execFreezeWave {r : Nat} (h : s.Canonical) :
    (execFreezeWave r s).Canonical := by
  unfold Machine.execFreezeWave
  refine .next ?_
  dsimp only
  split
  · exact .ite h h
  · exact h

theorem State.Canonical.queueRestore {r : Nat} (h : s.Canonical) : (s.queueRestore r).Canonical := h

theorem Result.Canonical.execFreezeComplete {r : Nat} {out : Bool} (h : s.Canonical) :
    (execFreezeComplete r out s).Canonical := by
  unfold Machine.execFreezeComplete
  refine .next ?_
  dsimp only
  split
  · exact .ite h (.ite h (.ite (.queueRestore (.ite (.freezeOut h) h)) (.ite (.freezeOut h) h)))
  · exact h

theorem State.Canonical.thawBars {r : Nat} (h : s.Canonical) : (s.thawBars r).Canonical := by
  unfold State.thawBars
  refine .foldl ?_ h
  intro _ _ h
  split
  · exact .ite (.reply h) h
  · exact h

theorem State.Canonical.thawBreaks {r : Nat} (h : s.Canonical) : (s.thawBreaks r).Canonical :=
  .foldl (fun h => .foldl (fun h => .emitOut h) h) h

theorem State.Canonical.thawInbox {r : Nat} (h : s.Canonical) : (s.thawInbox r).Canonical :=
  .foldl (fun h => h) h

theorem State.Canonical.thawColnews {r : Nat} (h : s.Canonical) : (s.thawColnews r).Canonical := h

theorem State.Canonical.keepAgain {f : Flit} {n : Nat} (h : s.Canonical) :
    (s.keepAgain f n).Canonical := by
  unfold State.keepAgain
  split
  · exact .keepToken h
  · exact h

theorem State.Canonical.respillToken {r key n : Nat} {w : Wait} (h : s.Canonical) :
    (s.respillToken r key n w).1.Canonical := by
  unfold State.respillToken
  dsimp only
  split
  · exact .keepAgain h
  · exact .writeSpill h

theorem State.Canonical.respillStore {r key uid : Nat} {st : Store} (h : s.Canonical) :
    (s.respillStore r key uid st).Canonical :=
  .ite h (.editAct (.writeSpill h))

theorem State.Canonical.respillTokens {r key n : Nat} {ws : List Wait} (h : s.Canonical) :
    (ws.foldl (fun (x : State × Nat) w => x.1.respillToken r key x.2 w) (s, n)).1.Canonical := by
  induction ws generalizing s n with
  | nil => exact h
  | cons w ws ih => exact ih (.respillToken h)

theorem State.Canonical.respillElem {r key : Nat} {old : Elem} (h : s.Canonical) :
    (s.respillElem r key old).Canonical :=
  .foldl (fun h => .foldl (fun h => .respillStore h) h) (.respillTokens h)

theorem State.Canonical.respill {r : Nat} {old : Tbl Elem} (h : s.Canonical) :
    (s.respill r old).Canonical :=
  .foldl (fun h => .respillElem h) h

theorem State.Canonical.readLog {r : Nat} (h : s.Canonical) : (s.readLog r).Canonical :=
  .readAllVirt h

theorem State.Canonical.unbuffer {r key uid : Nat} {st : Store} {t : Trans} (h : s.Canonical) :
    (s.unbuffer r key uid st t).Canonical :=
  .parkTrans (.readLog h)

theorem State.Canonical.rehomeStore {r key uid : Nat} {st : Store} (h : s.Canonical) :
    (s.rehomeStore r key uid st).Canonical := by
  unfold State.rehomeStore
  split
  · exact h
  · exact .unbuffer h

theorem State.Canonical.rehomeStores {r : Nat} (h : s.Canonical) : (s.rehomeStores r).Canonical :=
  .foldl (fun h => .foldl (fun h => .foldl (fun h => .rehomeStore h) h) h) h

theorem State.Canonical.rehomeReq {n : Nat} {q : Req} (h : s.Canonical) :
    (s.rehomeReq n q).Canonical := by
  unfold State.rehomeReq
  dsimp only
  split
  · exact h
  · exact .trapRequest (.logFault (.readLog h))
  · exact .trapRequest h
  · exact h

theorem State.Canonical.rehomeReqs {r : Nat} (h : s.Canonical) : (s.rehomeReqs r).Canonical :=
  .foldl (fun h => .ite (.rehomeReq h) h) h

theorem State.Canonical.retryHome {n : Nat} {q : Req} (h : s.Canonical) :
    (s.retryHome n q).Canonical :=
  .thawBars (.rehomeReq h)

theorem State.Canonical.thaw {r : Nat} (h : s.Canonical) : (s.thaw r).Canonical :=
  .presentNext (.thawBreaks (.thawBars (.rehomeReqs
    (.rehomeStores (.thawColnews (.thawInbox (.ite (.respill h) h)))))))

theorem State.Canonical.callDies {r : Nat} (h : s.Canonical) : (s.callDies r).Canonical :=
  .foldl (fun h => h) h

theorem State.Canonical.refuseImage {r : Nat} {w : Word} (h : s.Canonical) :
    (s.refuseImage r w).Canonical :=
  .foldl (fun h => .ite h (.launchDone (.cancelPart h))) h

theorem Result.Canonical.execLaunchRestore {r : Nat} {parts : List (Nat × Nat)} (h : s.Canonical) :
    (execLaunchRestore r parts s).Canonical := by
  unfold Machine.execLaunchRestore
  refine .next (.ite h ?_)
  split
  · exact .refuseImage h
  · exact .thaw h

/-! ## Berths and the arbiter of a die -/

theorem Result.Canonical.execBerthing {q : Nat} (h : s.Canonical) :
    (execBerthing q s).Canonical := by
  unfold Machine.execBerthing
  refine .next ?_
  split <;> exact h

theorem State.Canonical.clearUnder {xs : List Spot} (h : s.Canonical) :
    (s.clearUnder xs).Canonical :=
  .foldl (fun h => .freezeOut h) h

theorem State.Canonical.admitNew {r : Nat} {xs ys : List Spot} (h : s.Canonical) :
    (s.admitNew r xs ys).Canonical :=
  .ite h h

theorem State.Canonical.admitOut {r : Nat} {xs : List Spot} (h : s.Canonical) :
    (s.admitOut r xs).Canonical :=
  h

theorem State.Canonical.bypass {b : Bid} (h : s.Canonical) : (s.bypass b).Canonical := h

theorem Result.Canonical.execAdmission {d : Nat} (h : s.Canonical) :
    (execAdmission d s).Canonical := by
  unfold Machine.execAdmission
  refine .next ?_
  split
  · exact h
  · dsimp only
    split
    · exact .ite (.admitNew (.withdraw (.bypass (.clearUnder h)))) (.clearUnder h)
    · exact .ite (.admitOut (.withdraw (.bypass (.clearUnder h)))) (.clearUnder h)
    · exact h
    · exact h

theorem State.Canonical.writeWindowData {r : Nat} {d : DataBlk} (h : s.Canonical) :
    (s.writeWindowData r d).Canonical := by
  unfold State.writeWindowData
  refine .ite h ?_
  split
  · exact h
  · split
    · exact .writeBlock h
    · exact h

theorem State.Canonical.injectSource {r key : Nat} {t : SourceTok} (h : s.Canonical) :
    (s.injectSource r key t).Canonical :=
  .deliver h

theorem State.Canonical.injectAll {r : Nat} (h : s.Canonical) : (s.injectAll r).Canonical :=
  .foldl (fun h => .foldl (fun h => .injectSource h) h) h

theorem State.Canonical.startLaunch {r : Nat} (h : s.Canonical) : (s.startLaunch r).Canonical :=
  .injectAll (.foldl (fun h => .writeWindowData h) h)

theorem Result.Canonical.execPreemption {d : Nat} (h : s.Canonical) :
    (execPreemption d s).Canonical := by
  unfold Machine.execPreemption
  refine .next ?_
  split
  · refine .ite h ?_
    dsimp only
    split <;> exact h
  · exact h

/-! ## Contexts -/

theorem State.Canonical.endCommand {c status : Nat} {st : CtxState} (h : s.Canonical) :
    (s.endCommand c status st).Canonical :=
  h

theorem Result.Canonical.execCreate {c : Nat} (h : s.Canonical) : (execCreate c s).Canonical := by
  unfold Machine.execCreate
  refine .next (.ite h ?_)
  split
  · exact h
  · exact .ite h h

theorem State.Canonical.outParked {c : Nat} (h : s.Canonical) : (s.outParked c).Canonical :=
  .foldl (fun h => .ite (.withdraw (.freezeOut h)) h) h

theorem State.Canonical.undoSwitchout {c : Nat} (h : s.Canonical) : (s.undoSwitchout c).Canonical :=
  .foldl (fun h => .ite h (.ite (.thaw h) h)) h

theorem State.Canonical.saveCtx {c : Nat} (h : s.Canonical) : (s.saveCtx c).Canonical :=
  .ite h (.ite (.undoSwitchout h) (.endCommand
    (.editCtx (.foldl (fun h => .ite h h) (.virtWriteAll (.outParked h))))))

theorem Result.Canonical.execSwitchoutDrainEnd {c : Nat} (h : s.Canonical) :
    (execSwitchoutDrainEnd c s).Canonical := by
  unfold Machine.execSwitchoutDrainEnd
  refine .next (.ite h (.ite h (.ite (.saveCtx h) ?_)))
  split
  · exact h
  · exact .ite (.saveCtx h) h

theorem State.Canonical.moveCtx {src dst : Nat} {runs : List Nat} (h : s.Canonical) :
    (s.moveCtx src dst runs).Canonical :=
  .foldl (fun h => h) h

theorem State.Canonical.adoptTiles {r : Nat} {bs : List (Nat × List Byte × Side)}
    (h : s.Canonical) : (s.adoptTiles r bs).Canonical :=
  .foldl (fun h => Memory.wf_memWrite h ..) h

theorem State.Canonical.adopt {c : Nat} {v : SavedCtx} {n : Nat} (h : s.Canonical) :
    (s.adopt c v n).Canonical :=
  .foldl (fun h => h) (.editCtx (.foldl (fun h => .adoptTiles h) h))

theorem State.Canonical.sendAgain {c : Nat} {q : FarReq} (h : s.Canonical) :
    (s.sendAgain c q).Canonical :=
  .sendPacket h

theorem State.Canonical.resendAll {c : Nat} (h : s.Canonical) : (s.resendAll c).Canonical :=
  .editCtx (.foldl (fun h => .sendAgain h) h)

theorem State.Canonical.liveAgain {c : Nat} (h : s.Canonical) : (s.liveAgain c).Canonical :=
  .endCommand (.resendAll h)

theorem Result.Canonical.execRestore {c : Nat} (h : s.Canonical) : (execRestore c s).Canonical := by
  unfold Machine.execRestore
  refine .next (.ite h ?_)
  split
  · exact h
  · split
    · exact h
    · split
      · exact .ite h (.liveAgain (.moveCtx h))
      · split
        · exact h
        · exact .ite h (.liveAgain (.adopt h))

theorem State.Canonical.cancelCtx {c : Nat} (h : s.Canonical) : (s.cancelCtx c).Canonical :=
  .foldl (fun h => .ite h (.ite (.cancelJob h)
    (.ite (.endUnrun (.cancelJob h)) (.editJob (.cancelJob h))))) h

theorem State.Canonical.freeCtx {c : Nat} (h : s.Canonical) : (s.freeCtx c).Canonical := h

theorem State.Canonical.invalidate (h : s.Canonical) : (s.invalidate).Canonical := .ite h h

/-! ## Far requests between devices -/

theorem State.Canonical.issueFar {c n : Nat} {w : FarWait} (h : s.Canonical) :
    (s.issueFar c n w).Canonical :=
  .sendAgain h

theorem Result.Canonical.execFarRequestIssue {c n : Nat} (h : s.Canonical) :
    (execFarRequestIssue c n s).Canonical := by
  unfold Machine.execFarRequestIssue
  refine .next (.ite h ?_)
  split
  · exact .ite h (.issueFar h)
  · split
    · exact h
    · exact .ite h (.ite (.trapRequest h) (.ite (.settle h .poison) (.issueFar (.taint h))))

theorem State.Canonical.editOwner {o : Nat} {f : Owner → Owner} (h : s.Canonical) :
    (s.editOwner o f).Canonical :=
  h

theorem State.Canonical.putSlot {o i : Nat} {x : CacheSlot} (h : s.Canonical) :
    (s.putSlot o i x).Canonical :=
  .deviceWrite h

theorem State.Canonical.dropSlot {o i : Nat} (h : s.Canonical) : (s.dropSlot o i).Canonical :=
  .deviceWrite h

theorem State.Canonical.retireEntries {o id : Nat} {p : FarEntry → Bool} (h : s.Canonical) :
    (s.retireEntries o id p).Canonical :=
  .foldl (fun h' => .ite (.putSlot h') (.dropSlot h')) h

theorem State.Canonical.noteMark {o id mark src : Nat} (h : s.Canonical) :
    (s.noteMark o id mark src).Canonical :=
  .retireEntries (.foldl (fun h => .putSlot h) h)

theorem FarAns.Canonical.performFar {p : Packet} {op sz home : Nat} {data data2 : Word}
    {block : List Byte} (h : s.Canonical) :
    (s.performFar p op sz home data data2 block).Canonical := by
  unfold State.performFar
  refine .ite .later (.ite (.ite (.done h) (.done h)) (.ite (.done (.wake (.writeBlock h))) ?_))
  split
  · exact .fault
  · split
    · next e =>
      have k := HomeAns.Canonical.of_done e (.perform h)
      exact .done (.ite (.releaseBars (.ite h (.wake k))) (.ite h (.wake k)))
    · exact .done h
    · exact .held
    · next e =>
      have k := HomeAns.Canonical.of_arrived e (.perform h)
      exact .done (.wake k)
    · exact .fault
    · exact .done h

theorem State.Canonical.holdReader {p : Packet} {ea sz home : Nat} {data : Word} (h : s.Canonical) :
    (s.holdReader p ea sz home data).Canonical :=
  .ite h h

theorem State.Canonical.answerRepeat {o i : Nat} {p : Packet} {e : FarEntry} (h : s.Canonical) :
    (s.answerRepeat o i p e).Canonical :=
  .replyEntry (.ite h (.putSlot h))

theorem State.Canonical.cacheEntry {o i : Nat} {p : Packet} {high : Nat} {e : FarEntry}
    (h : s.Canonical) : (s.cacheEntry o i p high e).Canonical := by
  unfold State.cacheEntry
  refine .putSlot (.foldl ?_ h)
  intro _ _ h
  split
  · exact .dropSlot h
  · exact h

theorem State.Canonical.answerBusy {o : Option Nat} {p : Packet} (h : s.Canonical) :
    (s.answerBusy o p).Canonical := by
  unfold State.answerBusy
  refine .answerTo ?_
  split <;> exact h

theorem State.Canonical.onSerialled {o : Nat} {p : Packet} {k : State → FarAns} (h : s.Canonical)
    (hk : ∀ {u : State}, u.Canonical → (k u).Canonical) : (s.onSerialled o p k).Canonical := by
  unfold State.onSerialled
  dsimp only
  split
  · exact .answerRepeat (.noteMark h)
  · refine .ite (.noteMark h) ?_
    split
    · exact .answerBusy (.noteMark h)
    · split
      · exact h
      · exact h
      · exact .answerTo (.noteMark h)
      · next e => exact .replyEntry (.cacheEntry (FarAns.Canonical.of_done e (hk (.noteMark h))))

theorem FarAns.Canonical.deliverFar {p : Packet} {dest payload tbits : Word} (h : s.Canonical) :
    (s.deliverFar p dest payload tbits).Canonical := by
  unfold State.deliverFar
  dsimp only
  split <;> exact .done h

theorem State.Canonical.onRequest {p : Packet} {op sz ea : Nat} {data data2 : Word}
    {block : List Byte} {c : Nat} {serialled : Bool} (h : s.Canonical) :
    (s.onRequest p op sz ea data data2 block c serialled).Canonical := by
  unfold State.onRequest
  split
  · exact .answerTo h
  · refine .ite h (.ite (.onSerialled h fun h => .performFar h) ?_)
    dsimp only
    split
    · exact h
    · exact .holdReader (.noteMark h)
    · exact .answerTo (.noteMark h)
    · next e =>
      have k := FarAns.Canonical.of_done e (.performFar (.noteMark h))
      exact .replyEntry k

theorem Result.Canonical.execOwnerRequest {p : Packet} (h : s.Canonical) :
    (execOwnerRequest p s).Canonical := by
  unfold Machine.execOwnerRequest
  refine .next ?_
  dsimp only
  split
  · split
    · exact .onRequest h
    · exact .onRequest h
    · exact .answerBusy h
    · exact .answerTo h
  · split
    · exact .onSerialled h fun h => .deliverFar h
    · exact .onSerialled h fun h => .deliverFar h
    · exact .answerBusy h
    · exact .answerTo h
  · exact h

theorem State.Canonical.loseFar {c : Nat} {q : FarReq} (h : s.Canonical) :
    (s.loseFar c q).Canonical := by
  unfold State.loseFar
  refine .ite h ?_
  split
  · exact .ite h h
  · exact h

theorem State.Canonical.farStop {r n : Nat} (h : s.Canonical) : (s.farStop r n).Canonical := by
  unfold State.farStop
  split
  · exact h
  · split
    · exact .stopCmd h
    · exact h
    · exact h

theorem State.Canonical.trapFar {c : Nat} {q : FarReq} (h : s.Canonical) :
    (s.trapFar c q).Canonical := by
  unfold State.trapFar
  split
  · exact .loseFar h
  · refine .ite (.loseFar h) ?_
    split
    · exact .engineFault h
    · exact .trap (.farStop h)
    · exact .trap h

theorem State.Canonical.refuseFar {c : Nat} {q : FarReq} (h : s.Canonical) :
    (s.refuseFar c q).Canonical :=
  .trapFar h

theorem State.Canonical.answerReq {n : Nat} {q : Req} {v : Word} {fl kind : Nat} (h : s.Canonical) :
    (s.answerReq n q v fl kind).Canonical :=
  .ite (.loadEntry h) (.ite (.ite (.reply h) (.reply h)) (.ite (.reply h) (.reply h)))

theorem State.Canonical.answerCmd {r n : Nat} {k : Command} {p : Packet} {v : Word} {kind : Nat}
    {block : List Byte} (h : s.Canonical) : (s.answerCmd r n k p v kind block).Canonical :=
  .ite h (.ite (.engineFault h) h)

theorem State.Canonical.answered {c : Nat} {q : FarReq} {v : Word} {fl kind : Nat}
    {block : List Byte} (h : s.Canonical) : (s.answered c q v fl kind block).Canonical := by
  unfold State.answered
  split
  · exact .ite (.refuseFar h) h
  · dsimp only
    split
    · split
      · exact .answerReq h
      · exact h
    · split
      · exact .ite h (.answerCmd h)
      · exact h

theorem Result.Canonical.execRemoteReply {p : Packet} (h : s.Canonical) :
    (execRemoteReply p s).Canonical := by
  unfold Machine.execRemoteReply
  refine .next ?_
  split
  · exact h
  · split
    · exact h
    · exact .refuseFar h
    · exact .answered h
    · exact h

theorem State.Canonical.countResend {dev : Nat} (h : s.Canonical) :
    (s.countResend dev).Canonical := by
  unfold State.countResend
  split <;> exact h

theorem Result.Canonical.execRetransmit {c fs : Nat} (h : s.Canonical) :
    (execRetransmit c fs s).Canonical := by
  unfold Machine.execRetransmit
  refine .next ?_
  split
  · exact h
  · exact .ite h (.countResend (.sendAgain h))

theorem Result.Canonical.execRetransmitLifetimeExpiry {c fs : Nat} (h : s.Canonical) :
    (execRetransmitLifetimeExpiry c fs s).Canonical := by
  unfold Machine.execRetransmitLifetimeExpiry
  refine .next ?_
  split
  · exact h
  · exact .ite h (.trapFar h)

theorem Result.Canonical.execMarkQuery {o id : Nat} (h : s.Canonical) :
    (execMarkQuery o id s).Canonical := by
  unfold Machine.execMarkQuery
  refine .next ?_
  split
  · exact .ite h (.sendPacket h)
  · exact h

theorem Result.Canonical.execMarkQueryAnswer {p : Packet} (h : s.Canonical) :
    (execMarkQueryAnswer p s).Canonical := by
  unfold Machine.execMarkQueryAnswer
  refine .next ?_
  split
  · split <;> exact .sendPacket h
  · exact h

theorem Result.Canonical.execMarkAnswerReceipt {o : Nat} {p : Packet} (h : s.Canonical) :
    (execMarkAnswerReceipt o p s).Canonical := by
  unfold Machine.execMarkAnswerReceipt
  refine .next ?_
  split
  · exact .noteMark h
  · exact h
  · exact h

theorem Result.Canonical.execGoneWaitExpiry {o id : Nat} (h : s.Canonical) :
    (execGoneWaitExpiry o id s).Canonical := by
  unfold Machine.execGoneWaitExpiry
  refine .next ?_
  split
  · exact h
  · exact .ite h (.editOwner (.retireEntries h))

theorem Result.Canonical.execTombstoneFree {o id : Nat} (h : s.Canonical) :
    (execTombstoneFree o id s).Canonical := by
  unfold Machine.execTombstoneFree
  refine .next (.foldl ?_ h)
  intro _ _ h
  split
  · exact .ite (.dropSlot h) h
  · exact h

theorem Result.Canonical.execQuarantineExpiry {id : Nat} (h : s.Canonical) :
    (execQuarantineExpiry id s).Canonical := by
  unfold Machine.execQuarantineExpiry
  refine .next ?_
  split
  · exact .ite h h
  · exact h

/-! ## Return from a trap -/

theorem State.Canonical.emitSkipped {f : Firing} {v : Word} (h : s.Canonical) :
    (s.emitSkipped f v).Canonical := by
  unfold State.emitSkipped
  split
  · exact .forwarded h
  · exact h

theorem State.Canonical.retryFiring {f : Firing} {cause : Nat} (h : s.Canonical) :
    (s.retryFiring f cause).Canonical :=
  .ite h (.ite (.emitOut h) (.ite h (.ite (.parkAs h) h)))

theorem State.Canonical.mendHold {f : Firing} {v : Word} (h : s.Canonical) :
    (s.mendHold f v).Canonical := by
  unfold State.mendHold
  split
  · exact .ite h h
  · exact h

theorem State.Canonical.skipFiring {f : Firing} {cause : Nat} {v : Word} (h : s.Canonical) :
    (s.skipFiring f cause v).Canonical :=
  .ite (.decide (.mendHold h)) (.ite h (.ite h (.emitSkipped h)))

theorem State.Canonical.resumeFiring {r e uid : Nat} {v : Option Word} (h : s.Canonical) :
    (s.resumeFiring r e uid v).Canonical := by
  unfold State.resumeFiring
  split
  · exact h
  · dsimp only
    split
    · exact .ite h (.retryFiring h)
    · exact .skipFiring h

theorem State.Canonical.resumeRequest {n cause : Nat} {v : Option Word} (h : s.Canonical) :
    (s.resumeRequest n cause v).Canonical := by
  unfold State.resumeRequest
  split
  · exact h
  · refine .ite h ?_
    split
    · exact .ite (.retryHome h) h
    · exact .reply h

theorem State.Canonical.nullStores {r e uid : Nat} {ea v : Word} (h : s.Canonical) :
    (s.nullStores r e uid ea v).Canonical := by
  unfold State.nullStores
  split
  · exact h
  · exact .foldl (fun h => .emitOut h) h

theorem State.Canonical.retrySpill {r e : Nat} (h : s.Canonical) : (s.retrySpill r e).Canonical :=
  .foldl (fun h => .ite (.storeToken h) h) h

theorem State.Canonical.runAgain {r n : Nat} {f : Prog → Prog} (h : s.Canonical) :
    (s.runAgain r n f).Canonical :=
  .editCmd (.clearRow h)

theorem State.Canonical.retryCmd {r n : Nat} {c : Command} {i : Instr} {cause : Nat}
    (h : s.Canonical) : (s.retryCmd r n c i cause).Canonical :=
  .ite (.finish (.clearRow h)) (.runAgain h)

theorem State.Canonical.skipCmd {r n : Nat} {c : Command} {i : Instr} {cause : Nat} {v : Word}
    (h : s.Canonical) : (s.skipCmd r n c i cause v).Canonical :=
  .ite (.ite (.runAgain h) (.ite (.runAgain h) h)) (.ite (.finish (.clearRow h)) (.runAgain h))

theorem State.Canonical.dropBeat {r n : Nat} {c : Command} {i : Instr} {port : Nat}
    (h : s.Canonical) : (s.dropBeat r n c i port).Canonical :=
  .ite (.vecTake h) (.takeBeat h)

theorem State.Canonical.replaceBeat {r key port : Nat} {b : Beat} (h : s.Canonical) :
    (s.replaceBeat r key port b).Canonical := by
  unfold State.replaceBeat
  split <;> exact h

theorem State.Canonical.chooseOrphan {r n : Nat} {i : Instr} {v : Option Word} (h : s.Canonical) :
    (s.chooseOrphan r n i v).Canonical :=
  .runAgain h

theorem State.Canonical.giveToken {r n : Nat} {c : Command} {i : Instr} {v : Word}
    (h : s.Canonical) : (s.giveToken r n c i v).Canonical := by
  unfold State.giveToken
  split
  · exact .runAgain h
  · exact h

theorem State.Canonical.withStopped {r n : Nat} {k : Command → Instr → State} (h : s.Canonical)
    (hk : ∀ {u : Command} {a : Instr}, (k u a).Canonical) : (s.withStopped r n k).Canonical := by
  unfold State.withStopped
  split
  · exact h
  · split
    · exact hk
    · exact h

theorem State.Canonical.resumeDecrement {r n : Nat} {v : Option Word} (h : s.Canonical) :
    (s.resumeDecrement r n v).Canonical := by
  unfold State.resumeDecrement
  refine .withStopped h ?_
  intro _ _
  split
  · exact .finish (.clearRow h)
  · exact .finish (.editCmd (.clearRow h))

theorem State.Canonical.farGoOn {q : FarReq} {f : Prog → Prog} (h : s.Canonical) :
    (s.farGoOn q f).Canonical := by
  unfold State.farGoOn
  split
  · refine .ite h ?_
    split
    · exact .runAgain h
    · exact h
    · exact h
  · exact h

theorem State.Canonical.sendAnew {c : Nat} {q : FarReq} (h : s.Canonical) :
    (s.sendAnew c q).Canonical :=
  .ite (.farGoOn h) (.addFar (.farGoOn h))

theorem State.Canonical.sendOn {c : Nat} {q : FarReq} (h : s.Canonical) :
    (s.sendOn c q).Canonical :=
  .farGoOn (.sendAgain h)

theorem State.Canonical.giveFinished {q : FarReq} {v : Word} (h : s.Canonical) :
    (s.giveFinished q v).Canonical := by
  unfold State.giveFinished
  split
  · split
    · exact h
    · exact .ite h h
  · exact h

theorem State.Canonical.abandon {c : Nat} {q : FarReq} {v : Word} (h : s.Canonical) :
    (s.abandon c q v).Canonical := by
  unfold State.abandon
  dsimp only
  split
  · exact .ite (.reply (.giveFinished (.farGoOn h))) (.giveFinished (.farGoOn h))
  · exact .giveFinished (.farGoOn h)

theorem State.Canonical.resumeFar {c fs : Nat} {v : Option Word} (h : s.Canonical) :
    (s.resumeFar c fs v).Canonical := by
  unfold State.resumeFar
  dsimp only
  split
  · exact .abandon h
  · exact .sendAnew h
  · exact .abandon h
  · exact .sendOn h
  · exact h

theorem State.Canonical.freshWalk {r key : Nat} {t : TrapRec} {v : Option Word} (h : s.Canonical) :
    (s.freshWalk r key t v).Canonical :=
  .ite h h

theorem State.Canonical.resumeTrap {r : Nat} {t : TrapRec} {v : Option Word} (h : s.Canonical) :
    (s.resumeTrap r t v).Canonical := by
  unfold State.resumeTrap
  split
  · exact .resumeFiring (.freshWalk h)
  · exact .resumeRequest h
  · split
    · exact h
    · exact .nullStores h
  · exact .retrySpill h
  · exact h
  · refine .withStopped h ?_
    intro _ _
    split
    · exact .retryCmd (.freshWalk h)
    · exact .skipCmd h
  · refine .withStopped h ?_
    intro _ _
    split
    · exact .runAgain (.dropBeat h)
    · exact .runAgain (.replaceBeat h)
  · exact .withStopped h (.chooseOrphan h)
  · refine .withStopped h ?_
    intro _ _
    split
    · exact h
    · exact .giveToken h
  · split
    · exact .resumeDecrement (.freshWalk h)
    · exact h
  · exact .resumeFar h
  · exact h

theorem State.Canonical.returnTrap {f : Firing} {o : Out} {v : Option Word} (h : s.Canonical) :
    (s.returnTrap f o v).Canonical := by
  unfold State.returnTrap
  split
  · exact .emitOut h
  · exact .emitOut (.resumeTrap (.endPresentation h))

/-! ## Errors, scrubbing and repair -/

theorem State.Canonical.markAll {as : List Nat} (h : s.Canonical) : (s.markAll as).Canonical :=
  .foldl (fun h => h) h

theorem State.Canonical.countUe {d : Nat} (h : s.Canonical) : (s.countUe d).Canonical := h

theorem State.Canonical.blockUpset {a : Nat} (h : s.Canonical) : (s.blockUpset a).Canonical := by
  unfold State.blockUpset
  split <;> exact h

theorem State.Canonical.tokenUpset {r e n : Nat} (h : s.Canonical) :
    (s.tokenUpset r e n).Canonical := by
  unfold State.tokenUpset
  split
  · exact .ite h h
  · exact h

theorem State.Canonical.storeUpset {r e act lsid : Nat} (h : s.Canonical) :
    (s.storeUpset r e act lsid).Canonical := by
  unfold State.storeUpset
  dsimp only
  split
  · exact .ite h h
  · exact h

theorem State.Canonical.holdUpset {r e k : Nat} (h : s.Canonical) : (s.holdUpset r e k).Canonical :=
  .ite h h

theorem State.Canonical.configUpset {r e k : Nat} {w : Word} (h : s.Canonical) :
    (s.configUpset r e k w).Canonical :=
  .ite h h

theorem State.Canonical.controlUpset {r e : Nat} (h : s.Canonical) :
    (s.controlUpset r e).Canonical :=
  .ite h h

theorem State.Canonical.spoilCommands {r site : Nat} (h : s.Canonical) :
    (s.spoilCommands r site).Canonical :=
  .foldl (fun h => .ite h h) h

theorem State.Canonical.strandUpset {r num : Nat} (h : s.Canonical) :
    (s.strandUpset r num).Canonical := by
  unfold State.strandUpset
  split
  · exact h
  · exact .countUe (.foldl (fun h => .spoilCommands h) (.foldl (fun h => .ite h h) h))

theorem State.Canonical.seamUpset {r key : Nat} (h : s.Canonical) : (s.seamUpset r key).Canonical :=
  .ite h (.countUe (.spoilCommands h))

theorem State.Canonical.upset {x : Upset} (h : s.Canonical) : (s.upset x).Canonical := by
  unfold State.upset
  split
  · exact h
  · exact h
  · exact .blockUpset h
  · exact .tokenUpset h
  · exact .storeUpset h
  · exact .holdUpset h
  · exact .configUpset h
  · exact .controlUpset h
  · exact .strandUpset h
  · exact .seamUpset h
  · exact h

theorem State.Canonical.clearErrors {d : Nat} (h : s.Canonical) : (s.clearErrors d).Canonical :=
  .ite h h

theorem State.Canonical.reissueAt {r e old new : Nat} (h : s.Canonical) :
    (s.reissueAt r e old new).Canonical :=
  .foldl (fun h => .emitAs (.emitAs h)) h

theorem Result.Canonical.execReplayReissue {n : Nat} (h : s.Canonical) :
    (execReplayReissue n s).Canonical := by
  unfold Machine.execReplayReissue
  refine .next ?_
  split
  · exact h
  · split
    · exact h
    · refine .ite h ?_
      split
      · exact h
      · exact .foldl (fun h => .reissueAt h) h

theorem State.Canonical.suspectRun {r : Nat} (h : s.Canonical) : (s.suspectRun r).Canonical :=
  .foldl (fun h => h) h

theorem State.Canonical.clearRun {r : Nat} (h : s.Canonical) : (s.clearRun r).Canonical :=
  .editRun (.clearRange h)

theorem State.Canonical.restartRun {r : Nat} (h : s.Canonical) : (s.restartRun r).Canonical :=
  .injectAll (.foldl (fun h => .writeWindowData h) (.editRun (.clearRun h)))

theorem State.Canonical.trapMismatch {r n : Nat} {c : Command} (h : s.Canonical) :
    (s.trapMismatch r n c).Canonical :=
  .trap (.finish (.suspectRun (.suspectRun h)))

theorem State.Canonical.setCount {r key : Nat} {b : Bool} (h : s.Canonical) :
    (s.setCount r key b).Canonical :=
  h

theorem State.Canonical.mismatch {r n : Nat} {c : Command} (h : s.Canonical) :
    (s.mismatch r n c).Canonical :=
  .ite (.trapMismatch h) (.ite h (.ite (.trapMismatch h) (.ite h (.restartRun (.restartRun h)))))

theorem State.Canonical.compareBeats {r n : Nat} {c : Command} (h : s.Canonical) :
    (s.compareBeats r n c).Canonical := by
  unfold State.compareBeats
  refine .ite h ?_
  split
  · exact .ite (.ite (.finish (.setCount (.putBeats (.takeBeat (.takeBeat h)))))
      (.putBeats (.takeBeat (.takeBeat h)))) (.mismatch h)
  · exact h

/-! ## The life of the device -/

theorem State.Canonical.setReady {fn : ReadyFn} (h : s.Canonical) : (s.setReady fn).Canonical := by
  unfold State.setReady
  split
  · exact h
  · exact .ite h h
  · exact h
  · exact .ite h h
  · exact .ite h h
  · exact .ite h h

theorem State.Canonical.down : (s.down).Canonical := Memory.wf_reset

theorem State.Canonical.deviceReset : (s.deviceReset).Canonical := Memory.wf_reset

theorem State.Canonical.mailboxWrite {cmd : Nat} {mgmt : Bool} (h : s.Canonical) :
    (s.mailboxWrite cmd mgmt).Canonical :=
  .ite h (.ite h h)

theorem State.Canonical.endMailbox {status : Nat} (h : s.Canonical) :
    (s.endMailbox status).Canonical :=
  h

theorem Result.Canonical.onMailbox {cmd : Nat} {k : State → State} (h : s.Canonical)
    (hk : ∀ {u : State}, u.Canonical → (k u).Canonical) : (onMailbox s cmd k).Canonical :=
  .next (.ite (hk h) h)

theorem State.Canonical.appWriteFrom {fuel a : Nat} {bs : List Byte} (h : s.Canonical) :
    (appWriteFrom s fuel a bs).Canonical := by
  induction fuel generalizing s a bs with
  | zero => exact h
  | succ fuel ih =>
    unfold Machine.appWriteFrom
    split
    · exact h
    · exact ih (.deviceWrite h)

theorem State.Canonical.appWrite {a : Nat} {bs : List Byte} (h : s.Canonical) :
    (s.appWrite a bs).Canonical :=
  .appWriteFrom h

theorem Result.Canonical.execFwload (h : s.Canonical) : (execFwload s).Canonical := by
  unfold Machine.execFwload
  refine .onMailbox h ?_
  intro _ h
  refine .ite h ?_
  dsimp only
  split
  · exact h
  · exact .ite h (.ite h h)

theorem State.Canonical.writeDevid {v : Nat} (h : s.Canonical) : (s.writeDevid v).Canonical :=
  .ite h h

theorem State.Canonical.writeQueueReg {q word : Nat} {v : Word} (h : s.Canonical) :
    (s.writeQueueReg q word v).Canonical := by
  unfold State.writeQueueReg
  split
  · exact h
  · exact .doorbell h
  · exact h

theorem State.Canonical.writeCtxReg {c k : Nat} {v : Word} (h : s.Canonical) :
    (s.writeCtxReg c k v).Canonical :=
  .ite h h

theorem State.Canonical.writeTlbinv {high : Bool} {v : Word} (h : s.Canonical) :
    (s.writeTlbinv high v).Canonical :=
  .ite h (.ite (.invalidate h) h)

theorem State.Canonical.writeControl {a : Nat} {v : Word} (h : s.Canonical) :
    (s.writeControl a v).Canonical :=
  .ite h (.ite h h)

theorem State.Canonical.writeMailboxReg {a : Nat} {v : Word} {mgmt : Bool} (h : s.Canonical) :
    (s.writeMailboxReg a v mgmt).Canonical := by
  unfold State.writeMailboxReg
  dsimp only
  split
  · exact .mailboxWrite h
  · exact h
  · exact h
  · exact .writeDevid h
  · exact h

theorem State.Canonical.writeReg64 {a : Nat} {v : Word} {mgmt : Bool} (h : s.Canonical) :
    (s.writeReg64 a v mgmt).Canonical :=
  .ite h (.ite (.writeMailboxReg h) (.ite h (.ite h
    (.ite (.writeControl h) (.ite (.writeTlbinv h)
    (.ite (.ite (.clearErrors h) h) (.ite h (.ite h
    (.ite (.writeQueueReg h) (.ite (.writeCtxReg h) h))))))))))

/-! ## What the next step performs -/

theorem Fetched.Canonical.fetchFiring {f : Firing} (h : s.Canonical) :
    (fetchFiring s f).Canonical := by
  unfold Machine.fetchFiring
  refine .ite (.stop (.illegalWord h)) ?_
  split
  · exact .run h
  · exact .stop (.illegalWord h)

theorem Fetched.Canonical.fetchEngine {r n : Nat} (h : s.Canonical) :
    (fetchEngine s r n).Canonical := by
  unfold Machine.fetchEngine
  split
  · refine .ite ?_ (.stop h)
    split
    · exact .ite (.run h) (.stop h)
    · exact .stop h
  · exact .stop h

theorem Fetched.Canonical.fetchThread {j t : Nat} (h : s.Canonical) :
    (fetchThread s j t).Canonical := by
  unfold Machine.fetchThread
  split
  · split
    · refine .ite ?_ (.stop h)
      split
      · exact .run h
      · exact .stop h
    · exact .stop h
  · exact .stop h

theorem State.Canonical.pop (h : s.Canonical) : s.pop.2.Canonical := by
  unfold State.pop
  split <;> exact h

theorem State.Canonical.advance {d : Nat} {ev : Happening} (h : s.Canonical) :
    (s.advance d ev).2.Canonical := by
  unfold State.advance
  dsimp only
  split_ifs <;> exact h

theorem Fetched.Canonical.fetchHappening {x : Happening} (h : s.Canonical) :
    (fetchHappening s x).Canonical := by
  unfold Machine.fetchHappening
  split
  · exact .ite (.stop h) (.run h)
  · exact .fetchEngine h
  · exact .fetchThread h
  · exact .stop h
  · exact .stop (.upset h)
  · exact .stop h

theorem Fetched.Canonical.fetchIdle (h : s.Canonical) : (fetchIdle s).Canonical := by
  unfold Machine.fetchIdle
  split
  · exact .fetchHappening h
  · have popped := State.Canonical.pop h
    split
    · next e =>
      rw [e] at popped
      exact .stop popped
    · next d ev _ e =>
      rw [e] at popped
      have moved := State.Canonical.advance (d := d) (ev := ev) popped
      split
      · next e =>
        rw [e] at moved
        exact .fetchHappening moved
      · next e =>
        rw [e] at moved
        exact .stop moved

theorem Fetched.Canonical.fetch (h : s.Canonical) : (fetch s).Canonical := by
  unfold Machine.fetch
  split
  · exact .fetchFiring h
  · exact .fetchEngine h
  · exact .fetchThread h
  · exact .fetchIdle h

/-! ## Every instruction and every event -/

theorem exec_keeps_canonical (i : Instr) (h : s.Canonical) : Result.Canonical (exec i s) := by
  unfold exec
  cases i with
  | ill | trap => exact .onFiring h fun h => .park h
  | mov | gate => exact .carrying h
  | mov3 => exact .onFiring h fun h => .emit (.emitOut h)
  | const | constor | nullt | iterread | add | sub | mul | mulh | and | or | xor | andn | shl
  | shr | sar | rol | min | max | abs | neg | clz | popc | brev | cmp | test | lea | base | shape
  | extr | ins | pack | fsgn | fclass | cycle | rds | flags | site | perf => exact .computing h
  | steer | steern => exact .onFiring h fun h => .steerTo h
  | select | exit | stopt | pref => exact .onFiring h fun h => .emitOut h
  | iter | iterset => exact .onFiring h fun h => .emitTag h
  | colnew => exact .onFiring h fun h => h
  | colfree => exact .onFiring h fun h => .ite (.park h) (.emitOut (.ite h h))
  | retag => exact .onFiring h fun h => .ite (.park h) (.emitAs (.emitAs (.seed h)))
  | send => exact .onFiring h fun h => .sendTo h
  | sendx => exact .execSendx h
  | kindq | retire | unpk => exact .onFiring h fun h => .emit (.emit h)
  | kill => exact .onFiring h fun h => .ite (.park h) h
  | throttle => exact .onFiring h fun h => .ite (.emitOut h) (.ite (.passThrottle h) h)
  | div | rem => exact .dividing h
  | adds | subs | fma | fmin | fmax | fcmp | fcvt | ftoi | itof => exact .computingFl h
  | fadd | fsub | fmul | fdiv => exact .fltBinary h
  | fsqrt | fexp2 | flog2 | frcp | frsq | fsinp | fcosp => exact .fltUnary h
  | ld | ldv | vers | ldd => exact .reading h
  | st | vset | signal => exact .writingLater h
  | stv | aadd | aand | aor | axor | amin | amax | aswap | afadd | aincw | aser | post | arm =>
    exact .writingNow h
  | std => exact .onFiring h fun h => .withHome h fun h => .ite (.park h) (.bufferWrite h)
  | fence => exact .onFiring h fun h => .issueRead (.ite h h)
  | acas => exact .onFiring h fun h => .withHome h fun h => .issueNow h
  | xinit | xacc => exact .exactNow h
  | xread | ldk => exact .onFiring h fun h => .withHome h fun h => h
  | waitt => exact .onFiring h fun h => .ite (.emitOut h) h
  | bar => exact .onFiring h fun h => .ite (.park h) (.withHome h fun h => h)
  | cancel => exact .execCancel h
  | doneq => exact .execDoneq h
  | own => exact .execOwn h
  | permit | take => exact .onFiring h fun h => .permitOp h
  | strset => exact .onFiring h fun h => .onStrand h (.ite (.emitOut h) (.park h))
  | strocc => exact .onFiring h fun h => .onStrand h (.emitOut h)
  | strclose => exact .execStrclose h
  | seamin => exact .onEngine h fun h => .packToken h
  | seamout => exact .onEngine h fun h => .unpackBeat h
  | mzero | mscale | mbmap | mrowReadProgress | cpySetLpitch | cpySetLtask | camsetRead =>
    exact .onEngine h fun h => h
  | mldb => exact .onEngine h fun h => .loadB h
  | mldc => exact .onEngine h fun h => .loadC h
  | mma | mmax3 => exact .onEngine h fun h => .multiply h
  | mmas => exact .onEngine h fun h => .ite h (.multiply h)
  | mout => exact .onEngine h fun h => .outFrame h
  | mrow | camset | seampol | sampleSetStemp | sampleSetStopp =>
    exact .onEngine h fun h => .ite (.engineIllegal h) h
  | vmap => exact .execVmap h
  | vfma | vcmp | vsel | vrope => exact .onEngine h fun h => .join h
  | vred => exact .execVred h
  | vscan => exact .execVscan h
  | vsoft | vnorm => exact .onEngine h fun h => .fibreStep h
  | cvt => exact .onEngine h fun h => .convert h
  | tshape => exact .onTile h fun h => .ite (.engineIllegal h) h
  | tread => exact .onTile h fun h => .withShape h (.sendBlock h)
  | twrite => exact .onTile h fun h => .withShape h (.takeBlock h)
  | tcomp => exact .onTile h fun h => .withShape h (.ite (.engineIllegal h) (.compress h))
  | texp => exact .onTile h fun h => .withShape h (.expand h)
  | trot => exact .onTile h fun h => .ite (.engineFault h) (.withShape h (.rotate h))
  | twin | trep => exact .onTile h fun h => .ite (.engineIllegal h) (.withShape h (.sendBlock h))
  | tzmap => exact .onTile h fun h => .withShape h (.ite (.engineIllegal h) (.ite h h))
  | tsacc => exact .onTile h fun h => .ite (.engineIllegal h) (.withShape h (.accumulate h))
  | trmw => exact .onTile h fun h => .withShape h (.readModify h)
  | tfill => exact .onTile h fun h => .withShape h (.fillBlock h)
  | cpy | cpyg | cpys | cpy2d => exact .onEngine h fun h => .copyStep h
  | cpyq => exact .execCpyq h
  | camld => exact .onEngine h fun h => .loadCamera h
  | camcomp => exact .onEngine h fun h => .finish (.cmdFlags h)
  | pgather => exact .onEngine h fun h => .gather h
  | pray => exact .onEngine h fun h => .ray h
  | pscat => exact .onEngine h fun h => .scatter h
  | pstore => exact .onEngine h fun h => .bindStore h
  | pstat => exact .onEngine h fun h => .bound h (.andThen (.storeRead h) h fun h => h)
  | pclear => exact .onEngine h fun h => .clearStore h
  | pprior => exact .onEngine h fun h => .writePrior h
  | topk => exact .onEngine h fun h => .topk h
  | sample => exact .onEngine h fun h => .sample h
  | accept => exact .onEngine h fun h => .accept h
  | resid => exact .onEngine h fun h => .resid h
  | draw => exact .onEngine h fun h => .takeDraw h fun h => h
  | kvcommit => exact .onFiring h fun h => .withHome h fun h => .bufferWrite h
  | treemask => exact .onEngine h fun h => .treemask h
  | drawtab => exact .onEngine h fun h => .setTable h
  | isect | union => exact .onEngine h fun h => .joinCoords h
  | cmpr => exact .onEngine h fun h => .compareBeats h
  | wrs | brk => exact .onFiring h fun h => .ite h (.emitOut h)
  | tret | tskip => exact .onFiring h fun h => .returnTrap h
  | assert => exact .onFiring h fun h => .ite (.emitOut h) (.park h)
  | ownToLace => exact .execOwnToLace h
  | mzeroAuto => exact .onEngine h fun h => .sweep h
  | seqEnd => exact .onThread h fun h => .endThread h
  | seqRun | seqBranch | seqLoop => exact .onThread h fun h => h
  | seqWait => exact .execSeqWait h
  | seqPhase => exact .onThread h fun h => .ite h h
  | seqThreadResume => exact .execSeqThreadResume h
  | tokenArrival => exact .execTokenArrival h
  | killTokenArrival => exact .execKillTokenArrival h
  | killWaveComplete => exact .execKillWaveComplete h
  | firingSelect => exact .execFiringSelect h
  | activationCommit => exact .execActivationCommit h
  | relTokenSend => exact .execRelTokenSend h
  | identityRetire => exact .execIdentityRetire h
  | ageLimit => exact .next (.foldl (fun h => .foldl (fun h => .checkElem h) h) h)
  | colnewGrant => exact .execColnewGrant h
  | colourDrain | tensionUpdate | berthTenureExpiry | tlbinvDone | quayRestart | bistDue
  | bistRun | bistResult | diePowerDown => exact .next (.ite h h)
  | throttlePass => exact .execThrottlePass h
  | promiseDue => exact .execPromiseDue h
  | promise => exact .execPromise h
  | ldvRelease => exact .execLdvRelease h
  | taskStart => exact .execTaskStart h
  | tilePortRequest => exact .execTilePortRequest h
  | quayRequest => exact .execQuayRequest h
  | pageWalk => exact .execPageWalk h
  | engineCommandStart => exact .execEngineCommandStart h
  | engineCompletion => exact .execEngineCompletion h
  | ownerFlipEngine => exact .execOwnerFlipEngine h
  | strandBeatSend => exact .execStrandBeatSend h
  | controlStrandRequest => exact .execControlStrandRequest h
  | cellUpdate => exact .execCellUpdate h
  | carveRequest => exact .execCarveRequest h
  | brickClaim => exact .execBrickClaim h
  | brickPop => exact .execBrickPop h
  | brickPublish => exact .execBrickPublish h
  | queueDoorbell => exact .next (.ite h (.doorbell h))
  | jobValidate => exact .next (.ite h (.takeJob h))
  | berthing => exact .execBerthing h
  | admission => exact .execAdmission h
  | preemption => exact .execPreemption h
  | graphSourceInjection => exact .next (.ite h (.startLaunch h))
  | itemCompletion => exact .execItemCompletion h
  | freezeWave => exact .execFreezeWave h
  | freezeComplete => exact .execFreezeComplete h
  | launchRestore => exact .execLaunchRestore h
  | planeSwitch => exact .next (.ite h (.ite h (.ite h (.ite (.callDies h) (.thaw h)))))
  | create => exact .execCreate h
  | switchout => exact .next (.ite h (.ite h (.foldl (fun h => .ite h h) h)))
  | switchoutDrainEnd => exact .execSwitchoutDrainEnd h
  | restore => exact .execRestore h
  | destroy => exact .next (.ite h (.ite h (.ite (.freeCtx (.cancelCtx h)) (.cancelCtx h))))
  | tlbinv => exact .next (.invalidate h)
  | farRequestIssue => exact .execFarRequestIssue h
  | ownerRequest => exact .execOwnerRequest h
  | remoteReply => exact .execRemoteReply h
  | retransmit => exact .execRetransmit h
  | retransmitLifetimeExpiry => exact .execRetransmitLifetimeExpiry h
  | markQuery => exact .execMarkQuery h
  | markQueryAnswer => exact .execMarkQueryAnswer h
  | markAnswerReceipt => exact .execMarkAnswerReceipt h
  | goneWaitExpiry => exact .execGoneWaitExpiry h
  | tombstoneFree => exact .execTombstoneFree h
  | quarantineExpiry => exact .execQuarantineExpiry h
  | scrub => exact .next (.ite h (.editDie (.markAll h)))
  | errcntClear => exact .next (.clearErrors h)
  | replayReissue => exact .execReplayReissue h
  | functionReady => exact .next (.ite h (.setReady h))
  | dieWake => exact .next (.ite h (.ite (.foldl (fun h => h) h) h))
  | thermalThrottle | hawserLinkDown | thermalThrottleRelease => exact .next h
  | thermalShutdown => exact .next (State.Canonical.down (s := s))
  | resync => exact .onMailbox h fun h => .ite h (.endMailbox (.appWrite h))
  | attest => exact .onMailbox h fun h => .ite h (.ite h (.endMailbox (.appWrite h)))
  | fwload => exact .execFwload h
  | imgkey => exact .onMailbox h fun h => .ite h h
  | poweroff => exact .onMailbox h fun h => .ite h (.ite h (.endMailbox .down))
  | poweron => exact .onMailbox h fun h => .ite h (.endMailbox .deviceReset)
  | devidWrite => exact .next (.writeDevid h)
  | registerWrite => exact .next (.writeReg64 h)
  | powerLoss => exact .next .down
  | powerOnReset => exact .next .deviceReset

/-! ## Every step -/

theorem step_keeps_canonical (h : s.Canonical) : Result.Canonical (step s) := by
  have fetched := Fetched.Canonical.fetch h
  unfold step
  split
  · next e => exact exec_keeps_canonical _ (Fetched.Canonical.of_run e fetched)
  · next e => exact .next (Fetched.Canonical.of_stop e fetched)

/-- Settles O33: what a step fetches has canonical memory, and every instruction and event keeps
it. -/
theorem memoryKeepsItsForm : Obligations.MemoryKeepsItsForm := by
  intro s t h e
  have kept := step_keeps_canonical h
  rw [e] at kept
  exact kept

end Sys2Proof.Machine

/-! # Reading the parts of a state after an edit

What a launch, an element and a context read after an edit of the same place, and the views that an
edit leaves alone. -/

namespace Sys2Proof.Machine

theorem Tbl.get_of_find {α : Type} [Inhabited α] {t : Tbl α} {n : Nat} {v : α}
    (h : t.find n = some v) : t.get n = v := by
  unfold Tbl.get
  rw [h]
  rfl

theorem Tbl.find_edit_self {α : Type} {t : Tbl α} {n : Nat} {v : α} (h : t.find n = some v)
    (f : α → α) : (t.edit n f).find n = some (f v) := by
  rw [Tbl.find_edit, if_pos rfl, h]
  rfl

theorem listSet_getElem?_self {α : Type} {xs : List α} {n : Nat} (h : n < xs.length) (v : α) :
    (listSet xs n v)[n]? = some v := by
  induction xs generalizing n with
  | nil => simp at h
  | cons x xs ih =>
    cases n with
    | zero => rfl
    | succ n => simpa [listSet] using ih (by simpa using h)

section
variable {s : State} {r k c : Nat} {x : Run} {e : Elem} {y : Ctx}

theorem State.run_of_find (hr : s.runs.find r = some x) : s.run r = x := Tbl.get_of_find hr

theorem State.elem_of_find (hr : s.runs.find r = some x) (hk : x.elems.find k = some e) :
    s.elem r k = e := by
  unfold State.elem
  rw [State.run_of_find hr]
  exact Tbl.get_of_find hk

theorem State.ctx_of_find (hc : s.ctxs.find c = some y) : s.ctx c = y := Tbl.get_of_find hc

theorem State.run_editRun_self (hr : s.runs.find r = some x) (f : Run → Run) :
    (s.editRun r f).run r = f x :=
  State.run_of_find (Tbl.find_edit_self hr f)

theorem State.elem_editElem_self (hr : s.runs.find r = some x) (hk : x.elems.find k = some e)
    (f : Elem → Elem) : (s.editElem r k f).elem r k = f e :=
  State.elem_of_find (Tbl.find_edit_self hr _) (Tbl.find_edit_self hk f)

theorem State.ctx_editCtx_self (hc : s.ctxs.find c = some y) (f : Ctx → Ctx) :
    (s.editCtx c f).ctx c = f y :=
  State.ctx_of_find (Tbl.find_edit_self hc f)

/-- A view of elements that an edit of one of them leaves alone is the same of every element. -/
theorem State.elem_editElem_view {β : Type} (s : State) (r k q j : Nat) (f : Elem → Elem)
    (g : Elem → β) (h : ∀ z, g (f z) = g z) :
    g ((s.editElem r k f).elem q j) = g (s.elem q j) :=
  Tbl.view_edit s.runs r q _ (fun z => g (z.elems.get j)) fun z => Tbl.view_edit z.elems k j f g h

end

/-! ## Elements in a state -/

/-- A launch has an element at a place. -/
def State.Has (s : State) (r k : Nat) (e : Elem) : Prop :=
  ∃ x, s.runs.find r = some x ∧ x.elems.find k = some e

section
variable {s t : State} {r k c : Nat} {e : Elem}

theorem State.Has.elem_eq (h : s.Has r k e) : s.elem r k = e := by
  obtain ⟨x, hr, hk⟩ := h
  exact State.elem_of_find hr hk

theorem State.Has.of_runs (h : s.Has r k e) (same : t.runs = s.runs) : t.Has r k e := by
  unfold State.Has
  rw [same]
  exact h

theorem State.Has.editElem (h : s.Has r k e) (f : Elem → Elem) : (s.editElem r k f).Has r k (f e) := by
  obtain ⟨x, hr, hk⟩ := h
  exact ⟨_, Tbl.find_edit_self hr _, Tbl.find_edit_self hk f⟩

/-- A view of contexts that an edit of one of them leaves alone is the same of every context. -/
theorem State.ctx_editCtx_view {β : Type} (s : State) (c d : Nat) (f : Ctx → Ctx) (g : Ctx → β)
    (h : ∀ y, g (f y) = g y) : g ((s.editCtx c f).ctx d) = g (s.ctx d) :=
  Tbl.view_edit s.ctxs c d f g h

theorem State.taint_runs (s : State) (r colour : Nat) : (s.taint r colour).runs = s.runs := by
  unfold State.taint
  split_ifs <;> rfl

theorem State.taint_reqs (s : State) (r colour : Nat) : (s.taint r colour).reqs = s.reqs := by
  unfold State.taint
  split_ifs <;> rfl

/-! ## Activations -/

theorem Elem.uid_of_act {uid : Nat} {a : Act} (h : e.act uid = some a) : a.uid = uid := by
  simpa using List.find?_some h

theorem Elem.act_editAct {uid : Nat} {a : Act} (h : e.act uid = some a) {f : Act → Act}
    (same : ∀ b, (f b).uid = b.uid) : (e.editAct uid f).act uid = some (f a) := by
  have seen : ((fun b : Act => Decidable.decide (b.uid = uid)) ∘
      fun b => if b.uid = uid then f b else b) = fun b => Decidable.decide (b.uid = uid) := by
    funext b
    dsimp only [Function.comp]
    split
    · rw [same]
    · rfl
  have own := Elem.uid_of_act h
  unfold Elem.act Elem.editAct at *
  rw [List.find?_map, seen, h, Option.map_some, if_pos own]

/-- What `State.openAct` makes of the element where an identity becomes known (R235). -/
def Elem.opened (e : Elem) (uid now colour iter : Nat) : Elem :=
  match e.actOf colour iter with
  | some _ => e
  | none => { e with acts := e.acts ++ [Act.open_ uid colour iter now] }

theorem State.Has.openAct (h : s.Has r k e) (colour iter : Nat) :
    (s.openAct r k colour iter).Has r k (e.opened s.nextId s.cycle colour iter) := by
  unfold State.openAct Elem.opened
  rw [h.elem_eq]
  cases e.actOf colour iter with
  | some a => exact h
  | none => exact State.Has.editElem (s := s.takeId.2) h _

theorem State.openAct_flits (s : State) (r k colour iter : Nat) :
    (s.openAct r k colour iter).flits = s.flits := by
  unfold State.openAct
  split <;> rfl

theorem State.openAct_ctxs (s : State) (r k colour iter : Nat) :
    (s.openAct r k colour iter).ctxs = s.ctxs := by
  unfold State.openAct
  split <;> rfl

theorem Elem.opened_waiting (e : Elem) (uid now colour iter : Nat) :
    (e.opened uid now colour iter).waiting = e.waiting := by
  unfold Elem.opened
  split <;> rfl

theorem Elem.opened_actOf (e : Elem) (uid now colour iter : Nat) :
    ((e.opened uid now colour iter).actOf colour iter).isSome = true := by
  unfold Elem.opened
  split
  · next a known => simp [known]
  · exact List.find?_isSome.2 ⟨Act.open_ uid colour iter now, by simp, by simp [Act.open_]⟩

end

end Sys2Proof.Machine

/-! # A token goes to its target

Writing a hold register, entering the mesh, and the place that an offset names. -/

namespace Sys2Proof.Machine

/-! ## Hold registers, R35, R65 -/

/-- What `State.writeHold` makes of the element whose hold register it writes. -/
def Elem.written (e : Elem) (now j colour iter : Nat) (t : Tok) : Elem :=
  let x := if t.kind = .null then e else e.setHold now j t.val
  match x.actOf colour iter with
  | some a => x.editAct a.uid fun a => { a with holds := setBit a.holds j }
  | none => x

theorem State.writeHold_eq (s : State) (r k j colour iter : Nat) (t : Tok) :
    s.writeHold r k j colour iter t = s.editElem r k fun e => e.written s.cycle j colour iter t :=
  rfl

@[simp] theorem Elem.holdAt_editAct (e : Elem) (uid : Nat) (f : Act → Act) (now j : Nat) :
    (e.editAct uid f).holdAt now j = e.holdAt now j := rfl

/-- A write of the cycle does not show to a firing of the same cycle (R35). -/
theorem Elem.holdAt_setHold (e : Elem) {now : Nat} (h : e.beforeAt ≠ now) (j : Nat) (v : Word) :
    (e.setHold now j v).holdAt now j = (e.holds[j]?).getD 0 := by
  simp [Elem.holdAt, Elem.setHold, h, Tbl.find, Tbl.put]

theorem Elem.holdAt_of_before (e : Elem) {now : Nat} (h : e.beforeAt ≠ now) (j : Nat) :
    e.holdAt now j = (e.holds[j]?).getD 0 := by
  simp [Elem.holdAt, h]

/-- Marking the activation leaves every view alone that does not read the activations. -/
theorem Elem.written_view {β : Type} (e : Elem) (now j colour iter : Nat) (t : Tok) (g : Elem → β)
    (h : ∀ (z : Elem) uid f, g (z.editAct uid f) = g z) :
    g (e.written now j colour iter t) = g (if t.kind = .null then e else e.setHold now j t.val) := by
  unfold Elem.written
  dsimp only
  split
  · exact h _ _ _
  · rfl

theorem Elem.written_holds (e : Elem) (now : Nat) {j : Nat} (h : j < e.holds.length)
    (colour iter : Nat) (t : Tok) : (e.written now j colour iter t).holds[j]? =
      if t.kind = .null then e.holds[j]? else some t.val := by
  rw [Elem.written_view e now j colour iter t (fun z => z.holds[j]?) fun _ _ _ => rfl]
  split
  · rfl
  · exact listSet_getElem?_self h t.val

theorem Elem.written_holdAt (e : Elem) {now : Nat} (h : e.beforeAt ≠ now) (j colour iter : Nat)
    (t : Tok) : (e.written now j colour iter t).holdAt now j = (e.holds[j]?).getD 0 := by
  rw [Elem.written_view e now j colour iter t (fun z => z.holdAt now j) fun _ _ _ => rfl]
  split
  · exact e.holdAt_of_before h j
  · exact e.holdAt_setHold h j t.val

theorem Elem.written_actOf {e : Elem} {colour iter : Nat} {a : Act} (h : e.actOf colour iter = some a)
    (now j : Nat) (t : Tok) : ∃ b ∈ (e.written now j colour iter t).acts, b.uid = a.uid ∧
      b.holds = a.holds ||| 2 ^ j := by
  have acts : (if t.kind = .null then e else e.setHold now j t.val).acts = e.acts := by
    split <;> rfl
  have found : (if t.kind = .null then e else e.setHold now j t.val).actOf colour iter = some a := by
    unfold Elem.actOf
    rw [acts]
    exact h
  refine ⟨{ a with holds := setBit a.holds j }, ?_, rfl, ?_⟩
  · unfold Elem.written
    dsimp only
    rw [found]
    dsimp only [Elem.editAct]
    rw [acts]
    exact List.mem_map.2 ⟨a, List.mem_of_find?_eq_some h, if_pos rfl⟩
  · simp [setBit, Nat.shiftLeft_eq]

section
variable {s : State} {f : Firing} {r : Run} {e : Elem}

theorem State.emit_hold_killed (h : Stands s f r e) (j : BitVec 3) (t : Tok)
    (dead : ((s.ctx r.ctx).colour ((s.ctx r.ctx).resolve f.colour)).state = .killed) :
    s.emit f (some (.hold j)) t = s := by
  unfold State.emit State.emitAs
  simp only [State.run_of_find h.run, dead, if_true]

theorem State.emit_hold_elem (h : Stands s f r e) (j : BitVec 3) (t : Tok)
    (live : ((s.ctx r.ctx).colour ((s.ctx r.ctx).resolve f.colour)).state ≠ .killed) :
    (s.emit f (some (.hold j)) t).elem f.run f.elem =
      e.written s.cycle j.toNat ((s.ctx r.ctx).resolve f.colour) f.iter t := by
  unfold State.emit State.emitAs
  simp only [State.run_of_find h.run, live, if_false, State.writeHold_eq]
  exact State.elem_editElem_self h.run h.elem _

end

/-! ## The mesh, R25, R34, R362 -/

theorem State.inject_injects {s : State} {fl : Flit} {x : Run} (hr : s.runs.find fl.run = some x) :
    Injects s (s.inject fl) fl := by
  refine ⟨fun frozen => ?_, fun live away => ?_, fun live near first => ?_⟩
  · unfold State.inject
    rw [if_pos frozen, State.run_of_find hr]
    exact congrArg Run.inbox (State.run_editRun_self (s := s.takeId.2) hr _)
  · have far : (Decidable.decide (fl.dst = fl.src) && !s.behind s.nextId fl) = false := by
      rcases away with h | h <;> simp [h]
    unfold State.inject
    rw [if_neg live, far]
    rfl
  · unfold State.inject
    simp only [if_neg live, near, first, decide_true, Bool.not_false, Bool.and_self, if_true]

/-- The place at an offset stands in the same cluster (R29, R65). -/
theorem targetKey_place {key : Nat} {dx dy : BitVec 4} {X Y : Nat} (hX : X < 8) (hY : Y < 8)
    (ex : (X : Int) = (siteOf key % 8 : Nat) + dx.toInt)
    (ey : (Y : Int) = (siteOf key / 8 : Nat) + dy.toInt) :
    partOf (targetKey key dx dy) = partOf key ∧ cluOf (targetKey key dx dy) = cluOf key ∧
      siteOf (targetKey key dx dy) = Y * 8 + X := by
  have place : targetKey key dx dy = key / 64 * 64 + (Y * 8 + X) := by
    unfold targetKey
    dsimp only
    rw [← ex, ← ey]
    unfold siteOf
    omega
  rw [place]
  unfold partOf cluOf siteOf
  omega

/-- Settles O9: a hold register is written as `Elem.written` says, every other target is reached
through `State.inject`. -/
theorem emissionReachesItsTarget : Obligations.EmissionReachesItsTarget := by
  intro s f r e t h
  refine ⟨rfl, fun j n hn => ?_, fun p slot dx dy => ?_, fun _ _ _ _ _ => targetKey_place⟩
  · subst hn
    refine ⟨State.emit_hold_killed h j t, fun live eight => ?_⟩
    rw [State.emit_hold_elem h j t live]
    refine ⟨Elem.written_holds e _ (eight ▸ j.isLt) .., fun w old held => ?_,
      fun a found => Elem.written_actOf found ..⟩
    rw [Elem.written_holdAt e old, held]
    rfl
  · rw [← State.run_of_find h.run]
    exact State.inject_injects h.run

end Sys2Proof.Machine

/-! # Arrival of tokens, R21, R34, R120, R166, R242 -/

namespace Sys2Proof.Machine

/-- The token of a number has reached its place and is on its way no more. -/
def State.landed (s : State) (n : Nat) : State := { s with flits := s.flits.del n }

/-- What `State.storeToken` makes of the element whose matching store takes a token in its set. -/
def Elem.took (e : Elem) (f : Flit) (now : Nat) : Elem :=
  { (e.count 1 1).count 2 0 with
    waiting := e.waiting ++ [⟨f.slot, f.port, f.colour, f.iter, f.tok, now, none⟩] }

section
variable {s : State} {f : Flit} {x : Run} {e : Elem}

/-- A token that finds a free way in its set, and none of its set before it, is stored there. -/
theorem State.storeToken_of_room (h : s.Has f.run f.dst e)
    (room : e.inSet (setOf f.slot f.iter f.colour) < 8)
    (whole : e.setSpills (setOf f.slot f.iter f.colour) = false) (kept : e.spillHeld = []) :
    s.storeToken f = (s.openAct f.run f.dst f.colour f.iter).editElem f.run f.dst fun y =>
      y.took f s.cycle := by
  have full : (Decidable.decide (e.inSet (setOf f.slot f.iter f.colour) ≥ 8) ||
      e.setSpills (setOf f.slot f.iter f.colour)) = false := by
    simp [whole, Nat.not_le.mpr room]
  unfold State.storeToken
  simp only [h.elem_eq, full, kept, List.any_nil, Bool.false_and, Bool.or_false,
    Bool.false_eq_true, if_false, (State.openAct_same s f.run f.dst f.colour f.iter).cycle]
  rfl

theorem State.Has.storeToken (h : s.Has f.run f.dst e)
    (room : e.inSet (setOf f.slot f.iter f.colour) < 8)
    (whole : e.setSpills (setOf f.slot f.iter f.colour) = false) (kept : e.spillHeld = []) :
    (s.storeToken f).Has f.run f.dst
      ((e.opened s.nextId s.cycle f.colour f.iter).took f s.cycle) := by
  rw [State.storeToken_of_room h room whole kept]
  exact (h.openAct _ _).editElem _

/-! ## Delivery

A launch takes tokens at a place (`takes`), and the token's colour stands for itself (`own`). -/

theorem Flit.mk_self (f : Flit) : (⟨f.run, f.src, f.dst, f.slot, f.port, f.ctx, f.colour, f.iter,
    f.tok, f.cmd, f.sent, f.outer⟩ : Flit) = f := rfl

theorem State.deliver_badPort (hr : s.runs.find f.run = some x)
    (takes : x.deaf (partOf f.dst) = false) (own : (s.ctx x.ctx).resolve f.colour = f.colour)
    (port : f.port = 3) : s.deliver f = (s.softError f.run f.dst).trapDiscarded f := by
  unfold State.deliver
  simp only [State.run_of_find hr, own, Flit.mk_self]
  simp only [takes, port, Bool.false_eq_true, if_false, if_true]

theorem State.deliver_command (hr : s.runs.find f.run = some x)
    (takes : x.deaf (partOf f.dst) = false) (port : f.port < 3) {m : CmdMsg}
    (cmd : f.cmd = some m) : s.deliver f =
      s.takeId.2.editRun f.run fun y => y.addCommand s.cycle s.nextId f.dst m := by
  unfold State.deliver
  simp only [State.run_of_find hr, takes, Nat.ne_of_lt port, cmd, Bool.false_eq_true, if_false]
  rfl

theorem State.deliver_killed (hr : s.runs.find f.run = some x)
    (takes : x.deaf (partOf f.dst) = false) (own : (s.ctx x.ctx).resolve f.colour = f.colour)
    (port : f.port < 3) (cmd : f.cmd = none) (kind : f.tok.kind ≠ .command)
    (inner : f.outer = false) (dead : ((s.ctx x.ctx).colour f.colour).state = .killed) :
    s.deliver f = s := by
  unfold State.deliver
  simp only [State.run_of_find hr, own, takes, Nat.ne_of_lt port, cmd, kind, inner, dead,
    Bool.false_and, Bool.false_eq_true, if_false, if_true]

theorem State.deliver_lace (hr : s.runs.find f.run = some x) (hk : x.elems.find f.dst = some e)
    (takes : x.deaf (partOf f.dst) = false) (own : (s.ctx x.ctx).resolve f.colour = f.colour)
    (port : f.port < 3) (cmd : f.cmd = none) (kind : f.tok.kind ≠ .command)
    (inner : f.outer = false) (live : ((s.ctx x.ctx).colour f.colour).state ≠ .killed)
    (lace : siteKind (siteOf f.dst) = .lace) (reads : (e.reads f.slot).reads f.port = true)
    (noNotice : f.port = 1 → e.isThrottle f.slot = false) : s.deliver f = s.storeToken f := by
  have through : (Decidable.decide (f.port = 1) && e.isThrottle f.slot) = false := by
    simpa using noNotice
  unfold State.deliver
  simp only [State.run_of_find hr, own, Flit.mk_self]
  simp only [State.elem_of_find hr hk, takes, Nat.ne_of_lt port, cmd, kind, inner, live, lace,
    reads, through, Bool.false_and, Bool.not_true, Bool.and_false, Bool.false_eq_true, if_false]

end

/-! ## The event -/

section
variable {s : State} {n : Nat} {f : Flit} {x : Run} {e : Elem}

theorem exec_tokenArrival (hn : s.flits.find n = some f) : exec (.tokenArrival n) s =
    .next (if s.behind n f then s
      else if (s.run f.run).state = .frozen then
        (s.editRun f.run fun y => { y with inbox := y.inbox.put n f }).landed n
      else if s.backPressed f then s
      else (s.landed n).deliver f) := by
  show execTokenArrival n s = _
  unfold execTokenArrival
  rw [hn]
  rfl

theorem tokenArrival_frozen (hn : s.flits.find n = some f) (hr : s.runs.find f.run = some x)
    (first : s.behind n f = false) (frozen : x.state = .frozen) :
    ∃ t : State, exec (.tokenArrival n) s = .next t ∧ t.flits = s.flits.del n ∧
      t.run f.run = { x with inbox := x.inbox.put n f } := by
  rw [exec_tokenArrival hn, first, State.run_of_find hr, if_neg Bool.false_ne_true, if_pos frozen]
  exact ⟨_, rfl, rfl, State.run_editRun_self hr fun y => { y with inbox := y.inbox.put n f }⟩

theorem tokenArrival_stays (hn : s.flits.find n = some f) (hr : s.runs.find f.run = some x)
    (h : s.behind n f = true ∨ (x.state ≠ .frozen ∧ s.backPressed f = true)) :
    exec (.tokenArrival n) s = .next s := by
  rw [exec_tokenArrival hn, State.run_of_find hr]
  by_cases late : s.behind n f = true
  · rw [if_pos late]
  · obtain ⟨live, full⟩ := h.resolve_left late
    rw [if_neg late, if_neg live, if_pos full]

theorem tokenArrival_delivers (hn : s.flits.find n = some f) (hr : s.runs.find f.run = some x)
    (live : x.state ≠ .frozen) (first : s.behind n f = false) (room : s.backPressed f = false) :
    exec (.tokenArrival n) s = .next ((s.landed n).deliver f) := by
  rw [exec_tokenArrival hn, first, room, State.run_of_find hr, if_neg Bool.false_ne_true,
    if_neg live, if_neg Bool.false_ne_true]

theorem deliver_command_queues (hr : s.runs.find f.run = some x)
    (takes : x.deaf (partOf f.dst) = false) (port : f.port < 3) {m : CmdMsg}
    (cmd : f.cmd = some m) : ∃ c : Command, (s.deliver f).flits = s.flits ∧
      (s.deliver f).mem = s.mem ∧ ((s.deliver f).run f.run).cmds.find s.nextId = some c ∧
      c.elem = f.dst ∧ c.msg = m ∧ c.state = .queued := by
  rw [State.deliver_command hr takes port cmd]
  have found := (congrArg (fun y : Run => y.cmds.find s.nextId)
    (State.run_editRun_self (s := s.takeId.2) hr fun y =>
      y.addCommand s.cycle s.nextId f.dst m)).trans (Tbl.find_put_self ..)
  exact ⟨_, rfl, rfl, found, rfl, rfl, rfl⟩

theorem storeToken_waits (h : s.Has f.run f.dst e)
    (room : e.inSet (setOf f.slot f.iter f.colour) < 8)
    (whole : e.setSpills (setOf f.slot f.iter f.colour) = false) (kept : e.spillHeld = []) :
    (s.storeToken f).flits = s.flits ∧ (s.storeToken f).mem = s.mem ∧
      (s.storeToken f).ctxs = s.ctxs ∧
      ((s.storeToken f).elem f.run f.dst).waiting = e.waiting ++
        [⟨f.slot, f.port, f.colour, f.iter, f.tok, s.cycle, none⟩] ∧
      (((s.storeToken f).elem f.run f.dst).actOf f.colour f.iter).isSome = true := by
  rw [(h.storeToken room whole kept).elem_eq, State.storeToken_of_room h room whole kept]
  refine ⟨State.openAct_flits .., (State.openAct_same ..).mem, State.openAct_ctxs .., ?_,
    Elem.opened_actOf e s.nextId s.cycle f.colour f.iter⟩
  exact congrArg (· ++ _) (Elem.opened_waiting ..)

end

end Sys2Proof.Machine

/-! # Selection of a firing, R33, R239 -/

namespace Sys2Proof.Machine

/-- What is chosen among candidates is one of them, of least pass (R239). -/
theorem Elem.choose_least (e : Elem) {cs : List Cand} (nonempty : cs ≠ []) :
    ∃ c ∈ cs, e.choose cs = some c ∧ ∀ d ∈ cs, e.passOf c.slot ≤ e.passOf d.slot := by
  induction cs using List.reverseRecOn with
  | nil => exact absurd rfl nonempty
  | append_singleton cs d ih =>
    by_cases empty : cs = []
    · subst empty
      exact ⟨d, by simp, rfl, by simp⟩
    · obtain ⟨c, mem, chosen, least⟩ := ih empty
      have next : e.choose (cs ++ [d]) =
          if e.passOf d.slot < e.passOf c.slot then some d else some c := by
        unfold Elem.choose at chosen ⊢
        rw [List.foldl_append, chosen]
        rfl
      rw [next]
      split_ifs with less
      · refine ⟨d, by simp, rfl, fun b hb => ?_⟩
        rcases List.mem_append.1 hb with hb | hb
        · exact (Nat.le_of_lt less).trans (least b hb)
        · rw [List.mem_singleton.1 hb]
      · refine ⟨c, by simp [mem], rfl, fun b hb => ?_⟩
        rcases List.mem_append.1 hb with hb | hb
        · exact least b hb
        · rw [List.mem_singleton.1 hb]
          exact Nat.not_lt.1 less

/-- A firing with a word that decodes and a fate of execution gets the focus. -/
theorem State.decide_of_execute {u : State} {f g : Firing} {i : Instr}
    (good : nbit (u.elem f.run f.elem).badSlots f.slot = false) (decodes : decode (u.slotWord f) = .ok i)
    (fate : u.fate f i = .execute g) (early : u.tooLate f i = false) :
    u.decide f = u.toExecute g := by
  unfold State.decide
  simp only [good, decodes, fate, early, Bool.false_eq_true, if_false]

section
variable {s : State} {r k : Nat} {x : Run} {e : Elem}

theorem firingSelect_none (h : s.Has r k e) (empty : e.candidates s.cycle = []) :
    exec (.firingSelect r k) s = .next s := by
  show execFiringSelect r k s = _
  unfold execFiringSelect
  simp only [h.elem_eq, empty]
  split <;> rfl

theorem firingSelect_some (h : s.Has r k e) (runs : s.alive r k = true)
    (free : e.busyNow s.cycle = false) {cs : List Cand} (hcs : cs = e.candidates s.cycle) {c : Cand}
    (chosen : (e.gain cs).choose cs = some c) : exec (.firingSelect r k) s =
      .next ((s.editElem r k fun _ =>
        (e.gain cs).selected s.cycle ((s.run r).weight s.cycle k c.slot) c).decide
          (s.firingOf r k c)) := by
  subst hcs
  show execFiringSelect r k s = _
  unfold execFiringSelect
  simp only [h.elem_eq, runs, free, chosen, Bool.not_true, Bool.or_self, Bool.false_eq_true, if_false]

theorem firingSelect_takes (hr : s.runs.find r = some x) (hk : x.elems.find k = some e)
    (runs : s.alive r k = true) (free : e.busyNow s.cycle = false) {cs : List Cand}
    (hcs : cs = e.candidates s.cycle) (nonempty : cs ≠ []) : ∃ (c : Cand) (u : State), c ∈ cs ∧
      (∀ d ∈ cs, (e.gain cs).passOf c.slot ≤ (e.gain cs).passOf d.slot) ∧
      exec (.firingSelect r k) s = .next (u.decide (s.firingOf r k c)) ∧ u.mem = s.mem ∧
      u.elem r k = (e.gain cs).selected s.cycle (x.weight s.cycle k c.slot) c ∧
      ∀ i g, nbit (u.elem r k).badSlots c.slot = false → decode (u.slotWord (s.firingOf r k c)) = .ok i →
        u.fate (s.firingOf r k c) i = .execute g → u.tooLate (s.firingOf r k c) i = false →
        u.decide (s.firingOf r k c) = u.toExecute g ∧ (u.toExecute g).focus = .firing g ∧
          (u.toExecute g).mem = s.mem ∧ (u.toExecute g).flits = s.flits := by
  have h : s.Has r k e := ⟨x, hr, hk⟩
  obtain ⟨c, mem, chosen, least⟩ := (e.gain cs).choose_least nonempty
  refine ⟨c, _, mem, least, firingSelect_some h runs free hcs chosen, rfl, ?_,
    fun i g good decodes fate early =>
      ⟨State.decide_of_execute good decodes fate early, rfl, rfl, rfl⟩⟩
  rw [(h.editElem _).elem_eq, State.run_of_find hr]

end

/-! # Commit, R247 -/

/-- Puts of entries with different keys are all found. -/
theorem Tbl.find_foldl_put {α β : Type} (key : β → Nat) (val : β → α) {qs : List β}
    (nodup : (qs.map key).Nodup) (t : Tbl α) {q : β} (mem : q ∈ qs) :
    (qs.foldl (fun (t : Tbl α) q => t.put (key q) (val q)) t).find (key q) = some (val q) := by
  induction qs using List.reverseRecOn with
  | nil => simp at mem
  | append_singleton qs p ih =>
    rw [List.map_append, List.map_singleton, List.nodup_append] at nodup
    obtain ⟨nodup, -, apart⟩ := nodup
    rw [List.foldl_append, List.foldl_cons, List.foldl_nil]
    rcases List.mem_append.1 mem with old | new
    · rw [Tbl.find_put_ne _ _ (apart _ (List.mem_map_of_mem old) _ (List.mem_singleton_self _))]
      exact ih nodup old
    · rw [List.mem_singleton.1 new]
      exact Tbl.find_put_self ..

theorem Ctx.drain_regs (y : Ctx) (cs : List Nat) : (y.drain cs).regs = y.regs := by
  unfold Ctx.drain
  exact List.foldlRecOn cs _ (motive := fun z : Ctx => z.regs = y.regs) rfl fun z h _ _ => h

section
variable {s : State} {r k : Nat} {x : Run} {e : Elem} {a : Act}

theorem State.taint_regs (s : State) (r colour c : Nat) :
    ((s.taint r colour).ctx c).regs = (s.ctx c).regs := by
  unfold State.taint
  split
  · exact State.ctx_editCtx_view s _ c _ Ctx.regs fun _ => rfl
  · rfl

/-- What the flags and the buffered writes of a commit make of a state, before its releases. -/
structure Sent (s : State) (r k : Nat) (a : Act) (v : State) : Prop where
  mem : v.mem = s.mem
  regs : ∀ c, (v.ctx c).regs = ((s.orFlags (s.run r).ctx a.flags).ctx c).regs
  reqs : ∃ after : Nat → Store → List Nat, v.reqs =
    (sortStores a.stores).zipIdx.foldl (fun (t : Tbl Req) q =>
      t.put (s.nextId + q.2) (q.1.toReq (after (s.nextId + q.2) q.1))) s.reqs
  acts : ∀ e, s.Has r k e → ∃ e', v.Has r k e' ∧ e'.acts = e.acts

theorem Sent.taint {v : State} (h : Sent s r k a v) (q colour : Nat) :
    Sent s r k a (v.taint q colour) where
  mem := (State.taint_same v q colour).mem.trans h.mem
  regs c := (State.taint_regs v q colour c).trans (h.regs c)
  reqs := by
    rw [State.taint_reqs]
    exact h.reqs
  acts e he := by
    obtain ⟨e', there, same⟩ := h.acts e he
    exact ⟨e', there.of_runs (State.taint_runs ..), same⟩

theorem Sent.ite {p : Prop} [Decidable p] {v w : State} (hv : Sent s r k a v) (hw : Sent s r k a w) :
    Sent s r k a (if p then v else w) := iteInduction (fun _ => hv) fun _ => hw

/-- An activation as its commit leaves it (R247). -/
def Act.closed (b : Act) (now : Nat) : Act :=
  { b with committed := true, commitAt := now, flags := 0, stores := [], frees := [], wrs := [], owns := [] }

/-- A commit without register writes and held OWN commands. -/
theorem State.commit_eq (s : State) (r k : Nat) (wrs : a.wrs = []) (owns : a.owns = []) :
    ∃ v, Sent s r k a v ∧ s.commit r k a =
      (v.editCtx (s.run r).ctx fun y => y.drain a.frees).editAct r k a.uid fun b =>
        b.closed v.cycle := by
  unfold State.commit
  simp only [wrs, owns, List.foldl_nil]
  refine ⟨_, .ite (.taint ?sent ..) ?sent, rfl⟩
  refine ⟨rfl, fun _ => rfl, ?_, fun e he => ⟨_, State.Has.editElem he _, rfl⟩⟩
  dsimp only [State.editElem_reqs]
  rw [List.foldl_map, List.foldl_map]
  exact ⟨_, rfl⟩

theorem Tbl.find_foldl_put_zipIdx {reqs : Tbl Req} {first i : Nat} {xs : List Store} {st : Store}
    (f : Nat → Store → Req) (hi : xs[i]? = some st) :
    (xs.zipIdx.foldl (fun (t : Tbl Req) q => t.put (first + q.2) (f (first + q.2) q.1)) reqs).find
      (first + i) = some (f (first + i) st) := by
  have nodup : (xs.zipIdx.map fun q : Store × Nat => first + q.2).Nodup := by
    have : (xs.zipIdx.map fun q : Store × Nat => first + q.2) =
        (xs.zipIdx.map Prod.snd).map (first + ·) := by rw [List.map_map]; rfl
    rw [this, List.zipIdx_map_snd]
    exact List.Nodup.map (fun _ _ h => Nat.add_left_cancel h) (List.nodup_range')
  exact Tbl.find_foldl_put (fun q : Store × Nat => first + q.2) (fun q => f (first + q.2) q.1) nodup
    reqs (List.mk_mem_zipIdx_iff_getElem?.2 hi)

/-! ## The event -/

theorem exec_activationCommit (h : s.Has r k e) {uid : Nat} (ha : e.act uid = some a) :
    exec (.activationCommit r k uid) s = .next (if !s.commitReady r k a then s
      else ((a.stores.find? fun z => s.engineOwned z.home).map fun z =>
        s.trapOwner r k a z).getD (s.commit r k a)) := by
  show execActivationCommit r k uid s = _
  unfold execActivationCommit
  simp only [h.elem_eq, ha]
  cases a.stores.find? fun z => s.engineOwned z.home <;> rfl

theorem activationCommit_early (h : s.Has r k e) {uid : Nat} (ha : e.act uid = some a)
    (early : s.commitReady r k a = false) : exec (.activationCommit r k uid) s = .next s := by
  rw [exec_activationCommit h ha, early]
  rfl

theorem activationCommit_owner (h : s.Has r k e) {uid : Nat} (ha : e.act uid = some a)
    (ready : s.commitReady r k a = true) {st : Store}
    (owned : (a.stores.find? fun z => s.engineOwned z.home) = some st) :
    exec (.activationCommit r k uid) s = .next (s.trapOwner r k a st) := by
  rw [exec_activationCommit h ha, ready, owned]
  rfl

theorem activationCommit_commits (h : s.Has r k e) {uid : Nat} (ha : e.act uid = some a)
    (ready : s.commitReady r k a = true) (free : ∀ z ∈ a.stores, s.engineOwned z.home = false) :
    exec (.activationCommit r k uid) s = .next (s.commit r k a) := by
  have unowned : (a.stores.find? fun z => s.engineOwned z.home) = none :=
    List.find?_eq_none.2 fun z hz => by simp [free z hz]
  rw [exec_activationCommit h ha, ready, unowned]
  rfl

/-- The effects of a commit without register writes and held OWN commands (R247). -/
theorem commit_effects (hr : s.runs.find r = some x) (hk : x.elems.find k = some e) {uid : Nat}
    (ha : e.act uid = some a) (wrs : a.wrs = []) (owns : a.owns = [])
    (hc : s.ctxs.find x.ctx = some (s.ctx x.ctx)) : ∃ b : Act, (s.commit r k a).mem = s.mem ∧
      ((s.commit r k a).ctx x.ctx).regs.flags = (s.ctx x.ctx).regs.flags ||| a.flags ∧
      ((s.commit r k a).elem r k).act uid = some b ∧ b.committed = true ∧
      ∀ i st, (sortStores a.stores)[i]? = some st → ∃ q : Req,
        (s.commit r k a).reqs.find (s.nextId + i) = some q ∧ q.cls = .buffered ∧
        q.state = .pending ∧ q.op = st.op ∧ q.home = st.home ∧ q.size = st.size ∧
        q.data = st.data ∧ q.ord = st.ord := by
  obtain ⟨v, sent, eq⟩ := s.commit_eq r k wrs owns
  obtain ⟨e', there, same⟩ := sent.acts e ⟨x, hr, hk⟩
  obtain ⟨after, reqs⟩ := sent.reqs
  rw [eq]
  refine ⟨a.closed v.cycle, sent.mem, ?_, ?_, rfl, fun i st hi => ⟨st.toReq (after (s.nextId + i) st),
    ?_, rfl, rfl, rfl, rfl, rfl, rfl, rfl⟩⟩
  · have drained : ((v.editCtx (s.run r).ctx fun y => y.drain a.frees).ctx x.ctx).regs =
        (v.ctx x.ctx).regs := State.ctx_editCtx_view v _ _ _ Ctx.regs fun y => y.drain_regs a.frees
    have flagged : (s.orFlags x.ctx a.flags).ctx x.ctx = _ := State.ctx_editCtx_self hc _
    refine congrArg CtxRegs.flags (drained.trans (sent.regs x.ctx)) |>.trans ?_
    rw [State.run_of_find hr, flagged]
  · have again : e'.act a.uid = some a := by
      unfold Elem.act at ha ⊢
      rw [same, Elem.uid_of_act ha]
      exact ha
    have closed : (State.editAct (v.editCtx (s.run r).ctx fun y => y.drain a.frees) r k a.uid fun b =>
        b.closed v.cycle).Has r k (e'.editAct a.uid fun b => b.closed v.cycle) :=
      State.Has.editElem (s := v.editCtx (s.run r).ctx fun y => y.drain a.frees) there _
    rw [closed.elem_eq, ← Elem.uid_of_act ha]
    exact Elem.act_editAct again fun _ => rfl
  · exact (congrArg (Tbl.find · (s.nextId + i)) reqs).trans
      (Tbl.find_foldl_put_zipIdx (fun n st => st.toReq (after n st)) hi)

end

end Sys2Proof.Machine

/-! # Held tokens, retirement and the age limit, R235, R248, R254 -/

namespace Sys2Proof.Machine

section
variable {s : State} {r k : Nat} {x : Run} {e : Elem} {a : Act}

theorem relTokenSend_performed (hr : s.runs.find r = some x) (hk : x.elems.find k = some e) {n : Nat}
    {h : Held} (held : (e.helds.find? fun y => y.1 = n) = some (n, h)) (live : x.state ≠ .frozen)
    (known : h.req ≠ 0) (performed : s.reqs.find h.req = none) :
    ∃ u : State, exec (.relTokenSend r k n) s = .next (u.emitOut h.firing h.out h.tok) ∧
      u.mem = s.mem ∧ (u.elem r k).helds = e.helds.filter fun y => y.1 != n := by
  have visible : s.relVisible h = true := by
    unfold State.relVisible
    simp [known, performed]
  refine ⟨s.editElem r k fun y => { y with helds := y.helds.filter fun z => z.1 != n }, ?_, rfl, ?_⟩
  · show execRelTokenSend r k n s = _
    unfold execRelTokenSend
    simp only [State.run_of_find hr, State.elem_of_find hr hk, held, live, visible, decide_false,
      Bool.not_true, Bool.or_self, Bool.false_eq_true, if_false]
  · rw [State.elem_editElem_self hr hk]

/-- An identity may be forgotten: what the event asks of it (R235). -/
def State.mayRetire (s : State) (r k uid : Nat) (e : Elem) (a : Act) : Bool :=
  a.committed && a.commitAt < s.cycle && s.alive r k && e.noneParked a.colour a.iter &&
    (e.waiting.all fun w => w.colour != a.colour || w.iter != a.iter) && !s.underWay r k uid

theorem exec_identityRetire (h : s.Has r k e) {uid : Nat} (ha : e.act uid = some a) :
    exec (.identityRetire r k uid) s = .next (if s.mayRetire r k uid e a then
      s.editElem r k fun y => { y with acts := y.acts.filter fun b => b.uid != uid } else s) := by
  show execIdentityRetire r k uid s = _
  unfold execIdentityRetire
  simp only [h.elem_eq, ha]
  rfl

theorem identityRetire_stays (h : s.Has r k e) {uid : Nat} (ha : e.act uid = some a)
    (early : a.committed = false ∨ s.cycle ≤ a.commitAt) :
    exec (.identityRetire r k uid) s = .next s := by
  have stays : s.mayRetire r k uid e a = false := by
    unfold State.mayRetire
    rcases early with early | early
    · simp [early]
    · simp [Nat.not_lt.2 early]
  rw [exec_identityRetire h ha, stays]
  rfl

theorem identityRetire_forgets (h : s.Has r k e) {uid : Nat} (ha : e.act uid = some a)
    (done : a.committed = true) (past : a.commitAt < s.cycle) (runs : s.alive r k = true)
    (free : e.noneParked a.colour a.iter = true)
    (empty : ∀ w ∈ e.waiting, w.colour ≠ a.colour ∨ w.iter ≠ a.iter)
    (quiet : s.underWay r k uid = false) : ∃ t : State,
      exec (.identityRetire r k uid) s = .next t ∧ t.mem = s.mem ∧ (t.elem r k).act uid = none := by
  have nothing : (e.waiting.all fun w => w.colour != a.colour || w.iter != a.iter) = true := by
    simpa using empty
  have goes : s.mayRetire r k uid e a = true := by
    unfold State.mayRetire
    simp [done, past, runs, free, nothing, quiet]
  rw [exec_identityRetire h ha, goes]
  refine ⟨_, rfl, rfl, ?_⟩
  rw [if_pos rfl, (h.editElem _).elem_eq]
  exact List.find?_eq_none.2 fun b hb => by simpa using (List.mem_filter.1 hb).2

/-! ## The age limit -/

theorem State.checkAge_of_young {limit : Nat} (young : a.committed = true ∨ a.aged = true ∨
    s.cycle - a.opened < limit ∨ s.alive r k = false) : s.checkAge r k a limit = s := by
  unfold State.checkAge
  exact if_pos (by simpa [or_assoc] using young)

theorem State.checkAge_of_old {limit : Nat} (live : a.committed = false) (fresh : a.aged = false)
    (old : limit ≤ s.cycle - a.opened) (runs : s.alive r k = true) : s.checkAge r k a limit =
      (s.editAct r k a.uid fun b => { b with aged := true }).trap r
        ⟨0x07, 0, k, 31, a.colour, a.iter, BitVec.ofNat 64 (s.cycle - a.opened), s.openToken r,
          s.openToken r, .age k a.uid⟩ := by
  have token : (s.editAct r k a.uid fun b => { b with aged := true }).openToken r = s.openToken r :=
    congrArg Config.openTrapToken (State.run_editElem_view s r k r _ Run.trapSeq fun _ _ => rfl)
  unfold State.checkAge
  rw [if_neg (by simp [live, fresh, runs, old])]
  dsimp only
  rw [token]
  rfl

theorem ageLimit_none (young : ∀ p y, p ∈ s.runs → y ∈ p.2.elems → ∀ limit,
    y.2.ageLimit = some limit → ∀ a ∈ y.2.acts, a.committed = true ∨ a.aged = true ∨
      s.cycle - a.opened < limit ∨ s.alive p.1 y.1 = false) : exec .ageLimit s = .next s := by
  have elem : ∀ p ∈ s.runs, ∀ y ∈ p.2.elems, s.checkElem p.1 y.1 y.2 = s := by
    intro p hp y hy
    unfold State.checkElem
    cases hl : y.2.ageLimit with
    | none => rfl
    | some limit =>
      refine List.foldlRecOn y.2.acts _ (motive := fun t => t = s) rfl fun t ht a ha => ?_
      subst ht
      exact State.checkAge_of_young (young p y hp hy limit hl a ha)
  refine congrArg Host.Outcome.next (List.foldlRecOn s.runs _ (motive := fun t => t = s) rfl
    fun t ht p hp => List.foldlRecOn p.2.elems _ (motive := fun t => t = s) ht fun u hu y hy => ?_)
  rw [hu]
  exact elem p hp y hy

theorem ageLimit_one {limit : Nat} (runs : s.runs = [(r, x)]) (elems : x.elems = [(k, e)])
    (acts : e.acts = [a]) (hl : e.ageLimit = some limit) :
    exec .ageLimit s = .next (s.checkAge r k a limit) := by
  show execAgeLimit s = _
  unfold execAgeLimit State.checkElem
  simp only [runs, elems, acts, hl, List.foldl_cons, List.foldl_nil]

end

/-! # Kills, R120, R121 -/

section
variable {s : State} {r k n : Nat} {x : Run} {e : Elem} {w : Wave}

theorem State.purgeAt_mem (s : State) (r k : Nat) (cs : List Nat) :
    (s.purgeAt r k cs).mem = s.mem := by
  unfold State.purgeAt
  split <;> rfl

theorem State.Has.purgeAt (h : s.Has r k e) (lace : siteKind (siteOf k) = .lace) (cs : List Nat) :
    (s.purgeAt r k cs).Has r k (e.purge cs) := by
  unfold State.purgeAt
  rw [lace]
  exact (h.editElem fun y => y.purge cs).of_runs rfl

theorem exec_killTokenArrival (hn : s.waves.find n = some w) : exec (.killTokenArrival n k) s =
    .next (if !w.todo.contains k || (s.run w.run).state = .frozen ||
        s.urgentBefore n w.run w.src k || s.justCommitted w.run k w.colours || s.killHeld w k then s
      else { s.purgeAt w.run k w.colours with
        waves := (s.purgeAt w.run k w.colours).waves.put n
          { w with todo := w.todo.filter fun y => y != k
                   asked := (s.purgeAt w.run k w.colours).cycle } }) := by
  show execKillTokenArrival n k s = _
  unfold execKillTokenArrival
  rw [hn]

theorem killTokenArrival_purges (h : s.Has w.run k e) (hn : s.waves.find n = some w)
    (live : (s.run w.run).state ≠ .frozen) (todo : k ∈ w.todo)
    (lace : siteKind (siteOf k) = .lace) (first : s.urgentBefore n w.run w.src k = false)
    (calm : s.justCommitted w.run k w.colours = false) (takes : s.killHeld w k = false) :
    ∃ t : State, exec (.killTokenArrival n k) s = .next t ∧ t.mem = s.mem ∧
      t.elem w.run k = e.purge w.colours ∧
      (t.waves.find n).map Wave.todo = some (w.todo.filter fun y => y != k) := by
  have goes : (!w.todo.contains k || (s.run w.run).state = .frozen ||
      s.urgentBefore n w.run w.src k || s.justCommitted w.run k w.colours ||
      s.killHeld w k) = false := by
    simp [todo, live, first, calm, takes]
  rw [exec_killTokenArrival hn, goes, if_neg Bool.false_ne_true]
  refine ⟨_, rfl, State.purgeAt_mem .., ((h.purgeAt lace w.colours).of_runs rfl).elem_eq, ?_⟩
  rw [Tbl.find_put_self]
  rfl

theorem killTokenArrival_stays (hn : s.waves.find n = some w)
    (h : k ∉ w.todo ∨ s.urgentBefore n w.run w.src k = true ∨
      s.justCommitted w.run k w.colours = true ∨ s.killHeld w k = true) :
    exec (.killTokenArrival n k) s = .next s := by
  rw [exec_killTokenArrival hn, if_pos]
  rcases h with h | h | h | h <;> simp [h]

theorem killWaveComplete_waits (hn : s.waves.find n = some w) (todo : w.todo ≠ []) :
    exec (.killWaveComplete n) s = .next s := by
  have more : w.todo.isEmpty = false := by simpa using todo
  show execKillWaveComplete n s = _
  unfold execKillWaveComplete
  simp only [hn, more, Bool.false_and, Bool.false_eq_true, if_false]
  split <;> rfl

/-- A wave that has reached every place ends, and the firing that waits for it emits its colour, unless the
wave has killed it (R121). -/
theorem killWaveComplete_ends (hn : s.waves.find n = some w) (live : (s.run w.run).state ≠ .frozen)
    {f : Firing} {o : Out} (waits : w.firing = some (f, o)) (done : w.todo = []) :
    exec (.killWaveComplete n) s = .next (if f.colour ∈ w.colours then
      { s with waves := s.waves.del n }
    else State.emitOut { s with waves := s.waves.del n } f o
      (Tok.data ((f.lv.extractLsb' 0 10).setWidth 64))) := by
  have payload : word (bits f.lv 0 10) = (f.lv.extractLsb' 0 10).setWidth 64 := by
    rw [bits_eq, word, BitVec.ofNat_toNat]
  have active : ((s.run w.run).state != .frozen) = true := by simpa using live
  show execKillWaveComplete n s = _
  unfold execKillWaveComplete
  simp only [hn, waits, done, active, payload, List.isEmpty_nil, Bool.and_self, if_true,
    List.contains_iff_mem]

end

/-! # The colour pool, R115, R116 -/

section
variable {s : State} {c n : Nat} {y : Ctx} {w : ColWait}

theorem Ctx.editColour_colours (y : Ctx) (n : Nat) (f : Colour → Colour) :
    (y.editColour n f).colours = if f (y.colour n) = Colour.fresh then y.colours.del n
      else y.colours.put n (f (y.colour n)) := rfl

theorem Ctx.colour_editColour_self (y : Ctx) (n : Nat) {f : Colour → Colour}
    (used : f (y.colour n) ≠ Colour.fresh) : (y.editColour n f).colour n = f (y.colour n) := by
  conv_lhs => unfold Ctx.colour
  rw [Ctx.editColour_colours, if_neg used, Tbl.find_put_self]
  rfl

theorem exec_colnewGrant (hc : s.ctxs.find c = some y) (next : s.nextColnew y = some w) :
    exec (.colnewGrant c n) s = .next (
      if !y.roomAt w.level || !y.mayHand n || s.replayFirst c w.level w.since then s
      else (s.editCtx c fun z => { z.editColour n fun _ =>
          { Colour.fresh with
            state := .allocated
            level := w.level
            run := w.firing.run
            elem := w.firing.elem } with
        waiting := z.waiting.filter fun v => v != w }).emitOut w.firing w.out
          (Tok.data (BitVec.ofNat 64 (w.level * 1024 + n)))) := by
  show execColnewGrant c n s = _
  unfold execColnewGrant
  simp only [State.ctx_of_find hc, next]
  rfl

theorem colnewGrant_none (hc : s.ctxs.find c = some y) (nothing : s.nextColnew y = none) :
    exec (.colnewGrant c n) s = .next s := by
  show execColnewGrant c n s = _
  unfold execColnewGrant
  simp only [State.ctx_of_find hc, nothing]

theorem colnewGrant_stays (hc : s.ctxs.find c = some y) (next : s.nextColnew y = some w)
    (h : y.roomAt w.level = false ∨ y.mayHand n = false ∨ s.replayFirst c w.level w.since = true) :
    exec (.colnewGrant c n) s = .next s := by
  rw [exec_colnewGrant hc next, if_pos]
  rcases h with h | h | h <;> simp [h]

theorem colnewGrant_grants (hc : s.ctxs.find c = some y) (next : s.nextColnew y = some w)
    (room : y.roomAt w.level = true) (free : y.mayHand n = true)
    (first : s.replayFirst c w.level w.since = false) : ∃ u : State,
      exec (.colnewGrant c n) s = .next (u.emitOut w.firing w.out
        (Tok.data (BitVec.ofNat 64 (w.level * 1024 + n)))) ∧ u.mem = s.mem ∧
      ((u.ctx c).colour n).state = .allocated ∧ ((u.ctx c).colour n).level = w.level ∧
      (u.ctx c).waiting = y.waiting.filter fun v => v != w := by
  have goes : (!y.roomAt w.level || !y.mayHand n || s.replayFirst c w.level w.since) = false := by
    simp [room, free, first]
  have granted := Ctx.colour_editColour_self y n (f := fun _ => { Colour.fresh with
    state := .allocated
    level := w.level
    run := w.firing.run
    elem := w.firing.elem }) fun h =>
      absurd (congrArg Colour.state h) (show ColourState.allocated ≠ .free by decide)
  rw [exec_colnewGrant hc next, goes, if_neg Bool.false_ne_true]
  refine ⟨_, rfl, rfl, ?_, ?_, ?_⟩ <;> rw [State.ctx_editCtx_self hc]
  · exact congrArg Colour.state granted
  · exact congrArg Colour.level granted

/-! ## A colour returns to free -/

theorem Tbl.find_del_of_none {α : Type} {t : Tbl α} {m : Nat} (h : t.find m = none) (n : Nat) :
    (t.del n).find m = none := by
  induction t with
  | nil => rfl
  | cons q t ih =>
    obtain ⟨k, v⟩ := q
    unfold Tbl.find at h
    split_ifs at h with hk
    unfold Tbl.del
    split_ifs
    · exact h
    · unfold Tbl.find
      rw [if_neg hk]
      exact ih h

theorem Tbl.find_of_not_mem {α : Type} {t : Tbl α} {n : Nat} (h : n ∉ t.map Prod.fst) :
    t.find n = none := by
  induction t with
  | nil => rfl
  | cons q t ih =>
    rw [List.map_cons, List.mem_cons, not_or] at h
    unfold Tbl.find
    rw [if_neg (Ne.symm h.1)]
    exact ih h.2

theorem Tbl.find_del_self {α : Type} {t : Tbl α} (nodup : (t.map Prod.fst).Nodup) (n : Nat) :
    (t.del n).find n = none := by
  induction t with
  | nil => rfl
  | cons q t ih =>
    obtain ⟨k, v⟩ := q
    rw [List.map_cons, List.nodup_cons] at nodup
    unfold Tbl.del
    split_ifs with hk
    · exact Tbl.find_of_not_mem (hk ▸ nodup.1)
    · unfold Tbl.find
      rw [if_neg hk]
      exact ih nodup.2

theorem Tbl.find_map_none {α β : Type} {t : Tbl α} {n : Nat} (h : t.find n = none)
    (g : Nat × α → β) : Tbl.find (t.map fun q => (q.1, g q)) n = none := by
  induction t with
  | nil => rfl
  | cons q t ih =>
    unfold Tbl.find at h
    split_ifs at h with hq
    rw [List.map_cons]
    unfold Tbl.find
    rw [if_neg hq]
    exact ih h

theorem Ctx.editColour_fresh (y : Ctx) (n : Nat) :
    (y.editColour n fun _ => Colour.fresh).colours = y.colours.del n := by
  rw [Ctx.editColour_colours, if_pos rfl]

/-- A colour that returns to free leaves the pool's table, whatever returns with it. -/
theorem Ctx.find_freed (y : Ctx) (nodup : (y.colours.map Prod.fst).Nodup) (n : Nat) (ns : List Nat) :
    ((n :: ns).foldl (fun (c : Ctx) k => c.editColour k fun _ => Colour.fresh) y).colours.find n =
      none := by
  rw [List.foldl_cons]
  refine List.foldlRecOn ns _ (motive := fun z : Ctx => z.colours.find n = none) ?_ fun z h k _ => ?_
  · rw [Ctx.editColour_fresh]
    exact Tbl.find_del_self nodup n
  · rw [Ctx.editColour_fresh]
    exact Tbl.find_del_of_none h k

theorem State.freeColour_frees (hc : s.ctxs.find c = some y)
    (nodup : (y.colours.map Prod.fst).Nodup) (n : Nat) :
    (((s.freeColour c n).ctx c).colour n).state = .free := by
  have freed : ((s.freeColour c n).ctx c).colours.find n = none := by
    refine (congrArg (fun z : Ctx => z.colours.find n) (State.ctx_editCtx_self hc _)).trans ?_
    exact Tbl.find_map_none (Ctx.find_freed y nodup n _) _
  unfold Ctx.colour
  rw [freed]
  rfl

theorem colourDrain_stays (hc : s.ctxs.find c = some y) (h : (y.colour n).state ≠ .draining ∨
    s.colourClear c n = false ∨ s.inPurge c n = true) : exec (.colourDrain c n) s = .next s := by
  show execColourDrain c n s = _
  unfold execColourDrain
  rw [State.ctx_of_find hc, if_neg]
  rcases h with h | h | h <;> simp [h]

theorem colourDrain_frees (hc : s.ctxs.find c = some y) (drains : (y.colour n).state = .draining)
    (clear : s.colourClear c n = true) (out : s.inPurge c n = false)
    (nodup : (y.colours.map Prod.fst).Nodup) : ∃ t : State,
      exec (.colourDrain c n) s = .next t ∧ t.mem = s.mem ∧ ((t.ctx c).colour n).state = .free := by
  refine ⟨s.freeColour c n, ?_, rfl, State.freeColour_frees hc nodup n⟩
  show execColourDrain c n s = _
  unfold execColourDrain
  rw [State.ctx_of_find hc, if_pos (by simp [drains, clear, out])]

end

/-! # Throttles and promises, R122, R156 -/

section
variable {s : State} {r k : Nat} {x : Run} {e : Elem}

theorem throttlePass_passes (hr : s.runs.find r = some x) (hk : x.elems.find k = some e) {slot w : Nat}
    {o : Out} {f : Firing} (throttle : e.throttleOf slot = some (o, w)) (runs : s.alive r k = true)
    (oldest : (e.throttled.find? fun g => e.mayPass slot w g) = some f) : ∃ u : State,
      exec (.throttlePass r k slot) s = .next (u.emitOut f o f.lt.carry) ∧ u.mem = s.mem ∧
      (u.elem r k).throttled = e.throttled.erase f := by
  let u := s.editElem r k fun y => { y with throttled := y.throttled.erase f }
  have taken : (u.elem r k).throttled = e.throttled.erase f := by
    rw [State.elem_editElem_self hr hk]
  have next : exec (.throttlePass r k slot) s =
      .next (if (e.liveTags slot f.colour).contains f.iter then u.emitOut f o f.lt.carry
        else u.passThrottle f o (e.liveTags slot f.colour ++ [f.iter])) := by
    show execThrottlePass r k slot s = _
    unfold execThrottlePass
    simp only [State.elem_of_find hr hk, throttle, runs, oldest, Bool.not_true, Bool.false_eq_true,
      if_false]
    rfl
  rw [next]
  split_ifs
  · exact ⟨u, rfl, rfl, taken⟩
  · refine ⟨_, rfl, rfl, (State.elem_editElem_view u f.run f.elem r k _ Elem.throttled ?_).trans taken⟩
    exact fun _ => rfl

/-- A waiting WAITT is taken from its element. -/
def State.unwait (s : State) (r k n : Nat) : State :=
  s.editElem r k fun y => { y with waitts := y.waitts.filter fun z => z.1 != n }

theorem State.unwait_waitts (hr : s.runs.find r = some x) (hk : x.elems.find k = some e) (n : Nat) :
    ((s.unwait r k n).elem r k).waitts = e.waitts.filter fun y => y.1 != n := by
  unfold State.unwait
  rw [State.elem_editElem_self hr hk]

theorem State.outAt_unwait (s : State) (r k n : Nat) (f : Firing) :
    (s.unwait r k n).outAt f = s.outAt f := by
  unfold State.outAt State.unwait
  rw [State.elem_editElem_view s r k f.run f.elem _ Elem.slots]
  exact fun _ => rfl

theorem exec_promiseDue (h : s.Has r k e) {n : Nat} {f : Firing}
    (waits : (e.waitts.find? fun y => y.1 = n) = some (n, f)) : exec (.promiseDue r k n) s =
      .next (if !s.promiseKept r k f then s
        else (s.unwait r k n).emitOut f ((s.unwait r k n).outAt f) f.lt.carry) := by
  rw [State.outAt_unwait]
  show execPromiseDue r k n s = _
  unfold execPromiseDue
  simp only [h.elem_eq, waits]
  rfl

theorem exec_promise (h : s.Has r k e) {n : Nat} {f : Firing}
    (waits : (e.waitts.find? fun y => y.1 = n) = some (n, f)) : exec (.promise r k n) s =
      .next (if !s.promiseMissed r k f then s else (s.unwait r k n).park f 0x08 f.lv) := by
  show execPromise r k n s = _
  unfold execPromise
  simp only [h.elem_eq, waits]
  rfl

theorem State.promiseKept_eq {f : Firing} (runs : s.haltedSite r k = false) : s.promiseKept r k f =
    (duePassed (s.clockAt r k) (f.lv.extractLsb' 0 56).toNat && (s.copyOf r k f.lv).isNone) := by
  unfold State.promiseKept
  rw [runs, bits_eq, Bool.not_false, Bool.true_and]

theorem State.promiseMissed_eq {f : Firing} (hr : s.runs.find r = some x)
    (runs : s.haltedSite r k = false) : s.promiseMissed r k f =
      (duePassed (s.clockAt r k) ((f.lv.extractLsb' 0 56).toNat + (s.ctx x.ctx).regs.slack) &&
        (s.copyOf r k f.lv).isSome) := by
  unfold State.promiseMissed
  rw [runs, bits_eq, State.run_of_find hr, Bool.not_false, Bool.true_and]

end

end Sys2Proof.Machine

/-! # The events of lace elements -/

namespace Sys2Proof.Machine

section
variable {s : State} {r k n : Nat} {x : Run} {e : Elem} {f : Firing}

theorem promiseDue_waits (h : s.Has r k e)
    (waits : (e.waitts.find? fun y => y.1 = n) = some (n, f)) (runs : s.haltedSite r k = false)
    (early : duePassed (s.clockAt r k) (f.lv.extractLsb' 0 56).toNat = false) :
    exec (.promiseDue r k n) s = .next s := by
  rw [exec_promiseDue h waits, State.promiseKept_eq runs, early]
  rfl

theorem promiseDue_passes (hr : s.runs.find r = some x) (hk : x.elems.find k = some e)
    (waits : (e.waitts.find? fun y => y.1 = n) = some (n, f)) (runs : s.haltedSite r k = false)
    (due : duePassed (s.clockAt r k) (f.lv.extractLsb' 0 56).toNat = true)
    (complete : s.copyOf r k f.lv = none) : ∃ u : State,
      exec (.promiseDue r k n) s = .next (u.emitOut f (u.outAt f) f.lt.carry) ∧ u.mem = s.mem ∧
      (u.elem r k).waitts = e.waitts.filter fun y => y.1 != n := by
  refine ⟨s.unwait r k n, ?_, rfl, State.unwait_waitts hr hk n⟩
  rw [exec_promiseDue ⟨x, hr, hk⟩ waits, State.promiseKept_eq runs, due, complete]
  rfl

theorem promise_traps (hr : s.runs.find r = some x) (hk : x.elems.find k = some e)
    (waits : (e.waitts.find? fun y => y.1 = n) = some (n, f)) (runs : s.haltedSite r k = false)
    {c : Copy} (named : s.copyOf r k f.lv = some c)
    (missed : duePassed (s.clockAt r k)
      ((f.lv.extractLsb' 0 56).toNat + (s.ctx x.ctx).regs.slack) = true) : ∃ u : State,
      exec (.promise r k n) s = .next (u.park f 0x08 f.lv) ∧ u.mem = s.mem ∧
      (u.elem r k).waitts = e.waitts.filter fun y => y.1 != n := by
  refine ⟨s.unwait r k n, ?_, rfl, State.unwait_waitts hr hk n⟩
  rw [exec_promise ⟨x, hr, hk⟩ waits, State.promiseMissed_eq hr runs, missed, named]
  rfl

theorem promise_waits (hr : s.runs.find r = some x) (hk : x.elems.find k = some e)
    (waits : (e.waitts.find? fun y => y.1 = n) = some (n, f)) (runs : s.haltedSite r k = false)
    (early : duePassed (s.clockAt r k)
      ((f.lv.extractLsb' 0 56).toNat + (s.ctx x.ctx).regs.slack) = false) :
    exec (.promise r k n) s = .next s := by
  rw [exec_promise ⟨x, hr, hk⟩ waits, State.promiseMissed_eq hr runs, early]
  rfl

end

/-- Settles O53, event by event, by the lemmas on its answers: delivery goes through `State.deliver_lace`
and its siblings, selection through `Elem.choose_least`, a commit through `State.commit_eq`, and a colour's
return through `Ctx.find_freed`. -/
theorem elementsTakeTokensFireAndCommit : Obligations.ElementsTakeTokensFireAndCommit := by
  intro s r k x e hr hk
  have h : s.Has r k e := ⟨x, hr, hk⟩
  refine ⟨?arrival, ?select, ?commit, ?rel, ?retire, fun young => ageLimit_none young, ?age, ?kill,
    ?colours, ?throttle, ?promises⟩
  case arrival =>
    rintro n f hn rfl rfl
    refine ⟨tokenArrival_frozen hn hr, tokenArrival_stays hn hr,
      fun live first room takes own => ?_⟩
    have delivers := tokenArrival_delivers hn hr live first room
    refine ⟨fun port => ?_, fun m port cmd => ?_, fun cmd port kind inner dead => ?_,
      fun cmd port kind inner alive lace reads noNotice ways whole kept => ?_⟩
    · rw [delivers, State.deliver_badPort (s := s.landed n) hr takes own port]
      rfl
    · obtain ⟨c, flits, mem, queued⟩ := deliver_command_queues (s := s.landed n) hr takes port cmd
      exact ⟨_, c, delivers, flits, mem, queued⟩
    · rw [delivers, State.deliver_killed (s := s.landed n) hr takes own port cmd kind inner dead]
      rfl
    · rw [delivers, State.deliver_lace (s := s.landed n) hr hk takes own port cmd kind inner alive
        lace reads noNotice]
      exact ⟨_, rfl, storeToken_waits (s := s.landed n) h ways whole kept⟩
  case select =>
    rintro runs free cs rfl
    exact ⟨firingSelect_none h, firingSelect_takes hr hk runs free rfl⟩
  case commit =>
    intro uid a ha
    refine ⟨activationCommit_early h ha, fun ready st owned => activationCommit_owner h ha ready owned,
      fun ready free wrs owns hc => ?_⟩
    obtain ⟨b, effects⟩ := commit_effects hr hk ha wrs owns hc
    exact ⟨_, b, activationCommit_commits h ha ready free, effects⟩
  case rel =>
    exact fun n y held live known performed => relTokenSend_performed hr hk held live known performed
  case retire =>
    exact fun uid a ha => ⟨identityRetire_stays h ha, identityRetire_forgets h ha⟩
  case age =>
    intro a limit runs elems acts hl live fresh old goes
    rw [ageLimit_one runs elems acts hl, State.checkAge_of_old live fresh old goes]
  case kill =>
    rintro n w hn rfl live
    rw [← State.run_of_find hr] at live
    refine ⟨fun todo lace first calm takes =>
        killTokenArrival_purges h hn live todo lace first calm takes,
      killTokenArrival_stays hn, killWaveComplete_waits hn, fun f o waits done => ?_⟩
    have ends := killWaveComplete_ends hn live waits done
    exact ⟨fun own => by rw [ends, if_pos own], fun other => by rw [ends, if_neg other]⟩
  case colours =>
    intro c y n hc
    exact ⟨colnewGrant_none hc, fun w next => colnewGrant_stays hc next,
      fun w next room free _ first => colnewGrant_grants hc next room free first,
      colourDrain_stays hc, colourDrain_frees hc⟩
  case throttle =>
    exact fun slot o w f throttle runs oldest => throttlePass_passes hr hk throttle runs oldest
  case promises =>
    intro n f waits runs
    exact ⟨promiseDue_waits h waits runs, promiseDue_passes hr hk waits runs, fun c named =>
      ⟨promise_traps hr hk waits runs named, promise_waits hr hk waits runs⟩⟩

end Sys2Proof.Machine

/-! # What engine commands share

The state that a command's work starts from, its progress through the shared operations, the beats it
takes from an input port, and the blocks it reads and writes at homes of the stacks. -/

namespace Sys2Proof.Machine

/-! ## Tables in order -/

section
variable {α : Type} {t : Tbl α}

theorem Tbl.find_del_ne (t : Tbl α) {n m : Nat} (h : m ≠ n) : (t.del n).find m = t.find m := by
  induction t with
  | nil => rfl
  | cons e t ih =>
    obtain ⟨k, v⟩ := e
    unfold Tbl.del
    split_ifs with hk
    · subst hk
      simp [Tbl.find, Ne.symm h]
    · simp only [Tbl.find, ih]

theorem Tbl.del_sublist (t : Tbl α) (n : Nat) : (t.del n).Sublist t := by
  induction t with
  | nil => exact .slnil
  | cons e t ih =>
    unfold Tbl.del
    split_ifs
    · exact .cons _ (.refl _)
    · exact .cons_cons _ ih

theorem Tbl.key_of_mem_put {n k : Nat} {x : α} (h : k ∈ (t.put n x).map Prod.fst) :
    k = n ∨ k ∈ t.map Prod.fst := by
  induction t with
  | nil => simpa [Tbl.put] using h
  | cons e t ih =>
    unfold Tbl.put at h
    split_ifs at h with before same
    · simpa using h
    · exact (List.mem_cons.1 h).imp_right (List.mem_cons_of_mem _)
    · rw [List.map_cons, List.mem_cons] at h ⊢
      rcases h with h | h
      · exact .inr (.inl h)
      · exact (ih h).imp_right .inr

theorem Tbl.sorted_put (h : (t.map Prod.fst).Pairwise (· < ·)) (n : Nat) (x : α) :
    ((t.put n x).map Prod.fst).Pairwise (· < ·) := by
  induction t with
  | nil => exact List.pairwise_singleton ..
  | cons e t ih =>
    have below := h
    rw [List.map_cons, List.pairwise_cons] at below
    unfold Tbl.put
    split_ifs with before same
    · refine List.pairwise_cons.2 ⟨fun k hk => ?_, h⟩
      rcases List.mem_cons.1 hk with rfl | hk
      · exact before
      · exact before.trans (below.1 k hk)
    · subst same
      exact h
    · refine List.pairwise_cons.2 ⟨fun k hk => ?_, ih below.2⟩
      rcases Tbl.key_of_mem_put hk with rfl | hk
      · exact lt_of_le_of_ne (Nat.not_lt.1 before) (Ne.symm same)
      · exact below.1 k hk

theorem Tbl.sorted_del (h : (t.map Prod.fst).Pairwise (· < ·)) (n : Nat) :
    ((t.del n).map Prod.fst).Pairwise (· < ·) :=
  h.sublist ((Tbl.del_sublist t n).map _)

theorem Tbl.find_of_mem (h : (t.map Prod.fst).Pairwise (· < ·)) {n : Nat} {v : α}
    (mem : (n, v) ∈ t) : t.find n = some v := by
  induction t with
  | nil => cases mem
  | cons e t ih =>
    rw [List.map_cons, List.pairwise_cons] at h
    unfold Tbl.find
    rcases List.mem_cons.1 mem with rfl | mem
    · exact if_pos rfl
    · rw [if_neg (Nat.ne_of_lt (h.1 n (List.mem_map_of_mem mem)))]
      exact ih h.2 mem

/-- What `Tbl.edit` makes of one entry. -/
def editEntry (n : Nat) (f : α → α) (e : Nat × α) : Nat × α := if e.1 = n then (e.1, f e.2) else e

theorem Tbl.map_editEntry_of_not_mem {n : Nat} (h : n ∉ t.map Prod.fst) (f : α → α) :
    t.map (editEntry n f) = t := by
  conv_rhs => rw [← List.map_id t]
  refine List.map_congr_left fun e mem => if_neg ?_
  rintro rfl
  exact h (List.mem_map_of_mem mem)

theorem Tbl.edit_of_not_mem {n : Nat} (h : n ∉ t.map Prod.fst) (f : α → α) : t.edit n f = t := by
  unfold Tbl.edit
  rw [Tbl.find_of_not_mem h]

/-- In a table in order an edit changes the one entry of its key and no other. -/
theorem Tbl.edit_eq_map (h : (t.map Prod.fst).Pairwise (· < ·)) (n : Nat) (f : α → α) :
    t.edit n f = t.map (editEntry n f) := by
  induction t with
  | nil => rfl
  | cons e t ih =>
    obtain ⟨k, v⟩ := e
    rw [List.map_cons, List.pairwise_cons] at h
    rw [List.map_cons]
    rcases Nat.lt_trichotomy n k with before | rfl | after
    · have absent : n ∉ t.map Prod.fst := fun mem => Nat.lt_asymm before (h.1 n mem)
      rw [Tbl.map_editEntry_of_not_mem absent,
        Tbl.edit_of_not_mem (by simpa [Nat.ne_of_lt before] using absent)]
      simp [editEntry, Nat.ne_of_gt before]
    · have absent : n ∉ t.map Prod.fst := fun mem => Nat.lt_irrefl n (h.1 n mem)
      rw [Tbl.map_editEntry_of_not_mem absent]
      simp [editEntry, Tbl.edit, Tbl.find, Tbl.put]
    · have head : editEntry n f (k, v) = (k, v) := if_neg (Nat.ne_of_lt after)
      rw [head, ← ih h.2]
      unfold Tbl.edit
      simp only [Tbl.find, Nat.ne_of_lt after, if_false]
      split
      · simp [Tbl.put, Nat.lt_asymm after, Nat.ne_of_gt after]
      · rfl

end

/-! ## The entry of a list that is changed -/

theorem listSet_getElem?_ne {α : Type} (xs : List α) {n m : Nat} (h : m ≠ n) (v : α) :
    (listSet xs n v)[m]? = xs[m]? := by
  induction xs generalizing n m with
  | nil => rfl
  | cons x xs ih =>
    cases n with
    | zero =>
      cases m with
      | zero => exact absurd rfl h
      | succ m => rfl
    | succ n =>
      cases m with
      | zero => rfl
      | succ m => simpa [listSet] using ih (by simpa using h)

theorem listModify_getElem? {α : Type} (xs : List α) (n m : Nat) (f : α → α) :
    (listModify xs n f)[m]? = if m = n then xs[m]?.map f else xs[m]? := by
  unfold listModify
  split
  · next x found =>
    split_ifs with same
    · subst same
      obtain ⟨inside, -⟩ := List.getElem?_eq_some_iff.1 found
      rw [listSet_getElem?_self inside, found]
      rfl
    · exact listSet_getElem?_ne xs same _
  · next missing =>
    split_ifs with same
    · subst same
      rw [missing]
      rfl
    · rfl

/-- A view of the entries that the change leaves alone is the same of the whole list. -/
theorem listModify_map {α β : Type} (xs : List α) (n : Nat) {f : α → α} {g : α → β}
    (same : ∀ x, g (f x) = g x) : (listModify xs n f).map g = xs.map g := by
  refine List.ext_getElem? fun m => ?_
  rw [List.getElem?_map, List.getElem?_map, listModify_getElem?]
  split_ifs
  · cases xs[m]? <;> simp [same]
  · rfl

/-! ## Beats at ports, R31, R258 -/

/-- The input ports that the branches of a strand end at. -/
def Strand.ends (st : Strand) : List (Nat × Nat) := st.branches.map fun b => (b.elem, b.port)

/-- A strand of which one branch has given up its first beat. -/
def Strand.dropBeat (i : Nat) (st : Strand) : Strand :=
  { st with branches := listModify st.branches i fun b => { b with beats := b.beats.drop 1 } }

theorem Strand.ends_dropBeat (st : Strand) (i : Nat) : (st.dropBeat i).ends = st.ends :=
  listModify_map st.branches i fun _ => rfl

section
variable {s t s' t' : State} {r key port k i : Nat} {x : Run}

/-- The strand of an input port, and the branch of it that ends there, by the ends alone. -/
theorem Run.inEnd_eq (x : Run) (key port : Nat) : x.inEnd key port =
    (x.strands.find? fun e => e.2.ends.any fun q => q.1 = key && q.2 = port).map fun e =>
      (e.1, e.2.ends.findIdx fun q => q.1 = key && q.2 = port) := by
  simp only [Strand.ends, List.any_map, List.findIdx_map, Run.inEnd, Function.comp_def]
  split <;> simp [*]

theorem Run.inEnd_edit (strung : (x.strands.map Prod.fst).Pairwise (· < ·)) (k key port : Nat)
    {f : Strand → Strand} (same : ∀ st, (f st).ends = st.ends) :
    Run.inEnd { x with strands := x.strands.edit k f } key port = x.inEnd key port := by
  have ends (e : Nat × Strand) : (editEntry k f e).2.ends = e.2.ends := by
    unfold editEntry
    split_ifs
    · exact same e.2
    · rfl
  have keys (e : Nat × Strand) : (editEntry k f e).1 = e.1 := by
    unfold editEntry
    split_ifs <;> rfl
  simp only [Run.inEnd_eq, Tbl.edit_eq_map strung, List.find?_map, Option.map_map,
    Function.comp_def, ends, keys]

/-- The branch that a port's beats come by ends at the port. -/
theorem Run.branch_of_inEnd (strung : (x.strands.map Prod.fst).Pairwise (· < ·))
    (h : x.inEnd key port = some (k, i)) : (x.strands.get k).ends[i]? = some (key, port) := by
  rw [Run.inEnd_eq, Option.map_eq_some_iff] at h
  obtain ⟨⟨k', st⟩, found, eq⟩ := h
  cases eq
  have ends := List.find?_some found
  rw [Tbl.get_of_find (Tbl.find_of_mem strung (List.mem_of_find?_eq_some found))]
  have inside := List.findIdx_lt_length_of_exists (List.any_eq_true.1 ends)
  have at_ := List.findIdx_getElem (w := inside)
  simp only [Bool.and_eq_true, decide_eq_true_eq] at at_
  rw [List.getElem?_eq_getElem inside]
  exact congrArg some (Prod.ext at_.1 at_.2)

/-- The beats on one branch of a strand. -/
def Run.beatsOn (x : Run) (e : Nat × Nat) : List Beat :=
  (((x.strands.get e.1).branches[e.2]?).getD default).beats

theorem State.arriving_eq (s : State) (r key port : Nat) : s.arriving r key port =
    (((s.run r).inEnd key port).map (s.run r).beatsOn).getD [] := by
  unfold State.arriving
  split <;> simp [*, Run.beatsOn]

theorem State.arriving_of_strands (same : (t.run r).strands = (s.run r).strands) (key port : Nat) :
    t.arriving r key port = s.arriving r key port := by
  simp only [State.arriving, Run.inEnd, same]

theorem State.formed_of_strands (same : (t.run r).strands = (s.run r).strands) (key port : Nat) :
    t.formed r key port = s.formed r key port := by
  simp only [State.formed, Run.outStrand, same]

/-- Beats move alike where the strands are the same. -/
theorem Moves.of_strands {ins : List Nat} {outs : List (Nat × List Beat)}
    (h : Moves r key ins outs s t) (before : (s'.run r).strands = (s.run r).strands)
    (after : (t'.run r).strands = (t.run r).strands) : Moves r key ins outs s' t' where
  taken p hp := by
    rw [State.arriving_of_strands after, State.arriving_of_strands before, h.taken p hp]
  kept k p hp := by
    rw [State.arriving_of_strands after, State.arriving_of_strands before, h.kept k p hp]
  formed o ho := by
    rw [State.formed_of_strands after, State.formed_of_strands before, h.formed o ho]
  unformed p hp := by
    rw [State.formed_of_strands after, State.formed_of_strands before, h.unformed p hp]

/-- The launch after a branch has given up its first beat. -/
def Run.dropBeat (x : Run) (e : Nat × Nat) : Run :=
  { x with strands := x.strands.edit e.1 (Strand.dropBeat e.2) }

theorem Run.beatsOn_dropBeat (x : Run) (e d : Nat × Nat) :
    (x.dropBeat e).beatsOn d = if d = e then (x.beatsOn d).drop 1 else x.beatsOn d := by
  obtain ⟨k, i⟩ := e
  obtain ⟨m, j⟩ := d
  unfold Run.beatsOn Run.dropBeat Tbl.get
  dsimp only
  rw [Tbl.find_edit]
  by_cases strand : m = k
  · subst strand
    cases x.strands.find m with
    | none =>
      rw [if_pos rfl]
      split_ifs <;> rfl
    | some st =>
      simp only [if_true, Option.map_some, Option.getD_some, Strand.dropBeat, listModify_getElem?,
        Prod.mk.injEq, true_and]
      split_ifs
      · cases st.branches[j]? <;> rfl
      · rfl
  · simp [strand]

theorem Run.outStrand_edit (strung : (x.strands.map Prod.fst).Pairwise (· < ·)) (k key port : Nat)
    {f : Strand → Strand} (elem : ∀ st, (f st).elem = st.elem) (same : ∀ st, (f st).port = st.port) :
    Run.outStrand { x with strands := x.strands.edit k f } key port = x.outStrand key port := by
  have start (e : Nat × Strand) : (editEntry k f e).1 = e.1 ∧ (editEntry k f e).2.elem = e.2.elem ∧
      (editEntry k f e).2.port = e.2.port := by
    unfold editEntry
    split_ifs
    · exact ⟨rfl, elem e.2, same e.2⟩
    · exact ⟨rfl, rfl, rfl⟩
  unfold Run.outStrand
  simp only [Tbl.edit_eq_map strung, List.find?_map, Function.comp_def, start]
  cases x.strands.find? _ <;> simp [start]

/-- The next beat of an input port is taken, and no other beat moves. -/
theorem State.takeBeat_moves (hr : s.runs.find r = some x)
    (strung : (x.strands.map Prod.fst).Pairwise (· < ·)) (key port : Nat) :
    Moves r key [port] [] s (s.takeBeat r key port) := by
  cases found : x.inEnd key port with
  | none =>
    have same : s.takeBeat r key port = s := by
      unfold State.takeBeat
      rw [State.run_of_find hr, found]
    rw [same]
    refine ⟨fun p hp => ?_, fun _ _ _ => rfl, by simp, fun _ _ => rfl⟩
    rw [List.mem_singleton.1 hp, State.arriving_eq, State.run_of_find hr, found]
    rfl
  | some e =>
    have launch : (s.takeBeat r key port).run r = x.dropBeat e := by
      unfold State.takeBeat
      rw [State.run_of_find hr, found]
      exact State.run_editRun_self hr _
    have ends (k p : Nat) : (x.dropBeat e).inEnd k p = x.inEnd k p :=
      Run.inEnd_edit strung e.1 k p (Strand.ends_dropBeat · e.2)
    have beats (k p : Nat) : (s.takeBeat r key port).arriving r k p =
        if x.inEnd k p = some e then (s.arriving r k p).drop 1 else s.arriving r k p := by
      rw [State.arriving_eq, State.arriving_eq, launch, State.run_of_find hr, ends]
      cases x.inEnd k p with
      | none => simp
      | some d => simpa using Run.beatsOn_dropBeat x e d
    refine ⟨fun p hp => ?_, fun k p other => ?_, by simp, fun p _ => ?_⟩
    · rw [List.mem_singleton.1 hp, beats, if_pos found]
    · rw [beats, if_neg]
      intro shared
      have own := Run.branch_of_inEnd strung found
      rw [Run.branch_of_inEnd strung shared] at own
      cases own
      simp at other
    · have start : (x.dropBeat e).outStrand key p = x.outStrand key p :=
        Run.outStrand_edit strung e.1 key p (fun _ => rfl) fun _ => rfl
      unfold State.formed
      rw [launch, start, State.run_of_find hr]
      cases x.outStrand key p with
      | none => rfl
      | some k => exact Tbl.view_edit x.strands e.1 k _ Strand.ready fun _ => rfl

end

/-! ## A command at its engine, R166 -/

section
variable {s t : State} {r n q key : Nat} {x : Run} {c : Command} {p p' : Prog}

/-- At its engine a word does its command's next unit of work. -/
theorem onEngine_of_atEngine (h : AtEngine s r n x c) (k : Cmd) (trigger : Bool)
    (work : State → Nat → Nat → Command → State) :
    onEngine s k trigger work = .next (work s.idle r n c) := by
  have found : (s.run r).cmds.find n = some c := by
    rw [State.run_of_find h.run]
    exact h.cmd
  unfold onEngine
  simp only [h.focus, found]

theorem AtEngine.progress (h : AtEngine s r n x c) : Progress s.idle r n c c.prog := by
  unfold Progress
  rw [State.run_idle, State.run_of_find h.run, h.cmd]
  rfl

theorem State.editRun_cmds (s : State) (r q : Nat) {f : Run → Run}
    (same : ∀ y, (f y).cmds = y.cmds) : ((s.editRun r f).run q).cmds = (s.run q).cmds :=
  State.run_editRun_view s r q f Run.cmds same

theorem State.editCmd_cmds (s : State) (r n : Nat) (f : Command → Command) :
    ((s.editCmd r n f).run r).cmds.find n = ((s.run r).cmds.find n).map f := by
  unfold State.run Tbl.get
  rw [State.editCmd_runs, Tbl.find_edit, if_pos rfl]
  cases s.runs.find r with
  | none => rfl
  | some y => simp [Tbl.find_edit]

@[simp] theorem State.editCmd_frame (s : State) (r n q key : Nat) (f : Command → Command) :
    (s.editCmd r n f).frame q key = s.frame q key :=
  State.run_editRun_view s r q _ (fun y => (y.frames.find key).getD Frame.start) fun _ => rfl

@[simp] theorem State.setProg_frame (s : State) (r n q key : Nat) (p : Prog) :
    (s.setProg r n p).frame q key = s.frame q key := State.editCmd_frame ..

@[simp] theorem State.finish_frame (s : State) (r n q key : Nat) (v : Word) :
    (s.finish r n v).frame q key = s.frame q key := State.editCmd_frame ..

@[simp] theorem State.cmdFlags_frame (s : State) (r n fl q key : Nat) :
    (s.cmdFlags r n fl).frame q key = s.frame q key := by
  unfold State.cmdFlags
  split_ifs
  · rfl
  · exact State.editCmd_frame ..

@[simp] theorem State.takeBeat_frame (s : State) (r k port q key : Nat) :
    (s.takeBeat r k port).frame q key = s.frame q key := by
  unfold State.takeBeat
  split
  · rfl
  · exact State.run_editRun_view s r q _ (fun y => (y.frames.find key).getD Frame.start) fun _ => rfl

theorem State.frame_of_runs (same : t.runs = s.runs) (q key : Nat) : t.frame q key = s.frame q key := by
  unfold State.frame State.run
  rw [same]

@[simp] theorem State.idle_frame (s : State) (q key : Nat) : s.idle.frame q key = s.frame q key := rfl

theorem State.editFrame_frame (hr : s.runs.find r = some x) (key : Nat) (f : Frame → Frame) :
    (s.editFrame r key f).frame r key = f (s.frame r key) := by
  unfold State.frame State.editFrame
  rw [State.run_editRun_self hr, State.run_of_find hr, Tbl.find_put_self]
  rfl

@[simp] theorem State.editCmd_strands (s : State) (r n q : Nat) (f : Command → Command) :
    ((s.editCmd r n f).run q).strands = (s.run q).strands :=
  State.run_editRun_view s r q _ Run.strands fun _ => rfl

@[simp] theorem State.setProg_strands (s : State) (r n q : Nat) (p : Prog) :
    ((s.setProg r n p).run q).strands = (s.run q).strands := State.editCmd_strands ..

@[simp] theorem State.cmdFlags_strands (s : State) (r n fl q : Nat) :
    ((s.cmdFlags r n fl).run q).strands = (s.run q).strands := by
  unfold State.cmdFlags
  split_ifs
  · rfl
  · exact State.editCmd_strands ..

@[simp] theorem State.editFrame_strands (s : State) (r key q : Nat) (f : Frame → Frame) :
    ((s.editFrame r key f).run q).strands = (s.run q).strands :=
  State.run_editRun_view s r q _ Run.strands fun _ => rfl

theorem State.find_takeBeat (hr : s.runs.find r = some x) (key port : Nat) :
    ∃ y, (s.takeBeat r key port).runs.find r = some y := by
  unfold State.takeBeat
  split
  · exact ⟨x, hr⟩
  · exact ⟨_, Tbl.find_edit_self hr _⟩

/-! ## The progress of a command -/

theorem Progress.of_cmds (h : Progress s r n c p) (same : (t.run r).cmds = (s.run r).cmds) :
    Progress t r n c p := by
  unfold Progress
  rw [same]
  exact h

theorem Progress.of_runs (h : Progress s r n c p) (same : t.runs = s.runs) : Progress t r n c p :=
  h.of_cmds (by unfold State.run; rw [same])

theorem Progress.editFrame (h : Progress s r n c p) (key : Nat) (f : Frame → Frame) :
    Progress (s.editFrame r key f) r n c p := h.of_cmds (State.editRun_cmds s r r fun _ => rfl)

theorem Progress.takeBeat (h : Progress s r n c p) (key port : Nat) :
    Progress (s.takeBeat r key port) r n c p := by
  unfold State.takeBeat
  split
  · exact h
  · exact h.of_cmds (State.editRun_cmds s r r fun _ => rfl)

theorem Progress.editCmd (h : Progress s r n c p) {f : Command → Command}
    (same : ∀ d, ((f d).state, (f d).prog) = (d.state, d.prog)) :
    Progress (s.editCmd r n f) r n c p := by
  unfold Progress at *
  rw [State.editCmd_cmds, Option.map_map, ← h]
  exact congrArg (Option.map · _) (funext same)

theorem Progress.cmdFlags (h : Progress s r n c p) (fl : Nat) :
    Progress (s.cmdFlags r n fl) r n c p := by
  unfold State.cmdFlags
  split_ifs
  · exact h
  · exact h.editCmd fun _ => rfl

theorem Progress.view {β : Type} (h : Progress s r n c p) (g : Prog → β) :
    ((s.run r).cmds.find n).map (fun d => (d.state, g d.prog)) = some (c.state, g p) := by
  have viewed := congrArg (Option.map fun e : CmdState × Prog => (e.1, g e.2)) h
  rwa [Option.map_map] at viewed

theorem Progress.found (h : Progress s r n c p) : ∃ d, (s.run r).cmds.find n = some d ∧
    d.state = c.state ∧ d.prog = p := by
  obtain ⟨d, found, eq⟩ := Option.map_eq_some_iff.1 h
  exact ⟨d, found, congrArg Prod.fst eq, congrArg Prod.snd eq⟩

theorem Progress.setProg (h : Progress s r n c p) (p' : Prog) :
    Progress (s.setProg r n p') r n c p' := by
  obtain ⟨d, found, state, -⟩ := h.found
  unfold Progress State.setProg
  rw [State.editCmd_cmds, found, ← state]
  rfl

theorem Progress.answers (h : Progress s r n c p) (v : Word) : Answers (s.finish r n v) r n v := by
  obtain ⟨d, found, -, -⟩ := h.found
  unfold Answers State.finish
  rw [State.editCmd_cmds, found]
  rfl

end

/-! ## Blocks at homes of the stacks, R167, R369 -/

section
variable {s t : State} {r n key ea a : Nat} {c : Command}

/-- Two states differ in their translation caches alone. -/
def State.Refilled (s t : State) : Prop := ∃ l, t = { s with tlb := l }

theorem State.Refilled.refl (s : State) : s.Refilled s := ⟨s.tlb, rfl⟩

theorem State.Refilled.keepEntry (h : s.Refilled t) (e : TlbEntry) : s.Refilled (t.keepEntry e) := by
  obtain ⟨l, rfl⟩ := h
  exact ⟨_, rfl⟩

theorem State.Refilled.ite {b : Prop} {d : Decidable b} {u : State} (ht : s.Refilled t)
    (hu : s.Refilled u) : s.Refilled (if b then t else u) :=
  iteInduction (fun _ => ht) fun _ => hu

/-- A use of an address fills translation caches and changes nothing else. -/
theorem State.engineFill_refilled (s : State) (r key ea : Nat) :
    s.Refilled (s.engineFill r key ea) := by
  have same := State.Refilled.refl s
  unfold State.engineFill
  dsimp only
  cases s.untabled r ea with
  | some _ => exact same
  | none =>
    cases s.engineHit r key (ea % 2 ^ 55) with
    | some _ =>
      dsimp only
      split
      · exact .ite same (same.keepEntry _)
      · exact same
    | none =>
      cases s.walk (s.run r).ctx (ea % 2 ^ 55) with
      | ok l =>
        have filled := same.keepEntry ⟨s.cacheOf r key, (s.run r).ctx, l.va, l.size, l.pa, l.rd, l.wr⟩
        dsimp only
        split
        · exact .ite filled (filled.keepEntry _)
        · exact filled
      | error _ =>
        dsimp only
        split
        · exact .ite same (same.keepEntry _)
        · exact same

theorem State.Refilled.runs (h : s.Refilled t) : t.runs = s.runs := by
  obtain ⟨l, rfl⟩ := h
  rfl

theorem State.Refilled.mem (h : s.Refilled t) : t.mem = s.mem := by
  obtain ⟨l, rfl⟩ := h
  rfl

theorem State.tileFor_of_noTile (h : isTileHome a = false) (s : State) (r n : Nat) :
    s.tileFor r n a = some s := by
  simp [State.tileFor, atTile, h]

theorem State.homeOpen_of_noTile (h : isTileHome a = false) (s : State) (rank : Nat) :
    s.homeOpen a rank = true := by
  simp [State.homeOpen, atTile, h]

theorem State.serveHome_of_noTile (h : isTileHome a = false) (s : State) (rank : Nat) :
    s.serveHome a rank = s := by
  simp [State.serveHome, atTile, h]

theorem Got.andThen_got {α : Type} (y : α) (s t : State) (k : α → State → State) :
    (Got.got y s).andThen t k = k y s := rfl

theorem ReadHome.idle (h : ReadHome s r key ea a) : ReadHome s.idle r key ea a :=
  ⟨h.aligned, h.home, h.noTile, h.clean⟩

theorem WriteHome.idle (h : WriteHome s r key ea a) : WriteHome s.idle r key ea a :=
  ⟨h.aligned, h.home, h.noTile, h.free, h.own⟩

theorem State.engineRead_of_readHome (h : ReadHome s r c.elem ea a) (reads : c.prog.skip = none)
    (n fmt : Nat) : s.engineRead r n c ea fmt = .got (s.blkAt a) (s.engineFill r c.elem ea) := by
  obtain ⟨l, fill⟩ := State.engineFill_refilled s r c.elem ea
  have clean : State.poisoned { s with tlb := l } a = false := h.clean
  unfold State.engineRead
  simp only [reads, h.home, h.aligned.1, State.tileFor_of_noTile h.noTile,
    State.homeOpen_of_noTile h.noTile, State.serveHome_of_noTile h.noTile, fill, clean]
  rfl

theorem blockAt_of_aligned (h : a % 64 = 0) : blockAt a = a := by
  unfold blockAt
  omega

theorem fillTo_length {α : Type} (n : Nat) (x : α) (xs : List α) : (fillTo n x xs).length = n := by
  simp [fillTo]
  omega

theorem State.writeBlock_wrote (h : a % 64 = 0) (canonical : Memory.wf s.mem = true)
    (fmt scale : Nat) (data : List Byte) : Wrote s (s.writeBlock a fmt scale data) a data := by
  have whole := fillTo_length 64 (0 : Byte) data
  unfold Wrote State.block State.bytes SameOutsideRange
  rw [State.writeBlock_mem, blockAt_of_aligned h]
  have read := memRead_memWrite canonical a (fillTo 64 0 data)
  rw [whole] at read
  exact ⟨read, fun b away => memGet_memWrite_of_outside canonical (by rwa [whole])⟩

theorem Wrote.of_mem {u : State} {data : List Byte} (h : Wrote s t a data) (same : u.mem = t.mem) :
    Wrote s u a data := by
  unfold Wrote State.block State.bytes at *
  rwa [same]

/-- An engine's write of a home it may write changes one block, and no launch. -/
theorem State.engineWrite_of_writeHome (h : WriteHome s r c.elem ea a) (reads : c.prog.skip = none)
    (n : Nat) (b : Blk) : ∃ t : State, s.engineWrite r n c ea b = .got () t ∧ t.runs = s.runs ∧
      (Memory.wf s.mem = true → Wrote s t a b.data) := by
  obtain ⟨l, fill⟩ := State.engineFill_refilled s r c.elem ea
  let u : State := { s with tlb := l }
  have own : u.outsideCopy r a needWrite = false := h.own
  have free : u.blockBusy a = false := h.free
  let v := if (u.run r).inScratch ea then u else u.taint r c.msg.colour
  have runs : v.runs = s.runs := by
    dsimp only [v]
    split_ifs
    · rfl
    · exact State.taint_runs ..
  have mem : v.mem = s.mem := by
    dsimp only [v]
    split_ifs
    · rfl
    · exact (State.taint_same ..).mem
  refine ⟨(v.writeBlock a b.fmt b.scale b.data).wake a, ?_, runs, fun canonical => ?_⟩
  · unfold State.engineWrite
    simp only [reads, h.home, h.aligned.1, State.tileFor_of_noTile h.noTile,
      State.homeOpen_of_noTile h.noTile, State.serveHome_of_noTile h.noTile, fill]
    rw [if_neg (by simp), if_neg (by simp), if_neg (by simp), if_neg (ne_true_of_eq_false own),
      if_neg (ne_true_of_eq_false free)]
  · have wrote := State.writeBlock_wrote (s := v) h.aligned.2 (mem ▸ canonical) b.fmt b.scale b.data
    unfold Wrote at *
    rw [mem] at wrote
    exact wrote

end

end Sys2Proof.Machine

/-! # Frames

The cells of a tile under the changes of a row, and the steps of the frame commands (R54 to R61, R170
to R176). -/

namespace Sys2Proof.Machine

/-! ## Cells, R170 -/

section
variable {f g : Frame} {t : Bool} {m n : Nat}

/-- A tile's cell after a change of the cell at a place. -/
theorem find_putCell {cs : Tbl Cell} (h : (cs.map Prod.fst).Pairwise (· < ·)) (k j : Nat) (c : Cell) :
    ((putCell cs k c).find j).getD Cell.zero = if j = k then c else (cs.find j).getD Cell.zero := by
  unfold putCell
  split_ifs with cleared same same
  · subst same
    rw [Tbl.find_del_self (h.imp Nat.ne_of_lt), cleared]
    rfl
  · rw [Tbl.find_del_ne _ same]
  · subst same
    rw [Tbl.find_put_self]
    rfl
  · rw [Tbl.find_put_ne _ _ same]

theorem sorted_putCell {cs : Tbl Cell} (h : (cs.map Prod.fst).Pairwise (· < ·)) (k : Nat) (c : Cell) :
    ((putCell cs k c).map Prod.fst).Pairwise (· < ·) := by
  unfold putCell
  split_ifs
  · exact Tbl.sorted_del h k
  · exact Tbl.sorted_put h k c

theorem Frame.Sorted.setCell (h : f.Sorted) (t : Bool) (m n : Nat) (c : Cell) :
    (f.setCell t m n c).Sorted := by
  cases t
  · exact ⟨sorted_putCell h.first _ c, h.second⟩
  · exact ⟨h.first, sorted_putCell h.second _ c⟩

theorem Frame.cell_setCell (h : f.Sorted) (t : Bool) (m n i j : Nat) (c : Cell) :
    (f.setCell t m n c).cell t i j = if cellIx i j = cellIx m n then c else f.cell t i j := by
  cases t
  · exact find_putCell h.first _ _ c
  · exact find_putCell h.second _ _ c

@[simp] theorem Frame.cell_setCell_other (f : Frame) (t : Bool) (m n i j : Nat) (c : Cell) :
    (f.setCell t m n c).cell (!t) i j = f.cell (!t) i j := by
  cases t <;> rfl

@[simp] theorem Frame.eacc_setCell (f : Frame) (t : Bool) (m n : Nat) (c : Cell) (u : Bool) :
    (f.setCell t m n c).eacc u = f.eacc u := by
  cases t <;> rfl

@[simp] theorem Frame.bbuf_setCell (f : Frame) (t : Bool) (m n : Nat) (c : Cell) :
    (f.setCell t m n c).bbuf = f.bbuf := by
  cases t <;> rfl

theorem cellIx_eq {i j m n : Nat} (hj : j < 32) (hn : n < 32) :
    cellIx i j = cellIx m n ↔ i = m ∧ j = n := by
  unfold cellIx
  omega

/-- A frame `g` differs from `f` in the cells of some columns of one row of one tile, which hold `new`. -/
structure Frame.RowSet (f g : Frame) (t : Bool) (m : Nat) (cols : List Nat) (new : Nat → Cell) :
    Prop where
  set : ∀ j ∈ cols, g.cell t m j = new j
  kept : ∀ i j, j < 32 → i ≠ m ∨ j ∉ cols → g.cell t i j = f.cell t i j
  other : ∀ i j, g.cell (!t) i j = f.cell (!t) i j

theorem Frame.RowSet.nil (f : Frame) (t : Bool) (m : Nat) (new : Nat → Cell) :
    f.RowSet f t m [] new := ⟨by simp, fun _ _ _ _ => rfl, fun _ _ => rfl⟩

/-- A later cell of a row does not see an earlier one being set. -/
theorem Frame.cell_setCell_ne (sorted : f.Sorted) {j : Nat} (hj : j < 32) (hn : n < 32) (h : j ≠ n)
    (c : Cell) : (f.setCell t m n c).cell t m j = f.cell t m j := by
  rw [Frame.cell_setCell sorted, if_neg]
  rw [cellIx_eq hj hn]
  exact fun e => h e.2

/-- One cell is set, then those of other columns. -/
theorem Frame.RowSet.cons (sorted : f.Sorted) {cols : List Nat} {new : Nat → Cell}
    (h : (f.setCell t m n (new n)).RowSet g t m cols new) (fresh : n ∉ cols) (hn : n < 32) :
    f.RowSet g t m (n :: cols) new where
  set j hj := by
    rcases List.mem_cons.1 hj with rfl | hj
    · rw [h.kept m j hn (.inr fresh), Frame.cell_setCell sorted, if_pos rfl]
    · exact h.set j hj
  kept i j hj away := by
    have apart : ¬ cellIx i j = cellIx m n := by
      rw [cellIx_eq hj hn]
      rintro ⟨rfl, rfl⟩
      simp at away
    rw [h.kept i j hj (away.imp_right fun out mem => out (List.mem_cons_of_mem _ mem)),
      Frame.cell_setCell sorted, if_neg apart]
  other i j := by rw [h.other, Frame.cell_setCell_other]

/-- MLDC's elements are added to the cells of a row from a column on (R174). -/
theorem Frame.addRow_rowSet (sorted : f.Sorted) {vs : List FVal} (fits : n + vs.length ≤ 32)
    {new : Nat → Cell} (sums : ∀ k v, vs[k]? = some v →
      new (n + k) = (addTerm (f.cell t m (n + k)) (f.eacc t) v).1) :
    f.RowSet (f.addRow t m n vs).1 t m (List.range' n vs.length) new := by
  induction vs generalizing f n with
  | nil => exact .nil f t m new
  | cons v vs ih =>
    rw [List.length_cons] at fits
    have first : new n = (addTerm (f.cell t m n) (f.eacc t) v).1 := sums 0 v rfl
    refine .cons sorted ?_ (by simp) (by omega)
    rw [first]
    refine ih (sorted.setCell ..) (by omega) fun k w found => ?_
    have later := sums (k + 1) w (by simpa using found)
    rw [show n + (k + 1) = n + 1 + k by omega] at later
    obtain ⟨inside, -⟩ := List.getElem?_eq_some_iff.1 found
    rw [Frame.cell_setCell_ne sorted (by omega) (by omega) (by omega), Frame.eacc_setCell, later]

/-- The cell of a row after MLDC has added its element of `vs`, which begin at column `n`. -/
def Frame.rowSum (f : Frame) (t : Bool) (m n : Nat) (vs : List FVal) (q : Nat) : Cell :=
  (addTerm (f.cell t m q) (f.eacc t) ((vs[q - n]?).getD default)).1

theorem Frame.rowSum_at {vs : List FVal} {k : Nat} {v : FVal} (found : vs[k]? = some v) :
    f.rowSum t m n vs (n + k) = (addTerm (f.cell t m (n + k)) (f.eacc t) v).1 := by
  unfold Frame.rowSum
  rw [Nat.add_sub_cancel_left, found]
  rfl

/-- The operand of a column of the B buffer (R172). -/
def Frame.column (f : Frame) (n : Nat) : Operand :=
  operandOf ((f.bbuf.find n).getD (Blk.zero 0 0)).fmt ((f.bbuf.find n).getD (Blk.zero 0 0)).scale
    ((f.bbuf.find n).getD (Blk.zero 0 0)).data

/-- A row beat adds its aligned partial with each column to the cell of the column (R58, R175). -/
theorem Frame.rowStep_rowSet (sorted : f.Sorted) {x3 : Bool} {a : Operand} {ns : List Nat}
    (distinct : ns.Nodup) (fits : ∀ j ∈ ns, j < 32) {new : Nat → Cell}
    (partials : ∀ j ∈ ns, new j = (stepCell x3 (f.cell t m j) (f.eacc t) a (f.column j)).1) :
    f.RowSet (f.rowStep x3 t m a ns).1 t m ns new := by
  induction ns generalizing f with
  | nil => exact .nil f t m new
  | cons n ns ih =>
    obtain ⟨fresh, distinct⟩ := List.nodup_cons.1 distinct
    have hn := fits n (List.mem_cons_self ..)
    refine .cons sorted ?_ fresh hn
    rw [partials n (List.mem_cons_self ..)]
    refine ih (sorted.setCell ..) distinct (fun j hj => fits j (List.mem_cons_of_mem _ hj))
      fun j hj => ?_
    have hj' := fits j (List.mem_cons_of_mem _ hj)
    have apart : j ≠ n := fun e => fresh (e ▸ hj)
    rw [Frame.cell_setCell_ne sorted hj' hn apart, Frame.eacc_setCell,
      partials j (List.mem_cons_of_mem _ hj)]
    simp only [Frame.column, Frame.bbuf_setCell]

end

/-! ## Elements of a block, R43, R174 -/

theorem chunks_length {α : Type} {n fuel k : Nat} (hn : 0 < n) (enough : k ≤ fuel) {xs : List α}
    (whole : xs.length = n * k) : (chunks n fuel xs).length = k := by
  induction k generalizing fuel xs with
  | zero =>
    obtain rfl := List.length_eq_zero_iff.1 whole
    cases fuel <;> rfl
  | succ k ih =>
    obtain ⟨fuel, rfl⟩ := Nat.exists_eq_succ_of_ne_zero (by omega : fuel ≠ 0)
    have some_ : xs.isEmpty = false := by
      rw [List.isEmpty_eq_false_iff, ← List.length_pos_iff, whole]
      positivity
    unfold chunks
    rw [some_, if_neg Bool.false_ne_true, List.length_cons, ih (by omega)]
    rw [List.length_drop, whole, Nat.mul_succ, Nat.add_sub_cancel]

/-- The blocks of a row of MLDC hold its 32 elements. -/
theorem rowBlocks_mul_length {fmt : Nat} (row : 0 < rowBlocks fmt) {data : List Byte}
    (whole : data.length = 64) (scale : Nat) :
    rowBlocks fmt * (blockVals fmt scale data).length = 32 := by
  have elems {n k : Nat} (hn : 0 < n) (hk : k ≤ 64) (fill : n * k = 64) :
      ((chunks n 64 data).map ofBytes).length = k := by
    rw [List.length_map, chunks_length hn hk (whole.trans fill.symm)]
  unfold blockVals
  rw [List.length_map]
  unfold rowBlocks at *
  split at row
  · exact congrArg (4 * ·) (elems (n := 8) (k := 8) (by omega) (by omega) rfl)
  · exact congrArg (2 * ·) (elems (n := 4) (k := 16) (by omega) (by omega) rfl)
  · exact congrArg (1 * ·) (elems (n := 2) (k := 32) (by omega) (by omega) rfl)
  · exact congrArg (1 * ·) (elems (n := 2) (k := 32) (by omega) (by omega) rfl)
  · cases row

theorem State.block_length (s : State) (a : Nat) : (s.block a).length = 64 := memRead_length ..

theorem Side.fmt_descr {b : Side} (h : b.fmt < 32) : descrFmt b.descr = b.fmt := by
  unfold descrFmt Side.descr
  split_ifs <;> omega

theorem State.blkAt_fmt {s : State} {a : Nat} (h : (s.sideOf a).fmt < 32) :
    (s.blkAt a).fmt = (s.sideOf a).fmt := Side.fmt_descr h

theorem wordI_natCast (n : Nat) : wordI n = BitVec.ofNat 64 n := BitVec.ofInt_natCast ..

/-! ## MLDB and MLDC, R174 -/

section
variable {s : State} {r n a ea : Nat} {x : Run} {c : Command} {p : Prog}

theorem exec_mldb (h : AtEngine s r n x c) (k : Cmd) :
    exec (.mldb k) s = .next (s.idle.loadB r n c) := by
  show execMldb k s = _
  exact onEngine_of_atEngine h ..

theorem exec_mldc (h : AtEngine s r n x c) (k : Cmd) (tb : Bool) :
    exec (.mldc k tb) s = .next (s.idle.loadC r n c tb) := by
  show execMldc k tb s = _
  exact onEngine_of_atEngine h ..

theorem State.loadB_end (done : 32 ≤ c.prog.i) : s.loadB r n c = s.finish r n 0 := if_pos done

theorem State.loadC_end (done : 32 ≤ c.prog.i) (tb : Bool) : s.loadC r n c tb = s.finish r n 0 :=
  if_pos done

theorem State.loadB_of_readHome (reads : c.prog.skip = none) (more : c.prog.i < 32)
    (place : ea = (c.msg.operand +
      BitVec.ofNat 64 (c.prog.i * (s.frame r c.elem).mbpitch.toNat)).toNat)
    (home : ReadHome s r c.elem ea a) (takes : formatClass (s.sideOf a).fmt ≠ 0)
    (known : (s.sideOf a).fmt < 32) (alike : c.prog.i = 0 ∨
      formatClass (s.sideOf a).fmt = formatClass (c.prog.nums.head?.getD 0x0B)) :
    s.loadB r n c = ((s.engineFill r c.elem ea).editFrame r c.elem fun f =>
      { f with bbuf := f.bbuf.put c.prog.i (s.blkAt a) }).setProg r n { c.prog with
        i := c.prog.i + 1
        nums := if c.prog.i = 0 then [(s.blkAt a).fmt] else c.prog.nums } := by
  have meets : (Decidable.decide (formatClass (s.blkAt a).fmt = 0) ||
      Decidable.decide (c.prog.i > 0) && formatClass (s.blkAt a).fmt !=
        formatClass (c.prog.nums.head?.getD 0x0B)) = false := by
    rw [State.blkAt_fmt known]
    rcases alike with first | same
    · simp [takes, first]
    · simp [takes, ← same]
  unfold State.loadB
  dsimp only
  rw [← Int.natCast_mul, wordI_natCast, if_neg (Nat.not_le.2 more), ← place,
    State.engineRead_of_readHome home reads, Got.andThen_got, if_neg (ne_true_of_eq_false meets)]

theorem State.loadC_of_readHome (reads : c.prog.skip = none) (more : c.prog.i < 32)
    (row : c.prog.j < rowBlocks (s.sideOf a).fmt) (known : (s.sideOf a).fmt < 32)
    (alike : c.prog.j = 0 ∨ (s.sideOf a).fmt = c.prog.nums.head?.getD 0x0B)
    (place : ea = (c.msg.operand + BitVec.ofNat 64
      (c.prog.i * (s.frame r c.elem).mcpitch.toNat + 64 * c.prog.j)).toNat)
    (home : ReadHome s r c.elem ea a) {vs : List FVal}
    (vals : vs = blockVals (s.sideOf a).fmt (s.blkAt a).scale (s.block a)) (tb : Bool) :
    ∃ (p : Prog) (fl : Nat), s.loadC r n c tb =
      (((s.engineFill r c.elem ea).editFrame r c.elem fun _ =>
        ((s.frame r c.elem).addRow tb c.prog.i (c.prog.j * vs.length) vs).1).cmdFlags r n
          fl).setProg r n p := by
  have meets : (Decidable.decide (rowBlocks (s.blkAt a).fmt = 0) ||
      Decidable.decide (c.prog.j > 0) &&
        (s.blkAt a).fmt != c.prog.nums.head?.getD 0x0B) = false := by
    rw [State.blkAt_fmt known]
    have some_ : rowBlocks (s.sideOf a).fmt ≠ 0 := by omega
    rcases alike with first | same
    · simp [some_, first]
    · simp [some_, ← same]
  have same : (s.engineFill r c.elem ea).frame r c.elem = s.frame r c.elem :=
    State.frame_of_runs (State.engineFill_refilled s r c.elem ea).runs ..
  have vals' : blockVals (s.blkAt a).fmt (s.blkAt a).scale (s.blkAt a).data = vs := by
    rw [State.blkAt_fmt known, vals]
    rfl
  have offset : wordI ((c.prog.i : Int) * ((s.frame r c.elem).mcpitch.toNat : Int) +
      64 * (c.prog.j : Int)) = BitVec.ofNat 64
        (c.prog.i * (s.frame r c.elem).mcpitch.toNat + 64 * c.prog.j) := by
    rw [← wordI_natCast]
    push_cast
    rfl
  unfold State.loadC
  dsimp only
  rw [offset, if_neg (Nat.not_le.2 more), ← place, State.engineRead_of_readHome home reads,
    Got.andThen_got, if_neg (ne_true_of_eq_false meets), same, vals']
  split_ifs
  · exact ⟨_, _, rfl⟩
  · exact ⟨_, _, rfl⟩

theorem loads_end (h : Working s r n x c) (done : 32 ≤ c.prog.i) {i : Instr} {k : Cmd} {tb : Bool}
    (load : i ∈ [Instr.mldb k, .mldc k tb]) : ∃ t : State, exec i s = .next t ∧ Answers t r n 0 ∧
      t.frame r c.elem = s.frame r c.elem ∧ t.mem = s.mem := by
  have ends : exec i s = .next (s.idle.finish r n 0) := by
    rw [List.mem_pair] at load
    rcases load with rfl | rfl
    · rw [exec_mldb h.engine, State.loadB_end done]
    · rw [exec_mldc h.engine, State.loadC_end done]
  exact ⟨_, ends, h.engine.progress.answers 0, State.finish_frame .., rfl⟩

/-- MLDB keeps the block of column i in the B buffer. -/
theorem mldb_loads (h : Working s r n x c) (more : c.prog.i < 32)
    (place : ea = (c.msg.operand +
      BitVec.ofNat 64 (c.prog.i * (s.frame r c.elem).mbpitch.toNat)).toNat)
    (home : ReadHome s r c.elem ea a) (takes : formatClass (s.sideOf a).fmt ≠ 0)
    (known : (s.sideOf a).fmt < 32) (alike : c.prog.i = 0 ∨
      formatClass (s.sideOf a).fmt = formatClass (c.prog.nums.head?.getD 0x0B)) (k : Cmd) :
    ∃ t : State, exec (.mldb k) s = .next t ∧ t.mem = s.mem ∧
      t.frame r c.elem = { s.frame r c.elem with
        bbuf := (s.frame r c.elem).bbuf.put c.prog.i (s.blkAt a) } ∧
      ((t.run r).cmds.find n).map (fun d => (d.state, d.prog.i)) = some (c.state, c.prog.i + 1) := by
  have fill := State.engineFill_refilled s.idle r c.elem ea
  rw [exec_mldb h.engine,
    State.loadB_of_readHome (s := s.idle) h.noSkip more place home.idle takes known alike]
  refine ⟨_, rfl, fill.mem, ?_,
    (((h.engine.progress.of_runs fill.runs).editFrame ..).setProg _).view Prog.i⟩
  have same := State.frame_of_runs fill.runs r c.elem
  rw [State.setProg_frame, State.editFrame_frame (x := x) (fill.runs ▸ h.engine.run), same]
  rfl

/-- MLDC adds the elements of block j of row i to the cells of the row. -/
theorem mldc_adds (h : Working s r n x c) (sorted : (s.frame r c.elem).Sorted)
    (more : c.prog.i < 32) (row : c.prog.j < rowBlocks (s.sideOf a).fmt)
    (known : (s.sideOf a).fmt < 32)
    (alike : c.prog.j = 0 ∨ (s.sideOf a).fmt = c.prog.nums.head?.getD 0x0B)
    (place : ea = (c.msg.operand + BitVec.ofNat 64
      (c.prog.i * (s.frame r c.elem).mcpitch.toNat + 64 * c.prog.j)).toNat)
    (home : ReadHome s r c.elem ea a) {vs : List FVal}
    (vals : vs = blockVals (s.sideOf a).fmt (s.blkAt a).scale (s.block a)) (k : Cmd) (tb : Bool) :
    ∃ t : State, exec (.mldc k tb) s = .next t ∧ t.mem = s.mem ∧
      (∀ m v, vs[m]? = some v → (t.frame r c.elem).cell tb c.prog.i (c.prog.j * vs.length + m) =
        (addTerm ((s.frame r c.elem).cell tb c.prog.i (c.prog.j * vs.length + m))
          ((s.frame r c.elem).eacc tb) v).1) ∧
      (∀ i m, m < 32 → i ≠ c.prog.i → (t.frame r c.elem).cell tb i m =
        (s.frame r c.elem).cell tb i m) ∧
      (∀ i m, (t.frame r c.elem).cell (!tb) i m = (s.frame r c.elem).cell (!tb) i m) := by
  have fill := State.engineFill_refilled s.idle r c.elem ea
  obtain ⟨p, fl, step⟩ := State.loadC_of_readHome (s := s.idle) (n := n) h.noSkip more row known
    alike place home.idle vals tb
  have fits : c.prog.j * vs.length + vs.length ≤ 32 := by
    have all := rowBlocks_mul_length (Nat.zero_lt_of_lt row) (s.block_length a) (s.blkAt a).scale
    rw [← vals] at all
    rw [← Nat.succ_mul, ← all]
    exact Nat.mul_le_mul_right _ row
  have set := Frame.addRow_rowSet (t := tb) (m := c.prog.i) sorted fits fun _ _ => Frame.rowSum_at
  rw [exec_mldc h.engine, step]
  refine ⟨_, rfl, (State.cmdFlags_same ..).mem.trans fill.mem, ?_⟩
  rw [State.setProg_frame, State.cmdFlags_frame,
    State.editFrame_frame (x := x) (fill.runs ▸ h.engine.run)]
  refine ⟨fun m v found => ?_, fun i m hm away => set.kept i m hm (.inl away), set.other⟩
  obtain ⟨inside, -⟩ := List.getElem?_eq_some_iff.1 found
  rw [← Frame.rowSum_at found]
  exact set.set _ (List.mem_range'_1.2 ⟨by omega, by omega⟩)

end

/-! ## Products, R58, R172, R175 -/

section
variable {s : State} {r n : Nat} {x : Run} {c : Command}

theorem nbit_toNat (w : Word) (k : Nat) : nbit w.toNat k = w.getLsbD k := rfl

/-- MMA, MMAX3 and an MMAS whose K-step MBMAP does not skip do the next row of their product. -/
theorem exec_multiply (h : AtEngine s r n x c) {i : Instr} {k : Cmd} {tb x3 : Bool}
    (product : (i = .mma k tb ∧ x3 = false) ∨ (i = .mmax3 k tb ∧ x3 = true) ∨
      (i = .mmas k tb ∧ x3 = false ∧ (c.prog.i ≠ 0 ∨ (s.frame r c.elem).mbmap.getLsbD
        (c.msg.operand.extractLsb' 6 6).toNat = true))) :
    exec i s = .next (s.idle.multiply r n c x3 tb) := by
  rcases product with ⟨rfl, rfl⟩ | ⟨rfl, rfl⟩ | ⟨rfl, rfl, visits⟩
  · show execMma k tb s = _
    exact onEngine_of_atEngine h ..
  · show execMmax3 k tb s = _
    exact onEngine_of_atEngine h ..
  · show execMmas k tb s = _
    unfold execMmas
    rw [onEngine_of_atEngine h, bits_eq, nbit_toNat, State.idle_frame, if_neg]
    rcases visits with later | marked
    · simp [later]
    · rw [marked]
      simp

theorem exec_mmas_skips (h : AtEngine s r n x c) (first : c.prog.i = 0)
    (skips : (s.frame r c.elem).mbmap.getLsbD (c.msg.operand.extractLsb' 6 6).toNat = false)
    (k : Cmd) (tb : Bool) : exec (.mmas k tb) s = .next (s.idle.finish r n 0) := by
  show execMmas k tb s = _
  unfold execMmas
  rw [onEngine_of_atEngine h, bits_eq, nbit_toNat, State.idle_frame, skips, first]
  rfl

/-- The count of rows of a product, in its operand (R175). -/
def Command.rows (c : Command) : Nat := (c.msg.operand.extractLsb' 0 6).toNat

theorem Command.bits_rows (c : Command) : bits c.msg.operand 0 6 = c.rows := bits_eq ..

theorem State.multiply_illegal (bad : c.rows = 0 ∨ 32 < c.rows) (x3 tb : Bool) :
    s.multiply r n c x3 tb = s.engineIllegal r n c := by
  unfold State.multiply
  dsimp only
  rw [Command.bits_rows]
  exact if_pos (by simpa only [Bool.or_eq_true, decide_eq_true_eq] using bad)

theorem State.multiply_end (some_ : 0 < c.rows) (few : c.rows ≤ 32) (done : c.rows ≤ c.prog.i)
    (x3 tb : Bool) : s.multiply r n c x3 tb =
      s.finish r n ((c.msg.operand.extractLsb' 0 6).setWidth 64) := by
  have fine : ¬ (Decidable.decide (c.rows = 0) || Decidable.decide (c.rows > 32)) = true := by
    simp only [Bool.or_eq_true, decide_eq_true_eq]
    omega
  unfold State.multiply
  dsimp only
  rw [Command.bits_rows, if_neg fine, if_pos done]
  exact congrArg _ (BitVec.ofNat_toNat ..)

/-- A row's next beat, of an input of a launch that is not cancelled. -/
theorem State.multiply_beat (live : ((s.run r).part (partOf c.elem)).cancelled = false)
    (some_ : 0 < c.rows) (few : c.rows ≤ 32) (more : c.prog.i < c.rows) {p : Nat} {b : Beat}
    (port : (s.aInputs r c.elem)[c.prog.i % (s.aInputs r c.elem).length]? = some p)
    (beat : s.inBeat r c.elem p = some b) (x3 tb : Bool) : s.multiply r n c x3 tb =
      if !b.isData then s.takeBeat r c.elem p
      else if !(s.frame r c.elem).pairsWith x3 b.fmt then s.beatFault r n c p b
        (mkDescr (((s.frame r c.elem).bbuf.find 0).getD (Blk.zero 0 0)).fmt 0 true)
      else (((s.takeBeat r c.elem p).editFrame r c.elem fun _ =>
        ((s.frame r c.elem).rowStep x3 tb c.prog.i (operandOf b.fmt b.scale b.data)
          (upTo 32)).1).cmdFlags r n ((s.frame r c.elem).rowStep x3 tb c.prog.i
            (operandOf b.fmt b.scale b.data) (upTo 32)).2).setProg r n
              { c.prog with i := c.prog.i + 1 } := by
  have inputs : max (s.aInputs r c.elem).length 1 = (s.aInputs r c.elem).length := by
    obtain ⟨inside, -⟩ := List.getElem?_eq_some_iff.1 port
    omega
  have fed : s.starved r c.elem p = false := by
    unfold State.starved
    dsimp only
    rw [live]
    rfl
  have fine : ¬ (Decidable.decide (c.rows = 0) || Decidable.decide (c.rows > 32)) = true := by
    simp only [Bool.or_eq_true, decide_eq_true_eq]
    omega
  unfold State.multiply
  dsimp only
  rw [Command.bits_rows, if_neg fine, if_neg (Nat.not_le.2 more), inputs, port, Option.getD_some, fed,
    if_neg Bool.false_ne_true, beat]

section
variable {i : Instr} {x3 tb : Bool} {p : Nat} {b : Beat} (h : Working s r n x c)
  (step : exec i s = .next (s.idle.multiply r n c x3 tb)) (some_ : 0 < c.rows) (few : c.rows ≤ 32)
  (more : c.prog.i < c.rows)
  (port : (s.aInputs r c.elem)[c.prog.i % (s.aInputs r c.elem).length]? = some p)
  (beat : s.inBeat r c.elem p = some b)
include h step some_ few more port beat

theorem exec_multiply_beat : exec i s = .next (
    if !b.isData then s.idle.takeBeat r c.elem p
    else if !(s.frame r c.elem).pairsWith x3 b.fmt then s.idle.beatFault r n c p b
      (mkDescr (((s.frame r c.elem).bbuf.find 0).getD (Blk.zero 0 0)).fmt 0 true)
    else (((s.idle.takeBeat r c.elem p).editFrame r c.elem fun _ =>
      ((s.frame r c.elem).rowStep x3 tb c.prog.i (operandOf b.fmt b.scale b.data)
        (upTo 32)).1).cmdFlags r n ((s.frame r c.elem).rowStep x3 tb c.prog.i
          (operandOf b.fmt b.scale b.data) (upTo 32)).2).setProg r n
            { c.prog with i := c.prog.i + 1 }) := by
  have live : ((s.idle.run r).part (partOf c.elem)).cancelled = false := by
    rw [State.run_idle, State.run_of_find h.engine.run, h.live]
  rw [step, State.multiply_beat live some_ few more port beat]
  rfl

/-- A control beat is taken and changes nothing of the product. -/
theorem multiply_control (control : b.ctrl ≠ 0) : ∃ t : State, exec i s = .next t ∧
    Moves r c.elem [p] [] s t ∧ t.frame r c.elem = s.frame r c.elem ∧ Progress t r n c c.prog := by
  refine ⟨s.idle.takeBeat r c.elem p, ?_, ?_, State.takeBeat_frame .., h.engine.progress.takeBeat ..⟩
  · rw [exec_multiply_beat h step some_ few more port beat, if_pos (by simp [Beat.isData, control])]
  · exact (State.takeBeat_moves (s := s.idle) h.engine.run h.strung c.elem p).of_strands rfl rfl

theorem multiply_mismatch (data : b.ctrl = 0)
    (mismatch : (s.frame r c.elem).pairsWith x3 b.fmt = false) :
    ∃ d, exec i s = .next (s.idle.beatFault r n c p b d) := by
  rw [exec_multiply_beat h step some_ few more port beat, if_neg (by simp [Beat.isData, data]),
    if_pos (by simp [mismatch])]
  exact ⟨_, rfl⟩

/-- A data beat's partials are added in the 32 cells of its row and in no other cell. -/
theorem multiply_adds (sorted : (s.frame r c.elem).Sorted) (data : b.ctrl = 0)
    (suits : (s.frame r c.elem).pairsWith x3 b.fmt = true) :
    ∃ t : State, exec i s = .next t ∧ Moves r c.elem [p] [] s t ∧ t.mem = s.mem ∧
      Progress t r n c { c.prog with i := c.prog.i + 1 } ∧
      (s.frame r c.elem).RowSet (t.frame r c.elem) tb c.prog.i (upTo 32) fun m =>
        (stepCell x3 ((s.frame r c.elem).cell tb c.prog.i m) ((s.frame r c.elem).eacc tb)
          (operandOf b.fmt b.scale b.data) ((s.frame r c.elem).column m)).1 := by
  obtain ⟨y, hr⟩ := State.find_takeBeat (s := s.idle) h.engine.run c.elem p
  rw [exec_multiply_beat h step some_ few more port beat, if_neg (by simp [Beat.isData, data]),
    if_neg (by simp [suits])]
  refine ⟨_, rfl, ?_, ?_, (((h.engine.progress.takeBeat ..).editFrame ..).cmdFlags _).setProg _, ?_⟩
  · refine (State.takeBeat_moves (s := s.idle) h.engine.run h.strung c.elem p).of_strands rfl ?_
    rw [State.setProg_strands, State.cmdFlags_strands, State.editFrame_strands]
  · exact (State.cmdFlags_same ..).mem.trans (State.takeBeat_same ..).mem
  · rw [State.setProg_frame, State.cmdFlags_frame, State.editFrame_frame hr]
    refine Frame.rowStep_rowSet sorted ?_ ?_ fun _ _ => rfl
    · rw [upTo_eq]
      exact List.nodup_range
    · rw [upTo_eq]
      exact fun j hj => List.mem_range.1 hj

end

end

/-! ## MOUT, R176 -/

section
variable {s : State} {r n a : Nat} {x : Run} {c : Command} {tb nanov : Bool} {rm : RMode}
  {rows blocks : Nat}

theorem exec_mout (h : AtEngine s r n x c) (k : Cmd) (tb : Bool) (rm : RMode) (fmt : BitVec 5)
    (nanov : Bool) : exec (.mout k tb rm fmt nanov) s =
      .next (s.idle.outFrame r n c tb rm fmt.toNat nanov) := by
  show execMout k tb rm fmt nanov s = _
  exact onEngine_of_atEngine h ..

theorem State.outFrame_end {fmt : Nat} (shape : outShape fmt = (rows, blocks))
    (done : 32 / rows ≤ c.prog.i) :
    s.outFrame r n c tb rm fmt nanov = s.finish r n (BitVec.ofNat 64 c.prog.n) := by
  unfold State.outFrame
  simp only [shape]
  exact if_pos done

/-- The progress of MOUT after a block of a row of `blocks` blocks. -/
def Prog.afterBlock (p : Prog) (blocks : Nat) : Prog :=
  if p.j + 1 = blocks then { p with i := p.i + 1, j := 0, n := p.n + 1 }
  else { p with j := p.j + 1, n := p.n + 1 }

theorem Prog.afterBlock_n (p : Prog) (blocks : Nat) : (p.afterBlock blocks).n = p.n + 1 := by
  unfold Prog.afterBlock
  split_ifs <;> rfl

theorem Prog.afterBlock_last {p : Prog} (last : p.j + 1 = blocks) :
    (p.afterBlock blocks).i = p.i + 1 ∧ (p.afterBlock blocks).j = 0 := by
  unfold Prog.afterBlock
  rw [if_pos last]
  exact ⟨rfl, rfl⟩

theorem Prog.afterBlock_inside {p : Prog} (inside : p.j + 1 ≠ blocks) :
    (p.afterBlock blocks).i = p.i ∧ (p.afterBlock blocks).j = p.j + 1 := by
  unfold Prog.afterBlock
  rw [if_neg inside]
  exact ⟨rfl, rfl⟩

/-- The block of MOUT that stands at the command's place (R60, R176). -/
def Frame.outData (f : Frame) (tb : Bool) (rm : RMode) (fmt : Nat) (nanov : Bool) (p : Prog) : Blk :=
  (outBlock fmt rm nanov ((f.outVals tb fmt p.i p.j
    (tensorScale f.scaleA.toNat f.scaleB.toNat).1).map Prod.fst)).1

theorem State.outFrame_of_write {fmt : Nat} (shape : outShape fmt = (rows, blocks))
    (more : c.prog.i < 32 / rows) {ea : Nat} (place : ea = (c.msg.operand + BitVec.ofNat 64
      (c.prog.i * (s.frame r c.elem).mcpitch.toNat + 64 * c.prog.j)).toNat) {u : State}
    (write : s.engineWrite r n c ea ((s.frame r c.elem).outData tb rm fmt nanov c.prog) =
      .got () u) : ∃ fl, s.outFrame r n c tb rm fmt nanov =
        ((u.cmdFlags r n fl).editCmd r n fun d =>
          { d with task := (s.frame r c.elem).mtask.toNat }).setProg r n
            (c.prog.afterBlock blocks) := by
  have offset : wordI ((c.prog.i : Int) * ((s.frame r c.elem).mcpitch.toNat : Int) +
      64 * (c.prog.j : Int)) = BitVec.ofNat 64
        (c.prog.i * (s.frame r c.elem).mcpitch.toNat + 64 * c.prog.j) := by
    rw [← wordI_natCast]
    push_cast
    rfl
  unfold Frame.outData at write
  unfold State.outFrame
  simp only [shape]
  rw [if_neg (Nat.not_le.2 more), offset, ← place, write, Got.andThen_got]
  unfold Prog.afterBlock
  split_ifs
  · exact ⟨_, rfl⟩
  · exact ⟨_, rfl⟩

theorem mout_ends (h : Working s r n x c) (k : Cmd) {fmt : BitVec 5}
    (shape : outShape fmt.toNat = (rows, blocks)) (done : 32 / rows ≤ c.prog.i) :
    ∃ t : State, exec (.mout k tb rm fmt nanov) s = .next t ∧
      Answers t r n (BitVec.ofNat 64 c.prog.n) ∧ t.mem = s.mem := by
  rw [exec_mout h.engine, State.outFrame_end shape done]
  exact ⟨_, rfl, h.engine.progress.answers _, rfl⟩

/-- MOUT writes one block of converted cells and goes on to the next place. -/
theorem mout_writes (h : Working s r n x c) (k : Cmd) {fmt : BitVec 5}
    (shape : outShape fmt.toNat = (rows, blocks)) (more : c.prog.i < 32 / rows)
    (canonical : Memory.wf s.mem = true) {ea : Nat} (place : ea = (c.msg.operand + BitVec.ofNat 64
      (c.prog.i * (s.frame r c.elem).mcpitch.toNat + 64 * c.prog.j)).toNat)
    (home : WriteHome s r c.elem ea a) : ∃ (t : State) (d : Command),
      exec (.mout k tb rm fmt nanov) s = .next t ∧
      Wrote s t a ((s.frame r c.elem).outData tb rm fmt.toNat nanov c.prog).data ∧
      (t.run r).cmds.find n = some d ∧ d.task = (s.frame r c.elem).mtask.toNat ∧
      d.prog = c.prog.afterBlock blocks ∧ t.frame r c.elem = s.frame r c.elem := by
  obtain ⟨u, write, runs, wrote⟩ := State.engineWrite_of_writeHome home.idle h.noSkip n
    ((s.frame r c.elem).outData tb rm fmt.toNat nanov c.prog)
  obtain ⟨fl, step⟩ := State.outFrame_of_write (s := s.idle) shape more place write
  obtain ⟨d, found, -, -⟩ := ((h.engine.progress.of_runs runs).cmdFlags fl).found
  rw [exec_mout h.engine, step]
  refine ⟨_, { d with
    task := (s.frame r c.elem).mtask.toNat
    prog := c.prog.afterBlock blocks
    farBlk := none }, rfl, ?_, ?_, rfl, rfl, ?_⟩
  · exact (wrote canonical).of_mem (State.cmdFlags_same ..).mem
  · unfold State.setProg
    rw [State.editCmd_cmds, State.editCmd_cmds, found]
    rfl
  · rw [State.setProg_frame, State.editCmd_frame, State.cmdFlags_frame, State.frame_of_runs runs]
    rfl

end

/-! ## MZERO auto, R59, R173 -/

section
variable {s : State} {r n a : Nat} {x : Run} {c : Command} {tb : Bool}

theorem exec_mzeroAuto (h : AtEngine s r n x c) (k : Cmd) (tb : Bool) :
    exec (.mzeroAuto k tb) s = .next (s.idle.sweep r n c tb) := by
  show execMzeroAuto k tb s = _
  exact onEngine_of_atEngine h ..

theorem State.sweep_record (reads : c.prog.skip = none) (first : c.prog.blks = [])
    (home : ReadHome s r c.elem c.msg.operand.toNat a) (tb : Bool) : s.sweep r n c tb =
      if (extentOf (s.blkAt a)).isNone then
        (s.engineFill r c.elem c.msg.operand.toNat).engineIllegal r n c
      else (s.engineFill r c.elem c.msg.operand.toNat).setProg r n { c.prog with
        blks := [s.blkAt a]
        words := [(s.frame r c.elem).mbmap, (s.frame r c.elem).mbpitch] } := by
  unfold State.sweep
  simp only [reads, first, List.isEmpty_nil, if_true, State.engineRead_of_readHome home reads,
    Got.andThen_got]

section
variable {b : Blk} {bs : List Blk} {e : Extent} {m w : Word} {ws : List Word}
  (reads : c.prog.skip = none) (held : c.prog.blks = b :: bs) (extent : extentOf b = some e)
  (words : c.prog.words = m :: w :: ws)
include reads held extent words

theorem State.sweep_band {ea : Nat} (next : (e.addrs m w)[c.prog.i]? = some ea)
    (home : ReadHome s r c.elem (ea % 2 ^ 64) a) (takes : sweepRefuses (s.sideOf a).descr = false)
    (tb : Bool) : s.sweep r n c tb = (s.engineFill r c.elem (ea % 2 ^ 64)).setProg r n
      { c.prog with i := c.prog.i + 1, nums := c.prog.nums ++ [(s.sideOf a).descr] } := by
  have takes' : sweepRefuses (s.blkAt a).descr = false := takes
  unfold State.sweep
  simp only [reads, held, words, extent, List.isEmpty_cons, List.headD_cons, List.drop_one,
    List.tail_cons, Bool.false_eq_true, if_false, next, State.engineRead_of_readHome home reads,
    Got.andThen_got, takes']
  rfl

theorem State.sweep_end (done : (e.addrs m w)[c.prog.i]? = none) (tb : Bool) :
    s.sweep r n c tb =
      s.zeroTile r n c tb (sweepEacc e (e.visited m).length c.prog.nums) := by
  unfold State.sweep
  simp only [reads, held, words, extent, List.isEmpty_cons, List.headD_cons, List.drop_one,
    List.tail_cons, Bool.false_eq_true, if_false, done]

end

theorem Frame.cell_clear (f : Frame) (t : Bool) (eacc : Int) (i j : Nat) :
    (f.clear t eacc).cell t i j = Cell.zero ∧ (f.clear t eacc).cell (!t) i j = f.cell (!t) i j ∧
      (f.clear t eacc).eacc t = eacc := by
  cases t <;> exact ⟨rfl, rfl, rfl⟩

/-- The record of a sweep is taken with the launch's MBMAP and MBPITCH, or refused. -/
theorem mzeroAuto_record (h : Working s r n x c) (first : c.prog.blks = [])
    (home : ReadHome s r c.elem c.msg.operand.toNat a) (k : Cmd) (tb : Bool) :
    (extentOf (s.blkAt a) = none → exec (.mzeroAuto k tb) s =
      .next ((s.idle.used r c.elem [c.msg.operand.toNat]).engineIllegal r n c)) ∧
    (∀ e, extentOf (s.blkAt a) = some e → ∃ t : State, exec (.mzeroAuto k tb) s = .next t ∧
      Progress t r n c { c.prog with
        blks := [s.blkAt a]
        words := [(s.frame r c.elem).mbmap, (s.frame r c.elem).mbpitch] } ∧
      t.frame r c.elem = s.frame r c.elem) := by
  have fill := State.engineFill_refilled s.idle r c.elem c.msg.operand.toNat
  have record : extentOf (s.idle.blkAt a) = extentOf (s.blkAt a) := rfl
  rw [exec_mzeroAuto h.engine, State.sweep_record (s := s.idle) h.noSkip first home.idle, record]
  refine ⟨fun bad => by rw [bad]; rfl, fun e good => ?_⟩
  rw [good]
  refine ⟨_, rfl, (h.engine.progress.of_runs fill.runs).setProg _, ?_⟩
  exact (State.setProg_frame ..).trans (State.frame_of_runs fill.runs ..)

section
variable {b : Blk} {bs : List Blk} {e : Extent} {m w : Word} {ws : List Word}
  (h : Working s r n x c) (held : c.prog.blks = b :: bs) (extent : extentOf b = some e)
  (words : c.prog.words = m :: w :: ws)
include h held extent words

theorem mzeroAuto_band {ea : Nat} (next : (e.addrs m w)[c.prog.i]? = some ea)
    (home : ReadHome s r c.elem (ea % 2 ^ 64) a) (takes : sweepRefuses (s.sideOf a).descr = false)
    (k : Cmd) (tb : Bool) : ∃ t : State, exec (.mzeroAuto k tb) s = .next t ∧
      Progress t r n c { c.prog with
        i := c.prog.i + 1
        nums := c.prog.nums ++ [(s.sideOf a).descr] } ∧ t.frame r c.elem = s.frame r c.elem := by
  have fill := State.engineFill_refilled s.idle r c.elem (ea % 2 ^ 64)
  rw [exec_mzeroAuto h.engine,
    State.sweep_band (s := s.idle) h.noSkip held extent words next home.idle takes]
  exact ⟨_, rfl, (h.engine.progress.of_runs fill.runs).setProg _,
    (State.setProg_frame ..).trans (State.frame_of_runs fill.runs ..)⟩

/-- After the last side band the tile is cleared with the exponent of the sweep. -/
theorem mzeroAuto_clears (done : (e.addrs m w)[c.prog.i]? = none) (k : Cmd) (tb : Bool) :
    ∃ t : State, exec (.mzeroAuto k tb) s = .next t ∧
      Answers t r n (BitVec.ofInt 64 (sweepEacc e (e.visited m).length c.prog.nums)) ∧
      t.frame r c.elem =
        (s.frame r c.elem).clear tb (sweepEacc e (e.visited m).length c.prog.nums) := by
  rw [exec_mzeroAuto h.engine, State.sweep_end (s := s.idle) h.noSkip held extent words done]
  refine ⟨_, rfl, (h.engine.progress.editFrame ..).answers _, ?_⟩
  unfold State.zeroTile
  rw [State.finish_frame, State.editFrame_frame (s := s.idle) h.engine.run]
  rfl

end

end

/-- Settles O56: each command's step is its lemma above; a row of cells changes as `Frame.RowSet`
says. -/
theorem frameCommandsLoadMultiplyAndWriteTiles :
    Obligations.FrameCommandsLoadMultiplyAndWriteTiles := by
  rintro s r n x c k tb _ _ h rfl sorted rfl
  refine ⟨fun done i load => loads_end h done load, ?loadB, ?loadC, ?product, ?skip, ?out, ?record,
    ?sweep⟩
  case loadB =>
    intro a _ more home takes known first alike
    subst first
    obtain ⟨t, step, mem, frame, goes⟩ := mldb_loads h more rfl home takes known alike k
    refine ⟨t, step, mem, ?_, ?_, ?_, ?_, goes⟩ <;> rw [frame]
    · exact Tbl.find_put_self ..
    · exact fun j other => Tbl.find_put_ne _ _ other
  case loadC =>
    rintro a _ vs more row rfl known alike home rfl
    exact mldc_adds h sorted more row known alike rfl home rfl k tb
  case product =>
    intro i x3 product
    have step := exec_multiply h.engine product
    refine ⟨fun bad => by rw [step, State.multiply_illegal bad], fun some_ few => ⟨fun done => ?_,
      fun more p b port beat => ⟨multiply_control h step some_ few more port beat,
        multiply_mismatch h step some_ few more port beat, fun data suits => ?_⟩⟩⟩
    · rw [step, State.multiply_end some_ few done]
      exact ⟨_, rfl, h.engine.progress.answers _, State.finish_frame ..⟩
    · obtain ⟨t, goes, moves, mem, progress, row⟩ :=
        multiply_adds h step some_ few more port beat sorted data suits
      refine ⟨t, goes, moves, mem, progress, fun m hm z hz => ?_,
        fun j m hm away => row.kept j m hm (.inl away), row.other⟩
      subst hz
      exact row.set m (by simpa [upTo_eq] using hm)
  case skip =>
    intro first skips
    exact ⟨_, exec_mmas_skips h.engine first skips k tb, h.engine.progress.answers 0,
      State.finish_frame .., rfl⟩
  case out =>
    intro rm fmt nanov rows blocks shape
    refine ⟨mout_ends h k shape, fun a more canonical home => ?_⟩
    obtain ⟨t, d, step, wrote, found, task, prog, frame⟩ :=
      mout_writes h k shape more canonical rfl home
    refine ⟨t, d, step, wrote, found, task, ?_⟩
    rw [frame, prog]
    exact ⟨Prog.afterBlock_n .., Prog.afterBlock_last, Prog.afterBlock_inside, rfl, rfl⟩
  case record =>
    exact fun a first home => mzeroAuto_record h first home k tb
  case sweep =>
    intro b bs e m w ws held extent words
    refine ⟨fun ea a next home takes => mzeroAuto_band h held extent words next home takes k tb,
      fun done => ?_⟩
    obtain ⟨t, step, answers, frame⟩ := mzeroAuto_clears h held extent words done k tb
    refine ⟨t, step, answers, ?_, fun i j => ?_, fun i j => ?_⟩ <;> rw [frame]
    · exact (Frame.cell_clear _ tb _ 0 0).2.2
    · exact (Frame.cell_clear ..).1
    · exact (Frame.cell_clear ..).2.1

end Sys2Proof.Machine

/-! # A poisoned block stops the commands that change one element of it

R188 and R191 have TEXP and TSACC write one element at a time, and such a write is refused by a block
that has become uncorrectable since the command cleared it (R169, R393). -/

namespace Sys2Proof.Machine

section
variable {s : State} {r n : Nat} {x : Run} {c : Command}

/-- At a tile of the launch's mask a word does its command's next unit of work (R359). -/
theorem onTile_of_masked (h : AtEngine s r n x c) (masked : s.tileMasked r c.elem = true) (k : Cmd)
    (trigger : Bool) (work : State → Nat → Nat → Command → State) :
    onTile s k trigger work = .next (work s.idle r n c) := by
  have inside : s.idle.tileMasked r c.elem = true := masked
  unfold onTile
  rw [onEngine_of_atEngine h, inside]
  rfl

theorem State.withShape_of_words {w : Word} (taken : c.prog.words = [w]) (key g k : Nat)
    (f : Shape → State) : s.withShape r n c key g k f = f (shapeOf w) := by
  unfold State.withShape
  rw [taken]

theorem State.putElem_of_poisoned {ix : Nat} (bad : s.poisoned (tileBlock r c.elem ix) = true)
    (reads : c.prog.skip = none) (fmt lane v : Nat) : s.putElem r n c ix fmt lane v =
      .stop (s.engineFault r n c 0x0C (s.windowEa r (tileBlock r c.elem ix))) := by
  unfold State.putElem
  simp [bad, reads]

/-- TEXP stops with the poison trap at a pair whose block is poisoned (R169, R188, R393). -/
theorem texp_of_poisoned (h : Working s r n x c) (masked : s.tileMasked r c.elem = true) {w : Word}
    (taken : c.prog.words = [w]) {b : Blk} {bs : List Blk} (held : c.prog.blks = b :: bs) {q v : Nat}
    (pair : (pairsOf b.data)[c.prog.j - 1]? = some (q, v)) (inside : q < 32 * (shapeOf w).cols)
    (bad : s.poisoned (tileBlock r c.elem ((shapeOf w).index c.prog.i (q / 32))) = true)
    (k : Cmd) (f : TileForm) (vf : ValFmt) : exec (.texp k f vf) s =
      .next (s.idle.engineFault r n c 0x0C
        (s.idle.windowEa r (tileBlock r c.elem ((shapeOf w).index c.prog.i (q / 32))))) := by
  show execTexp k f vf s = _
  unfold execTexp
  rw [onTile_of_masked h.engine masked, State.withShape_of_words taken]
  unfold State.expand State.spread
  simp only [held, pair, if_neg (Nat.not_le.2 inside)]
  rw [State.putElem_of_poisoned (s := s.idle) bad h.noSkip]
  rfl

end

/-! ## A TEXP whose row has become poisoned -/

/-- A COORD block with the one pair of coordinate 0 and value 5 (R48). -/
def onePair : Blk := ⟨pairBytes [(0, 5)], mkDescr fmtCoord 0 true⟩

/-- A TEXP at the tile of site 7 that has begun row 0 of a shape of one block and taken a beat. -/
def expanding : Command where
  elem := 7
  msg := ⟨0, 1, 0, 0, 0, 0⟩
  state := .running
  prog := ⟨0, 1, 1, [], [0], [onePair], [], none⟩
  flags := 0
  task := 0
  counted := []
  farBusy := false
  farBlk := none

/-- A launch in one cluster with all tiles of its ring, whose one command is that TEXP. -/
def expandingRun : Run := { (default : Run) with
  parts := [⟨0, 0, 0, 1, 1, 0, 0, 0, [255], .running, false, false⟩]
  cmds := [(3, expanding)] }

/-- The device with that TEXP in focus, after its row's block was found uncorrectable (R393). -/
def poisonedRow : State := { State.reset with
  focus := .engine 0 3
  runs := [(0, expandingRun)]
  side := [(tileBlock 0 7 0 / 64, ⟨1, 0, true, 0x0A, true⟩)] }

theorem working_poisonedRow : Working poisonedRow 0 3 expandingRun expanding :=
  ⟨⟨rfl, rfl, rfl⟩, List.Pairwise.nil, rfl, rfl⟩

/-- Refutes O57: its clause on a pair of TEXP does not ask that the pair's block is not poisoned.  In
`poisonedRow` the block is, so the command stops (R169, R393) where the clause has it go on.  The clause
on a pair of TSACC has the same gap, as it writes through `State.putElem` too. -/
theorem not_tileCommandsStreamWriteAndUpdateTheirTile :
    ¬ Obligations.TileCommandsStreamWriteAndUpdateTheirTile := by
  intro holds
  have masked : poisonedRow.tileMasked 0 7 = true := by decide
  obtain ⟨-, clauses⟩ := holds poisonedRow 0 3 expandingRun expanding ⟨none, none, false, 7⟩
    ⟨0, 0, 0⟩ .fp16 .gather 0 working_poisonedRow masked rfl rfl
  obtain ⟨-, -, -, -, -, -, -, -, texp, -⟩ := clauses 0 _ _ rfl rfl rfl
  obtain ⟨-, pairs⟩ := texp _ _ rfl rfl Memory.wf_reset
  have pair : (pairsOf onePair.data)[expanding.prog.j - 1]? = some (0, 5) := by decide
  obtain ⟨-, inside⟩ := pairs onePair [] 0 5 rfl pair
  obtain ⟨t, next, -, -, goes⟩ := inside (by decide) rfl
  rw [texp_of_poisoned working_poisonedRow masked rfl rfl pair (by decide) (by decide)] at next
  cases next
  exact absurd goes (by unfold Progress; decide)

end Sys2Proof.Machine


/-! # Sums, products, logic and shifts of lanes, R126 -/

namespace Sys2Proof.Machine

/-! ## Lane functions on bit vectors, R126 -/

section
variable {w : Nat} (a b : BitVec w)

theorem ofNat_add_toNat : BitVec.ofNat w (a.toNat + b.toNat) = a + b := by
  rw [BitVec.ofNat_add]; simp

theorem ofNat_sub_toNat : BitVec.ofNat w (a.toNat + 2 ^ w - b.toNat) = a - b := by
  rw [BitVec.sub_def]
  congr 1
  have := b.isLt
  omega

theorem ofNat_mul_toNat : BitVec.ofNat w (a.toNat * b.toNat) = a * b := by
  rw [BitVec.ofNat_mul]; simp

theorem ofNat_land_toNat : BitVec.ofNat w (Nat.land a.toNat b.toNat) = a &&& b :=
  BitVec.eq_of_toNat_eq <| (BitVec.toNat_ofNat ..).trans <|
    (Nat.mod_eq_of_lt (Nat.and_lt_two_pow _ b.isLt)).trans (BitVec.toNat_and ..).symm

theorem ofNat_lor_toNat : BitVec.ofNat w (Nat.lor a.toNat b.toNat) = a ||| b :=
  BitVec.eq_of_toNat_eq <| (BitVec.toNat_ofNat ..).trans <|
    (Nat.mod_eq_of_lt (Nat.or_lt_two_pow a.isLt b.isLt)).trans (BitVec.toNat_or ..).symm

theorem ofNat_xor_toNat : BitVec.ofNat w (Nat.xor a.toNat b.toNat) = a ^^^ b :=
  BitVec.eq_of_toNat_eq <| (BitVec.toNat_ofNat ..).trans <|
    (Nat.mod_eq_of_lt (Nat.xor_lt_two_pow a.isLt b.isLt)).trans (BitVec.toNat_xor ..).symm

theorem ofNat_andn_toNat :
    BitVec.ofNat w (Nat.land a.toNat (2 ^ w - 1 - b.toNat)) = a &&& ~~~b := by
  rw [← BitVec.toNat_not]
  exact ofNat_land_toNat a (~~~b)

theorem ofNat_shiftLeft (n : Nat) : BitVec.ofNat w (a.toNat * 2 ^ n) = a <<< n :=
  BitVec.eq_of_toNat_eq (by simp [Nat.shiftLeft_eq])

theorem ofNat_ushiftRight (n : Nat) : BitVec.ofNat w (a.toNat / 2 ^ n) = a >>> n :=
  BitVec.eq_of_toNat_eq <| by
    rw [BitVec.toNat_ofNat, BitVec.toNat_ushiftRight, Nat.shiftRight_eq_div_pow,
      Nat.mod_eq_of_lt ((Nat.div_le_self ..).trans_lt a.isLt)]

theorem ofNat_sarLane : BitVec.ofNat w (sarLane w a.toNat b.toNat) = a.sshiftRight (b.toNat % w) := by
  rw [sarLane, sextInt_toNat, lowBits_ofInt, BitVec.ofNat_toNat, BitVec.setWidth_eq,
    BitVec.sshiftRight, Int.shiftRight_eq_div_pow]
  norm_cast

/-- The parts of a rotation do not overlap: the shifted one is a multiple of 2 ^ n, the other is below. -/
theorem ofNat_rotateLeft {n : Nat} (h : n < w) :
    BitVec.ofNat w (a.toNat * 2 ^ n % 2 ^ w + a.toNat / 2 ^ (w - n)) = a.rotateLeft n := by
  have split : 2 ^ w = 2 ^ (w - n) * 2 ^ n := by rw [← pow_add]; congr 1; omega
  have below : a.toNat / 2 ^ (w - n) < 2 ^ n := by
    rw [Nat.div_lt_iff_lt_mul (Nat.two_pow_pos _), mul_comm, ← split]
    exact a.isLt
  have joined : a.toNat * 2 ^ n % 2 ^ w + a.toNat / 2 ^ (w - n) =
      a.toNat * 2 ^ n % 2 ^ w ||| a.toNat / 2 ^ (w - n) := by
    rw [split, Nat.mul_mod_mul_right, mul_comm _ (2 ^ n), Nat.two_pow_add_eq_or_of_lt below]
  apply BitVec.eq_of_toNat_eq
  rw [joined, BitVec.toNat_ofNat, BitVec.toNat_rotateLeft, Nat.mod_eq_of_lt h, Nat.shiftLeft_eq,
    Nat.shiftRight_eq_div_pow]
  exact Nat.mod_eq_of_lt (Nat.or_lt_two_pow (Nat.mod_lt _ (Nat.two_pow_pos w))
    ((Nat.div_le_self ..).trans_lt a.isLt))

theorem ofNat_rolLane (h : 0 < w) :
    BitVec.ofNat w (rolLane w a.toNat b.toNat) = a.rotateLeft (b.toNat % w) :=
  ofNat_rotateLeft a (Nat.mod_lt _ h)

/-! ## Signed and unsigned lanes -/

theorem two_pow_half (h : 0 < w) : (2 : Int) ^ w = 2 * 2 ^ (w - 1) := by
  rw [← pow_succ']
  congr 1
  omega

theorem laneInt_range (u : Bool) :
    laneMin u w ≤ laneInt u a ∧ laneInt u a ≤ laneMax u w := by
  cases u with
  | false =>
    have least := BitVec.le_toInt a
    have most := BitVec.toInt_lt (x := a)
    simp only [laneMin, laneMax, laneInt, Bool.false_eq_true, if_false]
    omega
  | true =>
    have most : (a.toNat : Int) < 2 ^ w := by exact_mod_cast a.isLt
    simp only [laneMin, laneMax, laneInt, if_true]
    omega

/-- A number in the range of a lane is the value of its low bits. -/
theorem laneInt_ofInt {i : Int} (h : 0 < w) (u : Bool) (least : laneMin u w ≤ i)
    (most : i ≤ laneMax u w) : laneInt u (BitVec.ofInt w i) = i := by
  cases u with
  | false =>
    simp only [laneMin, laneMax, laneInt, Bool.false_eq_true, if_false] at *
    rw [BitVec.toInt_ofInt]
    have half := two_pow_half h
    apply Int.bmod_eq_of_le <;> push_cast <;> omega
  | true =>
    simp only [laneMin, laneMax, laneInt, if_true] at *
    rw [BitVec.toNat_ofInt]
    push_cast
    rw [Int.emod_eq_of_lt least (by omega), Int.toNat_of_nonneg least]

theorem ofNat_mulHigh (u : Bool) : BitVec.ofNat w (mulHigh u w a.toNat b.toNat) =
    BitVec.ofInt w (laneInt u a * laneInt u b / 2 ^ w) := by
  cases u with
  | false =>
    simp only [mulHigh, laneInt, sextInt_toNat, lowBits_ofInt, Bool.false_eq_true, if_false,
      BitVec.ofNat_toNat, BitVec.setWidth_eq]
  | true =>
    simp only [mulHigh, laneInt, if_true]
    rw [← BitVec.ofInt_natCast]
    push_cast
    rfl

/-- The high half of a product of two lanes is a lane. -/
theorem high_range (h : 0 < w) (u : Bool) :
    laneMin u w ≤ laneInt u a * laneInt u b / 2 ^ w ∧
      laneInt u a * laneInt u b / 2 ^ w ≤ laneMax u w := by
  have half := two_pow_half h
  have pos : (0 : Int) < 2 ^ (w - 1) := by positivity
  obtain ⟨al, am⟩ := laneInt_range a u
  obtain ⟨bl, bm⟩ := laneInt_range b u
  suffices product : laneMin u w * 2 ^ w ≤ laneInt u a * laneInt u b ∧
      laneInt u a * laneInt u b < (laneMax u w + 1) * 2 ^ w from
    ⟨(Int.le_ediv_iff_mul_le (by omega)).2 product.1,
      Int.lt_add_one_iff.1 ((Int.ediv_lt_iff_lt_mul (by omega)).2 product.2)⟩
  revert al am bl bm
  generalize laneInt u a = m
  generalize laneInt u b = n
  cases u with
  | false =>
    simp only [laneMin, laneMax, Bool.false_eq_true, if_false, half]
    generalize (2 : Int) ^ (w - 1) = p at *
    intros
    constructor <;> nlinarith
  | true =>
    simp only [laneMin, laneMax, if_true, half]
    generalize (2 : Int) ^ (w - 1) = p at *
    intros
    constructor <;> nlinarith

theorem mulHigh_floor (h : 0 < w) (u : Bool) :
    let c := BitVec.ofNat w (mulHigh u w a.toNat b.toNat)
    (2 : Int) ^ w * laneInt u c ≤ laneInt u a * laneInt u b ∧
      laneInt u a * laneInt u b < (2 : Int) ^ w * (laneInt u c + 1) := by
  obtain ⟨least, most⟩ := high_range a b h u
  simp only [ofNat_mulHigh, laneInt_ofInt h u least most]
  have pos : (0 : Int) < 2 ^ w := by positivity
  refine ⟨Int.mul_ediv_self_le pos.ne', ?_⟩
  rw [mul_add, mul_one]
  exact Int.lt_mul_ediv_self_add pos

theorem lessLane_iff (u : Bool) : lessLane u w a.toNat b.toNat = true ↔ laneInt u a < laneInt u b := by
  cases u
  · simp [lessLane, laneInt, sextInt_toNat]
  · simp [lessLane, laneInt, Nat.mod_eq_of_lt a.isLt, Nat.mod_eq_of_lt b.isLt]

theorem minLane_least (u : Bool) :
    let c := BitVec.ofNat w (minLane u w a.toNat b.toNat)
    (c = a ∨ c = b) ∧ laneInt u c ≤ laneInt u a ∧ laneInt u c ≤ laneInt u b := by
  simp only [minLane, lessLane_iff]
  split
  · next less => simpa using less.le
  · next less => simpa using less

theorem maxLane_greatest (u : Bool) :
    let c := BitVec.ofNat w (maxLane u w a.toNat b.toNat)
    (c = a ∨ c = b) ∧ laneInt u a ≤ laneInt u c ∧ laneInt u b ≤ laneInt u c := by
  simp only [maxLane, lessLane_iff]
  split
  · next less => simpa using less.le
  · next less => simpa using less

end

section
variable {s : State} {x : Firing}

/-- A word of two operands emits a result of its relation on the lanes, where its lane function is one. -/
theorem intApply_emits (focus : s.focus = .firing x) (o : Out) (f : IntForm)
    (g : Nat → Nat → Nat → Nat) {rel : BitVec f.sz.bits → BitVec f.sz.bits → BitVec f.sz.bits → Prop}
    (h : ∀ a b : BitVec f.sz.bits, rel a b (BitVec.ofNat f.sz.bits (g f.sz.bits a.toNat b.toNat))) :
    ∃ v, Gives2 f rel x.lv x.rv v ∧ computing o (fun _ y => intApply f g y) s =
      .next ((s.taken x).emitOut x o (Tok.data v)) :=
  ⟨_, gives2_intApply f g x rel h, computing_of_focus focus o _⟩

end

/-- Settles O1: each word is its lane function in every lane, and its lane function is the operation on bit
vectors. -/
theorem arithmeticShiftsAndProductsEmitTheirLaneResults :
    Obligations.ArithmeticShiftsAndProductsEmitTheirLaneResults := by
  refine ⟨fun s x o f focus => ?_, fun s x o f focus => ?_, fun s x o f u focus => ?_⟩
  · exact ⟨intApply_emits focus o f _ ofNat_add_toNat, intApply_emits focus o f _ ofNat_sub_toNat,
      intApply_emits focus o f _ ofNat_mul_toNat, intApply_emits focus o f _ ofNat_land_toNat,
      intApply_emits focus o f _ ofNat_lor_toNat, intApply_emits focus o f _ ofNat_xor_toNat,
      intApply_emits focus o f _ ofNat_andn_toNat⟩
  · exact ⟨intApply_emits focus o f _ fun a _ => ofNat_shiftLeft a _,
      intApply_emits focus o f _ fun a _ => ofNat_ushiftRight a _,
      intApply_emits focus o f _ ofNat_sarLane,
      intApply_emits focus o f _ fun a b => ofNat_rolLane a b (width_pos f.sz)⟩
  · exact ⟨intApply_emits focus o f _ fun a b => mulHigh_floor a b (width_pos f.sz) u,
      intApply_emits focus o f _ fun a b => minLane_least a b u,
      intApply_emits focus o f _ fun a b => maxLane_greatest a b u⟩

end Sys2Proof.Machine

/-! # Integer words of one operand, R130 -/

namespace Sys2Proof.Machine

/-! ## Lane functions of one operand, R130 -/

section
variable {w : Nat} (a : BitVec w)

theorem ofNat_natAbs : BitVec.ofNat w (sextInt w a.toNat).natAbs = if a.msb then -a else a := by
  rw [sextInt_toNat, ← BitVec.ofInt_natCast, Int.natCast_natAbs, BitVec.msb_eq_toInt]
  split
  · next neg =>
    rw [abs_of_neg (by simpa using neg), BitVec.ofInt_neg, BitVec.ofInt_toInt]
  · next neg =>
    rw [abs_of_nonneg (by simpa using neg), BitVec.ofInt_toInt]

theorem ofNat_two_pow_sub : BitVec.ofNat w (2 ^ w - a.toNat) = 0 - a :=
  BitVec.eq_of_toNat_eq (by simp)

theorem clzLane_le : clzLane w a.toNat ≤ w := by
  unfold clzLane
  split <;> omega

theorem toNat_ofNat_clzLane : (BitVec.ofNat w (clzLane w a.toNat)).toNat = clzLane w a.toNat :=
  (BitVec.toNat_ofNat ..).trans (Nat.mod_eq_of_lt ((clzLane_le a).trans_lt Nat.lt_two_pow_self))

/-- A lane that is not 0 has its highest one bit below its leading zeros. -/
theorem clzLane_log2 (h : a.toNat ≠ 0) : w = clzLane w a.toNat + a.toNat.log2 + 1 := by
  have below : a.toNat.log2 < w := (Nat.log2_lt h).2 a.isLt
  rw [clzLane, Nat.mod_eq_of_lt a.isLt, if_neg h]
  omega

theorem clzLane_counts :
    let c := BitVec.ofNat w (clzLane w a.toNat)
    c.toNat ≤ w ∧ (∀ j, w - c.toNat ≤ j → a.getLsbD j = false) ∧
      (c.toNat < w → a.getLsbD (w - 1 - c.toNat) = true) := by
  simp only [toNat_ofNat_clzLane]
  refine ⟨clzLane_le a, fun j high => ?_, fun few => ?_⟩
  · by_cases zero : a.toNat = 0
    · simp [BitVec.getLsbD, zero]
    · have top := clzLane_log2 a zero
      exact Nat.testBit_lt_two_pow <| Nat.lt_log2_self.trans_le <|
        Nat.pow_le_pow_right (by norm_num) (by omega)
  · have some_bit : a.toNat ≠ 0 := fun zero => by simp [clzLane, zero] at few
    have top := clzLane_log2 a some_bit
    rw [show w - 1 - clzLane w a.toNat = a.toNat.log2 by omega]
    exact Nat.testBit_log2 some_bit

theorem popLane_counts : (BitVec.ofNat w (popLane w a.toNat)).toNat =
    ((List.range w).filter fun k => a.getLsbD k).length := by
  have few : popLane w a.toNat ≤ w := (List.length_filter_le ..).trans (by simp)
  rw [BitVec.toNat_ofNat, Nat.mod_eq_of_lt (few.trans_lt Nat.lt_two_pow_self), popLane, upTo_eq]
  rfl

/-- After its first `m` bits a reversal is the reversal of those bits at the top of the word. -/
theorem reversed_low_bits (x : Nat) {m : Nat} (h : m ≤ w) : ∃ q,
    (upTo m).foldl (fun n k => if nbit x k then n + 2 ^ (w - 1 - k) else n) 0 = 2 ^ (w - m) * q ∧
    ∀ i < m, q.testBit (m - 1 - i) = x.testBit i := by
  induction m with
  | zero => exact ⟨0, rfl, by simp⟩
  | succ m ih =>
    obtain ⟨q, value, flipped⟩ := ih (by omega)
    have half : 2 ^ (w - m) = 2 ^ (w - (m + 1)) * 2 := by rw [← pow_succ]; congr 1; omega
    refine ⟨2 * q + (x.testBit m).toNat, ?_, fun i low => ?_⟩
    · rw [upTo, List.foldl_append, value, half, mul_assoc]
      cases bit : x.testBit m with
      | false => simp [nbit, bit]
      | true => simp [nbit, bit, mul_add, show w - 1 - m = w - (m + 1) by omega]
    · rcases Nat.lt_succ_iff_lt_or_eq.1 low with low | rfl
      · rw [show m + 1 - 1 - i = m - 1 - i + 1 by omega, Nat.testBit_succ, ← flipped i low]
        congr 1
        have := Bool.toNat_le (x.testBit m)
        omega
      · cases bit : x.testBit i <;> simp

theorem getLsbD_revLane {i : Nat} (h : i < w) :
    (BitVec.ofNat w (revLane w a.toNat)).getLsbD (w - 1 - i) = a.getLsbD i := by
  obtain ⟨q, value, flipped⟩ := reversed_low_bits a.toNat le_rfl
  have below : w - 1 - i < w := by omega
  rw [revLane, value, Nat.sub_self, pow_zero, one_mul, BitVec.getLsbD_ofNat, flipped i h]
  simp [below, BitVec.getLsbD]

end

/-- The same of a word of one operand. -/
theorem unApply_emits {s : State} {x : Firing} (focus : s.focus = .firing x) (o : Out) (f : UnForm)
    (g : Nat → Nat → Nat) {rel : BitVec f.sz.bits → BitVec f.sz.bits → Prop}
    (h : ∀ a : BitVec f.sz.bits, rel a (BitVec.ofNat f.sz.bits (g f.sz.bits a.toNat))) :
    ∃ v, Gives1 f rel x.lv v ∧ computing o (fun _ y => unApply f g y) s =
      .next ((s.taken x).emitOut x o (Tok.data v)) :=
  ⟨_, gives1_unApply f g x rel h, computing_of_focus focus o _⟩

/-- Settles O2: each word is its lane function in every lane, by the lemma above on that function. -/
theorem unaryIntegerWordsEmitTheirLaneResults : Obligations.UnaryIntegerWordsEmitTheirLaneResults :=
  fun _ _ o f focus => ⟨unApply_emits focus o f _ ofNat_natAbs,
    unApply_emits focus o f _ ofNat_two_pow_sub, unApply_emits focus o f _ clzLane_counts,
    unApply_emits focus o f _ popLane_counts, unApply_emits focus o f _ fun a _ => getLsbD_revLane a⟩

end Sys2Proof.Machine

/-! # Compares and tests, R128 -/

namespace Sys2Proof.Machine

/-! ## Conditions, R72, R128 -/

theorem condLane_iff (cc : Cond) {w : Nat} (a b : BitVec w) :
    condLane cc w a.toNat b.toNat = true ↔ Holds cc a b := by
  have same : (a.toNat % 2 ^ w == b.toNat % 2 ^ w) = true ↔ a = b := by
    rw [beq_iff_eq, Nat.mod_eq_of_lt a.isLt, Nat.mod_eq_of_lt b.isLt, BitVec.toNat_inj]
  have signed : lessLane false w a.toNat b.toNat = true ↔ a.toInt < b.toInt := lessLane_iff a b false
  have unsigned : lessLane true w a.toNat b.toNat = true ↔ a.toNat < b.toNat := by
    rw [lessLane_iff]
    exact Int.ofNat_lt
  have equal : a = b ↔ a.toInt = b.toInt := BitVec.toInt_inj.symm
  cases cc <;> simp only [condLane, Holds, Bool.or_eq_true, Bool.not_eq_true', same, signed, unsigned,
    ← Bool.not_eq_true]
  case le => rw [equal]; omega
  case gt => rw [equal]; omega
  case ge => omega
  case leu => rw [← BitVec.toNat_inj]; omega

theorem intRight_low (f : IntForm) (r : Word) :
    bits (intRight f r) 0 f.sz.bits = (rightLane f r 0).toNat := by
  have pos : 0 < if f.packed then 64 / f.sz.bits else 1 := by
    split
    · cases f.sz <;> decide
    · decide
  rw [bits_low, intRight_lane f r 0 pos]

theorem cmpWord_whole {f : IntForm} (whole : f.packed = false) (cc : Cond) (x : Firing) :
    cmpWord f cc x = if condLane cc f.sz.bits (lane f.sz.bits 0 x.lv).toNat
      (rightLane f x.rv 0).toNat then 1 else 0 := by
  simp only [cmpWord, whole, Bool.false_eq_true, if_false, bits_low x.lv, intRight_low]

theorem lane_cmpWord {f : IntForm} (packed : f.packed = true) (cc : Cond) (x : Firing) {k : Nat}
    (h : k < 64 / f.sz.bits) : lane f.sz.bits k (cmpWord f cc x) =
      if condLane cc f.sz.bits (lane f.sz.bits k x.lv).toNat (rightLane f x.rv k).toNat
      then BitVec.allOnes _ else 0 := by
  have right := intRight_lane f x.rv k (by rw [if_pos packed]; exact h)
  simp only [cmpWord, packed, if_true, intApply]
  rw [lane_intMap2 _ _ _ _ _ h, right]
  split
  · exact BitVec.eq_of_toNat_eq (by simp)
  · rfl

theorem testWord_eq (f : IntForm) (ne : Bool) (x : Firing) : testWord f ne x =
    if (lane f.sz.bits 0 x.lv &&& rightLane f x.rv 0 = 0) ↔ (ne = false) then 1 else 0 := by
  have none_set : (lane f.sz.bits 0 x.lv).toNat &&& (rightLane f x.rv 0).toNat = 0 ↔
      lane f.sz.bits 0 x.lv &&& rightLane f x.rv 0 = 0#_ := by
    rw [← BitVec.toNat_inj, BitVec.toNat_and]
    rfl
  simp only [testWord, bits_low x.lv, intRight_low]
  cases ne <;> simp [none_set]

/-- Settles O3: a compare gives the truth of its condition on the lanes, a test that of no common one bit. -/
theorem comparesAndTestsGiveTruthWords : Obligations.ComparesAndTestsGiveTruthWords := by
  refine fun s x o f focus => ⟨fun cc => ⟨cmpWord f cc x,
    computing_of_focus focus o fun _ => cmpWord f cc, fun whole => ?_,
    fun packed k h => ?_⟩, fun _ ne => ?_⟩
  · rw [cmpWord_whole whole, ← condLane_iff]
    exact ⟨fun holds => if_pos holds, fun fails => if_neg fails⟩
  · rw [lane_cmpWord packed cc x h, ← condLane_iff]
    exact ⟨fun holds => if_pos holds, fun fails => if_neg fails⟩
  · rw [← testWord_eq]
    exact computing_of_focus focus o fun _ => testWord f ne

end Sys2Proof.Machine

/-! # Division, R127 -/

namespace Sys2Proof.Machine

/-! ## Division, R127 -/

section
variable {w : Nat} (a b : BitVec w)

theorem ofNat_quotient (u : Bool) : BitVec.ofNat w (divRem u w a.toNat b.toNat).1 =
    if u then a.udiv b else a.sdiv b := by
  cases u with
  | false =>
    simp only [divRem, sextInt_toNat, lowBits_ofInt, BitVec.ofNat_toNat, BitVec.setWidth_eq,
      Bool.false_eq_true, if_false]
    exact BitVec.eq_of_toInt_eq (by rw [BitVec.toInt_ofInt, BitVec.toInt_sdiv])
  | true =>
    rw [if_pos rfl, BitVec.udiv_eq]
    exact BitVec.eq_of_toNat_eq <| (BitVec.toNat_ofNat ..).trans <|
      (Nat.mod_eq_of_lt ((Nat.div_le_self ..).trans_lt a.isLt)).trans BitVec.toNat_udiv.symm

theorem ofNat_remainder (u : Bool) : BitVec.ofNat w (divRem u w a.toNat b.toNat).2 =
    if u then a.umod b else a.srem b := by
  cases u with
  | false =>
    simp only [divRem, sextInt_toNat, lowBits_ofInt, BitVec.ofNat_toNat, BitVec.setWidth_eq,
      Bool.false_eq_true, if_false]
    rw [← BitVec.toInt_srem, BitVec.ofInt_toInt]
  | true =>
    rw [if_pos rfl, BitVec.umod_eq]
    exact BitVec.eq_of_toNat_eq <| (BitVec.toNat_ofNat ..).trans <|
      (Nat.mod_eq_of_lt ((Nat.mod_le ..).trans_lt a.isLt)).trans BitVec.toNat_umod.symm

end

theorem sextWord_ones (z : Width) : sextWord z.bits (2 ^ z.bits - 1) = BitVec.allOnes 64 := by
  rw [sextWord_eq]
  cases z <;> rfl

theorem sextWord_toNat {w : Nat} (a : BitVec w) : sextWord w a.toNat = a.signExtend 64 := by
  rw [sextWord_eq, BitVec.ofNat_toNat, BitVec.setWidth_eq]

section
variable {s : State} {x : Firing} (focus : s.focus = .firing x) (o : Out) {f : IntForm} (u zdef rem : Bool)

include focus

theorem dividing_of_ne (h : rightLane f x.rv 0 ≠ 0) : dividing o f u zdef rem s =
    .next ((s.taken x).emitOut x o (Tok.data
      (sextWord f.sz.bits (if rem then
        (divRem u f.sz.bits (lane f.sz.bits 0 x.lv).toNat (rightLane f x.rv 0).toNat).2
      else (divRem u f.sz.bits (lane f.sz.bits 0 x.lv).toNat (rightLane f x.rv 0).toNat).1)))) := by
  have divisor : (rightLane f x.rv 0).toNat ≠ 0 := by simpa [BitVec.toNat_eq] using h
  unfold dividing
  rw [onFiring_of_focus focus]
  simp only [bits_low x.lv, intRight_low, divisor, if_false]

theorem dividing_zdef (h : rightLane f x.rv 0 = 0) : dividing o f u true rem s =
    .next ((s.taken x).emitOut x o (Tok.data (if rem then (lane f.sz.bits 0 x.lv).signExtend 64
      else BitVec.allOnes 64))) := by
  have divisor : (rightLane f x.rv 0).toNat = 0 := by simp [h]
  unfold dividing
  rw [onFiring_of_focus focus]
  simp only [bits_low x.lv, intRight_low, divisor, if_true]
  cases rem with
  | false => rw [if_neg (by decide), if_neg (by decide), sextWord_ones]
  | true => rw [if_pos rfl, if_pos rfl, sextWord_toNat]

theorem dividing_traps (whole : f.packed = false) (h : rightLane f x.rv 0 = 0) :
    dividing o f u false rem s = .next ((s.taken x).park x 0x05 (rightWhole f x.rv)) := by
  have divisor : (rightLane f x.rv 0).toNat = 0 := by simp [h]
  rw [← intRight_whole f x.rv whole]
  unfold dividing
  rw [onFiring_of_focus focus]
  simp only [intRight_low, divisor, if_true, Bool.false_eq_true, if_false]

end

/-- Settles O4: the quotient and the remainder are those of `BitVec`, whose signed division is the truncating
one; a zero divisor is found in the low bits of the right operand. -/
theorem divisionTruncatesAndTrapsOnZero : Obligations.DivisionTruncatesAndTrapsOnZero := by
  rintro s x o f u zdef focus whole a b rfl rfl
  refine ⟨fun h => ⟨?_, ?_⟩, fun h => ⟨dividing_zdef focus o u false h, dividing_zdef focus o u true h,
    dividing_traps focus o u false whole h, dividing_traps focus o u true whole h⟩⟩
  · rw [← ofNat_quotient, ← sextWord_eq]
    exact dividing_of_ne focus o u zdef false h
  · rw [← ofNat_remainder, ← sextWord_eq]
    exact dividing_of_ne focus o u zdef true h

end Sys2Proof.Machine

/-! # Saturating sums, R129 -/

namespace Sys2Proof.Machine

/-! ## Saturating sums, R129 -/

section
variable {w : Nat} (a b : BitVec w)

/-- The exact sum or difference clamped to the range of a lane. -/
def clampedSum (sub u : Bool) {w : Nat} (a b : BitVec w) : Int :=
  clampInt (exactSum sub u a b) (laneMin u w) (laneMax u w)

theorem satLane_eq (sub u : Bool) : satLane sub u w a.toNat b.toNat =
    ((BitVec.ofInt w (clampedSum sub u a b)).toNat,
      decide (clampedSum sub u a b ≠ exactSum sub u a b)) := by
  cases u <;> cases sub <;> simp [satLane, clampedSum, exactSum, laneInt, laneMin, laneMax,
    sextInt_toNat, lowBits_ofInt, Nat.mod_eq_of_lt a.isLt, Nat.mod_eq_of_lt b.isLt]

theorem clampInt_eq {i lo hi : Int} (h : lo ≤ hi) : clampInt i lo hi = max lo (min hi i) := by
  unfold clampInt
  split_ifs <;> omega

theorem laneMin_le_laneMax (w : Nat) (u : Bool) : laneMin u w ≤ laneMax u w :=
  (laneInt_range (0 : BitVec w) u).1.trans (laneInt_range (0 : BitVec w) u).2

theorem clampedSum_isClampedSum (h : 0 < w) (sub u : Bool) :
    IsClampedSum sub u a b (BitVec.ofInt w (clampedSum sub u a b)) := by
  have range := laneMin_le_laneMax w u
  unfold IsClampedSum clampedSum
  rw [clampInt_eq range, laneInt_ofInt h u] <;> omega

theorem clampedSum_ne_iff (sub u : Bool) :
    clampedSum sub u a b ≠ exactSum sub u a b ↔ Clamps sub u a b := by
  have range := laneMin_le_laneMax w u
  unfold Clamps clampedSum
  rw [clampInt_eq range]
  omega

end
theorem satFlag_of_mem {bs : List Bool} (h : true ∈ bs) : satFlag bs = 0x20 := by
  rw [satFlag, show bs.any id = true from List.any_eq_true.2 ⟨true, h, rfl⟩]
  rfl

theorem satFlag_of_not_mem {bs : List Bool} (h : true ∉ bs) : satFlag bs = 0 := by
  rw [satFlag, show bs.any id = false from List.any_eq_false.2 fun b hb eq => h (eq ▸ hb)]
  rfl

/-- Which lanes of a saturating sum clamp. -/
def clampedLanes (f : IntForm) (sub u : Bool) (x : Firing) : List Bool :=
  if f.packed then (List.zipWith (satLane sub u f.sz.bits) (lanesOf f.sz.bits x.lv)
    (lanesOf f.sz.bits (intRight f x.rv))).map Prod.snd
  else [(satLane sub u f.sz.bits (bits x.lv 0 f.sz.bits) (bits (intRight f x.rv) 0 f.sz.bits)).2]

theorem satWord_eq (f : IntForm) (sub u : Bool) (x : Firing) : satWord f sub u x =
    (intApply f (fun w a b => (satLane sub u w a b).1) x, satFlag (clampedLanes f sub u x)) := by
  unfold satWord intApply intMap2 clampedLanes
  split
  · simp only [List.map_zipWith]
  · rfl

theorem satLane_clamps {w : Nat} (sub u : Bool) (a b : BitVec w) :
    (satLane sub u w a.toNat b.toNat).2 = true ↔ Clamps sub u a b := by
  rw [satLane_eq, decide_eq_true_eq, clampedSum_ne_iff]

theorem mem_clampedLanes (f : IntForm) (sub u : Bool) (x : Firing) :
    true ∈ clampedLanes f sub u x ↔ ∃ k < (if f.packed then 64 / f.sz.bits else 1),
      Clamps sub u (lane f.sz.bits k x.lv) (rightLane f x.rv k) := by
  have right := intRight_lane f x.rv
  unfold clampedLanes
  split
  · next packed =>
    rw [if_pos packed] at right
    rw [List.map_zipWith, List.mem_iff_getElem]
    simp only [List.length_zipWith, lanesOf_length, min_self, List.getElem_zipWith, lanesOf_getElem,
      satLane_clamps]
    exact ⟨fun ⟨k, hk, h⟩ => ⟨k, hk, right k hk ▸ h⟩, fun ⟨k, hk, h⟩ => ⟨k, hk, right k hk ▸ h⟩⟩
  · rw [List.mem_singleton, eq_comm, bits_low, intRight_low, satLane_clamps]
    exact ⟨fun h => ⟨0, by decide, h⟩, fun ⟨k, hk, h⟩ => by
      obtain rfl : k = 0 := by omega
      exact h⟩

/-- Settles O5: each lane is the clamped sum, and SAT is raised where the list of the lanes that clamp has
one. -/
theorem saturatingSumsClampAndRaiseSat : Obligations.SaturatingSumsClampAndRaiseSat := by
  intro s x o f u focus sub
  refine ⟨_, _, gives2_intApply f (fun w a b => (satLane sub u w a b).1) x _ fun a b => ?_, ?_,
    fun clamps => satFlag_of_mem ((mem_clampedLanes f sub u x).2 clamps), fun none_clamps =>
    satFlag_of_not_mem fun clamps => ?_⟩
  · rw [satLane_eq, BitVec.ofNat_toNat, BitVec.setWidth_eq]
    exact clampedSum_isClampedSum a b (width_pos f.sz) sub u
  · have emits := computingFl_of_focus focus o fun _ => satWord f sub u
    rw [satWord_eq] at emits
    cases sub <;> exact emits
  · obtain ⟨k, hk, h⟩ := (mem_clampedLanes f sub u x).1 clamps
    exact none_clamps k hk h

end Sys2Proof.Machine

/-! # Addresses and fields, R131 to R135 -/

namespace Sys2Proof.Machine

theorem sextInt_bits_low (z : Width) (v : Word) :
    wordI (sextInt z.bits (bits v 0 z.bits)) = (lane z.bits 0 v).signExtend 64 := by
  rw [bits_low, sextInt_toNat]
  rfl

theorem word_bits (v : Word) (lo n : Nat) : word (bits v lo n) = (v.extractLsb' lo n).setWidth 64 := by
  rw [bits_eq, word, BitVec.ofNat_toNat]

theorem sextWord_bits (v : Word) (lo n : Nat) :
    sextWord n (bits v lo n) = (v.extractLsb' lo n).signExtend 64 := by
  rw [bits_eq, sextWord_toNat]

theorem wordI_add (i j : Int) : wordI (i + j) = wordI i + wordI j := BitVec.ofInt_add ..

theorem wordI_mul (i j : Int) : wordI (i * j) = wordI i * wordI j := BitVec.ofInt_mul ..

theorem wordI_two_pow (n : Nat) : wordI (2 ^ n) = BitVec.twoPow 64 n := by
  apply BitVec.eq_of_toNat_eq
  rw [BitVec.toNat_twoPow, wordI, BitVec.toNat_ofInt]
  norm_cast

theorem wordI_mul_two_pow (i : Int) (n : Nat) : wordI (i * 2 ^ n) = wordI i <<< n := by
  rw [wordI_mul, wordI_two_pow, BitVec.shiftLeft_eq_mul_twoPow]

theorem extrWord_zero (pos len : Nat) (v : Word) :
    extrWord pos len false v = (v.extractLsb' pos len).setWidth 64 := word_bits ..

theorem extrWord_sign (pos len : Nat) (v : Word) :
    extrWord pos len true v = (v.extractLsb' pos len).signExtend 64 := by
  unfold extrWord
  by_cases short : len < 64
  · simp only [short, decide_true, Bool.and_self, if_true, sextWord_bits]
  · rw [BitVec.signExtend_eq_setWidth_of_le _ (by omega), ← word_bits]
    simp [short]

theorem getLsbD_fieldMask (pos len : Nat) {k : Nat} (h : k < 64) :
    (fieldMask pos len).getLsbD k = decide (pos ≤ k ∧ k < pos + len) := by
  unfold fieldMask word
  rw [BitVec.getLsbD_ofNat, mul_comm, Nat.testBit_two_pow_mul, Nat.testBit_two_pow_sub_one]
  by_cases below : pos ≤ k <;> simp [h, below]
  omega

theorem inserted_getLsbD (l r : Word) (pos len : Nat) {k : Nat} (h : k < 64) :
    ((l &&& ~~~(fieldMask pos len)) ||| ((r <<< pos) &&& fieldMask pos len)).getLsbD k =
      if pos ≤ k ∧ k < pos + len then r.getLsbD (k - pos) else l.getLsbD k := by
  simp only [BitVec.getLsbD_or, BitVec.getLsbD_and, BitVec.getLsbD_not, BitVec.getLsbD_shiftLeft,
    getLsbD_fieldMask pos len h, h]
  by_cases inside : pos ≤ k ∧ k < pos + len
  · simp [inside]
  · simp [inside]

theorem word_joined {n : Nat} (a b : BitVec n) :
    word (a.toNat + b.toNat * 2 ^ n) = (b ++ a).setWidth 64 := by
  apply BitVec.eq_of_toNat_eq
  rw [BitVec.toNat_setWidth, BitVec.toNat_append, Nat.shiftLeft_eq, add_comm, mul_comm,
    Nat.two_pow_add_eq_or_of_lt a.isLt]
  rfl

theorem laneWord_zero (w k : Nat) (v : Word) : laneWord w k false v = (lane w k v).setWidth 64 :=
  word_bits ..

theorem laneWord_sign (w k : Nat) (v : Word) : laneWord w k true v = (lane w k v).signExtend 64 :=
  sextWord_bits ..

section
variable {s : State} {x : Firing} (focus : s.focus = .firing x) (o : Out)
include focus

theorem exec_lea (z : Width) (n : BitVec 3) : exec (.lea o z n) s =
    .next ((s.taken x).emitOut x o (Tok.data (x.lv + (lane z.bits 0 x.rv).signExtend 64 <<< n.toNat))) := by
  rw [← sextInt_bits_low, ← wordI_mul_two_pow]
  show execLea o z n s = _
  exact computing_of_focus focus o _

theorem exec_shape (z : Width) (m : BitVec 16) : exec (.shape o z m) s =
    .next ((s.taken x).emitOut x o (Tok.data ((lane z.bits 0 x.lv).signExtend 64 * m.setWidth 64 +
      (lane z.bits 0 x.rv).signExtend 64))) := by
  have factor : m.setWidth 64 = wordI m.toNat := by rw [wordI, BitVec.ofInt_natCast, BitVec.ofNat_toNat]
  rw [← sextInt_bits_low, ← sextInt_bits_low, factor, ← wordI_mul, ← wordI_add]
  show execShape o z m s = _
  exact computing_of_focus focus o _

theorem exec_pack (f : PackForm) : exec (.pack o f) s = .next ((s.taken x).emitOut x o (Tok.data
    ((lane f.sz.bits 0 x.rv ++ lane f.sz.bits 0 x.lv).setWidth 64))) := by
  rw [← word_joined, ← bits_low, ← bits_low]
  show execPack o f s = _
  exact computing_of_focus focus o _

theorem exec_unpk (z : Width) (k : BitVec 3) (sx : Bool) : exec (.unpk o z k sx) s =
    .next (((s.taken x).emit x o.ta (Tok.data (laneWord z.bits k.toNat sx x.lv))).emit x o.tb
      (Tok.data (laneWord z.bits (k.toNat + 1) sx x.lv))) := by
  show execUnpk o z k sx s = _
  exact onFiring_of_focus focus _

theorem exec_base (n : BitVec 4) : exec (.base o n) s =
    .next ((s.taken x).emitOut x o (Tok.data ((s.run x.run).args.getD n.toNat 0))) := by
  rw [List.getD_eq_getElem?_getD]
  show execBase o n s = _
  exact computing_of_focus focus o _

theorem exec_ins (pos len1 : BitVec 6) : exec (.ins o pos len1) s =
    .next ((s.taken x).emitOut x o (Tok.data
      ((x.lv &&& ~~~(fieldMask pos.toNat (len1.toNat + 1))) |||
        ((x.rv <<< pos.toNat) &&& fieldMask pos.toNat (len1.toNat + 1))))) := by
  show execIns o pos len1 s = _
  exact computing_of_focus focus o _

theorem exec_extr (pos len1 : BitVec 6) (sx : Bool) : exec (.extr o pos len1 sx) s =
    .next ((s.taken x).emitOut x o (Tok.data (extrWord pos.toNat (len1.toNat + 1) sx x.lv))) :=
  computing_of_focus focus o fun _ y => extrWord pos.toNat (len1.toNat + 1) sx y.lv

end

/-- Settles O6: each word by the lemma above on its result. -/
theorem addressAndFieldWordsEmitTheirResults : Obligations.AddressAndFieldWordsEmitTheirResults := by
  refine fun s x o focus => ⟨exec_lea focus o, exec_base focus o, exec_shape focus o,
    fun pos len1 _ => ⟨?_, ?_, _, exec_ins focus o pos len1, fun k => inserted_getLsbD _ _ _ _⟩,
    fun z rep _ => exec_pack focus o ⟨z, rep⟩, fun z k _ _ => ⟨?_, ?_⟩⟩
  · rw [exec_extr focus, extrWord_zero]
  · rw [exec_extr focus, extrWord_sign]
  · rw [exec_unpk focus, laneWord_zero, laneWord_zero]
  · rw [exec_unpk focus, laneWord_sign, laneWord_sign]

end Sys2Proof.Machine

/-! # Moves, constants and steering, R104 to R123 -/

namespace Sys2Proof.Machine

/-! ## Fields of described tokens, R114, R118 -/

theorem Kind.code_lt (k : Kind) : k.code < 8 := by cases k <;> decide

theorem word_field (n : Nat) {lo len : Nat} (h : lo + len ≤ 64) :
    ((word n).extractLsb' lo len).toNat = n / 2 ^ lo % 2 ^ len := by
  rw [BitVec.extractLsb'_toNat, word, BitVec.toNat_ofNat, Nat.shiftRight_eq_div_pow]
  apply Nat.eq_of_testBit_eq
  intro k
  simp only [Nat.testBit_mod_two_pow, Nat.testBit_div_two_pow]
  by_cases low : k < len
  · simp [low, show k + lo < 64 by omega]
  · simp [low]

theorem word_bit (n : Nat) {k : Nat} (h : k < 64) : (word n).getLsbD k = decide (n / 2 ^ k % 2 = 1) := by
  rw [word, BitVec.getLsbD_ofNat, Nat.testBit_eq_decide_div_mod_eq]
  simp [h]

theorem kindWord_fields (t : Tok) :
    ((kindWord t).extractLsb' 0 3).toNat = t.kind.code ∧
      ((kindWord t).extractLsb' 4 3).toNat = t.level % 8 ∧ (kindWord t).getLsbD 8 = t.rel ∧
      (kindWord t).getLsbD 9 = t.outside ∧ (kindWord t).getLsbD 3 = false ∧
      (kindWord t).getLsbD 7 = false ∧ (kindWord t).extractLsb' 10 54 = 0 := by
  have code := t.kind.code_lt
  have level := Nat.mod_lt t.level (by decide : 0 < 8)
  rw [← BitVec.toNat_inj]
  simp only [kindWord, word_field _ (by decide : 0 + 3 ≤ 64), word_field _ (by decide : 4 + 3 ≤ 64),
    word_field _ (by decide : 10 + 54 ≤ 64), word_bit _ (by decide : 3 < 64),
    word_bit _ (by decide : 7 < 64), word_bit _ (by decide : 8 < 64), word_bit _ (by decide : 9 < 64)]
  generalize t.kind.code = c at *
  generalize t.level % 8 = l at *
  cases t.rel <;> cases t.outside <;> simp <;> omega

/-- What ITERREAD gives of an identity in a context (R114). -/
def identityWord (ctx colour iter : Nat) : Word :=
  word (ctx % 64 * 2 ^ 26 + colour % 1024 * 2 ^ 16 + iter % 65536)

theorem identityWord_fields (ctx colour iter : Nat) :
    ((identityWord ctx colour iter).extractLsb' 0 16).toNat = iter % 65536 ∧
      ((identityWord ctx colour iter).extractLsb' 16 10).toNat = colour % 1024 ∧
      ((identityWord ctx colour iter).extractLsb' 26 6).toNat = ctx % 64 ∧
      (identityWord ctx colour iter).extractLsb' 32 32 = 0 := by
  rw [← BitVec.toNat_inj]
  simp only [identityWord, word_field _ (by decide : 0 + 16 ≤ 64),
    word_field _ (by decide : 16 + 10 ≤ 64), word_field _ (by decide : 26 + 6 ≤ 64),
    word_field _ (by decide : 32 + 32 ≤ 64), BitVec.ofNat_eq_ofNat, BitVec.toNat_zero]
  omega

section
variable {s : State} {x : Firing} (focus : s.focus = .firing x) (o : Out) (rep : BitVec 16)
include focus

theorem exec_constor : exec (.constor o rep) s =
    .next ((s.taken x).emitOut x o (Tok.data (x.lv.extractLsb' 0 48 ++ rep))) := by
  have joined : x.lv.extractLsb' 0 48 ++ rep = x.lv <<< 16 ||| rep.setWidth 64 := by
    apply BitVec.eq_of_getLsbD_eq
    intro k hk
    by_cases low : k < 16
    · simp only [BitVec.getLsbD_append, BitVec.getLsbD_or, BitVec.getLsbD_shiftLeft,
        BitVec.getLsbD_setWidth, BitVec.getLsbD_extractLsb', low, hk]
      simp
    · simp only [BitVec.getLsbD_append, BitVec.getLsbD_or, BitVec.getLsbD_shiftLeft,
        BitVec.getLsbD_setWidth, BitVec.getLsbD_extractLsb', low, hk]
      simp [show k - 16 < 48 by omega, BitVec.getLsbD_of_ge rep k (by omega)]
  rw [joined]
  show execConstor o rep s = _
  exact computing_of_focus focus o _

theorem exec_nullt : exec (.nullt o rep) s =
    .next ((s.taken x).emitOut x o (Tok.data (if x.lt.kind = .null then 1 else 0))) := by
  show execNullt o rep s = _
  exact computing_of_focus focus o _

theorem exec_select : exec (.select o rep) s = .next ((s.taken x).emitOut x o
    (if x.lt.kind = .null then (x.r.getD Tok.nul).carry else x.lt.carry)) := by
  show execSelect o rep s = _
  refine (onFiring_of_focus focus _).trans ?_
  by_cases null : x.lt.kind = .null <;> simp [null]

theorem exec_steer : exec (.steer o rep) s = .next ((s.taken x).steerTo x o (x.rv != 0)) := by
  show execSteer o rep s = _
  exact onFiring_of_focus focus _

theorem exec_steern : exec (.steern o rep) s = .next ((s.taken x).steerTo x o (x.rv == 0)) := by
  show execSteern o rep s = _
  exact onFiring_of_focus focus _

theorem exec_iter : exec (.iter o rep) s =
    .next ((s.taken x).emitTag x o ((x.iter + 1) % 65536)) := by
  show execIter o rep s = _
  exact onFiring_of_focus focus _

theorem exec_iterset : exec (.iterset o rep) s =
    .next ((s.taken x).emitTag x o (x.rv.extractLsb' 0 16).toNat) := by
  rw [← bits_eq]
  show execIterset o rep s = _
  exact onFiring_of_focus focus _

theorem exec_iterread : exec (.iterread o rep) s = .next ((s.taken x).emitOut x o
    (Tok.data (identityWord (s.run x.run).ctx x.colour x.iter))) := by
  show execIterread o rep s = _
  exact computing_of_focus focus o _

theorem exec_exit : exec (.exit o rep) s =
    .next (((s.taken x).countExit x).emitOut x o x.lt.carry) := by
  show execExit o rep s = _
  exact onFiring_of_focus focus _

theorem exec_kindq : exec (.kindq o rep) s = .next (((s.taken x).emit x o.ta
    (Tok.data (kindWord x.lt))).emit x o.tb (Tok.data x.lv)) := by
  show execKindq o rep s = _
  exact onFiring_of_focus focus _

theorem exec_retire : exec (.retire o rep) s =
    .next (((s.taken x).emit x o.ta (Tok.data 1)).emit x o.tb x.lt.carry) := by
  show execRetire o rep s = _
  exact onFiring_of_focus focus _

end

/-- Only an element that stands in a launch of the machine has activations. -/
theorem State.Has.of_act {s : State} {r k uid : Nat} {a : Act} (h : (s.elem r k).act uid = some a) :
    s.Has r k (s.elem r k) := by
  unfold State.elem State.run Tbl.get at *
  cases hr : s.runs.find r with
  | none =>
    rw [hr] at h
    cases h
  | some x =>
    cases hk : x.elems.find k with
    | none =>
      rw [hr, Option.getD_some, hk] at h
      cases h
    | some e => exact ⟨x, hr, by simp [hk]⟩

/-- An EXIT counts in its activation, where it is open (R110). -/
theorem State.countExit_act {s : State} {x : Firing} {a : Act}
    (h : (s.elem x.run x.elem).act x.act = some a) :
    ((s.countExit x).elem x.run x.elem).act x.act = some { a with exits := setBit a.exits x.slot } := by
  have there := State.Has.of_act h
  rw [State.countExit, State.editAct, (there.editElem _).elem_eq]
  exact Elem.act_editAct h fun _ => rfl

/-- Settles O7: each word's tokens by the lemma above on it; the EXIT counts in its activation before it
emits. -/
theorem movesAndConstantsEmitTheirTokens : Obligations.MovesAndConstantsEmitTheirTokens := by
  refine fun s x o rep focus => ⟨carrying_of_focus focus o, carrying_of_focus focus o,
    fun tc => onFiring_of_focus focus fun u y => (u.emitOut y o y.lt.carry).emit y tc y.lt.carry,
    computing_of_focus focus o fun _ _ => rep.signExtend 64, exec_constor focus o rep,
    fun null => ?_, fun other => ?_, ⟨_, exec_kindq focus o rep, kindWord_fields x.lt⟩,
    fun n => onFiring_of_focus focus fun u y => u.emitOut y o (Tok.stop n.toNat),
    exec_retire focus o rep, _, exec_exit focus o rep, fun a h => ⟨_, State.countExit_act h, ?_⟩⟩
  · rw [exec_nullt focus, if_pos null]
  · rw [exec_nullt focus, if_neg other]
  · simp [setBit, Nat.shiftLeft_eq]

/-- Settles O8: the two targets of a steering word by the truth of the right payload, the tag words by the
lemmas above. -/
theorem steeringRoutesLeftByRight : Obligations.SteeringRoutesLeftByRight := by
  refine fun s x o rep focus => ⟨fun some_bit => ⟨?_, ?_⟩, fun zero => ⟨?_, ?_⟩, fun l r hl hr => ?_,
    fun small => ?_, exec_iterset focus o rep, _, exec_iterread focus o rep, identityWord_fields ..⟩
  · rw [exec_steer focus, bne_iff_ne.2 some_bit]
    rfl
  · rw [exec_steern focus, beq_false_of_ne some_bit]
    rfl
  · rw [exec_steer focus, zero]
    rfl
  · rw [exec_steern focus, zero]
    rfl
  · rw [exec_select focus]
    simp [Firing.lt, hl, hr]
  · have next : (x.iter + 1) % 65536 = if x.iter = 65535 then 0 else x.iter + 1 := by
      split <;> omega
    rw [exec_iter focus, next]
    rfl

end Sys2Proof.Machine

/-! # Sending to a computed place, R111 to R113 -/

namespace Sys2Proof.Machine

/-! ## Places of a region, R111 -/

/-- A part of a launch covers a cluster of a die (R16). -/
def Part.Covers (p : Part) (die clu : Nat) : Prop :=
  p.die = die ∧ p.row ≤ clu / 4 ∧ clu / 4 < p.row + p.h ∧ p.col ≤ clu % 4 ∧ clu % 4 < p.col + p.w

theorem findCluster_eq_none (die clu : Nat) (ps : List Part) (n : Nat) :
    findCluster die clu ps n = none ↔ ∀ p ∈ ps, ¬ p.Covers die clu := by
  induction ps generalizing n with
  | nil => simp [findCluster]
  | cons p ps ih =>
    have here : (Decidable.decide (p.die = die) && p.row ≤ clu / 4 && clu / 4 < p.row + p.h &&
        p.col ≤ clu % 4 && clu % 4 < p.col + p.w) = true ↔ p.Covers die clu := by
      simp [Part.Covers, and_assoc]
    rw [findCluster, List.forall_mem_cons, ← here]
    split
    · next covers => simp [covers]
    · next apart => simp [apart, ih]

theorem State.destKey_eq_none (s : State) (r : Nat) (dest : Word) : s.destKey r dest = none ↔
    ∀ p ∈ (s.run r).parts,
      ¬ p.Covers (dest.extractLsb' 27 5).toNat (dest.extractLsb' 23 4).toNat := by
  rw [← bits_eq, ← bits_eq, ← findCluster_eq_none _ _ _ 0]
  unfold State.destKey
  cases findCluster (bits dest 27 5) (bits dest 23 4) (s.run r).parts 0 <;> simp

/-- Only a launch of the machine has a region. -/
theorem State.find_run_of_destKey {s : State} {r k : Nat} {dest : Word}
    (h : s.destKey r dest = some k) : s.runs.find r = some (s.run r) := by
  unfold State.destKey State.run Tbl.get at *
  cases hr : s.runs.find r with
  | some y => rfl
  | none =>
    rw [hr] at h
    cases h

/-! ## Sending, R112, R113 -/

section
variable {s : State} {x : Firing} {dest : Word}

theorem port_eq_three : bits dest 10 2 = 3 ↔ dest.extractLsb' 10 2 = 3 := by
  rw [bits_eq, ← BitVec.toNat_inj]
  rfl

theorem State.sendTo_outside (h : s.destKey x.run dest = none) (colour iter : Nat) (outer : Bool) :
    s.sendTo x dest colour iter outer = s.park x 0x04 dest := by
  simp only [State.sendTo, h]

theorem State.sendTo_badPort {k : Nat} (h : s.destKey x.run dest = some k)
    (port : dest.extractLsb' 10 2 = 3) (colour iter : Nat) (outer : Bool) :
    s.sendTo x dest colour iter outer = s.park x 0x01 dest := by
  simp only [State.sendTo, h, port_eq_three.2 port, if_true]

/-- The token that SEND and SENDX send to a place of their launch. -/
def State.sent (s : State) (x : Firing) (dest : Word) (k colour iter : Nat) (outer : Bool) : Flit :=
  ⟨x.run, x.elem, k, (dest.extractLsb' 12 5).toNat, (dest.extractLsb' 10 2).toNat,
    (s.run x.run).ctx, colour, iter, x.lt.carry, none, true, outer⟩

theorem State.sendTo_injects {k : Nat} (h : s.destKey x.run dest = some k)
    (port : dest.extractLsb' 10 2 ≠ 3) (colour iter : Nat) (outer : Bool) :
    Injects s (s.sendTo x dest colour iter outer) (s.sent x dest k colour iter outer) := by
  have goes : s.sendTo x dest colour iter outer = s.inject (s.sent x dest k colour iter outer) := by
    simp only [State.sendTo, h, mt port_eq_three.1 port, if_false, State.sent, ← bits_eq]
  rw [goes]
  exact State.inject_injects (State.find_run_of_destKey h)

end

section
variable {s : State} {x : Firing} (focus : s.focus = .firing x) (pred : Bool) (rep : BitVec 16)
include focus

theorem exec_send : exec (.send pred rep) s =
    .next ((s.taken x).sendTo x x.rv x.colour x.iter false) := by
  show execSend pred rep s = _
  exact onFiring_of_focus focus _

theorem exec_sendx : exec (.sendx pred rep) s = .next
    (if s.isOwnDevice (x.rv.extractLsb' 56 8).toNat then (s.taken x).sendTo x x.rv
      (x.rv.extractLsb' 0 10).toNat (x.rv.extractLsb' 32 16).toNat true
    else if x.rv.extractLsb' 10 2 = 3 then (s.taken x).park x 0x01 x.rv
    else if s.routed (x.rv.extractLsb' 56 8).toNat then (s.taken x).sendFarToken x x.rv x.lt.carry
    else (s.taken x).park x 0x10 x.rv) := by
  simp only [← bits_eq, ← port_eq_three]
  show execSendx pred rep s = _
  exact onFiring_of_focus focus _

end

/-! ## Tokens of other devices, R113 -/

/-- Taint leaves the far requests of every context alone. -/
theorem State.find_taint_far {s : State} {d : Nat} {c : Ctx} (hc : s.ctxs.find d = some c)
    (r n : Nat) : ∃ y, (s.taint r n).ctxs.find d = some y ∧ y.far = c.far := by
  unfold State.taint
  split
  · dsimp only [State.editColour, State.editCtx]
    rw [Tbl.find_edit]
    split
    · next same =>
      rw [← same, hc]
      exact ⟨_, rfl, rfl⟩
    · exact ⟨c, hc, rfl⟩
  · exact ⟨c, hc, rfl⟩

theorem State.taint_nextId (s : State) (r n : Nat) : (s.taint r n).nextId = s.nextId := by
  unfold State.taint
  split <;> rfl

theorem State.taint_flits (s : State) (r n : Nat) : (s.taint r n).flits = s.flits := by
  unfold State.taint
  split <;> rfl

theorem State.ctx_addFar_self {s : State} {d : Nat} {c : Ctx} (hc : s.ctxs.find d = some c)
    (w : FarWait) : ((s.addFar d w).ctx d).far.waiting = c.far.waiting.put s.nextId w :=
  congrArg (fun y => y.far.waiting) (State.ctx_editCtx_self (s := s.takeId.2) hc _)

/-- A token for another device waits for the window of its context (R113, R373). -/
theorem State.sendFarToken_waits {s : State} {x : Firing} {c : Ctx}
    (hc : s.ctxs.find (s.run x.run).ctx = some c) (dest : Word) (t : Tok) :
    ∃ w, ((s.sendFarToken x dest t).ctx (s.run x.run).ctx).far.waiting =
        c.far.waiting.put s.nextId w ∧
      w.packet.dst = (dest.extractLsb' 56 8).toNat ∧
      w.packet.body = .token dest t.val (farTokenBits (s.run x.run).ctx dest t) ∧
      (s.sendFarToken x dest t).flits = s.flits ∧ (s.sendFarToken x dest t).mem = s.mem := by
  obtain ⟨y, hy, far⟩ := State.find_taint_far hc x.run x.colour
  refine ⟨⟨s.packetTo (s.run x.run).ctx (bits dest 56 8)
    (.token dest t.val (farTokenBits (s.run x.run).ctx dest t)), true, 0, some (x, ⟨none, none, false⟩)⟩,
    ?_, bits_eq dest 56 8, rfl, State.taint_flits .., (State.taint_same ..).mem⟩
  unfold State.sendFarToken
  rw [State.ctx_addFar_self hy, far, State.taint_nextId]

theorem Firing.carry_val (x : Firing) : x.lt.carry.val = x.lv := by
  unfold Firing.lt Firing.lv Tok.carry
  cases x.l <;> rfl

/-- Settles O10: the cases of `State.sendTo` by the place and the port, and those of SENDX by the device. -/
theorem sendInjectsOneTokenOrTraps : Obligations.SendInjectsOneTokenOrTraps := by
  intro s x pred rep focus
  have send := exec_send focus pred rep
  have sendx := exec_sendx focus pred rep
  refine ⟨s.destKey_eq_none x.run x.rv, fun out => ⟨?_, fun own => ?_⟩,
    fun k place port => ⟨?_, fun own => ?_⟩, fun k place port =>
    ⟨_, _, send, State.sendTo_injects (s := s.taken x) place port .., fun own => ⟨?_,
      State.sendTo_injects (s := s.taken x) place port ..⟩⟩,
    fun other => ⟨fun port => ?_, fun port lost => ?_, fun port routed c hc => ?_⟩⟩
  · rw [send, State.sendTo_outside (s := s.taken x) out]
  · rw [sendx, if_pos own, State.sendTo_outside (s := s.taken x) out]
  · rw [send, State.sendTo_badPort (s := s.taken x) place port]
  · rw [sendx, if_pos own, State.sendTo_badPort (s := s.taken x) place port]
  · rw [sendx, if_pos own]
  · rw [sendx, other, if_neg (by decide), if_pos port]
  · rw [sendx, other, lost, if_neg (by decide), if_neg port, if_neg (by decide)]
  · obtain ⟨w, waits, dst, body, flits, mem⟩ :=
      State.sendFarToken_waits (s := s.taken x) (x := x) hc x.rv x.lt.carry
    rw [Firing.carry_val] at body
    rw [sendx, other, routed, if_neg (by decide), if_neg port, if_pos rfl]
    exact ⟨_, w, rfl, waits, dst, body, flits, mem⟩

end Sys2Proof.Machine

/-! # Colours and throttles, R115 to R122 -/

namespace Sys2Proof.Machine

/-! ## A name behind more aliases than are followed -/

/-- A colour in use that a replay has replaced by another (R397). -/
def replacedBy (n : Nat) : Colour := { Colour.fresh with state := .allocated, alias_ := some n }

/-- A context in which each of the colours 1 to 5 has been replaced by the next. -/
def chainedCtx : Ctx := { (default : Ctx) with
  colours := [(1, replacedBy 2), (2, replacedBy 3), (3, replacedBy 4), (4, replacedBy 5),
    (5, replacedBy 6), (6, { Colour.fresh with state := .allocated })] }

/-- A firing, of no open activation, that names colour 1. -/
def naming : Firing := ⟨0, 2, 0, 1, 0, 0, some (Tok.data 1), none, none⟩

/-- A launch with one lace element, at site 2 of cluster 0. -/
def oneElem : Run := { (default : Run) with elems := [(2, Elem.cleared)] }

/-- The device with that launch, context and firing, before a COLFREE of the firing. -/
def chained : State := { State.reset with
  focus := .firing naming
  runs := [(0, oneElem)]
  ctxs := [(0, chainedCtx)] }

theorem stands_naming : Stands chained naming oneElem Elem.cleared := ⟨rfl, rfl⟩

/-- What the COLFREE leaves: the release of colour 5 is requested, and colour 6 is draining. -/
def drained : State :=
  ((chained.taken naming).editColour 0 5 fun y => { y with release := true }).editCtx 0 fun y =>
    y.drain [5]

theorem exec_colfree_chained :
    exec (.colfree ⟨none, none, false⟩ 0) chained = .next drained := rfl

/-- Refutes O11: its clause on COLFREE does not ask that the aliases of a name end within the four that
`Ctx.resolve` follows.  In `chained`, colour 1 stands for colour 5, which colour 6 has replaced; the release
request is made for colour 5 and, as it takes effect, followed on to colour 6, so colour 5 is not draining.
Replays leave at most three aliases (R397), so the state is not one that a run reaches. -/
theorem not_coloursAndThrottlesFollowTheirPoolAndWindow :
    ¬ Obligations.ColoursAndThrottlesFollowTheirPoolAndWindow := by
  rintro ⟨pool, -⟩
  obtain ⟨-, named, -⟩ := pool chained naming ⟨none, none, false⟩ 0 _ _ chainedCtx rfl stands_naming rfl
  obtain ⟨-, frees, -, -⟩ := named 5 (by decide)
  obtain ⟨u, next, -, trailing, -⟩ := frees (by decide) (by decide) (by decide)
  rw [exec_colfree_chained] at next
  obtain rfl : drained = u := Host.Outcome.next.inj next
  have state : (drained.ctx 0).colour 5 = { replacedBy 6 with release := true } := by decide
  have draining := trailing fun a open_ => by cases open_
  rw [show oneElem.ctx = 0 from rfl, state] at draining
  cases draining

end Sys2Proof.Machine

/-! # Emission target by target

A token word emits one token after the other to its targets, in the order of `targetsOf`, from a
state in which its firing has at most counted an EXIT or raised flags. -/

namespace Sys2Proof.Machine

/-- A firing has sent one token after the other to some targets, in their order. -/
inductive EmitsTo (x : Firing) : List (Option Target) → State → State → Prop
  | done (u : State) : EmitsTo x [] u u
  | send {g : Option Target} {gs : List (Option Target)} {u t : State} {tok : Tok} {colour iter : Nat}
      (rest : EmitsTo x gs (u.emitAs x g tok colour iter) t) : EmitsTo x (g :: gs) u t

/-- Where a token word begins to emit; only one that may raise flags has raised some. -/
inductive Begins (s : State) (x : Firing) (flags : Bool) : State → Prop
  | taken : Begins s x flags (s.taken x)
  | exited : Begins s x flags ((s.taken x).countExit x)
  | raised (fl : Nat) (may : flags = true) : Begins s x flags ((s.taken x).raise x fl)

theorem Begins.emits {s u : State} {x : Firing} {flags : Bool} (h : Begins s x flags u) :
    Emits s x u := by
  cases h with
  | taken => exact .inl rfl
  | exited => exact .inr (.inl rfl)
  | raised fl _ => exact .inr (.inr (.inl ⟨fl, rfl⟩))

/-- The next state of an outcome, if there is one, is that of a word which emits to some targets. -/
def Result.EmitsTo (s : State) (x : Firing) (flags : Bool) (gs : List (Option Target)) (r : Result) :
    Prop :=
  ∀ t, r = .next t → ∃ u, Begins s x flags u ∧ Machine.EmitsTo x gs u t

section
variable {s : State} {x : Firing} {flags : Bool} {o : Out}

theorem EmitsTo.emitOut {u : State} {tok : Tok} :
    EmitsTo x [o.ta, o.tb, none] u (u.emitOut x o tok) :=
  .send (.send (.send (tok := tok) (colour := 0) (iter := 0) (.done _)))

theorem EmitsTo.emitTag {u : State} {n : Nat} :
    EmitsTo x [o.ta, o.tb, none] u (u.emitTag x o n) :=
  .send (.send (.send (tok := Tok.nul) (colour := 0) (iter := 0) (.done _)))

theorem EmitsTo.emit2 {u : State} {t1 t2 : Tok} :
    EmitsTo x [o.ta, o.tb, none] u ((u.emit x o.ta t1).emit x o.tb t2) :=
  .send (.send (.send (tok := Tok.nul) (colour := 0) (iter := 0) (.done _)))

theorem EmitsTo.emit3 {u : State} {c : Option Target} {tok : Tok} :
    EmitsTo x [o.ta, o.tb, c] u ((u.emitOut x o tok).emit x c tok) :=
  .send (.send (.send (.done _)))

theorem EmitsTo.steerTo {u : State} {first : Bool} :
    EmitsTo x [o.ta, o.tb, none] u (u.steerTo x o first) := by
  cases first <;> exact .emit2

variable (focus : s.focus = .firing x)
include focus

theorem Result.EmitsTo.onFiring {gs : List (Option Target)} {k : State → Firing → State}
    (h : ∃ u, Begins s x flags u ∧ Machine.EmitsTo x gs u (k (s.taken x) x)) :
    Result.EmitsTo s x flags gs (onFiring s k) := by
  intro t next
  rw [onFiring_of_focus focus] at next
  cases next
  exact h

theorem Result.EmitsTo.computing {v : State → Firing → Word} :
    Result.EmitsTo s x flags [o.ta, o.tb, none] (computing o v s) :=
  .onFiring focus ⟨_, .taken, .emitOut⟩

theorem Result.EmitsTo.carrying : Result.EmitsTo s x flags [o.ta, o.tb, none] (carrying o s) :=
  .onFiring focus ⟨_, .taken, .emitOut⟩

theorem Result.EmitsTo.computingFl {v : State → Firing → Word × Nat} :
    Result.EmitsTo s x true [o.ta, o.tb, none] (computingFl o v s) :=
  .onFiring focus ⟨_, .raised _ rfl, .emitOut⟩

theorem Result.EmitsTo.fltBinary {f : FltForm} {g : FSpec → RMode → FVal → FVal → Nat × Nat} :
    Result.EmitsTo s x true [o.ta, o.tb, none] (fltBinary o f g s) :=
  .computingFl focus

theorem Result.EmitsTo.fltUnary {fmt : FloatFmt} {rnd : Rounding}
    {g : FSpec → RMode → FVal → Nat × Nat} :
    Result.EmitsTo s x true [o.ta, o.tb, none] (fltUnary o fmt rnd g s) :=
  .computingFl focus

theorem exec_emitsTo {i : Instr} (token : isTokenWord i = true) :
    Result.EmitsTo s x (raisesFlags i) (targetsOf i) (exec i s) := by
  unfold exec
  cases i with
  | mov | gate => exact .carrying focus
  | mov3 => exact .onFiring focus ⟨_, .taken, .emit3⟩
  | const | constor | nullt | iterread | add | sub | mul | mulh | and | or | xor | andn | shl
  | shr | sar | rol | min | max | abs | neg | clz | popc | brev | cmp | test | lea | base | shape
  | extr | ins | pack | fsgn | fclass | cycle | rds | flags | site | perf => exact .computing focus
  | steer | steern => exact .onFiring focus ⟨_, .taken, .steerTo⟩
  | select | stopt => exact .onFiring focus ⟨_, .taken, .emitOut⟩
  | iter | iterset => exact .onFiring focus ⟨_, .taken, .emitTag⟩
  | kindq | retire | unpk => exact .onFiring focus ⟨_, .taken, .emit2⟩
  | exit => exact .onFiring focus ⟨_, .exited, .emitOut⟩
  | adds | subs | fma | fmin | fmax | fcmp | fcvt | ftoi | itof => exact .computingFl focus
  | fadd | fsub | fmul | fdiv => exact .fltBinary focus
  | fsqrt | fexp2 | flog2 | frcp | frsq | fsinp | fcosp => exact .fltUnary focus
  | _ => cases token

end

end Sys2Proof.Machine

/-! # What a token's way leaves alone

`Calm flags r s t`: on the way from `s` to `t`, on behalf of launch `r`, no register of the device, no other
launch and no register of a context has changed, but for what a cancelled launch takes with it and, with
`flags`, for flags that were added.  `Quiet flags r s t`: memory has not changed either, and the elements of
the launch keep their hold registers and the free ways of their matching stores. -/

namespace Sys2Proof.Machine

/-! ## Contexts and launches -/

theorem FarState.without_nil (f : FarState) : f.without [] = f := by
  simp [FarState.without]

theorem FarState.without_append (f : FarState) (gone more : List Nat) :
    f.without (gone ++ more) = (f.without gone).without more := by
  simp [FarState.without, List.filter_filter, Bool.and_comm]

theorem Run.dropSeeds_nil (x : Run) : x.dropSeeds [] = x := by
  simp [Run.dropSeeds]

theorem Run.dropSeeds_append (x : Run) (gone more : List Nat) :
    x.dropSeeds (gone ++ more) = (x.dropSeeds gone).dropSeeds more := by
  simp [Run.dropSeeds, List.filter_filter, Bool.and_comm, Function.comp_def]

/-- The registers of a context are those of another, but for flags that a word which may raise some has
added; its pool, its waiting requests and the far requests of cancelled launches are no registers. -/
def Ctx.Like (flags : Bool) (c d : Ctx) : Prop :=
  ∃ cols waits gone fl, (flags = false → fl = 0) ∧
    d = { c with
      colours := cols
      waiting := waits
      far := c.far.without gone
      regs := { c.regs with flags := c.regs.flags ||| fl } }

section
variable {flags : Bool} {c d e : Ctx}

/-- No register has changed. -/
theorem Ctx.Like.of_pool {cols : Tbl Colour} {waits : List ColWait} (gone : List Nat)
    (h : d = { c with colours := cols, waiting := waits, far := c.far.without gone }) :
    c.Like flags d :=
  ⟨cols, waits, gone, 0, fun _ => rfl, by rw [h, Nat.or_zero]⟩

theorem Ctx.Like.refl (c : Ctx) : c.Like flags c := .of_pool [] (by rw [FarState.without_nil])

theorem Ctx.Like.trans (h : c.Like flags d) (k : d.Like flags e) : c.Like flags e := by
  obtain ⟨_, _, gone, fl, none, rfl⟩ := h
  obtain ⟨cols, waits, more, fm, none', rfl⟩ := k
  exact ⟨cols, waits, gone ++ more, fl ||| fm, fun silent => by rw [none silent, none' silent]; rfl,
    by rw [FarState.without_append, Nat.or_assoc]⟩

theorem Ctx.withdraw_eq (c : Ctx) (cs : List Nat) : ∃ cols, c.withdraw cs = { c with colours := cols } := by
  unfold Ctx.withdraw
  induction cs generalizing c with
  | nil => exact ⟨c.colours, rfl⟩
  | cons n cs ih =>
    obtain ⟨cols, rest⟩ := ih (c.editColour (c.resolve n) fun x => { x with release := false })
    exact ⟨cols, rest⟩

/-- What a cancel of a launch leaves of its context (R346). -/
theorem Ctx.Like.cut (c : Ctx) (cs gone : List Nat) (r p : Nat) :
    c.Like flags { (c.withdraw cs).freeColoursOf r p with far := c.far.without gone } := by
  obtain ⟨cols, withdrawn⟩ := c.withdraw_eq cs
  rw [withdrawn]
  exact .of_pool gone rfl

end

/-! ## Elements -/

/-- An element has the hold registers of another, and its matching store has all the free ways. -/
structure Elem.Like (e f : Elem) : Prop where
  holds : f.holds = e.holds
  ways : ∀ n, e.HasWays n → f.HasWays n

theorem Elem.Like.refl (e : Elem) : e.Like e := ⟨rfl, fun _ h => h⟩

theorem Elem.Like.trans {e f g : Elem} (h : e.Like f) (k : f.Like g) : e.Like g :=
  ⟨k.holds.trans h.holds, fun n ways => k.ways n (h.ways n ways)⟩

theorem Elem.HasWays.of_waiting {e f : Elem} {n : Nat} (same : f.waiting = e.waiting)
    (h : e.HasWays n) : f.HasWays n := by
  unfold Elem.HasWays Elem.inSet Elem.setSpills at *
  rwa [same]

theorem Elem.Like.of_eq {e f : Elem} (holds : f.holds = e.holds) (waiting : f.waiting = e.waiting) :
    e.Like f := ⟨holds, fun _ => .of_waiting waiting⟩

theorem Elem.Like.cancelled (e : Elem) : e.Like e.cancelled :=
  ⟨rfl, fun _ h m => ⟨(Nat.add_le_add_right (Nat.zero_le _) _).trans (h m).1, rfl⟩⟩

/-- A launch has an element like each element of another. -/
def Run.Like (x y : Run) : Prop := ∀ k, (x.elems.get k).Like (y.elems.get k)

theorem Run.Like.of_elems {x y : Run} (same : y.elems = x.elems) : x.Like y :=
  fun k => by rw [same]; exact .refl _

theorem Run.Like.trans {x y z : Run} (h : x.Like y) (k : y.Like z) : x.Like z :=
  fun j => (h j).trans (k j)

theorem Tbl.find_map {α β : Type} (t : Tbl α) (g : Nat → α → β) (n : Nat) :
    Tbl.find (t.map fun q => (q.1, g q.1 q.2)) n = (t.find n).map (g n) := by
  induction t with
  | nil => rfl
  | cons q t ih =>
    rw [List.map_cons, Tbl.find, Tbl.find]
    split
    · next same => rw [← same]; rfl
    · exact ih

/-- An entry after a map of a table. -/
theorem Tbl.get_map {α : Type} [Inhabited α] (t : Tbl α) {g : Nat → α → α} (n : Nat)
    (none : g n default = default) :
    Tbl.get (t.map fun q => (q.1, g q.1 q.2)) n = g n (t.get n) := by
  unfold Tbl.get
  rw [Tbl.find_map]
  cases t.find n with
  | none => exact none.symm
  | some v => rfl

theorem Run.Like.edit {x : Run} {k : Nat} {f : Elem → Elem} (h : ∀ e : Elem, e.Like (f e)) :
    x.Like { x with elems := x.elems.edit k f } := by
  intro j
  rcases Tbl.get_edit x.elems k j f with same | ⟨rfl, edited⟩
  · exact same ▸ .refl _
  · exact edited ▸ h _

theorem Run.Like.dropSeeds (x : Run) (gone : List Nat) : x.Like (x.dropSeeds gone) := by
  intro k
  unfold Run.dropSeeds
  rw [Tbl.get_map (g := fun _ e => { e with
    seeds := e.seeds.filter fun d => !gone.contains d.colour }) x.elems k rfl]
  exact .of_eq rfl rfl

theorem Run.Like.cancelPart (x : Run) (p : Nat) : x.Like (x.cancelPart p) := by
  unfold Run.cancelPart
  split
  · exact .of_elems rfl
  · intro k
    have each (q : Nat × Elem) :
        (if Decidable.decide (partOf q.1 = p) = true then (q.1, q.2.cancelled) else q) =
          (q.1, if partOf q.1 = p then q.2.cancelled else q.2) := by
      simp only [decide_eq_true_eq]
      split <;> rfl
    simp only [each]
    rw [Tbl.get_map (g := fun j e => if partOf j = p then e.cancelled else e) x.elems k (ite_self _)]
    split
    · exact .cancelled _
    · exact .refl _

/-! ## The relations -/

/-- No register outside launch `r` has changed, but for flags where `flags` allows some. -/
structure Calm (flags : Bool) (r : Nat) (s t : State) : Prop where
  life : t.life = s.life
  dies : t.dies = s.dies
  queues : t.queues = s.queues
  links : t.links = s.links
  owners : t.owners = s.owners
  quarantine : t.quarantine = s.quarantine
  tlb : t.tlb = s.tlb
  tlbinv : t.tlbinv = s.tlbinv
  cycle : t.cycle = s.cycle
  runs : ∀ q, q ≠ r → ∃ gone, t.run q = (s.run q).dropSeeds gone
  ctxs : ∀ c, (s.ctx c).Like flags (t.ctx c)

/-- Nor has memory, nor a hold register or a free way of an element of the launch. -/
structure Quiet (flags : Bool) (r : Nat) (s t : State) : Prop extends Calm flags r s t where
  mem : t.mem = s.mem
  side : t.side = s.side
  elems : (s.run r).Like (t.run r)

section
variable {flags : Bool} {r : Nat} {s t u : State}

theorem Calm.of_same (runs : t.runs = s.runs) (ctxs : t.ctxs = s.ctxs)
    (device : t.life = s.life ∧ t.dies = s.dies ∧ t.queues = s.queues ∧ t.links = s.links ∧
      t.owners = s.owners ∧ t.quarantine = s.quarantine ∧ t.tlb = s.tlb ∧ t.tlbinv = s.tlbinv ∧
      t.cycle = s.cycle) : Calm flags r s t := by
  obtain ⟨life, dies, queues, links, owners, quarantine, tlb, tlbinv, cycle⟩ := device
  have run (q : Nat) : t.run q = s.run q := congrArg (Tbl.get · q) runs
  have ctx (c : Nat) : t.ctx c = s.ctx c := congrArg (Tbl.get · c) ctxs
  exact ⟨life, dies, queues, links, owners, quarantine, tlb, tlbinv, cycle,
    fun q _ => ⟨[], (run q).trans (Run.dropSeeds_nil _).symm⟩, fun c => ctx c ▸ .refl _⟩

/-- What changes neither a launch, a context nor memory. -/
theorem Quiet.of_same (runs : t.runs = s.runs) (ctxs : t.ctxs = s.ctxs)
    (store : t.mem = s.mem ∧ t.side = s.side) (device : t.life = s.life ∧ t.dies = s.dies ∧
      t.queues = s.queues ∧ t.links = s.links ∧ t.owners = s.owners ∧ t.quarantine = s.quarantine ∧
      t.tlb = s.tlb ∧ t.tlbinv = s.tlbinv ∧ t.cycle = s.cycle) : Quiet flags r s t :=
  ⟨.of_same runs ctxs device, store.1, store.2,
    .of_elems (congrArg (fun x : Tbl Run => (x.get r).elems) runs)⟩

theorem Quiet.refl (s : State) : Quiet flags r s s :=
  .of_same rfl rfl ⟨rfl, rfl⟩ ⟨rfl, rfl, rfl, rfl, rfl, rfl, rfl, rfl, rfl⟩

theorem Calm.trans (h : Calm flags r s t) (k : Calm flags r t u) : Calm flags r s u where
  life := k.life.trans h.life
  dies := k.dies.trans h.dies
  queues := k.queues.trans h.queues
  links := k.links.trans h.links
  owners := k.owners.trans h.owners
  quarantine := k.quarantine.trans h.quarantine
  tlb := k.tlb.trans h.tlb
  tlbinv := k.tlbinv.trans h.tlbinv
  cycle := k.cycle.trans h.cycle
  runs q hq := by
    obtain ⟨gone, first⟩ := h.runs q hq
    obtain ⟨more, second⟩ := k.runs q hq
    exact ⟨gone ++ more, by rw [second, first, Run.dropSeeds_append]⟩
  ctxs c := (h.ctxs c).trans (k.ctxs c)

theorem Quiet.trans (h : Quiet flags r s t) (k : Quiet flags r t u) : Quiet flags r s u :=
  ⟨h.toCalm.trans k.toCalm, k.mem.trans h.mem, k.side.trans h.side, h.elems.trans k.elems⟩

/-- The same, the last step first. -/
theorem Quiet.after (k : Quiet flags r t u) (h : Quiet flags r s t) : Quiet flags r s u := h.trans k

theorem Quiet.ite {p : Prop} [Decidable p] {a b : State} (ha : Quiet flags r s a)
    (hb : Quiet flags r s b) : Quiet flags r s (if p then a else b) :=
  iteInduction (fun _ => ha) fun _ => hb

/-! ## Edits -/

/-- A change of the launch that leaves its elements like those before. -/
theorem Quiet.editRun {f : Run → Run} (h : ∀ x : Run, x.Like (f x)) :
    Quiet flags r s (s.editRun r f) := by
  refine ⟨⟨rfl, rfl, rfl, rfl, rfl, rfl, rfl, rfl, rfl,
    fun q hq => ⟨[], (Tbl.get_edit_ne s.runs f hq).trans (Run.dropSeeds_nil _).symm⟩,
    fun _ => .refl _⟩, rfl, rfl, ?_⟩
  rcases Tbl.get_edit s.runs r r f with same | ⟨-, edited⟩
  · exact (congrArg (s.run r).Like same).mpr (.of_elems rfl)
  · exact (congrArg (s.run r).Like edited).mpr (h _)

theorem Quiet.editElem {k : Nat} {f : Elem → Elem} (h : ∀ e : Elem, e.Like (f e)) :
    Quiet flags r s (s.editElem r k f) :=
  .editRun fun _ => .edit h

theorem Quiet.editCtx {c : Nat} {f : Ctx → Ctx} (h : ∀ y : Ctx, y.Like flags (f y)) :
    Quiet flags r s (s.editCtx c f) := by
  refine ⟨⟨rfl, rfl, rfl, rfl, rfl, rfl, rfl, rfl, rfl, fun _ _ => ⟨[], (Run.dropSeeds_nil _).symm⟩,
    fun d => ?_⟩, rfl, rfl, .of_elems rfl⟩
  rcases Tbl.get_edit s.ctxs c d f with same | ⟨-, edited⟩
  · exact (congrArg ((s.ctx d).Like flags) same).mpr (.refl _)
  · exact (congrArg ((s.ctx d).Like flags) edited).mpr (h _)

theorem Quiet.takeId : Quiet flags r s s.takeId.2 :=
  .of_same rfl rfl ⟨rfl, rfl⟩ ⟨rfl, rfl, rfl, rfl, rfl, rfl, rfl, rfl, rfl⟩

theorem Quiet.addFlit {n : Nat} {f : Flit} : Quiet flags r s (s.addFlit n f) :=
  .of_same rfl rfl ⟨rfl, rfl⟩ ⟨rfl, rfl, rfl, rfl, rfl, rfl, rfl, rfl, rfl⟩

theorem Quiet.editJob {j : Nat} {f : Job → Job} : Quiet flags r s (s.editJob j f) :=
  .of_same rfl rfl ⟨rfl, rfl⟩ ⟨rfl, rfl, rfl, rfl, rfl, rfl, rfl, rfl, rfl⟩

/-! ## Traps, R163, R346 -/

theorem Quiet.present {t : TrapRec} : Quiet flags r s (s.present r t) := by
  unfold State.present
  dsimp only
  split
  · exact .editRun fun _ => .of_elems rfl
  · exact .after .addFlit (.after .takeId (.editRun fun _ => .of_elems rfl))

theorem Quiet.presentNext : Quiet flags r s (s.presentNext r) := by
  unfold State.presentNext
  dsimp only
  split
  · exact .ite (.refl s) (.after .present (.editRun fun _ => .of_elems rfl))
  · exact .refl s

/-- Seed records go in the launches of a context. -/
theorem Quiet.dropSeeds (c : Nat) (gone : List Nat) : Quiet flags r s { s with
    runs := s.runs.map fun q : Nat × Run => (q.1, if q.2.ctx = c then q.2.dropSeeds gone else q.2) } := by
  have run (q : Nat) : Tbl.get (s.runs.map fun q : Nat × Run =>
      (q.1, if q.2.ctx = c then q.2.dropSeeds gone else q.2)) q =
      if (s.run q).ctx = c then (s.run q).dropSeeds gone else s.run q :=
    Tbl.get_map (g := fun _ x => if x.ctx = c then x.dropSeeds gone else x) s.runs q (ite_self _)
  refine ⟨⟨rfl, rfl, rfl, rfl, rfl, rfl, rfl, rfl, rfl, fun q _ => ?_, fun _ => .refl _⟩, rfl, rfl,
    ?_⟩
  · by_cases here : (s.run q).ctx = c
    · exact ⟨gone, (run q).trans (if_pos here)⟩
    · exact ⟨[], (run q).trans ((if_neg here).trans (Run.dropSeeds_nil _).symm)⟩
  · refine (congrArg (s.run r).Like (run r)).mpr ?_
    split
    · exact .dropSeeds _ gone
    · exact .of_elems rfl

theorem Quiet.cancelPart {p : Nat} : Quiet flags r s (s.cancelPart r p) := by
  unfold State.cancelPart
  dsimp only
  refine .ite (.refl s) (.after .presentNext (.after (.editCtx fun c => .cut c _ _ r p) (.after ?_
    (.after (.dropSeeds (s.run r).ctx ((s.ctx (s.run r).ctx).coloursOf r p))
      (.editRun fun x => .cancelPart x p)))))
  exact .of_same rfl rfl ⟨rfl, rfl⟩ ⟨rfl, rfl, rfl, rfl, rfl, rfl, rfl, rfl, rfl⟩

theorem Quiet.cancelByTrap {t : TrapRec} {double : Bool} : Quiet flags r s (s.cancelByTrap r t double) := by
  unfold State.cancelByTrap
  exact .after .cancelPart .editJob

theorem Quiet.trap {t : TrapRec} : Quiet flags r s (s.trap r t) := by
  have counted : Quiet flags r s (s.editRun r fun y => { y with trapSeq := (y.trapSeq + 1) % 65536 }) :=
    .editRun fun _ => .of_elems rfl
  unfold State.trap
  dsimp only
  split
  · exact .after .cancelByTrap counted
  · exact .ite (.after .cancelByTrap counted)
      (.ite (.after (.editRun fun _ => .of_elems rfl) counted) (.after .present counted))

/-! ## Arrival, R21, R34, R242 -/

theorem Quiet.trapDiscarded {f : Flit} (own : f.run = r) : Quiet flags r s (s.trapDiscarded f) :=
  own ▸ .trap

theorem Quiet.keepToken {f : Flit} (own : f.run = r) : Quiet flags r s (s.keepToken f) := by
  subst own
  unfold State.keepToken
  have kept : Quiet flags f.run s
      (s.editElem f.run f.dst fun e => { e with spillHeld := e.spillHeld ++ [f] }) :=
    .editElem fun _ => .of_eq rfl rfl
  exact .ite (.after .trap kept) kept

theorem Quiet.openAct {k c i : Nat} : Quiet flags r s (s.openAct r k c i) := by
  unfold State.openAct
  split
  · exact .refl s
  · exact .after (.editElem fun _ => .of_eq rfl rfl) .takeId

theorem Quiet.notice {f : Flit} (own : f.run = r) : Quiet flags r s (s.notice f) := by
  subst own
  unfold State.notice
  exact .ite (.editElem fun _ => .of_eq rfl rfl) (.refl s)

/-- An arrival stores its token in the matching store of its element, or changes nothing of note. -/
def Arrives (flags : Bool) (f : Flit) (s t : State) : Prop :=
  Quiet flags f.run s t ∨ ∃ g, t = s.storeToken g ∧ g.run = f.run ∧ g.dst = f.dst

theorem Arrives.ite {f : Flit} {p : Prop} [Decidable p] {a b : State} (ha : Arrives flags f s a)
    (hb : Arrives flags f s b) : Arrives flags f s (if p then a else b) :=
  iteInduction (fun _ => ha) fun _ => hb

theorem State.deliver_arrives (f : Flit) (port : f.port ≠ 3) (outer : f.outer = false) :
    Arrives flags f s (s.deliver f) := by
  have gone {g : Flit} (own : g.run = f.run) : Arrives flags f s (s.trapDiscarded g) :=
    .inl (.trapDiscarded own)
  have still : Arrives flags f s s := .inl (.refl s)
  unfold State.deliver
  simp only [port, outer, if_false, Bool.false_and, Bool.false_eq_true]
  refine .ite still ?_
  split
  · exact .inl (.after (.editRun fun _ => .of_elems rfl) .takeId)
  · refine .ite (gone rfl) (.ite still ?_)
    split
    · exact .ite (gone rfl) (.ite (.inl (.notice rfl)) (.inr ⟨_, rfl, rfl, rfl⟩))
    · exact .ite (gone rfl) (.inl (.editRun fun _ => .of_elems rfl))
    · exact gone rfl

/-- The same of a token that is sent: only one for its own element is stored at once. -/
theorem State.inject_cases (f : Flit) (port : f.port ≠ 3) (outer : f.outer = false) :
    Quiet flags f.run s (s.inject f) ∨
      f.dst = f.src ∧ ∃ g, s.inject f = s.storeToken g ∧ g.run = f.run ∧ g.dst = f.dst := by
  unfold State.inject
  split_ifs with _ near
  · exact .inl (.after (.editRun fun _ => .of_elems rfl) .takeId)
  · simp only [Bool.and_eq_true, decide_eq_true_eq] at near
    exact (State.deliver_arrives f port outer).imp_right fun stored => ⟨near.1, stored⟩
  · exact .inl (.after .addFlit .takeId)

theorem port_toBits_ne_three (p : Port) : p.toBits.toNat ≠ 3 := by cases p <;> decide

/-- One emission changes nothing of note, writes the hold register that its target names, or stores a token
at the firing's own element. -/
theorem State.emitAs_cases (x : Firing) (g : Option Target) (tok : Tok) (colour iter : Nat) :
    Quiet flags x.run s (s.emitAs x g tok colour iter) ∨
      (∃ k n, g = some (.hold k) ∧
        s.emitAs x g tok colour iter = s.writeHold x.run x.elem k.toNat n iter tok) ∨
      isLocal x g ∧ ∃ f, s.emitAs x g tok colour iter = s.storeToken f ∧ f.run = x.run ∧
        f.dst = x.elem := by
  unfold State.emitAs
  split
  · exact .inl (.refl s)
  · dsimp only
    split_ifs
    · exact .inl (.refl s)
    · exact .inr (.inl ⟨_, _, rfl, rfl⟩)
  · next p slot dx dy =>
    rcases State.inject_cases (flags := flags) (s := s) ⟨x.run, x.elem, targetKey x.elem dx dy,
      slot.toNat, p.toBits.toNat, (s.run x.run).ctx, colour, iter, tok, none, false, false⟩
      (port_toBits_ne_three p) rfl with quiet | ⟨near, f, stored, run, dst⟩
    · exact .inl quiet
    · exact .inr (.inr ⟨⟨p, slot, dx, dy, rfl, near⟩, f, stored, run, dst.trans near⟩)

end

end Sys2Proof.Machine

/-! # The place of a spilled token, R242 to R244 -/

namespace Sys2Proof.Machine

/-! ## The lowest free place -/

/-- The lowest place is free, and every lower one is taken. -/
theorem lowest_free (used : List Nat) :
    let n := ((upTo (used.length + 1)).find? fun n => !used.contains n).getD used.length
    n ∉ used ∧ ∀ m < n, m ∈ used := by
  cases found : (upTo (used.length + 1)).find? fun n => !used.contains n with
  | some n =>
    rw [upTo_eq, List.find?_range_eq_some] at found
    obtain ⟨free, -, lower⟩ := found
    simpa using And.intro free lower
  | none =>
    have all : List.range (used.length + 1) ⊆ used := by
      intro n hn
      simpa using List.find?_eq_none.1 found n (by rwa [upTo_eq])
    have few := (List.nodup_range.subperm all).length_le
    simp at few

/-- It depends on which places are taken alone. -/
theorem lowest_free_congr {used taken : List Nat} (h : ∀ n, n ∈ used ↔ n ∈ taken) :
    ((upTo (used.length + 1)).find? fun n => !used.contains n).getD used.length =
      ((upTo (taken.length + 1)).find? fun n => !taken.contains n).getD taken.length := by
  obtain ⟨free, lower⟩ := lowest_free used
  obtain ⟨free', lower'⟩ := lowest_free taken
  rcases Nat.lt_trichotomy
    (((upTo (used.length + 1)).find? fun n => !used.contains n).getD used.length)
    (((upTo (taken.length + 1)).find? fun n => !taken.contains n).getD taken.length) with less | same | more
  · exact absurd ((h _).2 (lower' _ less)) free
  · exact same
  · exact absurd ((h _).1 (lower _ more)) free'

theorem Tbl.mem_of_find {α : Type} {t : Tbl α} {n : Nat} {v : α} (h : t.find n = some v) :
    (n, v) ∈ t := by
  induction t with
  | nil => cases h
  | cons q t ih =>
    unfold Tbl.find at h
    split_ifs at h with here
    · cases h
      exact here ▸ List.mem_cons_self
    · exact List.mem_cons_of_mem _ (ih h)

/-- What the entries of a table give together, where an edit changes what its entry gives in nothing. -/
theorem Tbl.mem_flatMap_edit {α β : Type} (t : Tbl α) (n : Nat) (f : α → α) (g : Nat × α → List β)
    (b : β) (same : ∀ v, b ∈ g (n, f v) ↔ b ∈ g (n, v)) :
    b ∈ (t.edit n f).flatMap g ↔ b ∈ t.flatMap g := by
  unfold Tbl.edit
  split
  · next v found =>
    induction t with
    | nil => cases found
    | cons q t ih =>
      have there := Tbl.mem_of_find found
      obtain ⟨k, w⟩ := q
      unfold Tbl.find at found
      unfold Tbl.put
      split_ifs at found ⊢ with before here here
      · omega
      · rw [List.flatMap_cons, List.mem_append, same]
        exact or_iff_right_of_imp fun h => List.mem_flatMap.2 ⟨_, there, h⟩
      · cases found
        subst here
        simp only [List.flatMap_cons, List.mem_append, same]
      · omega
      · omega
      · simp only [List.flatMap_cons, List.mem_append, ih found]
  · exact .rfl

/-- The places that an element's entries take in the spill region. -/
def Elem.spillPlaces (e : Elem) : List Nat :=
  e.waiting.filterMap Wait.spilled ++ e.acts.flatMap fun a => a.stores.filterMap Store.spilled

/-- The places that a launch takes in the spill region of a context. -/
def Run.spillPlaces (x : Run) (c : Nat) : List Nat :=
  if x.ctx = c && !x.out then x.elems.flatMap fun e => e.2.spillPlaces else []

theorem State.spillPlaces_eq (s : State) (c : Nat) :
    s.spillPlaces c = s.runs.flatMap fun r => r.2.spillPlaces c := rfl

/-- Opening an activation takes no place of a spill region. -/
theorem State.mem_spillPlaces_openAct (s : State) (r k colour iter c n : Nat) :
    n ∈ (s.openAct r k colour iter).spillPlaces c ↔ n ∈ s.spillPlaces c := by
  unfold State.openAct
  split
  · exact .rfl
  · rw [State.spillPlaces_eq, State.spillPlaces_eq]
    refine Tbl.mem_flatMap_edit s.runs r _ (fun r => r.2.spillPlaces c) n fun x => ?_
    have elem : n ∈ (x.elems.edit k fun e => { e with
          acts := e.acts ++ [Act.open_ s.nextId colour iter s.cycle] }).flatMap
          (fun e => e.2.spillPlaces) ↔ n ∈ x.elems.flatMap fun e => e.2.spillPlaces :=
      Tbl.mem_flatMap_edit _ _ _ _ _ fun e => by simp [Elem.spillPlaces, Act.open_]
    by_cases counts : (Decidable.decide (x.ctx = c) && !x.out) = true
    · exact (iff_of_eq (congrArg (n ∈ ·) (if_pos counts))).trans
        (elem.trans (iff_of_eq (congrArg (n ∈ ·) (if_pos counts)).symm))
    · exact (iff_of_eq (congrArg (n ∈ ·) (if_neg counts))).trans
        (iff_of_eq (congrArg (n ∈ ·) (if_neg counts)).symm)

theorem State.spillPlace_openAct (s : State) (r k colour iter c : Nat) :
    (s.openAct r k colour iter).spillPlace c = s.spillPlace c :=
  lowest_free_congr fun n => State.mem_spillPlaces_openAct s r k colour iter c n

/-! ## The walk of the device's own writes, R368 -/

theorem walkFrom_congr {s t : State} (mem : t.mem = s.mem) (id : t.nextId = s.nextId)
    (va left table : Nat) : walkFrom t va left table = walkFrom s va left table := by
  have num (a n : Nat) : t.num a n = s.num a n := congrArg (fun m => ofBytes (memRead m a n)) mem
  have leaf (a ix e : Nat) (own : Leaf) : t.runLeaf a ix e own = s.runLeaf a ix e own := by
    simp only [State.runLeaf, num, id]
  induction left generalizing table with
  | zero => rfl
  | succ left ih => simp only [walkFrom, num, leaf, ih]

/-- A walk reads the tables, their root and the count that chooses among the entries of a run. -/
theorem State.walkHome_congr {s t : State} (mem : t.mem = s.mem) (ctxs : t.ctxs = s.ctxs)
    (id : t.nextId = s.nextId) (c va need : Nat) : t.walkHome c va need = s.walkHome c va need := by
  have ctx : t.ctx c = s.ctx c := congrArg (Tbl.get · c) ctxs
  simp only [State.walkHome, State.walk, ctx, walkFrom_congr mem id]

/-! ## The bytes that a write of the device changes -/

theorem SameBut.of_same {p : Nat → Prop} {s t : State} (mem : t.mem = s.mem) (side : t.side = s.side) :
    SameBut p s t := by
  unfold SameBut State.sideOf
  rw [mem, side]
  exact ⟨fun _ _ => rfl, fun _ _ => rfl⟩

theorem SameBut.trans {p : Nat → Prop} {s t u : State} (h : SameBut p s t) (k : SameBut p t u) :
    SameBut p s u :=
  ⟨fun b free => (k.1 b free).trans (h.1 b free), fun b free => (k.2 b free).trans (h.2 b free)⟩

theorem SameBut.mono {p q : Nat → Prop} {s t : State} (h : SameBut p s t) (imp : ∀ b, p b → q b) :
    SameBut q s t :=
  ⟨fun b free => h.1 b fun hp => free (imp b hp),
    fun b free => h.2 b fun b' block hp => free b' block (imp b' hp)⟩

section
variable {s : State} (wf : Memory.wf s.mem = true)
include wf

/-- A write of the device changes its own bytes, and the side band of the block where they begin. -/
theorem State.deviceWrite_sameBut (a : Nat) {bs : List Byte} (some_byte : 0 < bs.length) :
    SameBut (fun b => a ≤ b ∧ b < a + bs.length) s (s.deviceWrite a bs) := by
  unfold State.deviceWrite
  split
  · exact .of_same rfl rfl
  · refine ⟨fun b free => memGet_memWrite_of_outside wf (by omega), fun b free => ?_⟩
    have apart : blockIx b ≠ blockIx a := fun same =>
      free a same.symm ⟨Nat.le_refl a, Nat.lt_add_of_pos_right some_byte⟩
    exact congrArg (fun v : Option Side => v.getD Side.reset) (Tbl.find_put_ne s.side _ apart)

theorem State.virtWrite_sameBut (c va : Nat) {bs : List Byte} (whole : bs.length = 32) :
    SameBut (s.InPlace c va) s (s.virtWrite c va bs) := by
  unfold State.virtWrite
  split
  · next a home =>
    refine (State.deviceWrite_sameBut wf a (by omega)).mono fun b inside => ?_
    exact ⟨s.nextId, a, home, inside.1, whole ▸ inside.2⟩
  · exact .of_same rfl rfl

end

theorem toBytes_length (n v : Nat) : (toBytes n v).length = n := by
  induction n generalizing v with
  | zero => rfl
  | succ n ih => simp [toBytes, ih]

theorem State.matchEntry_length (s : State) (f : Flit) : (s.matchEntry f).length = 32 := by
  simp [State.matchEntry, toBytes_length]

theorem State.InPlace.congr {s t : State} (mem : t.mem = s.mem) (ctxs : t.ctxs = s.ctxs) {c va b : Nat}
    (h : t.InPlace c va b) : s.InPlace c va b := by
  obtain ⟨n, home, walk, inside⟩ := h
  refine ⟨n, home, ?_, inside⟩
  rw [← walk]
  exact (State.walkHome_congr (s := { s with nextId := n }) (t := { t with nextId := n }) mem ctxs rfl
    ..).symm

/-- An entry goes to the place that is the next one before its activation opens. -/
theorem State.writeSpill_openAct_sameBut {s : State} (wf : Memory.wf s.mem = true)
    (r k colour iter c : Nat) {bs : List Byte} (whole : bs.length = 32) :
    SameBut (s.SpillByte c) s ((s.openAct r k colour iter).writeSpill c
      ((s.openAct r k colour iter).spillPlace c) bs) := by
  have same := State.openAct_same s r k colour iter
  have ctxs := State.openAct_ctxs s r k colour iter
  have ctx : (s.openAct r k colour iter).ctx c = s.ctx c := congrArg (Tbl.get · c) ctxs
  rw [State.spillPlace_openAct, State.writeSpill, ctx]
  exact (SameBut.of_same same.mem same.side).trans
    ((State.virtWrite_sameBut (same.mem ▸ wf) c _ whole).mono fun _ => .congr same.mem ctxs)

/-- A token that is stored changes memory where it spills, in the next place of the spill region (R243,
R244; the lowest one by log 68). -/
theorem State.storeToken_sameBut {s : State} (wf : Memory.wf s.mem = true) (f : Flit) :
    SameBut (s.SpillByte (s.run f.run).ctx) s (s.storeToken f) := by
  have opened := State.openAct_same s f.run f.dst f.colour f.iter
  unfold State.storeToken
  dsimp only
  split
  · exact .of_same (State.keepToken_same s f).mem (State.keepToken_same s f).side
  · split
    · next k place =>
      split_ifs at place
      cases place
      exact State.writeSpill_openAct_sameBut wf _ _ _ _ _ (State.matchEntry_length ..)
    · exact .of_same opened.mem opened.side

end Sys2Proof.Machine

/-! # Storing a token at its own element -/

namespace Sys2Proof.Machine

/-! ## Elements after an edit -/

theorem State.elem_editElem_or (s : State) (r k : Nat) (f : Elem → Elem) :
    (s.editElem r k f).elem r k = s.elem r k ∨ (s.editElem r k f).elem r k = f (s.elem r k) := by
  rcases Tbl.get_edit s.runs r r fun x => { x with elems := x.elems.edit k f } with same | ⟨-, edited⟩
  · exact .inl (congrArg (fun x : Run => x.elems.get k) same)
  · have elem : (s.editElem r k f).elem r k = ((s.run r).elems.edit k f).get k :=
      congrArg (fun x : Run => x.elems.get k) edited
    rw [elem]
    exact (Tbl.get_edit (s.run r).elems k k f).imp_right And.right

theorem State.elem_editElem_ne (s : State) (r : Nat) {k j : Nat} (f : Elem → Elem) (h : j ≠ k) :
    (s.editElem r k f).elem r j = s.elem r j := by
  rcases Tbl.get_edit s.runs r r fun x => { x with elems := x.elems.edit k f } with same | ⟨-, edited⟩
  · exact congrArg (fun x : Run => x.elems.get j) same
  · exact (congrArg (fun x : Run => x.elems.get j) edited).trans (Tbl.get_edit_ne _ f h)

theorem Quiet.holds {flags : Bool} {r : Nat} {s t : State} (h : Quiet flags r s t) (k : Nat) :
    (t.elem r k).holds = (s.elem r k).holds := (h.elems k).holds

theorem Quiet.ways {flags : Bool} {r k n : Nat} {s t : State} (h : Quiet flags r s t)
    (ways : (s.elem r k).HasWays n) : (t.elem r k).HasWays n := (h.elems k).ways n ways

theorem Elem.HasWays.mono {e : Elem} {m n : Nat} (h : e.HasWays n) (le : m ≤ n) : e.HasWays m :=
  fun set => ⟨(Nat.add_le_add_left le _).trans (h set).1, (h set).2⟩

/-- What `State.storeToken` makes of the element, with the entry of the token. -/
def Elem.stored (e : Elem) (full : Bool) (w : Wait) : Elem :=
  { (e.count 1 1).count 2 (if full then 1 else 0) with waiting := e.waiting ++ [w] }

theorem Elem.HasWays.stored {e : Elem} {n : Nat} (h : e.HasWays (n + 1)) (full : Bool) {w : Wait}
    (inside : w.spilled = none) : (e.stored full w).HasWays n := by
  intro set
  obtain ⟨room, whole⟩ := h set
  unfold Elem.inSet at room
  unfold Elem.setSpills at whole
  constructor
  · have one := List.length_filter_le
      (fun w : Wait => w.spilled.isNone && Decidable.decide (setOf w.slot w.iter w.colour = set)) [w]
    simp only [Elem.inSet, Elem.stored, List.filter_append, List.length_append]
    simp only [List.length_singleton] at one
    omega
  · simp only [Elem.setSpills, Elem.stored, List.any_append, whole]
    simp [inside]

/-! ## Storing, R242 to R245 -/

section
variable {flags : Bool} {r : Nat} {s t u : State}

theorem Calm.editRun {f : Run → Run} : Calm flags r s (s.editRun r f) :=
  ⟨rfl, rfl, rfl, rfl, rfl, rfl, rfl, rfl, rfl,
    fun _ hq => ⟨[], (Tbl.get_edit_ne s.runs f hq).trans (Run.dropSeeds_nil _).symm⟩, fun _ => .refl _⟩

theorem State.writeSpill_runs (s : State) (c k : Nat) (bs : List Byte) :
    (s.writeSpill c k bs).runs = s.runs := by
  unfold State.writeSpill State.virtWrite State.deviceWrite
  split
  · split <;> rfl
  · rfl

theorem Calm.writeSpill {c k : Nat} {bs : List Byte} : Calm flags r s (s.writeSpill c k bs) := by
  have same {t : State} : Calm flags r t t := (Quiet.refl t).toCalm
  unfold State.writeSpill State.virtWrite State.deviceWrite
  split
  · split
    · exact same
    · exact .of_same rfl rfl ⟨rfl, rfl, rfl, rfl, rfl, rfl, rfl, rfl, rfl⟩
  · exact same

/-- A token is kept at its element, or stands in its matching store with an entry that spills only where
its set has no way left. -/
theorem State.storeToken_cases (s : State) (f : Flit) : s.storeToken f = s.keepToken f ∨
    ∃ u full w, s.storeToken f = u.editElem f.run f.dst (fun e => e.stored full w) ∧
      u.runs = (s.openAct f.run f.dst f.colour f.iter).runs ∧
      Calm flags f.run s u ∧ ((s.elem f.run f.dst).HasWays 1 → w.spilled = none) := by
  have opened : Quiet flags f.run s (s.openAct f.run f.dst f.colour f.iter) := .openAct
  unfold State.storeToken
  dsimp only
  split
  · exact .inl rfl
  · split
    · next k place =>
      split_ifs at place with full
      refine .inr ⟨_, _, _, rfl, State.writeSpill_runs .., opened.toCalm.trans .writeSpill, fun ways => ?_⟩
      obtain ⟨room, whole⟩ := ways (setOf f.slot f.iter f.colour)
      simp [whole] at full
      omega
    · next place => exact .inr ⟨_, _, _, rfl, rfl, opened.toCalm, fun _ => place⟩

theorem Calm.storeToken {f : Flit} (own : f.run = r) : Calm flags r s (s.storeToken f) := by
  subst own
  rcases State.storeToken_cases (flags := flags) s f with kept | ⟨u, full, w, stored, -, calm, -⟩
  · exact kept ▸ (Quiet.keepToken rfl).toCalm
  · exact stored ▸ calm.trans .editRun

theorem State.storeToken_holds (s : State) (f : Flit) (k : Nat) :
    ((s.storeToken f).elem f.run k).holds = (s.elem f.run k).holds := by
  rcases State.storeToken_cases (flags := false) s f with kept | ⟨u, full, w, stored, runs, -⟩
  · rw [kept]
    exact (Quiet.keepToken (flags := false) rfl).holds k
  · have view := State.elem_editElem_view u f.run f.dst f.run k (fun e => e.stored full w) Elem.holds
      fun _ => rfl
    rw [stored, view, State.elem, State.run, runs]
    exact (Quiet.openAct (flags := false)).holds k

/-- One token takes at most one way of its set. -/
theorem State.storeToken_ways {f : Flit} {n : Nat} (h : (s.elem f.run f.dst).HasWays (n + 1)) :
    ((s.storeToken f).elem f.run f.dst).HasWays n := by
  rcases State.storeToken_cases (flags := false) s f with kept | ⟨u, full, w, stored, runs, -, entry⟩
  · rw [kept]
    exact ((Quiet.keepToken (flags := false) rfl).ways h).mono n.le_succ
  · have ways : (u.elem f.run f.dst).HasWays (n + 1) := by
      rw [State.elem, State.run, runs]
      exact (Quiet.openAct (flags := false)).ways h
    rw [stored]
    rcases State.elem_editElem_or u f.run f.dst fun e => e.stored full w with same | edited
    · rw [same]
      exact ways.mono n.le_succ
    · rw [edited]
      exact ways.stored full (entry (h.mono (Nat.succ_le_succ n.zero_le)))

end

end Sys2Proof.Machine

/-! # The frame of the token words, R101, R102, R243, R244 -/

namespace Sys2Proof.Machine

/-! ## Writing a hold register -/

theorem Elem.written_holds_ne (e : Elem) (now j colour iter : Nat) (t : Tok) {k : Nat} (h : k ≠ j) :
    (e.written now j colour iter t).holds[k]? = e.holds[k]? := by
  rw [Elem.written_view e now j colour iter t (fun z => z.holds[k]?) fun _ _ _ => rfl]
  split
  · rfl
  · exact listSet_getElem?_ne _ h _

theorem Elem.written_waiting (e : Elem) (now j colour iter : Nat) (t : Tok) :
    (e.written now j colour iter t).waiting = e.waiting := by
  rw [Elem.written_view e now j colour iter t Elem.waiting fun _ _ _ => rfl]
  split <;> rfl

/-! ## One emission -/

section
variable {flags : Bool} {s : State} (x : Firing) (g : Option Target) (tok : Tok) (colour iter : Nat)

theorem Calm.emitAs : Calm flags x.run s (s.emitAs x g tok colour iter) := by
  rcases State.emitAs_cases (flags := flags) (s := s) x g tok colour iter with
    quiet | ⟨k, n, -, written⟩ | ⟨-, f, stored, own, -⟩
  · exact quiet.toCalm
  · exact written ▸ .editRun
  · exact stored ▸ .storeToken own

/-- An emission changes no hold register but the one that its target names (R65). -/
theorem State.emitAs_holds {e k : Nat} (other : e = x.elem → ¬ isHold g k) :
    ((s.emitAs x g tok colour iter).elem x.run e).holds[k]? = (s.elem x.run e).holds[k]? := by
  rcases State.emitAs_cases (flags := false) (s := s) x g tok colour iter with
    quiet | ⟨j, n, rfl, written⟩ | ⟨-, f, stored, own, -⟩
  · rw [quiet.holds e]
  · rw [written, State.writeHold_eq]
    by_cases own : e = x.elem
    · have ne : k ≠ j.toNat := fun same => other own ⟨j, rfl, same.symm⟩
      exact State.elem_editElem_view s _ _ _ _ _ (fun z => z.holds[k]?) fun z =>
        z.written_holds_ne _ _ _ _ _ ne
    · rw [State.elem_editElem_ne s _ _ own]
  · rw [stored, ← own, State.storeToken_holds]

/-- An emission changes memory where its target is a slot of the firing's own element, and there the next
place of the spill region. -/
theorem State.emitAs_sameBut (wf : Memory.wf s.mem = true) :
    SameBut (fun b => isLocal x g ∧ s.SpillByte (s.run x.run).ctx b) s
      (s.emitAs x g tok colour iter) := by
  rcases State.emitAs_cases (flags := false) (s := s) x g tok colour iter with
    quiet | ⟨j, n, rfl, written⟩ | ⟨near, f, stored, own, -⟩
  · exact .of_same quiet.mem quiet.side
  · exact .of_same (written ▸ rfl) (written ▸ rfl)
  · rw [stored, ← own]
    exact (State.storeToken_sameBut wf f).mono fun b spilled => ⟨near, spilled⟩

/-- With a free way in every set an emission leaves memory alone and takes at most one way. -/
theorem State.emitAs_ways {n : Nat} (h : (s.elem x.run x.elem).HasWays (n + 1)) :
    SameStore s (s.emitAs x g tok colour iter) ∧
      ((s.emitAs x g tok colour iter).elem x.run x.elem).HasWays n := by
  have device := State.emitAs_device s x g tok colour iter
  rcases State.emitAs_cases (flags := false) (s := s) x g tok colour iter with
    quiet | ⟨j, m, rfl, written⟩ | ⟨-, f, stored, own, there⟩
  · exact ⟨⟨device, quiet.mem, quiet.side⟩, (quiet.ways h).mono n.le_succ⟩
  · rw [written]
    refine ⟨State.writeHold_same .., ?_⟩
    rw [State.writeHold_eq]
    exact (h.mono n.le_succ).of_waiting (State.elem_editElem_view s _ _ _ _ _ Elem.waiting fun z =>
      z.written_waiting ..)
  · rw [← own, ← there] at h ⊢
    rw [stored]
    exact ⟨State.storeToken_same s f (h.mono (Nat.succ_le_succ n.zero_le)), State.storeToken_ways h⟩

/-- For another element or a hold register it leaves memory alone. -/
theorem State.emitAs_same (away : ¬ isLocal x g) : SameStore s (s.emitAs x g tok colour iter) := by
  have device := State.emitAs_device s x g tok colour iter
  rcases State.emitAs_cases (flags := false) (s := s) x g tok colour iter with
    quiet | ⟨j, m, rfl, written⟩ | ⟨near, -⟩
  · exact ⟨device, quiet.mem, quiet.side⟩
  · exact written ▸ State.writeHold_same ..
  · exact absurd near away

end

/-! ## All emissions of a word -/

section
variable {flags : Bool} {x : Firing} {gs : List (Option Target)} {u t : State}

theorem EmitsTo.calm (h : EmitsTo x gs u t) : Calm flags x.run u t := by
  induction h with
  | done u => exact (Quiet.refl u).toCalm
  | send _ ih => exact (Calm.emitAs ..).trans ih

theorem EmitsTo.holds (h : EmitsTo x gs u t) {e k : Nat}
    (others : e = x.elem → ∀ g ∈ gs, ¬ isHold g k) :
    (t.elem x.run e).holds[k]? = (u.elem x.run e).holds[k]? := by
  induction h with
  | done u => rfl
  | send _ ih =>
    rw [ih fun own g hg => others own g (List.mem_cons_of_mem _ hg),
      State.emitAs_holds _ _ _ _ _ fun own => others own _ List.mem_cons_self]

theorem EmitsTo.sameBut (h : EmitsTo x gs u t) (wf : Memory.wf u.mem = true) :
    SameBut (fun b => Spills x b gs u) u t := by
  induction h with
  | done u => exact .of_same rfl rfl
  | send _ ih =>
    refine ((State.emitAs_sameBut _ _ _ _ _ wf).mono fun b => .inl).trans
      ((ih (State.Canonical.emitAs wf)).mono fun b spilled => .inr (.inr ⟨_, _, _, spilled⟩))

theorem EmitsTo.same_of_away (h : EmitsTo x gs u t) (away : ∀ g ∈ gs, ¬ isLocal x g) :
    SameStore u t := by
  induction h with
  | done u => exact .refl u
  | send _ ih =>
    exact (State.emitAs_same _ _ _ _ _ (away _ List.mem_cons_self)).trans
      (ih fun g hg => away g (List.mem_cons_of_mem _ hg))

theorem EmitsTo.same_of_ways (h : EmitsTo x gs u t)
    (ways : (u.elem x.run x.elem).HasWays gs.length) : SameStore u t := by
  induction h with
  | done u => exact .refl u
  | send _ ih =>
    obtain ⟨same, left⟩ := State.emitAs_ways _ _ _ _ _ ways
    exact same.trans (ih left)

end

/-! ## Trap registers and jobs -/

/-- The trap registers of a launch, the jobs and, where no flags are raised, the contexts are as before. -/
structure Silent (flags : Bool) (r : Nat) (s t : State) : Prop where
  trapRegs : (t.run r).trapRegs = (s.run r).trapRegs
  presented : (t.run r).presented = (s.run r).presented
  jobs : t.jobs = s.jobs
  ctxs : flags = false → t.ctxs = s.ctxs

section
variable {flags : Bool} {r : Nat} {s t u : State}

theorem Silent.refl (s : State) : Silent flags r s s := ⟨rfl, rfl, rfl, fun _ => rfl⟩

theorem Silent.trans (h : Silent flags r s t) (k : Silent flags r t u) : Silent flags r s u :=
  ⟨k.trapRegs.trans h.trapRegs, k.presented.trans h.presented, k.jobs.trans h.jobs,
    fun none => (k.ctxs none).trans (h.ctxs none)⟩

theorem Silent.editRun {q : Nat} {f : Run → Run} (regs : ∀ x, (f x).trapRegs = x.trapRegs)
    (shown : ∀ x, (f x).presented = x.presented) : Silent flags r s (s.editRun q f) :=
  ⟨State.run_editRun_view s q r f Run.trapRegs regs, State.run_editRun_view s q r f Run.presented shown,
    rfl, fun _ => rfl⟩

theorem Silent.inject {f : Flit} (away : f.dst ≠ f.src) : Silent flags r s (s.inject f) := by
  unfold State.inject
  split_ifs with _ near
  · have named : Silent flags r s s.takeId.2 := ⟨rfl, rfl, rfl, fun _ => rfl⟩
    dsimp only
    exact named.trans (.editRun (fun _ => rfl) fun _ => rfl)
  · simp [away] at near
  · exact ⟨rfl, rfl, rfl, fun _ => rfl⟩

theorem Silent.emitAs {x : Firing} {g : Option Target} {tok : Tok} {colour iter : Nat}
    (away : ¬ isLocal x g) : Silent flags r s (s.emitAs x g tok colour iter) := by
  unfold State.emitAs
  split
  · exact .refl s
  · dsimp only
    split
    · exact .refl s
    · exact .editRun (fun _ => rfl) fun _ => rfl
  · exact .inject fun near => away ⟨_, _, _, _, rfl, near⟩

theorem EmitsTo.silent {x : Firing} {gs : List (Option Target)} (h : EmitsTo x gs u t)
    (away : ∀ g ∈ gs, ¬ isLocal x g) : Silent flags r u t := by
  induction h with
  | done u => exact .refl u
  | send _ ih =>
    exact (Silent.emitAs (away _ List.mem_cons_self)).trans
      (ih fun g hg => away g (List.mem_cons_of_mem _ hg))

/-! ## Where a word begins to emit -/

/-- Flags that a firing raises stay in its activation or are added to FLAGS (R53). -/
theorem State.raise_cases (s : State) (x : Firing) (fl : Nat) : s.raise x fl = s ∨
    s.raise x fl = s.editAct x.run x.elem x.act (fun a => { a with flags := a.flags ||| fl }) ∨
    s.raise x fl = s.orFlags (s.run x.run).ctx fl := by
  unfold State.raise
  split_ifs
  · exact .inl rfl
  · split
    · split
      · exact .inr (.inr rfl)
      · exact .inr (.inl rfl)
    · exact .inr (.inr rfl)

theorem Quiet.orFlags {c fl : Nat} (may : flags = true) : Quiet flags r s (s.orFlags c fl) :=
  .editCtx fun y => ⟨y.colours, y.waiting, [], fl, fun none => Bool.noConfusion (may.symm.trans none),
    by rw [FarState.without_nil]⟩

theorem Begins.quiet {x : Firing} (h : Begins s x flags u) : Quiet flags x.run s u := by
  have taken : Quiet flags x.run s (s.taken x) :=
    .of_same rfl rfl ⟨rfl, rfl⟩ ⟨rfl, rfl, rfl, rfl, rfl, rfl, rfl, rfl, rfl⟩
  cases h with
  | taken => exact taken
  | exited => exact taken.trans (.editElem fun _ => .of_eq rfl rfl)
  | raised fl may =>
    rcases State.raise_cases (s.taken x) x fl with same | open_ | trailing
    · rwa [same]
    · rw [open_]
      exact taken.trans (.editElem fun _ => .of_eq rfl rfl)
    · rw [trailing]
      exact taken.trans (.orFlags may)

theorem Begins.silent {x : Firing} (h : Begins s x flags u) : Silent flags r s u := by
  have taken : Silent flags r s (s.taken x) := ⟨rfl, rfl, rfl, fun _ => rfl⟩
  cases h with
  | taken => exact taken
  | exited => exact taken.trans (.editRun (fun _ => rfl) fun _ => rfl)
  | raised fl may =>
    rcases State.raise_cases (s.taken x) x fl with same | open_ | trailing
    · rwa [same]
    · rw [open_]
      exact taken.trans (.editRun (fun _ => rfl) fun _ => rfl)
    · rw [trailing]
      exact ⟨rfl, rfl, rfl, fun none => Bool.noConfusion (may.symm.trans none)⟩

end

/-! ## The statement -/

section
variable {flags : Bool} {x : Firing} {s t : State}

theorem Calm.beyond (h : Calm flags x.run s t) : SameBeyond x s t :=
  ⟨h.life, h.dies, h.queues, h.links, h.owners, h.quarantine, h.tlb, h.tlbinv, h.cycle, h.runs⟩

theorem Calm.sameContextsButFlags (h : Calm flags x.run s t) : SameContextsButFlags s t := by
  intro c
  obtain ⟨cols, waits, gone, fl, -, eq⟩ := h.ctxs c
  rw [eq]
  exact ⟨gone, rfl, by rw [Nat.or_right_comm, Nat.or_self]⟩

theorem Calm.sameContexts (h : Calm false x.run s t) : SameContexts s t := by
  intro c
  obtain ⟨cols, waits, gone, fl, none, eq⟩ := h.ctxs c
  rw [eq, none rfl, Nat.or_zero]
  exact ⟨gone, rfl⟩

end

theorem not_isLocal_none (x : Firing) : ¬ isLocal x none := by
  rintro ⟨_, _, _, _, target, -⟩
  cases target

theorem not_isHold_none (k : Nat) : ¬ isHold none k := by
  rintro ⟨_, target, -⟩
  cases target

/-- A property of every target of a word without a third one. -/
theorem forall_targetsOf {i : Instr} {p : Option Target → Prop} (two : thirdOf i = none)
    (ta : p (outOf i).ta) (tb : p (outOf i).tb) (none : p none) : ∀ g ∈ targetsOf i, p g := by
  simp only [targetsOf, two, List.forall_mem_cons, List.not_mem_nil, false_implies, implies_true,
    and_true]
  exact ⟨ta, tb, none⟩

/-- Settles O12: a token word begins to emit in a state that is `Quiet` from the one before, and every
emission is `Calm`; what it stores, writes and spills is said target by target. -/
theorem tokenWordsLeaveAllElseAlone : Obligations.TokenWordsLeaveAllElseAlone := by
  intro i s t x token focus next
  obtain ⟨u, begins, emits⟩ := exec_emitsTo focus token t next
  have quiet := begins.quiet
  have calm := quiet.toCalm.trans emits.calm
  have stored (same : SameStore u t) : t.mem = s.mem ∧ t.side = s.side :=
    ⟨same.mem.trans quiet.mem, same.side.trans quiet.side⟩
  refine ⟨calm.beyond, fun wf => ?_, fun free => stored ?_, calm.sameContextsButFlags,
    fun silent => Calm.sameContexts (silent ▸ calm), fun two e k others => ?_, fun two ta tb => ?_⟩
  · exact (SameBut.of_same quiet.mem quiet.side).trans
      ((emits.sameBut (quiet.mem ▸ wf)).mono fun b spilled => ⟨u, begins.emits, spilled⟩)
  · exact free.elim emits.same_of_away fun ways => emits.same_of_ways (quiet.ways ways)
  · rw [emits.holds fun own => forall_targetsOf two (others own).1 (others own).2 (not_isHold_none k),
      quiet.holds e]
  · have away : ∀ g ∈ targetsOf i, ¬ isLocal x g := forall_targetsOf two ta tb (not_isLocal_none x)
    have silent := begins.silent.trans (emits.silent (r := x.run) away)
    exact ⟨silent.trapRegs, silent.presented, silent.jobs, silent.ctxs⟩

end Sys2Proof.Machine
